-- ==== Sys2Proof/Word.lean ====
section
/-! DEFINITION. Word.lean: the plain types of values: bytes, words, byte strings, and tables (sparse data by key). -/

namespace Sys2Proof

/-- One byte. -/
abbrev Byte := BitVec 8
/-- A 16-bit word. -/
abbrev W16 := BitVec 16
/-- A 32-bit word: a register, an FP32 or INT32 element. -/
abbrev W32 := BitVec 32
/-- A 64-bit word. -/
abbrev W64 := BitVec 64
/-- A string of bytes, in ascending address order. -/
abbrev Bytes := List Byte
/-- A table: entries by ascending key. A key without an entry holds the table's default. -/
abbrev Tab (α : Type) := List (Nat × α)
/-- A memory: bytes by address, 0 where nothing is listed. -/
abbrev Mem := Tab Byte

end Sys2Proof
end

