-- ==== Sys2Proof/Syntax.lean ====
section
/-! DEFINITION. Syntax.lean: the commands of the block, one constructor per row of spec/opcode_table.json, with the
operands that the row's rule names. -/

namespace Sys2Proof

/-- What starts a device reset (R493, R366, R494). -/
inductive ResetCause where
  | resetPin | perst | hotReset | linkDown | coreSupply
  deriving DecidableEq, Repr

/-- The memories that carry the on-chip code (R27). -/
inductive SramMem where
  | palette | canvas | vocabulary | stencil | intake | control
  deriving DecidableEq, Repr

/-- What self-test finds in one macro (R438, R439): the failing rows with the failing column groups of each, and the
state of its spares. `retestFails` says that the retest with the spares in place fails. -/
structure MacroTest where
  mem : SramMem
  unit : Nat
  index : Nat
  rows : List (Nat × List Nat)
  badSpareRows : Nat
  spareGroupBad : Bool
  retestFails : Bool
  deriving DecidableEq, Repr

/-- A row of LPDDR5 by channel, rank, bank and row. -/
structure RowAt where
  chan : Nat
  rank : Nat
  bank : Nat
  row : Nat
  deriving DecidableEq, Repr

/-- What training and the memory test find (R396, R408): whether every step passed, what the mode registers say
(R395), and each failing row with whether a repair resource is there and whether the row passes after repair. -/
structure TrainResult where
  ok : Bool
  densityCode : Nat
  ranksM1 : Nat
  hppr : Bool
  failing : List (RowAt × Bool × Bool)
  deriving DecidableEq, Repr

/-- The options of a picture's active parameter sets that R280 judges: profile_idc and level_idc as the codec's standard numbers
them, constraint_set1_flag, the tier, chroma_format_idc, field coding (frame_mbs_only_flag 0 or field_seq_flag 1), and slices in
a form that is not supported (FMO, ASO or redundant slices). -/
structure VideoOpts where
  profile : Nat := 100
  level : Nat := 51
  set1 : Bool := false
  high : Bool := false
  chroma : Nat := 1
  fields : Bool := false
  slices : Bool := false
  deriving DecidableEq, Repr

/-- What the header pass of a video segment finds of one picture (R280, R293): output size, colours, sample depth in bits,
the reference pictures that its parameter sets need, whether it is an IDR or IRAP picture, and its options. -/
structure PicHeader where
  width : Nat
  height : Nat
  colours : Nat
  depth : Nat
  dpb : Nat
  idr : Bool
  opts : VideoOpts := {}
  deriving DecidableEq, Repr

/-- What the header pass of a video segment gives (R293): each picture's header, or a fault. -/
inductive HeaderResult where
  | ok (pictures : List PicHeader)
  | corrupt
  deriving DecidableEq, Repr

/-- A decoded picture: its size, sample depth in bits (8, 10 or 16), and planes of samples in raster order. `ycc` says
that the planes are Y, Cb and Cr (or Y alone) at full resolution, with the matrix and range of R291. `idr` says that it
is an IDR or IRAP picture, `refsLost` that it references, directly or through others, a picture that was dropped
(R287), and `dpb` and `opts` give the reference pictures and the options of a video picture's parameter sets (R280). -/
structure Picture where
  width : Nat
  height : Nat
  depth : Nat
  planes : List (List Nat)
  ycc : Bool
  bt709 : Bool
  limited : Bool
  idr : Bool
  refsLost : Bool
  dpb : Nat := 0
  opts : VideoOpts := {}
  deriving DecidableEq, Repr

/-- How a view's decode ends (R283). The pictures of `truncated` hold the samples that the data gave, row by row. -/
inductive DecodeResult where
  | decoded (pics : List Picture)
  | corrupt
  | truncated (pics : List Picture)
  deriving DecidableEq, Repr

/-- What link training learns of the neighbour (R415). -/
structure LinkPeer where
  lanesOk : Bool
  minVer : Nat
  maxVer : Nat
  uid : Nat
  identity : Bytes
  owner : Bytes
  deriving DecidableEq, Repr

/-- A ring discovery flit (R420): its sender and the hops it has made. -/
structure DiscFlit where
  origin : Nat
  hops : Nat
  deriving DecidableEq, Repr

/-- A job confirmation flit (R420). -/
structure ConfirmFlit where
  origin : Nat
  hops : Nat
  job : Nat
  n : Nat
  index : Nat
  cls : Nat
  maxBlock : Nat
  shard : Bytes
  owner : Bytes
  agree : Bool
  deriving DecidableEq, Repr

/-- A ring barrier token (R421): the job, and whether it is the completion token. -/
structure TokenFlit where
  job : Nat
  complete : Bool
  deriving DecidableEq, Repr

/-- A message of the identity challenge (R424); `ends` says that the sender's pairing is over: refused with a status, or
dissolved (0). The form is the model's (log 50). -/
inductive ChallengeMsg where
  | nonce (n : Bytes) (activeRole : Bool)
  | signature (publicKey sig : Bytes)
  | ends (status : Nat)
  deriving DecidableEq, Repr

/-- A mirror message (R425): a context's newest state, a context that is gone, bytes that MEM_COPY wrote to a region, the
bindings (an empty record, or no context, where one ends), where a queue stands at the start of mirroring, an accepted
descriptor with its view list and the new SQ head, a stored line of a page with the geometry
block that the page would have if it ended there, the geometry block of a page, a record with its body, slot and body
offset, a CQ head, the reference instant of an accepted sample (R21, R428), bytes of the message that follows, and the end
of initial mirroring. A message whose bytes are more
than 4 KiB (R59, R416) sends them ahead in messages of `data`, of which each begins a new piece or goes on with the last
one, and itself leaves them empty. The spec gives what is mirrored, not the form of the messages (log 50). -/
inductive MirrorMsg where
  | context (handle : Nat) (params : Bytes) (bundles : List Bytes) (profile : Bytes) (entry : Option Nat)
      (windows : List (Nat × Nat × Nat)) (lexicons : List (Nat × Bytes))
  | gone (handle : Nat)
  | region (handle index size offset : Nat) (data : Bytes)
  | queue (queue ctx : Nat) (record : Bytes)
  | stream (stream ctx cq : Nat) (record : Bytes)
  | queueAt (queue head tail passes bodyAt : Nat) (bodyUse : List Nat)
  | textStream (handle : Nat) (ctx : Option Nat)
  | submission (ctx queue no head time : Nat) (descriptor views : Bytes)
  | pageLine (ctx cq port page row start fin colours sampleBytes width aspect geometry : Nat) (data : Bytes)
  | geometry (ctx cq port page block fin : Nat)
  | record (ctx queue slot bodyOff : Nat) (record body : Bytes)
  | cqHead (queue head : Nat)
  | reference (ctx queue no time : Nat)
  | data (fresh : Bool) (bytes : Bytes)
  | initialDone
  deriving DecidableEq, Repr

/-- What the test and debug port reaches (R472): palettes, canvases, external memory, and what else the device holds that
the spec does not lay out (the studio controller, the easels' registers, the other memories). -/
inductive DebugSpace where
  | palette
  | canvas
  | external
  | other
  deriving DecidableEq, Repr

/-- An access through the test and debug port (R472). -/
inductive DebugAccess where
  | idRead
  | attach
  | detach
  | fuseWrite
  /-- a read of `n` bytes, or a write, at a byte address of what the port reaches; `unit` is an easel or an atelier -/
  | read (space : DebugSpace) (unit addr n : Nat)
  | write (space : DebugSpace) (unit addr : Nat) (data : List Byte)
  deriving DecidableEq, Repr

/-- The power state that a function moves to (R366), and whether the link goes to L2 with it. -/
inductive PciPower where
  | d0
  | d3hot (l2 : Bool)
  deriving DecidableEq, Repr

/-- The commands: one constructor per row of the opcode table, in its order. -/
inductive Instr where
  /-- POWER_ON_RESET (R493): The AON supply rises and clears everything except fuses, including device time. -/
  | powerOnReset
  /-- DEVICE_RESET (R493): RESET_N low, PERST_N, hot reset or link down, a thermal trip, or CORE_PG falling outside SLEEP resets everything that the AON does not hold; this ends a freeze. -/
  | deviceReset (cause : ResetCause)
  /-- RELEASE_OF_RESET (R502): RESET_N and PERST_N are both high; the device asserts CORE_EN and waits for CORE_PG. -/
  | releaseOfReset
  /-- CORE_PG_RISE (R485): CORE_PG rises after CORE_EN; the core power switches close and boot or the wake sequence goes on. -/
  | corePgRise (bootSrc : Nat) (i3cAddr : Nat)
  /-- FIRMWARE_RESTART (R493): An FLR of PF0 while frozen destroys every context, clears the non-secure mailboxes, retrains memory and ends the freeze. -/
  | firmwareRestart
  /-- SEAL_CORE_RESTART (R460): The seal-core watchdog lapses for 100 ms; the seal firmware reloads, the identity key is derived again and the secure channels are cleared. -/
  | sealCoreRestart
  /-- THERMAL_TRIP (R492): A sensor reads 115 °C or more; the hardware holds the device in reset and drives THERMTRIP_N low. -/
  | thermalTrip
  /-- THERMAL_TRIP_RELEASE (R492): Every sensor reads below 95 °C; the device leaves the trip reset and boots with cause THERMAL_TRIP. -/
  | thermalTripRelease
  /-- COMPARATOR_TRIP (R476): An AON comparator input holds above 0.600 V for two oscillator cycles; WAKE_CAUSE is set and the trip acts as a paper trip or a supply monitor trip. -/
  | comparatorTrip (n : Nat)
  /-- COMPARATOR_REARM (R476): A comparator input falls below 0.560 V; the comparator rearms, and supply-monitor FEED_HOLD can release. -/
  | comparatorRearm (n : Nat)
  /-- AON_TIMER_MATURE (R479): The AON timer matures; the device wakes, reads the thermal sensors and MR4, and returns to SLEEP if nothing is pending. -/
  | aonTimerMature (junction : Int) (mr4Hot : Bool)
  /-- WAKE_SEQUENCE_COMPLETE (R485): Intake is ready and POWER_STATE reads ACTIVE; a waking paper trip starts its capture and stored queue doorbells are acted on. -/
  | wakeSequenceComplete
  /-- IDLE_ENTRY (R481): After 1 ms with no work, firmware gates the arithmetic and fabric clocks and puts LPDDR5 in self-refresh. -/
  | idleEntry
  /-- SLEEP_ENTRY (R482): After 10 s of IDLE with the conditions met, firmware saves state and enters SLEEP, with the AON holding the pads. -/
  | sleepEntry
  /-- THERMAL_SAMPLE (R491): Every 1 ms, firmware reads the junction sensors and power monitors and moves the throttle step. -/
  | thermalSample (junction : Int) (p100us : Nat) (over55 : Bool) (p10ms : Nat) (mr4Hot : Bool)
  /-- PTM_DIALOGUE (R489): Every 10 ms, firmware completes a PTM dialogue and slews, steps or slows device time. -/
  | ptmDialogue (master : Nat)
  /-- DEVICE_TIME_LO_READ (R341): A read of DEVICE_TIME_LO returns the low word and latches the high word into DEVICE_TIME_HI. -/
  | deviceTimeLoRead
  /-- WAKE_CAUSE_CLEAR (R478): A write-one-to-clear to WAKE_CAUSE clears the written bits. -/
  | wakeCauseClear (v : Nat)
  /-- EVENT_STATUS_CLEAR (R344): A write-one-to-clear to EVENT_STATUS clears the written bits; clearing db_error also clears DB_ERROR.valid. -/
  | eventStatusClear (fn : Nat) (v : Nat)
  /-- DB_ERROR_COUNT_READ (R341): A read of DB_ERROR_COUNT returns the count and clears it. -/
  | dbErrorCountRead
  /-- REGISTER_WRITE (R340): A write to a register with no row of its own stores the value, or is ignored for read-only and reserved offsets. -/
  | registerWrite (fn : Nat) (bar : Nat) (off : Nat) (v : Nat)
  /-- PCIE_LINK_TRAINING (R336): The PCIe link trains to the highest common rate and width; LINK_STATUS is updated. -/
  | pcieLinkTraining (rate : Nat) (width : Nat)
  /-- FLR_PF0 (R365): An FLR of PF0, when the device is not frozen, destroys every context as ABORT without records, unbinds every queue and binding, and clears the PF0 mailboxes. -/
  | flrPf0
  /-- FLR_PF1 (R365): An FLR of PF1 clears only the secure channels that PF1 owns. -/
  | flrPf1
  /-- BUS_MASTER_ENABLE_WRITE (R365): Clearing Bus Master Enable holds all device requests and records; setting it resumes them and sends pending vectors. -/
  | busMasterEnableWrite (fn : Nat) (v : Bool)
  /-- PCI_POWER_STATE_WRITE (R366): A function moves between D0 and D3hot; in D3hot, requests and records are held. -/
  | pciPowerStateWrite (fn : Nat) (power : PciPower) (pmeEn : Bool)
  /-- MSIX_UNMASK (R348): Unmasking a vector whose pending bit is set sends the vector once. -/
  | msixUnmask (fn : Nat) (vec : Nat)
  /-- HOST_READ_ERROR (R338): A device read of host memory ends in completion timeout, UR or CA; this is a CONTAINED error on the owning context. -/
  | hostReadError (ctx : Nat)
  /-- I3C_TARGET_RESET (R372): An I3C target reset clears the secure channels that I3C owns. -/
  | i3cTargetReset
  /-- I3C_PRIVATE_WRITE (R369): An I3C private write sets the pointer and writes the secure window bytes; doorbell and ack take effect when their 4 bytes are complete. -/
  | i3cPrivateWrite (bytes : Bytes)
  /-- SQ_DOORBELL_WRITE (R353): A write of an SQ tail submits the entries from the old tail up to the new one. -/
  | sqDoorbellWrite (q : Nat) (v : Nat)
  /-- CQ_DOORBELL_WRITE (R353): A write of a CQ head releases the slots and body bytes up to the new head. -/
  | cqDoorbellWrite (q : Nat) (v : Nat)
  /-- SAMPLE (R355): A fetched SAMPLE descriptor and its view list are checked and accepted, and reading of the view data begins. -/
  | sample (q : Nat)
  /-- TEXT (R355): A fetched TEXT descriptor is checked and queued as a text job on its text stream. -/
  | text (q : Nat)
  /-- STREAM_DATA (R355): A fetched STREAM_DATA descriptor hands an access unit to its LIVE stream context. -/
  | streamData (q : Nat)
  /-- MARKER (R359): A fetched MARKER descriptor completes once every earlier descriptor of its SQ has completed. -/
  | marker (q : Nat)
  /-- RECORD_POST (R361): A completion or result record, with its body, is written to its CQ once a slot and body space are free, and the vector becomes due. -/
  | recordPost (q : Nat)
  /-- MSIX_COALESCE_TIMEOUT (R361): coalesce_us passes after the oldest unsignalled record, and the CQ's vector is sent. -/
  | msixCoalesceTimeout (q : Nat)
  /-- MB_DOORBELL_WRITE (R370): A write of 1 to MB_DOORBELL posts the MB_H2D message and sets h2d_pending, or wakes the device in SLEEP. -/
  | mbDoorbellWrite (path : Nat) (ch : Nat) (v : Nat)
  /-- MB_ACK_WRITE (R370): A write of 1 to MB_ACK clears d2h_valid so that the next reply or notice can be posted. -/
  | mbAckWrite (path : Nat) (ch : Nat) (v : Nat)
  /-- MESSAGE_FRAGMENT (R374): A fragment of a longer message is taken and gathered; an out-of-order fragment ends the message with FORMAT. -/
  | messageFragment (ch : Nat)
  /-- D2H_POST (R376): A ready reply or notice is written into a free MB_D2H, d2h_valid is set and the channel interrupt is sent. -/
  | d2hPost (ch : Nat)
  /-- SESSION_OPEN (R378): Negotiates the MHP version and opens a session on the channel. -/
  | sessionOpen (ch : Nat)
  /-- SESSION_CLOSE (R381): Closes the channel's session unless the session owns a context. -/
  | sessionClose (ch : Nat)
  /-- CONTEXT_CREATE (R302): Creates a context from a context parameter record and returns its handle. -/
  | contextCreate (ch : Nat)
  /-- CONTEXT_START (R313): Admits a real-time context, deferred until it is RUNNING or refused, or queues a best-effort context for placement. -/
  | contextStart (ch : Nat)
  /-- CONTEXT_DESTROY_DRAIN (R333): Stops accepting work, completes every accepted item, then releases the context. -/
  | contextDestroyDrain (ch : Nat)
  /-- CONTEXT_DESTROY_ABORT (R333): Tears the context down as R331 sets out, with ABORTED status. -/
  | contextDestroyAbort (ch : Nat)
  /-- CONTEXT_QUERY (R383): Returns a context's state, certificate entry and easel mask. -/
  | contextQuery (ch : Nat)
  /-- WINDOW_REGISTER (R383): Registers a host window for a context. -/
  | windowRegister (ch : Nat)
  /-- WINDOW_RELEASE (R383): Releases a host window unless a ring, a body area or outstanding work uses it. -/
  | windowRelease (ch : Nat)
  /-- REGION_ALLOC (R383): Allocates a zeroed LPDDR5 region in the context's allocation. -/
  | regionAlloc (ch : Nat)
  /-- MEM_COPY_TO_DEVICE (R383): Copies host window bytes into a device region, with the reply deferred until done. -/
  | memCopyToDevice (ch : Nat)
  /-- MEM_COPY_TO_HOST (R383): Copies device region bytes into a host window, with the reply deferred until done. -/
  | memCopyToHost (ch : Nat)
  /-- MEM_COPY_COMPLETE (R383): A MEM_COPY transfer ends, and its deferred reply is made ready. -/
  | memCopyComplete (ch : Nat) (seq : Nat)
  /-- BUNDLE_LOAD (R471): Copies a model bundle envelope into LPDDR5 for verification and binding, with the reply deferred. -/
  | bundleLoad (ch : Nat)
  /-- LEXICON_LOAD (R471): Copies a lexicon envelope into LPDDR5 for verification, with the reply deferred. -/
  | lexiconLoad (ch : Nat)
  /-- ENVELOPE_CHECK_COMPLETE (R471): The seal core finishes checking a bundle or lexicon; it is bound or refused, and the deferred load is answered. -/
  | envelopeCheckComplete (ch : Nat) (seq : Nat)
  /-- LEXICON_BIND (R383): Binds or unbinds a lexicon to a slot of a context. -/
  | lexiconBind (ch : Nat)
  /-- LEGACY_ROOT_SET (R383): Sets the MZ6200 root table of a KV site in legacy mode. -/
  | legacyRootSet (ch : Nat)
  /-- QUEUE_BIND_SQ (R351): Binds a hardware queue as a submission queue of a context. -/
  | queueBindSq (ch : Nat)
  /-- QUEUE_BIND_CQ (R351): Binds a hardware queue as a completion queue with a body area. -/
  | queueBindCq (ch : Nat)
  /-- QUEUE_UNBIND (R351): Unbinds a queue unless it still has users, held records or outstanding descriptors. -/
  | queueUnbind (ch : Nat)
  /-- TEXT_STREAM_OPEN (R383): Opens a text stream handle for a context. -/
  | textStreamOpen (ch : Nat)
  /-- TEXT_STREAM_CLOSE (R383): Closes a text stream, deferred until its accepted TEXT descriptors complete. -/
  | textStreamClose (ch : Nat)
  /-- PORT_BIND (R383): Binds a line-scan port to a context and a CQ. -/
  | portBind (ch : Nat)
  /-- PORT_UNBIND (R383): Unbinds a line-scan port, which goes OFF and releases its token quota. -/
  | portUnbind (ch : Nat)
  /-- PORT_CONFIG (R255): Checks and applies a port configuration record and timing program, at once or when the open page ends. -/
  | portConfig (ch : Nat)
  /-- CAPTURE_START (R13): The host's start event for a port's capture. -/
  | captureStart (ch : Nat)
  /-- CAPTURE_STOP (R267): Ends a capture at once, or when the open page ends, with the reply deferred. -/
  | captureStop (ch : Nat)
  /-- CALIBRATE_DARK (R262): Puts an ARMED port in CALIBRATING for n lines to build the dark table. -/
  | calibrateDark (ch : Nat)
  /-- CALIBRATE_WHITE (R262): Puts an ARMED port in CALIBRATING for n lines to build the gain table. -/
  | calibrateWhite (ch : Nat)
  /-- CALIB_TABLE_LOAD_DARK (R261): Loads a port's dark table from host memory. -/
  | calibTableLoadDark (ch : Nat)
  /-- CALIB_TABLE_LOAD_GAIN (R261): Loads a port's gain table from host memory. -/
  | calibTableLoadGain (ch : Nat)
  /-- STREAM_BIND (R279): Binds a video stream context to a context from a stream record. -/
  | streamBind (ch : Nat)
  /-- STREAM_UNBIND (R301): Unbinds a stream context; waiting live frames are dropped. -/
  | streamUnbind (ch : Nat)
  /-- PRIMER_PROFILE_SET (R289): Sets a context's primer profile and returns its sources to split_min. -/
  | primerProfileSet (ch : Nat)
  /-- KV_TLB_INVALIDATE_CONTEXT (R188): Drops a context's LPW TLB entries at its next step, with the reply deferred. -/
  | kvTlbInvalidateContext (ch : Nat)
  /-- KV_TLB_INVALIDATE_SITE (R188): Drops one site's LPW TLB entries at the context's next step. -/
  | kvTlbInvalidateSite (ch : Nat)
  /-- KV_TLB_INVALIDATE_RANGE (R188): Drops LPW TLB entries of an lpn range of one site at the context's next step. -/
  | kvTlbInvalidateRange (ch : Nat)
  /-- RING_JOB_SETUP (R420): Sets up a ring job, assigns its channel and sends confirmation round the ring, with the reply deferred. -/
  | ringJobSetup (ch : Nat)
  /-- COUNTER_QUERY_CONTEXT (R388): Returns the requested per-context counters. -/
  | counterQueryContext (ch : Nat)
  /-- COUNTER_QUERY_PORT (R388): Returns the requested per-port counters. -/
  | counterQueryPort (ch : Nat)
  /-- OUTSTANDING_REPORT (R389): Returns entries of the outstanding report, deferred during a freeze until the list is complete. -/
  | outstandingReport (ch : Nat)
  /-- MIRROR_PAIR_ACTIVE (R423): Requests a mirrored pair with this device as active, with the reply deferred until the pair forms or is refused. -/
  | mirrorPairActive (ch : Nat)
  /-- MIRROR_PAIR_STANDBY (R423): Requests a mirrored pair with this device as standby, with the reply deferred. -/
  | mirrorPairStandby (ch : Nat)
  /-- MIRROR_UNPAIR (R423): Dissolves the pair at once; the standby discards the mirrored state. -/
  | mirrorUnpair (ch : Nat)
  /-- MIRROR_TAKEOVER (R427): The standby recreates, binds and admits the mirrored contexts after heartbeat loss. -/
  | mirrorTakeover (ch : Nat)
  /-- SECURE_STATUS (R466): Returns the boot stage, fuse and enrolment state, and a fresh enrol nonce. -/
  | secureStatus (ch : Nat)
  /-- IDENTITY_CERT_GET (R464): Returns the device identity certificate. -/
  | identityCertGet (ch : Nat)
  /-- ATTEST_QUOTE (R467): Returns a quote of the device state and loaded bundles, signed with the identity key. -/
  | attestQuote (ch : Nat)
  /-- OWNER_KEY_ENROL (R468): Verifies and blows the owner key digest and OWNER_LOCK, and DEBUG_LOCK if asked. -/
  | ownerKeyEnrol (ch : Nat)
  /-- IMAGE_PUSH (R461): Stages one part of a firmware image. -/
  | imagePush (ch : Nat)
  /-- IMAGE_COMMIT (R462): Verifies the staged image, then starts it in RECOVERY or writes it to flash. -/
  | imageCommit (ch : Nat)
  /-- FLASH_WRITE_COMPLETE (R462): The flash erase, program and read-back end, and IMAGE_COMMIT is answered. -/
  | flashWriteComplete (ok : Bool)
  /-- EASEL_DOORBELL (R62): A doorbell from the studio controller starts an IDLE command queue at an offset of its COMMAND region. -/
  | easelDoorbell (e : Nat) (q : Nat) (off : Nat)
  /-- NOP (R66): A command that performs only its header tally operations. -/
  | nop (e : Nat) (q : Nat)
  /-- MATMUL (R74): Multiplies A rows by B weight tiles into the accumulator, with optional glaze path. -/
  | matmul (e : Nat) (q : Nat)
  /-- ACC_DRAIN (R81): Drains accumulator rows, with scale, bias and ReLU, to the palette or canvas. -/
  | accDrain (e : Nat) (q : Nat)
  /-- GESSO_EXPAND (R138): Expands convolution windows of a source tile into gesso rows. -/
  | gessoExpand (e : Nat) (q : Nat)
  /-- POOL_MAX (R144): Max-pools a tile over its windows. -/
  | poolMax (e : Nat) (q : Nat)
  /-- POOL_AVG (R144): Average-pools a tile over its windows. -/
  | poolAvg (e : Nat) (q : Nat)
  /-- FORWARD (R156): Folds one KV page block into the running attention state. -/
  | forward (e : Nat) (q : Nat)
  /-- FINALISE (R160): Writes the normalised attention output and lse2. -/
  | finalise (e : Nat) (q : Nat)
  /-- MERGE (R161): Folds running state B into running state A. -/
  | merge (e : Nat) (q : Nat)
  /-- BACKWARD_PREP (R171): Writes each row's delta for the backward pass. -/
  | backwardPrep (e : Nat) (q : Nat)
  /-- BACKWARD (R173): Recomputes a block's scores and accumulates dQ, dK and dV. -/
  | backward (e : Nat) (q : Nat)
  /-- CONVERT_FIRST_PASS (R116): Encodes into a BLOCK format with per-block scales found in a reduction pass. -/
  | convertFirstPass (e : Nat) (q : Nat)
  /-- CONVERT_FALLBACK (R118): Encodes with a scale from the scale history and updates the history. -/
  | convertFallback (e : Nat) (q : Nat)
  /-- CONVERT_FIXED (R119): Encodes with the fixed scale and zero point of the command. -/
  | convertFixed (e : Nat) (q : Nat)
  /-- CONVERT_DECODE (R121): Decodes a BLOCK or PLAIN INT4 or UINT4 tensor to PLAIN FP32, FP16 or BF16. -/
  | convertDecode (e : Nat) (q : Nat)
  /-- ROTARY (R164): Rotates element pairs in place by position-dependent angles. -/
  | rotary (e : Nat) (q : Nat)
  /-- TALLY_ACQUIRE (R33): Blocks the queue until the tally count reaches n, then subtracts n. -/
  | tallyAcquire (e : Nat) (q : Nat)
  /-- TALLY_WAIT (R33): Blocks the queue until the tally count reaches n, without changing it. -/
  | tallyWait (e : Nat) (q : Nat)
  /-- TALLY_RELEASE (R37): Adds n to a tally and serves the waiting waits and acquires in order. -/
  | tallyRelease (e : Nat) (q : Nat)
  /-- TALLY_POST (R37): A DMA engine or the studio controller adds n to a tally over the control network, serving the waiters. -/
  | tallyPost (ctx : Nat) (tally : Nat) (n : Nat)
  /-- TALLY_SET (R33): The studio controller sets a tally count. -/
  | tallySet (tally : Nat) (n : Nat)
  /-- TALLY_READ (R33): The studio controller reads a tally count. -/
  | tallyRead (tally : Nat)
  /-- BARRIER_ARRIVE (R41): An easel queue joins its barrier channel and blocks until the barrier completes. -/
  | barrierArrive (e : Nat) (q : Nat)
  /-- BARRIER_COMPLETE (R42): An atelier barrier completes, and every waiting queue issues its next command. -/
  | barrierComplete (atelier : Nat) (chan : Nat)
  /-- DEVICE_BARRIER_COMPLETE (R55): A device barrier completes across ateliers. -/
  | deviceBarrierComplete (chan : Nat)
  /-- DMA (R67): Hands a DMA descriptor from the palette to the atelier DMA engine. -/
  | dma (e : Nat) (q : Nat)
  /-- END (R66): The queue becomes IDLE and reports the end to the studio controller. -/
  | endCmd (e : Nat) (q : Nat)
  /-- VEC_BINARY_ADD (R84): Element-wise addition. -/
  | vecBinaryAdd (e : Nat) (q : Nat)
  /-- VEC_BINARY_SUB (R84): Element-wise subtraction. -/
  | vecBinarySub (e : Nat) (q : Nat)
  /-- VEC_BINARY_MUL (R84): Element-wise multiplication. -/
  | vecBinaryMul (e : Nat) (q : Nat)
  /-- VEC_BINARY_MAX (R84): Element-wise maximum. -/
  | vecBinaryMax (e : Nat) (q : Nat)
  /-- VEC_BINARY_MIN (R84): Element-wise minimum. -/
  | vecBinaryMin (e : Nat) (q : Nat)
  /-- VEC_BINARY_ADD_SCALAR (R84): Adds param0 to every element. -/
  | vecBinaryAddScalar (e : Nat) (q : Nat)
  /-- VEC_BINARY_MUL_SCALAR (R84): Multiplies every element by param0. -/
  | vecBinaryMulScalar (e : Nat) (q : Nat)
  /-- VEC_UNARY_COPY (R84): Copies with format conversion. -/
  | vecUnaryCopy (e : Nat) (q : Nat)
  /-- VEC_UNARY_ABS (R84): Absolute value. -/
  | vecUnaryAbs (e : Nat) (q : Nat)
  /-- VEC_UNARY_NEG (R84): Negation. -/
  | vecUnaryNeg (e : Nat) (q : Nat)
  /-- VEC_UNARY_RELU (R84): ReLU. -/
  | vecUnaryRelu (e : Nat) (q : Nat)
  /-- VEC_UNARY_EXP2 (R85): Base-2 exponential on the SFU. -/
  | vecUnaryExp2 (e : Nat) (q : Nat)
  /-- VEC_UNARY_EXP (R85): Natural exponential on the SFU. -/
  | vecUnaryExp (e : Nat) (q : Nat)
  /-- VEC_UNARY_LOG2 (R85): Base-2 logarithm on the SFU. -/
  | vecUnaryLog2 (e : Nat) (q : Nat)
  /-- VEC_UNARY_RECIP (R85): Reciprocal on the SFU. -/
  | vecUnaryRecip (e : Nat) (q : Nat)
  /-- VEC_UNARY_RSQRT (R85): Reciprocal square root on the SFU. -/
  | vecUnaryRsqrt (e : Nat) (q : Nat)
  /-- VEC_UNARY_SQRT (R85): Square root on the SFU. -/
  | vecUnarySqrt (e : Nat) (q : Nat)
  /-- VEC_UNARY_TANH (R85): Hyperbolic tangent on the SFU. -/
  | vecUnaryTanh (e : Nat) (q : Nat)
  /-- VEC_UNARY_SIGMOID (R85): Sigmoid on the SFU. -/
  | vecUnarySigmoid (e : Nat) (q : Nat)
  /-- VEC_UNARY_GELU_TANH (R85): Tanh-approximated GELU on the SFU. -/
  | vecUnaryGeluTanh (e : Nat) (q : Nat)
  /-- VEC_UNARY_SILU (R85): SiLU on the SFU. -/
  | vecUnarySilu (e : Nat) (q : Nat)
  /-- VEC_REDUCE_MAX (R86): Per-row maximum. -/
  | vecReduceMax (e : Nat) (q : Nat)
  /-- VEC_REDUCE_MIN (R86): Per-row minimum. -/
  | vecReduceMin (e : Nat) (q : Nat)
  /-- VEC_REDUCE_SUM (R86): Per-row sum, as a pairwise tree per chunk. -/
  | vecReduceSum (e : Nat) (q : Nat)
  /-- VEC_REDUCE_MAXABS (R86): Per-row maximum magnitude. -/
  | vecReduceMaxabs (e : Nat) (q : Nat)
  /-- VEC_REDUCE_SUMSQ (R86): Per-row sum of squares. -/
  | vecReduceSumsq (e : Nat) (q : Nat)
  /-- VEC_NORM_LAYER (R87): Layer normalisation of each row. -/
  | vecNormLayer (e : Nat) (q : Nat)
  /-- VEC_NORM_RMS (R87): RMS normalisation of each row. -/
  | vecNormRms (e : Nat) (q : Nat)
  /-- VEC_SOFTMAX (R88): Masked softmax of each row. -/
  | vecSoftmax (e : Nat) (q : Nat)
  /-- PREEMPT_STOP_SIGNAL (R63): The stop signal reaches an easel; no queue issues, and BLOCKED queues stop at once. -/
  | preemptStopSignal (e : Nat)
  /-- QUEUE_STOPPED (R63): A running queue enters STOPPED once its last command has ended and its writes have been accepted. -/
  | queueStopped (e : Nat) (q : Nat)
  /-- COPY (R46): A DMA engine starts a one-dimensional copy descriptor. -/
  | copy (engine : Nat) (k : Nat)
  /-- COPY_3D (R46): A DMA engine starts a strided three-dimensional copy descriptor. -/
  | copy3d (engine : Nat) (k : Nat)
  /-- FILL (R46): A DMA engine starts a pattern fill descriptor. -/
  | fill (engine : Nat) (k : Nat)
  /-- DMA_DESCRIPTOR_COMPLETE (R45): Every write of a descriptor has been accepted, and the engine posts post_count to post_tally. -/
  | dmaDescriptorComplete (engine : Nat) (k : Nat)
  /-- TAG_RETURN (R52): A transaction tag returns to its pool, and a stalled agent may issue. -/
  | tagReturn (pool : Nat) (ctx : Nat)
  /-- PREEMPT_SAVE_COMPLETE (R327): The last saved byte is accepted, the context enters PREEMPTED, and a waiting admission places its context. -/
  | preemptSaveComplete (ctx : Nat)
  /-- BEST_EFFORT_PLACEMENT (R324): Firmware places a waiting best-effort context when easels allow, pre-empting where permitted. -/
  | bestEffortPlacement
  /-- ERROR_TAKE_UP (R447): Firmware takes up the next CONTAINED error and starts the context's teardown. -/
  | errorTakeUp
  /-- TEARDOWN_SCRUB_COMPLETE (R331): The context's palette, canvas, stencil state, barriers and tallies are zeroed, and its easels are free. -/
  | teardownScrubComplete (ctx : Nat)
  /-- CONTEXT_FAULTED_ENTRY (R331): The last CONTEXT_FAULT record is written, and the context enters FAULTED. -/
  | contextFaultedEntry (ctx : Nat)
  /-- DEVICE_FREEZE (R448): A FATAL error or double fault stops every easel, engine and channel controller, and ERR_SUMMARY shows the freeze. -/
  | deviceFreeze (cause : Nat)
  /-- WATCHDOG_EXPIRY (R445): A control core leaves its watchdog unserviced for 10 ms, a FATAL error. -/
  | watchdogExpiry
  /-- CARRY_AREA_WRITTEN (R495): Firmware finishes writing the outstanding report into the carry area after a freeze. -/
  | carryAreaWritten
  /-- CORRECTED_WRITE_BACK (R435): A corrected on-chip word is written back in the next idle bank cycle. -/
  | correctedWriteBack (mem : SramMem) (unit : Nat) (word : Nat)
  /-- ONCHIP_SCRUB (R436): A scrubber reads and corrects the next on-chip word in an idle bank cycle. -/
  | onchipScrub (mem : SramMem) (unit : Nat)
  /-- MACRO_RETIREMENT (R441): A marked macro is retired once no context holds data in it. -/
  | macroRetirement (mem : SramMem) (unit : Nat)
  /-- SPLIT_WINDOW_END (R297): At the end of each 100 ms window, firmware raises or lowers one source's split level per context. -/
  | splitWindowEnd (pct : Nat)
  /-- LPDDR5_READ (R399): A channel controller serves a read with correction from the check bits. -/
  | lpddr5Read (agent : Nat) (stream : Nat) (addr : Nat) (len : Nat)
  /-- LPDDR5_WRITE (R399): A channel controller accepts a write of whole words and updates the check bits. -/
  | lpddr5Write (agent : Nat) (stream : Nat) (addr : Nat) (bytes : Bytes)
  /-- LPDDR5_PARTIAL_WRITE (R399): A write covering part of a word is served as a read-modify-write. -/
  | lpddr5PartialWrite (agent : Nat) (stream : Nat) (addr : Nat) (bytes : Bytes)
  /-- PER_BANK_REFRESH (R404): A controller issues a per-bank refresh at the interval that MR4 scales. -/
  | perBankRefresh (c : Nat) (rank : Nat) (bank : Nat)
  /-- MR4_POLL (R404): Every 4 ms, each controller reads MR4 and adjusts the refresh rate. -/
  | mr4Poll (c : Nat) (field : Nat)
  /-- NEIGHBOUR_REFRESH (R405): After the chosen activate of a run of 2^k, the neighbouring rows are refreshed. -/
  | neighbourRefresh (c : Nat) (rank : Nat) (bank : Nat) (row : Nat)
  /-- NREFRESH_ADAPT_WINDOW (R406): Every 1 ms, firmware adapts the neighbour-refresh exponent k. It carries no value: a_max is the
  largest of the counts that the machine holds. -/
  | nrefreshAdaptWindow (tick : Unit)
  /-- DQ_OSC_TRACK (R397): Every 10 ms, a controller reads the DQ oscillators and adjusts write timing. -/
  | dqOscTrack (c : Nat) (rank : Nat) (count : Nat)
  /-- LPDDR5_SCRUB (R407): A controller reads and corrects the next 320-byte scrub group. -/
  | lpddr5Scrub (c : Nat)
  /-- BOOT_IMAGE_LOADED (R458): The firmware image is in control SRAM; the ROM checks it and enters VERIFIED or RECOVERY. -/
  | bootImageLoaded
  /-- SELF_TEST_COMPLETE (R438): Boot self-test of the SRAM macros ends, and training begins. -/
  | selfTestComplete (fails : List MacroTest)
  /-- TRAINING_COMPLETE (R396): LPDDR5 training, test, repair and initialisation end, and the stage becomes READY. -/
  | trainingComplete (r : TrainResult)
  /-- IDENTITY_KEY_READY (R463): The identity key derivation ends, and deferred identity commands proceed. -/
  | identityKeyReady
  /-- AFE_LINK_LOCK (R250): A port locks to the FCO pattern over 16 frames and corrects lane skew. -/
  | afeLinkLock (p : Nat)
  /-- AFE_FRAME (R252): A 16-bit frame on a lane is mapped to a pixel sample of its colour. -/
  | afeFrame (p : Nat) (fcoOk : Bool) (words : List W16)
  /-- FREE_RUN_TRIGGER (R258): In FREE mode, free_ticks pass and a line is triggered. -/
  | freeRunTrigger (p : Nat)
  /-- ENCODER_COUNT (R259): An encoder count moves position p, and a line is triggered when p reaches q. -/
  | encoderCount (p : Nat) (onB : Bool)
  /-- LINE_PROGRAM_END (R260): line_ticks pass; a held trigger starts its line. -/
  | lineProgramEnd (p : Nat)
  /-- LINE_COMPLETE (R263): A line's samples are corrected, delayed, averaged and searched for edges, then stored or discarded. -/
  | lineComplete (p : Nat)
  /-- PAGE_OPEN (R265): edge_lines consecutive paper lines confirm a leading edge, and a page opens with its lead margin. -/
  | pageOpen (p : Nat)
  /-- TRAILING_EDGE_CONFIRMED (R265): edge_lines consecutive non-paper lines confirm the trailing edge and fix E. -/
  | trailingEdgeConfirmed (p : Nat)
  /-- PAGE_END (R265): Line E is stored and the page ends; firmware starts the edge fit. -/
  | pageEnd (p : Nat)
  /-- PAGE_CAP_REACHED (R266): A page reaches page_cap_lines and ends with length_capped set. -/
  | pageCapReached (p : Nat)
  /-- CAPTURE_IDLE_END (R267): idle_lines paper-free lines pass with no page open; the capture ends and the port is ARMED. -/
  | captureIdleEnd (p : Nat)
  /-- GEOMETRY_FIT_COMPLETE (R268): Firmware completes the leading-edge fit and the geometry block, and the page goes to the primer. -/
  | geometryFitComplete (p : Nat)
  /-- LINE_STORE_ACCEPTED (R272): A line's write to the page store is accepted, and its intake tokens return. -/
  | lineStoreAccepted (p : Nat)
  /-- CALIBRATION_COMPLETE (R262): n calibration lines have accumulated; the dark or gain table is written and CALIBRATE is answered. -/
  | calibrationComplete (p : Nat)
  /-- VIEW_READ_COMPLETE (R21): A view's data has been read from host memory into LPDDR5; the last view fixes the reference instant. -/
  | viewReadComplete (item : Nat)
  /-- HEADER_PASS_COMPLETE (R293): A header pass over a video segment ends; dimensions and picture count are checked, and the bucket is chosen. -/
  | headerPassComplete (item : Nat) (view : Nat) (r : HeaderResult)
  /-- VIEW_DECODE_COMPLETE (R283): A view's decode ends as decoded, CORRUPT or TRUNCATED. -/
  | viewDecodeComplete (item : Nat) (view : Nat) (r : DecodeResult)
  /-- DECODE_BUDGET_EXPIRY (R286): A sample's decode budget runs out; it is abandoned and marked SLOW. -/
  | decodeBudgetExpiry (item : Nat)
  /-- LIVE_PICTURE_DECODED (R288): A LIVE picture is decoded and queued for batch formation, dropping the oldest if the queue is full. -/
  | livePictureDecoded (stream : Nat) (r : DecodeResult)
  /-- PRIMER_ITEM_COMPLETE (R292): An item finishes stage 4 of the primer, and its slot is filled. -/
  | primerItemComplete (item : Nat)
  /-- BATCH_AGE_TIMEOUT (R294): age_timeout_us passes since a batch's first member took a slot, and the batch closes. -/
  | batchAgeTimeout (ctx : Nat) (bucket : Nat)
  /-- BATCH_DISPATCH (R294): A closed batch whose slots are all settled is dispatched, with placeholders, and the BATCH entry points are rung. -/
  | batchDispatch (ctx : Nat) (bucket : Nat)
  /-- DECODER_STEP_START (R311): Firmware begins a decoder step and rings the STEP entry points. -/
  | decoderStepStart (ctx : Nat)
  /-- PAGE_WALK (R183): The page walk emits the DMA of a block's plane pairs once a buffer is free, within the prefetch window. -/
  | pageWalk (ctx : Nat) (site : Nat) (seq : Nat) (page : Nat)
  /-- FIELD_END_VERDICT (R239): The detokenizer's field-end verdict reaches the stencil engine, which closes the field and starts the next. -/
  | fieldEndVerdict (ctx : Nat) (seq : Nat)
  /-- DEAD_END_REPORT (R245): A dead end is reported to firmware, which ends the field and retries or stops the sequence. -/
  | deadEndReport (ctx : Nat) (seq : Nat)
  /-- MASK_BUILD_COMPLETE (R243): A step's last mask record is written, and the studio controller posts the mask tally. -/
  | maskBuildComplete (ctx : Nat)
  /-- TEXT_JOB_COMPLETE (R219): The text engine finishes a TEXT buffer, writes its decided tokens and completes the descriptor. -/
  | textJobComplete (stream : Nat)
  /-- STRETCHER_LINK_TRAINING_COMPLETE (R415): A stretcher link finishes lane training, version choice and identity exchange, or stays down. -/
  | stretcherLinkTrainingComplete (link : Nat) (peer : LinkPeer)
  /-- RING_DISCOVERY_FLIT (R420): A discovery flit is received and forwarded east, or closes the ring at its sender. -/
  | ringDiscoveryFlit (link : Nat) (f : DiscFlit)
  /-- JOB_CONFIRM_FLIT (R420): A ring job confirmation flit is compared with the local job and forwarded. -/
  | jobConfirmFlit (link : Nat) (f : ConfirmFlit)
  /-- RING_JOB_CONFIRM_TIMEOUT (R420): No matching job is confirmed within 100 ms, and RING_JOB_SETUP is answered NO_RESOURCE. -/
  | ringJobConfirmTimeout (ctx : Nat)
  /-- RING_BLOCK_ARRIVAL (R418): A ring block lands in its reserved receive buffer, and the ring tally is posted. -/
  | ringBlockArrival (link : Nat) (chan : Nat) (data : Bytes)
  /-- CREDIT_RETURN (R418): A credit return flit lets the sender start its next ring block. -/
  | creditReturn (link : Nat) (chan : Nat)
  /-- RING_BARRIER_TOKEN (R421): A ring barrier token or completion token is received and forwarded once local members arrive. -/
  | ringBarrierToken (link : Nat) (f : TokenFlit)
  /-- RING_ABORT_NOTICE (R422): A ring-abort notice tears down the job's context and is passed on. -/
  | ringAbortNotice (link : Nat) (job : Nat)
  /-- LINK_RETRAIN (R419): Too many failed replays or a lost lane lock start a stretcher link retraining. -/
  | linkRetrain (link : Nat)
  /-- LINK_RETRAIN_COMPLETE (R419): Retraining ends; held traffic resumes, or the link goes down and its ring jobs are torn down. -/
  | linkRetrainComplete (link : Nat) (ok : Bool)
  /-- HEARTBEAT_SEND (R426): Every 100 µs, a paired device sends a heartbeat. -/
  | heartbeatSend
  /-- HEARTBEAT (R426): A partner heartbeat is received; a FROZEN heartbeat declares heartbeat loss. -/
  | heartbeat (frozen : Bool)
  /-- HEARTBEAT_LOSS (R426): 1.5 ms pass without a heartbeat; partner_lost is set and the pair is broken. -/
  | heartbeatLoss
  /-- IDENTITY_CHALLENGE (R424): A pairing challenge nonce or signature is received and verified, enrolling or refusing the peer. -/
  | identityChallenge (link : Nat) (m : ChallengeMsg)
  /-- MIRROR_PAIR_TIMEOUT (R423): No matching MIRROR_PAIR request arrives within 100 ms, and pairing is refused. -/
  | mirrorPairTimeout
  /-- MIRROR_MESSAGE (R425): The standby receives and stores a mirror message and acknowledges it. -/
  | mirrorMessage (m : MirrorMsg)
  /-- MIRROR_ACK (R425): The active device receives a mirror acknowledgement and lets the waiting event proceed. -/
  | mirrorAck (n : Nat)
  /-- DEBUG_PORT_ACCESS (R472): An input on the test and debug port sets debug_attached, and the fuse instruction blows DEBUG_LOCK; the port is ignored once DEBUG_LOCK is blown. -/
  | debugPortAccess (a : DebugAccess)
  /-- WCK2CK_SYNC_LOSS (R410): A channel loses WCK2CK synchronisation, and if resynchronisation does not repair it within 1 µs the device freezes as for a memory freeze error. -/
  | wck2ckSyncLoss (c : Nat) (repaired : Bool)
  /-- AON_SUPPLY_LOSS (R506): VDD_AON is lost, so the whole device, AON included, stops until power-on reset, leaving any partly blown fuse or flash write as it was. -/
  | aonSupplyLoss
  /-- RESUME_RESTORE_COMPLETE (R329): The restore of a pre-empted context's saved state ends, and firmware restarts every queue at its saved offset and reissues the abandoned waits. -/
  | resumeRestoreComplete (ctx : Nat)
  deriving DecidableEq, Repr

end Sys2Proof
end

