-- ==== Sys2Proof/Config.lean ====
section
/-! DEFINITION. Config.lean: the free values. Each is a constant without a body: no proof can see a value of it, and a
claim holds whatever it is. notes/assumptions says for each which silence of the spec it stands for. -/

namespace Sys2Proof.Config

/-- A fresh free bit: applied to the counter of State (log 5). -/
opaque freeBit : Nat → Bool
/-- A fresh free number: applied to the counter of State (log 5). -/
opaque freeNat : Nat → Nat
/-- The FP32 code that the SFU gives for function `fn` on code `x`, taken where it lies within R85's bound (log 10). -/
opaque sfu : (fn x : Nat) → Nat
/-- The FP32 code of the sine (`fn` 1) or cosine (`fn` 0) of ROTARY for an angle code, taken within R164's bound
(log 10). -/
opaque sincos : (fn x : Nat) → Nat
/-- In a partition that spans ateliers and holds every easel of each, whether BARRIER_ARRIVE, which names no channel, joins
its atelier's channel and not the device channel (R57, R66; log 42). -/
opaque arriveInAtelier : Bool
/-- The FP8 or FP4 code of a non-zero element under a scale of zero, where R107 divides by zero (log 11). -/
opaque zeroScaleCode : (bits x : Nat) → Nat
/-- Of a bank and the number of one of its runs of activates: which activate is chosen, modulo the run (R405). -/
opaque chosenActivate : (bank run : Nat) → Nat
/-- Of a channel and rank: the DQ oscillator count of boot's training (R397). -/
opaque oscTrained : (chan rank : Nat) → Nat
/-- Whether a DQ oscillator count has drifted from that of the last adjustment, given that they differ (R397; log 49). -/
opaque oscDrifted : (last now : Nat) → Bool
/-- LPDDR5 tag of the n-th request that a controller holds in a freeze (R412; log 70). -/
opaque heldTag : (chan n : Nat) → Nat
/-- Whether the INT4 or UINT4 side of a CONVERT, given by its word, is BLOCK (log 32). -/
opaque convertBlock : (word : Nat) → Bool
/-- Scale code and zero point of a GESSO_EXPAND block, given by its word, that has no source in the tile (log 39). -/
opaque gessoEmpty : (word : Nat) → Nat × Nat
/-- Whether that element adds to SAT_FLOAT (log 11). -/
opaque zeroScaleCounts : (bits x : Nat) → Bool
/-- Falcon-1024 key pair from a seed: public key bytes (external standard, R453; log 12). -/
opaque falconPublic : Bytes → Bytes
/-- Falcon-1024 signature of a message under the key of a seed (external standard, R453; log 12). -/
opaque falconSign : Bytes → Bytes → Bytes

end Sys2Proof.Config
end

