-- ==== Sys2Proof/Machine/Bits.lean ====
section
/-! DEFINITION. Machine/Bits.lean: bit fields, little-endian byte strings (R3), and the operations of tables and
memories, which keep one canonical form. -/

namespace Sys2Proof.Machine

/-- Bits [hi:lo] of a number (00_scope.md, Numbers and units: bit ranges are [msb:lsb]). -/
def fld (w hi lo : Nat) : Nat := (w >>> lo) % 2 ^ (hi + 1 - lo)

/-- One bit of a number. -/
def bit (w n : Nat) : Bool := (w >>> n) % 2 == 1

/-- The value of a byte string, little-endian (R3). -/
def leNat : Bytes → Nat
  | [] => 0
  | b :: bs => b.toNat + 256 * leNat bs

/-- `n` bytes of a number, little-endian (R3). -/
def toLe : Nat → Nat → Bytes
  | 0, _ => []
  | n + 1, v => BitVec.ofNat 8 v :: toLe n (v / 256)

/-- `n` zero bytes. -/
def zeros (n : Nat) : Bytes := List.replicate n 0

/-- A byte string of exactly `n` bytes: cut or padded with zero. -/
def padTo (n : Nat) (b : Bytes) : Bytes := b.take n ++ zeros (n - b.length)

/-- `n` bytes of `b` from offset `o`; bytes beyond the end read as zero. -/
def slice (b : Bytes) (o n : Nat) : Bytes := padTo n ((b.drop o).take n)

/-- The little-endian number in `n` bytes of `b` from offset `o`. -/
def leAt (b : Bytes) (o n : Nat) : Nat := leNat (slice b o n)

/-- Are all bits of `w` outside the listed ranges [hi:lo] zero? Used for the reserved-bit checks (R4). -/
def onlyBits (w : Nat) (ranges : List (Nat × Nat)) : Bool :=
  (ranges.foldl (fun (acc : Nat) (r : Nat × Nat) => acc - (fld acc r.1 r.2) * 2 ^ r.2) w) == 0

/-- The quotient rounded up. -/
def ceilDiv (a b : Nat) : Nat := (a + b - 1) / b

/-- The integer that the low `n` bits of `w` hold in two's complement. -/
def sext (n w : Nat) : Int :=
  let v := w % 2 ^ n
  if v < 2 ^ (n - 1) then (v : Int) else (v : Int) - (2 ^ n : Nat)

/-- `v` in two's complement on `n` bits. -/
def twos (n : Nat) (v : Int) : Nat := (v % ((2 ^ n : Nat) : Int)).toNat

/-- Put `v` at bits [hi:lo] of a record under construction. -/
def place (v hi lo : Nat) : Nat := (v % 2 ^ (hi + 1 - lo)) * 2 ^ lo

end Sys2Proof.Machine

namespace Sys2Proof.Machine

/-- The entry at key `k`, if there is one. -/
def tabFind {α : Type} (t : Tab α) (k : Nat) : Option α :=
  match t with
  | [] => none
  | (j, v) :: r => if j = k then some v else tabFind r k

/-- The entry at key `k`, or the default `d`. -/
def tabGet {α : Type} (d : α) (t : Tab α) (k : Nat) : α := (tabFind t k).getD d

/-- Put an entry at key `k`, in key order. -/
def tabPut {α : Type} (t : Tab α) (k : Nat) (v : α) : Tab α :=
  match t with
  | [] => [(k, v)]
  | (j, w) :: r =>
    if k < j then (k, v) :: (j, w) :: r
    else if k = j then (k, v) :: r
    else (j, w) :: tabPut r k v

/-- Remove the entry at key `k`. -/
def tabDel {α : Type} (t : Tab α) (k : Nat) : Tab α := t.filter (fun e => e.1 != k)

/-- Set the value at key `k`; the default is stored by having no entry, so equal tables are equal lists. -/
def tabSet {α : Type} [DecidableEq α] (d : α) (t : Tab α) (k : Nat) (v : α) : Tab α :=
  if v = d then tabDel t k else tabPut t k v

/-- Change the value at key `k`. -/
def tabMod {α : Type} [DecidableEq α] (d : α) (t : Tab α) (k : Nat) (f : α → α) : Tab α :=
  tabSet d t k (f (tabGet d t k))

/-- Change the entry at key `k` where there is one. -/
def tabUpd {α : Type} (t : Tab α) (k : Nat) (f : α → α) : Tab α :=
  match t with
  | [] => []
  | (j, v) :: r => if j = k then (j, f v) :: r else (j, v) :: tabUpd r k f

/-- Apply a function to every entry. -/
def tabMap {α : Type} (t : Tab α) (f : Nat → α → α) : Tab α := t.map (fun p => (p.1, f p.1 p.2))

/-- Keep the entries that meet `p`. -/
def tabFilter {α : Type} (t : Tab α) (p : Nat → α → Bool) : Tab α := t.filter (fun e => p e.1 e.2)

/-- Is there an entry at key `k`? -/
def tabHas {α : Type} (t : Tab α) (k : Nat) : Bool := (tabFind t k).isSome

/-- Keys strictly rising. -/
def tabSorted {α : Type} : Tab α → Bool
  | [] => true
  | [_] => true
  | (j, _) :: (k, w) :: r => decide (j < k) && tabSorted ((k, w) :: r)

/-- The lowest number below `n` that is no key. -/
def tabFree {α : Type} (t : Tab α) (n : Nat) : Option Nat := (List.range n).find? (fun k => !tabHas t k)

/-- What an unlisted address reads as. -/
def memDefault : Byte := 0

/-- The byte at address `a`. -/
def memRead (m : Mem) (a : Nat) : Byte := tabGet memDefault m a

/-- Write one byte at address `a`. -/
def memWrite (m : Mem) (a : Nat) (v : Byte) : Mem := tabSet memDefault m a v

/-- `n` bytes from address `a`. -/
def memBytes (m : Mem) (a : Nat) : Nat → Bytes
  | 0 => []
  | n + 1 => memRead m a :: memBytes m (a + 1) n

/-- Write a byte string from address `a` upward. -/
def memPut (m : Mem) (a : Nat) : Bytes → Mem
  | [] => m
  | b :: bs => memPut (memWrite m a b) (a + 1) bs

/-- The little-endian number in `n` bytes from address `a`. -/
def memNat (m : Mem) (a n : Nat) : Nat := leNat (memBytes m a n)

/-- Write `n` bytes of the number `v` from address `a`. -/
def memPutNat (m : Mem) (a n v : Nat) : Mem := memPut m a (toLe n v)

/-- Zero the `n` bytes from address `a`: their entries go. -/
def memZero (m : Mem) (a n : Nat) : Mem := m.filter (fun p => p.1 < a || a + n ≤ p.1)

/-- The canonical form of a memory: addresses strictly rising, and no entry equal to what an unlisted one reads as. -/
def Memory.wf (m : Mem) : Bool := tabSorted m && m.all (fun p => p.2 != memDefault)

/-- The canonical form of a table with default `d`. -/
def tabWf {α : Type} [DecidableEq α] (d : α) (t : Tab α) : Bool := tabSorted t && t.all (fun p => decide (p.2 ≠ d))

/-- The numbers of `l` on which `p` holds, counted. -/
def countIf {α : Type} (p : α → Bool) (l : List α) : Nat := (l.filter p).length

/-- The largest of a list of numbers, 0 for none. -/
def maxOf (l : List Nat) : Nat := l.foldl max 0

/-- The sum of a list of numbers. -/
def sumOf (l : List Nat) : Nat := l.foldl (· + ·) 0

/-- Replace element `i` of a list. -/
def listSet {α : Type} (l : List α) (i : Nat) (v : α) : List α := l.set i v

/-- Change element `i` of a list. -/
def listMod {α : Type} (l : List α) (i : Nat) (f : α → α) : List α :=
  match l, i with
  | [], _ => []
  | x :: r, 0 => f x :: r
  | x :: r, i + 1 => x :: listMod r i f

/-- Do the half-open ranges [a, a + n) and [b, b + m) share an address? -/
def overlaps (a n b m : Nat) : Bool := a < b + m && b < a + n && 0 < n && 0 < m

end Sys2Proof.Machine
end

