-- ==== Sys2Proof/Machine/Num.lean ====
section
/-! DEFINITION. Machine/Num.lean: the number formats (04_number_formats.md): the values codes stand for, exact
arithmetic on those values, and every rounding and saturation. -/

namespace Sys2Proof.Machine

/-- A float value: a NaN, an infinity, or ±m·2^e with its sign kept for zero (R94, R95). -/
inductive FV where
  | nan
  | inf (neg : Bool)
  | fin (neg : Bool) (m : Nat) (e : Int)
  deriving DecidableEq, Repr

/-- The fifteen formats (R93), in the order of their codes (R72). -/
inductive Fmt where
  | fp32 | fp16 | bf16 | e4m3 | e5m2 | e2m1 | int32 | int16 | int8 | uint8 | int4 | uint4 | bell4 | bell3 | uint16
  deriving DecidableEq, Repr

/-- The 4-bit format code (R72); 0xF is reserved. -/
def Fmt.ofCode : Nat → Option Fmt
  | 0 => some .fp32 | 1 => some .fp16 | 2 => some .bf16 | 3 => some .e4m3 | 4 => some .e5m2 | 5 => some .e2m1
  | 6 => some .int32 | 7 => some .int16 | 8 => some .int8 | 9 => some .uint8 | 10 => some .int4 | 11 => some .uint4
  | 12 => some .bell4 | 13 => some .bell3 | 14 => some .uint16 | _ => none

/-- Width of an element in bits (R93). -/
def Fmt.bits : Fmt → Nat
  | .fp32 | .int32 => 32
  | .fp16 | .bf16 | .int16 | .uint16 => 16
  | .e4m3 | .e5m2 | .int8 | .uint8 => 8
  | .e2m1 | .int4 | .uint4 | .bell4 => 4
  | .bell3 => 3

/-- Integer formats (R96). -/
def Fmt.isInt : Fmt → Bool
  | .int32 | .int16 | .int8 | .uint8 | .int4 | .uint4 | .uint16 => true
  | _ => false

/-- Float formats (R94). -/
def Fmt.isFloat : Fmt → Bool
  | .fp32 | .fp16 | .bf16 | .e4m3 | .e5m2 | .e2m1 => true
  | _ => false

/-- The layout table of R93: may the format be PLAIN? -/
def Fmt.plainOk : Fmt → Bool
  | .e4m3 | .e5m2 | .e2m1 | .bell4 | .bell3 => false
  | _ => true

/-- The layout table of R93: may the format be BLOCK? -/
def Fmt.blockOk : Fmt → Bool
  | .e4m3 | .e5m2 | .e2m1 | .bell4 | .bell3 | .int8 | .uint8 | .int4 | .uint4 => true
  | _ => false

/-- Exponent bits, mantissa bits, bias of a float format (R94). -/
structure FPar where
  ebits : Nat
  mbits : Nat
  bias : Nat
  maxCode : Nat     -- code of the largest finite value
  hasInf : Bool
  nanCode : Nat     -- canonical NaN
  deriving DecidableEq, Repr

/-- The parameters of each float format (R94). -/
def Fmt.par : Fmt → FPar
  | .fp16 => ⟨5, 10, 15, 0x7BFF, true, 0x7E00⟩
  | .bf16 => ⟨8, 7, 127, 0x7F7F, true, 0x7FC0⟩
  | .e4m3 => ⟨4, 3, 7, 0x7E, false, 0x7F⟩
  | .e5m2 => ⟨5, 2, 15, 0x7B, true, 0x7E⟩
  | .e2m1 => ⟨2, 1, 1, 0x7, false, 0⟩
  | _ => ⟨8, 23, 127, 0x7F7FFFFF, true, 0x7FC00000⟩

/-- The value of a float code (R94, R95): any code above the largest finite one is an infinity or a NaN. -/
def decFloat (f : Fmt) (c : Nat) : FV :=
  let p := f.par
  let neg := bit c (p.ebits + p.mbits)
  let mag := c % 2 ^ (p.ebits + p.mbits)
  let e := mag / 2 ^ p.mbits
  let m := mag % 2 ^ p.mbits
  if mag > p.maxCode then
    if p.hasInf && m == 0 then .inf neg else .nan
  else if e = 0 then .fin neg m (1 - (p.bias : Int) - p.mbits)
  else .fin neg (2 ^ p.mbits + m) ((e : Int) - p.bias - p.mbits)

/-- Round n / d to the nearest integer, ties to even (R104). -/
def rneDiv (n d : Nat) : Nat :=
  let q := n / d
  let r := n % d
  if 2 * r > d then q + 1 else if 2 * r = d then q + q % 2 else q

/-- n·2^k as a fraction. -/
def scaleUp (n d : Nat) (k : Int) : Nat × Nat :=
  if 0 ≤ k then (n <<< k.toNat, d) else (n, d <<< (-k).toNat)

/-- floor(log2(n / d)) for n, d > 0. -/
def floorLog (n d : Nat) : Int :=
  let a : Int := (Nat.log2 n : Int) - Nat.log2 d
  let (x, y) := scaleUp n d (-a)
  if x < y then a - 1 else a

/-- The code, without sign, of the exact non-negative n / d rounded once to a float format whose range has no upper
end (R107): a code above `maxCode` says that the rounded value lies beyond the range. -/
def encMag (p : FPar) (n d : Nat) : Nat :=
  if n = 0 then 0
  else
    let emin : Int := 1 - (p.bias : Int)
    let e := max (floorLog n d) emin
    let (x, y) := scaleUp n d ((p.mbits : Int) - e)
    let r := rneDiv x y
    if r < 2 ^ p.mbits then r
    else ((e - emin + 1).toNat) * 2 ^ p.mbits + (r - 2 ^ p.mbits)

/-- The exact fraction of a finite value's magnitude. -/
def magFrac (m : Nat) (e : Int) : Nat × Nat := scaleUp m 1 e

/-- Counts that a conversion adds to the context's counters (R111), in the order of their codes, and the elements that met
a scale of zero and are in none of these counts (R118). -/
structure Sat where
  int : Nat := 0
  float : Nat := 0
  grid : Nat := 0
  nan : Nat := 0
  block : Nat := 0
  fallback : Nat := 0
  met0 : Nat := 0
  deriving DecidableEq, Repr

/-- No count. -/
def Sat.zero : Sat := {}

/-- The sum of two counts. -/
def Sat.add (a b : Sat) : Sat :=
  ⟨a.int + b.int, a.float + b.float, a.grid + b.grid, a.nan + b.nan, a.block + b.block, a.fallback + b.fallback, a.met0 + b.met0⟩

/-- Two counts of one element: it is counted once in each counter (R111). -/
def Sat.once (a b : Sat) : Sat :=
  ⟨max a.int b.int, max a.float b.float, max a.grid b.grid, max a.nan b.nan, max a.block b.block, max a.fallback b.fallback,
    max a.met0 b.met0⟩

/-- The counts of elements that saturated, or met a zero scale, under a running-maximum scale go to SAT_FALLBACK alone
(R109, R118). -/
def Sat.asFallback (a : Sat) : Sat :=
  { nan := a.nan, block := a.block, fallback := a.fallback + a.int + a.float + a.grid + a.met0 }

/-- A float code: sign above the magnitude. -/
def withSign (p : FPar) (neg : Bool) (mag : Nat) : Nat := (if neg then 2 ^ (p.ebits + p.mbits) else 0) + mag

/-- Convert an exact fraction to a float format with saturation (R105, R107). -/
def encFrac (f : Fmt) (neg : Bool) (n d : Nat) : Nat × Sat :=
  let p := f.par
  let c := encMag p n d
  if c > p.maxCode then (withSign p neg p.maxCode, { float := 1 }) else (withSign p neg c, {})

/-- Convert a value to a PLAIN float format (R95, R105, R107). -/
def encFloat (f : Fmt) (v : FV) : Nat × Sat :=
  match v with
  | .nan => (f.par.nanCode, {})
  | .inf neg => (withSign f.par neg (f.par.maxCode + 1), {})
  | .fin neg m e => let (n, d) := magFrac m e; encFrac f neg n d

/-- The FP32 code of an exact result: rounded once to nearest even; beyond the range an infinity (R79). -/
def toF32 (v : FV) : Nat :=
  let p := Fmt.fp32.par
  match v with
  | .nan => p.nanCode
  | .inf neg => withSign p neg (p.maxCode + 1)
  | .fin neg m e =>
    let (n, d) := magFrac m e
    withSign p neg (min (encMag p n d) (p.maxCode + 1))

/-- The FP32 code of ±n / d. -/
def fracF32 (neg : Bool) (n d : Nat) : Nat :=
  let p := Fmt.fp32.par
  withSign p neg (min (encMag p n d) (p.maxCode + 1))

/-- The value of an FP32 code. -/
def ofF32 (c : Nat) : FV := decFloat .fp32 c

/-- Round an exact result to FP32, kept as a value. -/
def r32 (v : FV) : FV := ofF32 (toF32 v)

/-- The value of an integer. -/
def ofInt (z : Int) : FV := .fin (z < 0) z.natAbs 0

/-- The value +0. -/
def fzero : FV := .fin false 0 0

/-- Sign of a value as an integer factor. -/
def signed (neg : Bool) (m : Nat) : Int := if neg then -(m : Int) else m

/-- The exact sum (R79: opposite infinities give NaN; an exact cancellation gives +0). -/
def fadd : FV → FV → FV
  | .nan, _ => .nan
  | _, .nan => .nan
  | .inf a, .inf b => if a == b then .inf a else .nan
  | .inf a, _ => .inf a
  | _, .inf b => .inf b
  | .fin a m e, .fin b n f =>
    if m = 0 ∧ n = 0 then .fin (a && b) 0 0
    else
      let g := min e f
      let z := signed a (m <<< (e - g).toNat) + signed b (n <<< (f - g).toNat)
      .fin (z < 0) z.natAbs g

/-- The value with its sign turned. -/
def fneg : FV → FV
  | .nan => .nan
  | .inf a => .inf (!a)
  | .fin a m e => .fin (!a) m e

/-- The exact difference. -/
def fsub (x y : FV) : FV := fadd x (fneg y)

/-- The exact product (R79: an infinity times zero gives NaN). -/
def fmul : FV → FV → FV
  | .nan, _ => .nan
  | _, .nan => .nan
  | .inf a, .inf b => .inf (a != b)
  | .inf a, .fin b n _ => if n = 0 then .nan else .inf (a != b)
  | .fin a m _, .inf b => if m = 0 then .nan else .inf (a != b)
  | .fin a m e, .fin b n f => .fin (a != b) (m * n) (e + f)

/-- Magnitude. -/
def fabs : FV → FV
  | .nan => .nan
  | .inf _ => .inf false
  | .fin _ m e => .fin false m e

/-- Is the value zero? -/
def fisZero : FV → Bool
  | .fin _ m _ => m == 0
  | _ => false

/-- Is the value neither a NaN nor an infinity? -/
def fisFin : FV → Bool
  | .fin _ _ _ => true
  | _ => false

/-- Is the value a NaN? -/
def fisNan : FV → Bool
  | .nan => true
  | _ => false

/-- x < y on values that are not NaN; −0 and +0 are equal. -/
def flt : FV → FV → Bool
  | .nan, _ => false
  | _, .nan => false
  | .inf a, .inf b => a && !b
  | .inf a, _ => a
  | _, .inf b => !b
  | .fin a m e, .fin b n f =>
    let g := min e f
    decide (signed a (m <<< (e - g).toNat) < signed b (n <<< (f - g).toNat))

/-- The larger value; a NaN gives NaN; a zero extreme is +0 (R86; for VEC_BINARY, of which R84 says neither, log 142). -/
def fmax (x y : FV) : FV :=
  if fisNan x || fisNan y then .nan
  else let z := if flt x y then y else x
       if fisZero z then fzero else z

/-- The smaller value; a NaN gives NaN; a zero extreme is +0 (R86; for VEC_BINARY, of which R84 says neither, log 142). -/
def fmin (x y : FV) : FV :=
  if fisNan x || fisNan y then .nan
  else let z := if flt y x then y else x
       if fisZero z then fzero else z

/-- max(v, +0); a NaN stays NaN (R81). -/
def frelu (v : FV) : FV :=
  match v with
  | .nan => .nan
  | .inf neg => if neg then fzero else v
  | .fin neg m _ => if neg || m = 0 then fzero else v

/-- x / n rounded to FP32 (R87: mean, variance). -/
def fdivNat (v : FV) (n : Nat) : FV :=
  match v with
  | .fin neg m e => let (a, b) := magFrac m e; ofF32 (fracF32 neg a (b * n))
  | v => v

/-- The exact quotient of the magnitudes of two finite values, the divisor not zero. -/
def fquot (x y : FV) : Nat × Nat :=
  match x, y with
  | .fin _ m e, .fin _ n f => scaleUp m n (e - f)
  | _, _ => (0, 1)

/-- Sign of a value. -/
def fsign : FV → Bool
  | .nan => false
  | .inf a => a
  | .fin a _ _ => a

/-- Full range of an integer format (R96). -/
def Fmt.lo : Fmt → Int
  | .int32 => -2147483648 | .int16 => -32768 | .int8 => -128 | .int4 => -8 | _ => 0

/-- Full range of an integer format (R96). -/
def Fmt.hi : Fmt → Int
  | .int32 => 2147483647 | .int16 => 32767 | .int8 => 127 | .uint8 => 255 | .int4 => 7 | .uint4 => 15
  | .uint16 => 65535 | _ => 0

/-- Quantising range (R96). -/
def Fmt.qlo : Fmt → Int
  | .int8 => -127 | .int4 => -7 | _ => 0

/-- Clamp an integer, saying whether it was clamped. -/
def clampInt (lo hi z : Int) : Int × Bool := if z < lo then (lo, true) else if hi < z then (hi, true) else (z, false)

/-- An integer in an integer format without a scale: full range, saturating (R105, R108, R110). -/
def intToInt (f : Fmt) (z : Int) : Nat × Sat :=
  let (v, c) := clampInt f.lo f.hi z
  (twos f.bits v, if c then { int := 1 } else {})

/-- ±n / d rounded to the nearest integer, ties to even on the magnitude (R108). -/
def rneInt (neg : Bool) (n d : Nat) : Int := signed neg (rneDiv n d)

/-- A float value in an integer format without a scale (R105). -/
def floatToInt (f : Fmt) (v : FV) : Nat × Sat :=
  match v with
  | .nan => (0, { nan := 1 })
  | .inf neg => (twos f.bits (if neg then f.lo else f.hi), { int := 1 })
  | .fin neg m e => let (n, d) := magFrac m e; intToInt f (rneInt neg n d)

/-- A number in a vector lane: an integer of the INT32 kind or a float value (R83). -/
inductive Lane where
  | i (z : Int)
  | f (v : FV)
  deriving DecidableEq, Repr

/-- A lane as an FP32 value: an INT32 is rounded to nearest even (R103). -/
def Lane.toFV : Lane → FV
  | .i z => r32 (ofInt z)
  | .f v => v

/-- The PLAIN element a code stands for (R94, R96, R98). -/
def decPlain (f : Fmt) (c : Nat) : Lane :=
  match f with
  | .int32 => .i (sext 32 c)
  | .int16 => .i (sext 16 c)
  | .int8 => .i (sext 8 c)
  | .int4 => .i (sext 4 c)
  | .uint8 | .uint4 | .uint16 => .i c
  | f => .f (decFloat f c)

/-- Convert a lane to a PLAIN format (R104, R105, R110). -/
def encPlain (f : Fmt) (x : Lane) : Nat × Sat :=
  match x with
  | .i z => if f.isInt then intToInt f z else encFloat f (r32 (ofInt z))
  | .f v => if f.isInt then floatToInt f v else encFloat f v

/-- The FP16 constants of the BELL grids (R97), magnitudes by index. -/
def bellMag (f : Fmt) : List Nat :=
  match f with
  | .bell3 => [0x2E90, 0x3519, 0x38A0, 0x3C00]
  | _ => [0x2963, 0x3013, 0x32E9, 0x34F9, 0x36AB, 0x3857, 0x39A9, 0x3C00]

/-- The magnitude of a BELL level in units of 2^−24. -/
def bellUnits (f : Fmt) (i : Nat) : Nat :=
  match decFloat .fp16 ((bellMag f).getD i 0) with
  | .fin _ m e => m <<< (e + 24).toNat
  | _ => 0

/-- The value v(c) of a code in its format, without scale or zero point (R94, R96, R97). -/
def codeValue (f : Fmt) (c : Nat) : FV :=
  match f with
  | .bell4 => .fin (bit c 3) (bellUnits f (c % 8)) (-24)
  | .bell3 => .fin (bit c 2) (bellUnits f (c % 4)) (-24)
  | f => (match decPlain f c with
    | .i z => ofInt z
    | .f v => v)

/-- The value of a BLOCK element (R103): code, BF16 scale code, zero point. A product that is zero under a scale that is not
has the sign of its factors, as an exact product rounded to FP32 has (log 124). -/
def decBlock (f : Fmt) (c scale zp : Nat) : FV :=
  let s := decFloat .bf16 scale
  if !fisFin s then .nan
  else match f with
    | .uint8 | .uint4 =>
      if fisZero s then fzero else r32 (fmul (ofInt ((c : Int) - zp)) s)
    | f =>
      let v := codeValue f c
      (match v with
      | .fin neg _ _ => if fisZero s then .fin neg 0 0 else r32 (fmul v s)
      | v => fmul v s)

/-- enc_bell (R109): the index chosen for |x| / scale = n / d, stepping up while the next level is nearer. -/
def bellIndex (f : Fmt) (n d : Nat) : Nat → Nat → Nat
  | 0, i => i
  | k + 1, i =>
    if n * 2 ^ 25 > (bellUnits f i + bellUnits f (i + 1)) * d then bellIndex f n d k (i + 1) else i

/-- The top index of a BELL grid. -/
def bellTop (f : Fmt) : Nat := if f = .bell3 then 3 else 7

/-- enc_bell (R109) of a finite value, for a scale value. -/
def encBell (f : Fmt) (x scale : FV) : Nat × Sat :=
  let s := if fsign x then 2 ^ (f.bits - 1) else 0
  if fisZero scale then (s, { met0 := 1 })
  else
    let (n, d) := fquot x scale
    if n * 2 ^ 24 > bellUnits f (bellTop f) * d then (s + bellTop f, { grid := 1 })
    else (s + bellIndex f n d (bellTop f) 0, {})

/-- enc_int (R108) into a BLOCK target: scale, zero point, quantising range. -/
def encIntScaled (f : Fmt) (x scale : FV) (zp : Nat) : Nat × Sat :=
  if fisZero scale then (zp, if fisZero x then { met0 := 1 } else { int := 1 })
  else
    let (n, d) := fquot x scale
    let z := rneInt (fsign x != fsign scale) n d + zp
    let (v, c) := clampInt f.qlo f.hi z
    (twos f.bits v, if c then { int := 1 } else {})

/-- Encode one finite FP32 value into a BLOCK target (R107 to R109). For a float target under scale zero the quotient of a
non-zero element does not exist: its code and its count in SAT_FLOAT are free values (log 11), and either way it stands for
zero; under a running-maximum scale each element that meets a scale of zero is counted in SAT_FALLBACK, a zero too (R118). -/
def encScaled (f : Fmt) (x scale : FV) (zp : Nat) : Nat × Sat :=
  match f with
  | .bell4 | .bell3 => encBell f x scale
  | .int8 | .uint8 | .int4 | .uint4 => encIntScaled f x scale zp
  | f =>
    if fisZero scale then
      if fisZero x then (withSign f.par (fsign x) 0, { met0 := 1 })
      else (Config.zeroScaleCode f.bits (toF32 x) % 2 ^ f.bits,
        if Config.zeroScaleCounts f.bits (toF32 x) then { float := 1 } else { met0 := 1 })
    else
      let (n, d) := fquot x scale
      encFrac f (fsign x != fsign scale) n d

/-- qmax of a BLOCK target (R115). -/
def Fmt.qmax : Fmt → Nat
  | .int8 => 127 | .uint8 => 255 | .int4 => 7 | .uint4 => 15 | .e4m3 => 448 | .e5m2 => 57344 | .e2m1 => 6 | _ => 1

/-- The smallest BF16 code that is at least n / d, at most 0x7F7F (R115). -/
def roundUpBf16 (n d : Nat) : Nat :=
  if n = 0 then 0
  else
    let p := Fmt.bf16.par
    let emin : Int := 1 - (p.bias : Int)
    let e := max (floorLog n d) emin
    let (x, y) := scaleUp n d ((p.mbits : Int) - e)
    let r := ceilDiv x y
    let c := if r < 2 ^ p.mbits then r else ((e - emin + 1).toNat) * 2 ^ p.mbits + (r - 2 ^ p.mbits)
    min c p.maxCode

/-- The exact fraction of hi − lo or of max(hi, −lo), for hi ≥ 0 ≥ lo. -/
def rangeFrac (v : FV) : Nat × Nat :=
  match v with
  | .fin _ m e => magFrac m e
  | _ => (0, 1)

/-- scale_of (R115): scale code and zero point from a range [lo, hi]. -/
def scaleOf (f : Fmt) (hi lo : FV) : Nat × Nat :=
  match f with
  | .uint8 | .uint4 =>
    let (n, d) := rangeFrac (fsub hi lo)
    let c := roundUpBf16 n (d * f.qmax)
    if c = 0 then (0, 0)
    else
      let (a, b) := fquot (fneg lo) (decFloat .bf16 c)
      (c, rneDiv a b)
  | f =>
    let (n, d) := rangeFrac (fmax hi (fneg lo))
    (roundUpBf16 n (d * f.qmax), 0)

/-- Blocks per 64-byte line (R99). -/
def Fmt.perLine (f : Fmt) : Nat :=
  match f.bits with
  | 8 => 1
  | 4 => 3
  | _ => 4

/-- Where block k of a BLOCK tensor lies (R99, R101): byte offsets, from the start of the space, of its line, its scale,
its zero point and its data, and the bytes of its data. -/
structure BlockAt where
  line : Nat
  scale : Nat
  zp : Nat
  data : Nat
  len : Nat
  deriving DecidableEq, Repr

/-- The place of the block that handle h names (R101). -/
def blockAt (f : Fmt) (h : Nat) : BlockAt :=
  let k := h / 8
  let g := f.perLine
  let line := 64 * (k / g)
  let slot := k % g
  match f.bits with
  | 8 => ⟨line, line, line + 2, line + 32, 32⟩
  | 4 => ⟨line, line + 2 * slot, line + 6 + slot, line + 16 + 16 * slot, 16⟩
  | _ => ⟨line, line + 2 * slot, line + 8, line + 16 + 12 * slot, 12⟩

/-- The 32 codes of a block's data field (R99). -/
def blockCodes (f : Fmt) (data : Bytes) : List Nat :=
  let v := leNat data
  (List.range 32).map (fun i => fld v (f.bits * i + f.bits - 1) (f.bits * i))

/-- The data field of 32 codes (R99). -/
def blockData (f : Fmt) (codes : List Nat) : Bytes :=
  toLe (f.bits * 4) ((List.range 32).foldl (fun acc i => acc + (codes.getD i 0 % 2 ^ f.bits) * 2 ^ (f.bits * i)) 0)

/-- The codes of `n` PLAIN elements (R98); 4-bit elements two to a byte. -/
def plainCodes (f : Fmt) (b : Bytes) (n : Nat) : List Nat :=
  if f.bits = 4 then (List.range n).map (fun i => let x := (b.getD (i / 2) 0).toNat; if i % 2 = 0 then x % 16 else x / 16)
  else (List.range n).map (fun i => leAt b (i * (f.bits / 8)) (f.bits / 8))

/-- Bytes of `n` PLAIN elements (R98). -/
def plainLen (f : Fmt) (n : Nat) : Nat := (n * f.bits + 7) / 8

/-- `n` PLAIN codes as bytes (R98). An odd last 4-bit element leaves the high nibble zero. -/
def plainBytes (f : Fmt) (codes : List Nat) : Bytes :=
  if f.bits = 4 then
    (List.range ((codes.length + 1) / 2)).map
      (fun i => BitVec.ofNat 8 (codes.getD (2 * i) 0 % 16 + 16 * (codes.getD (2 * i + 1) 0 % 16)))
  else codes.flatMap (fun c => toLe (f.bits / 8) c)

/-- One pairwise tree sum of up to 2^k values, each addition rounded (R86). A chunk that is not full is summed by the tree of
64 places, in which a place without an element takes no part (log 140). -/
def pairSum : Nat → List FV → FV
  | 0, l => l.headD fzero
  | k + 1, l =>
    let h := 2 ^ k
    match l.drop h with
    | [] => pairSum k (l.take h)
    | r => r32 (fadd (pairSum k (l.take h)) (pairSum k r))

/-- Chunks of 64. -/
def chunks64 : Nat → List FV → List (List FV)
  | 0, _ => []
  | k + 1, l => if l.isEmpty then [] else l.take 64 :: chunks64 k (l.drop 64)

/-- SUM of a row (R86): pairwise within each 64-element chunk, chunk sums in ascending order. -/
def rowSum (l : List FV) : FV :=
  match (chunks64 (l.length / 64 + 1) l).map (pairSum 6) with
  | [] => fzero
  | s :: r => r.foldl (fun a x => r32 (fadd a x)) s

/-- The slice sum of the FP16 class and the glaze path (R78, R127): a 64-bit field with the top bit of the largest
product at bit 57, every product cut toward zero at bit 0, then an exact sum. `none` where no product is non-zero. -/
def fieldSum (prods : List FV) : FV :=
  if prods.any fisNan then .nan
  else
    match prods.filter (fun v => !fisFin v) with
    | x :: r => r.foldl fadd x
    | [] =>
      let tops := prods.filterMap (fun v => match v with
        | .fin _ m e => if m = 0 then none else some ((Nat.log2 m : Int) + e)
        | _ => none)
      match tops with
      | [] => fzero
      | t :: ts =>
        let top := ts.foldl max t
        let q := top - 57
        let z := prods.foldl (fun (acc : Int) v => match v with
          | .fin neg m e =>
            acc + signed neg (if q ≤ e then m <<< (e - q).toNat else m >>> (q - e).toNat)
          | _ => acc) 0
        .fin (z < 0) z.natAbs q

/-- The exact slice sum of the narrow classes (R78). A zero sum is +0. -/
def exactSum (prods : List FV) : FV :=
  let s := prods.foldl fadd fzero
  if fisZero s then fzero else s

end Sys2Proof.Machine
end

