-- ==== Sys2Proof/Machine/Crypto.lean ====
section
/-! DEFINITION. Machine/Crypto.lean: the DEC-TED code of stored words (R432 to R434) and the SHAKE256 digests that the
spec's security chapters name (FIPS 202; an external standard). -/

namespace Sys2Proof.Machine

/-- One step of the division by G(x) = 0xC599 (R432): the remainder times x, plus the next bit. -/
def bchStep (r : Nat) (b : Bool) : Nat :=
  let v := 2 * r + (if b then 1 else 0)
  if v ≥ 2 ^ 15 then Nat.xor v 0xC599 else v

/-- The remainder of the polynomial whose coefficients are the low `n` bits of `w`, modulo G(x). -/
def bchRem (w : Nat) : Nat → Nat → Nat
  | 0, r => r
  | n + 1, r => bchRem w n (bchStep r (bit w n))

/-- The check bits c[14:0] of a 64-bit data word (R432). -/
def bchCheck (d : Nat) : Nat := bchRem (d * 2 ^ 15) 79 0

/-- The syndrome of a word whose flipped bits are `mask`, over 80 positions (R432, R434: the code is linear). -/
def bchSyndrome (mask : Nat) : Nat := bchRem mask 80 0

/-- The syndromes of one error at each of `n` positions, from position 0. -/
def bchColumns (n : Nat) : List Nat := (List.range n).map (fun p => bchSyndrome (2 ^ p))

/-- Outcome of a read (R434): the flipped bits that the correction names, or uncorrectable. -/
inductive Ecc where
  | clean
  | corrected (positions : List Nat)
  | uncorrectable
  deriving DecidableEq, Repr

/-- Two positions, in ascending order, whose columns add to `s`. -/
def bchPair (s : Nat) : List Nat → Nat → Option (List Nat)
  | [], _ => none
  | c :: cs, p =>
    match cs.idxOf? (Nat.xor s c) with
    | some k => some [p, p + 1 + k]
    | none => bchPair s cs (p + 1)

/-- The table of R434 for a word that stores `n` positions (79 on chip, 80 in LPDDR5). -/
def bchDecode (n mask : Nat) : Ecc :=
  if mask = 0 then .clean
  else
    let s := bchSyndrome mask
    if s = 0 then .clean
    else
      let cols := bchColumns n
      match cols.idxOf? s with
      | some p => .corrected [p]
      | none =>
        match bchPair s cols 0 with
        | some ps => .corrected ps
        | none => .uncorrectable

/-- The flipped bits that remain after a correction: none, unless four or more bits had flipped (R434). -/
def bchResidue (mask : Nat) (ps : List Nat) : Nat := ps.foldl (fun m p => Nat.xor m (2 ^ p)) mask

/-- Rotate a 64-bit lane left. -/
def rotl64 (x n : Nat) : Nat := (x * 2 ^ n) % 2 ^ 64 + x / 2 ^ (64 - n)

/-- Rotation offsets of Keccak by lane index x + 5y. -/
def keccakRot : List Nat :=
  [0, 1, 62, 28, 27, 36, 44, 6, 55, 20, 3, 10, 43, 25, 39, 41, 45, 15, 21, 8, 18, 2, 61, 56, 14]

/-- Round constants of Keccak-f[1600]. -/
def keccakRC : List Nat :=
  [0x0000000000000001, 0x0000000000008082, 0x800000000000808A, 0x8000000080008000, 0x000000000000808B,
   0x0000000080000001, 0x8000000080008081, 0x8000000000008009, 0x000000000000008A, 0x0000000000000088,
   0x0000000080008009, 0x000000008000000A] ++
  [0x000000008000808B, 0x800000000000008B, 0x8000000000008089, 0x8000000000008003, 0x8000000000008002,
   0x8000000000000080, 0x000000000000800A, 0x800000008000000A, 0x8000000080008081, 0x8000000000008080,
   0x0000000080000001, 0x8000000080008008]

/-- One round of Keccak-f[1600] on 25 lanes. -/
def keccakRound (a : List Nat) (rc : Nat) : List Nat :=
  let g (l : List Nat) (i : Nat) : Nat := l.getD i 0
  let c := (List.range 5).map (fun x =>
    Nat.xor (Nat.xor (Nat.xor (Nat.xor (g a x) (g a (x + 5))) (g a (x + 10))) (g a (x + 15))) (g a (x + 20)))
  let d := (List.range 5).map (fun x => Nat.xor (g c ((x + 4) % 5)) (rotl64 (g c ((x + 1) % 5)) 1))
  let t := (List.range 25).map (fun i => rotl64 (Nat.xor (g a i) (g d (i % 5))) (keccakRot.getD i 0))
  -- pi: lane (x, y) takes lane (x + 3y, x)
  let b := (List.range 25).map (fun i => let x := i % 5; let y := i / 5; g t ((x + 3 * y) % 5 + 5 * x))
  let r := (List.range 25).map (fun i =>
    let x := i % 5
    let y := 5 * (i / 5)
    Nat.xor (g b i) (Nat.land (Nat.xor (g b (y + (x + 1) % 5)) (2 ^ 64 - 1)) (g b (y + (x + 2) % 5))))
  Nat.xor (g r 0) rc :: r.drop 1

/-- Keccak-f[1600]. -/
def keccakF (a : List Nat) : List Nat := keccakRC.foldl keccakRound a

/-- Absorb one block of 136 bytes. -/
def shakeAbsorb (a : List Nat) (block : Bytes) : List Nat :=
  keccakF ((List.range 25).map (fun i => if i < 17 then Nat.xor (a.getD i 0) (leAt block (8 * i) 8) else a.getD i 0))

/-- Absorb whole blocks and then the padded rest (fuel: number of blocks). -/
def shakeBlocks : Nat → List Nat → Bytes → List Nat
  | 0, a, _ => a
  | n + 1, a, m =>
    if m.length < 136 then
      let p := padTo 136 (m ++ [0x1F])
      shakeAbsorb a (p.take 135 ++ [(p.getD 135 0) ||| 0x80])
    else shakeBlocks n (shakeAbsorb a (m.take 136)) (m.drop 136)

/-- SHAKE256 of a byte string, `n` bytes of output, n ≤ 136. -/
def shake256 (n : Nat) (m : Bytes) : Bytes :=
  let a := shakeBlocks (m.length / 136 + 1) (List.replicate 25 0) m
  (a.flatMap (fun x => toLe 8 x)).take n

/-! ### Falcon-1024 (R454), as the Falcon specification, version 1.2, defines verification (external standard, log 12) -/

/-- The state of SHAKE256 once it has absorbed a message. -/
def shakeState (m : Bytes) : List Nat := shakeBlocks (m.length / 136 + 1) (List.replicate 25 0) m

/-- `n` further blocks of SHAKE256 output. -/
def shakeSqueeze : Nat → List Nat → Bytes
  | 0, _ => []
  | n + 1, a => (a.flatMap (fun x => toLe 8 x)).take 136 ++ shakeSqueeze n (keccakF a)

/-- q of Falcon -/
def falconQ : Nat := 12289

/-- Big-endian pairs of a byte stream that lie below 5·q, modulo q. -/
def falconPairs : Bytes → List Nat
  | a :: b :: r =>
    let v := 256 * a.toNat + b.toNat
    if v < 5 * falconQ then v % falconQ :: falconPairs r else falconPairs r
  | _ => []

/-- HashToPoint of nonce and message: 1,024 numbers below q. 64 blocks of output hold 4,352 pairs, of which 15 in 16 serve. -/
def falconPoint (m : Bytes) : List Nat := (falconPairs (shakeSqueeze 64 (shakeState m))).take 1024

/-- The bits of a byte string, most significant first. -/
def bitsOf (b : Bytes) : List Bool := b.flatMap (fun x => (List.range 8).map (fun i => bit x.toNat (7 - i)))

/-- The number whose bits these are, most significant first. -/
def ofBits (l : List Bool) : Nat := l.foldl (fun n b => 2 * n + (if b then 1 else 0)) 0

/-- A public key: the header byte 0x0A, then 1,024 coefficients of 14 bits, each below q. -/
def falconKey (pk : Bytes) : Option (List Nat) :=
  let bs := bitsOf (pk.drop 1)
  let h := (List.range 1024).map (fun i => ofBits ((bs.drop (14 * i)).take 14))
  if pk.length = 1793 && leAt pk 0 1 == 0x0A && h.all (· < falconQ) then some h else none

/-- Zeros before the next one, and what follows it; none where no one is left. -/
def falconUnary : Nat → List Bool → Option (Nat × List Bool)
  | _, [] => none
  | n, true :: r => some (n, r)
  | n, false :: r => falconUnary (n + 1) r

/-- `n` coefficients of a compressed signature: sign, seven low bits, and the high part in unary; minus zero is refused.
What follows the last coefficient is zero. -/
def falconCoeffs : Nat → List Bool → Option (List Int)
  | 0, r => if r.all (! ·) then some [] else none
  | n + 1, r =>
    match r with
    | [] => none
    | sign :: r =>
      match falconUnary 0 (r.drop 7) with
      | none => none
      | some (hi, rest) =>
        let v := 128 * hi + ofBits (r.take 7)
        if sign && v == 0 then none
        else (falconCoeffs n rest).map (fun l => (if sign then -(v : Int) else (v : Int)) :: l)

/-- The last coefficient comes first with its sign changed: a polynomial times x modulo x^1024 + 1. -/
def falconTurn (h : List Int) : List Int :=
  match h.getLast? with
  | some x => -x :: h.dropLast
  | none => []

/-- The product of two polynomials modulo x^1024 + 1 and q. -/
def falconMul : List Int → List Int → List Int → List Int
  | [], _, acc => acc
  | s :: r, h, acc => falconMul r (falconTurn h) ((acc.zip h).map (fun x => (x.1 + s * x.2) % falconQ))

/-- A number modulo q in the range around zero. -/
def falconCentre (x : Int) : Int := let y := x % falconQ; if y ≤ 6144 then y else y - falconQ

/-- The square of the largest norm that Falcon-1024 accepts. -/
def falconBound : Int := 70265242

/-- Verify a padded Falcon-1024 signature of 1,280 bytes: the header byte 0x3A, a nonce of 40 bytes, and the compressed
polynomial. -/
def falconVerify (pk msg sig : Bytes) : Bool :=
  match falconKey pk, falconCoeffs 1024 (bitsOf (sig.drop 41)) with
  | some h, some s2 =>
    let c := falconPoint (slice sig 1 40 ++ msg)
    let p := falconMul s2 (h.map Int.ofNat) (List.replicate 1024 0)
    let s1 := (c.zip p).map (fun x => falconCentre ((x.1 : Int) - x.2))
    sig.length == 1280 && leAt sig 0 1 == 0x3A && c.length == 1024 &&
      decide ((s1 ++ s2).foldl (fun n x => n + x * x) (0 : Int) ≤ falconBound)
  | _, _ => false

end Sys2Proof.Machine
end

