-- ==== Sys2Proof/Machine/StFabric.lean ====
section
/-! DEFINITION. Machine/StFabric.lean: the state of the compute fabric: palettes, canvases, accumulators, command queues,
tallies, barriers, DMA engines and tags (02_fabric_hierarchy.md, 03_easel_core.md). -/

namespace Sys2Proof.Machine

/-- What a queue waits on (R62, R33, R41). -/
inductive Wait where
  | acquire (tally n : Nat)
  | wait (tally n : Nat)
  | barrier (gen : Nat)
  deriving DecidableEq, Repr

/-- The stream of a queue (R62). A RUNNING queue with a wait is BLOCKED. -/
inductive QRun where
  | idle | running | stopped | faulted
  deriving DecidableEq, Repr

/-- A command queue (R62, R63). -/
structure CmdQueue where
  run : QRun := .idle
  /-- offset, in the COMMAND region, of the command the queue is at -/
  next : Nat := 0
  /-- that command as fetched and accepted; none where none is -/
  cmd : Option Nat := none
  /-- the words fetched ahead of it (R62: up to 4) -/
  ahead : List Nat := []
  wait : Option Wait := none
  /-- the header acquire of the command is done -/
  acquired : Bool := false
  /-- the wait that the command itself is has ended -/
  granted : Bool := false
  /-- the command was rejected or in error: the queue goes no further (R66) -/
  bad : Bool := false
  deriving DecidableEq, Repr

/-- An operation that waits on a tally, in the order of beginning to wait (R37). -/
structure Waiter where
  tally : Nat
  e : Nat
  q : Nat
  acquire : Bool
  n : Nat
  /-- device time at which it began to wait -/
  since : Nat := 0
  deriving DecidableEq, Repr

/-- A barrier channel (R40, R41, R55): member easels, arrivals not yet used by easel, generation, and the queues that
wait, each with the generation it waits for. -/
structure Barrier where
  owner : Nat
  members : List Nat
  arrivals : Tab Nat := []
  gen : Nat := 0
  waiting : List (Nat × Nat × Nat) := []
  /-- member sets on every device of a ring: the ring jobs whose tokens this channel waits for (R421) -/
  ringJobs : List Nat := []
  deriving DecidableEq, Repr

/-- A descriptor that an engine has accepted and not yet completed (R44, R45). -/
structure DmaJob where
  ctx : Nat
  e : Nat
  q : Nat
  desc : Nat
  started : Bool := false
  /-- number of free values taken before the job's, which say which words move at its start (R31) -/
  free0 : Nat := 0
  /-- the source read met an uncorrectable error: the job neither completes nor posts (R50) -/
  failed : Bool := false
  /-- tags that its transactions in flight hold, by pool: LPDDR5, PCIe, links (R51, R52) -/
  tags : Nat × Nat × Nat := (0, 0, 0)
  deriving DecidableEq, Repr

/-- A report to the studio controller over the control network (R62, R92). -/
inductive FabReport where
  | ended (e q : Nat)
  | doorbellError (e q : Nat)
  | tallyValue (t n : Nat)
  deriving DecidableEq, Repr

/-- The fabric. Keys: palette e·2^20 + offset; canvas a·2^22 + offset (R47); accumulator entry
((e·2 + bank)·256 + row)·32 + j; queue e·16 + q; atelier barrier a·8 + channel. -/
structure Fabric where
  palette : Mem := []
  canvas : Mem := []
  /-- retired palette macros: key e·32 + macro (R68, R443) -/
  palRetired : List Nat := []
  /-- retired canvas macros: key a·128 + macro (R444) -/
  canRetired : List Nat := []
  acc : Tab Nat := []
  /-- 1 where the accumulator row ((e·2 + bank)·256 + row) was last written as INT32, 2 as FP32 (R76) -/
  accKind : Tab Nat := []
  /-- accumulator entries with wrong parity (R90) -/
  accParity : List Nat := []
  /-- easels with a vector-unit register of wrong parity (R90) -/
  vecParity : List Nat := []
  queue : Tab CmdQueue := []
  /-- easels that a stop signal has reached (R63) -/
  stop : List Nat := []
  tally : Tab Nat := []
  waiters : List Waiter := []
  bar : Tab Barrier := []
  devBar : Tab Barrier := []
  /-- accepted descriptors by engine: 0 to 7 the ateliers, 8 the studio controller (R44, R54) -/
  dma : Tab (List DmaJob) := []
  /-- queue last served by each unit: key e·8 + unit (R61) -/
  lastServed : Tab Nat := []
  reports : List FabReport := []
  deriving DecidableEq, Repr

end Sys2Proof.Machine
end

