-- ==== Sys2Proof/Machine/StCtx.lean ====
section
/-! DEFINITION. Machine/StCtx.lean: contexts, their bound images and the scheduling state (13_scheduling.md). -/

namespace Sys2Proof.Machine

/-- A certificate entry (R304). -/
structure CertEntry where
  e : Nat := 1
  a : Nat := 1
  kMin : Nat := 6
  eccStalls : Nat := 0
  wEnc : Nat := 0
  wStep : Nat := 0
  sMax : Nat := 1
  ringWait : Nat := 0
  ringDevices : Nat := 0
  tagsLp : Nat := 0
  tagsPcie : Nat := 0
  tagsLink : Nat := 0
  canvasKib : Nat := 0
  longestCmd : Nat := 0
  saveBytes : Nat := 0
  maskUse : Nat := 0
  deriving DecidableEq, Repr

/-- An entry of a palette map (R70, R310): kind 0 COMMAND, 1 GESSO, 2 WEIGHT, 3 WORK. -/
structure PalRegion where
  kind : Nat
  offset : Nat
  size : Nat
  digest : Bytes
  deriving DecidableEq, Repr

/-- An entry of REGION_INIT (R310). -/
structure RegionInit where
  pos : Nat
  region : Nat
  source : Nat
  regionOffset : Nat
  sourceOffset : Nat
  length : Nat
  deriving DecidableEq, Repr

/-- An entry of ENTRY_POINT (R311). -/
structure EntryPoint where
  event : Nat
  pos : Nat
  queue : Nat
  start : Nat
  deriving DecidableEq, Repr

/-- An entry of RELOCATION (R311). -/
structure Reloc where
  pos : Nat
  region : Nat
  kind : Nat
  offset : Nat
  bitLo : Nat
  width : Nat
  deriving DecidableEq, Repr

/-- A GROUP entry of an attention site (R312). -/
structure AttnGroup where
  pos : Nat
  queue : Nat
  headFirst : Nat
  hCount : Nat
  fwdTemplate : Nat
  finTemplate : Nat
  kAlt : Nat
  vAlt : Nat
  emitOffset : Nat
  emitBytes : Nat
  deriving DecidableEq, Repr

/-- An attention site (R312). -/
structure AttnSite where
  kvSite : Nat
  maxTokens : Nat
  maxQueries : Nat
  lengthTable : Nat
  maskSummary : Nat
  maskBitmaps : Nat
  groups : List AttnGroup
  deriving DecidableEq, Repr

/-- A stencil site (R312). -/
structure StencilSite where
  commitPos : Nat
  commitQueue : Nat
  tallyPos : Nat
  tallyLocal : Nat
  maskUse : Nat
  maskRing : Nat
  commitList : Nat
  maxSeq : Nat
  deriving DecidableEq, Repr

/-- A RING entry (R312). -/
structure RingEntry where
  atelier : Nat
  barrier : Bool
  tallyPos : Nat
  tallyLocal : Nat
  bufferOffset : Nat
  bufferBytes : Nat
  deriving DecidableEq, Repr

/-- One variant of a schedule image (R307, R308). -/
structure Variant where
  palette : List (List (Option PalRegion)) := []
  init : List RegionInit := []
  tallies : List (Nat × Nat × Nat) := []
  entries : List EntryPoint := []
  relocs : List Reloc := []
  histories : List (Nat × Nat × Bytes) := []
  saveMarks : List (Nat × Nat) := []
  chains : List Nat := []
  sites : List AttnSite := []
  stencil : List StencilSite := []
  rings : List RingEntry := []
  deriving DecidableEq, Repr

/-- A stop table entry or any other fixed-size entry kept as bytes; the text profile (R309, R220). -/
structure TextProfile where
  fieldCount : Nat
  fieldMaxBytes : Nat
  stops : List Bytes
  deriving DecidableEq, Repr

/-- The KV layout record and its site array (R179). -/
structure KvLayout where
  record : Nat
  sites : List Nat
  deriving DecidableEq, Repr

/-- A schedule image (R307): the shared parts and one variant for each certificate entry. -/
structure Image where
  cls : Nat := 0
  vocab : Bytes := []
  grammar : Bytes := []
  cert : List CertEntry := []
  kv : Option KvLayout := none
  text : Option TextProfile := none
  tileGeom : Option Nat := none
  variants : List Variant := []
  bytes : Bytes := []
  deriving DecidableEq, Repr

/-- State of a context (R303). -/
inductive CtxState where
  | empty | waiting | running | preempted | tearingDown | faulted
  deriving DecidableEq, Repr

/-- The partition of a running context (R40, R55, R57, R306): the variant it runs, its easels by position, its canvas share
by atelier, its barrier channel (atelier·8 + channel) in each atelier it touches, by shape atelier, its device channel where
it spans ateliers, and its tag quotas. -/
structure Part where
  variant : Nat
  easels : List Nat
  canvas : List (Nat × Nat × Nat)
  bars : List Nat
  devBar : Option Nat
  tags : Nat × Nat × Nat
  placedAt : Nat
  deriving DecidableEq, Repr

/-- The saved state of a pre-empted context (R326). Keys: position·16 + queue; position·256 + local tally;
position·2^20 + offset; accumulator entries by (position·2 + bank)·256·32 + …; canvas bytes by shape atelier·2^22 +
offset in the share. -/
structure Saved where
  variant : Nat
  queues : Tab CmdQueue
  tallies : Tab Nat
  palette : Mem
  acc : Tab Nat
  accKind : Tab Nat
  /-- the canvas bytes saved: the ring receive buffers (R203), or the whole share on entry to SLEEP (R484) -/
  canvas : Mem
  /-- its barrier arrivals used the ateliers' channels (R57) -/
  inAtelier : Bool := true
  /-- by shape atelier: generation and arrivals (by position) of the channel -/
  bars : List (Nat × Tab Nat)
  devBar : Option (Nat × Tab Nat)
  deriving DecidableEq, Repr

/-- A host window (R383: WINDOW_REGISTER). -/
structure Window where
  base : Nat
  length : Nat
  writable : Bool
  deriving DecidableEq, Repr

/-- A bundle or lexicon that has been loaded (R467), in load order: its bundle digest, the digest that names a lexicon
(R233), and the request whose OK may still wait for the partner: channel, sequence number. -/
structure Loaded where
  kind : Nat
  digest : Bytes
  order : Nat
  name : Bytes := []
  req : Nat × Nat := (0, 0)
  deriving DecidableEq, Repr

/-- A context (R302, R303). -/
structure Ctx where
  /-- the context parameter record -/
  params : Nat
  st : CtxState := .empty
  /-- the channel whose session holds it -/
  session : Nat := 0
  image : Option Image := none
  /-- the envelopes that were verified and bound, oldest first (R471) -/
  bundles : List Bytes := []
  /-- WEIGHT_SET sections by digest -/
  weights : List (Bytes × Bytes) := []
  loaded : List Loaded := []
  modelDigest : Bytes := []
  /-- base and size of the context's LPDDR5 allocation -/
  lpBase : Nat := 0
  lpSize : Nat := 0
  part : Option Part := none
  saved : Option Saved := none
  windows : Tab Window := []
  /-- regions of REGION_ALLOC: payload address and bytes -/
  regions : Tab (Nat × Nat) := []
  /-- counters by code (R111) -/
  counters : Tab Nat := []
  cause : Nat := 0
  /-- 0 none, 1 contained error, 2 abort (R331, R333) -/
  tearMode : Nat := 0
  /-- steps of R331 done, up to 4 -/
  tearStep : Nat := 0
  /-- a DRAIN destroy is in progress (R333) -/
  draining : Bool := false
  /-- firmware has sent the stop signal for a pre-emption (R325) -/
  stopping : Bool := false
  /-- a partition is bound and the saved state is being restored (R329) -/
  restoring : Bool := false
  /-- device time at entry to the state it is in (R324) -/
  since : Nat := 0
  /-- LPDDR5 address and bytes of what SLEEP saved of it (R484) -/
  sleepAt : Option (Nat × Nat) := none
  /-- reference instant of the previous item (R317) -/
  lastRef : Option Nat := none
  /-- primer profile record and bucket entries (R289) -/
  profile : Option Bytes := none
  /-- the item the partition works on, and decoder steps run -/
  busy : Bool := false
  /-- correction stalls of its agents: millisecond of device time, and stalls in it (R319) -/
  stalls : Nat × Nat := (0, 0)
  /-- causes of R319 counted in the running decoder step, bit i for row i -/
  riskStep : Nat := 0
  deriving DecidableEq, Repr

/-- A resident WEIGHT region (R322). -/
structure Resident where
  easel : Nat
  digest : Bytes
  offset : Nat
  size : Nat
  deriving DecidableEq, Repr

/-- Scheduling state of firmware (13_scheduling.md). -/
structure Sched where
  /-- best-effort contexts waiting for a place, in order of entry (R324) -/
  waiting : List Nat := []
  /-- an admission in progress: context, channel and request of the deferred reply, placement chosen (R313, R315) -/
  admitting : List (Nat × Nat × Part) := []
  resident : List Resident := []
  /-- descriptors and pages accepted since reset (R495) -/
  accSeq : Nat := 0
  /-- bundles and lexicons loaded since reset (R467) -/
  loadSeq : Nat := 0
  /-- the SQ fetched last of a real-time context, and of a best-effort one (R354) -/
  lastFetch : Nat × Nat := (16383, 16383)
  deriving DecidableEq, Repr

end Sys2Proof.Machine
end

