-- ==== Sys2Proof/Machine/StDev.lean ====
section
/-! DEFINITION. Machine/StDev.lean: the state of the always-on domain, power, clocks, boot, PCI Express, mailboxes,
hardware queues, external memory, errors and links (14 to 21). -/

namespace Sys2Proof.Machine

/-- The always-on domain (R475 to R479). -/
structure Aon where
  /-- VDD_AON is present -/
  powered : Bool := true
  /-- time counter, 48 bits -/
  ticks : Nat := 0
  /-- comparators tripped and not rearmed, bit n -/
  tripped : Nat := 0
  wakeCause : Nat := 0
  /-- the AON timer is set (R479) -/
  timerSet : Bool := false
  /-- a wake sequence is in progress (R11) -/
  waking : Bool := false
  /-- paper trips that joined the wake: start events at its end (R485 step 9), bit n -/
  wakeTrips : Nat := 0
  /-- queue doorbell writes stored in SLEEP, oldest first (R347): queue, value -/
  storedDb : List (Nat × Nat) := []
  /-- device time and ticks at entry to SLEEP or to a reset (R488) -/
  entryTime : Nat := 0
  entryTicks : Nat := 0
  deriving DecidableEq, Repr

/-- Power states, resets and throttling (20_power_clocks_reset.md). -/
structure Power where
  resetN : Bool := false
  perstN : Bool := false
  coreEn : Bool := false
  corePg : Bool := false
  /-- a thermal trip holds the device in reset; THERMTRIP_N is low (R492, R499) -/
  tripHeld : Bool := false
  /-- POWER_STATE[1:0] (R341): 0 ACTIVE, 1 IDLE, 2 SLEEP, 3 WAKING -/
  state : Nat := 3
  throttle : Nat := 0
  /-- milliseconds for which the step-up condition has held (R491) -/
  coolMs : Nat := 0
  mr4Hot : Bool := false
  /-- the power conditions of R491 held at the last sample: above 60 W over 100 µs, above 55 W for 10 ms -/
  over60 : Bool := false
  over55 : Bool := false
  bootSrc : Nat := 0
  i3cAddr : Nat := 0
  /-- RESET_CAUSE (R494) -/
  cause : Nat := 0
  afterFreeze : Bool := false
  /-- cause and freeze flag of the reset under way, written at its end (R494) -/
  nextCause : Nat := 0
  nextAfter : Bool := false
  /-- PME has been sent for what waits (R366) -/
  wakeN : Bool := false
  deriving DecidableEq, Repr

/-- Device time (R488, R489). -/
structure Clock where
  time : Nat := 0
  /-- parts per million of slew, from −500 to 500, and half rate -/
  slewPpm : Int := 0
  half : Bool := false
  /-- the part of a nanosecond not yet counted, in units of 10^-12 ns -/
  frac : Nat := 0
  ptm : Bool := false
  offset0 : Option Int := none
  /-- error still to be slewed away -/
  err : Int := 0
  /-- DEVICE_TIME_HI latch (R341) -/
  hiLatch : Nat := 0
  deriving DecidableEq, Repr

/-- One-time-programmable fields (R453). -/
structure Fuses where
  uid : Nat := 0
  rootDigest : Nat := 0
  identitySeed : Nat := 0
  rollback : Nat := 0
  ownerDigest : Nat := 0
  ownerLock : Bool := false
  debugLock : Bool := false
  cert : Bytes := []
  deriving DecidableEq, Repr

/-- An entry of the outstanding report (R389). -/
structure OutEntry where
  id : Nat
  item : Bool
  sq : Option Nat
  ctx : Nat
  deriving DecidableEq, Repr

/-- Boot, identity and trust (19_security.md). -/
structure Boot where
  /-- BOOT_STATUS.stage (R343) -/
  stage : Nat := 0
  failCode : Nat := 0
  degraded : Bool := false
  /-- the boot ROM's test of the control SRAM is over (R438; log 153) -/
  romTest : Bool := false
  /-- the verified image in the retained region (R460) -/
  image : Option Bytes := none
  /-- content of the serial flash, none when it holds no valid image (R456, R462) -/
  flash : Option Bytes := none
  /-- a flash write under way: channel, sequence number, and whether the image is then started (R462) -/
  flashBusy : Option (Nat × Nat × Bool) := none
  identityReady : Bool := false
  stagingOwner : Option Nat := none
  stagingTotal : Nat := 0
  /-- staged bytes in control SRAM (RECOVERY), or their place in LPDDR5 (READY), and what has been pushed (R461) -/
  staging : Mem := []
  stagingAt : Option Nat := none
  pushed : List (Nat × Nat) := []
  /-- enrol nonce by channel (R466, R468) -/
  nonces : Tab Bytes := []
  debugAttached : Bool := false
  /-- a mirrored pair has formed since reset (R467) -/
  paired : Bool := false
  fwVersion : Nat := 0
  protoVersion : Nat := 0
  /-- the memory configuration block (R395) -/
  memcfg : Nat := 0
  /-- carry area: entries, total, written (R495) -/
  carry : List OutEntry := []
  carryTotal : Nat := 0
  carryValid : Bool := false
  /-- no session has read the carry area's last entry during the freeze (R389) -/
  carryUnread : Bool := false
  /-- the outstanding report held, its total, and whether it is unread (R389) -/
  report : List OutEntry := []
  reportTotal : Nat := 0
  reportHeld : Bool := false
  reportUnread : Bool := false
  deriving DecidableEq, Repr

/-- What the host sets in a function's configuration space beyond the registers that this model's commands write (R336): the
values in force. Their reset values are those of the PCI Express Base Specification (log 148). -/
structure PciConfig where
  maxPayload : Nat := 128
  maxReadRequest : Nat := 512
  extendedTags : Bool := true
  tenBitTags : Bool := false
  ecrcGenerate : Bool := false
  ecrcCheck : Bool := false
  /-- ASPM: bit 0 L1, bit 1 L1.1, bit 2 L1.2 -/
  aspm : Nat := 0
  /-- AER: uncorrectable and correctable error status -/
  aerUncorrectable : Nat := 0
  aerCorrectable : Nat := 0
  deriving DecidableEq, Repr

/-- PCI Express functions and their registers (14_host_interface.md). Pairs are PF0, PF1. -/
structure Pci where
  rate : Nat := 0
  width : Nat := 0
  /-- the link is in L2 (R366) -/
  l2 : Bool := false
  cfg0 : PciConfig := {}
  cfg1 : PciConfig := {}
  bme0 : Bool := false
  bme1 : Bool := false
  d3pf0 : Bool := false
  d3pf1 : Bool := false
  pmeEn0 : Bool := false
  pmeEn1 : Bool := false
  evStatus0 : Nat := 0
  evStatus1 : Nat := 0
  evEnable0 : Nat := 0
  evEnable1 : Nat := 0
  dbError : Nat := 0
  dbErrorCount : Nat := 0
  /-- vectors unmasked and vectors pending: key function·2048 + vector (R348) -/
  unmasked : List Nat := []
  pend : List Nat := []
  /-- MSI-X table words by function·65536 + offset (R340) -/
  table : Tab Nat := []
  /-- the value that the last read command returned (the model's own field) -/
  readData : Nat := 0
  deriving DecidableEq, Repr

/-- A mailbox window (R346): bytes of MB_H2D and MB_D2H, and the bits of MB_STATUS. -/
structure Window40 where
  h2d : Mem := []
  d2h : Mem := []
  pending : Bool := false
  valid : Bool := false
  aborted : Bool := false
  /-- the path of the last doorbell (R368) -/
  via : Nat := 0
  deriving DecidableEq, Repr

/-- A session (R378, R375): negotiated minor version, next request seq, next notice seq, owning path (0 PCIe, 1 I3C). -/
structure Session where
  minor : Nat
  nextSeq : Nat
  nextNotice : Nat
  path : Nat
  deriving DecidableEq, Repr

/-- A request that a receiver has taken and not answered (R371, R383). `obj` is the object it names and waits on. -/
structure Request where
  ch : Nat
  seq : Nat
  opcode : Nat
  payload : Bytes
  /-- the context it names, if any (R507) -/
  ctx : Option Nat
  /-- it waits for the device to be allowed to read host memory (R365) -/
  hostWait : Bool := false
  deriving DecidableEq, Repr

/-- A message ready for MB_D2H (R376). Notices carry their key (R382). -/
structure OutMsg where
  opcode : Nat
  reply : Bool
  status : Nat
  seq : Nat
  payload : Bytes
  key : Nat
  /-- next fragment to post -/
  frag : Nat
  /-- device time at which it became ready -/
  ready : Nat
  deriving DecidableEq, Repr

/-- A message being gathered from fragments (R374): opcode, seq, next index, payload so far. -/
structure Gather where
  opcode : Nat
  seq : Nat
  next : Nat
  payload : Bytes
  deriving DecidableEq, Repr

/-- The mailboxes (15_mailboxes_and_mhp.md). Channels 0 to 31 are MBOX_n, 32 to 39 SMBOX_n. -/
structure Mbox where
  win : Tab Window40 := []
  session : Tab Session := []
  gather : Tab Gather := []
  /-- whole messages gathered from fragments and not yet acted on -/
  whole : Tab (Nat × Nat × Bytes) := []
  ready : Tab (List OutMsg) := []
  taken : List Request := []
  /-- firmware's copies of envelopes (R471): channel, sequence number, payload address, bytes -/
  copies : List (Nat × Nat × Nat × Nat) := []
  /-- I3C: the pointer, and bytes written to MB_DOORBELL and MB_ACK so far (R369) -/
  i3cPtr : Nat := 0
  i3cPart : Tab Nat := []
  /-- device messages discarded as ABORTED (R372) -/
  discarded : Nat := 0
  deriving DecidableEq, Repr

/-- An accepted descriptor (R354): order of fetch, its 512 bits, capture time, whether it is done, its item. -/
structure Desc where
  no : Nat
  /-- its place in the order of acceptance (R495) -/
  acc : Nat
  word : Nat
  time : Nat
  done : Bool := false
  status : Nat := 0
  detail : Nat := 0
  /-- accepted on a failed partner and run again, with its reference instant there, where it had one (R428) -/
  replayed : Bool := false
  ref : Option Nat := none
  deriving DecidableEq, Repr

/-- A finished record that waits to be written (R359, R361). -/
structure Rec where
  kind : Nat
  status : Nat
  sq : Option Nat := none
  /-- fetch number of the descriptor it answers -/
  descNo : Nat := 0
  itemId : Nat
  ctx : Nat
  body : Bytes := []
  detail : Nat := 0
  /-- device time of the deadline, for items of real-time contexts (R17) -/
  deadline : Option Nat := none
  /-- captured page: port and page sequence number, whose store returns with the record (R14) -/
  page : Option (Nat × Nat) := none
  replayed : Bool := false
  /-- a takeover rewrite: its slot, body offset and completion record (R428) -/
  slot : Option (Nat × Nat × Bytes) := none
  /-- it has had to wait for a slot, for body space or for the host (R19, R366) -/
  held : Bool := false
  /-- the partner has acknowledged it (R425) -/
  mirrored : Bool := false
  /-- as it was sent to the partner: completion record, body, body offset and bytes skipped (R425) -/
  sent : Option (Nat × Bytes × Nat × Nat) := none
  /-- its SQ has been unbound (R367): that SQ's last head -/
  sqHead : Option Nat := none
  deriving DecidableEq, Repr

/-- A bound hardware queue (R350 to R362). -/
structure HwQueue where
  isCq : Bool
  binding : Nat
  ctx : Nat
  head : Nat := 0
  tail : Nat := 0
  /-- the index last written to the doorbell (R353) -/
  db : Nat := 0
  /-- SQ: accepted descriptors without a written record, in order of fetch, and the next fetch number -/
  outst : List Desc := []
  nextNo : Nat := 0
  /-- SQ: fetches stopped by teardown (R364) -/
  stopped : Bool := false
  /-- CQ: finished records in order -/
  ready : List Rec := []
  /-- CQ: passes made by the tail (R359: phase) -/
  passes : Nat := 0
  /-- CQ: body write offset, and by unreleased slot, oldest first, the body bytes it uses, skipped bytes included -/
  bodyAt : Nat := 0
  bodyUse : List Nat := []
  /-- after a takeover: the host has not yet written this CQ's head (R427) -/
  waitHead : Bool := false
  unsignalled : Nat := 0
  /-- device time of the oldest record that no vector has signalled -/
  oldestAt : Nat := 0
  deriving DecidableEq, Repr

/-- A request that a channel controller holds while frozen (R412). -/
structure HeldReq where
  agent : Nat
  stream : Nat
  write : Bool
  partial_ : Bool
  addr : Nat
  len : Nat
  tag : Nat
  deriving DecidableEq, Repr

/-- One channel controller (16_lpddr5.md). -/
structure Chan where
  /-- check bursts cached, most recently used first (R399): payload address div 256 -/
  cache : List Nat := []
  /-- the refresh-rate field last read from MR4; 3 asks for the nominal rate (log 36) -/
  mr4 : Nat := 3
  refreshes : Nat := 0
  /-- adjustments of the write timing, and by rank the DQ oscillator count of the last one (R397) -/
  adjusts : Nat := 0
  osc : Tab Nat := []
  scrubAt : Nat := 0
  corrected : Nat := 0
  later : Nat := 0
  deriving DecidableEq, Repr

/-- One bank of the external memory (R399, R405, R406, R413). -/
structure Bank where
  /-- the row that stands open (log 48) -/
  row : Option Nat := none
  /-- activates in the current run, the run's k, and its number -/
  count : Nat := 0
  k : Nat
  run : Nat := 0
  /-- the row of the chosen activate, while its neighbour refresh is still to come -/
  due : Option Nat := none
  /-- activates in the present window of R406 -/
  window : Nat := 0
  deriving DecidableEq, Repr

/-- The snapshot of the freezing error (R411). -/
structure Snap where
  chan : Nat
  kind : Nat
  row : Nat
  rank : Nat
  bank : Nat
  col : Nat
  agent : Nat
  stream : Nat
  scrub : Bool
  rmw : Bool
  addr : Nat
  data : Nat
  check : Nat
  syndrome : Nat
  deriving DecidableEq, Repr

/-- External memory (16_lpddr5.md). -/
structure Lpddr where
  mem : Mem := []
  /-- flipped stored bits by word (payload address div 8), 80 bits (R398, R432) -/
  err : Tab Nat := []
  /-- owner of a 64 KiB unit: context + 1, or 257 for firmware (R402) -/
  owner : Tab Nat := []
  excluded : List Nat := []
  pendingExcl : List Nat := []
  hppr : Nat := 0
  /-- corrected bit cells: word and position (R409, R441) -/
  cells : List (Nat × Nat) := []
  chan : Tab Chan := []
  /-- neighbour-refresh exponent and windows with a higher target (R405, R406) -/
  k : Nat := 10
  kHigh : Nat := 0
  /-- the banks that have been activated: key (chan·2 + rank)·16 + bank -/
  banks : Tab Bank := []
  /-- rows that neighbour refresh has refreshed, newest first: bank key and row (the model's own record) -/
  refreshed : List (Nat × Nat) := []
  snap : Option Snap := none
  /-- data that the last read command delivered (the model's own field) -/
  readData : Bytes := []
  deriving DecidableEq, Repr

/-- An on-chip word: memory, unit (easel or atelier), word index. -/
structure WordAt where
  mem : SramMem
  unit : Nat
  word : Nat
  deriving DecidableEq, Repr

/-- A stored bit of an on-chip memory by its place in the macros (R437, R441): macro, row, word of the row, position. -/
structure BitCell where
  mem : SramMem
  unit : Nat
  mac : Nat
  row : Nat
  word : Nat
  pos : Nat
  deriving DecidableEq, Repr

/-- Errors, repair and degradation (18_reliability.md). -/
structure Errors where
  /-- CONTAINED error being handled: context, cause; whether firmware has taken it up (R447) -/
  active : Option (Nat × Nat) := none
  takenUp : Bool := false
  queue : List (Nat × Nat) := []
  frozen : Bool := false
  freezeCause : Nat := 0
  correctedSeen : Bool := false
  correctedCount : Nat := 0
  /-- flipped stored bits of on-chip words, 79 bits (R432, R433) -/
  sram : List (WordAt × Nat) := []
  /-- corrected words waiting for write-back (R435) -/
  writeBack : List WordAt := []
  /-- next word of each scrubber: memory and unit (R436) -/
  scrubPos : List (WordAt) := []
  /-- corrected bit cells since reset (R441) -/
  cells : List BitCell := []
  /-- pending retirements: memory, unit, physical macro index (R441) -/
  pendingRetire : List (SramMem × Nat × Nat) := []
  /-- spares assigned at self-test: memory, unit, macro index, rows replaced, column group replaced (R437, R439) -/
  spares : List (SramMem × Nat × Nat × List Nat × Option Nat) := []
  deriving DecidableEq, Repr

/-- What the block has emitted: messages, pins and flits (the model's own record; newest first). -/
inductive Out where
  | msix (fn vec : Nat)
  | ibi (ch : Nat)
  | pme (fn : Nat)
  | wakeN
  | feedHold (port : Nat) (level : Bool)
  | coreEn (level : Bool)
  | thermtrip (low : Bool)
  | ringBlock (link chan : Nat) (data : Bytes)
  | credit (link chan : Nat)
  | discovery (f : DiscFlit)
  | confirm (f : ConfirmFlit)
  | token (f : TokenFlit)
  | abort (link job : Nat)
  /-- step 3 of link training: own DEVICE_UID, identity digest and owner key digest (R415) -/
  | identity (link uid : Nat) (digest owner : Bytes)
  | heartbeat (frozen : Bool)
  | challenge (m : ChallengeMsg)
  | mirror (m : MirrorMsg)
  | mirrorAck (n : Nat)
  | idcode (v : Nat)
  /-- what a read through the debug port delivers (R472) -/
  | debug (b : Bytes)
  deriving DecidableEq, Repr

/-- A stretcher link (17_stretcher_links.md): 0 EAST, 1 WEST. -/
structure Link where
  up : Bool := false
  version : Nat := 0
  peerUid : Nat := 0
  peerIdentity : Bytes := []
  peerOwner : Bytes := []
  retraining : Bool := false
  /-- send credits taken by ring channel (R418), out of 2 -/
  used : Tab Nat := []
  /-- next receive buffer by channel, and buffers full -/
  nextBuf : Tab Nat := []
  full : List (Nat × Nat) := []
  /-- channel assigned to ring job of context -/
  chans : Tab Nat := []
  /-- while it retrains: what has come over it and what is to leave over it, oldest first (R419) -/
  came : List Instr := []
  leaves : List Out := []
  deriving DecidableEq, Repr

/-- A ring block in a receive buffer (R202): its number among the job's blocks from the west, the FORWARDs that have still
to read it, the copies on east that it still waits for, whether its decoder step has yet to begin here, and whether any
copy out of the buffer is the one that it waits for, because the job's order of blocks has no place for it. -/
structure HeldBlock where
  no : Nat
  reads : Nat
  sends : Nat
  early : Bool := false
  any : Bool := false
  deriving DecidableEq, Repr

/-- A ring job of a context (R200, R420, R421). -/
structure RingJob where
  ctx : Nat
  job : Nat
  n : Nat
  index : Nat
  chanEast : Nat
  chanWest : Nat
  shardDigest : Bytes
  maxBlock : Nat
  confirmed : Bool
  /-- setup time, for the confirmation timeout -/
  since : Nat
  /-- the shard table: by sequence, first global page and page count of each device's shard (R200, R383) -/
  shards : List (List (Nat × Nat)) := []
  /-- blocks received from the west since job setup, and decoder steps begun here (R201) -/
  place : Nat := 0
  steps : Nat := 0
  /-- the blocks that the receive buffers hold: key link·2 + buffer (R202) -/
  bufs : Tab HeldBlock := []
  /-- blocks that came before the context has had a canvas to land them in: link·2 + buffer, bytes -/
  landing : Tab Bytes := []
  /-- entry index in the image's RING part -/
  entry : Nat
  /-- ring barrier: local members have all arrived; a token is held; the completion token has come -/
  localDone : Bool
  token : Bool
  passed : Bool := false
  /-- its context is torn down: arriving blocks are discarded and their credits returned (R204) -/
  dead : Bool
  deriving DecidableEq, Repr

/-- Rings. -/
structure Rings where
  east : Link := {}
  west : Link := {}
  /-- closed ring's size, 0 when not closed (R420) -/
  size : Nat := 0
  jobs : List RingJob := []
  /-- confirmation flits that wait for the job to be set up here (R420) -/
  waiting : List ConfirmFlit := []
  deriving DecidableEq, Repr

/-- What waits for the acknowledgement of a mirror message (R425). -/
inductive MirrorWait where
  | none
  /-- a reply: channel, seq, opcode, status, payload -/
  | reply (ch seq opcode status : Nat) (payload : Bytes)
  /-- the acceptance of the descriptor at the head of a submission queue: its 512 bits, its capture time as fetched
  (R15), and its view entries -/
  | accept (q word time : Nat) (views : List Nat)
  /-- the write of the oldest record of a completion queue -/
  | record (q : Nat)
  /-- the count of a port's page-store chunks as occupied -/
  | chunks (p : Nat) (l : List Nat)
  deriving DecidableEq, Repr

/-- The mirrored pair (R423 to R429). role: 0 none, 1 active, 2 standby. -/
structure Pair where
  role : Nat := 0
  link : Nat := 0
  formed : Bool := false
  /-- enrolled identity digest of the partner (R424) -/
  enrolled : Option Bytes := none
  /-- a request waits: channel, seq, role, link, time -/
  wanted : Option (Nat × Nat × Nat × Nat × Nat) := none
  /-- identity challenge (R424): own nonce sent, the peer's nonce and role with its link, the peer's answer verified -/
  nonce : Option Bytes := none
  peer : Option (Nat × Bytes × Bool) := none
  verified : Bool := false
  /-- nonces that wait for the identity key (R463): link, nonce -/
  toSign : List (Nat × Bytes) := []
  lost : Bool := false
  lastBeat : Nat := 0
  /-- mirrored messages that the standby holds, in order, and the pieces that have come of the next one -/
  held : List MirrorMsg := []
  pieces : List Bytes := []
  /-- what waits for each mirror message sent and not acknowledged, oldest first -/
  sent : List MirrorWait := []
  /-- messages that wait for a credit of channel 1 (R416), oldest first, each with what waits for it -/
  unsent : List (MirrorMsg × MirrorWait) := []
  deriving DecidableEq, Repr

end Sys2Proof.Machine
end

