-- ==== Sys2Proof/Machine/StIntake.lean ====
section
/-! DEFINITION. Machine/StIntake.lean: the state of line-sensor capture, streams and primer, KV cache, text engine and
stencil engine (08_kv_cache.md to 12_streams_and_primer.md). -/

namespace Sys2Proof.Machine

/-- State of a line-scan port (R249). -/
inductive PortState where
  | off | armed | capturing | calibrating
  deriving DecidableEq, Repr

/-- An accepted port configuration: record header (1,024 bits), 32 sample map entries, 12 timing outputs (512 bits
each) (R252, R254, R256). -/
structure PortCfg where
  hdr : Nat
  map : List Nat
  prog : List Nat
  deriving DecidableEq, Repr

/-- A line as received: its number, line start, end of its last frame, samples by colour·2^14 + pixel (R251, R252). -/
structure RawLine where
  no : Nat
  start : Nat
  fin : Nat
  samples : Tab Nat
  err : Bool
  deriving DecidableEq, Repr

/-- A corrected line that no page stores yet (R263, R265): its paper runs and stored form. -/
structure Line where
  no : Nat
  start : Nat
  fin : Nat
  runs : List (Nat × Nat)
  data : Bytes
  lost : Bool
  tokens : Nat
  err : Bool
  deriving DecidableEq, Repr

/-- A captured page (R265 to R270). Line numbers count the port's lines. -/
structure Page where
  seq : Nat
  /-- its place in the order of acceptance (R495) -/
  acc : Nat := 0
  first : Nat
  lead : Nat
  stored : Nat := 0
  dropped : Nat := 0
  /-- reason for which the page drops its lines: 0 none, 1 store full, 2 no token (R274) -/
  dropping : Nat := 0
  /-- number of its last stored line -/
  lastNo : Nat := 0
  chunks : List Nat := []
  left : Option Nat := none
  right : Nat := 0
  /-- paper runs of the stored lines, by stored index -/
  rows : List (List (Nat × Nat)) := []
  /-- trailing edge confirmed: trail_line and last line E -/
  trail : Option (Nat × Nat) := none
  /-- the line on which the page reached its cap before E (R266, R277) -/
  capLine : Option Nat := none
  capped : Bool := false
  err : Bool := false
  sheet : Nat := 0xFFFFFFFF
  unpaired : Bool := false
  start0 : Nat := 0
  /-- arrival of the last line taken, and of the last stored line (R21) -/
  fin : Nat := 0
  finStored : Nat := 0
  /-- last line number of the page, once it has ended -/
  ended : Option Nat := none
  /-- the configuration record under which its lines are captured (R277) -/
  cfg : Option PortCfg := none
  geometry : Option Nat := none
  /-- the context that owned the port when the page opened, and its completion queue -/
  ctx : Nat := 0
  cq : Nat := 0
  deriving DecidableEq, Repr

/-- A calibration capture (R262): kind 0 DARK, 1 WHITE, lines, target, lines taken, sums, request. -/
structure Calib where
  kind : Nat
  lines : Nat
  target : Nat
  taken : Nat
  sums : Tab Nat
  ch : Nat
  seq : Nat
  deriving DecidableEq, Repr

/-- An edge that the search of a CAPTURING port has found and no page has taken up yet: leading edge L, or trailing edge T
(R265). -/
inductive Edge where
  | lead (l sheet : Nat) (unpaired : Bool)
  | trail (t : Nat)
  deriving DecidableEq, Repr

/-- A leading edge. -/
def Edge.isLead : Edge → Bool
  | .lead .. => true
  | .trail _ => false

/-- A line waiting for its write to the page store: page, stored index, bytes, tokens. -/
structure StoreLine where
  page : Nat
  row : Nat
  data : Bytes
  tokens : Nat
  deriving DecidableEq, Repr

/-- A line-scan port (11_line_scan_intake.md). -/
structure Port where
  st : PortState := .off
  ctx : Option Nat := none
  cq : Nat := 0
  cfg : Option PortCfg := none
  /-- a configuration that waits for the open page to end, with the chunks that its page store will add (R255, R277) -/
  newCfg : Option (PortCfg × List Nat) := none
  locked : Bool := false
  /-- frames in a row with the FCO pattern, while the port is not locked, up to 16 (R250) -/
  fcoRun : Nat := 0
  /-- encoder inputs ENC_A and ENC_B (R248) -/
  encA : Bool := false
  encB : Bool := false
  /-- timing outputs TG_0 to TG_11 as they were last set; none is high-impedance (R248, R249, R257) -/
  tg : List (Option Bool) := List.replicate 12 none
  running : Bool := false
  /-- device time at the start of the last line program -/
  lineStart : Nat := 0
  held : Bool := false
  /-- lines started since the record was applied -/
  lineNo : Nat := 0
  cur : Option RawLine := none
  frame : Nat := 0
  done : List RawLine := []
  p : Int := 0
  q : Int := 0
  dark : Tab Nat := []
  gain : Tab Nat := []
  /-- in SLEEP: LPDDR5 address of firmware's copy of both tables (R483) -/
  tables : Option Nat := none
  /-- corrected colour planes of the last lines, newest first (R263) -/
  hist : List (List (List Nat)) := []
  calib : Option Calib := none
  buf : List Line := []
  paperRun : Nat := 0
  plainRun : Nat := 0
  /-- consecutive non-paper lines with no page open (R267) -/
  idle : Nat := 0
  /-- number of the last line processed -/
  lastNo : Nat := 0
  /-- line numbers: first line of the capture, first after the previous page -/
  capFirst : Nat := 0
  afterPage : Nat := 0
  /-- the edge search: it looks for a trailing edge; edges found, oldest first (R265) -/
  seekTrail : Bool := false
  edges : List Edge := []
  page : Option Page := none
  capping : Bool := false
  pages : List Page := []
  store : List StoreLine := []
  free : List Nat := []
  chunks : List Nat := []
  /-- chunks that a page holds and that do not count as occupied until the partner acknowledges a line (R425) -/
  unacked : List Nat := []
  tokens : Nat := 0
  quota : Nat := 0
  occHigh : Bool := false
  /-- FEED_HOLD: none is high-impedance (R273) -/
  feedHold : Option Bool := none
  stopReq : Option (Nat × Nat) := none
  counters : Tab Nat := []
  pageSeq : Nat := 0
  /-- lines with a reverse count, and with a dropped trigger (R259, R260) -/
  revLines : List Nat := []
  overLines : List Nat := []
  /-- primary port: page confirmed most recently, and whether a secondary page has taken it (R270) -/
  sheet : Option (Nat × Bool) := none
  deriving DecidableEq, Repr

/-- A view of a sample (R356). -/
structure View where
  entry : Nat
  /-- the record of the stream that a video segment was submitted to (R279) -/
  binding : Nat := 0
  /-- the copy of its data in the context's LPDDR5, once read (R21): address and length -/
  copy : Option (Nat × Nat) := none
  read : Bool := false
  /-- TIFF: its Compression, which names the unit that decodes its strips (R278, R282) -/
  strips : Nat := 0
  /-- declared dimensions of its pictures, once known: width, height, colours -/
  dims : Option (List (Nat × Nat × Nat)) := none
  /-- 0 decoded, or the status CORRUPT, SLOW or TRUNCATED (R283) -/
  outcome : Option Nat := none
  /-- its pictures; their samples lie in the context's LPDDR5 (R278), in order: address and length -/
  pics : List Picture := []
  buf : Option (Nat × Nat) := none
  deriving DecidableEq, Repr

/-- What an item is. -/
inductive ItemKind where
  | page (port seq : Nat)
  | sample (sq desc : Nat)
  | live (stream : Nat)
  /-- a page taken over from a failed partner: its geometry block, and whether it lost lines (R428) -/
  | mirrored (port seq geo : Nat) (lost : Bool)
  deriving DecidableEq, Repr

/-- An item or live frame in flight (12_streams_and_primer.md). -/
structure Item where
  kind : ItemKind
  ctx : Nat
  cq : Nat
  itemId : Nat
  views : List View := []
  level : Nat := 0
  train : Bool := false
  /-- target text of an adaptation sample -/
  target : Bytes := []
  capture : Nat := 0
  ref : Option Nat := none
  tiles : Option Nat := none
  bucket : Option Nat := none
  slotted : Bool := false
  /-- device time at which its decode budget started (R286) -/
  budget : Option Nat := none
  /-- decode_budget_us of its bucket, known with the bucket (R293) -/
  limitUs : Nat := 0
  /-- max_age_us of a live frame's stream (R288) -/
  maxAge : Nat := 0
  /-- failure item status (R283), 0 none -/
  failed : Nat := 0
  /-- stage 4 is done: its tiles, in the context's LPDDR5, and its tile table (R292) -/
  filled : Bool := false
  tilesAt : Option (Nat × Nat) := none
  tileTable : List (Nat × Nat × Nat) := []
  dispatched : Bool := false
  /-- run again after a takeover (R428) -/
  replayed : Bool := false
  deriving DecidableEq, Repr

/-- A batch of a bucket (R294). A slot is none while open. -/
structure Batch where
  slots : List (Option Nat)
  since : Nat := 0
  closed : Bool := false
  full : Bool := false
  deriving DecidableEq, Repr

/-- The batch that a bucket forms or holds for dispatch, and its items queued without a slot (R294). -/
structure Bucket where
  batch : Option Batch := none
  queued : List Nat := []
  deriving DecidableEq, Repr

/-- An access unit handed to the decoder (R287): queue, fetch number, capture time, data, and its place among the items and
access units in fetch order (R278). -/
structure AccessUnit where
  sq : Nat
  desc : Nat
  capture : Nat
  data : Bytes
  order : Nat
  deriving DecidableEq, Repr

/-- What a unit of the decode array works on (R278): a view of an item, or the access unit of a stream that has a place in
fetch order. -/
inductive DecodeJob where
  | view (item i : Nat)
  | access (stream order : Nat)
  deriving DecidableEq, Repr

/-- A stream context (R279, R287, R288). -/
structure Stream where
  record : Nat
  ctx : Nat
  cq : Nat
  /-- its picture memory in LPDDR5: address and bytes (R279) -/
  lp : Nat × Nat := (0, 0)
  /-- a dropped picture's references are still outstanding (R287) -/
  broken : Bool := false
  waiting : List Nat := []
  /-- reads emitted since binding: the next read sequence number (R360) -/
  reads : Nat := 0
  /-- access units handed to the decoder, oldest first -/
  units : List AccessUnit := []
  deriving DecidableEq, Repr

/-- A source's split level (R297). -/
structure Source where
  ctx : Nat
  level : Nat
  /-- the level that held before, and the time from which the new one holds -/
  before : Option (Nat × Nat) := none
  /-- latencies of the items dispatched in this window -/
  lat : List Nat := []
  deriving DecidableEq, Repr

/-- Streams and primer. Sources: stream n is n, submission queue q is 64 + q. Buckets: context·8 + bucket. -/
structure Intake where
  streams : Tab Stream := []
  items : Tab Item := []
  nextItem : Nat := 0
  buckets : Tab Bucket := []
  sources : Tab Source := []
  /-- primer occupancy of the last windows, newest first -/
  occupancy : List Nat := []
  /-- what each unit of the decode array has begun (R278): 0 video, 1 JPEG, 2 bilevel, 3 PNG, 4 TIFF parser -/
  decoding : Tab DecodeJob := []
  deriving DecidableEq, Repr

/-- A loaded vocabulary (R207): image, users, hash-region slot base, pool base in 64 KiB units. -/
structure Vocab where
  digest : Bytes
  image : Bytes
  users : List Nat
  slotBase : Nat
  poolBase : Nat
  deriving DecidableEq, Repr

/-- A queued text job (R219): submission queue, fetch number, and its place in the order of submission. -/
structure TextJob where
  sq : Nat
  desc : Nat
  no : Nat
  deriving DecidableEq, Repr

/-- A text stream (R212 to R218). -/
structure TextStream where
  ctx : Nat
  jobs : List TextJob := []
  /-- bytes of an unfinished character -/
  raw : Bytes := []
  /-- by normalisation table: characters held since the last starter, and the run of characters with ccc above 0 -/
  held : List (List Nat × Nat) := []
  /-- the pre-splitter's last character -/
  last : Option Nat := none
  /-- undecided bytes of the open piece -/
  piece : Bytes := []
  offset : Nat := 0
  /-- close request that waits for the jobs -/
  closing : Option (Nat × Nat) := none
  deriving DecidableEq, Repr

/-- The text engine's memory and streams. -/
structure TextSt where
  vocabs : List Vocab := []
  streams : Tab TextStream := []
  /-- the job that the engine runs (R219): stream, and the job's number -/
  serving : Option (Nat × Nat) := none
  /-- number of the next job submitted -/
  nextJob : Nat := 0
  deriving DecidableEq, Repr

/-- A loaded grammar or lexicon image (R229, R233, R235): its address in firmware's LPDDR5 and its users. -/
structure Grammar where
  digest : Bytes
  image : Bytes
  addr : Nat
  users : List Nat
  /-- a lexicon that some context has bound: it is freed when its last binding ends (R233, R235) -/
  wasBound : Bool := false
  deriving DecidableEq, Repr

/-- The stencil engine: images, lexicon bindings by context·16 + slot, changes that wait for the context's next field
start (R247), and step numbers by context. -/
structure StenSt where
  grammars : List Grammar := []
  lexicons : List Grammar := []
  slots : Tab Bytes := []
  waiting : List (Nat × Nat × Option Bytes) := []
  /-- 64-byte lines of lexicon images held in the line cache, most recent first: digest and line -/
  lines : List (Bytes × Nat) := []
  deriving DecidableEq, Repr

/-- A finished field (R223, R239). -/
structure FieldOut where
  text : Bytes
  endedBy : Nat
  dead : Bool
  payload : Nat
  accept : Bool
  tokens : Nat
  overflow : Bool
  deriving DecidableEq, Repr

/-- Kind of the published mask record (R241). -/
inductive MaskKind where
  | none | classes | lexicon | dead | stopped
  deriving DecidableEq, Repr

/-- A decoder sequence: length-table entry, detokenizer, stencil and fallback state (R167, R221, R236, R24). -/
structure Seq where
  item : Option Nat := none
  firstPage : Nat := 0
  tokens : Nat := 0
  queries : Nat := 0
  pos0 : Nat := 0
  /-- the step's query rows on all devices of a ring job, and the first of this device's blocks of 128 among them (R200) -/
  allRows : Nat := 0
  block0 : Nat := 0
  maskMode : Nat := 0
  maskIndex : Nat := 0
  /-- tokens by position, for the prefix tree -/
  ids : List Nat := []
  /-- tokens that the prompt has -/
  prompt : Nat := 0
  generated : Nat := 0
  field : Nat := 0
  fieldPos : Nat := 0
  pending : Bytes := []
  held : Bytes := []
  text : Bytes := []
  overflow : Bool := false
  fieldTokens : Nat := 0
  fields : List FieldOut := []
  /-- the field has ended, the code waits for the field-end verdict (R239) -/
  ending : Option Nat := none
  /-- payload and accept bit for the field that ends -/
  s : Nat := 0
  lex : Bool := false
  v : Nat := 0
  /-- digest of the lexicon that the walk uses (R247) -/
  lexDig : Bytes := []
  payload : Option Nat := none
  retried : Bool := false
  /-- tokens since the retry began, of the most it may generate (R24) -/
  retryUsed : Option (Nat × Nat) := none
  mask : MaskKind := .none
  dead : Bool := false
  finished : Bool := false
  deriving DecidableEq, Repr

/-- A page-tree node (R191): parent (none: root), hash, tokens, slot, when last matched. -/
structure Node where
  parent : Option Nat
  hash : Nat
  ids : List Nat
  slot : Nat
  used : Nat
  deriving DecidableEq, Repr

/-- A plane pair copied into the canvas pool (R196 to R198): home is slot (native) or lpn (legacy), site, head. -/
structure Pair2 where
  atelier : Nat
  site : Nat
  page : Nat
  head : Nat
  place : Nat
  dirty : Bool
  deriving DecidableEq, Repr

/-- A KV TLB invalidation that waits for the next decoder step: scope 0 context, 1 site, 2 range; site, first, count,
request (R188). -/
structure Inval where
  scope : Nat
  site : Nat
  first : Nat
  count : Nat
  ch : Nat
  seq : Nat
  deriving DecidableEq, Repr

/-- The reading state of a context: KV cache, sequences and step (08, 09, 10). -/
structure Reading where
  /-- page list entries: slot + 1 -/
  pages : Tab Nat := []
  refs : Tab Nat := []
  tree : Tab Node := []
  pairs : List Pair2 := []
  /-- legacy: root table address by site. native: frame pool base by site -/
  sites : Tab Nat := []
  invals : List Inval := []
  seqs : List Seq := []
  items : List Nat := []
  step : Nat := 0
  /-- the decoder step whose work runs -/
  stepping : Bool := false
  /-- instant of the commit whose mask records are still to be written (R243) -/
  maskDue : Option Nat := none
  /-- queues started for the event under way that have not run END: easel·16 + queue (R311) -/
  started : List Nat := []
  cows : Nat := 0
  /-- key counts of this step at sites whose keys are in no KV pages, by the offset of the length table (R167; log 37) -/
  siteTokens : Tab Nat := []
  /-- blocks of this step that the page walk has done, by place of the head group in the variant (R183, R197) -/
  walked : Tab Nat := []
  /-- by place of the head group: commands of this step whose received block's bitmap has been moved (R168, R201) -/
  masked : Tab (List Nat) := []
  /-- tiles of the batch's slots as dispatch handed them over (R294, R295) -/
  tiles : List (List Bytes) := []
  deriving DecidableEq, Repr

/-- An entry of an atelier's TLB (R187). -/
structure TlbEntry where
  ctx : Nat
  site : Nat
  lpn : Nat
  frame : Nat
  writable : Bool
  deriving DecidableEq, Repr

/-- Reading state by context, and the eight TLBs by atelier, most recently used first. -/
structure ReadSt where
  ctx : Tab Reading := []
  tlb : Tab (List TlbEntry) := []
  clock : Nat := 0
  deriving DecidableEq, Repr

end Sys2Proof.Machine
end

