-- ==== Sys2Proof/Machine/State.lean ====
section
/-! DEFINITION. Machine/State.lean: the whole state of the block, its value after power-on reset, and the reasons a
command can stop. -/

namespace Sys2Proof.Machine

/-- The block's own faults: none. Every error of the spec is state (18_reliability.md): counters, a context's teardown,
a device freeze. -/
inductive Fault where
  deriving DecidableEq, Repr

/-- Reasons to refuse a command. -/
inductive Refusal where
  /-- Raised by an arm of exec whose command has no meaning yet; safe. -/
  | notModelled (mnemonic : String)
  deriving DecidableEq, Repr

/-- The state of the block. -/
structure State where
  /-- commands that wait, first in, first out -/
  pending : List Instr := []
  /-- the always-on domain (R475 to R479) -/
  aon : Aon := {}
  /-- power states, resets, throttling (R480 to R496) -/
  pwr : Power := {}
  /-- device time (R488, R489) -/
  clk : Clock := {}
  /-- one-time-programmable fields (R453) -/
  fuse : Fuses := {}
  /-- boot, identity and trust (R343, R452 to R472) -/
  boot : Boot := {}
  /-- PCI Express functions and registers (R336 to R366) -/
  pci : Pci := {}
  /-- mailboxes (R368 to R390) -/
  mbox : Mbox := {}
  /-- bound hardware queues by number (R350) -/
  hq : Tab HwQueue := []
  /-- host memory by PCIe address -/
  hostMem : Mem := []
  /-- contexts by handle (R302) -/
  ctxs : Tab Ctx := []
  /-- scheduling state of firmware (R313 to R331) -/
  sched : Sched := {}
  /-- palettes, canvases, accumulators, queues, tallies, barriers, DMA (02, 03) -/
  fab : Fabric := {}
  /-- external memory (16) -/
  lp : Lpddr := {}
  /-- errors, repair and degradation (18) -/
  err : Errors := {}
  /-- line-scan ports by number (R248) -/
  ports : Tab Port := []
  /-- streams, items, batches (12) -/
  intake : Intake := {}
  /-- text engine (09) -/
  text : TextSt := {}
  /-- stencil engine (10) -/
  sten : StenSt := {}
  /-- sequences and KV cache (08) -/
  read : ReadSt := {}
  /-- stretcher links and ring jobs (R415 to R422) -/
  ring : Rings := {}
  /-- mirrored pair (R423 to R429) -/
  pair : Pair := {}
  /-- number of free values taken so far: the model's own field (log 5) -/
  free : Nat := 0
  /-- what the block has emitted, newest first: the model's own record (log 7) -/
  out : List Out := []
  deriving DecidableEq, Repr

/-- The machine right after a power-on reset (R493, R494): everything cleared except fuses. -/
def State.reset : State := {}

/-- Replace the field `pending`. -/
def State.setPending (s : State) (v : List Instr) : State := { s with pending := v }
/-- Replace the field `aon`. -/
def State.setAon (s : State) (v : Aon) : State := { s with aon := v }
/-- Replace the field `pwr`. -/
def State.setPwr (s : State) (v : Power) : State := { s with pwr := v }
/-- Replace the field `clk`. -/
def State.setClk (s : State) (v : Clock) : State := { s with clk := v }
/-- Replace the field `fuse`. -/
def State.setFuse (s : State) (v : Fuses) : State := { s with fuse := v }
/-- Replace the field `boot`. -/
def State.setBoot (s : State) (v : Boot) : State := { s with boot := v }
/-- Replace the field `pci`. -/
def State.setPci (s : State) (v : Pci) : State := { s with pci := v }
/-- Replace the field `mbox`. -/
def State.setMbox (s : State) (v : Mbox) : State := { s with mbox := v }
/-- Replace the field `hq`. -/
def State.setHq (s : State) (v : Tab HwQueue) : State := { s with hq := v }
/-- Replace the field `hostMem`. -/
def State.setHostMem (s : State) (v : Mem) : State := { s with hostMem := v }
/-- Replace the field `ctxs`. -/
def State.setCtxs (s : State) (v : Tab Ctx) : State := { s with ctxs := v }
/-- Replace the field `sched`. -/
def State.setSched (s : State) (v : Sched) : State := { s with sched := v }
/-- Replace the field `fab`. -/
def State.setFab (s : State) (v : Fabric) : State := { s with fab := v }
/-- Replace the field `lp`. -/
def State.setLp (s : State) (v : Lpddr) : State := { s with lp := v }
/-- Replace the field `err`. -/
def State.setErr (s : State) (v : Errors) : State := { s with err := v }
/-- Replace the field `ports`. -/
def State.setPorts (s : State) (v : Tab Port) : State := { s with ports := v }
/-- Replace the field `intake`. -/
def State.setIntake (s : State) (v : Intake) : State := { s with intake := v }
/-- Replace the field `text`. -/
def State.setText (s : State) (v : TextSt) : State := { s with text := v }
/-- Replace the field `sten`. -/
def State.setSten (s : State) (v : StenSt) : State := { s with sten := v }
/-- Replace the field `read`. -/
def State.setRead (s : State) (v : ReadSt) : State := { s with read := v }
/-- Replace the field `ring`. -/
def State.setRing (s : State) (v : Rings) : State := { s with ring := v }
/-- Replace the field `pair`. -/
def State.setPair (s : State) (v : Pair) : State := { s with pair := v }
/-- Replace the field `free`. -/
def State.setFree (s : State) (v : Nat) : State := { s with free := v }
/-- Replace the field `out`. -/
def State.setOut (s : State) (v : List Out) : State := { s with out := v }

end Sys2Proof.Machine
end

