-- ==== Sys2Proof/Machine/Flags.lean ====
section
/-! DEFINITION. Machine/Flags.lean: status and event flags, MSI-X vectors, and the conditions under which the device's
parts work (14_host_interface.md, 20_power_clocks_reset.md). -/

namespace Sys2Proof.Machine

/-- The core is powered and out of reset. -/
def State.alive (s : State) : Bool :=
  s.aon.powered && s.pwr.coreEn && s.pwr.corePg && !s.pwr.tripHeld

/-- Firmware serves (R343: stage READY, 5). -/
def State.ready (s : State) : Bool := s.alive && s.boot.stage == 5

/-- Firmware serves, the device is not frozen (R448), and it is ACTIVE or IDLE (R480). -/
def State.works (s : State) : Bool := s.ready && !s.err.frozen && (s.pwr.state == 0 || s.pwr.state == 1)

/-- The device is in SLEEP (R480). -/
def State.asleep (s : State) : Bool := s.aon.powered && s.pwr.state == 2

/-- Record something that leaves the block. -/
def State.emit (s : State) (o : Out) : State := s.setOut (o :: s.out)

/-- A stretcher link: 0 EAST, 1 WEST. -/
def State.link (s : State) (l : Nat) : Link := if l = 0 then s.ring.east else s.ring.west

/-- Replace a stretcher link. -/
def State.setLink (s : State) (l : Nat) (x : Link) : State :=
  s.setRing (if l = 0 then { s.ring with east := x } else { s.ring with west := x })

/-- Send over a link: one that is down carries nothing (R415), and one that retrains holds what is to leave (R419). -/
def State.sendOn (s : State) (l : Nat) (o : Out) : State :=
  let k := s.link l
  if !k.up then s
  else if k.retraining then s.setLink l { k with leaves := k.leaves ++ [o] }
  else s.emit o

/-- A fresh free bit (log 5). -/
def State.freeBit (s : State) : Bool × State := (Config.freeBit s.free, s.setFree (s.free + 1))

/-- A fresh free number (log 5). -/
def State.freeNat (s : State) : Nat × State := (Config.freeNat s.free, s.setFree (s.free + 1))

/-- A function may issue requests: Bus Master Enable is set and the function is in D0 (R365, R366). -/
def State.busMaster (s : State) (fn : Nat) : Bool :=
  if fn = 0 then s.pci.bme0 && !s.pci.d3pf0 else s.pci.bme1 && !s.pci.d3pf1

/-- A vector becomes due: it is sent, or its pending bit is set while it is masked or requests are held (R348, R365). -/
def State.raiseVec (s : State) (fn vec : Nat) : State :=
  let k := fn * 2048 + vec
  if s.busMaster fn && s.pci.unmasked.contains k then s.emit (.msix fn vec)
  else if s.pci.pend.contains k then s
  else s.setPci { s.pci with pend := k :: s.pci.pend }

/-- A bit of EVENT_STATUS of one function rises; vector 0 is sent when its enable bit is set (R344). -/
def State.eventBit (s : State) (fn b : Nat) : State :=
  let st := if fn = 0 then s.pci.evStatus0 else s.pci.evStatus1
  let en := if fn = 0 then s.pci.evEnable0 else s.pci.evEnable1
  if bit st b then s
  else
    let p := if fn = 0 then { s.pci with evStatus0 := st + 2 ^ b } else { s.pci with evStatus1 := st + 2 ^ b }
    let s := s.setPci p
    if bit en b then s.raiseVec fn 0 else s

/-- A bit of EVENT_STATUS rises on both functions (R342: set in the same way). -/
def State.event (s : State) (b : Nat) : State := (s.eventBit 0 b).eventBit 1 b

/-- ERR_SUMMARY (R345). -/
def errSummary (e : Errors) : Nat :=
  (if e.correctedSeen then 1 else 0) + (if e.active.isSome then 2 else 0) + place e.queue.length 6 2 +
  (if e.frozen then 2 ^ 8 else 0) + place e.freezeCause 15 12

/-- Replace the error state, and raise EVENT_STATUS.error where ERR_SUMMARY changes other than in corrected_seen
(R344). -/
def State.putErr (s : State) (e : Errors) : State :=
  let s1 := s.setErr e
  if errSummary s.err / 2 = errSummary e / 2 then s1 else s1.event 0

/-- BOOT_STATUS (R343). -/
def bootStatus (s : State) : Nat :=
  place s.boot.stage 3 0 + place s.boot.failCode 15 8 + (if s.boot.degraded then 2 ^ 16 else 0) +
  (if s.fuse.debugLock then 0 else 2 ^ 17)

/-- POWER_STATE (R341). -/
def powerState (p : Power) : Nat := place p.state 1 0 + (if p.throttle = 0 then 0 else 4)

/-- MR4 asks for a refresh rate above twice the nominal rate (R404; the codes are presumed, log 36). -/
def mr4Over (f : Nat) : Bool := 5 ≤ f % 8

/-- MR4 reports a temperature beyond the memory's operating range (R404; log 36). -/
def mr4Beyond (f : Nat) : Bool := f % 8 == 7 || f % 8 == 0

/-- LINK_STATUS (R341). -/
def linkStatus (p : Pci) : Nat := place p.rate 3 0 + place p.width 9 4

/-- Work, a doorbell, a comparator trip or a link event returns the device from IDLE to ACTIVE (R481). -/
def State.leaveIdle (s : State) : State :=
  if s.pwr.state = 1 then s.setPwr { s.pwr with state := 0 } else s

/-- Send PME for what waits for the host in D3hot (R366). -/
def State.pme (s : State) : State :=
  if s.pci.d3pf0 && s.pci.pmeEn0 && !s.pwr.wakeN then
    let s := s.setPwr { s.pwr with wakeN := true }
    if s.pci.l2 || s.pci.width = 0 then s.emit .wakeN else s.emit (.pme 0)
  else s

/-- A wake source in SLEEP or during a wake sequence: its bit of WAKE_CAUSE is set, and the first one starts the wake
sequence (R11, R478). -/
def State.wake (s : State) (b : Nat) : State :=
  let a := { s.aon with wakeCause := if bit s.aon.wakeCause b then s.aon.wakeCause else s.aon.wakeCause + 2 ^ b }
  if s.asleep && !a.waking then
    (((s.setAon { a with waking := true }).setPwr { s.pwr with state := 3, coreEn := true }).emit (.coreEn true)).pme
  else if !s.pwr.perstN && s.pci.pmeEn0 && !s.pwr.wakeN then
    ((s.setAon a).setPwr { s.pwr with wakeN := true }).emit .wakeN
  else (s.setAon a).pme

end Sys2Proof.Machine
end

