-- ==== Sys2Proof/Machine/Ops.lean ====
section
/-! DEFINITION. Machine/Ops.lean: the operations that many commands share: contexts and their counters, replies and
notices, records, error handling, and reads and writes of LPDDR5 and host memory with their error rules. -/

namespace Sys2Proof.Machine

/-- An empty next state of a command. -/
abbrev Result := Host.Outcome State Fault Refusal

/-- Status codes (R390). -/
abbrev stOK : Nat := 0
/-- ABORTED -/
abbrev stAborted : Nat := 1
/-- FORMAT -/
abbrev stFormat : Nat := 2
/-- NO_RESOURCE -/
abbrev stNoResource : Nat := 3
/-- DEADLINE -/
abbrev stDeadline : Nat := 4
/-- NO_ADMISSIBLE_TOKEN -/
abbrev stNoToken : Nat := 6
/-- CORRUPT -/
abbrev stCorrupt : Nat := 7
/-- SLOW -/
abbrev stSlow : Nat := 8
/-- TRUNCATED -/
abbrev stTruncated : Nat := 9
/-- INCOMPLETE -/
abbrev stIncomplete : Nat := 12
/-- PREEMPTED -/
abbrev stPreempted : Nat := 13
/-- CONTEXT_FAULT -/
abbrev stContextFault : Nat := 14
/-- DEVICE_FROZEN -/
abbrev stFrozen : Nat := 15
/-- VERSION -/
abbrev stVersion : Nat := 16
/-- AUTH -/
abbrev stAuth : Nat := 17
/-- DEGRADED -/
abbrev stDegraded : Nat := 18

/-- The context with a handle. -/
def State.ctx? (s : State) (c : Nat) : Option Ctx := tabFind s.ctxs c

/-- Change a context. -/
def State.modCtx (s : State) (c : Nat) (f : Ctx → Ctx) : State := s.setCtxs (tabUpd s.ctxs c f)

/-- Class of a context: real-time (R302). -/
def Ctx.realTime (c : Ctx) : Bool := fld c.params 1 0 == 0
/-- be_priority -/
def Ctx.priority (c : Ctx) : Nat := fld c.params 4 2
/-- deadline_us -/
def Ctx.deadlineUs (c : Ctx) : Nat := fld c.params 63 32
/-- min_interval_us -/
def Ctx.intervalUs (c : Ctx) : Nat := fld c.params 95 64

/-- The context's state, EMPTY where the handle is free. -/
def State.ctxState (s : State) (c : Nat) : CtxState := match s.ctx? c with | some x => x.st | none => .empty

/-- The context that holds easel `e` in its partition. -/
def State.easelCtx (s : State) (e : Nat) : Option Nat :=
  (s.ctxs.find? (fun p => match p.2.part with | some q => q.easels.contains e | none => false)).map Prod.fst

/-- The certificate entry a running context runs under. -/
def Ctx.cert (c : Ctx) : Option CertEntry :=
  match c.image, c.part with
  | some i, some p => i.cert[p.variant]?
  | _, _ => none

/-- The variant a running context runs. -/
def Ctx.variant (c : Ctx) : Option Variant :=
  match c.image, c.part with
  | some i, some p => i.variants[p.variant]?
  | _, _ => none

/-- Add to a context's counter: 48 bits, saturating (R111). -/
def State.count (s : State) (c code n : Nat) : State :=
  s.modCtx c (fun x => { x with counters := tabMod 0 x.counters code (fun v => min (v + n) (2 ^ 48 - 1)) })

/-- The context is real-time. -/
def State.isRt (s : State) (c : Nat) : Bool := match s.ctx? c with | some x => x.realTime | none => false

/-- Add to a port's counter (R276). -/
def State.countPort (s : State) (p code n : Nat) : State :=
  let q := tabGet {} s.ports p
  s.setPorts (tabPut s.ports p
    { q with counters := tabMod 0 q.counters code (fun v => min (v + n) (2 ^ 48 - 1)) })

/-! ### Replies and notices (R376, R382) -/

/-- Put a message that is ready in its channel's list: a reply goes before the notices of the same instant (R376). -/
def insertReady (m : OutMsg) : List OutMsg → List OutMsg
  | [] => [m]
  | x :: r => if m.reply && !x.reply && x.ready == m.ready && x.frag == 0 then m :: x :: r else x :: insertReady m r

/-- Answer a request that is taken and not answered: its entry goes, and its reply becomes ready. A request without an
entry has been answered, or its channel has been reset, and gets no reply (R371, R372, R376, R507). -/
def State.reply (s : State) (ch seq opcode status : Nat) (payload : Bytes) : State :=
  let m : OutMsg :=
    { opcode := opcode, reply := true, status := status, seq := seq, payload := payload, key := 0, frag := 0,
      ready := s.clk.time }
  if s.mbox.taken.any (fun r => r.ch == ch && r.seq == seq) then
    s.setMbox { s.mbox with
      taken := s.mbox.taken.filter (fun r => !(r.ch == ch && r.seq == seq)),
      ready := tabMod [] s.mbox.ready ch (insertReady m) }
  else s

/-- Answer a request that has been taken, by its entry. -/
def State.answer (s : State) (r : Request) (status : Nat) (payload : Bytes) : State :=
  s.reply r.ch r.seq r.opcode status payload

/-- Answer every taken request that meets `p` with one status. -/
def State.answerAll (s : State) (p : Request → Bool) (status : Nat) : State :=
  (s.mbox.taken.filter p).foldl (fun s r => s.answer r status []) s

/-- Merge a new notice into a pending one of the same opcode and key (R382). -/
def mergeNotice (old new : OutMsg) : OutMsg :=
  if new.opcode = 0x8003 then
    let causes := Nat.lor (leAt old.payload 2 2) (leAt new.payload 2 2)
    { old with payload := slice new.payload 0 2 ++ toLe 2 causes ++ slice old.payload 4 12 }
  else if new.opcode = 0x8002 then
    let lv := toLe 4 (fld (leAt old.payload 4 4) 1 0 + 4 * fld (leAt new.payload 4 4) 3 2)
    { old with payload := slice new.payload 0 4 ++ lv ++ slice new.payload 8 8 }
  else { old with payload := new.payload }

/-- Queue a notice, or merge it into the pending one. -/
def putNotice (m : OutMsg) (l : List OutMsg) : List OutMsg :=
  if l.any (fun x => !x.reply && x.opcode == m.opcode && x.key == m.key && x.frag == 0) then
    l.map (fun x => if !x.reply && x.opcode == m.opcode && x.key == m.key && x.frag == 0 then mergeNotice x m else x)
  else l ++ [m]

/-- Raise a notice on a channel whose session has the minor version it needs (R379, R381). -/
def State.notice (s : State) (ch opcode key : Nat) (payload : Bytes) : State :=
  match tabFind s.mbox.session ch with
  | none => s
  | some se =>
    if opcode = 0x8003 && se.minor < 2 then s
    else
      let m : OutMsg :=
        { opcode := opcode, reply := false, status := 0, seq := 0, payload := payload, key := key, frag := 0,
          ready := s.clk.time }
      (s.setMbox { s.mbox with ready := tabMod [] s.mbox.ready ch (putNotice m) }).pme

/-- Code of a context state (R303). -/
def CtxState.code : CtxState → Nat
  | .empty => 0 | .waiting => 1 | .running => 2 | .preempted => 3 | .tearingDown => 4 | .faulted => 5

/-- The SQs of a context, with their heads (R386). -/
def State.ctxSqs (s : State) (c : Nat) : List (Nat × HwQueue) :=
  s.hq.filter (fun q => !q.2.isCq && q.2.ctx == c)

/-- The payload of CONTEXT_STATE (R386). -/
def contextNotice (s : State) (c : Nat) (st : CtxState) (status cause : Nat) : Bytes :=
  let sqs := if st = .faulted then s.ctxSqs c else []
  toLe 1 c ++ toLe 1 st.code ++ toLe 1 status ++ toLe 1 cause ++ toLe 4 sqs.length ++ zeros 8 ++
  sqs.flatMap (fun q => toLe 2 q.1 ++ toLe 2 q.2.head)

/-- The context enters a state, with its notice (R303). -/
def State.enter (s : State) (c : Nat) (st : CtxState) (status cause : Nat) : State :=
  match s.ctx? c with
  | none => s
  | some x =>
    let s := s.modCtx c (fun x => { x with st := st, since := s.clk.time })
    s.notice x.session 0x8001 c (contextNotice s c st status cause)

/-- Counter code of each row of R319, in table order. -/
def riskCounter (i : Nat) : Nat := [0x73, 0x74, 0x75, 0x76, 0x77, 0x71, 0x44, 0x78, 0x72][i]?.getD 0x73

/-- A cause of R319 occurs against a context: counted once per step, and a DEADLINE_RISK notice where the context is
real-time (R319, R387). A context between steps counts each occurrence. -/
def State.risk (s : State) (c i : Nat) : State :=
  match s.ctx? c with
  | none => s
  | some x =>
    if bit x.riskStep i then s
    else
      let s := s.count c (riskCounter i) 1
      let s := if x.busy then s.modCtx c (fun x => { x with riskStep := x.riskStep + 2 ^ i }) else s
      if x.realTime && x.part.isSome then
        s.notice x.session 0x8003 c (toLe 2 c ++ toLe 2 (2 ^ i) ++ zeros 4 ++ toLe 8 s.clk.time)
      else s

/-- A cause of R319 occurs against every real-time context that meets `p`. -/
def State.riskAll (s : State) (i : Nat) (p : Ctx → Bool) : State :=
  (s.ctxs.filter (fun c => c.2.realTime && c.2.part.isSome && p c.2)).foldl (fun s c => s.risk c.1 i) s

/-! ### Errors (R447, R448) -/

/-- Freeze the device (R448): engines stop by the conditions of `works`; deferred requests are answered DEVICE_FROZEN
(R410 step 4), and a partner learns of it by the next heartbeat (R426). -/
def State.freeze (s : State) (cause : Nat) : State :=
  if s.err.frozen then s
  else
    let s := s.putErr { s.err with frozen := true, freezeCause := cause }
    let s := (s.event 1).leaveIdle
    let s := s.setBoot { s.boot with carryValid := false }
    s.answerAll (fun r => r.ch < 32) stFrozen

/-- A FATAL error: its own cause, or DOUBLE_FAULT while an error is being handled (R447). -/
def State.fatal (s : State) (cause : Nat) : State :=
  if s.err.active.isSome then s.freeze 3 else s.freeze cause

/-- A CONTAINED error attributed to a context (R447). -/
def State.contained (s : State) (c cause : Nat) : State :=
  if s.err.frozen || s.ctxState c == .faulted || (s.ctx? c).isNone then s
  else
    match s.err.active with
    | none => s.putErr { s.err with active := some (c, cause), takenUp := false }
    | some a =>
      if a.1 = c || s.err.queue.any (fun q => q.1 == c) then s
      else if s.err.queue.length < 16 then s.putErr { s.err with queue := s.err.queue ++ [(c, cause)] }
      else s.freeze 3

/-- A CORRECTED error (R345, R435): counted, and counted for the owner of the word. -/
def State.corrected (s : State) (owner : Option Nat) : State :=
  let s := s.setErr { s.err with
    correctedSeen := true, correctedCount := min (s.err.correctedCount + 1) (2 ^ 32 - 1) }
  match owner with
  | some c => s.count c 0x7B 1
  | none => s

/-- A correction stall of a context's agent (R319, R435): more in one millisecond than the certificate absorbs is a
cause of R319. -/
def State.stall (s : State) (c : Option Nat) : State :=
  match c with
  | none => s
  | some c =>
    let s := s.count c 0x7C 1
    let ms := s.clk.time / 1000000
    let s := s.modCtx c (fun x => { x with stalls := if x.stalls.1 = ms then (ms, x.stalls.2 + 1) else (ms, 1) })
    match s.ctx? c with
    | none => s
    | some x =>
      match x.cert with
      | some e => if e.eccStalls < x.stalls.2 then s.risk c 2 else s
      | none => s

/-! ### LPDDR5 (R398 to R403, R409, R410) -/

/-- Interleave grain g (R395). -/
def grain (m : Nat) : Nat := 2 ^ (if fld m 11 8 = 0 then 12 else fld m 11 8)
/-- Ranks per channel (R395). -/
def ranks (m : Nat) : Nat := if bit m 3 then 2 else 1
/-- Die density in Gb (R395). -/
def densityGb (m : Nat) : Nat := 2 ^ (1 + fld m 6 4)

/-- Rows of a bank, R (R394): 16,384 for a 4 Gb rank, doubling with density. -/
def bankRows (m : Nat) : Nat := 4096 * densityGb m
/-- Payload rows of a bank, D (R394). -/
def payloadRows (m : Nat) : Nat := 4 * (bankRows m / 5)
/-- Payload capacity in bytes (R394). -/
def payloadBytes (m : Nat) : Nat := 16 * ranks m * 16 * payloadRows m * 2048

/-- Where a payload address lies (R401): channel, rank, bank, row, byte column. -/
def lpMap (m a : Nat) : Nat × Nat × Nat × Nat × Nat :=
  let g := grain m
  let c := (a / g) % 16
  let ach := (a / (16 * g)) * g + a % g
  let r := ach / (32768 * ranks m)
  (c, (ach / 32768) % ranks m, Nat.xor ((ach / 2048) % 16) (r % 16), r, ach % 2048)

/-- The row of a stored bit of a word: its data row, or its check row for the check bits and the pad bit (R398). -/
def lpBitRow (m word pos : Nat) : Nat × Nat × Nat × Nat :=
  let (c, k, b, r, _) := lpMap m (8 * word)
  if 15 ≤ pos && pos < 79 then (c, k, b, r) else (c, k, Nat.xor b 8, payloadRows m + r / 4)

/-- A payload address in row (channel, rank, bank, row) (R401 inverted, at column 0). -/
def lpRowAddr (m c k b r : Nat) : Nat :=
  let ach := r * (32768 * ranks m) + k * 32768 + (Nat.xor b (r % 16)) * 2048
  (ach / grain m) * (16 * grain m) + c * grain m + ach % grain m

/-- The units that exclusion of a row takes (R409): of a data row its unit, of a check row those of its four data rows. -/
def lpRowUnits (m : Nat) (row : Nat × Nat × Nat × Nat) : List Nat :=
  let (c, k, b, r) := row
  if r < payloadRows m then [lpRowAddr m c k b r / 65536]
  else (List.range 4).map (fun i => lpRowAddr m c k (Nat.xor b 8) (4 * (r - payloadRows m) + i) / 65536)

/-- Exclude a row (R409): a unit in use is excluded once its owner frees it. -/
def State.excludeRow (s : State) (row : Nat × Nat × Nat × Nat) : State :=
  s.setLp ((lpRowUnits s.boot.memcfg row).foldl (fun (l : Lpddr) u =>
    if l.excluded.contains u || l.pendingExcl.contains u then l
    else if tabGet 0 l.owner u = 0 then { l with excluded := u :: l.excluded }
    else { l with pendingExcl := u :: l.pendingExcl }) s.lp)

/-- The context that owns a payload address, if a context does. -/
def State.lpOwner (s : State) (a : Nat) : Option Nat :=
  let o := tabGet 0 s.lp.owner (a / 65536)
  if o = 0 || o = 257 then none else some (o - 1)

/-- Change a channel controller. -/
def State.modChan (s : State) (c : Nat) (f : Chan → Chan) : State :=
  s.setLp { s.lp with chan := tabPut s.lp.chan c (f (tabGet {} s.lp.chan c)) }

/-- A memory freeze error (R410): the snapshot is latched, and the device freezes. -/
def State.memoryFreeze (s : State) (sn : Snap) : State :=
  if s.err.frozen then s.modChan sn.chan (fun c => { c with later := min (c.later + 1) (2 ^ 32 - 1) })
  else (s.setLp { s.lp with snap := some sn }).fatal 1

/-- One word of a read by an agent (R399, R400): corrected, or a memory freeze. `scrub` and `rmw` say what reads. -/
def State.lpWord (s : State) (agent stream : Nat) (scrub rmw : Bool) (reader : Option Nat) (w : Nat) : State × Bool :=
  let mask := tabGet 0 s.lp.err w
  match bchDecode 80 mask with
  | .clean =>
    (s.setLp { s.lp with
      err := tabSet 0 s.lp.err w 0,
      mem := memPutNat s.lp.mem (8 * w) 8 (Nat.xor (memNat s.lp.mem (8 * w) 8) (fld mask 78 15)) }, true)
  | .uncorrectable =>
    let (c, k, b, r, col) := lpMap s.boot.memcfg (8 * w)
    let data := memNat s.lp.mem (8 * w) 8
    let raw := Nat.xor data (fld mask 78 15)
    let chk := Nat.xor (bchCheck data) (fld mask 14 0) + (if bit mask 79 then 2 ^ 15 else 0)
    let check := fld mask 78 15 = 0
    let row := if check then (c, k, Nat.xor b 8, payloadRows s.boot.memcfg + r / 4) else (c, k, b, r)
    (s.memoryFreeze
      { chan := c, kind := if check then 2 else 1, row := row.2.2.2, rank := row.2.1, bank := row.2.2.1,
        col := if check then (r % 4) * 512 + (col / 8) * 2 else col, agent := agent, stream := stream, scrub := scrub,
        rmw := rmw, addr := 8 * w, data := raw, check := chk, syndrome := bchSyndrome mask }, false)
  | .corrected ps =>
    let m := s.boot.memcfg
    let rest := bchResidue mask ps
    let c := (lpMap m (8 * w)).1
    let s := s.setLp { s.lp with
      err := tabSet 0 s.lp.err w 0,
      mem := if rest = 0 then s.lp.mem
        else memPutNat s.lp.mem (8 * w) 8 (Nat.xor (memNat s.lp.mem (8 * w) 8) (fld rest 78 15)),
      cells := ps.foldl (fun l p => if l.contains (w, p) then l else (w, p) :: l) s.lp.cells }
    let s := s.modChan c (fun x => { x with corrected := min (x.corrected + 1) (2 ^ 32 - 1) })
    let s := (s.corrected (s.lpOwner (8 * w))).stall reader
    let s := ps.foldl (fun (s : State) p =>
      let row := lpBitRow m w p
      if ps.length ≥ 2 || 2 ≤ countIf (fun q => lpBitRow m q.1 q.2 == row) s.lp.cells then s.excludeRow row else s) s
    (s, true)

/-! ### Activates and the check cache (R399, R405, R413) -/

/-- A bank, as it is before its first activate where it is not listed. -/
def Lpddr.bank (l : Lpddr) (key : Nat) : Bank := (tabFind l.banks key).getD { k := l.k }

/-- The rows beside row `r` that a bank has. -/
def rowsBeside (m r : Nat) : List Nat := (if r + 1 < bankRows m then [r + 1] else []) ++ (if 0 < r then [r - 1] else [])

/-- The neighbour refresh that a bank owes, if it owes one (R405): it leaves no row open. -/
def Lpddr.payDue (l : Lpddr) (m key : Nat) : Lpddr :=
  let b := l.bank key
  match b.due with
  | none => l
  | some r => { l with
      banks := tabPut l.banks key { b with due := none, row := none },
      refreshed := (rowsBeside m r).map (fun x => (key, x)) ++ l.refreshed }

/-- An access to a row: it is activated unless it stands open (log 48). A neighbour refresh that the bank owes comes first
(R413). The chosen activate of a run of 2^k makes its row's neighbours due; a run that ends takes the k of the next from
then. -/
def Lpddr.activate (l : Lpddr) (m c k b row : Nat) : Lpddr :=
  let key := (c * 2 + k) * 16 + b
  if (l.bank key).row = some row then l
  else
    let l := l.payDue m key
    let x := l.bank key
    let chosen := Config.chosenActivate key x.run % 2 ^ x.k == x.count
    let x := { x with row := some row, window := x.window + 1, due := if chosen then some row else none }
    { l with
      banks := tabPut l.banks key
        (if x.count + 1 = 2 ^ x.k then { x with count := 0, k := l.k, run := x.run + 1 } else { x with count := x.count + 1 }) }

/-- A controller serves one 256-byte block: the data row is accessed, and the check row too, but for a read whose check burst
is cached (R399). `fill` says that the check burst is read into the cache. -/
def Lpddr.touch (l : Lpddr) (m g : Nat) (write fill : Bool) : Lpddr :=
  let (c, k, b, r, _) := lpMap m (256 * g)
  let x := tabGet {} l.chan c
  let hit := x.cache.contains g
  let l := l.activate m c k b r
  let l := if hit && !write then l else l.activate m c k (Nat.xor b 8) (payloadRows m + r / 4)
  if fill || hit then
    { l with chan := tabPut l.chan c { x with cache := (g :: x.cache.filter (fun y => y != g)).take 128 } }
  else l

/-- The 256-byte blocks of a byte range. -/
def blocksOf (a n : Nat) : List Nat := if n = 0 then [] else (List.range ((a + n - 1) / 256 + 1 - a / 256)).map (· + a / 256)

/-- A write covers part of an 8-byte word of a block: it is a read-modify-write there (R399). -/
def partIn (a n g : Nat) : Bool := (a % 8 != 0 && a / 256 == g) || ((a + n) % 8 != 0 && (a + n) / 256 == g)

/-- The blocks of an access are served. -/
def State.lpTouch (s : State) (write : Bool) (a n : Nat) : State :=
  s.setLp ((blocksOf a n).foldl (fun l g => l.touch s.boot.memcfg g write (!write || partIn a n g)) s.lp)

/-- The words a byte range touches. -/
def wordsOf (a n : Nat) : List Nat := if n = 0 then [] else (List.range ((a + n - 1) / 8 + 1 - a / 8)).map (· + a / 8)

/-- Correct every word that a read meets; false where one freezes the device. Words without error cost nothing. -/
def State.lpCheck (s : State) (agent stream : Nat) (reader : Option Nat) (rmw : Bool) (ws : List Nat) : State × Bool :=
  (ws.filter (fun w => tabHas s.lp.err w)).foldl
    (fun (x : State × Bool) w => if x.2 then x.1.lpWord agent stream false rmw reader w else x) (s, true)

/-- A read of LPDDR5 payload: corrected bytes, or none where the device freezes. -/
def State.lpRead (s : State) (agent stream : Nat) (reader : Option Nat) (a n : Nat) : State × Option Bytes :=
  let (s, ok) := (s.lpTouch false a n).lpCheck agent stream reader false (wordsOf a n)
  (s, if ok then some (memBytes s.lp.mem a n) else none)

/-- A write of LPDDR5 payload (R399): a partly covered word is read and corrected first; false where that freezes the
device, and then nothing is written. -/
def State.lpWrite (s : State) (agent stream : Nat) (writer : Option Nat) (a : Nat) (b : Bytes) : State × Bool :=
  let ws := wordsOf a b.length
  let part := ws.filter (fun w => 8 * w < a || a + b.length < 8 * w + 8)
  let (s, ok) := (s.lpTouch true a b.length).lpCheck agent stream writer true part
  if ok then
    (s.setLp { s.lp with
      mem := memPut s.lp.mem a b, err := s.lp.err.filter (fun e => !ws.contains e.1) }, true)
  else (s, false)

/-- Is unit `u` free for allocation (R402, R409)? -/
def unitFree (l : Lpddr) (u : Nat) : Bool :=
  tabGet 0 l.owner u == 0 && !l.excluded.contains u && !l.pendingExcl.contains u

/-- First fit of `n` consecutive free units (R402; the choice of place is the model's, log 13). -/
def lpFind (s : State) (n : Nat) : Option Nat :=
  let taken := s.lp.owner.map Prod.fst ++ s.lp.excluded ++ s.lp.pendingExcl
  let top := payloadBytes s.boot.memcfg / 65536
  let ok := fun c => c + n ≤ top && !taken.any (fun u => c ≤ u && u < c + n)
  ((0 :: taken.map (· + 1)).filter ok).foldl (fun b c => match b with | none => some c | some x => some (min x c)) none

/-- Allocate `bytes` for an owner (context + 1, or 257 for firmware), zeroed (R332). -/
def State.lpAlloc (s : State) (owner bytes : Nat) : Option (Nat × State) :=
  let n := ceilDiv bytes 65536
  match lpFind s n with
  | none => none
  | some u =>
    let l := s.lp
    some (65536 * u, s.setLp { l with
      owner := (List.range n).foldl (fun t i => tabPut t (u + i) owner) l.owner,
      mem := memZero l.mem (65536 * u) (65536 * n),
      err := l.err.filter (fun e => e.1 < 8192 * u || 8192 * (u + n) ≤ e.1) })

/-- Free the units that meet `p`: zeroed, and excluded where exclusion waited for them (R332, R409). -/
def State.lpFreeUnits (s : State) (p : Nat → Nat → Bool) : State :=
  let l := s.lp
  let gone := (l.owner.filter (fun e => p e.1 e.2)).map Prod.fst
  s.setLp { l with
    owner := l.owner.filter (fun e => !p e.1 e.2),
    mem := gone.foldl (fun m u => memZero m (65536 * u) 65536) l.mem,
    excluded := l.pendingExcl.filter gone.contains ++ l.excluded,
    pendingExcl := l.pendingExcl.filter (fun u => !gone.contains u) }

/-- Free a byte range of whole units. -/
def State.lpFree (s : State) (a bytes : Nat) : State :=
  s.lpFreeUnits (fun u _ => a / 65536 ≤ u && u < a / 65536 + ceilDiv bytes 65536)

/-- Give back the copies of envelopes whose request is answered or gone (R471). -/
def State.freeCopies (s : State) : State :=
  let live := fun (k : Nat × Nat × Nat × Nat) => s.mbox.taken.any (fun r => r.ch == k.1 && r.seq == k.2.1)
  (s.mbox.copies.filter (fun k => !live k)).foldl (fun (s : State) k => s.lpFree k.2.2.1 k.2.2.2)
    (s.setMbox { s.mbox with copies := s.mbox.copies.filter live })

/-- Does [a, a + n) lie in units that context `c` owns (R47)? -/
def State.lpOwned (s : State) (c a n : Nat) : Bool :=
  n = 0 || (List.range ((a + n - 1) / 65536 + 1 - a / 65536)).all
    (fun i => tabGet 0 s.lp.owner (a / 65536 + i) == c + 1)

/-! ### Host memory -/

/-- Bytes of host memory as the device reads them. -/
def State.hostBytes (s : State) (a n : Nat) : Bytes := memBytes s.hostMem a n

/-- The device writes host memory. -/
def State.hostPut (s : State) (a : Nat) (b : Bytes) : State := s.setHostMem (memPut s.hostMem a b)

/-- Does [a, a + n) lie wholly in one registered window of the context? -/
def Ctx.inWindow (c : Ctx) (a n : Nat) : Bool := c.windows.any (fun w => w.2.base ≤ a && a + n ≤ w.2.base + w.2.length)

/-! ### Records (R359 to R362) -/

/-- Queue a finished record on a CQ. -/
def State.pushRec (s : State) (cq : Nat) (r : Rec) : State :=
  s.setHq (tabUpd s.hq cq (fun q => { q with ready := q.ready ++ [r] }))

/-- The record of a page that was taken over from a failed partner (R428): no port of this device holds the page. -/
def Rec.loosePage (r : Rec) : Bool := r.kind == 1 && r.sq.isNone && r.page.isNone && r.slot.isNone

/-- An item that is such a page. -/
def Item.loosePage (i : Item) : Bool := match i.kind with | .mirrored .. => true | _ => false

/-- Accepted descriptors and items without a written record (R495): the SQs' outstanding descriptors, the
live reads that wait to be written, and the pages. -/
def State.outCount (s : State) : Nat :=
  countIf (fun (i : Nat × Item) => i.2.loosePage) s.intake.items +
  sumOf (s.hq.map (fun q => countIf Rec.loosePage q.2.ready)) +
  sumOf (s.hq.map (fun q => q.2.outst.length)) +
  sumOf (s.hq.map (fun q => countIf (fun r => r.kind == 2) q.2.ready)) +
  sumOf (s.ports.map (fun p => p.2.pages.length + (if p.2.page.isSome then 1 else 0)))

/-! ### FEED_HOLD (R273, R477) -/

/-- Occupancy of a port's page store, in MiB (R271, R425). -/
def Port.occupancy (p : Port) : Nat := p.chunks.length - p.free.length - p.unacked.length

/-- A comparator that a configured port's paper_arm names is a paper comparator (R476). -/
def State.isPaper (s : State) (n : Nat) : Bool :=
  s.ports.any (fun p => match p.2.cfg with | some c => bit c.hdr 19 && fld c.hdr 21 20 == n | none => false)

/-- A supply monitor has tripped and not rearmed (R477). -/
def State.supplyHold (s : State) : Bool := (List.range 4).any (fun n => bit s.aon.tripped n && !s.isPaper n)

/-- Occupancy's hysteresis between hold_on_mib and hold_off_mib. -/
def Port.hysteresis (p : Port) : Port :=
  match p.cfg with
  | none => { p with occHigh := false }
  | some c =>
    if fld c.hdr 383 368 ≤ p.occupancy then { p with occHigh := true }
    else if p.occupancy ≤ fld c.hdr 399 384 then { p with occHigh := false }
    else p

/-- Firmware drives every port's FEED_HOLD (R273): the level follows its conditions, and each rising edge counts. -/
def State.feedHolds (s : State) : State :=
  if !s.works then s
  else (List.range 4).foldl (fun (s : State) n =>
    let p := (tabGet {} s.ports n).hysteresis
    let force := match p.cfg with | some c => bit c.hdr 25 | none => false
    let lvl := p.occHigh || force || 16128 ≤ s.outCount || p.st = .off || s.supplyHold
    let s1 := s.setPorts (tabPut s.ports n { p with feedHold := some lvl })
    if p.feedHold = some lvl then s1
    else
      let s2 := s1.emit (.feedHold n lvl)
      if lvl then s2.countPort n 0x58 1 else s2) s

end Sys2Proof.Machine
end

