-- ==== Sys2Proof/Machine/Sram.lean ====
section
/-! DEFINITION. Machine/Sram.lean: reads of on-chip words with their code, retirement of macros, and the degraded layouts
of palettes and canvases (R432 to R445). -/

namespace Sys2Proof.Machine

/-- Banks of a palette that keep at least one macro, and those that keep both (R443). -/
def palBanks (f : Fabric) (e : Nat) : List Nat × List Nat :=
  let keep := fun m => !f.palRetired.contains (e * 32 + m)
  ((List.range 16).filter (fun b => keep b || keep (b + 16)), (List.range 16).filter (fun b => keep b && keep (b + 16)))

/-- Usable size of a palette (R68, R444). -/
def palUsable (f : Fabric) (e : Nat) : Nat :=
  32768 * countIf (fun m => !f.palRetired.contains (e * 32 + m)) (List.range 32)

/-- Usable size of a canvas (R444). -/
def canUsable (f : Fabric) (a : Nat) : Nat :=
  32768 * countIf (fun m => !f.canRetired.contains (a * 128 + m)) (List.range 128)

/-- Macro and row that hold a palette line (R443). -/
def palMacro (f : Fabric) (e l : Nat) : Nat × Nat :=
  let (b1, b2) := palBanks f e
  if l < 512 * b1.length then
    let b := b1[l % b1.length]?.getD 0
    (if f.palRetired.contains (e * 32 + b) then b + 16 else b, l / b1.length)
  else
    let l2 := l - 512 * b1.length
    (b2[l2 % b2.length]?.getD 0 + 16, l2 / b2.length)

/-- Macro and row that hold a canvas line (R444): one region for each level, over the banks with a macro there. -/
def canMacro (f : Fabric) (a : Nat) : Nat → Nat → Nat → Nat × Nat
  | 0, lev, _ => (lev * 32, 0)
  | n + 1, lev, l =>
    let bs := (List.range 32).filter (fun b => !f.canRetired.contains (a * 128 + lev * 32 + b))
    if l < 512 * bs.length then (lev * 32 + bs[l % bs.length]?.getD 0, l / bs.length)
    else canMacro f a n (lev + 1) (l - 512 * bs.length)

/-- Macro and row of an on-chip word; memories that are never degraded lie in plain order (DEDUCED from R437). -/
def macroOf (f : Fabric) (w : WordAt) : Nat × Nat :=
  match w.mem with
  | .palette => palMacro f w.unit (w.word / 8)
  | .canvas => canMacro f w.unit 4 0 (w.word / 8)
  | _ => (w.word / 4096, w.word / 8 % 512)

/-- The context whose canvas region holds a byte of atelier `a` (R39). -/
def State.canvasCtx (s : State) (a off : Nat) : Option Nat :=
  (s.ctxs.find? (fun c => match c.2.part with
    | some p => p.canvas.any (fun r => r.1 == a && r.2.1 ≤ off && off < r.2.1 + r.2.2)
    | none => false)).map Prod.fst

/-- Sequences that a context's stencil binding declares (R312). -/
def Ctx.maxSeq (c : Ctx) : Nat :=
  match c.image with
  | some i => maxOf (i.variants.map (fun v => maxOf (v.stencil.map StencilSite.maxSeq)))
  | none => 0

/-- A context holds a stencil binding: its image has a stencil site (R235, R236). -/
def Ctx.hasStencil (c : Ctx) : Bool := match c.image with | some i => i.variants.any (fun v => !v.stencil.isEmpty) | none => false

/-- The context that holds walk buffer `i`: buffers go to the bindings in handle order (log 30). -/
def walkOwner : List (Nat × Ctx) → Nat → Option Nat
  | [], _ => none
  | (c, x) :: r, i =>
    let n := if x.hasStencil then x.maxSeq else 0
    if i < n then some c else walkOwner r (i - n)

/-- The first walk buffer of a context's binding. -/
def walkBase : List (Nat × Ctx) → Nat → Nat
  | [], _ => 0
  | (d, x) :: r, c => if d = c then 0 else (if x.hasStencil then x.maxSeq else 0) + walkBase r c

/-- The context that holds intake buffer token `t`: tokens go to the ports in port order (log 30). -/
def tokenOwner : List (Nat × Port) → Nat → Option Nat
  | [], _ => none
  | (_, p) :: r, t => if t < p.quota then p.ctx else tokenOwner r (t - p.quota)

/-- Owner of an on-chip word (R445): one context, none, or shared. -/
inductive Owner where
  | one (c : Nat)
  | nobody
  | shared
  deriving DecidableEq, Repr

/-- From an optional context. -/
def ownerOf : Option Nat → Owner
  | some c => .one c
  | none => .nobody

/-- The vocabulary that holds an offset of vocabulary memory: hash slots of 16 bytes in the first 8 MiB, then the pool. -/
def State.vocabAt (s : State) (off : Nat) : Option Vocab :=
  s.text.vocabs.find? (fun v =>
    let slots := 2 ^ fld (leAt v.image 0 64) 28 24
    let pool := fld (leAt v.image 0 64) 86 64
    let o2 := off - 8388608
    (16 * v.slotBase ≤ off && off < 16 * (v.slotBase + slots)) ||
      (8388608 ≤ off && 65536 * v.poolBase ≤ o2 && o2 < 65536 * v.poolBase + pool))

/-- Who owns an on-chip word (R445). A stencil cache word outside the walk buffers is only a copy. -/
def State.wordOwner (s : State) (w : WordAt) : Owner :=
  match w.mem with
  | .palette => ownerOf (s.easelCtx w.unit)
  | .canvas => ownerOf (s.canvasCtx w.unit (8 * w.word))
  | .vocabulary =>
    match s.vocabAt (8 * w.word) with
    | some v => if v.users.length = 1 then ownerOf v.users.head? else .shared
    | none => .nobody
  | .stencil => if 8 * w.word < 524288 then ownerOf (walkOwner s.ctxs (w.word / 128)) else .nobody
  | .intake => ownerOf (tokenOwner s.ports (w.word / 512))
  | .control => .shared

/-- The single owner, if one context is. -/
def Owner.ctx : Owner → Option Nat
  | .one c => some c
  | _ => none

/-- Change the data bits of an on-chip word by a mask; only palettes and canvases hold their words as bytes here. -/
def State.xorWord (s : State) (w : WordAt) (m : Nat) : State :=
  if m = 0 then s
  else
    match w.mem with
    | .palette =>
      let a := w.unit * 2 ^ 20 + 8 * w.word
      s.setFab { s.fab with palette := memPutNat s.fab.palette a 8 (Nat.xor (memNat s.fab.palette a 8) m) }
    | .canvas =>
      let a := w.unit * 2 ^ 22 + 8 * w.word
      s.setFab { s.fab with canvas := memPutNat s.fab.canvas a 8 (Nat.xor (memNat s.fab.canvas a 8) m) }
    | _ => s

/-- The stored flips of a word, and replacing them. -/
def flips (e : Errors) (w : WordAt) : Nat := match e.sram.find? (fun x => x.1 == w) with | some x => x.2 | none => 0

/-- Set the flips of a word. -/
def setFlips (e : Errors) (w : WordAt) (m : Nat) : Errors :=
  let rest := e.sram.filter (fun x => x.1 != w)
  { e with sram := if m = 0 then rest else (w, m) :: rest }

/-! ### Retirement (R441, R442, R444) -/

/-- Pending retirements of one memory and unit. -/
def pendingOf (e : Errors) (mem : SramMem) (u : Nat) : List Nat :=
  (e.pendingRetire.filter (fun x => x.1 == mem && x.2.1 == u)).map (fun x => x.2.2)

/-- Retired macros of a palette after some more go: all 32 where fewer than 8 banks would keep both (R444). -/
def palAfter (e : Nat) (ret : List Nat) : List Nat :=
  let keep := fun m => !ret.contains (e * 32 + m)
  if countIf (fun b => keep b && keep (b + 16)) (List.range 16) < 8 then
    (List.range 32).map (fun m => e * 32 + m) ++ ret.filter (fun k => k / 32 != e)
  else ret

/-- Retired macros of a canvas after some more go: all 128 where fewer than 16 banks would keep all four (R444). -/
def canAfter (a : Nat) (ret : List Nat) : List Nat :=
  let keep := fun m => !ret.contains (a * 128 + m)
  if countIf (fun b => keep b && keep (b + 32) && keep (b + 64) && keep (b + 96)) (List.range 32) < 16 then
    (List.range 128).map (fun m => a * 128 + m) ++ ret.filter (fun k => k / 128 != a)
  else ret

/-- The fabric with macros `ms` of a memory retired. -/
def retire (f : Fabric) (mem : SramMem) (u : Nat) (ms : List Nat) : Fabric :=
  match mem with
  | .palette => { f with palRetired := palAfter u (ms.map (fun m => u * 32 + m) ++ f.palRetired) }
  | .canvas => { f with canRetired := canAfter u (ms.map (fun m => u * 128 + m) ++ f.canRetired) }
  | _ => f

/-- Firmware sends the stop signal to a best-effort partition (R325). One that is being restored gives its partition back at
the end of its restore (R442). -/
def State.startPreempt (s : State) (c : Nat) : State :=
  s.modCtx c (fun x => if x.part.isSome && (x.st == .running || x.restoring) then { x with stopping := true } else x)

/-- Minimum palette size of a map (R70): the highest end of a region. -/
def mapSize (m : List (Option PalRegion)) : Nat :=
  maxOf (m.map (fun r => match r with | some x => x.offset + x.size | none => 0))

/-- The palette map of an easel of a context's partition. -/
def Ctx.mapOf (c : Ctx) (e : Nat) : List (Option PalRegion) :=
  match c.variant, c.part with
  | some v, some p => (match p.easels.idxOf? e with | some i => v.palette[i]?.getD [] | none => [])
  | _, _ => []

/-- Contexts with a canvas region in an atelier and their shares. -/
def State.canvasUsers (s : State) (a : Nat) : List (Nat × Ctx × Nat) :=
  s.ctxs.filterMap (fun c => match c.2.part with
    | some p => (p.canvas.find? (fun r => r.1 == a)).map (fun r => (c.1, c.2, r.2.2))
    | none => none)

/-- The next context that a canvas too small gives up (R442): best-effort first, lowest priority, then latest placed;
then real-time, latest placed. -/
def canvasVictim (l : List (Nat × Ctx × Nat)) : Option (Nat × Ctx × Nat) :=
  let key := fun (x : Nat × Ctx × Nat) =>
    let at0 := match x.2.1.part with | some p => p.placedAt | none => 0
    ((if x.2.1.realTime then 8 else x.2.1.priority), at0)
  l.foldl (fun b x => match b with
    | none => some x
    | some y => if (key x).1 < (key y).1 || ((key x).1 == (key y).1 && (key y).2 < (key x).2) then some x else b) none

/-- Remove contexts from an atelier until the shares fit (R442). -/
def State.shrinkCanvas (s : State) (room : Nat) : Nat → List (Nat × Ctx × Nat) → State
  | 0, _ => s
  | n + 1, l =>
    if sumOf (l.map (fun x => x.2.2)) ≤ room then s
    else
      match canvasVictim l with
      | none => s
      | some v =>
        let s := if v.2.1.realTime then s.contained v.1 0x0C else s.startPreempt v.1
        s.shrinkCanvas room n (l.filter (fun x => x.1 != v.1))

/-- Consequences of pending retirements for the contexts that run there (R323, R442). -/
def State.judgeRetire (s : State) (mem : SramMem) (u : Nat) : State :=
  let f := retire s.fab mem u (pendingOf s.err mem u)
  match mem with
  | .palette =>
    (match s.easelCtx u with
     | none => s
     | some c =>
       match s.ctx? c with
       | none => s
       | some x =>
         if palUsable f u < mapSize (x.mapOf u) then
           if x.realTime then s.contained c 0x0C else s.startPreempt c
         else s)
  | .canvas => s.shrinkCanvas (canUsable f u) 256 (s.canvasUsers u)
  | _ => s

/-- A row of a palette or canvas becomes failing: its macro is marked for retirement (R441). -/
def State.failingRow (s : State) (w : WordAt) : State :=
  if w.mem = .palette || w.mem = .canvas then
    let m := (macroOf s.fab w).1
    let x := (w.mem, w.unit, m)
    if s.err.pendingRetire.contains x then s
    else (s.setErr { s.err with pendingRetire := x :: s.err.pendingRetire }).judgeRetire w.mem w.unit
  else s

/-- A CONTAINED error of the context is being handled or waits (R447). It wins over a pre-emption: the context is torn
down, not saved (R92). -/
def State.inError (s : State) (c : Nat) : Bool :=
  (match s.err.active with | some a => a.1 == c | none => false) || s.err.queue.any (fun a => a.1 == c)

/-- Read one on-chip word whose stored bits may have flipped (R434, R435, R441, R445): false where nothing is
delivered. -/
def State.readWord (s : State) (w : WordAt) (reader : Option Nat) : State × Bool :=
  let mask := flips s.err w
  match bchDecode 79 mask with
  | .clean => ((s.xorWord w (fld mask 78 15)).setErr (setFlips s.err w 0), true)
  | .corrected ps =>
    let rest := bchResidue mask ps
    let s := s.xorWord w (fld rest 78 15)
    let e := setFlips s.err w (sumOf (ps.map (fun p => 2 ^ p)))
    let (mac, row) := macroOf s.fab w
    let cell := fun (p : Nat) => ({ mem := w.mem, unit := w.unit, mac := mac, row := row, word := w.word % 8, pos := p } : BitCell)
    let s := s.setErr { e with
      writeBack := if e.writeBack.contains w then e.writeBack else e.writeBack ++ [w],
      cells := ps.foldl (fun l p => if l.contains (cell p) then l else cell p :: l) e.cells }
    let s := (s.corrected (s.wordOwner w).ctx).stall reader
    let same := countIf (fun (q : BitCell) => q.mem == w.mem && q.unit == w.unit && q.mac == mac && q.row == row) s.err.cells
    (if 2 ≤ ps.length || 2 ≤ same then s.failingRow w else s, true)
  | .uncorrectable =>
    if w.mem = .stencil && 524288 ≤ 8 * w.word then
      ((s.setErr (setFlips s.err w 0)).corrected none, true)
    else
      match s.wordOwner w with
      | .one c => ((s.contained c 0x01).failingRow w, false)
      | .shared => (s.fatal 2, false)
      | .nobody =>
        let d := match w.mem with
          | .palette => memNat s.fab.palette (w.unit * 2 ^ 20 + 8 * w.word) 8
          | .canvas => memNat s.fab.canvas (w.unit * 2 ^ 22 + 8 * w.word) 8
          | _ => 0
        (((s.xorWord w d).setErr (setFlips s.err w 0)).failingRow w, true)

/-- Does a byte range touch a word? -/
def touches (w : Nat) (r : Nat × Nat) : Bool := r.1 < 8 * w + 8 && 8 * w < r.1 + r.2

/-- Read byte ranges (offset, bytes) of a unit of a memory: false where a word of them cannot be corrected. -/
def State.readRanges (s : State) (mem : SramMem) (u : Nat) (reader : Option Nat) (rs : List (Nat × Nat)) : State × Bool :=
  (s.err.sram.filter (fun x => x.1.mem == mem && x.1.unit == u && rs.any (touches x.1.word))).foldl
    (fun (p : State × Bool) x => if p.2 then p.1.readWord x.1 reader else p) (s, true)

/-- A unit reads some of the words of the ranges, and the spec does not say which: a free bit for each bad word tells whether
it is among them. False where an uncorrectable one stops the read. -/
def State.someReads (s : State) (mem : SramMem) (u : Nat) (reader : Option Nat) (rs : List (Nat × Nat)) : State × Bool :=
  let bad := s.err.sram.filter (fun x => x.1.mem == mem && x.1.unit == u && rs.any (touches x.1.word))
  if bad.isEmpty then (s, true)
  else
    let (f, s) := s.freeNat
    s.readRanges mem u reader
      (((List.range bad.length).zip bad).filterMap (fun x => if bit f x.1 then some (8 * x.2.1.word, 8) else none))

/-- A write of a byte range clears the flips of the words it touches: the memory is written in whole words (R28), and a
waiting write-back of one is dropped (R435). Of a word that the range covers in part, the other bytes stay, the word is not
read first, and its flips are cleared too (log 139). -/
def State.wrote (s : State) (mem : SramMem) (u off n : Nat) : State :=
  if s.err.sram.isEmpty && s.err.writeBack.isEmpty then s
  else
    let hit := fun (w : WordAt) => w.mem == mem && w.unit == u && touches w.word (off, n)
    s.setErr { s.err with
      sram := s.err.sram.filter (fun x => !hit x.1), writeBack := s.err.writeBack.filter (fun w => !hit w) }

/-- A unit writes some of the words of the ranges, and the spec does not say which: a free bit for each word that is bad or
waits for its write-back tells whether it is among them (R435). -/
def State.someWrites (s : State) (mem : SramMem) (u : Nat) (rs : List (Nat × Nat)) : State :=
  let ws := (s.err.sram.map Prod.fst ++ s.err.writeBack).filter (fun w =>
    w.mem == mem && w.unit == u && rs.any (touches w.word))
  if ws.isEmpty then s
  else
    let (f, s) := s.freeNat
    ((List.range ws.length).zip ws).foldl (fun (s : State) x => if bit f x.1 then s.wrote mem u (8 * x.2.word) 8 else s) s

/-- Write bytes into a palette. -/
def State.palPut (s : State) (e off : Nat) (b : Bytes) : State :=
  (s.setFab { s.fab with palette := memPut s.fab.palette (e * 2 ^ 20 + off) b }).wrote .palette e off b.length

/-- Write bytes into a canvas. -/
def State.canPut (s : State) (a off : Nat) (b : Bytes) : State :=
  (s.setFab { s.fab with canvas := memPut s.fab.canvas (a * 2 ^ 22 + off) b }).wrote .canvas a off b.length

/-- Bytes of a palette. -/
def State.palBytes (s : State) (e off n : Nat) : Bytes := memBytes s.fab.palette (e * 2 ^ 20 + off) n

/-- Bytes of a canvas. -/
def State.canBytes (s : State) (a off n : Nat) : Bytes := memBytes s.fab.canvas (a * 2 ^ 22 + off) n

/-- Zero a range of a palette. -/
def State.palZero (s : State) (e off n : Nat) : State :=
  (s.setFab { s.fab with palette := memZero s.fab.palette (e * 2 ^ 20 + off) n }).wrote .palette e off n

/-- Zero a range of a canvas. -/
def State.canZero (s : State) (a off n : Nat) : State :=
  (s.setFab { s.fab with canvas := memZero s.fab.canvas (a * 2 ^ 22 + off) n }).wrote .canvas a off n

/-- Retire what is pending in a memory that holds no context's data (R441): it discards the resident regions of that
palette, and the layout changes, so nothing of the unit's content stays (log 31). -/
def State.retireNow (s : State) (mem : SramMem) (u : Nat) : State :=
  let ms := pendingOf s.err mem u
  let free := match mem with
    | .palette => (s.easelCtx u).isNone
    | .canvas => (s.canvasUsers u).isEmpty
    | _ => false
  if ms.isEmpty || !free then s
  else
    let s := (s.setFab (retire s.fab mem u ms)).setErr { s.err with
      pendingRetire := s.err.pendingRetire.filter (fun x => !(x.1 == mem && x.2.1 == u)),
      sram := s.err.sram.filter (fun x => !(x.1.mem == mem && x.1.unit == u)),
      writeBack := s.err.writeBack.filter (fun w => !(w.mem == mem && w.unit == u)) }
    match mem with
    | .palette =>
      (s.setFab { s.fab with palette := memZero s.fab.palette (u * 2 ^ 20) (2 ^ 20) }).setSched
        { s.sched with resident := s.sched.resident.filter (fun r => r.easel != u) }
    | .canvas => s.setFab { s.fab with canvas := memZero s.fab.canvas (u * 2 ^ 22) (2 ^ 22) }
    | _ => s

end Sys2Proof.Machine
end

