-- ==== Sys2Proof/Machine/Tally.lean ====
section
/-! DEFINITION. Machine/Tally.lean: tallies, waiting queues and barrier channels (R32 to R42, R55, R60). -/

namespace Sys2Proof.Machine

/-- A command queue of an easel. -/
def State.queue (s : State) (e q : Nat) : CmdQueue := tabGet {} s.fab.queue (e * 16 + q)

/-- Change a command queue. -/
def State.modQueue (s : State) (e q : Nat) (f : CmdQueue → CmdQueue) : State :=
  s.setFab { s.fab with queue := tabMod {} s.fab.queue (e * 16 + q) f }

/-- A wait of a queue ends: the header acquire, or the wait that the command itself is (R65, R66). -/
def CmdQueue.grant (q : CmdQueue) : CmdQueue :=
  if q.acquired then { q with wait := none, granted := true } else { q with wait := none, acquired := true }

/-- Serve the waiting acquires of one tally in order; the first that the count does not meet stops service (R37 step 3).
Gives the count left and the queues served. -/
def serveAcquires (t : Nat) : List Waiter → Nat → Nat × List (Nat × Nat)
  | [], c => (c, [])
  | w :: r, c =>
    if w.tally = t && w.acquire then
      if w.n ≤ c then
        let (c2, l) := serveAcquires t r (c - w.n)
        (c2, (w.e, w.q) :: l)
      else (c, [])
    else serveAcquires t r c

/-- Serve the waiters of a tally: every wait that the count meets, then the acquires (R37 steps 2 and 3). -/
def State.serveTally (s : State) (t : Nat) : State :=
  let f := s.fab
  let c := tabGet 0 f.tally t
  let waits := (f.waiters.filter (fun w => w.tally == t && !w.acquire && decide (w.n ≤ c))).map (fun w => (w.e, w.q))
  let (c2, acqs) := serveAcquires t f.waiters c
  let done := waits ++ acqs
  let s := s.setFab { f with
    tally := tabSet 0 f.tally t c2,
    waiters := f.waiters.filter (fun w => !(w.tally == t && done.contains (w.e, w.q))) }
  done.foldl (fun s x => s.modQueue x.1 x.2 CmdQueue.grant) s

/-- Add n to a tally (R33, R35, R37): a count above 65,535 stays there and is a CONTAINED error of its context. -/
def State.tallyAdd (s : State) (t n : Nat) : State :=
  if n = 0 then s else
  let c := tabGet 0 s.fab.tally t + n
  let s1 := s.setFab { s.fab with tally := tabSet 0 s.fab.tally t (min c 65535) }
  let s2 := s1.serveTally t
  if 65535 < c then
    match s2.easelCtx (t / 256) with
    | some x => s2.contained x 0x05
    | none => s2
  else s2

/-- Does a tally lie in a context's partition (R35)? -/
def State.tallyIn (s : State) (c t : Nat) : Bool :=
  match (s.ctx? c).bind Ctx.part with
  | some p => t < 16384 && p.easels.contains (t / 256)
  | none => false

/-- A context's tally by position and local index. -/
def Ctx.tallyAt (c : Ctx) (pos loc : Nat) : Option Nat :=
  match c.part with
  | some p => (p.easels[pos]?).map (fun e => e * 256 + loc)
  | none => none

/-- A queue begins to wait on a tally, or passes at once where the count meets it and no acquire waits before it
(R33, R34, R37). -/
def State.waitTally (s : State) (e q t n : Nat) (acquire : Bool) : State :=
  if n = 0 then s.modQueue e q CmdQueue.grant
  else
    let w : Waiter := { tally := t, e := e, q := q, acquire := acquire, n := n, since := s.clk.time }
    let s := s.modQueue e q (fun x => { x with wait := some (if acquire then .acquire t n else .wait t n) })
    (s.setFab { s.fab with waiters := s.fab.waiters ++ [w] }).serveTally t

/-! ### Barriers (R40 to R42, R55) -/

/-- Does every member have an arrival for the generation under way? -/
def Barrier.complete (b : Barrier) : Bool := !b.members.isEmpty && b.members.all (fun e => 1 ≤ tabGet 0 b.arrivals e)

/-- An easel arrives: its queue waits for the generation that this arrival counts toward (R41). -/
def Barrier.arrive (b : Barrier) (e q : Nat) : Barrier × Nat :=
  let g := b.gen + tabGet 0 b.arrivals e
  ({ b with arrivals := tabMod 0 b.arrivals e (· + 1), waiting := b.waiting ++ [(e, q, g)] }, g)

/-- The generation completes: each member's arrival is used, and the queues that wait for it are freed. -/
def Barrier.finish (b : Barrier) : Barrier × List (Nat × Nat) :=
  let freed := (b.waiting.filter (fun w => w.2.2 == b.gen)).map (fun w => (w.1, w.2.1))
  ({ b with
      arrivals := b.members.foldl (fun t e => tabMod 0 t e (· - 1)) b.arrivals,
      gen := b.gen + 1,
      waiting := b.waiting.filter (fun w => w.2.2 != b.gen) }, freed)

/-- The queues of a partition leave every wait; `keep` says that the wait is kept for resume (R60, R63). -/
def State.dropWaits (s : State) (es : List Nat) (keep : Bool) : State :=
  let f := s.fab
  let inE := fun e => es.contains e
  s.setFab { f with
    waiters := f.waiters.filter (fun w => !inE w.e),
    bar := tabMap f.bar (fun _ b => { b with waiting := b.waiting.filter (fun w => !inE w.1) }),
    devBar := tabMap f.devBar (fun _ b => { b with waiting := b.waiting.filter (fun w => !inE w.1) }),
    queue := tabMap f.queue (fun k q => if inE (k / 16) && !keep then { q with wait := none } else q) }

end Sys2Proof.Machine
end

