-- ==== Sys2Proof/Machine/Operands.lean ====
section
/-! DEFINITION. Machine/Operands.lean: the operands of easel commands: spaces, ranges, access checks, PLAIN and BLOCK
elements (03_easel_core.md, 04_number_formats.md). -/

namespace Sys2Proof.Machine

/-- A byte range of an easel's palette, or of its atelier's canvas where `canvas` is true. -/
structure Range where
  canvas : Bool
  off : Nat
  len : Nat
  deriving DecidableEq, Repr

/-- The canvas region of a context in an atelier: base and size (R39). -/
def Ctx.region (c : Ctx) (a : Nat) : Nat × Nat :=
  match c.part with
  | some p => (match p.canvas.find? (fun r => r.1 == a) with | some r => r.2 | none => (0, 0))
  | none => (0, 0)

/-- May a command of easel `e` of context `c` access the range (R39, R68)? -/
def State.rangeOk (s : State) (c e : Nat) (r : Range) : Bool :=
  if r.len = 0 then true
  else if r.canvas then
    match s.ctx? c with
    | some x =>
      let (b, n) := x.region (e / 8)
      b ≤ r.off && r.off + r.len ≤ b + n && r.off + r.len ≤ canUsable s.fab (e / 8)
    | none => false
  else r.off + r.len ≤ palUsable s.fab e

/-- Bytes of a range. -/
def State.spBytes (s : State) (e : Nat) (canvas : Bool) (off n : Nat) : Bytes :=
  if canvas then s.canBytes (e / 8) off n else s.palBytes e off n

/-- Write bytes to the palette or the canvas of an easel. -/
def State.spPut (s : State) (e : Nat) (canvas : Bool) (off : Nat) (b : Bytes) : State :=
  if canvas then s.canPut (e / 8) off b else s.palPut e off b

/-- Correct every word that the ranges read; false where one is uncorrectable (R434, R445). -/
def State.readOk (s : State) (c e : Nat) (rs : List Range) : State × Bool :=
  let pick := fun (b : Bool) => (rs.filter (fun r => r.canvas == b)).map (fun r => (r.off, r.len))
  let (s1, ok1) := s.readRanges .palette e (some c) (pick false)
  if ok1 then s1.readRanges .canvas (e / 8) (some c) (pick true) else (s1, false)

/-- How a command's body ends. -/
inductive BodyEnd where
  /-- done, with its effect -/
  | done
  /-- rejected with FORMAT (R66): nothing written -/
  | format
  /-- a CONTAINED error with a cause of R446 -/
  | fault (cause : Nat)
  /-- an error already raised: the command delivers nothing -/
  | dropped
  /-- the queue waits -/
  | block
  deriving DecidableEq, Repr

/-- Check access to every range, then correct what is read, then run `k`. -/
def State.withRanges (s : State) (c e : Nat) (reads writes : List Range) (k : State → State × BodyEnd) : State × BodyEnd :=
  if (reads ++ writes).all (s.rangeOk c e) then
    match s.readOk c e reads with
    | (s1, true) => k s1
    | (s1, false) => (s1, .dropped)
  else (s, .fault 0x04)

/-- One range for each of `n` rows. -/
def rowRanges (canvas : Bool) (addr stride len n : Nat) : List Range :=
  (List.range n).map (fun r => ⟨canvas, addr + stride * r, len⟩)

/-- Read `n` PLAIN elements. -/
def State.plainRow (s : State) (e : Nat) (canvas : Bool) (f : Fmt) (addr n : Nat) : List Lane :=
  (plainCodes f (s.spBytes e canvas addr (plainLen f n)) n).map (decPlain f)

/-- The same, as float values. -/
def State.floatRow (s : State) (e : Nat) (canvas : Bool) (f : Fmt) (addr n : Nat) : List FV :=
  (s.plainRow e canvas f addr n).map Lane.toFV

/-- An FP32 number in a palette. -/
def State.palF32 (s : State) (e off : Nat) : FV := ofF32 (leNat (s.palBytes e off 4))

/-- Encode lanes as PLAIN bytes, with the counts. -/
def encRow (f : Fmt) (l : List Lane) : Bytes × Sat :=
  let r := l.map (encPlain f)
  (plainBytes f (r.map Prod.fst), r.foldl (fun a x => a.add x.2) Sat.zero)

/-- Add the counts of a conversion to the context's counters (R111). -/
def State.countSat (s : State) (c : Nat) (t : Sat) : State :=
  let add := fun (s : State) (k n : Nat) => if n = 0 then s else s.count c k n
  add (add (add (add (add (add s 0 t.int) 1 t.float) 2 t.grid) 3 t.nan) 4 t.block) 5 t.fallback

/-- A block as read: scale code, zero point, codes. -/
structure Block where
  scale : Nat
  zp : Nat
  codes : List Nat
  deriving DecidableEq, Repr

/-- Read the block at a handle (R99, R101). Reserved bits are ignored. -/
def State.blockAt (s : State) (e : Nat) (canvas : Bool) (f : Fmt) (h : Nat) : Block :=
  let b := Machine.blockAt f h
  let z := leNat (s.spBytes e canvas b.zp 1)
  { scale := leNat (s.spBytes e canvas b.scale 2),
    zp := if f = .uint8 then z else if f = .uint4 then z % 16 else 0,
    codes := blockCodes f (s.spBytes e canvas b.data b.len) }

/-- The line of the block at a handle. -/
def blockLine (canvas : Bool) (f : Fmt) (h : Nat) : Range := ⟨canvas, (Machine.blockAt f h).line, 64⟩

/-- Write the block at a handle; the reserved bytes of its line are zero (R99). -/
def State.putBlock (s : State) (e : Nat) (canvas : Bool) (f : Fmt) (h : Nat) (b : Block) : State :=
  let p := Machine.blockAt f h
  let s := s.spPut e canvas p.data (blockData f b.codes)
  let s := s.spPut e canvas p.scale (toLe 2 b.scale)
  match f.bits with
  | 8 => s.spPut e canvas p.zp (toLe 1 (if f = .uint8 then b.zp else 0) ++ zeros 29)
  | 4 => (s.spPut e canvas p.zp (toLe 1 (if f = .uint4 then b.zp % 16 else 0))).spPut e canvas (p.line + 9) (zeros 7)
  | _ => s.spPut e canvas (p.line + 8) (zeros 8)

/-- Zero the slots after the block at a handle in its line (R100). -/
def State.zeroTail (s : State) (e : Nat) (canvas : Bool) (f : Fmt) (h : Nat) : State :=
  (List.range f.perLine).foldl (fun (s : State) i =>
    if h / 8 % f.perLine < i then
      s.putBlock e canvas f (8 * (h / 8 / f.perLine * f.perLine + i)) { scale := 0, zp := 0, codes := List.replicate 32 0 }
    else s) s

/-- The blocks of `n` elements, in lines: a NaN or infinite scale makes every element NaN (R103). -/
def Block.nan : Block := { scale := 0x7FC0, zp := 0, codes := List.replicate 32 0 }

/-- Is a block a NaN block (R106)? -/
def Block.isNan (b : Block) : Bool := b.scale == 0x7FC0 && b.zp == 0 && b.codes.all (fun c => c == 0)

/-- A block whose scale is a NaN or an infinity: none of its elements has a value (R103). -/
def Block.noValue (b : Block) : Bool := !fisFin (decFloat .bf16 b.scale)

end Sys2Proof.Machine
end

