-- ==== Sys2Proof/Machine/Check.lean ====
section
/-! DEFINITION. Machine/Check.lean: what makes a command well-formed when a queue takes it up (R66): the header, and the
body table of each opcode. -/

namespace Sys2Proof.Machine

/-- Opcode of a command. -/
def cOp (w : Nat) : Nat := fld w 7 0
/-- acquire_enable -/
def cAcq (w : Nat) : Bool := bit w 8
/-- release_enable -/
def cRel (w : Nat) : Bool := bit w 9
/-- acquire_tally -/
def cAcqTally (w : Nat) : Nat := fld w 23 16
/-- acquire_count -/
def cAcqN (w : Nat) : Nat := fld w 47 32
/-- release_tally -/
def cRelTally (w : Nat) : Nat := fld w 61 48
/-- release_count -/
def cRelN (w : Nat) : Nat := fld w 79 64
/-- A format field. -/
def cFmt (w lo : Nat) : Option Fmt := Fmt.ofCode (fld w (lo + 3) lo)

/-- A field lies in a range. -/
def inR (v lo hi : Nat) : Bool := lo ≤ v && v ≤ hi
/-- A multiple of n. -/
def mult (v n : Nat) : Bool := v % n == 0
/-- A finite FP32 code. -/
def finF32 (c : Nat) : Bool := fisFin (ofF32 c)
/-- Bits of the body [511:128] only in the listed ranges. -/
def bodyBits (w : Nat) (rs : List (Nat × Nat)) : Bool := onlyBits w ((127, 0) :: rs)

/-- The header (R65), with the partition check of release_tally (R35). -/
def headerOk (inPart : Nat → Bool) (w : Nat) : Bool :=
  onlyBits (w % 2 ^ 128) [(9, 0), (23, 16), (47, 32), (61, 48), (79, 64)] && (!cRel w || inPart (cRelTally w))

/-- Operand class of MATMUL (R73): 0 4-bit, 1 8-bit, 2 FP16, 3 INT16; none where the pair is rejected. -/
def opClass (a b : Fmt) : Option Nat :=
  let i16 := fun (f : Fmt) => f == .int16 || f == .uint16
  let intish := fun (f : Fmt) => i16 f || f == .int8 || f == .uint8 || f == .int4 || f == .uint4
  if a == .fp32 || a == .int32 || a == .bell4 || a == .bell3 then none
  else if b == .fp32 || b == .int32 || b == .uint8 || b == .uint4 || b == .uint16 then none
  else if i16 a || i16 b then (if intish a && intish b then some 3 else none)
  else if a.bits == 16 || b.bits == 16 then some 2
  else if a.bits == 8 || b.bits == 8 then some 1
  else some 0

/-- The accumulator is INT32 (R76): both operands integer and PLAIN. -/
def accInt (w : Nat) : Bool :=
  match cFmt w 128, cFmt w 132 with
  | some a, some b => a.isInt && b.isInt && !bit w 136 && !bit w 137
  | _, _ => false

/-- MATMUL (R73, R74, R80). -/
def matmulOk (w : Nat) : Bool :=
  match cFmt w 128, cFmt w 132 with
  | some a, some b =>
    bodyBits w [(140, 128), (151, 144), (183, 160), (207, 192), (447, 224)] && (opClass a b).isSome &&
    (if bit w 136 then a.blockOk else a.plainOk) && (if bit w 137 then b.blockOk else b.plainOk) &&
    inR (fld w 151 144) 1 32 && inR (fld w 175 160) 1 256 && fld w 183 176 + fld w 175 160 ≤ 256 &&
    1 ≤ fld w 207 192 && mult (fld w 287 256) 8 && mult (fld w 319 288) 8 && mult (fld w 383 352) 8 &&
    mult (fld w 415 384) 8 && (!bit w 136 || mult (fld w 255 224) 8) && (!bit w 137 || mult (fld w 351 320) 8) &&
    (if bit w 140 then !accInt w && mult (fld w 447 416) 64 else fld w 447 416 == 0)
  | _, _ => false

/-- ACC_DRAIN (R81), but for what depends on the accumulator's type. -/
def drainOk (w : Nat) : Bool :=
  (match cFmt w 128 with
   | some f => f == .fp32 || f == .fp16 || f == .bf16 || f == .int32 || f == .int16 || f == .int8
   | none => false) &&
  bodyBits w [(136, 128), (151, 144), (183, 160), (319, 192)] && inR (fld w 151 144) 1 32 && inR (fld w 175 160) 1 256 &&
  fld w 183 176 + fld w 175 160 ≤ 256 && mult (fld w 223 192) 8 && mult (fld w 255 224) 8 && finF32 (fld w 319 288)

/-! ### Convolution geometry (R132 to R137) -/

/-- One axis of a window: size, tile start and length, output start and length, low and high padding, modes, window,
stride, dilation. -/
structure Axis where
  n : Nat
  t0 : Nat
  tn : Nat
  q0 : Nat
  qn : Nat
  plo : Nat
  phi : Nat
  mlo : Nat
  mhi : Nat
  k : Nat
  s : Nat
  d : Nat
  deriving DecidableEq, Repr

/-- The vertical axis of GESSO_EXPAND or POOL. -/
def axisY (w : Nat) : Axis :=
  { n := fld w 255 240, t0 := fld w 287 272, tn := fld w 319 304, q0 := fld w 351 336, qn := fld w 383 368,
    plo := fld w 183 176, phi := fld w 191 184, mlo := fld w 137 136, mhi := fld w 139 138, k := fld w 148 144,
    s := fld w 158 154, d := fld w 168 164 }

/-- The horizontal axis. -/
def axisX (w : Nat) : Axis :=
  { n := fld w 271 256, t0 := fld w 303 288, tn := fld w 335 320, q0 := fld w 367 352, qn := fld w 399 384,
    plo := fld w 199 192, phi := fld w 207 200, mlo := fld w 141 140, mhi := fld w 143 142, k := fld w 153 149,
    s := fld w 163 159, d := fld w 173 169 }

/-- What a coordinate resolves to (R136). -/
inductive Tap where
  | pos (x : Nat)
  | zero
  | const
  deriving DecidableEq, Repr

/-- Resolve a coordinate (R136). The fuel is the two turns that the rule allows, and one for the test. -/
def resolve (n mlo mhi : Nat) : Nat → Int → Tap
  | 0, x => .pos x.toNat
  | f + 1, x =>
    if 0 ≤ x && x < n then .pos x.toNat
    else
      let m := if x < 0 then mlo else mhi
      if m = 0 then .zero
      else if m = 1 then .const
      else if m = 3 || n = 1 then .pos (if x < 0 then 0 else n - 1)
      else if mlo = 2 && mhi = 2 then
        let p : Int := 2 * ((n : Int) - 1)
        let y := x % p
        resolve n mlo mhi f (if (n : Int) ≤ y then p - y else y)
      else if x < 0 then resolve n mlo mhi f (-x)
      else resolve n mlo mhi f (2 * ((n : Int) - 1) - x)

/-- The coordinate that tap t of output position q reads (R134). -/
def Axis.coord (a : Axis) (q t : Nat) : Int := (q : Int) * a.s - a.plo + t * a.d

/-- The same, resolved. -/
def Axis.at (a : Axis) (q t : Nat) : Tap := resolve a.n a.mlo a.mhi 4 (a.coord q t)

/-- Output size of an axis (R134). -/
def Axis.out (a : Axis) : Int := ((a.n : Int) + a.plo + a.phi - a.d * ((a.k : Int) - 1) - 1) / a.s + 1

/-- Ranges of an axis, its tile, its output range (R132, R134) and the coordinates that its taps resolve to (R137). -/
def Axis.ok (a : Axis) : Bool :=
  inR a.k 1 16 && inR a.s 1 16 && inR a.d 1 16 && 1 ≤ a.n && 1 ≤ a.tn && 1 ≤ a.qn && a.t0 + a.tn ≤ a.n &&
  0 < a.out && (a.q0 + a.qn : Nat) ≤ a.out &&
  (List.range a.qn).all (fun q => (List.range a.k).all (fun t =>
    match a.at (a.q0 + q) t with
    | .pos x => a.t0 ≤ x && x < a.t0 + a.tn
    | _ => true))

/-- c_count -/
def gC (w : Nat) : Nat := fld w 239 224
/-- st_c -/
def gStC (w : Nat) : Nat := fld w 441 422
/-- st_y -/
def gStY (w : Nat) : Nat := fld w 461 442
/-- st_x -/
def gStX (w : Nat) : Nat := fld w 473 462
/-- src_addr -/
def gSrc (w : Nat) : Nat := fld w 421 400
/-- Highest element index of the tile (R131); the lowest is 0. -/
def gTop (w : Nat) : Nat := (gC w - 1) * gStC w + ((axisY w).tn - 1) * gStY w + ((axisX w).tn - 1) * gStX w

/-- The bytes that the source tile spans (R133). -/
def gSpan (w : Nat) (f : Fmt) (block : Bool) : Range :=
  if block then
    let a := (blockAt f (gSrc w)).line
    ⟨bit w 134, a, (blockAt f (gSrc w + 8 * (gTop w / 32))).line + 64 - a⟩
  else ⟨bit w 134, gSrc w, (gTop w + 1) * (f.bits / 8)⟩

/-- Two ranges share a byte. -/
def Range.meets (a b : Range) : Bool := a.canvas == b.canvas && overlaps a.off a.len b.off b.len

/-- Slices per row of the gesso (R138). -/
def gSlices (w : Nat) : Nat :=
  let t := (axisY w).k * (axisX w).k
  if bit w 133 then t * ceilDiv (gC w) 32 else gC w * ceilDiv t 32

/-- Output positions of the command. -/
def gRows (w : Nat) : Nat := (axisY w).qn * (axisX w).qn

/-- The bytes that the expansion writes, from the GESSO region's start `g` (R138). -/
def gDest (w g : Nat) (f : Fmt) (block : Bool) : Range :=
  let a := g + 64 * fld w 486 474
  let n := gRows w * gSlices w
  if block then ⟨false, a, 64 * ceilDiv n f.perLine⟩ else ⟨false, a, n * 32 * (f.bits / 8)⟩

/-- Fields shared by GESSO_EXPAND and POOL. -/
def convOk (w : Nat) : Bool :=
  1 ≤ gC w && 1 ≤ gStX w && (axisY w).ok && (axisX w).ok

/-- GESSO_EXPAND (R132 to R137). `g` is the start of the GESSO region. -/
def gessoOk (w g : Nat) : Bool :=
  match cFmt w 128 with
  | none => false
  | some f =>
    let blk := bit w 132
    bodyBits w [(134, 128), (173, 136), (486, 176)] &&
    (if blk then f == .int8 || f == .uint8 || f == .e4m3 || f == .e5m2 || f == .int4 || f == .uint4 || f == .e2m1
     else f == .int8 || f == .uint8 || f == .int16 || f == .uint16 || f == .fp16 || f == .bf16) &&
    fld w 223 208 < 2 ^ f.bits && mult (gSrc w) 8 && convOk w && !(gSpan w f blk).meets (gDest w g f blk)

/-- Destination of POOL (R143). -/
def poolDest (w : Nat) (f : Fmt) : Range := ⟨bit w 474, fld w 496 475, gC w * gRows w * (f.bits / 8)⟩

/-- POOL (R143). -/
def poolOk (w : Nat) : Bool :=
  match cFmt w 128 with
  | none => false
  | some f =>
    bodyBits w [(131, 128), (173, 133), (496, 176)] &&
    (f == .fp32 || f == .fp16 || f == .bf16 || f == .int16 || f == .uint16 || f == .int8 || f == .uint8) &&
    (if f.bits < 16 then fld w 223 208 < 2 ^ f.bits else true) && mult (gSrc w) 8 && convOk w &&
    mult (fld w 496 475) 8 && mult (gC w * (f.bits / 8)) 8 && !(gSpan w f false).meets (poolDest w f)

/-! ### ATTN_BLOCK (R151 to R155) -/

/-- phase -/
def aPhase (w : Nat) : Nat := fld w 131 128
/-- h_count -/
def aHeads (w : Nat) : Nat := fld w 142 140
/-- Head dimension D -/
def aDim (w : Nat) : Nat := 32 * fld w 147 144
/-- q_rows -/
def aRows (w : Nat) : Nat := fld w 159 152
/-- key_count -/
def aKeys (w : Nat) : Nat := fld w 168 160
/-- Byte width of a format code. -/
def fmtBytes (c : Nat) : Nat := match Fmt.ofCode c with | some f => f.bits / 8 | none => 0

/-- Regions of one operand, head by head. -/
def headRanges (w : Nat) (canvas : Bool) (addr stride len : Nat) : List Range := rowRanges canvas addr stride len (aHeads w)

/-- The operands of a phase, each with its heads' regions (R149, R152). -/
def attnOperands (w : Nat) : List (List Range) :=
  let q := fld w 223 192
  let k := fld w 255 224
  let v := fld w 287 256
  let o := fld w 319 288
  let st := fld w 351 320
  let qs := 64 * fld w 431 416
  let ks := 64 * fld w 447 432
  let os := 64 * fld w 463 448
  let d := aDim w
  let n := aRows w
  let b := fmtBytes (fld w 135 132)
  let bo := fmtBytes (fld w 151 148)
  let cv := bit w 139
  let stats := fun a => headRanges w false a 4096 (32 * n)
  match aPhase w with
  | 0 => [headRanges w false q qs (n * d * b), headRanges w cv k ks (aKeys w * d * b), headRanges w cv v ks (aKeys w * d * b),
          headRanges w false o os (n * d * 4), stats st, [⟨false, fld w 415 384, 1024 * n⟩]]
  | 1 => [headRanges w false q qs (n * d * bo), headRanges w false o os (n * d * 4), stats st]
  | 2 => [headRanges w false k os (n * d * 4), stats v, headRanges w false o os (n * d * 4), stats st]
  | 3 => [headRanges w false q qs (n * d * bo), headRanges w false k qs (n * d * b), stats st]
  | _ => [headRanges w false q qs (n * d * b), headRanges w cv k ks (aKeys w * d * b), headRanges w cv v ks (aKeys w * d * b),
          [⟨false, o, 64⟩], stats st, [⟨false, fld w 415 384, 2048 * n⟩]]

/-- No two ranges of a list share a byte. -/
def disjoint : List Range → Bool
  | [] => true
  | r :: rs => rs.all (fun x => !r.meets x) && disjoint rs

/-- ATTN_BLOCK (R151 to R153); `ok` tells the ranges that the command may access. -/
def attnOk (ok : Range → Bool) (w : Nat) : Bool :=
  let p := aPhase w
  let fb := p == 0 || p == 4
  let fo := fld w 151 148
  let zeroUnless := fun (c : Bool) (v : Nat) => c || v == 0
  bodyBits w [(142, 128), (168, 144), (495, 192)] && p ≤ 4 && (fld w 135 132 == 1 || fld w 135 132 == 2) &&
  (if fb then fld w 137 136 ≤ 2 else fld w 137 136 == 0) && (p == 0 || !bit w 138) && (fb || !bit w 139) &&
  inR (aHeads w) 1 4 && inR (fld w 147 144) 1 8 && (if p == 1 || p == 3 then fo ≤ 2 else fo == 0) &&
  inR (aRows w) 1 128 && (if fb then inR (aKeys w) 1 256 else aKeys w == 0) &&
  [223, 255, 287, 319, 351, 383].all (fun hi => mult (fld w hi (hi - 31)) 64) && mult (fld w 415 384) 1024 &&
  zeroUnless (fb && fld w 137 136 == 2) (fld w 383 352) && zeroUnless fb (fld w 415 384) &&
  zeroUnless (p != 2) (fld w 223 192) && zeroUnless (p != 1) (fld w 255 224) && zeroUnless (p != 1 && p != 3) (fld w 287 256) &&
  zeroUnless (p != 3) (fld w 319 288) &&
  (let c := ofF32 (fld w 495 464)
   fisFin c && !fisZero c && !fsign c) &&
  disjoint (attnOperands w).flatten && (attnOperands w).flatten.all ok

/-! ### CONVERT, ROTARY, vector commands, TALLY, DMA -/

/-- FP32, FP16 and BF16, the PLAIN side of a conversion (R110). -/
def isF (f : Fmt) : Bool := f == .fp32 || f == .fp16 || f == .bf16

/-- CONVERT (R119 to R121). No field tells whether an INT4 or UINT4 side is BLOCK or PLAIN (log 32). -/
def convertOk (w : Nat) : Bool :=
  match cFmt w 128, cFmt w 132 with
  | some a, some b =>
    let enc := isF a && !isF b
    let mode := fld w 137 136
    let fb := mode == 1
    let n := fld w 148 144
    bodyBits w [(141, 128), (148, 144), (175, 160), (423, 192), (479, 448)] && mode ≤ 2 &&
    ((enc && (b.blockOk || b == .int4 || b == .uint4)) || (isF b && !isF a && a.blockOk)) &&
    (enc || mode == 0) && (fb || !bit w 140) && (enc || !bit w 141) &&
    (if fb then n == 0 || inR n 2 16 else n == 0) && 1 ≤ fld w 175 160 && inR (fld w 223 192) 1 262144 &&
    mult (fld w 255 224) 8 && mult (fld w 287 256) 8 && mult (fld w 319 288) 8 && mult (fld w 351 320) 8 &&
    (if fb then mult (fld w 383 352) 256 else fld w 383 352 == 0) &&
    (if mode == 2 then
      let c := ofF32 (fld w 415 384)
      fisFin c && (!fsign c || fisZero c) &&
        (if b == .uint8 || b == .uint4 then fld w 423 416 ≤ b.qmax else fld w 423 416 == 0)
     else fld w 415 384 == 0 && fld w 423 416 == 0) &&
    (if bit w 141 then mult (fld w 479 448) 64 else fld w 479 448 == 0)
  | _, _ => false

/-- ROTARY (R163), but for the frequencies. -/
def rotaryOk (w : Nat) : Bool :=
  fld w 131 128 ≤ 2 && bodyBits w [(133, 128), (351, 144)] && 1 ≤ fld w 159 144 && inR (fld w 175 160) 1 256 &&
  mult (fld w 191 176) 2 && inR (fld w 191 176) 2 256 && mult (fld w 223 192) 8 && mult (fld w 255 224) 8 &&
  mult (fld w 287 256) 8 && fld w 319 288 + fld w 159 144 - 1 ≤ 1048575 && mult (fld w 351 320) 8

/-- A format that vector commands read and write (R83). -/
def vecFmt (c : Nat) : Bool :=
  match Fmt.ofCode c with
  | some f => f.plainOk && f != .int4 && f != .uint4
  | none => false

/-- Vector commands (R83 to R88): opcode 0x20 to 0x24. -/
def vecOk (w : Nat) : Bool :=
  let o := cOp w
  let op := fld w 131 128
  let two := o == 0x20 && op ≤ 4
  let aux := o == 0x23 || o == 0x24
  let tops := if o = 0x20 then 6 else if o = 0x21 then 13 else if o = 0x22 then 4 else if o = 0x23 then 1 else 0
  bodyBits w [(147, 128), (175, 160), (479, 192)] && op ≤ tops && vecFmt (fld w 135 132) && vecFmt (fld w 143 140) &&
  (if two then vecFmt (fld w 139 136) else fld w 139 136 == 0 && fld w 287 256 == 0) &&
  (o == 0x24 || !bit w 147) && 1 ≤ fld w 175 160 && inR (fld w 223 192) 1 262144 && mult (fld w 255 224) 8 &&
  mult (fld w 351 320) 8 && (aux || fld w 479 448 == 0) &&
  (o != 0x21 || op < 4 || (match cFmt w 132 with | some f => f.isFloat | none => false)) &&
  (o != 0x23 ||
    (let e := fld w 447 416
     inR (fld e 30 23) 1 254 && !bit e 31))

/-- TALLY (R66), with the checks of R33 and R35. -/
def tallyOk (e : Nat) (inPart : Nat → Bool) (w : Nat) : Bool :=
  let op := fld w 131 128
  let t := fld w 145 132
  bodyBits w [(145, 128), (175, 160)] && op ≤ 2 && (if op = 2 then inPart t else t / 256 == e)

/-- The command is accepted for easel `e` (R66); `g` is the start of its GESSO region. -/
def cmdOk (e g : Nat) (inPart : Nat → Bool) (ok : Range → Bool) (w : Nat) : Bool :=
  headerOk inPart w &&
  match cOp w with
  | 0x00 | 0x11 | 0x1F => bodyBits w []
  | 0x01 => matmulOk w
  | 0x02 => drainOk w
  | 0x03 => gessoOk w g
  | 0x04 => poolOk w
  | 0x05 => attnOk ok w
  | 0x06 => convertOk w
  | 0x07 => rotaryOk w
  | 0x10 => tallyOk e inPart w
  | 0x12 => bodyBits w [(159, 128)] && mult (fld w 159 128) 64
  | 0x20 | 0x21 | 0x22 | 0x23 | 0x24 => vecOk w
  | _ => false

end Sys2Proof.Machine
end

