-- ==== Sys2Proof/Machine/Fetch.lean ====
section
/-! DEFINITION. Machine/Fetch.lean: command queues: doorbells, fetching, and the run of one command with its header
operations (R61 to R67, R71). -/

namespace Sys2Proof.Machine

/-- A region of a kind in an easel's palette map: offset and size (R70). -/
def State.regionOf (s : State) (c e kind : Nat) : Option (Nat × Nat) :=
  match s.ctx? c with
  | none => none
  | some x => ((x.mapOf e).filterMap id |>.find? (fun r => r.kind == kind)).map (fun r => (r.offset, r.size))

/-- Start of the GESSO region, 0 where the map has none. -/
def State.gessoStart (s : State) (c e : Nat) : Nat := match s.regionOf c e 1 with | some r => r.1 | none => 0

/-- The command word at an offset of the COMMAND region; none where it would cross the region's end (R71). -/
def State.commandAt (s : State) (c e off : Nat) : Option Nat :=
  match s.regionOf c e 0 with
  | some (o, n) => if off + 64 ≤ n then some (leNat (s.palBytes e (o + off) 64)) else none
  | none => none

/-- The words fetched ahead of the one at `off` (R62). One that would cross the end of the COMMAND region is not fetched:
its error is raised when that command is taken up (R71, log 127). -/
def State.aheadOf (s : State) (c e off : Nat) : List Nat :=
  (List.range 4).filterMap (fun i => s.commandAt c e (off + 64 * (i + 1)))

/-- A word as the queue has it: where the word fetched ahead and memory differ, either (R92; log 33). -/
def State.staleOr (s : State) (old : Option Nat) (now : Nat) : State × Nat :=
  match old with
  | none => (s, now)
  | some w =>
    if w = now then (s, now)
    else
      let (b, s) := s.freeBit
      (s, if b then w else now)

/-- An error of a queue's command: its context is in error, and the queue goes no further (R66). -/
def State.badQueue (s : State) (c e q cause : Nat) : State :=
  (s.modQueue e q (fun x => { x with cmd := none, bad := true })).contained c cause

/-- The queue takes up the command at its offset; `old` is the word fetched ahead for it, if any. -/
def State.takeUp (s : State) (c e q : Nat) (old : Option Nat) : State :=
  let x := s.queue e q
  match s.commandAt c e x.next, s.regionOf c e 0 with
  | some w, some (o, _) =>
    (match s.readOk c e [⟨false, o + x.next, 64⟩] with
     | (s, false) => s.modQueue e q (fun x => { x with cmd := none, bad := true })
     | (s, true) =>
       let (s, w) := s.staleOr old w
       if cmdOk e (s.gessoStart c e) (s.tallyIn c) (s.rangeOk c e) w then
         s.modQueue e q (fun x => { x with cmd := some w, acquired := false, granted := false })
       else s.badQueue c e q 0x03)
  | _, _ => s.badQueue c e q 0x04

/-- The queue moves on to its next command. -/
def State.advance (s : State) (c e q : Nat) : State :=
  let x := s.queue e q
  let s := s.modQueue e q (fun x => { x with next := x.next + 64, cmd := none, wait := none })
  let s := s.takeUp c e q x.ahead.head?
  let y := s.queue e q
  let last := (s.commandAt c e (y.next + 256)).toList
  let ahead := if x.ahead.isEmpty then s.aheadOf c e y.next else x.ahead.drop 1 ++ last
  s.modQueue e q (fun y => { y with ahead := ahead })

/-- The doorbell of a queue (R62, R92): an IDLE queue starts at the offset; another, a FAULTED one too, ignores it and
reports an error. -/
def State.ring1 (s : State) (e q off : Nat) : State :=
  let x := s.queue e q
  match s.easelCtx e with
  | none => s
  | some c =>
    match x.run with
    | .idle =>
      let s := s.modQueue e q (fun _ => { run := .running, next := off })
      let s := s.modQueue e q (fun y => { y with ahead := s.aheadOf c e off })
      s.takeUp c e q none
    | _ => s.setFab { s.fab with reports := s.fab.reports ++ [.doorbellError e q] }

/-- Firmware rings the entry points of an event (R311); the queues started are the event's work. -/
def State.ringEvent (s : State) (c ev : Nat) : State × List Nat :=
  match s.ctx? c with
  | none => (s, [])
  | some x =>
    match x.variant, x.part with
    | some v, some p =>
      (v.entries.filter (fun n => n.event == ev)).foldl (fun (r : State × List Nat) n =>
        match p.easels[n.pos]? with
        | some e => (r.1.ring1 e n.queue n.start, r.2 ++ [e * 16 + n.queue])
        | none => r) (s, [])
    | _, _ => (s, [])

/-- Units that an opcode holds while it runs (R61): 0 matrix, 1 drain, 2 vector, 3 gesso, 4 DMA port; ATTN_BLOCK holds
the matrix and the vector unit together. -/
def unitsOf (op : Nat) : List Nat :=
  if op = 0x01 then [0] else if op = 0x05 then [0, 2] else if op = 0x02 then [1] else if op = 0x03 then [3]
  else if op = 0x12 then [4] else if op = 0x04 || op = 0x06 || op = 0x07 || 0x20 ≤ op then [2] else []

/-- A queue has a command that is ready for a unit (R61): it runs, waits for nothing, and its header acquire is done. -/
def CmdQueue.readyFor (x : CmdQueue) (u : Nat) : Bool :=
  x.run == .running && x.wait.isNone && !x.bad &&
  match x.cmd with
  | some w => (x.acquired || !cAcq w) && (unitsOf (cOp w)).contains u
  | none => false

/-- Place of queue `q` in the round of a unit that served queue `last` before (R61). -/
def turnOf (last q : Nat) : Nat := (q + 15 - last) % 16

/-- Queue `q` comes first in a unit's round among the queues that ask for it. Before a unit has served any queue, its round
starts at queue 0 (log 113). -/
def State.firstAmong (s : State) (e q u : Nat) (asks : Nat → Bool) : Bool :=
  let last := tabGet 15 s.fab.lastServed (e * 8 + u)
  (List.range 16).all (fun k => k == q || decide (turnOf last q < turnOf last k) || !asks k)

/-- A queue asks for a unit: it is ready for it, and an ATTN_BLOCK asks for the vector unit only once the matrix unit's
round has come to it, so that two of them never wait for each other (R61, log 113). -/
def State.asksFor (s : State) (e u q : Nat) : Bool :=
  (s.queue e q).readyFor u &&
    (u != 2 || !(s.queue e q).readyFor 0 || s.firstAmong e q 0 (fun k => (s.queue e k).readyFor 0))

/-- Queue `q` is the first in a unit's round among the queues that ask for it (R61, R92). -/
def State.firstFor (s : State) (e q u : Nat) : Bool := s.firstAmong e q u (s.asksFor e u)

/-- Every unit that a command needs takes it now (R61): it is its queue's turn. -/
def State.turn (s : State) (e q w : Nat) : Bool := (unitsOf (cOp w)).all (s.firstFor e q)

/-- A command meets an internal register of the vector unit with wrong parity (R90). No rule says which registers a command
reads; each command of the unit is taken to read all of them (log 145). -/
def State.vecBad (s : State) (e w : Nat) : Bool := (unitsOf (cOp w)).contains 2 && s.fab.vecParity.contains e

/-- The units of a command note its queue as the one served last (R61). -/
def State.serve (s : State) (e q w : Nat) : State :=
  s.setFab { s.fab with
    lastServed := (unitsOf (cOp w)).foldl (fun t u => tabPut t (e * 8 + u) q) s.fab.lastServed }

/-- The first queue, in key order, whose wait on its own command has ended. -/
def firstGranted (t : Tab CmdQueue) : Option Nat := (t.find? (fun x => x.2.granted)).map Prod.fst

/-- Complete the TALLY and BARRIER_ARRIVE commands whose waits have ended: each performs its header release, which may
end further waits, and its queue goes on (R37, R42, R65). The fuel bounds the number of queues. -/
def State.settleWaits (s : State) : Nat → State
  | 0 => s
  | n + 1 =>
    match firstGranted s.fab.queue with
    | none => s
    | some k =>
      let e := k / 16
      let q := k % 16
      let w := ((s.queue e q).cmd).getD 0
      let s := s.modQueue e q (fun x => { x with granted := false })
      let s := if cRel w then s.tallyAdd (cRelTally w) (cRelN w) else s
      let s := match s.easelCtx e with
        | some c => if (s.queue e q).run = QRun.running then s.advance c e q else s
        | none => s
      s.settleWaits n

/-- Complete every command whose wait has ended. -/
def State.settleAll (s : State) : State := s.settleWaits (s.fab.queue.length + 1)

/-- Run the command that a queue has taken up, if it is one that `sel` selects (R62, R63, R65): its header acquire
first, then its body, then its header release, and the queue goes on. -/
def State.runCommand (s : State) (e q : Nat) (sel : Nat → Bool) (body : Nat → Nat → State → State × BodyEnd) : State :=
  match s.easelCtx e with
  | none => s
  | some c =>
    let x := s.queue e q
    match x.cmd with
    | none => s
    | some w =>
      if !s.works || 16 ≤ q || x.run != .running || x.wait.isSome || x.bad || !sel w || s.fab.stop.contains e then s
      else
        let s := s.leaveIdle
        let s := if x.acquired then s
          else if cAcq w then s.waitTally e q (e * 256 + cAcqTally w) (cAcqN w) true
          else s.modQueue e q (fun x => { x with acquired := true })
        if (s.queue e q).wait.isSome || !s.turn e q w then s
        else if s.vecBad e w then s.badQueue c e q 0x02
        else
          let s := s.serve e q w
          match body c w s with
          | (s, .done) =>
            let s := if cRel w then s.tallyAdd (cRelTally w) (cRelN w) else s
            (if (s.queue e q).run = .running then s.advance c e q else s).settleAll
          | (s, .format) => s.badQueue c e q 0x03
          | (s, .fault k) => s.badQueue c e q k
          | (s, .dropped) => s.modQueue e q (fun x => { x with cmd := none, bad := true })
          | (s, .block) => s

/-- A vector or matrix command's selection: opcode, and op or phase field. -/
def selOp (op : Nat) : Nat → Bool := fun w => cOp w == op
/-- The same, with the op in bits [131:128]. -/
def selOp2 (op sub : Nat) : Nat → Bool := fun w => cOp w == op && fld w 131 128 == sub

end Sys2Proof.Machine
end

