-- ==== Sys2Proof/Machine/Matrix.lean ====
section
/-! DEFINITION. Machine/Matrix.lean: the matrix unit, its accumulators and drain, and the glaze path (R72 to R81, R90,
R123 to R128). -/

namespace Sys2Proof.Machine

/-! ### The glaze operand (R125, R126) -/

/-- A glaze operand: activation and weight matrices with their strides, and the listed contraction indices. -/
structure Glaze where
  act : Nat
  actStride : Nat
  wt : Nat
  wtStride : Nat
  list : List Nat
  deriving DecidableEq, Repr

/-- glaze_channels of a header. -/
def glazeN (h : Nat) : Nat := fld h 15 0

/-- The header of a glaze operand over `limit` contraction channels (R125). -/
def glazeHdrOk (h limit : Nat) : Bool :=
  onlyBits h [(15, 0), (159, 32)] && inR (glazeN h) 1 (32 * ceilDiv limit 1024) && mult (fld h 63 32) 8 &&
  mult (fld h 95 64) 8 && mult (fld h 127 96) 64 && mult (fld h 159 128) 64

/-- Bytes of an index list of `n` entries, with its padding. -/
def glazeListLen (n : Nat) : Nat := 8 * ceilDiv n 2

/-- The entries of an index list. -/
def glazeList (n : Nat) (b : Bytes) : List Nat := (List.range n).map (fun i => leAt b (4 * i) 4)

/-- Strictly rising numbers. -/
def rising : List Nat → Bool
  | [] => true
  | [_] => true
  | x :: y :: r => decide (x < y) && rising (y :: r)

/-- The index list of a glaze operand (R126). -/
def glazeListOk (n limit : Nat) (b : Bytes) : Bool :=
  let l := glazeList n b
  rising l && l.all (fun i => decide (i < limit)) && leAt b (4 * n) (glazeListLen n - 4 * n) == 0 &&
  (List.range (ceilDiv limit 1024)).all (fun g => countIf (fun i => i / 1024 == g) l ≤ 32)

/-- Read and check a glaze operand, then go on with it. -/
def State.withGlaze (s : State) (c e addr limit : Nat) (k : Glaze → State → State × BodyEnd) : State × BodyEnd :=
  s.withRanges c e [⟨false, addr, 64⟩] [] (fun s =>
    let h := leNat (s.palBytes e addr 64)
    let n := glazeN h
    if glazeHdrOk h limit then
      s.withRanges c e [⟨false, addr + 64, glazeListLen n⟩] [] (fun s =>
        let b := s.palBytes e (addr + 64) (glazeListLen n)
        if glazeListOk n limit b then
          k { act := fld h 63 32, actStride := fld h 95 64, wt := fld h 127 96, wtStride := fld h 159 128,
              list := glazeList n b } s
        else (s, .format))
    else (s, .format))

/-! ### Accumulators (R76, R77, R90) -/

/-- Key of an accumulator entry. -/
def accKey (e bank row j : Nat) : Nat := ((e * 2 + bank) * 256 + row) * 32 + j

/-- An accumulator entry's code. -/
def State.accAt (s : State) (e bank row j : Nat) : Nat := tabGet 0 s.fab.acc (accKey e bank row j)

/-- Write an accumulator entry; its parity is right again. -/
def State.accPut (s : State) (e bank row j v : Nat) : State :=
  let k := accKey e bank row j
  s.setFab { s.fab with acc := tabSet 0 s.fab.acc k v, accParity := s.fab.accParity.filter (fun x => x != k) }

/-- The type a row was last written with: 0 none, 1 INT32, 2 FP32 (R76). -/
def State.rowKind (s : State) (e bank row : Nat) : Nat := tabGet 0 s.fab.accKind ((e * 2 + bank) * 256 + row)

/-- Set the type of a row. -/
def State.setRowKind (s : State) (e bank row k : Nat) : State :=
  s.setFab { s.fab with accKind := tabSet 0 s.fab.accKind ((e * 2 + bank) * 256 + row) k }

/-- An entry of a block of accumulator rows has wrong parity (R90). -/
def State.accBad (s : State) (e bank row0 rows cols : Nat) : Bool :=
  s.fab.accParity.any (fun k =>
    accKey e bank row0 0 ≤ k && k < accKey e bank (row0 + rows) 0 && k % 32 < cols)

/-- A row that is left unspecified (R76): every entry of it is a free value. -/
def State.freeAccRow (s : State) (e bank row : Nat) : State :=
  (List.range 32).foldl (fun (s : State) j =>
    let (v, s) := s.freeNat
    s.accPut e bank row j (v % 2 ^ 32)) s

/-! ### MATMUL (R73 to R79, R123, R127, R128) -/

/-- A matrix operand: format, layout, first address or handle. -/
structure MatOp where
  fmt : Fmt
  block : Bool
  deriving DecidableEq, Repr

/-- Where 32 elements of an operand lie. -/
def MatOp.range (o : MatOp) (addr : Nat) : Range :=
  if o.block then blockLine false o.fmt addr else ⟨false, addr, plainLen o.fmt 32⟩

/-- The 32 element values of a slice, less their zero point, and its block scale (R78, R98, R103, R123). -/
def State.matSlice (s : State) (e : Nat) (o : MatOp) (addr : Nat) : List FV × FV :=
  if o.block then
    let b := s.blockAt e false o.fmt addr
    (b.codes.map (fun (c : Nat) => if o.fmt == .uint8 || o.fmt == .uint4 then ofInt ((c : Int) - b.zp) else codeValue o.fmt c),
     if b.noValue then .nan else decFloat .bf16 b.scale)
  else
    ((s.plainRow e false o.fmt addr 32).map (fun x => match x with | .i z => ofInt z | .f v => v), .fin false 1 0)

/-- The integer that an exact integer value is. -/
def fvInt : FV → Int
  | .fin neg m e => signed neg (m <<< e.toNat)
  | _ => 0

/-- Products of two slices. -/
def prods (a b : List FV) : List FV := List.zipWith fmul a b

/-- The slice sum (R78): in the field of the FP16 class, exact otherwise. R78 names the 4-bit and 8-bit classes as exact; an
INT16-class pair with an FP32 accumulator is taken as exact too (log 123). -/
def sliceSum (cls : Nat) (a b : List FV) : FV := if cls = 2 then fieldSum (prods a b) else exactSum (prods a b)

/-- An operand has zero points: its slice sum is exact against any B operand (R123). -/
def MatOp.zeroed (o : MatOp) : Bool := o.block && (o.fmt == .uint8 || o.fmt == .uint4)

/-- INT32 accumulation (R77): slice sums in ascending order; once the entry has left the range it stays at the bound. -/
def accInts (start : Int) (sums : List Int) : Int × Bool :=
  sums.foldl (fun (x : Int × Bool) t => if x.2 then x else clampInt Fmt.int32.lo Fmt.int32.hi (x.1 + t)) (start, false)

/-- A glaze sum beyond the FP32 range is an infinity (R128, R79). -/
def glazeCut (v : FV) : FV := match r32 v with | .inf n => .inf n | _ => v

/-- FP32 accumulation (R78, R128): for each slice its sum, the product of its scales, and the glaze sum that merges. -/
def accFloats (start : FV) (l : List (FV × FV × Option FV)) : FV :=
  l.foldl (fun acc x =>
    let v := fmul x.1 x.2.1
    r32 (fadd acc (r32 (match x.2.2 with | some g => fadd v (glazeCut g) | none => v)))) start

/-- Contraction index `32·t + i` is listed, so element i of slice t stands for zero (R127). -/
def maskListed (l : List Nat) (t : Nat) (a : List FV) : List FV :=
  (List.range a.length).map (fun i => if l.contains (32 * t + i) then fzero else a.getD i fzero)

/-- The glaze sum of group `g` for A row `r` and column `j` (R127); none where the group lists no channel. -/
def State.glazeSum (s : State) (e : Nat) (z : Glaze) (g r j : Nat) : Option FV :=
  let idx := (List.range z.list.length).filter (fun i => z.list.getD i 0 / 1024 == g)
  if idx.isEmpty then none
  else some (fieldSum (idx.map (fun i =>
    fmul (decFloat .bf16 (leNat (s.palBytes e (z.act + z.actStride * r + 2 * i) 2)))
      (decFloat .bf16 (leNat (s.palBytes e (z.wt + z.wtStride * i + 2 * j) 2))))))

/-- Fields of a MATMUL body. -/
def mmCols (w : Nat) : Nat := fld w 151 144
/-- m_rows -/
def mmRows (w : Nat) : Nat := fld w 175 160
/-- acc_row0 -/
def mmRow0 (w : Nat) : Nat := fld w 183 176
/-- k_slices -/
def mmK (w : Nat) : Nat := fld w 207 192
/-- Address or handle of slice t of A row r. -/
def mmA (w r t : Nat) : Nat := fld w 255 224 + fld w 287 256 * r + fld w 319 288 * t
/-- Address or handle of slice t of column j. -/
def mmB (w j t : Nat) : Nat := fld w 351 320 + fld w 383 352 * t + fld w 415 384 * j
/-- acc_bank -/
def mmBank (w : Nat) : Nat := fld w 138 138
/-- The A operand. -/
def mmOpA (w : Nat) : MatOp := ⟨(cFmt w 128).getD .int8, bit w 136⟩
/-- The B operand. -/
def mmOpB (w : Nat) : MatOp := ⟨(cFmt w 132).getD .int8, bit w 137⟩

/-- Bytes that a MATMUL reads. -/
def mmReads (w : Nat) (z : Option Glaze) : List Range :=
  (List.range (mmRows w)).flatMap (fun r => (List.range (mmK w)).map (fun t => (mmOpA w).range (mmA w r t))) ++
  (List.range (mmCols w)).flatMap (fun j => (List.range (mmK w)).map (fun t => (mmOpB w).range (mmB w j t))) ++
  (match z with
   | some z => rowRanges false z.act z.actStride (2 * z.list.length) (mmRows w) ++
      rowRanges false z.wt z.wtStride (2 * mmCols w) z.list.length
   | none => [])

/-- The glaze sum that merges at slice t: of the group whose last slice of the command it is (R128). -/
def State.mergeAt (s : State) (e w : Nat) (z : Option Glaze) (r j t : Nat) : Option FV :=
  match z with
  | none => none
  | some z => if t = min (32 * (t / 32) + 31) (mmK w - 1) then s.glazeSum e z (t / 32) r j else none

/-- The new value of one accumulator entry, and whether it saturated (R77, R78). -/
def State.mmEntry (s : State) (e w : Nat) (z : Option Glaze) (r j : Nat) : Nat × Bool :=
  let old := if bit w 139 then 0 else s.accAt e (mmBank w) (mmRow0 w + r) j
  let a := fun t => s.matSlice e (mmOpA w) (mmA w r t)
  let b := fun t => s.matSlice e (mmOpB w) (mmB w j t)
  if accInt w then
    let (v, sat) := accInts (sext 32 old) ((List.range (mmK w)).map (fun t => fvInt (exactSum (prods (a t).1 (b t).1))))
    (twos 32 v, sat)
  else
    let cls := if (mmOpA w).zeroed then 1 else (opClass (mmOpA w).fmt (mmOpB w).fmt).getD 2
    let l := (List.range (mmK w)).map (fun t =>
      let av := match z with | some z => maskListed z.list t (a t).1 | none => (a t).1
      (sliceSum cls av (b t).1, fmul (a t).2 (b t).2, s.mergeAt e w z r j t))
    (toF32 (accFloats (ofF32 old) l), false)

/-- The type MATMUL accumulates in: 1 INT32, 2 FP32 (R76). -/
def mmKind (w : Nat) : Nat := if accInt w then 1 else 2

/-- Row r holds the other type, so an adding MATMUL leaves it unspecified (R76). -/
def State.mmMixed (s : State) (e w r : Nat) : Bool :=
  let k := s.rowKind e (mmBank w) (mmRow0 w + r)
  !bit w 139 && k != 0 && k != mmKind w

/-- The effect of MATMUL on one accumulator row; `s0` is the state whose operands it reads. -/
def State.mmRow (s0 : State) (c e w : Nat) (z : Option Glaze) (s : State) (r : Nat) : State :=
  let row := mmRow0 w + r
  let s :=
    if s0.mmMixed e w r then s.freeAccRow e (mmBank w) row
    else
      (List.range (mmCols w)).foldl (fun (s : State) j =>
        let (v, sat) := s0.mmEntry e w z r j
        let s := s.accPut e (mmBank w) row j v
        if sat then s.count c 0 1 else s) s
  s.setRowKind e (mmBank w) row (mmKind w)

/-- MATMUL with its operands checked. -/
def State.mmRun (s : State) (c e w : Nat) (z : Option Glaze) : State × BodyEnd :=
  s.withRanges c e (mmReads w z) [] (fun s =>
    if !bit w 139 && s.accBad e (mmBank w) (mmRow0 w) (mmRows w) (mmCols w) then (s, .fault 0x02)
    else ((List.range (mmRows w)).foldl (fun s1 r => s.mmRow c e w z s1 r) s, .done))

/-- The body of MATMUL. -/
def State.matmul (s : State) (c e w : Nat) : State × BodyEnd :=
  if bit w 140 then s.withGlaze c e (fld w 447 416) (32 * mmK w) (fun z s => s.mmRun c e w (some z))
  else s.mmRun c e w none

/-- MATMUL (R74). -/
def execMatmul (e q : Nat) (s : State) : Result :=
  .next (s.runCommand e q (selOp 0x01) (fun c w s => s.matmul c e w))

/-! ### ACC_DRAIN (R81) -/

/-- Bytes of one output row of ACC_DRAIN. -/
def drLen (w : Nat) : Nat := plainLen ((cFmt w 128).getD .fp32) (mmCols w)

/-- One drained entry. -/
def drainEntry (w code kind : Nat) (bias : FV) : Lane :=
  let out := (cFmt w 128).getD .fp32
  if kind = 1 && out == .int32 then
    let z := sext 32 code
    .i (if bit w 134 && z < 0 then 0 else z)
  else
    let v := if kind = 1 then r32 (ofInt (sext 32 code)) else ofF32 code
    let y := r32 (fadd (fmul v (ofF32 (fld w 319 288))) bias)
    .f (if bit w 134 then frelu y else y)

/-- The effect of ACC_DRAIN on one row. -/
def State.drainRow (s : State) (c e w r : Nat) : State :=
  let bank := fld w 132 132
  let row := mmRow0 w + r
  let kind := s.rowKind e bank row
  let l := (List.range (mmCols w)).map (fun j =>
    drainEntry w (s.accAt e bank row j) kind (if bit w 133 then s.palF32 e (fld w 287 256 + 4 * j) else fzero))
  let (b, sat) := encRow ((cFmt w 128).getD .fp32) l
  let s := (s.spPut e (bit w 136) (fld w 223 192 + fld w 255 224 * r) b).countSat c sat
  if bit w 135 then (List.range (mmCols w)).foldl (fun (s : State) j => s.accPut e bank row j 0) s else s

/-- The body of ACC_DRAIN. Where its rows differ in type, one INT32 row suffices for the check of an INT32 output, and a row
that was never written counts as FP32 (log 143). -/
def State.drain (s : State) (c e w : Nat) : State × BodyEnd :=
  let bank := fld w 132 132
  let rows := (List.range (mmRows w))
  let asIs := (cFmt w 128) == some .int32 && rows.any (fun r => s.rowKind e bank (mmRow0 w + r) == 1)
  if asIs && (bit w 133 || fld w 319 288 != 0x3F800000) then (s, .format)
  else
    s.withRanges c e (if bit w 133 then [⟨false, fld w 287 256, 4 * mmCols w⟩] else [])
      (rowRanges (bit w 136) (fld w 223 192) (fld w 255 224) (drLen w) (mmRows w)) (fun s =>
        if s.accBad e bank (mmRow0 w) (mmRows w) (mmCols w) then (s, .fault 0x02)
        else (rows.foldl (fun s r => s.drainRow c e w r) s, .done))

/-- ACC_DRAIN (R81). -/
def execAccDrain (e q : Nat) (s : State) : Result :=
  .next (s.runCommand e q (selOp 0x02) (fun c w s => s.drain c e w))

end Sys2Proof.Machine
end

