-- ==== Sys2Proof/Machine/Sfu.lean ====
section
/-! DEFINITION. Machine/Sfu.lean: the special functions (R85) and the sine and cosine of ROTARY (R164). For each the
exact value is computed to far more bits than FP32 holds and rounded to FP32; what the unit gives is a free value within
the stated bound of it (Config.sfu, Config.sincos; log 10). -/

namespace Sys2Proof.Machine

/-- Fraction bits of the fixed-point numbers of this file. -/
def sfuW : Nat := 256

/-- ln 2 in fixed point. -/
def ln2Fix : Nat := 0xb17217f7d1cf79abc9e3b39803f2f6af40f343267298b62d8a0d175b8baafa2b

/-- 2π as a 128-bit constant (R164): 3 integer bits and 125 fraction bits (log 10). -/
def twoPi128 : Nat := 0x6487ed5110b4611a62633145c06e0e68948127044533e63a0105df531d89cd912 / 2 ^ 131

/-- The series of exp: adds g^k/k! from k on, `t` being the last term. -/
def expSer (g : Nat) : Nat → Nat → Nat → Nat → Nat
  | 0, _, _, acc => acc
  | n + 1, k, t, acc => let t' := t * g / (k * 2 ^ sfuW); expSer g n (k + 1) t' (acc + t')

/-- 2^t for a fixed-point t: exponent and mantissa in [1, 2) in fixed point. -/
def exp2Fix (t : Int) : Int × Nat :=
  let i := t / ((2 ^ sfuW : Nat) : Int)
  let f := (t % ((2 ^ sfuW : Nat) : Int)).toNat
  let g := f * ln2Fix / 2 ^ sfuW
  (i, expSer g 64 1 (2 ^ sfuW) (2 ^ sfuW))

/-- The series of atanh: `p` is z^(2k+1). -/
def atanhSer (z2 : Nat) : Nat → Nat → Nat → Nat → Nat
  | 0, _, _, acc => acc
  | n + 1, k, p, acc => atanhSer z2 n (k + 1) (p * z2 / 2 ^ sfuW) (acc + p / (2 * k + 1))

/-- ln(n / d) in fixed point for n / d in [1, 2). -/
def lnFix (n d : Nat) : Nat :=
  let z := (n - d) * 2 ^ sfuW / (n + d)
  2 * atanhSer (z * z / 2 ^ sfuW) 90 0 z 0

/-- A finite value in fixed point, cut toward zero. -/
def toFix (v : FV) : Int :=
  match v with
  | .fin neg m e => let (n, d) := scaleUp m 1 (e + sfuW); signed neg (n / d)
  | _ => 0

/-- Integer square root by bits: `b` is the bit tried. -/
def isqrtGo (x : Nat) : Nat → Nat → Nat
  | 0, r => r
  | b + 1, r => let c := r + 2 ^ b; isqrtGo x b (if c * c ≤ x then c else r)

/-- The largest r with r·r ≤ x. -/
def isqrt (x : Nat) : Nat := isqrtGo x (Nat.log2 x / 2 + 1) 0

/-- The square root of n / d with a sticky last bit, as a fraction over 2^200. -/
def sqrtFrac (n d : Nat) : Nat × Nat :=
  let x := n * 2 ^ 398 / d
  let r := isqrt x
  (2 * r + (if r * r = x && n * 2 ^ 398 % d == 0 then 0 else 1), 2 ^ 200)

/-- A fraction of 2^i·m/2^W. -/
def fixFrac (i : Int) (m : Nat) : Nat × Nat := scaleUp m 1 (i - sfuW)

/-- e^x in fixed point exponent and mantissa, |x| ≤ 2^9. -/
def expFix (x : Int) : Int × Nat := exp2Fix (x * (2 ^ sfuW : Nat) / ln2Fix)

/-- 1 / (1 + e^−x) as a fraction, for a fixed-point x cut to |x| ≤ 400. -/
def sigFrac (x : Int) : Nat × Nat :=
  let lim : Int := 400 * (2 ^ sfuW : Nat)
  let y := max (-lim) (min lim x)
  let (i, m) := expFix y
  let (n, d) := fixFrac i m
  (n, n + d)

/-- The special functions, with the codes of VEC_UNARY (R84). EXP is EXP2 of a product. -/
inductive SfuFn where
  | exp2 | log2 | recip | rsqrt | sqrt | tanh | sigmoid | gelu | silu
  deriving DecidableEq, Repr

/-- A number for each function (used only to name it to Config.sfu). -/
def SfuFn.num : SfuFn → Nat
  | .exp2 => 4 | .log2 => 6 | .recip => 7 | .rsqrt => 8 | .sqrt => 9 | .tanh => 10 | .sigmoid => 11 | .gelu => 12 | .silu => 13

/-- Multiply a finite value with a fraction and round to FP32. -/
def mulFrac (neg : Bool) (m : Nat) (e : Int) (f : Nat × Nat) : Nat :=
  let (n, d) := magFrac m e
  fracF32 neg (n * f.1) (d * f.2)

/-- 0.7978846 · (x + 0.044715 · x³), doubled, in fixed point (R85: GELU_TANH). -/
def geluArg (v : FV) : Int :=
  match v with
  | .fin neg m e =>
    let (n, d) := magFrac m e
    -- 2 * 7978846/10^7 * (n/d) * (1 + 44715/10^6 * n²/d²)
    let num := 2 * 7978846 * n * (1000000 * d * d + 44715 * n * n)
    let den := 10000000 * 1000000 * d * d * d
    signed neg (num * 2 ^ sfuW / den)
  | _ => 0

/-- The exact value of a function at a finite argument within its domain, rounded to FP32 (R85). -/
def sfuExact (fn : SfuFn) (v : FV) : Nat :=
  match v with
  | .fin neg m e =>
    let (n, d) := magFrac m e
    (match fn with
    | .exp2 => let (i, x) := exp2Fix (toFix v); let (a, b) := fixFrac i x; fracF32 false a b
    | .log2 =>
      let l := floorLog n d
      let (a, b) := scaleUp n d (-l)
      let z : Int := l * (2 ^ sfuW : Nat) + ((lnFix a b * 2 ^ sfuW / ln2Fix : Nat) : Int)
      fracF32 (z < 0) z.natAbs (2 ^ sfuW)
    | .recip => fracF32 neg d n
    | .rsqrt => let (a, b) := sqrtFrac d n; fracF32 false a b
    | .sqrt => let (a, b) := sqrtFrac n d; fracF32 false a b
    | .tanh =>
      let lim : Int := 200 * (2 ^ sfuW : Nat)
      let y := min lim ((toFix (fabs v)) * 2)
      let (i, x) := expFix y
      let (a, b) := fixFrac i x
      fracF32 neg (a - b) (a + b)
    | .sigmoid => let (a, b) := sigFrac (toFix v); fracF32 false a b
    | .gelu => mulFrac neg m e (sigFrac (geluArg v))
    | .silu => mulFrac neg m e (sigFrac (toFix v)))
  | _ => 0

/-- The special inputs of R85, and the exact results that R157 states for EXP2 of a zero and RECIP of a power of two: the
result there, or none for an input whose result has an error bound. -/
def sfuSpecial (fn : SfuFn) (v : FV) : Option FV :=
  match v with
  | .nan => some .nan
  | .inf neg =>
    (match fn with
    | .exp2 => some (if neg then fzero else .inf false)
    | .log2 => some (if neg then .nan else .inf false)
    | .recip => some (.fin neg 0 0)
    | .rsqrt => some (if neg then .nan else fzero)
    | .sqrt => some (if neg then .nan else .inf false)
    | .tanh => some (.fin neg 1 0)
    | .sigmoid => some (if neg then fzero else .fin false 1 0)
    | .gelu | .silu => some (if neg then fzero else .inf false))
  | .fin neg m e =>
    (match fn with
    | .exp2 =>
      if flt v (.fin true 149 0) then some fzero
      else if !flt v (.fin false 128 0) then some (.inf false)
      else if m = 0 then some (.fin false 1 0) else none
    | .log2 => if m = 0 then some (.inf true) else if neg then some .nan else none
    | .recip => if m = 0 then some (.inf neg) else if m = 2 ^ Nat.log2 m then some (r32 (.fin neg 1 (-(e + Nat.log2 m)))) else none
    | .rsqrt => if m = 0 then some (.inf neg) else if neg then some .nan else none
    | .sqrt => if m = 0 then some v else if neg then some .nan else none
    | _ => none)

/-- One ulp of an FP32 code's binade. -/
def ulp32 (c : Nat) : FV := .fin false 1 (((max 1 (fld c 30 23) : Nat) : Int) - 150)

/-- |a − b| ≤ x for finite values. -/
def fwithin (a b x : FV) : Bool := !flt x (fabs (fsub a b))

/-- R85's bound: does code `c` lie within it of the exact result `y`, for argument v? -/
def sfuOk (fn : SfuFn) (v : FV) (y c : Nat) : Bool :=
  let yv := ofF32 y
  let cv := ofF32 c
  let ulps (k : Nat) : FV := fmul (.fin false k 0) (ulp32 y)
  c < 2 ^ 32 && fisFin yv && fisFin cv &&
    (match fn with
    | .exp2 => fwithin yv cv (ulps 2)
    | .log2 => fwithin yv cv (ulps 2) ||
        (!flt v (.fin false 1 (-1)) && !flt (.fin false 2 0) v && fwithin yv cv (.fin false 1 (-22)))
    | .recip | .sqrt => fwithin yv cv (ulps 1)
    | .rsqrt => fwithin yv cv (ulps 2)
    | .tanh | .sigmoid => fwithin yv cv (ulps 4) || fwithin yv cv (.fin false 1 (-23))
    | .gelu | .silu => fwithin yv cv (ulps 4) || fwithin yv cv (.fin false 1 (-22)))

/-- A value within the bound of the exact result: the free one where it lies within it. -/
def sfuPick (fn : SfuFn) (num : Nat) (v : FV) (y : Nat) : FV :=
  let c := Config.sfu num (toF32 v)
  ofF32 (if sfuOk fn v y c then c else y)

/-- A special function of an FP32 value (R85). -/
def sfu (fn : SfuFn) (v : FV) : FV :=
  match sfuSpecial fn v with
  | some r => r
  | none => sfuPick fn fn.num v (sfuExact fn v)

/-- EXP: EXP2 of x times 0x3FB8_AA3B, the product rounded to FP32 (R85). -/
def sfuExp (v : FV) : FV := sfu .exp2 (r32 (fmul v (ofF32 0x3FB8AA3B)))

/-- The series of sine (from k = 1) and cosine (from k = 0) in steps of two, alternating in sign. -/
def trigSer (r : Nat) : Nat → Nat → Nat → Bool → Int → Int
  | 0, _, _, _, acc => acc
  | n + 1, k, t, neg, acc =>
    let t' := t * r / 2 ^ sfuW * r / 2 ^ sfuW / ((k + 1) * (k + 2))
    trigSer r n (k + 2) t' (!neg) (acc + signed (!neg) t')

/-- n·f reduced modulo 2π, in fixed point (R164). -/
def anglePhase (n : Nat) (f : FV) : Nat :=
  match f with
  | .fin _ m e =>
    let (a, b) := scaleUp (n * m) 1 (e + sfuW)
    (a / b) % (twoPi128 * 2 ^ (sfuW - 125))
  | _ => 0

/-- Cosine (fn 0) or sine (fn 1) of the angle n·f, within 2^−22 of the exact value (R164). -/
def trig (fn : Nat) (n : Nat) (f : FV) : FV :=
  let r := anglePhase n f
  let z : Int := if fn = 0 then trigSer r 60 0 (2 ^ sfuW) false (2 ^ sfuW : Nat) else trigSer r 60 1 r false r
  let exact : FV := .fin (z < 0) z.natAbs (-(sfuW : Int))
  let c := Config.sincos fn (n * 2 ^ 32 + toF32 f)
  let cv := ofF32 c
  if c < 2 ^ 32 && fisFin cv && fwithin cv exact (.fin false 1 (-22)) then cv
  else ofF32 (fracF32 (z < 0) z.natAbs (2 ^ sfuW))

end Sys2Proof.Machine
end

