-- ==== Sys2Proof/Machine/Ring.lean ====
section
/-! DEFINITION. Machine/Ring.lean: ring jobs on the fabric's side: receive buffers, credits, landing, and ring barriers (R200
to R204, R416 to R422). -/

namespace Sys2Proof.Machine

/-- Channel of a ring job on a link. -/
def RingJob.chan (j : RingJob) (l : Nat) : Nat := if l = 0 then j.chanEast else j.chanWest

/-- The ring job on a channel of a link. -/
def State.jobOn (s : State) (l ch : Nat) : Option RingJob := s.ring.jobs.find? (fun j => j.chan l == ch)

/-- Replace ring jobs. -/
def State.mapJobs (s : State) (f : RingJob → RingJob) : State := s.setRing { s.ring with jobs := s.ring.jobs.map f }

/-- Change the ring job of a context. -/
def State.modJob (s : State) (c job : Nat) (f : RingJob → RingJob) : State :=
  s.mapJobs (fun j => if j.ctx = c && j.job = job then f j else j)

/-- Atelier number of a shape atelier of a running context (R306). -/
def Ctx.atelierAt (x : Ctx) (i : Nat) : Option Nat :=
  match x.cert, x.part with
  | some e, some p => (p.easels[i * e.e]?).map (· / 8)
  | _, _ => none

/-- The variant that a context's ring jobs refer to: the one it runs, or was saved in, or the first. -/
def Ctx.ringVariant (x : Ctx) : Option Variant :=
  match x.variant with
  | some v => some v
  | none => x.image.bind (fun i => i.variants[(match x.saved with | some y => y.variant | none => 0)]?)

/-- The RING entry of a job. -/
def Ctx.ringEntry (x : Ctx) (j : RingJob) : Option RingEntry := x.ringVariant.bind (fun v => v.rings[j.entry]?)

/-- Atelier, canvas offset and size of receive buffer `b` of a job (R312, R418). The RING entry declares one pair of buffers,
which serves both links (log 154). -/
def State.ringBuf (s : State) (j : RingJob) (b : Nat) : Option (Nat × Nat × Nat) :=
  match s.ctx? j.ctx with
  | none => none
  | some x =>
    match x.ringEntry j with
    | none => none
    | some r => (x.atelierAt r.atelier).map (fun a => (a, (x.region a).1 + r.bufferOffset + b * r.bufferBytes, r.bufferBytes))

/-- Return the credit of a receive buffer that has been read (R202, R418). -/
def State.freeBuf (s : State) (l ch b : Nat) : State :=
  let k := s.link l
  if k.full.contains (ch, b) then (s.setLink l { k with full := k.full.filter (fun x => x != (ch, b)) }).sendOn l (.credit l ch)
  else s

/-- The blocks that a job holds go, and their credits return (R25). -/
def State.freeJob (s : State) (j : RingJob) : State :=
  let s := ((s.freeBuf 0 j.chanEast 0).freeBuf 0 j.chanEast 1).freeBuf 1 j.chanWest 0
  (s.freeBuf 1 j.chanWest 1).modJob j.ctx j.job (fun j => { j with bufs := [], landing := [] })

/-- The blocks that a context's jobs hold go. -/
def State.freeBufs (s : State) (c : Nat) : State :=
  (s.ring.jobs.filter (fun j => j.ctx == c)).foldl (fun (s : State) j => s.freeJob j) s

/-- Confirmed ring jobs of a context. -/
def State.ringJobs (s : State) (c : Nat) : List RingJob := s.ring.jobs.filter (fun j => j.ctx == c && j.confirmed && !j.dead)

/-- The ring job that a context's attention runs over: its first (R201; log 154). -/
def State.ringJob? (s : State) (c : Nat) : Option RingJob := (s.ringJobs c).head?

/-- A use of a block in a receive buffer has ended; after the last use its credit returns (R202). -/
def State.usedBuf (s : State) (j : RingJob) (l b : Nat) (f : HeldBlock → HeldBlock) : State :=
  match tabFind j.bufs (2 * l + b) with
  | none => s
  | some u =>
    let v := f u
    if v.reads = 0 && v.sends = 0 then
      (s.modJob j.ctx j.job (fun j => { j with bufs := tabDel j.bufs (2 * l + b) })).freeBuf l (j.chan l) b
    else s.modJob j.ctx j.job (fun j => { j with bufs := tabPut j.bufs (2 * l + b) v })

/-- A use of every block that a context's jobs hold. -/
def State.eachBuf (s : State) (c : Nat) (f : RingJob → Nat → HeldBlock → HeldBlock) : State :=
  (s.ringJobs c).foldl (fun (s : State) j =>
    j.bufs.foldl (fun (s : State) u => s.usedBuf j (u.1 / 2) (u.1 % 2) (f j (u.1 % 2))) s) s

/-- The work that reads a context's received blocks has ended: no FORWARD will read those of the steps that have begun. A
block that is not yet sent on east keeps its buffer until it is (R202). -/
def State.readBufs (s : State) (c : Nat) : State :=
  s.eachBuf c (fun _ _ u => if u.early then u else { u with reads := 0 })

/-- A FORWARD of a context has read its keys at canvas offset `off` of atelier `a`: where that is a receive buffer, one
of the reads that its block waits for is done (R202). -/
def State.ringRead (s : State) (c a off : Nat) : State :=
  s.eachBuf c (fun j b u =>
    match s.ringBuf j b with
    | some (n, o, k) => if n = a && o ≤ off && off < o + k && !u.early then { u with reads := u.reads - 1 } else u
    | none => u)

/-- A copy out of a receive buffer has read its block to the end: the block is sent on where the copy goes east, or where
the block waits for any copy (R202). -/
def State.ringSent (s : State) (l ch b : Nat) (east : Bool) : State :=
  match s.jobOn l ch with
  | some j => s.usedBuf j l b (fun u => if east || u.any then { u with sends := u.sends - 1 } else u)
  | none => s

/-! ### Shards (R200, R201) -/

/-- Global page numbers of a shard of a sequence. -/
def RingJob.pages (j : RingJob) (seq shard : Nat) : List Nat :=
  match (j.shards[seq]?).bind (fun l => l[shard]?) with
  | some (f, n) => (List.range n).map (· + f)
  | none => []

/-- A page of a sequence lies in the device's own shard; without a ring job every page does. -/
def ownPage (o : Option RingJob) (seq p : Nat) : Bool :=
  match o with
  | some j => (j.pages seq j.index).contains p
  | none => true

/-! ### Barriers (R41, R42, R55, R421) -/

/-- An atelier barrier (device false, key atelier·8 + channel) or a device barrier. -/
def State.barrier (s : State) (dev : Bool) (k : Nat) : Option Barrier := tabFind (if dev then s.fab.devBar else s.fab.bar) k

/-- Replace a barrier channel. -/
def State.setBarrier (s : State) (dev : Bool) (k : Nat) (b : Barrier) : State :=
  s.setFab (if dev then { s.fab with devBar := tabPut s.fab.devBar k b } else { s.fab with bar := tabPut s.fab.bar k b })

/-- A barrier completes: the queues that wait for the generation go on. -/
def State.finishBarrier (s : State) (dev : Bool) (k : Nat) : State :=
  match s.barrier dev k with
  | none => s
  | some b =>
    let (b2, freed) := b.finish
    (freed.foldl (fun (s : State) x => s.modQueue x.1 x.2 CmdQueue.grant) (s.setBarrier dev k b2)).settleAll

/-- Arrivals in a partition join atelier channels (R57): it lies within one atelier, or it holds every easel of each that it
touches and the arrival is within one (log 42). -/
def Part.inAtelier (p : Part) : Bool :=
  p.devBar.isNone || (p.easels.length == 8 * p.bars.length && Config.arriveInAtelier)

/-- The barrier channel that an easel's BARRIER_ARRIVE uses (R41, R55, R57; log 42). -/
def Ctx.barOf (x : Ctx) (e : Nat) : Option (Bool × Nat) :=
  match x.part with
  | none => none
  | some p =>
    if p.inAtelier then (p.bars.find? (fun k => k / 8 == e / 8)).map (fun k => (false, k))
    else p.devBar.map (fun k => (true, k))

/-- The barrier channels that the arrivals of a context's partition use. -/
def Ctx.barKeys (x : Ctx) : List (Bool × Nat) :=
  match x.part with
  | none => []
  | some p => if p.inAtelier then p.bars.map (fun k => (false, k)) else p.devBar.toList.map (fun k => (true, k))

/-- The barrier channels of a context span the ring of each confirmed job whose RING entry declares it (R312, R421). -/
def State.ringBarrier (s : State) (c : Nat) : State :=
  match s.ctx? c with
  | none => s
  | some x =>
    let js := (s.ringJobs c).filter (fun j => match x.ringEntry j with | some r => r.barrier | none => false)
    x.barKeys.foldl (fun (s : State) k =>
      match s.barrier k.1 k.2 with
      | some b => s.setBarrier k.1 k.2 { b with ringJobs := js.map RingJob.job }
      | none => s) s

/-- The local members of a ring barrier have all arrived (R421): device 0 sends the token, and another device forwards
the one that it holds. The job's abort ends it (R431). -/
def State.ringLocal (s : State) (c job : Nat) : State :=
  match s.ring.jobs.find? (fun j => j.ctx == c && j.job == job) with
  | none => s
  | some j =>
    if j.localDone || j.passed || j.dead then s
    else
      let s := s.modJob c job (fun j => { j with localDone := true, token := false })
      if j.index = 0 || j.token then s.sendOn 0 (.token { job := job, complete := false }) else s

/-- The channels of a partition's barrier have all their arrivals. -/
def State.barsComplete (s : State) (x : Ctx) : Bool :=
  x.barKeys.all (fun k => match s.barrier k.1 k.2 with | some b => b.complete | none => false)

/-- A barrier whose members have all arrived: it completes, or its ring barriers go on. -/
def State.barrierDone (s : State) (dev : Bool) (k : Nat) : State :=
  match s.barrier dev k with
  | none => s
  | some b =>
    if !s.works || !b.complete then s
    else if b.ringJobs.isEmpty then s.finishBarrier dev k
    else
      match s.ctx? b.owner with
      | some x => if s.barsComplete x then b.ringJobs.foldl (fun (s : State) j => s.ringLocal b.owner j) s else s
      | none => s

/-! ### Where a block lands (R418) -/

/-- A queue has waited for the block longer than the certificate's ring_wait_ns: a cause of R319 (R305; log 110). -/
def State.ringLate (s : State) (j : RingJob) (x : Ctx) (t : Nat) : State :=
  match x.cert with
  | some e =>
    if s.fab.waiters.any (fun w => w.tally == t && decide (w.since + e.ringWait < s.clk.time)) then s.risk j.ctx 3 else s
  | none => s

/-- A block lands in the canvas of a context that holds a partition, and the ring tally is posted (R418). -/
def State.landCanvas (s : State) (j : RingJob) (x : Ctx) (b : Nat) (data : Bytes) : State :=
  match s.ringBuf j b, x.ringEntry j with
  | some (a, off, _), some r =>
    let s := s.canPut a off data
    (match x.tallyAt r.tallyPos r.tallyLocal with
     | some t => ((s.ringLate j x t).tallyAdd t 1).settleAll
     | none => s)
  | _, _ => s

/-- A context has its first partition: its barrier spans the rings of its jobs, and the blocks that came before it had a
canvas land (R418; log 154). -/
def State.ringPlaced (s : State) (c : Nat) : State :=
  match s.ctx? c with
  | none => s
  | some x =>
    if x.saved.isSome then s.ringBarrier c
    else
      (s.ringJobs c).foldl (fun (s : State) j =>
        (j.landing.foldl (fun (s : State) u => s.landCanvas j x (u.1 % 2) u.2) s).modJob c j.job (fun j => { j with landing := [] }))
        (s.ringBarrier c)

end Sys2Proof.Machine
end

