-- ==== Sys2Proof/Machine/Mirror.lean ====
section
/-! DEFINITION. Machine/Mirror.lean: what the active device of a mirrored pair sends, and what waits for its
acknowledgement (R425, R426). -/

namespace Sys2Proof.Machine

/-- The device mirrors its state: it is the active device of a pair that stands (R425, R426). -/
def State.mirroring (s : State) : Bool := s.pair.formed && s.pair.role == 1 && !s.pair.lost

/-- All that waits for an acknowledgement, oldest first. -/
def State.mirrorWaits (s : State) : List MirrorWait := s.pair.sent ++ s.pair.unsent.map Prod.snd

/-- Bytes of mirrored state that a message brings. -/
def mirrorBytes : MirrorMsg → Nat
  | .context _ p bs pr _ _ ls => p.length + sumOf (bs.map List.length) + pr.length + sumOf (ls.map (fun l => l.2.length))
  | .region _ _ _ _ b => b.length
  | .queue _ _ r => r.length
  | .stream _ _ _ r => r.length
  | .submission _ _ _ _ _ d v => d.length + v.length
  | .pageLine _ _ _ _ _ _ _ _ _ _ _ _ b => b.length
  | .record _ _ _ _ r b => r.length + b.length
  | .data _ b => b.length
  | _ => 0

/-- Bytes of a mirror message (R59, R416). -/
def mirrorMax : Nat := 4096

/-- Cut bytes into pieces of one mirror message each, the last of which may be short. -/
def pieces (b : Bytes) : List Bytes := (List.range (max 1 (ceilDiv b.length mirrorMax))).map (fun i => (b.drop (mirrorMax * i)).take mirrorMax)

/-- Bytes that go ahead of their message. -/
def dataMsgs (b : Bytes) : List MirrorMsg :=
  let l := pieces b
  ((List.range l.length).zip l).map (fun x => .data (x.1 == 0) x.2)

/-- The messages of at most 4 KiB that one mirror message goes in (R59, R416): what it is too long for goes ahead of it. -/
def mirrorCut (m : MirrorMsg) : List MirrorMsg :=
  if mirrorBytes m ≤ mirrorMax then [m]
  else
    match m with
    | .context h p bs pr e w ls =>
      (bs ++ ls.map Prod.snd).flatMap dataMsgs ++ [.context h p [] pr e w (ls.map (fun l => (l.1, [])))]
    | .region h i size off b =>
      let l := pieces b
      ((List.range l.length).zip l).map (fun x => .region h i size (off + mirrorMax * x.1) x.2)
    | .pageLine c q p g r t f k n w a o b => dataMsgs b ++ [.pageLine c q p g r t f k n w a o []]
    | .record c q sl off r b => dataMsgs b ++ [.record c q sl off r []]
    | _ => [m]

/-- A message as the standby keeps it, with the pieces that came ahead of it. -/
def mirrorFill (l : List Bytes) (m : MirrorMsg) : MirrorMsg :=
  if l.isEmpty then m
  else
    match m with
    | .context h p _ pr e w ls =>
      let n := l.length - ls.length
      .context h p (l.take n) pr e w ((ls.zip (l.drop n)).map (fun x => (x.1.1, x.2)))
    | .pageLine c q p g r t f k n w a o _ => .pageLine c q p g r t f k n w a o l.flatten
    | .record c q sl off r _ => .record c q sl off r l.flatten
    | _ => m

/-- Send a message of at most 4 KiB while channel 1 has a credit, of 16, and let it wait for one else (R416); the
acknowledgement of a message gives its credit back (log 50). -/
def State.mirrorOne (s : State) (m : MirrorMsg) (w : MirrorWait) : State :=
  if s.pair.unsent.isEmpty && s.pair.sent.length < 16 then
    (s.setPair { s.pair with sent := s.pair.sent ++ [w] }).sendOn s.pair.link (.mirror m)
  else s.setPair { s.pair with unsent := s.pair.unsent ++ [(m, w)] }

/-- Send a mirror message, in as many messages as it needs; `w` waits for the acknowledgement of the last. -/
def State.mirror (s : State) (m : MirrorMsg) (w : MirrorWait) : State :=
  let l := mirrorCut m
  let s := l.dropLast.foldl (fun (s : State) x => s.mirrorOne x .none) s
  match l.getLast? with
  | some x => s.mirrorOne x w
  | none => s

/-- Messages that waited for a credit go, as far as there are credits. -/
def State.mirrorMore (s : State) : State :=
  let l := s.pair.unsent
  let n := 16 - s.pair.sent.length
  let s := (l.take n).foldl (fun (s : State) x => s.mirrorOne x.1 x.2) (s.setPair { s.pair with unsent := [] })
  s.setPair { s.pair with unsent := s.pair.unsent ++ l.drop n }

/-- The context message: a context's newest state (R425). -/
def contextMsg (s : State) (c : Nat) (x : Ctx) : MirrorMsg :=
  let new := s.sten.waiting.filter (fun w => w.1 == c)
  let old := s.sten.slots.filter (fun k => k.1 / 16 == c && !new.any (fun w => w.2.1 == k.1 % 16))
  let slots := old ++ new.filterMap (fun w => w.2.2.map (fun d => (c * 16 + w.2.1, d)))
  let images := slots.map (fun k =>
    (k.1 % 16, match s.sten.lexicons.find? (fun l => l.digest == k.2) with | some l => l.image | none => []))
  .context c (toLe 64 x.params) x.bundles (x.profile.getD []) (x.part.map Part.variant)
    (x.windows.map (fun w => (w.1, w.2.base, w.2.length))) images

/-- Answer a request; while the device mirrors, an OK waits for the acknowledgement of the messages (R425). -/
def State.replyMirrored (s : State) (ch seq opcode status : Nat) (payload : Bytes) (ms : List MirrorMsg) : State :=
  if s.mirroring && status = stOK && !ms.isEmpty then
    let s := ms.dropLast.foldl (fun (s : State) m => s.mirror m .none) s
    match ms.getLast? with
    | some m => s.mirror m (.reply ch seq opcode status payload)
    | none => s
  else s.reply ch seq opcode status payload

/-- Send a context's newest state, where the device mirrors (R425). -/
def State.mirrorCtx (s : State) (c : Nat) : State :=
  match s.ctx? c with
  | some x => if s.mirroring then s.mirror (contextMsg s c x) .none else s
  | none => s

/-- Answer a request about a context; while the device mirrors, an OK waits until the partner holds the context's newest
state (R425). -/
def State.answerCtx (s : State) (r : Request) (c status : Nat) (payload : Bytes) : State :=
  match s.ctx? c with
  | some x => s.replyMirrored r.ch r.seq r.opcode status payload [contextMsg s c x]
  | none => s.answer r status payload

/-- The reply of a request waits for an acknowledgement (R425). -/
def State.replyWaits (s : State) (ch seq : Nat) : Bool :=
  s.mirrorWaits.any (fun w => match w with | .reply c q _ _ _ => c == ch && q == seq | _ => false)

end Sys2Proof.Machine
end

