-- ==== Sys2Proof/Machine/Capture.lean ====
section
/-! DEFINITION. Machine/Capture.lean: line-sensor capture (11_line_scan_intake.md). -/

namespace Sys2Proof.Machine

/-! ### The port configuration record (R254 to R257) -/

/-- Data lanes -/
def PortCfg.lanes (c : PortCfg) : Nat := fld c.hdr 2 0 + 1
/-- mux_depth -/
def PortCfg.mux (c : PortCfg) : Nat := fld c.hdr 4 3 + 1
/-- colours -/
def PortCfg.colours (c : PortCfg) : Nat := if bit c.hdr 5 then 3 else 1
/-- afe_bits -/
def PortCfg.afeBits (c : PortCfg) : Nat := fld c.hdr 11 8 + 1
/-- avg -/
def PortCfg.avg (c : PortCfg) : Nat := fld c.hdr 14 12
/-- bytes of a stored sample -/
def PortCfg.bytes (c : PortCfg) : Nat := if bit c.hdr 15 then 2 else 1
/-- trigger_mode -/
def PortCfg.mode (c : PortCfg) : Nat := fld c.hdr 17 16
/-- pixels -/
def PortCfg.pixels (c : PortCfg) : Nat := fld c.hdr 46 32
/-- afe_offset -/
def PortCfg.offset (c : PortCfg) : Nat := fld c.hdr 63 48
/-- line_ticks -/
def PortCfg.lineTicks (c : PortCfg) : Nat := fld c.hdr 83 64
/-- enc_step, 16.16 -/
def PortCfg.encStep (c : PortCfg) : Nat := fld c.hdr 127 96
/-- free_ticks -/
def PortCfg.freeTicks (c : PortCfg) : Nat := fld c.hdr 147 128
/-- delay of colour k -/
def PortCfg.delay (c : PortCfg) (k : Nat) : Nat := fld c.hdr (165 + 8 * k) (160 + 8 * k)
/-- edge_colour -/
def PortCfg.edgeColour (c : PortCfg) : Nat := fld c.hdr 185 184
/-- bg_level -/
def PortCfg.bg (c : PortCfg) : Nat := fld c.hdr 207 192
/-- edge_threshold -/
def PortCfg.threshold (c : PortCfg) : Nat := fld c.hdr 223 208
/-- edge_run -/
def PortCfg.edgeRun (c : PortCfg) : Nat := fld c.hdr 231 224
/-- edge_lines -/
def PortCfg.edgeLines (c : PortCfg) : Nat := fld c.hdr 239 232
/-- lead_margin -/
def PortCfg.lead (c : PortCfg) : Nat := fld c.hdr 246 240
/-- trail_margin -/
def PortCfg.trail (c : PortCfg) : Nat := fld c.hdr 254 248
/-- page_cap_lines -/
def PortCfg.cap (c : PortCfg) : Nat := fld c.hdr 275 256
/-- idle_lines -/
def PortCfg.idle (c : PortCfg) : Nat := fld c.hdr 303 288
/-- aspect, 16.16 -/
def PortCfg.aspect (c : PortCfg) : Nat := fld c.hdr 351 320
/-- store_mib -/
def PortCfg.storeMib (c : PortCfg) : Nat := fld c.hdr 367 352
/-- hold_on_mib -/
def PortCfg.holdOn (c : PortCfg) : Nat := fld c.hdr 383 368
/-- hold_off_mib -/
def PortCfg.holdOff (c : PortCfg) : Nat := fld c.hdr 399 384
/-- sheets_committed -/
def PortCfg.sheets (c : PortCfg) : Nat := fld c.hdr 402 400
/-- out_px -/
def PortCfg.outPx (c : PortCfg) : Nat := c.pixels / c.avg
/-- line_pitch -/
def PortCfg.pitch (c : PortCfg) : Nat := 64 * ceilDiv (c.colours * c.outPx * c.bytes) 64
/-- cap_mib -/
def PortCfg.capMib (c : PortCfg) : Nat := ceilDiv (c.cap * c.pitch) (2 ^ 20)
/-- tokens of one line, 4 KiB each (R272) -/
def PortCfg.lineTokens (c : PortCfg) : Nat := ceilDiv (c.colours * c.outPx * 2) 4096
/-- token quota (R272) -/
def PortCfg.quota (c : PortCfg) : Nat :=
  c.lineTokens * (c.lead + max (c.delay 0) (max (c.delay 1) (c.delay 2)) + 16)

/-- Sample map entry of frame `k` and lane `l` (R252). -/
def PortCfg.entry (c : PortCfg) (k l : Nat) : Nat := c.map[8 * k + l]?.getD (3 * 2 ^ 16)

/-- Pixels that a map entry takes: colour and pixel, by group; none for an unused entry (R252). -/
def mapPixel (e n : Nat) : Option (Nat × Int) :=
  let col := fld e 17 16
  if col = 3 || fld e 31 18 + 1 ≤ n then none
  else
    let step : Int := [1, 2, -1, -2][fld e 15 14]?.getD 1
    some (col, (fld e 13 0 : Int) + n * step)

/-- G: the largest count of any map entry (R252). -/
def PortCfg.groups (c : PortCfg) : Nat := maxOf (c.map.map (fun e => fld e 31 18 + 1))

/-- Every pixel of every colour is covered exactly once, inside the first mux_depth × lanes entries, and every other
entry is unused (R255). -/
def PortCfg.mapOk (c : PortCfg) : Bool :=
  let idx := (List.range c.mux).flatMap (fun k => (List.range c.lanes).map (fun l => 8 * k + l))
  let px := idx.flatMap (fun i =>
    let e := c.map[i]?.getD (3 * 2 ^ 16)
    (List.range (fld e 31 18 + 1)).filterMap (mapPixel e))
  let cover := (List.range c.colours).all (fun k =>
    (List.range c.pixels).all (fun x => countIf (fun q => q == (k, (x : Int))) px == 1))
  cover && px.length == c.colours * c.pixels &&
    (List.range 32).all (fun i => idx.contains i || fld (c.map[i]?.getD (3 * 2 ^ 16)) 17 16 == 3)

/-- Field ranges of R254. -/
def PortCfg.rangesOk (c : PortCfg) : Bool :=
  onlyBits c.hdr [(5, 0), (25, 8), (46, 32), (83, 48), (147, 96), (165, 160), (173, 168), (181, 176), (185, 184),
    (246, 192), (254, 248), (275, 256), (303, 288), (402, 320)] &&
  9 ≤ fld c.hdr 11 8 && 1 ≤ c.avg && c.avg ≤ 4 && c.mode ≤ 2 &&
  (bit c.hdr 22 || fld c.hdr 24 23 == 0) && 1 ≤ c.pixels && c.pixels ≤ 16384 &&
  6000 ≤ c.lineTicks && 0x10000 ≤ c.encStep && c.lineTicks ≤ c.freeTicks &&
  (if bit c.hdr 5 then c.edgeColour ≤ 2 else c.edgeColour == 0) &&
  1 ≤ c.edgeRun && 1 ≤ c.edgeLines && c.edgeLines ≤ 64 && c.lead ≤ 64 && c.trail ≤ 64 && 1 ≤ c.cap && 1 ≤ c.idle &&
  0 < c.aspect

/-- An output entry of the timing program (R256, R257). -/
def timingOk (lineTicks e : Nat) : Bool :=
  let mode := fld e 1 0
  let cnt := fld e 7 4
  let edges := (List.range cnt).map (fun i => fld e (256 + 32 * i + 31) (256 + 32 * i))
  onlyBits e [(2, 0), (7, 4), (43, 32), (59, 48), (75, 64), (115, 96), (147, 128), (511, 256)] &&
  mode ≤ 2 && cnt ≤ 8 &&
  (List.range 8).all (fun i => fld e (256 + 32 * i + 31) (256 + 32 * i + 21) == 0) &&
  edges.all (fun x => fld x 19 0 < lineTicks) &&
  (List.range (cnt - 1)).all (fun i => fld (edges[i]?.getD 0) 19 0 < fld (edges[i + 1]?.getD 0) 19 0) &&
  (mode ≠ 2 || (6 ≤ fld e 43 32 && fld e 59 48 < fld e 75 64 && fld e 75 64 ≤ fld e 43 32 &&
    fld e 115 96 < fld e 147 128 && fld e 147 128 ≤ lineTicks))

/-- The FORMAT checks of R255 and R257 that need only the record. -/
def PortCfg.formatOk (c : PortCfg) (port : Nat) : Bool :=
  c.rangesOk && c.mapOk && c.avg ≤ c.pixels && c.edgeRun ≤ c.outPx && c.edgeLines ≤ c.trail &&
  c.holdOff < c.holdOn && c.holdOn ≤ c.storeMib && (1 + c.sheets) * c.capMib ≤ c.storeMib - c.holdOn &&
  (!bit c.hdr 22 || fld c.hdr 24 23 ≠ port) && c.prog.all (timingOk c.lineTicks)

/-- The record that a PORT_CONFIG buffer of 1,024 bytes holds (R383). -/
def parsePortCfg (b : Bytes) : PortCfg :=
  { hdr := leAt b 0 128, map := (List.range 32).map (fun i => leAt b (128 + 4 * i) 4),
    prog := (List.range 12).map (fun i => leAt b (256 + 64 * i) 64) }

/-- The level of a timing output at a tick of its line program (R257). -/
def timingLevel (e tick : Nat) : Bool :=
  let edges := (List.range (fld e 7 4)).map (fun i => fld e (256 + 32 * i + 31) (256 + 32 * i))
  if fld e 1 0 = 2 && fld e 115 96 ≤ tick && tick < fld e 147 128 then
    let x := (tick - fld e 115 96) % fld e 43 32
    fld e 59 48 ≤ x && x < fld e 75 64
  else edges.foldl (fun l x => if fld x 19 0 ≤ tick then bit x 20 else l) (bit e 2)

/-- The timing outputs at a tick of the line program (R256, R257): an OFF output is high-impedance, and after line_ticks
every output holds its level. -/
def PortCfg.tgAt (c : PortCfg) (tick : Nat) : List (Option Bool) :=
  (List.range 12).map (fun i =>
    let e := c.prog[i]?.getD 0
    if fld e 1 0 = 0 then none else some (timingLevel e (min tick (c.lineTicks - 1))))

/-! ### Port state -/

/-- A port. -/
def State.port (s : State) (p : Nat) : Port := tabGet {} s.ports p

/-- Replace a port. -/
def State.putPort (s : State) (p : Nat) (q : Port) : State := s.setPorts (tabPut s.ports p q)

/-- The timing outputs of a port now: while a line program runs, their levels at its tick of 1.667 ns (R257). -/
def State.tgNow (s : State) (p : Nat) : List (Option Bool) :=
  let q := s.port p
  match q.cfg with
  | some c => if q.running then c.tgAt ((s.clk.time - q.lineStart) * 3 / 5) else q.tg
  | none => q.tg

/-- The configuration record under which a page is captured (R277). -/
def Port.cfgOf (q : Port) (g : Page) : Option PortCfg := if g.cfg.isSome then g.cfg else q.cfg

/-- The ports take part only while firmware serves (R249, R448). -/
def State.portLive (s : State) (p : Nat) : Bool := s.works && p < 4

/-- Return the tokens and lines that a port leaving CAPTURING holds (R272). -/
def Port.dropTokens (p : Port) : Port :=
  { p with buf := [], tokens := 0, store := p.store.map (fun l => { l with tokens := 0 }) }

/-- The port becomes OFF (R249, R273). -/
def Port.turnOff (p : Port) : Port :=
  { p.dropTokens with
    st := .off, calib := none, running := false, held := false, cur := none, done := [], tg := List.replicate 12 none }

/-- A bound and configured port whose context has a primer profile becomes ARMED (R249). -/
def State.armPort (s : State) (p : Nat) : State :=
  let q := s.port p
  match q.ctx, q.cfg with
  | some c, some _ =>
    let prof := match s.ctx? c with | some x => x.profile.isSome && !x.draining && x.st != .tearingDown && x.st != .faulted | none => false
    if q.st = .off && prof then s.putPort p { q with st := .armed } else s
  | _, _ => s

/-- The start event of a port (R13, R249, R276, R277). -/
def State.startEvent (s : State) (p : Nat) : State :=
  let q := s.port p
  match q.st with
  | .off => s
  | .armed =>
    -- a draining context takes no further capture (R333)
    if (match q.ctx.bind s.ctx? with | some x => x.draining | none => false) then s
    else s.putPort p { q with
      st := .capturing, buf := [], paperRun := 0, plainRun := 0, idle := 0, capping := false, seekTrail := false,
      edges := [], capFirst := q.lastNo + 1, afterPage := q.lastNo + 1, stopReq := none }
  | .capturing | .calibrating => s.countPort p 0x59 1

/-- A capture ends (R267): the port is ARMED, and the stop requests that wait are answered. -/
def State.endCapture (s : State) (p : Nat) : State :=
  let q := s.port p
  let s := s.putPort p { q.dropTokens with st := .armed, stopReq := none, paperRun := 0, plainRun := 0, idle := 0 }
  if q.stopReq.isSome then s.answerAll (fun r => r.opcode == 0x0053 && fld (leNat r.payload) 1 0 == p) stOK else s

/-- Allocate `n` page-store chunks of 1 MiB for a context; none where its LPDDR5 cannot hold them. -/
def State.takeChunks (s : State) (ctx : Nat) : Nat → Option (State × List Nat)
  | 0 => some (s, [])
  | n + 1 => (s.lpAlloc (ctx + 1) (2 ^ 20)).bind (fun r => (r.2.takeChunks ctx n).map (fun t => (t.1, r.1 :: t.2)))

/-- The page store's pool holds `n` chunks (R271): what is above goes back to LPDDR5 as soon as no page holds it. -/
def State.trimPool (s : State) (p n : Nat) : State :=
  let q := s.port p
  let gone := q.free.take (q.chunks.length - n)
  gone.foldl (fun (s : State) c => s.lpFree c (2 ^ 20))
    (s.putPort p { q with chunks := q.chunks.filter (fun c => !gone.contains c), free := q.free.drop gone.length })

/-- Page-store chunks of 1 MiB for a record (R271): the chunks that a waiting record has reserved go back first. -/
def State.dropReserve (s : State) (p : Nat) : State :=
  let q := s.port p
  match q.newCfg with
  | some (_, l) => l.foldl (fun (s : State) c => s.lpFree c (2 ^ 20)) (s.putPort p { q with newCfg := none })
  | none => s

/-- The chunks by which a record's page store exceeds the present one (R255, R271). -/
def State.reserveFor (s : State) (p ctx n : Nat) : Option (State × List Nat) :=
  let s := s.dropReserve p
  s.takeChunks ctx (n - (s.port p).chunks.length)

/-- Reserved chunks join the pool of port `p`, which holds `n` in all (R271). -/
def State.joinPool (s : State) (p n : Nat) (l : List Nat) : State :=
  let q := s.port p
  (s.putPort p { q with chunks := q.chunks ++ l, free := q.free ++ l }).trimPool p n

/-- The page store of a record of `n` MiB, where LPDDR5 holds it. -/
def State.poolFor (s : State) (p ctx n : Nat) : Option State := (s.reserveFor p ctx n).map (fun r => r.1.joinPool p n r.2)

/-- Apply an accepted record (R255, R258, R259, R261, R272): position, tables, quota; the line in progress ends, and the
timing outputs hold their levels until the next line start (log 134). The search for the trailing edge of a capped page goes on
(R266). -/
def State.applyCfg (s : State) (p : Nat) (c : PortCfg) : State :=
  let q := s.port p
  let tg := ((s.tgNow p).zip (c.tgAt 0)).map (fun x => if x.2.isNone then none else x.1)
  let keep := match q.cfg with | some o => o.colours == c.colours && o.pixels == c.pixels | none => false
  let edges := if q.capping then q.edges.take 1 else []
  let q := { q.dropTokens with
    cfg := some c, newCfg := none, p := 0, q := 0, hist := [], cur := none, frame := 0, done := [], running := false,
    held := false, locked := false, fcoRun := 0, tg := tg, quota := c.quota, dark := if keep then q.dark else [],
    gain := if keep then q.gain else [], afterPage := q.lineNo + 1, paperRun := 0, plainRun := 0, idle := 0,
    seekTrail := q.capping && edges.isEmpty, edges := edges }
  ((s.putPort p q).armPort p).feedHolds

/-! ### The AFE link and triggers -/

/-- AFE_LINK_LOCK (R250): the port locks, once FCO has shown its pattern on 16 consecutive frames. -/
def execAfeLinkLock (p : Nat) (s : State) : Result :=
  .next (
    let q := s.port p
    if s.portLive p && q.cfg.isSome && q.fcoRun = 16 then s.putPort p { q with locked := true, fcoRun := 0 } else s)

/-- Take the words of one frame into the line (R251, R252). -/
def takeFrame (c : PortCfg) (f : Nat) (words : List W16) (t : Tab Nat) : Tab Nat :=
  let k := (f - c.offset) % c.mux
  let n := (f - c.offset) / c.mux
  (List.range c.lanes).foldl (fun (t : Tab Nat) l =>
    match mapPixel (c.entry k l) n with
    | some (col, .ofNat x) =>
      let w := (words[l]?.getD 0).toNat
      let v := (w / 2 ^ (16 - c.afeBits)) * 2 ^ (16 - c.afeBits)
      if v = 0 then t else tabPut t (col * 2 ^ 14 + x) v
    | _ => t) t

/-- A link error (R250, R253): it is counted, the port must lock again, and the line in progress ends in error. -/
def State.linkError (s : State) (p : Nat) : State :=
  let s := s.countPort p 0x56 1
  let q := s.port p
  s.putPort p { q with
    locked := false, fcoRun := 0, cur := none,
    done := q.done ++ q.cur.toList.map (fun l => { l with err := true, fin := s.clk.time }) }

/-- AFE_FRAME (R250 to R253): one frame. A port without lock counts the frames that show the FCO pattern; a locked port
takes the frame into the line in progress. Frames count from the line start whether or not the port is locked: a line that
misses frames keeps zeros for them, and carries a data error (log 149). -/
def execAfeFrame (p : Nat) (fcoOk : Bool) (words : List W16) (s : State) : Result :=
  .next (
    let q := s.port p
    if !s.portLive p then s
    else if q.locked && !fcoOk then (if q.cfg.isSome then s.linkError p else s)
    else match q.cfg with
    | none => s
    | some c =>
      let q := if q.locked then q else { q with fcoRun := if fcoOk then min 16 (q.fcoRun + 1) else 0 }
      match q.cur with
      | none => s.putPort p q
      | some l =>
        let f := q.frame
        let l := if f < c.offset then l else if q.locked then { l with samples := takeFrame c f words l.samples }
          else { l with err := true }
        if c.offset + c.groups * c.mux ≤ f + 1 then
          s.putPort p { q with frame := f + 1, cur := none, done := q.done ++ [{ l with fin := s.clk.time }] }
        else s.putPort p { q with frame := f + 1, cur := some l })

/-- A line starts (R257, R258): the line program runs and the timing outputs take their first levels; a line still
incomplete is a data error (R253). -/
def State.startLine (s : State) (p : Nat) : State :=
  let s := if (s.port p).cur.isSome then s.countPort p 0x57 1 else s
  let q := s.port p
  let done := match q.cur with | some l => q.done ++ [{ l with err := true, fin := s.clk.time }] | none => q.done
  s.putPort p { q with
    lineNo := q.lineNo + 1, frame := 0, running := true, done := done, lineStart := s.clk.time,
    tg := match q.cfg with | some c => c.tgAt 0 | none => q.tg,
    cur := some { no := q.lineNo + 1, start := s.clk.time, fin := 0, samples := [], err := false } }

/-- A trigger (R260): starts a line, is held while a line program runs, or is dropped while one is held. -/
def State.trigger (s : State) (p : Nat) : State :=
  let q := s.port p
  if q.st = .off then s
  else if !q.running then s.startLine p
  else if q.held then
    let s := s.countPort p 0x54 1
    s.putPort p { s.port p with overLines := q.lineNo :: q.overLines }
  else s.putPort p { q with held := true }

/-- FREE_RUN_TRIGGER (R258). -/
def execFreeRunTrigger (p : Nat) (s : State) : Result :=
  .next (match (s.port p).cfg with
    | some c => if s.portLive p && c.mode = 0 then s.trigger p else s
    | none => s)

/-- The count that an edge makes, with the levels of ENC_A and ENC_B after it: its sensed direction before enc_invert, or
none (R258). In ENC_QUAD mode ENC_A leads ENC_B in forward travel (log 135). -/
def PortCfg.sensed (c : PortCfg) (onB a b : Bool) : Option Bool :=
  if c.mode = 1 then some (if onB then a == b else a != b)
  else if c.mode = 2 && !onB && a then some (!b)
  else none

/-- ENCODER_COUNT (R258, R259): an edge of ENC_A, or of ENC_B (`onB`), and the count that it makes. An OFF port triggers no
line, and its q stays (log 21). -/
def execEncoderCount (p : Nat) (onB : Bool) (s : State) : Result :=
  .next (
    let q0 := s.port p
    let q := { q0 with encA := q0.encA != !onB, encB := q0.encB != onB }
    let s := if p < 4 then s.putPort p q else s
    match q.cfg, q.cfg.bind (fun c => c.sensed onB q.encA q.encB) with
    | some c, some fwd =>
      if !s.portLive p then s
      else if fwd != bit c.hdr 18 then
        let pos := q.p + 65536
        if q.q ≤ pos && q.st ≠ .off then (s.putPort p { q with p := pos, q := q.q + c.encStep }).trigger p
        else s.putPort p { q with p := pos }
      else
        let s := s.countPort p 0x55 1
        s.putPort p { s.port p with p := q.p - 65536, revLines := q.lineNo :: q.revLines }
    | _, _ => s)

/-- LINE_PROGRAM_END (R257, R260): the timing outputs hold their levels, and a held trigger starts its line. -/
def execLineProgramEnd (p : Nat) (s : State) : Result :=
  .next (
    let q := s.port p
    if !s.portLive p || !q.running then s
    else
      let q := { q with running := false, tg := match q.cfg with | some c => c.tgAt c.lineTicks | none => q.tg }
      if q.held then (s.putPort p { q with held := false }).startLine p else s.putPort p q)

/-! ### Correction and edges (R261 to R264) -/

/-- One corrected sample (R261). -/
def correctSample (x d g : Nat) : Nat := if x ≤ d then 0 else min 65535 (rneDiv ((x - d) * g) 16384)

/-- The corrected colour planes of a raw line. -/
def correctLine (c : PortCfg) (q : Port) (l : RawLine) : List (List Nat) :=
  (List.range c.colours).map (fun k => (List.range c.pixels).map (fun i =>
    correctSample (tabGet 0 l.samples (k * 2 ^ 14 + i)) (tabGet 0 q.dark (k * 2 ^ 14 + i))
      (tabGet 0x4000 q.gain (k * 2 ^ 14 + i))))

/-- Averages of `a` pixels each, rounded to nearest with ties to even (R263). -/
def average (a : Nat) : Nat → List Nat → List Nat
  | 0, _ => []
  | n + 1, l => rneDiv (sumOf (l.take a)) a :: average a n (l.drop a)

/-- Output planes of a line: colour k delayed by delay_k lines, zero before the record's first lines (R263). `hist`
starts with the line itself. -/
def outPlanes (c : PortCfg) (hist : List (List (List Nat))) : List (List Nat) :=
  (List.range c.colours).map (fun k =>
    match hist[c.delay k]? with
    | some pl => average c.avg c.outPx (pl[k]?.getD [])
    | none => List.replicate c.outPx 0)

/-- Is a value paper (R264)? -/
def isPaper (c : PortCfg) (y : Nat) : Bool := c.threshold < (y - c.bg) + (c.bg - y)

/-- Paper runs of at least `n` pixels, as first and last pixel (R264). -/
def paperRuns (n : Nat) : List Bool → Nat → Nat → List (Nat × Nat)
  | [], i, len => if n ≤ len then [(i - len, i - 1)] else []
  | true :: r, i, len => paperRuns n r (i + 1) (len + 1)
  | false :: r, i, len => (if n ≤ len then [(i - len, i - 1)] else []) ++ paperRuns n r (i + 1) 0

/-- Stored bytes of a sample (R263). -/
def storedSample (c : PortCfg) (y : Nat) : Bytes := if c.bytes = 2 then toLe 2 y else toLe 1 (min 255 ((y + 128) / 256))

/-- Stored form of a line (R263). -/
def storedLine (c : PortCfg) (planes : List (List Nat)) : Bytes :=
  padTo c.pitch (planes.flatMap (fun pl => pl.flatMap (storedSample c)))

/-- A corrected line. -/
def makeLine (c : PortCfg) (l : RawLine) (hist : List (List (List Nat))) (lost : Bool) : Line :=
  let planes := outPlanes c hist
  { no := l.no, start := l.start, fin := l.fin,
    runs := paperRuns c.edgeRun ((planes[c.edgeColour]?.getD []).map (isPaper c)) 0 0,
    data := storedLine c planes, lost := lost, tokens := if lost then 0 else c.lineTokens, err := l.err }

/-- Does the page end by its cap on line `n`, where E of it may be known (R266, R277)? It does before E, and on the line of
the trailing edge itself. -/
def capEnds (n : Nat) (trail : Option (Nat × Nat)) : Bool :=
  match trail with
  | some (t, e) => n < e || n == t + 1
  | none => true

/-- Store a line in a page, or drop it (R274). The counter it adds to, 0 for none: a lost line has been counted. -/
def storeInPage (c : PortCfg) (free : List Nat) (g : Page) (l : Line) : Page × List Nat × Option StoreLine × Nat :=
  let g := { g with fin := l.fin, err := g.err || l.err, start0 := if g.stored + g.dropped = 0 then l.start else g.start0 }
  if g.dropping ≠ 0 then
    ({ g with dropped := g.dropped + 1 }, free, none,
      if l.lost then 0 else if g.dropping = 1 then 0x52 else 0x53)
  else if l.lost then ({ g with dropped := g.dropped + 1, dropping := 2 }, free, none, 0)
  else
    let need := ceilDiv ((g.stored + 1) * c.pitch) (2 ^ 20) - g.chunks.length
    if free.length < need then ({ g with dropped := g.dropped + 1, dropping := 1 }, free, none, 0x52)
    else
      let left := match g.left, l.runs.head? with
        | some x, some r => some (min x r.1)
        | none, some r => some r.1
        | x, none => x
      let right := match l.runs.getLast? with | some r => max g.right r.2 | none => g.right
      ({ g with
          stored := g.stored + 1, lastNo := l.no, finStored := l.fin, chunks := g.chunks ++ free.take need, rows := g.rows ++ [l.runs],
          left := left, right := right },
        free.drop need, some { page := g.seq, row := g.stored, data := l.data, tokens := l.tokens }, 0)

/-- trail_line and E of the port's open page, where its trailing edge has been found (R265). -/
def Port.pageTrail (q : Port) (c : PortCfg) : Option (Nat × Nat) :=
  match q.page.bind Page.trail, q.edges with
  | some x, _ => some x
  | none, .trail t :: _ => some (t - 1, t - 1 + c.trail)
  | none, _ => none

/-- The trailing edge of the port's page, open or capped, has been found. -/
def Port.trailFound (q : Port) : Bool :=
  (q.page.bind Page.trail).isSome || (match q.edges with | .trail _ :: _ => true | _ => false)

/-- Put one line into the port's open page; the line on which the page reaches its cap is noted, whether a chunk held it or
the store filled in it (R266, R277). -/
def State.storeLine (s : State) (p : Nat) (c : PortCfg) (l : Line) : State :=
  let q := s.port p
  match q.page with
  | none => s
  | some g0 =>
    let (g, free, sl, code) := storeInPage c q.free g0 l
    let full := g.stored == c.cap || (g0.stored + 1 == c.cap && g0.dropping == 0 && g.dropping == 1)
    let g := if full && g0.capLine.isNone && capEnds l.no (q.pageTrail c) then { g with capLine := some l.no } else g
    let s := if code = 0 then s else s.countPort p code 1
    let q := s.port p
    match sl with
    | some x =>
      let new := if s.mirroring then g.chunks.drop g0.chunks.length else []
      s.putPort p { q with page := some g, free := free, store := q.store ++ [x], unacked := q.unacked ++ new }
    | none => s.putPort p { q with page := some g, tokens := q.tokens - l.tokens }

/-- A line that comes after a page's cap and before its trailing edge is discarded and counted (R266). -/
def State.capLine (s : State) (p : Nat) (l : Line) : State :=
  (s.putPort p { s.port p with tokens := (s.port p).tokens - l.tokens }).countPort p 0x5A 1

/-- The leading edge that the next page would open at: one found, or where the present run of paper lines began. -/
def Port.nextLead (p : Port) : Nat :=
  match p.edges.findSome? (fun e => match e with | .lead l .. => some l | .trail _ => none) with
  | some l => l
  | none => p.lastNo + 1 - p.paperRun

/-- Lines of the buffer that a later page may still need: from lead_margin before its leading edge. -/
def Port.trim (p : Port) (c : PortCfg) : Port :=
  let keep := fun (l : Line) => p.nextLead ≤ l.no + c.lead && p.afterPage ≤ l.no
  { p with buf := p.buf.filter keep, tokens := p.tokens - sumOf ((p.buf.filter (fun l => !keep l)).map Line.tokens) }

/-- The edge search at a line (R264, R265): edge_lines paper lines in a row confirm a leading edge, and after it as many
other lines a trailing edge. -/
def Port.search (p : Port) (c : PortCfg) : Port :=
  if p.seekTrail then
    if p.plainRun = c.edgeLines then
      { p with seekTrail := false, edges := p.edges ++ [.trail (p.lastNo + 1 - c.edgeLines)] }
    else p
  else if p.paperRun = c.edgeLines then
    { p with seekTrail := true, edges := p.edges ++ [.lead (p.lastNo + 1 - c.edgeLines) 0xFFFFFFFF false] }
  else p

/-- The sheet number of the page of port `p` whose leading edge is confirmed now (R270), with the state that follows. -/
def State.sheetFor (s : State) (p : Nat) (c : PortCfg) (seq : Nat) : Nat × Bool × State :=
  if bit c.hdr 22 then
    let pr := fld c.hdr 24 23
    match (s.port pr).sheet with
    | some (n, false) => (n, false, s.putPort pr { s.port pr with sheet := some (n, true) })
    | _ => (0xFFFFFFFF, true, s)
  else if s.ports.any (fun e => match e.2.cfg with
      | some d => bit d.hdr 22 && fld d.hdr 24 23 == p | none => false) then
    (seq % 2 ^ 32, false, s.putPort p { s.port p with sheet := some (seq % 2 ^ 32, false) })
  else (0xFFFFFFFF, false, s)

/-- The edge search of port `p`; a leading edge that it confirms takes its page's sheet number (R270). -/
def State.searchEdge (s : State) (p : Nat) (c : PortCfg) : State :=
  let q := s.port p
  let t := q.search c
  match (if q.edges.length < t.edges.length then t.edges.getLast? else none) with
  | some (.lead l ..) =>
    let (n, un, s) := s.sheetFor p c (q.pageSeq + countIf Edge.isLead q.edges)
    s.putPort p { s.port p with seekTrail := t.seekTrail, edges := q.edges ++ [.lead l n un] }
  | _ => s.putPort p t

/-- The part of the intake buffers that a port's quota takes, where its lines and its tables lie (R261, R272, log 30). -/
def State.tokenRange (s : State) (p : Nat) : Nat × Nat :=
  (4096 * sumOf ((s.ports.filter (fun x => x.1 < p)).map (fun x => x.2.quota)), 4096 * (s.port p).quota)

/-- A line of a CAPTURING port (R264 to R267, R274). -/
def State.captureLine (s : State) (p : Nat) (c : PortCfg) (raw : RawLine) : State :=
  let q := s.port p
  let lost := q.quota < q.tokens + c.lineTokens
  let s := if lost then s.countPort p 0x53 1 else s
  let l := makeLine c raw q.hist lost
  let paper := !l.runs.isEmpty
  let s := if lost then s else s.someWrites .intake 0 [s.tokenRange p]
  let q := s.port p
  let found := q.trailFound
  let s := (s.putPort p { q with
    lastNo := l.no, tokens := q.tokens + l.tokens, paperRun := if paper then q.paperRun + 1 else 0,
    plainRun := if paper then 0 else q.plainRun + 1,
    idle := if paper || q.page.isSome then 0 else q.idle + 1 }).searchEdge p c
  let q := s.port p
  let keep := s.putPort p ({ q with buf := q.buf ++ [l] }.trim c)
  match q.page with
  | none => if q.capping && !found then s.capLine p l else keep
  | some g =>
    if g.capLine.isSome then if found then keep else s.capLine p l
    else match q.pageTrail c with
      | some (_, e) => if e < l.no then keep else s.storeLine p c l
      | none => s.storeLine p c l

/-- LINE_COMPLETE (R263): the oldest received line is corrected, delayed and averaged, then searched and stored while
CAPTURING, accumulated while CALIBRATING, or discarded. A line whose table entries cannot be read is lost (R277, R434). -/
def execLineComplete (p : Nat) (s : State) : Result :=
  .next (
    let q := s.port p
    match q.done, q.cfg with
    | raw :: rest, some c =>
      if !s.portLive p then s
      else
        match s.someReads .intake 0 q.ctx [s.tokenRange p] with
        | (s, false) => s.putPort p { s.port p with done := rest, lastNo := raw.no }
        | (s, true) =>
        let q := s.port p
        let depth := max (c.delay 0) (max (c.delay 1) (c.delay 2)) + 1
        let q := { q with done := rest, hist := (correctLine c q raw :: q.hist).take depth }
        match q.st with
        | .off => s.putPort p { q with lastNo := raw.no }
        | .armed => s.putPort p { q with lastNo := raw.no }
        | .calibrating =>
          s.putPort p { q with
            lastNo := raw.no,
            calib := q.calib.map (fun k =>
              if k.taken < k.lines then
                { k with taken := k.taken + 1, sums := raw.samples.foldl (fun t e => tabMod 0 t e.1 (· + e.2)) k.sums }
              else k) }
        | .capturing => ((s.putPort p q).captureLine p c raw).feedHolds
    | _, _ => s)

/-! ### Pages (R265 to R271) -/

/-- Buffered lines go to the page that has just opened, as those that come go (R265, R266): up to its last line if that is
known, discarded after its cap, and back to the buffer after its end. -/
def State.takeLines (s : State) (p : Nat) (c : PortCfg) (lines : List Line) : State :=
  lines.foldl (fun (s : State) l =>
    let q := s.port p
    let late := match q.pageTrail c with | some (_, e) => decide (e < l.no) | none => false
    let capped := (q.page.bind Page.capLine).isSome
    let found := match q.edges with | .trail t :: _ => decide (t + c.edgeLines ≤ l.no) | _ => false
    if late || (capped && found) then s.putPort p { q with buf := q.buf ++ [l] }
    else if capped then s.capLine p l
    else s.storeLine p c l) s

/-- PAGE_OPEN (R265): edge_lines consecutive paper lines have confirmed a leading edge. -/
def execPageOpen (p : Nat) (s : State) : Result :=
  .next (
    let q := s.port p
    match q.cfg, q.ctx, q.edges with
    | some c, some ctx, .lead lead sheet unpaired :: edges =>
      if s.portLive p && q.st = .capturing && q.page.isNone && !q.capping then
        let lost := maxOf ((q.buf.filter (fun l => l.lost && l.no < lead)).map (fun l => l.no + 1))
        let first := max (max (lead - c.lead) q.capFirst) (max q.afterPage lost)
        let s := s.countPort p 0x50 1
        let q := s.port p
        let lines := q.buf.filter (fun l => first ≤ l.no)
        let skip := q.buf.filter (fun l => !(first ≤ l.no))
        let q := { q with
          buf := [], edges := edges, pageSeq := q.pageSeq + 1, tokens := q.tokens - sumOf (skip.map Line.tokens),
          page := some { seq := q.pageSeq, acc := s.sched.accSeq, first := first, lead := lead, sheet := sheet, unpaired := unpaired,
                         cfg := some c, ctx := ctx, cq := q.cq } }
        (((s.putPort p q).setSched { s.sched with accSeq := s.sched.accSeq + 1 }).takeLines p c lines).feedHolds
      else s
    | _, _, _ => s)

/-- TRAILING_EDGE_CONFIRMED (R265, R266): T begins edge_lines consecutive non-paper lines. After a capped page the search
for a leading edge goes on from the line that confirms it. -/
def execTrailingEdgeConfirmed (p : Nat) (s : State) : Result :=
  .next (
    let q := s.port p
    match q.cfg, q.edges with
    | some c, .trail t :: edges =>
      if s.portLive p && q.st = .capturing then
        if q.capping then
          s.putPort p { q with edges := edges, capping := false, afterPage := max q.afterPage (t + c.edgeLines) }
        else
          match q.page with
          | some g =>
            if g.trail.isNone then
              s.putPort p { q with edges := edges, page := some { g with trail := some (t - 1, t - 1 + c.trail) } }
            else s
          | none => s
      else s
    | _, _ => s)

/-- A port that belongs to no context any more gives its page store back and is OFF, without a record (R365). -/
def State.clearPort (s : State) (p : Nat) : State :=
  let s := s.dropReserve p
  let q := s.port p
  let s := q.chunks.foldl (fun (s : State) c => s.lpFree c (2 ^ 20)) s
  s.putPort p { q.turnOff with
    ctx := none, cq := 0, quota := 0, chunks := [], free := [], unacked := [],
    store := [], pages := [], page := none, stopReq := none }

/-- What follows a page's end (R267, R277): a waiting record is applied, and a stop or a teardown ends the capture. -/
def State.afterPageEnd (s : State) (p : Nat) : State :=
  let q := s.port p
  let s := match q.newCfg, q.ctx with
    | some (c, l), some _ => (s.joinPool p c.storeMib l).applyCfg p c
    | _, _ => s
  let q := s.port p
  let gone : Bool := match q.ctx with
    | some c => s.ctxState c == .tearingDown || s.ctxState c == .faulted || (s.ctx? c).isNone
    | none => true
  if q.ctx.isNone then (s.clearPort p).feedHolds
  else if gone then (s.putPort p (s.port p).turnOff).feedHolds
  else if q.stopReq.isSome then (s.endCapture p).feedHolds
  else s.feedHolds

/-- PAGE_END (R265): line E has been taken, and the page ends. -/
def execPageEnd (p : Nat) (s : State) : Result :=
  .next (
    let q := s.port p
    match q.page with
    | some g =>
      match g.trail with
      | some (_, e) =>
        if s.portLive p && e ≤ q.lastNo && g.capLine.isNone then
          (s.putPort p { q with
            page := none, pages := q.pages ++ [{ g with ended := some e }], afterPage := e + 1, idle := 0 }).afterPageEnd p
        else s
      | none => s
    | none => s)

/-- PAGE_CAP_REACHED (R266): the page ends at its last stored line; lines are discarded until the trailing edge. -/
def execPageCapReached (p : Nat) (s : State) : Result :=
  .next (
    let q := s.port p
    match q.page with
    | some g =>
      match g.capLine with
      | some n =>
        if s.portLive p then
          (s.putPort p { q with
            page := none, pages := q.pages ++ [{ g with ended := some g.lastNo, capped := true, fin := g.finStored }],
            capping := g.trail.isNone, afterPage := n + 1, idle := 0 }).afterPageEnd p
        else s
      | none => s
    | none => s)

/-- CAPTURE_IDLE_END (R267). -/
def execCaptureIdleEnd (p : Nat) (s : State) : Result :=
  .next (
    let q := s.port p
    match q.cfg with
    | some c =>
      if s.portLive p && q.st = .capturing && q.page.isNone && !q.edges.any Edge.isLead && c.idle ≤ q.idle then
        s.endCapture p
      else s
    | none => s)

/-- The pieces of a byte string placed at `off` in a list of 1 MiB chunks: address and bytes. -/
def chunkPieces (chunks : List Nat) (off : Nat) (b : Bytes) : List (Nat × Bytes) :=
  let i := off / 2 ^ 20
  let o := off % 2 ^ 20
  match chunks[i]? with
  | none => []
  | some a =>
    let n := min b.length (2 ^ 20 - o)
    (a + o, b.take n) ::
      (match chunks[i + 1]? with
       | some a2 => if n < b.length then [(a2, b.drop n)] else []
       | none => [])

/-- The chunks of a page of port `p`. -/
def Port.pageChunks (p : Port) (seq : Nat) : List Nat :=
  match (p.pages ++ p.page.toList).find? (fun g => g.seq == seq) with | some g => g.chunks | none => []

/-- CALIBRATION_COMPLETE (R262): the table is written, and CALIBRATE is answered. -/
def execCalibrationComplete (p : Nat) (s : State) : Result :=
  .next (
    let q := s.port p
    match q.calib, q.cfg with
    | some k, some c =>
      if s.portLive p && q.st = .calibrating && k.taken = k.lines then
        let keys := (List.range c.colours).flatMap (fun x => (List.range c.pixels).map (fun i => x * 2 ^ 14 + i))
        let m := fun i => rneDiv (tabGet 0 k.sums i) k.lines
        let gOf := fun i =>
          let d := tabGet 0 q.dark i
          if d < m i && rneDiv (k.target * 16384) (m i - d) ≤ 0xFFFF then some (rneDiv (k.target * 16384) (m i - d))
          else none
        let q := { q with st := .armed, calib := none }
        let s :=
          if k.kind = 0 then s.putPort p { q with dark := keys.foldl (fun t i => tabSet 0 t i (m i)) [] }
          else (s.putPort p { q with
              gain := keys.foldl (fun t i => tabSet 0x4000 t i ((gOf i).getD 0xFFFF)) [] }).countPort p 0x5B
            (countIf (fun i => (gOf i).isNone) keys)
        s.reply k.ch k.seq 0x0054 stOK []
      else s
    | _, _ => s)

/-! ### Geometry (R268, R269) -/

/-- First stored row whose paper runs hold column `c`. -/
def firstRow (c : Nat) : List (List (Nat × Nat)) → Nat → Option Nat
  | [], _ => none
  | r :: rest, i => if r.any (fun x => x.1 ≤ c && c ≤ x.2) then some i else firstRow c rest (i + 1)

/-- Euler's series of atan(n/d), in units of 2^-128: term k is the last times 2k/(2k + 1) times x²/(1 + x²). -/
def atanSer (num den : Nat) : Nat → Nat → Nat → Nat → Nat
  | 0, _, _, acc => acc
  | f + 1, k, t, acc => atanSer num den f (k + 1) (t * (2 * k) * num / ((2 * k + 1) * den)) (acc + t)

/-- atan(n/d) in units of 2^-128, for n, d ≥ 0. -/
def atanFix (n d : Nat) : Nat :=
  let base := fun a b => atanSer (a * a) (a * a + b * b) 140 1 (a * b * 2 ^ 128 / (a * a + b * b)) 0
  if n ≤ d then base n d else twoPi128 * 2 - base d n

/-- The least-squares fit y = a + m c over points: numerator of m, numerator of a, common denominator (R268). -/
def fitLine (pts : List (Nat × Nat)) : Int × Int × Int :=
  let n : Int := pts.length
  let sx : Int := sumOf (pts.map Prod.fst)
  let sy : Int := sumOf (pts.map Prod.snd)
  let sxx : Int := sumOf (pts.map (fun p => p.1 * p.1))
  let sxy : Int := sumOf (pts.map (fun p => p.1 * p.2))
  (n * sxy - sx * sy, sy * sxx - sx * sxy, n * sxx - sx * sx)

/-- The geometry block of an ended page (R268, R269). A trail_line before stored line 0 is written as 0 (log 133). -/
def geometryOf (c : PortCfg) (q : Port) (g : Page) : Nat :=
  let left := g.left.getD 0
  let w := g.right - left + 1
  let cols := (List.range (g.right + 1 - 2 * (w / 16) - left)).map (· + (left + w / 16))
  let pts := cols.filterMap (fun x => (firstRow x g.rows 0).map (fun y => (x, y)))
  let failed := g.left.isNone || pts.length < 64
  let (mn, an, dn) := fitLine pts
  let skewMag := rneDiv (atanFix (mn.natAbs * c.aspect) (dn.natAbs * 65536) * 65536) (2 ^ 128)
  let skew : Int := if failed then 0 else if mn < 0 then -(skewMag : Int) else skewMag
  let leadNum := an + mn * left
  let lead : Int := if failed then (g.lead : Int) - g.first else rneInt (leadNum < 0) leadNum.natAbs dn.natAbs
  let trail := if g.capped then g.stored - 1 else match g.trail with | some (t, _) => t - g.first | none => 0
  -- the lines that the page stores (R259, R260)
  let on := fun l => decide (0 < g.stored) && g.first ≤ l && l ≤ g.lastNo
  place g.stored 31 0 + place g.dropped 63 32 + place g.sheet 95 64 + place left 111 96 + place g.right 127 112 +
  place (twos 32 lead) 159 128 + place trail 191 160 + place (twos 32 skew) 223 192 +
  (if g.dropped = 0 then 0 else 2 ^ 224) + (if g.capped then 2 ^ 225 else 0) +
  (if 11438 < skew.natAbs then 2 ^ 226 else 0) + (if failed then 2 ^ 227 else 0) +
  (if q.overLines.any on then 2 ^ 228 else 0) + (if g.err then 2 ^ 229 else 0) +
  (if q.revLines.any on then 2 ^ 230 else 0) + (if g.unpaired then 2 ^ 231 else 0)

/-! ### Stored lines (R271, R272, R425) -/

/-- A page as it would be if it ended at stored line `row` (R428). -/
def Page.upTo (g : Page) (row : Nat) : Page :=
  let rows := g.rows.take (row + 1)
  let ends := rows.flatten
  { g with
    rows := rows, stored := row + 1, lastNo := g.first + row, ended := some (g.first + row), trail := none, capped := false,
    left := ends.foldl (fun (m : Option Nat) x => some (match m with | none => x.1 | some y => min x.1 y)) none,
    right := maxOf (ends.map Prod.snd) }

/-- The mirror message of a stored line. -/
def lineMsg (c : PortCfg) (p : Nat) (q : Port) (g : Page) (row : Nat) (data : Bytes) : MirrorMsg :=
  .pageLine g.ctx g.cq p g.seq row g.start0 g.fin c.colours c.bytes c.outPx c.aspect (geometryOf c q (g.upTo row)) data

/-- The chunks that stored row `row` of a page lies in. -/
def rowChunks (chunks : List Nat) (row pitch : Nat) : List Nat :=
  (chunks.take ((row + 1) * pitch / 2 ^ 20 + 1)).drop (row * pitch / 2 ^ 20)

/-- LINE_STORE_ACCEPTED (R271, R272): the oldest stored line is read from the intake buffers and written by agent LINE_SCAN
(9), and its tokens return; while the device mirrors, the partner gets the line, and the chunks that it lies in count as
occupied once it is acknowledged (R425). -/
def execLineStoreAccepted (p : Nat) (s : State) : Result :=
  .next (
    let q := s.port p
    match q.store with
    | l :: rest =>
      if !s.portLive p then s
      else
        let (s, ok) := s.someReads .intake 0 q.ctx [s.tokenRange p]
        let s := s.putPort p { s.port p with store := rest, tokens := (s.port p).tokens - l.tokens }
        if !ok then s
        else
        let chunks := q.pageChunks l.page
        let s := (chunkPieces chunks (l.row * l.data.length) l.data).foldl (fun (s : State) x => (s.lpWrite 9 p q.ctx x.1 x.2).1) s
        let s := s.countPort p 0x51 1
        match ((q.pages ++ q.page.toList).find? (fun (g : Page) => g.seq == l.page)).bind (fun g =>
            (q.cfgOf g).map (fun c => (g, c))) with
        | some (g, c) =>
          if s.mirroring then s.mirror (lineMsg c p q g l.row l.data) (.chunks p (rowChunks chunks l.row l.data.length)) else s
        | none => s
    | [] => s)

end Sys2Proof.Machine
end

