-- ==== Sys2Proof/Machine/Primer.lean ====
section
/-! DEFINITION. Machine/Primer.lean: the four stages of the primer as functions on images, tile counts, and the intake
bound (R284, R289 to R293, R298). -/

namespace Sys2Proof.Machine

/-- An image: size, sample depth in bits, planes in raster order, and how far each pixel lies inside the image that was
rotated: 65,535 wholly, 0 not at all. An image that was not rotated has no such plane. -/
structure Image2 where
  w : Nat
  h : Nat
  depth : Nat
  planes : List (List Nat)
  cover : List Nat := []
  deriving DecidableEq, Repr

/-- The fields of a primer profile (R289): header of 512 bits, bucket entries of 128 bits. -/
structure Profile where
  hdr : Nat
  buckets : List Nat
  deriving DecidableEq, Repr

/-- Read a profile from the 256 bytes that PRIMER_PROFILE_SET carries at bit 512. -/
def parseProfile (b : Bytes) : Profile :=
  let h := leAt b 0 64
  { hdr := h, buckets := (List.range (fld h 7 4)).map (fun i => leAt b (64 + 16 * i) 16) }

/-- out_format -/
def Profile.fmt (p : Profile) : Nat := fld p.hdr 1 0
/-- colours of out_format -/
def Profile.colours (p : Profile) : Nat := if p.fmt % 2 = 1 then 3 else 1
/-- bytes of a sample of out_format -/
def Profile.bytes (p : Profile) : Nat := if 2 ≤ p.fmt then 2 else 1
/-- deskew_enable -/
def Profile.deskew (p : Profile) : Bool := bit p.hdr 8
/-- fill_value -/
def Profile.fill (p : Profile) : Nat := fld p.hdr 31 16
/-- scale_x -/
def Profile.scale (p : Profile) : Nat := fld p.hdr 63 32
/-- tile_w -/
def Profile.tileW (p : Profile) : Nat := fld p.hdr 79 64
/-- tile_h -/
def Profile.tileH (p : Profile) : Nat := fld p.hdr 95 80
/-- overlap -/
def Profile.overlap (p : Profile) : Nat := fld p.hdr 102 96
/-- crop_margin -/
def Profile.crop (p : Profile) : Nat := fld p.hdr 111 104
/-- cap_side -/
def Profile.capSide (p : Profile) : Nat := if fld p.hdr 143 128 = 0 then 32768 else fld p.hdr 143 128
/-- cap_pixels -/
def Profile.capPixels (p : Profile) : Nat := if fld p.hdr 191 160 = 0 then 268435456 else fld p.hdr 191 160
/-- split_min -/
def Profile.splitMin (p : Profile) : Nat := fld p.hdr 193 192
/-- split_max -/
def Profile.splitMax (p : Profile) : Nat := fld p.hdr 195 194
/-- split_hi_pct -/
def Profile.splitHi (p : Profile) : Nat := fld p.hdr 206 200
/-- split_lo_pct -/
def Profile.splitLo (p : Profile) : Nat := fld p.hdr 214 208
/-- max_tiles of a bucket -/
def maxTiles (b : Nat) : Nat := fld b 15 0
/-- batch_size -/
def batchSize (b : Nat) : Nat := fld b 22 16
/-- age_timeout_us -/
def ageUs (b : Nat) : Nat := fld b 63 32
/-- decode_budget_us -/
def budgetUs (b : Nat) : Nat := fld b 95 64
/-- max_tiles of the last bucket -/
def Profile.lastTiles (p : Profile) : Nat := match p.buckets.getLast? with | some b => maxTiles b | none => 0

/-- Field ranges of R289. -/
def Profile.ok (p : Profile) : Bool :=
  onlyBits p.hdr [(1, 0), (8, 4), (102, 16), (111, 104), (143, 128), (195, 160), (206, 200), (214, 208)] &&
  1 ≤ fld p.hdr 7 4 && fld p.hdr 7 4 ≤ 8 && (2 ≤ p.fmt || p.fill < 256) &&
  0x1000 ≤ p.scale && p.scale ≤ 0x40000 &&
  16 ≤ p.tileW && p.tileW ≤ 2048 && p.tileW % 16 == 0 && 16 ≤ p.tileH && p.tileH ≤ 2048 && p.tileH % 16 == 0 &&
  fld p.hdr 143 128 ≤ 32768 && fld p.hdr 191 160 ≤ 268435456 && p.splitMin ≤ p.splitMax &&
  1 ≤ p.splitHi && p.splitHi ≤ 100 && p.splitLo < p.splitHi &&
  p.buckets.all (fun b => onlyBits b [(22, 0), (95, 32)] && 1 ≤ batchSize b && batchSize b ≤ 64 && 1 ≤ budgetUs b) &&
  (List.range (p.buckets.length - 1)).all (fun i =>
    maxTiles (p.buckets[i]?.getD 0) < maxTiles (p.buckets[i + 1]?.getD 0))

/-- A context's primer profile. -/
def Ctx.prof (c : Ctx) : Option Profile := c.profile.map parseProfile

/-! ### Stage 1: rotation (R290) -/

/-- Sine and cosine of k·2^-16 rad, in units of 2^-128, for k up to 11,438. -/
def sinCosFix (k : Nat) : Int × Int :=
  let r := k * 2 ^ (sfuW - 16)
  let sn := trigSer r 40 1 r false r
  let cs := trigSer r 40 0 (2 ^ sfuW) false (2 ^ sfuW : Nat)
  (sn / (2 ^ (sfuW - 128) : Nat), cs / (2 ^ (sfuW - 128) : Nat))

/-- The angle clamped to 10° (R290). -/
def clampSkew (k : Nat) : Nat := min k 11438

/-- Size of a w × h image rotated by k·2^-16 rad: W' and H' (R290). -/
def rotSize (w h k : Nat) : Nat × Nat :=
  if k = 0 then (w, h)
  else
    let (sn, cs) := sinCosFix (clampSkew k)
    (ceilDiv (w * cs.toNat + h * sn.toNat) (2 ^ 128), ceilDiv (w * sn.toNat + h * cs.toNat) (2 ^ 128))

/-- One move along an axis (R290): linear interpolation at `pos`/2^128, the fraction rounded to 1/256. -/
def shearAt (f : Int → Nat) (pos : Int) : Nat :=
  let q := rneInt (pos < 0) pos.natAbs (2 ^ 120)
  let i := q / 256
  let x := (q % 256).toNat
  rneDiv ((256 - x) * f i + x * f (i + 1)) 256

/-- Rotate one plane by θ = −skew·2^-16 rad by three shears (R290). Coordinates are doubled about the centres. -/
def rotatePlane (w h : Nat) (fill : Nat) (skew : Int) (pl : List Nat) : List Nat :=
  let k := clampSkew skew.natAbs
  let (w', h') := rotSize w h k
  let (sn0, cs) := sinCosFix k
  let b : Int := if skew < 0 then sn0 else -sn0
  let a : Int := b * (2 ^ 128 : Nat) / ((2 ^ 128 : Nat) + cs)
  let at0 := fun (x y : Int) => if 0 ≤ x && x < w && 0 ≤ y && y < h then pl[y.toNat * w + x.toNat]?.getD fill else fill
  -- x on the output grid, y on the input grid
  let im1 := fun (x y : Int) =>
    let y2 : Int := 2 * y - (h - 1)
    shearAt (fun i => at0 i y) ((2 * x - (w' - 1) + (w - 1)) * (2 ^ 127 : Nat) + a * y2 / 2)
  -- x and y on the output grid
  let im2 := fun (x y : Int) =>
    let x2 : Int := 2 * x - (w' - 1)
    shearAt (fun i => im1 x i) ((2 * y - (h' - 1) + (h - 1)) * (2 ^ 127 : Nat) - b * x2 / 2)
  (List.range h').flatMap (fun (y : Nat) => (List.range w').map (fun (x : Nat) =>
    let y2 : Int := 2 * (y : Int) - (h' - 1)
    shearAt (fun i => im2 i y) ((x : Int) * (2 ^ 128 : Nat) + a * y2 / 2)))

/-- fill_value, which is on the output scale, at a depth of `d` bits (R263, R289, R291). -/
def Profile.fillAt (p : Profile) (d : Nat) : Nat :=
  let v := if p.bytes = 1 then p.fill * 257 else p.fill
  if d = 16 then v else min (2 ^ d - 1) (rneDiv v (2 ^ (16 - d)))

/-- fill_value as plane `k` of an image of depth `d` has it: the gray of that value in every colour (log 129). -/
def Profile.fillPlane (p : Profile) (ycc lim : Bool) (d k : Nat) : Nat :=
  if !ycc then p.fillAt d
  else if k ≠ 0 then 2 ^ (d - 1)
  else if lim then 16 * 2 ^ (d - 8) + rneDiv (p.fillAt d * (219 * 2 ^ (d - 8))) (2 ^ d - 1)
  else p.fillAt d

/-- Stage 1 without the crop: rotate where the profile asks for it and the skew is not zero. A position outside the image
takes fill_value, in the image's own colours and depth; `cover` notes which pixels lie outside altogether. -/
def stage1 (p : Profile) (ycc lim : Bool) (skew : Int) (im : Image2) : Image2 :=
  if !p.deskew || skew = 0 then im
  else
    let (w, h) := rotSize im.w im.h skew.natAbs
    { im with
      w := w, h := h,
      planes := ((List.range im.planes.length).zip im.planes).map (fun x =>
        rotatePlane im.w im.h (p.fillPlane ycc lim im.depth x.1) skew x.2),
      cover := rotatePlane im.w im.h 0 skew (List.replicate (im.w * im.h) 65535) }

/-- Crop an image to columns [x0, x1] and rows [y0, y1], clipped to it (R290). -/
def cropImage (im : Image2) (x0 x1 y0 y1 : Int) : Image2 :=
  let cx0 := (max x0 0).toNat
  let cy0 := (max y0 0).toNat
  let w := (min (x1 + 1) im.w).toNat - cx0
  let h := (min (y1 + 1) im.h).toNat - cy0
  { im with w := w, h := h, planes := im.planes.map (fun pl =>
    (List.range h).flatMap (fun y => (pl.drop ((cy0 + y) * im.w + cx0)).take w)) }

/-! ### Stage 2: scale (R291) -/

/-- scale_y as a fraction: scale_x × aspect, aspect 16.16. -/
def scaleY (p : Profile) (aspect : Nat) : Nat × Nat := (p.scale * (if aspect = 0 then 65536 else aspect), 2 ^ 32)

/-- Size on one axis: ceil(input × scale). -/
def scaledLen (n : Nat) (sc : Nat × Nat) : Nat := ceilDiv (n * sc.1) sc.2

/-- Input pixels of output pixel `i` on one axis, with integer weights: exact overlap at a scale of 1 or below, the two
neighbours above it. -/
def axisWeights (n : Nat) (sc : Nat × Nat) (i : Nat) : List (Nat × Nat) :=
  let (num, den) := sc
  if num ≤ den then
    let lo := i * den
    let hi := min ((i + 1) * den) (n * num)
    (List.range (ceilDiv hi num - lo / num)).map (fun k =>
      let j := lo / num + k
      (j, min ((j + 1) * num) hi - max (j * num) lo))
  else
    let pos : Int := ((2 * i + 1) * den : Nat) - (num : Int)
    let i0 := pos / (2 * num : Nat)
    let r := (pos % (2 * num : Nat)).toNat
    let cl := fun (z : Int) => (max 0 (min z ((n : Int) - 1))).toNat
    [(cl i0, 2 * num - r), (cl (i0 + 1), r)]

/-- Resample one plane. -/
def scalePlane (w h : Nat) (sx sy : Nat × Nat) (pl : List Nat) : List Nat :=
  let xs := (List.range (scaledLen w sx)).map (axisWeights w sx)
  let ys := (List.range (scaledLen h sy)).map (axisWeights h sy)
  ys.flatMap (fun wy => xs.map (fun wx =>
    let sum := sumOf (wy.flatMap (fun y => wx.map (fun x => y.2 * x.2 * (pl[y.1 * w + x.1]?.getD 0))))
    let tot := sumOf (wy.map Prod.snd) * sumOf (wx.map Prod.snd)
    if tot = 0 then 0 else rneDiv sum tot))

/-- Stage 2. -/
def stage2 (p : Profile) (aspect : Nat) (im : Image2) : Image2 :=
  let sx := (p.scale, 65536)
  let sy := scaleY p aspect
  { im with
    w := scaledLen im.w sx, h := scaledLen im.h sy, planes := im.planes.map (scalePlane im.w im.h sx sy),
    cover := if im.cover.isEmpty then [] else scalePlane im.w im.h sx sy im.cover }

/-! ### Stage 3: colour (R291) -/

/-- Clamp to a depth. -/
def clampTo (m : Nat) (z : Int) : Nat := if z < 0 then 0 else min m z.toNat

/-- Luma of a source, expanded to full range where it is limited (R291). -/
def expandY (lim : Bool) (d y : Nat) : Int :=
  if lim then rneInt (y < 16 * 2 ^ (d - 8)) (((y : Int) - (16 * 2 ^ (d - 8) : Nat)).natAbs * (2 ^ d - 1)) (219 * 2 ^ (d - 8))
  else y

/-- RGB of one YCbCr pixel, with the matrix in units of 10^-4: Kr and Kb of BT.601 or BT.709 (PRESUMED, log 26). -/
def yccToRgb (bt709 lim : Bool) (d y cb cr : Nat) : Nat × Nat × Nat :=
  let mx := 2 ^ d - 1
  let kr : Int := if bt709 then 2126 else 2990
  let kb : Int := if bt709 then 722 else 1140
  let kg : Int := 10000 - kr - kb
  -- luma and chroma times `den`
  let den : Int := (if lim then 219 * 224 * 2 ^ (d - 8) else 1 : Nat)
  let yy : Int := if lim then ((y : Int) - (16 * 2 ^ (d - 8) : Nat)) * (mx * 224 : Nat) else y
  let ch := fun (c : Nat) => ((c : Int) - (2 ^ (d - 1) : Nat)) * (if lim then mx * 219 else 1 : Nat)
  let r := fun (z : Int) (q : Int) => clampTo mx (rneInt (z < 0) z.natAbs (q * den).natAbs)
  (r (yy * 10000 + 2 * (10000 - kr) * ch cr) 10000,
   r (yy * (10000 * kg) - 2 * kb * (10000 - kb) * ch cb - 2 * kr * (10000 - kr) * ch cr) (10000 * kg),
   r (yy * 10000 + 2 * (10000 - kb) * ch cb) 10000)

/-- Change a sample's depth: bit replication upward, R263's rounding from 16 to 8. -/
def toDepth (d e v : Nat) : Nat :=
  let v16 := if d = 8 then v * 257 else if d = 10 then v * 64 + v / 16 else v
  if d = e then v else if e = 16 then v16 else min 255 ((v16 + 128) / 256)

/-- Stage 3: an image of RGB, GRAY or YCbCr planes in the colours and depth of out_format. A pixel that lies outside the
rotated image altogether is fill_value (R290). -/
def stage3 (p : Profile) (ycc bt709 lim : Bool) (im : Image2) : Image2 :=
  let mx := 2 ^ im.depth - 1
  let plane := fun k => im.planes[k]?.getD []
  let rgb : List (Nat × Nat × Nat) :=
    if ycc && im.planes.length = 3 then
      ((plane 0).zip ((plane 1).zip (plane 2))).map (fun q => yccToRgb bt709 lim im.depth q.1 q.2.1 q.2.2)
    else if im.planes.length = 3 then (plane 0).zip ((plane 1).zip (plane 2))
    else (plane 0).map (fun y => let v := clampTo mx (if ycc then expandY lim im.depth y else y); (v, v, v))
  let gray : List Nat :=
    if ycc then (plane 0).map (fun y => clampTo mx (expandY lim im.depth y))
    else if im.planes.length = 3 then rgb.map (fun q => (77 * q.1 + 150 * q.2.1 + 29 * q.2.2 + 128) / 256)
    else plane 0
  let e := 8 * p.bytes
  let cv := toDepth im.depth e
  let planes := if p.colours = 1 then [gray.map cv]
    else [rgb.map (fun q => cv q.1), rgb.map (fun q => cv q.2.1), rgb.map (fun q => cv q.2.2)]
  let put := fun (pl : List Nat) => if im.cover.isEmpty then pl
    else List.zipWith (fun v c => if c = 0 then p.fill else v) pl im.cover
  { im with depth := e, planes := planes.map put, cover := [] }

/-! ### Stage 4: tiles (R292) -/

/-- Tiles across and down. -/
def tilesOf (p : Profile) (w h : Nat) : Nat × Nat := (ceilDiv w p.tileW, ceilDiv h p.tileH)

/-- The tile of a blank placeholder (R295): every sample is fill_value. -/
def blankTile (p : Profile) : Bytes :=
  (List.replicate ((p.tileW + 2 * p.overlap) * (p.tileH + 2 * p.overlap) * p.colours) (toLe p.bytes p.fill)).flatten

/-- One tile: planar, its core with overlap pixels on every side, fill_value outside the image. -/
def tileBytes (p : Profile) (im : Image2) (tx ty : Nat) : Bytes :=
  let o := p.overlap
  im.planes.flatMap (fun pl =>
    (List.range (p.tileH + 2 * o)).flatMap (fun y => (List.range (p.tileW + 2 * o)).flatMap (fun x =>
      let px := tx * p.tileW + x
      let py := ty * p.tileH + y
      let v := if o ≤ px && o ≤ py && px - o < im.w && py - o < im.h then pl[(py - o) * im.w + (px - o)]?.getD p.fill
        else p.fill
      toLe p.bytes v)))

/-- The tiles of one view in row-major order, with their table entries (view, column, row). -/
def stage4 (p : Profile) (view : Nat) (im : Image2) : List (Bytes × (Nat × Nat × Nat)) :=
  let (nx, ny) := tilesOf p im.w im.h
  (List.range ny).flatMap (fun y => (List.range nx).map (fun x => (tileBytes p im x y, (view, x, y))))

/-! ### Tile counts and buckets (R292, R293) -/

/-- Tile count of an image of w × h that still has stages `level` + 1 to 4 before it. -/
def tileCount (p : Profile) (level : Nat) (skew : Int) (aspect w h : Nat) : Nat :=
  let (w, h) := if 1 ≤ level || !p.deskew || skew = 0 then (w, h) else rotSize w h skew.natAbs
  let (w, h) := if 2 ≤ level then (w, h) else (scaledLen w (p.scale, 65536), scaledLen h (scaleY p aspect))
  let (nx, ny) := tilesOf p w h
  nx * ny

/-- The first bucket that holds a tile count (R293). -/
def Profile.bucketOf (p : Profile) (tiles : Nat) : Option Nat :=
  (List.range p.buckets.length).find? (fun i => tiles ≤ maxTiles (p.buckets[i]?.getD 0))

/-- Tile count of a port's largest page (R289). -/
def Profile.largestPage (p : Profile) (c : PortCfg) : Nat := tileCount p 0 11438 c.aspect c.outPx c.cap

/-- A port's largest page fits the profile's last bucket. -/
def Profile.takesPort (p : Profile) (c : PortCfg) : Bool := p.largestPage c ≤ p.lastTiles

/-- The view breaks the dimension caps (R284). -/
def Profile.breaksCaps (p : Profile) (w h : Nat) : Bool := p.capSide < w || p.capSide < h || p.capPixels < w * h

/-! ### The intake bound (R298) -/

/-- t_pri in ns, doubled numerators kept exact: 20000 + (3 S_rot + S_scl + P_col)/6 + B_tile/12, rounded up. -/
def tPri (sRot sScl pCol bTile : Nat) : Nat := 20000 + ceilDiv (2 * (3 * sRot + sScl + pCol) + bTile) 12

/-- Work of the stages that the device does at `level`, for `n` views in `col` colours whose stage-1 input has `area` pixels
and, rotated by 10°, `rot` pixels. -/
def intakeWork (p : Profile) (level area rot col n : Nat) : Nat :=
  let sRot := if p.deskew && level = 0 then rot * col * n else 0
  let sScl := if 2 ≤ level then 0 else if level = 0 && p.deskew then rot * col * n else area * col * n
  let pCol := if 3 ≤ level then 0 else p.lastTiles * p.tileW * p.tileH
  let bTile := p.lastTiles * (p.tileW + 2 * p.overlap) * (p.tileH + 2 * p.overlap) * p.colours * p.bytes
  tPri sRot sScl pCol bTile

/-- Pixels of a w × h image rotated by 10° (R298). -/
def rotArea (w h : Nat) : Nat := (rotSize w h 11438).1 * (rotSize w h 11438).2

/-- The heights that the caps allow with each width: the width and the greatest height. -/
def Profile.views (p : Profile) : List (Nat × Nat) :=
  (List.range p.capSide).map (fun i => (i + 1, min p.capSide (p.capPixels / (i + 1))))

/-- The largest view that the caps allow (R298): the most pixels, and the most pixels rotated by 10°. Both rise with the
height, so each width counts with its greatest height. -/
def Profile.largestView (p : Profile) : Nat × Nat :=
  let vs := p.views.filter (fun v => 0 < v.2)
  (vs.foldl (fun m v => max m (v.1 * v.2)) 0,
   if p.deskew then vs.foldl (fun m v => max m (rotArea v.1 v.2)) 0 else 0)

/-- t_age: the largest age_timeout_us over buckets of more than one slot, in ns. -/
def Profile.tAge (p : Profile) : Nat := 1000 * maxOf ((p.buckets.filter (fun b => 1 < batchSize b)).map ageUs)

/-- t_dec: the largest decode budget, in ns. -/
def Profile.tDec (p : Profile) : Nat := 1000 * maxOf (p.buckets.map budgetUs)

/-- b_intake of a port. -/
def Profile.intakePort (p : Profile) (c : PortCfg) : Nat :=
  intakeWork p 0 (c.outPx * c.cap) (rotArea c.outPx c.cap) c.colours 1 + p.tAge + 100000

/-- b_intake of a submission queue or stream: 16 views, or one for a LIVE stream. -/
def Profile.intakeSource (p : Profile) (views : Nat) : Nat :=
  let (area, rot) := p.largestView
  p.tDec + intakeWork p p.splitMin area rot 3 views + p.tAge

end Sys2Proof.Machine
end

