-- ==== Sys2Proof/Machine/Records.lean ====
section
/-! DEFINITION. Machine/Records.lean: result bodies and the records that end items and descriptors (R8, R16, R359 to
R363). -/

namespace Sys2Proof.Machine

/-- Field entries and texts of a result body (R363), from offset `at0`: entries, then texts. -/
def fieldEntries : List (FieldOut × Nat) → Nat → Bytes × Bytes
  | [], _ => ([], [])
  | (f, conf) :: r, o =>
    let (es, ts) := fieldEntries r (o + f.text.length)
    let b := place f.endedBy 3 0 + (if f.overflow then 16 else 0) + (if f.accept then 32 else 0)
    (toLe 1 (if f.dead then stNoToken else stOK) ++ toLe 1 b ++ toLe 2 conf ++ toLe 4 f.payload ++ toLe 4 o ++
      toLe 2 f.text.length ++ toLe 2 f.tokens ++ es, f.text ++ ts)

/-- A result body (R363). The item status at byte 8 is written with the record. -/
def resultBody (itemId capture ref : Nat) (digest : Bytes) (geometry : Option Nat) (fs : List (FieldOut × Nat)) : Bytes :=
  let (es, ts) := fieldEntries fs (128 + 16 * fs.length)
  let hdr := toLe 8 itemId ++ toLe 1 0 ++ toLe 1 (if geometry.isSome then 1 else 0) ++ toLe 1 fs.length ++ zeros 5 ++
    toLe 8 capture ++ toLe 8 ref ++ padTo 32 digest ++ toLe 32 (geometry.getD 0) ++ zeros 32
  let b := hdr ++ es ++ ts
  padTo (64 * ceilDiv b.length 64) b

/-- The confidences of `n` fields: the schedule image computes them (R363), and no rule says where; free (log 27). -/
def State.confidences (s : State) : Nat → State × List Nat
  | 0 => (s, [])
  | n + 1 =>
    let (c, s) := s.freeNat
    let (s, r) := State.confidences s n
    (s, c % 65536 :: r)

/-- The CQ of a submission queue (R350). -/
def State.sqCq (s : State) (q : Nat) : Nat := match tabFind s.hq q with | some h => fld h.binding 29 16 | none => 0

/-- The device deadline of an item of a context, from its reference instant (R21, R302); none for best effort. -/
def State.deadlineOf (s : State) (c ref : Nat) : Option Nat :=
  match s.ctx? c with
  | some x => if x.realTime then some (ref + 1000 * x.deadlineUs) else none
  | none => none

/-- The geometry block of a page, with its port and sequence number. -/
def State.pageGeometry (s : State) (port seq : Nat) : Option Nat :=
  ((tabGet {} s.ports port).pages.find? (fun g => g.seq == seq)).bind Page.geometry

/-- The MARKERs of an SQ that complete now: every descriptor fetched before them has completed (R359). -/
def markersDue (ready : Nat → Bool) : List Desc → List Nat
  | [] => []
  | d :: r =>
    if d.done || ready d.no then markersDue ready r
    else if fld d.word 7 0 = 4 then d.no :: markersDue ready r
    else []

/-- Mark a descriptor complete and make its completion record ready (R359). -/
def State.readyDesc (s : State) (q no status detail : Nat) : State :=
  match tabFind s.hq q with
  | none => s
  | some h =>
    match h.outst.find? (fun d => d.no == no) with
    | none => s
    | some d =>
      let mark := fun (x : Desc) => if x.no = no then { x with done := true, status := status, detail := detail } else x
      let s := s.setHq (tabUpd s.hq q (fun h => { h with outst := h.outst.map mark }))
      s.pushRec (s.sqCq q)
        { kind := 0, status := status, sq := some q, descNo := no, itemId := fld d.word 63 32, ctx := h.ctx,
          detail := detail, replayed := d.replayed }

/-- MARKERs of a submission queue complete once everything before them has (R359). -/
def State.settleMarkers (s : State) (q : Nat) : State :=
  match tabFind s.hq q with
  | none => s
  | some h =>
    let recs := match tabFind s.hq (s.sqCq q) with | some c => c.ready | none => []
    let ready := fun no => recs.any (fun r => r.sq == some q && r.descNo == no)
    (markersDue ready h.outst).foldl (fun (s : State) no => s.readyDesc q no stOK 0) s

/-- A context's work may be begun: it runs and has not been told to stop. -/
def State.ctxRuns (s : State) (c : Nat) : Bool :=
  match s.ctx? c with | some x => x.st == .running && !x.stopping && !x.restoring | none => false

/-! ### Buffers of an item in its context's LPDDR5 (R21, R278, R292; log 150) -/

/-- Give a buffer back. -/
def State.bufFree (s : State) (b : Option (Nat × Nat)) : State :=
  match b with
  | some (a, n) => s.lpFree a n
  | none => s

/-- Write bytes into a new buffer, as an agent; none where the context's LPDDR5 has no room. -/
def State.bufPut (s : State) (agent ctx : Nat) (b : Bytes) : Option (Option (Nat × Nat) × State) :=
  if b.isEmpty then some (none, s)
  else (s.lpAlloc (ctx + 1) b.length).map (fun r => (some (r.1, b.length), (r.2.lpWrite agent 0 (some ctx) r.1 b).1))

/-- Read a buffer, as an agent; none where a word of it cannot be corrected. -/
def State.bufGet (s : State) (agent ctx : Nat) (b : Option (Nat × Nat)) : State × Option Bytes :=
  match b with
  | some (a, n) => s.lpRead agent 0 (some ctx) a n
  | none => (s, some [])

/-- An item's buffers go with it. -/
def State.freeItemBufs (s : State) (it : Item) : State :=
  (it.views.foldl (fun (s : State) v => (s.bufFree v.copy).bufFree v.buf) s).bufFree it.tilesAt

/-- A live frame. -/
def Item.isLive (it : Item) : Bool := match it.kind with | .live _ => true | _ => false

/-- Finish an item: its result record becomes ready for its CQ (R8, R10), with what its read produced. Where its last view
was never read, its reference time is that of its end (log 121). A live read's newest frame is the one of its batch slot
(R7, log 122). -/
def State.finishItem (s : State) (n : Nat) (status : Nat) (fields : List FieldOut) (read : Bool) : State :=
  match tabFind s.intake.items n with
  | none => s
  | some it =>
    let ref := it.ref.getD s.clk.time
    let digest := match s.ctx? it.ctx with | some x => if read then x.modelDigest else [] | none => []
    let (s, conf) := s.confidences fields.length
    let geo := match it.kind with
      | .page p q => some ((s.pageGeometry p q).getD 0)
      | .mirrored _ _ g _ => some g
      | _ => none
    let id := match it.kind with
      | .live n => 2 ^ 63 + n % 64 * 2 ^ 48 + (match tabFind s.intake.streams n with | some x => x.reads | none => 0) % 2 ^ 48
      | _ => it.itemId
    let body := resultBody id it.capture ref digest geo (fields.zip conf)
    let r : Rec :=
      { kind := 1, status := status, itemId := it.itemId, ctx := it.ctx, body := body,
        deadline := s.deadlineOf it.ctx ref, replayed := it.replayed }
    let s := (s.setIntake { s.intake with items := tabDel s.intake.items n }).freeItemBufs it
    match it.kind with
    | .page p q => s.pushRec it.cq { r with page := some (p, q) }
    | .mirrored _ _ _ lost => s.pushRec it.cq { r with status := if lost && status = stOK then stIncomplete else status }
    | .sample q d => (s.pushRec it.cq { r with sq := some q, descNo := d }).settleMarkers q
    | .live n =>
      if read then
        (s.setIntake { s.intake with streams := tabUpd s.intake.streams n (fun x => { x with reads := x.reads + 1 }) }).pushRec
          it.cq { r with kind := 2, itemId := id }
      else s

/-- Complete a descriptor with a completion record (R359). -/
def State.completeDesc (s : State) (q no status detail : Nat) : State :=
  (s.readyDesc q no status detail).settleMarkers q

end Sys2Proof.Machine
end

