-- ==== Sys2Proof/Machine/Png.lean ====
section
/-! DEFINITION. Machine/Png.lean: what the PNG decoder makes of a file (R281): the PNG specification, second edition, with the
zlib and DEFLATE formats that it names (external standards). -/

namespace Sys2Proof.Machine

/-- Big-endian number in `n` bytes at `o`. -/
def beAt (b : Bytes) (o n : Nat) : Nat := leNat (slice b o n).reverse

/-! ### Checks: CRC-32 and Adler-32 -/

/-- One bit of the CRC-32 of PNG. -/
def crcBit : Nat → Nat → Nat
  | 0, c => c
  | n + 1, c => crcBit n (if c % 2 = 1 then Nat.xor 0xEDB88320 (c / 2) else c / 2)

/-- The CRC-32 of a byte string. -/
def crc32 (b : Bytes) : Nat := Nat.xor 0xFFFFFFFF (b.foldl (fun c x => crcBit 8 (Nat.xor c x.toNat)) 0xFFFFFFFF)

/-- The Adler-32 of a list of byte values. -/
def adler32 (b : List Nat) : Nat :=
  let (x, y) := b.foldl (fun (p : Nat × Nat) v => let x := (p.1 + v) % 65521; (x, (p.2 + x) % 65521)) (1, 0)
  y * 65536 + x

/-! ### DEFLATE -/

/-- A number of `n` bits, the least significant first, with the bits that follow. -/
def takeBits : Nat → List Bool → Option (Nat × List Bool)
  | 0, l => some (0, l)
  | _ + 1, [] => none
  | n + 1, x :: l => (takeBits n l).map (fun r => ((if x then 1 else 0) + 2 * r.1, r.2))

/-- The next symbol of the canonical Huffman code with lengths `lens`: `code` of `len` bits has been read, and `first` is the
first code of the next length. -/
def huffSym (lens : List Nat) : Nat → Nat → Nat → Nat → List Bool → Option (Nat × List Bool)
  | 0, _, _, _, _ => none
  | _ + 1, _, _, _, [] => none
  | f + 1, len, code, first, x :: l =>
    let code := 2 * code + (if x then 1 else 0)
    let syms := (List.range lens.length).filter (fun i => lens[i]? == some (len + 1))
    match (if first ≤ code then syms[code - first]? else none) with
    | some y => some (y, l)
    | none => huffSym lens f (len + 1) code (2 * (first + syms.length)) l

/-- The next symbol of a code. -/
def nextSym (lens : List Nat) (l : List Bool) : Option (Nat × List Bool) := huffSym lens 15 0 0 0 l

/-- Base and extra bits of a length symbol 257 to 285. -/
def lengthCode (y : Nat) : Nat × Nat :=
  if y < 265 then (y - 254, 0)
  else if y = 285 then (258, 0)
  else let e := (y - 261) / 4; (3 + 4 * 2 ^ e + (y - 261) % 4 * 2 ^ e, e)

/-- Base and extra bits of a distance symbol 0 to 29. -/
def distCode (y : Nat) : Nat × Nat :=
  if y < 4 then (y + 1, 0) else let e := (y - 2) / 2; (1 + 2 * 2 ^ e + y % 2 * 2 ^ e, e)

/-- Copy `n` bytes from `d` back; the output stands newest first. -/
def copyBack (d : Nat) : Nat → List Nat → List Nat
  | 0, out => out
  | n + 1, out => copyBack d n (out[d - 1]?.getD 0 :: out)

/-- The symbols of one compressed block, to its end. The fuel is at least the number of bits. -/
def inflateBlock (lit dist : List Nat) : Nat → List Nat → List Bool → Option (List Nat × List Bool)
  | 0, _, _ => none
  | f + 1, out, l =>
    match nextSym lit l with
    | none => none
    | some (y, l) =>
      if y < 256 then inflateBlock lit dist f (y :: out) l
      else if y = 256 then some (out, l)
      else if 285 < y then none
      else
        match takeBits (lengthCode y).2 l with
        | none => none
        | some (x, l) =>
          match nextSym dist l with
          | none => none
          | some (z, l) =>
            if 29 < z then none
            else
              match takeBits (distCode z).2 l with
              | none => none
              | some (w, l) =>
                let d := (distCode z).1 + w
                if out.length < d then none
                else inflateBlock lit dist f (copyBack d ((lengthCode y).1 + x) out) l

/-- The code lengths of a dynamic block: `n` of them, each symbol of the code-length code in turn. -/
def codeLengths (cl : List Nat) (n : Nat) : Nat → List Nat → List Bool → Option (List Nat × List Bool)
  | 0, _, _ => none
  | f + 1, got, l =>
    if n ≤ got.length then (if got.length = n then some (got, l) else none)
    else
      match nextSym cl l with
      | none => none
      | some (y, l) =>
        if y < 16 then codeLengths cl n f (got ++ [y]) l
        else if y = 16 && got.isEmpty then none
        else
          let (base, e) := if y = 16 then (3, 2) else if y = 17 then (3, 3) else (11, 7)
          match takeBits e l with
          | none => none
          | some (x, l) => codeLengths cl n f (got ++ List.replicate (base + x) (if y = 16 then got.getLast?.getD 0 else 0)) l

/-- The lengths of the code-length code, in the order in which they stand. -/
def clOrder : List Nat := [16, 17, 18, 0, 8, 7, 9, 6, 10, 5, 11, 4, 12, 3, 13, 2, 14, 1, 15]

/-- `n` numbers of three bits. -/
def takeThrees : Nat → List Bool → Option (List Nat × List Bool)
  | 0, l => some ([], l)
  | n + 1, l => (takeBits 3 l).bind (fun x => (takeThrees n x.2).map (fun r => (x.1 :: r.1, r.2)))

/-- The two codes of a dynamic block. -/
def dynamicCodes (l : List Bool) : Option (List Nat × List Nat × List Bool) :=
  match takeBits 14 l with
  | none => none
  | some (h, l) =>
    let nLit := 257 + h % 32
    let nDist := 1 + h / 32 % 32
    match takeThrees (4 + h / 1024) l with
    | none => none
    | some (ts, l) =>
      let cl := (List.range 19).map (fun y => ((clOrder.idxOf? y).bind (fun i => ts[i]?)).getD 0)
      (codeLengths cl (nLit + nDist) (nLit + nDist + 1) [] l).map (fun r => (r.1.take nLit, r.1.drop nLit, r.2))

/-- The lengths of the fixed code. -/
def fixedLit : List Nat :=
  List.replicate 144 8 ++ List.replicate 112 9 ++ List.replicate 24 7 ++ List.replicate 8 8

/-- A DEFLATE stream, block by block; `all` bits in the whole stream give the place of a byte boundary. -/
def inflateBlocks (all : Nat) : Nat → List Nat → List Bool → Option (List Nat × List Bool)
  | 0, _, _ => none
  | f + 1, out, l =>
    match takeBits 3 l with
    | none => none
    | some (h, l) =>
      let body :=
        if h / 2 = 0 then
          let l := l.drop (l.length % 8)
          match takeBits 32 l with
          | none => none
          | some (n, l) =>
            let len := n % 65536
            if n / 65536 ≠ 65535 - len || l.length < 8 * len then none
            else
              let bytes := (List.range len).map (fun i => ((takeBits 8 (l.drop (8 * i))).map Prod.fst).getD 0)
              some (bytes.reverse ++ out, l.drop (8 * len))
        else if h / 2 = 1 then inflateBlock fixedLit (List.replicate 30 5) (all + 1) out l
        else if h / 2 = 2 then (dynamicCodes l).bind (fun c => inflateBlock c.1 c.2.1 (all + 1) out c.2.2)
        else none
      match body with
      | none => none
      | some (out, l) => if h % 2 = 1 then some (out, l) else inflateBlocks all f out l

/-- A zlib stream: its bytes, where header, blocks and Adler-32 are right. -/
def zlib (b : Bytes) : Option (List Nat) :=
  let cmf := beAt b 0 1
  let flg := beAt b 1 1
  if b.length < 6 || cmf % 16 ≠ 8 || 7 < cmf / 16 || (cmf * 256 + flg) % 31 ≠ 0 || bit flg 5 then none
  else
    let bits := (b.drop 2).flatMap (fun x => (List.range 8).map (fun i => bit x.toNat i))
    match inflateBlocks bits.length (bits.length + 1) [] bits with
    | none => none
    | some (out, l) =>
      let tail := b.drop (b.length - l.length / 8)
      let bytes := out.reverse
      if 4 ≤ tail.length && beAt tail 0 4 == adler32 bytes then some bytes else none

/-! ### Chunks, filters and passes -/

/-- The chunks of a PNG file from offset `o`, to IEND: type, and data. None where one breaks off or a critical one has a wrong
CRC (R281). -/
def pngChunks (b : Bytes) : Nat → Nat → Option (List (Nat × Bytes))
  | 0, _ => none
  | f + 1, o =>
    let n := beAt b o 4
    let ty := beAt b (o + 4) 4
    if b.length < o + 12 + n then none
    else if !bit ty 29 && crc32 (slice b (o + 4) (n + 4)) ≠ beAt b (o + 8 + n) 4 then none
    else if ty = 0x49454E44 then some []
    else (pngChunks b f (o + 12 + n)).map (fun r => (ty, slice b (o + 8) n) :: r)

/-- The filter PaethPredictor. -/
def paeth (a b c : Nat) : Nat :=
  let p : Int := (a : Int) + b - c
  let pa := (p - a).natAbs
  let pb := (p - b).natAbs
  let pc := (p - c).natAbs
  if pa ≤ pb && pa ≤ pc then a else if pb ≤ pc then b else c

/-- Undo a row's filter: `up` is the row above, `done` what has been undone, newest first, and `u` the bytes of a pixel. -/
def unfilter (ft u : Nat) (up : List Nat) : List Nat → List Nat → List Nat
  | done, [] => done.reverse
  | done, x :: r =>
    let i := done.length
    let a := if u ≤ i then done[u - 1]?.getD 0 else 0
    let b := up[i]?.getD 0
    let c := if u ≤ i then up[i - u]?.getD 0 else 0
    let p := match ft with | 0 => 0 | 1 => a | 2 => b | 3 => (a + b) / 2 | _ => paeth a b c
    unfilter ft u up ((x + p) % 256 :: done) r

/-- The `h` rows of a pass of `n` bytes each, with the bytes that follow. -/
def passRows (u n : Nat) : Nat → List Nat → List Nat → Option (List (List Nat) × List Nat)
  | 0, _, l => some ([], l)
  | h + 1, up, l =>
    match l with
    | [] => none
    | ft :: l =>
      if 4 < ft || l.length < n then none
      else
        let row := unfilter ft u up [] (l.take n)
        (passRows u n h row (l.drop n)).map (fun r => (row :: r.1, r.2))

/-- The passes of a picture, Adam7 or a single one: first column and row, and their steps. -/
def pngPasses (adam7 : Bool) : List (Nat × Nat × Nat × Nat) :=
  if adam7 then [(0, 0, 8, 8), (4, 0, 8, 8), (0, 4, 4, 8), (2, 0, 4, 4), (0, 2, 2, 4), (1, 0, 2, 2), (0, 1, 1, 2)]
  else [(0, 0, 1, 1)]

/-- The rows of every pass, for a picture of `w` × `h` pixels of `bpp` bits. -/
def allPasses (w h bpp : Nat) : List (Nat × Nat × Nat × Nat) → List Nat → Option (List (List (List Nat)))
  | [], _ => some []
  | (x0, y0, dx, dy) :: r, l =>
    let pw := ceilDiv (w - x0) dx
    let ph := ceilDiv (h - y0) dy
    match (if pw = 0 then some ([], l) else passRows (max 1 (bpp / 8)) (ceilDiv (pw * bpp) 8) ph [] l) with
    | none => none
    | some (rows, l) => (allPasses w h bpp r l).map (fun t => rows :: t)

/-- Sample `i` of a row of bytes, of `d` bits. -/
def rowSample (row : List Nat) (d i : Nat) : Nat :=
  if d = 16 then 256 * row[2 * i]?.getD 0 + row[2 * i + 1]?.getD 0
  else row[i * d / 8]?.getD 0 / 2 ^ (8 - d - i * d % 8) % 2 ^ d

/-- A PNG file decoded (R281): its sample depth, and the planes of its pixels. Alpha is discarded, a palette expands to RGB, and
grey samples of fewer than 8 bits are scaled by bit replication. None where the file cannot be decoded. -/
def pngDecode (b : Bytes) : Option (Nat × List (List Nat)) :=
  match pngChunks b b.length 8 with
  | none => none
  | some cs =>
    let w := beAt b 16 4
    let h := beAt b 20 4
    let d := beAt b 24 1
    let ct := beAt b 25 1
    let ch := match ct with | 2 => 3 | 4 => 2 | 6 => 4 | _ => 1
    let pal := ((cs.find? (fun c => c.1 == 0x504C5445)).map Prod.snd).getD []
    let known := cs.all (fun c => bit c.1 29 || [0x49484452, 0x504C5445, 0x49444154].contains c.1)
    let passes := pngPasses (beAt b 28 1 == 1)
    match (zlib ((cs.filter (fun c => c.1 == 0x49444154)).flatMap Prod.snd)).bind (allPasses w h (d * ch) passes) with
    | none => none
    | some rows =>
      let at0 := fun (x y k : Nat) =>
        match ((List.range passes.length).zip passes).find? (fun p =>
          p.2.1 ≤ x && p.2.2.1 ≤ y && (x - p.2.1) % p.2.2.2.1 == 0 && (y - p.2.2.1) % p.2.2.2.2 == 0) with
        | some (i, x0, y0, dx, dy) =>
          rowSample (((rows[i]?.getD [])[(y - y0) / dy]?).getD []) d ((x - x0) / dx * ch + k)
        | none => 0
      let grid := fun (g : Nat → Nat → Nat) => (List.range h).flatMap (fun y => (List.range w).map (fun x => g x y))
      let idx := (grid (fun x y => at0 x y 0))
      if !known || (ct = 3 && idx.any (fun v => pal.length < 3 * v + 3)) then none
      else if ct = 3 then some (8, (List.range 3).map (fun k => idx.map (fun v => leAt pal (3 * v + k) 1)))
      else if d = 16 then some (16, (List.range (if ct = 2 || ct = 6 then 3 else 1)).map (fun k => grid (fun x y => at0 x y k)))
      else some (8, (List.range (if ct = 2 || ct = 6 then 3 else 1)).map (fun k =>
        grid (fun x y => at0 x y k * 255 / (2 ^ d - 1))))

end Sys2Proof.Machine
end

