-- ==== Sys2Proof/Machine/Intake.lean ====
section
/-! DEFINITION. Machine/Intake.lean: views, decode outcomes, buckets and batches (12_streams_and_primer.md). -/

namespace Sys2Proof.Machine

/-! ### Declared dimensions (R293): T.81 SOF, PNG IHDR, TIFF IFD (external standards) -/

/-- The components of a JPEG frame header at `o` have sampling factors of 1 or 2 (R281). -/
def jpegFactors (b : Bytes) (o n : Nat) : Bool :=
  (List.range n).all (fun i =>
    let f := beAt b (o + 3 * i + 1) 1
    (f / 16 == 1 || f / 16 == 2) && (f % 16 == 1 || f % 16 == 2))

/-- The frame header of a JPEG stream from offset `o`, baseline (SOF0) or progressive (SOF2), 8-bit samples (R281): width,
height, components. A hierarchical stream begins with DHP. -/
def jpegSof (b : Bytes) : Nat → Nat → Option (Nat × Nat × Nat)
  | 0, _ => none
  | f + 1, o =>
    if b.length ≤ o + 3 || beAt b o 1 ≠ 0xFF then none
    else
      let m := beAt b (o + 1) 1
      if m = 0xFF then jpegSof b f (o + 1)
      else if m = 0xC0 || m = 0xC2 then
        if beAt b (o + 4) 1 = 8 && jpegFactors b (o + 10) (beAt b (o + 9) 1) then
          some (beAt b (o + 7) 2, beAt b (o + 5) 2, beAt b (o + 9) 1)
        else none
      else if m = 0xC1 || (0xC3 ≤ m && m ≤ 0xCF && m ≠ 0xC4 && m ≠ 0xC8 && m ≠ 0xCC) || m = 0xDA || m = 0xD9 || m = 0xDE then none
      else jpegSof b f (o + 2 + beAt b (o + 2) 2)

/-- Dimensions of a JPEG view: baseline or progressive, 1 or 3 components (R281). -/
def jpegDims (b : Bytes) : Option (Nat × Nat × Nat) :=
  if beAt b 0 2 ≠ 0xFFD8 then none
  else match jpegSof b 1024 2 with
    | some (w, h, c) => if c = 1 || c = 3 then some (w, h, c) else none
    | none => none

/-- Dimensions of a PNG view, from IHDR. Alpha is discarded; a palette expands to RGB (R281). -/
def pngDims (b : Bytes) : Option (Nat × Nat × Nat) :=
  if beAt b 0 8 ≠ 0x89504E470D0A1A0A || beAt b 12 4 ≠ 0x49484452 then none
  else
    let ct := beAt b 25 1
    let d := beAt b 24 1
    let depths := if ct = 0 then [1, 2, 4, 8, 16] else if ct = 3 then [1, 2, 4, 8] else [8, 16]
    if beAt b 8 4 ≠ 13 || !depths.contains d || beAt b 26 2 ≠ 0 || 1 < beAt b 28 1 then none
    else if ct = 0 || ct = 4 then some (beAt b 16 4, beAt b 20 4, 1)
    else if ct = 2 || ct = 3 || ct = 6 then some (beAt b 16 4, beAt b 20 4, 3) else none

/-- The IFD of index `k` of a TIFF file, by its offset. -/
def tiffIfd (rd : Nat → Nat → Nat) (len : Nat) : Nat → Nat → Option Nat
  | 0, o => if o = 0 || len ≤ o then none else some o
  | k + 1, o => if o = 0 || len ≤ o then none else tiffIfd rd len k (rd (o + 2 + 12 * rd o 2) 4)

/-- The values of the directory entry at `e` (TIFF 6.0): BYTE, SHORT or LONG, in the entry itself where they fit in four
bytes, else at its offset; none where they lie beyond the file. -/
def tiffVals (rd : Nat → Nat → Nat) (len e : Nat) : Option (List Nat) :=
  let size := match rd (e + 2) 2 with | 1 => 1 | 3 => 2 | 4 => 4 | _ => 0
  let n := rd (e + 4) 4
  let at0 := if size * n ≤ 4 then e + 8 else rd (e + 8) 4
  if size = 0 || n = 0 || len < at0 + size * n then none else some ((List.range n).map (fun i => rd (at0 + size * i) size))

/-- The pieces of a TIFF image, strips or tiles, lie in the file. -/
def tiffPieces (len : Nat) (offs counts : Option (List Nat)) : Bool :=
  match offs, counts with
  | some os, some cs => os.length == cs.length && (os.zip cs).all (fun x => decide (x.1 + x.2 ≤ len))
  | _, _ => false

/-- A TIFF view: ImageWidth, ImageLength and planes, BitsPerSample and Compression of the named IFD, where its tags have the
values of R282 and its strips or tiles lie in the file. The tags required are those that decoding needs and TIFF 6.0 gives no
default (log 132). -/
def tiffTags (b : Bytes) (ifd : Nat) : Option ((Nat × Nat × Nat) × Nat × Nat) :=
  let little := beAt b 0 2 == 0x4949
  let rd := fun o n => if little then leAt b o n else beAt b o n
  if (beAt b 0 2 ≠ 0x4949 && beAt b 0 2 ≠ 0x4D4D) || rd 2 2 ≠ 42 then none
  else match tiffIfd rd b.length ifd (rd 4 4) with
    | none => none
    | some o =>
      let at0 := fun t => ((List.range (rd o 2)).find? (fun i => rd (o + 2 + 12 * i) 2 == t)).map (fun i => o + 2 + 12 * i)
      let vals := fun t => (at0 t).bind (tiffVals rd b.length)
      let one := fun t => (vals t).bind List.head?
      -- a tag with a default: absent, or with values that can be read
      let dflt := fun t (d : List Nat) => match at0 t with | none => some d | some e => tiffVals rd b.length e
      match one 256, one 257, one 262, dflt 258 [1], dflt 259 [1], dflt 277 [1], dflt 284 [1] with
      | some w, some h, some ph, some bits, some [comp], some [spp], some [planar] =>
        let tiled := (at0 324).isSome
        let pieces := if tiled then (one 322).isSome && (one 323).isSome && tiffPieces b.length (vals 324) (vals 325)
          else tiffPieces b.length (vals 273) (vals 279)
        if ph ≤ 3 && bits.all [1, 8, 16].contains && [1, 2, 3, 4, 7, 32773].contains comp && (planar == 1 || planar == 2) &&
            (if ph = 2 then 3 ≤ spp else 1 ≤ spp) && (ph != 3 || (vals 320).isSome) && pieces then
          some ((w, h, if ph ≤ 1 then 1 else 3), bits.headD 1, comp)
        else none
      | _, _, _, _, _, _, _ => none

/-- Dimensions of a TIFF view. -/
def tiffDims (b : Bytes) (ifd : Nat) : Option (Nat × Nat × Nat) := (tiffTags b ifd).map Prod.fst

/-- Format code of a view (R356). -/
def View.format (v : View) : Nat := fld v.entry 3 0
/-- A raw format. -/
def View.isRaw (v : View) : Bool := 8 ≤ v.format
/-- A video segment. -/
def View.isVideo (v : View) : Bool := v.format == 4 || v.format == 5
/-- skew, signed -/
def View.skew (v : View) : Int := sext 32 (fld v.entry 95 64)
/-- aspect -/
def View.aspect (v : View) : Nat := fld v.entry 127 96
/-- colours of a raw format -/
def View.rawColours (v : View) : Nat := if v.format = 9 || v.format = 11 then 3 else 1
/-- bytes of a raw sample -/
def View.rawBytes (v : View) : Nat := if 10 ≤ v.format then 2 else 1

/-- Declared dimensions of a view from its entry or its data; a fault where its header has none. -/
def View.declared (v : View) (data : Bytes) : Option (Nat × Nat × Nat) :=
  match v.format with
  | 0 => jpegDims data
  | 1 => some (fld v.entry 47 32, fld v.entry 63 48, 1)
  | 2 => pngDims data
  | 3 => tiffDims data (fld v.entry 15 8)
  | _ => some (fld v.entry 47 32, fld v.entry 63 48, v.rawColours)

/-- The view's dimensions stand in its entry (R293): CCITT and RAW. -/
def View.known (v : View) : Bool := v.format == 1 || v.isRaw

/-- A view of a descriptor as it is accepted, with the record of the stream that a video segment names. -/
def State.newView (s : State) (entry : Nat) : View :=
  let v : View := { entry := entry }
  { v with
    binding := if v.isVideo then (match tabFind s.intake.streams (fld entry 21 16) with | some x => x.record | none => 0) else 0,
    dims := if v.known then (v.declared []).map (fun d => [d]) else none }

/-- The options that R280 supports of the codec: H.265 (`h265`) has level_idc thirty times the level. -/
def videoOptsOk (o : VideoOpts) (h265 : Bool) : Bool :=
  !o.fields && !o.slices &&
  (if h265 then (o.profile == 1 || o.profile == 2 || o.profile == 3) && !o.high && o.level ≤ 153 && o.chroma == 1
   else ((o.profile == 66 && o.set1) || o.profile == 77 || o.profile == 100) && o.level ≤ 51 && o.chroma ≤ 1)

/-- A video picture within the binding's limits and those of R280: size, reference pictures, luma samples, colours, sample
depth and options. -/
def videoOk (record w h colours depth dpb : Nat) (o : VideoOpts) : Bool :=
  w ≤ fld record 45 32 && h ≤ fld record 61 48 && dpb ≤ fld record 7 4 + 1 && videoOptsOk o (fld record 1 0 == 1) &&
  (if fld record 1 0 = 1 then
    decide (w * h ≤ 8912896) && colours == 3 && (depth == 8 || (depth == 10 && bit record 3 && o.profile == 2))
   else decide (w * h ≤ 9437184) && colours == (if o.chroma = 0 then 1 else 3) && depth == 8)

/-- Each plane of a picture holds its samples, each within the depth. -/
def wholePicture (p : Picture) : Bool :=
  p.planes.all (fun l => l.length == p.width * p.height && l.all (fun v => decide (v < 2 ^ p.depth)))

/-- Bits of a sample of a still in its file: bit depth of a PNG, BitsPerSample of a TIFF, 1 of a CCITT view, else 8. -/
def View.fileBits (v : View) (data : Bytes) : Nat :=
  match v.format with
  | 1 => 1
  | 2 => if beAt data 25 1 = 3 then 8 else beAt data 24 1
  | 3 => match tiffTags data (fld v.entry 15 8) with | some (_, b, _) => b | none => 8
  | _ => 8

/-- The form of the samples that decoding a view gives (R281, R282): depth, colour space, and values, which bit replication
spreads over 0 to 255. RGB samples of 16 bits keep them or are given 8 (log 151). -/
def View.formOk (v : View) (data : Bytes) (d : Nat × Nat × Nat) (p : Picture) : Bool :=
  let b := v.fileBits data
  let spread := p.planes.all (fun l => l.all (fun x => x % (255 / (2 ^ b - 1)) == 0))
  match v.format with
  | 0 => p.depth == 8 && p.ycc == (d.2.2 == 3) && !p.bt709 && !p.limited
  | 1 | 2 | 3 => !p.ycc && (if b = 16 then p.depth == 16 || (p.depth == 8 && d.2.2 == 3) else p.depth == 8 && (8 ≤ b || spread))
  | _ => (p.depth == 8 || (p.depth == 10 && bit v.binding 3)) && p.ycc

/-- A picture is one that decoding a view can give for declared dimensions `d` (R281, R282, R284); of a PNG file, what its data
decodes to. -/
def View.suits (v : View) (data : Bytes) (d : Nat × Nat × Nat) (p : Picture) : Bool :=
  p.width == d.1 && p.height == d.2.1 && p.planes.length == d.2.2 && wholePicture p && v.formOk data d p &&
  (v.format != 2 || (match pngDecode data with
    | some (k, pl) => if k = p.depth then pl == p.planes else true
    | none => false))

/-- Pictures that decoding a view can give: one for each that it declares (R283, R293). -/
def View.allSuit (v : View) (data : Bytes) (ps : List Picture) : Bool :=
  let ds := v.dims.getD []
  ps.length == ds.length && (ds.zip ps).all (fun x => v.suits data x.1 x.2)

/-- A picture is what the data of a view that ends early gives (R285): rows of the declared width, in its form. -/
def View.partSuits (v : View) (data : Bytes) (d : Nat × Nat × Nat) (p : Picture) : Bool :=
  p.width == d.1 && p.planes.length ≤ d.2.2 && p.planes.all (fun l => l.all (fun x => decide (x < 2 ^ p.depth))) &&
  v.formOk data d p

/-- A result that decoding a view's data can give. A PNG file that decodes is neither CORRUPT nor TRUNCATED. -/
def View.canGive (v : View) (data : Bytes) (r : DecodeResult) : Bool :=
  let ds := v.dims.getD []
  let whole := v.format == 2 && (pngDecode data).isSome
  match r with
  | .decoded ps => v.allSuit data ps
  | .corrupt => !whole
  | .truncated ps => !whole && ps.length ≤ ds.length && (ds.zip ps).all (fun x => v.partSuits data x.1 x.2)

/-- Split samples into planes. -/
def splitPlanes (n : Nat) : Nat → List Nat → List (List Nat)
  | 0, _ => []
  | k + 1, l => l.take n :: splitPlanes n k (l.drop n)

/-- The picture of a RAW view (R285), and whether it is TRUNCATED. -/
def View.rawPicture (v : View) (p : Profile) (data : Bytes) : Picture × Bool :=
  let w := fld v.entry 47 32
  let h := fld v.entry 63 48
  let n := w * h * v.rawColours
  let smp := (List.range n).map (fun i =>
    if (i + 1) * v.rawBytes ≤ data.length then leAt data (i * v.rawBytes) v.rawBytes else p.fillAt (8 * v.rawBytes))
  ({ width := w, height := h, depth := 8 * v.rawBytes, planes := splitPlanes (w * h) v.rawColours smp, ycc := false,
     bt709 := false, limited := false, idr := true, refsLost := false }, data.length < n * v.rawBytes)

/-- The picture of a TRUNCATED view (R285): its whole rows as far as the data gave them, and fill_value in the rest. -/
def filledPicture (q : Picture) (p : Profile) (d : Nat × Nat × Nat) : Picture :=
  let row := fun (k : Nat) =>
    let pl := q.planes[k]?.getD []
    let n := min d.2.1 (pl.length / max 1 d.1) * d.1
    pl.take n ++ List.replicate (d.1 * d.2.1 - n) (p.fillPlane q.ycc q.limited q.depth k)
  { q with width := d.1, height := d.2.1, planes := (List.range d.2.2).map row }

/-- A declared picture of which the data gave nothing, in the form of the view's samples. -/
def View.emptyPicture (v : View) (data : Bytes) (d : Nat × Nat × Nat) : Picture :=
  { width := d.1, height := d.2.1, depth := if v.fileBits data = 16 then 16 else 8, planes := [],
    ycc := v.isVideo || (v.format == 0 && d.2.2 == 3), bt709 := false, limited := false, idr := false, refsLost := false }

/-- The pictures of a TRUNCATED view (R285): every declared row is filled, of the pictures too that the data never reached. -/
def View.filled (v : View) (p : Profile) (data : Bytes) (ps : List Picture) : List Picture :=
  let ds := v.dims.getD []
  ((List.range ds.length).zip ds).map (fun x => filledPicture (ps[x.1]?.getD (v.emptyPicture data x.2)) p x.2)

/-- The samples of a picture as bytes: planes in order, two bytes where a sample has more than 8 bits. -/
def pictureBytes (p : Picture) : Bytes := p.planes.flatMap (fun l => l.flatMap (toLe (if 8 < p.depth then 2 else 1)))

/-- A picture without its samples. -/
def pictureBare (p : Picture) : Picture := { p with planes := p.planes.map (fun _ => []) }

/-- Pictures with the samples that bytes hold, one picture after the other. -/
def fillPictures : List Picture → Bytes → List Picture
  | [], _ => []
  | p :: r, b =>
    let k := if 8 < p.depth then 2 else 1
    let n := p.width * p.height
    { p with planes := (List.range p.planes.length).map (fun i =>
        (List.range n).map (fun j => leAt b ((i * n + j) * k) k)) } :: fillPictures r (b.drop (p.planes.length * n * k))

/-! ### Items, slots and batches (R294, R295) -/

/-- Change an item. -/
def State.modItem (s : State) (n : Nat) (f : Item → Item) : State :=
  s.setIntake { s.intake with items := tabUpd s.intake.items n f }

/-- The profile of a context. -/
def State.prof (s : State) (c : Nat) : Option Profile := (s.ctx? c).bind Ctx.prof

/-- Change a bucket. -/
def State.modBucket (s : State) (k : Nat) (f : Bucket → Bucket) : State :=
  s.setIntake { s.intake with buckets := tabMod {} s.intake.buckets k f }

/-- Put an item into a list of slots, at the first open one. -/
def fillSlot (n : Nat) : List (Option Nat) → List (Option Nat)
  | [] => []
  | none :: r => some n :: r
  | some x :: r => some x :: fillSlot n r

/-- A live frame that has a slot waits no more for batch formation (R288). -/
def State.unqueueLive (s : State) (n : Nat) : State :=
  match tabFind s.intake.items n with
  | some it =>
    match it.kind with
    | .live st => s.setIntake { s.intake with
        streams := tabUpd s.intake.streams st (fun x => { x with waiting := x.waiting.filter (· ≠ n) }) }
    | _ => s
  | none => s

/-- An item whose bucket is known takes a slot, or is queued while the bucket's batch is closed (R294). -/
def State.takeSlot (s : State) (n : Nat) : State :=
  match tabFind s.intake.items n with
  | none => s
  | some it =>
    match it.bucket, s.prof it.ctx with
    | some b, some p =>
      let e := p.buckets[b]?.getD 0
      let k := it.ctx * 8 + b
      let bk := tabGet {} s.intake.buckets k
      let put := fun (bt : Batch) =>
        let slots := fillSlot n bt.slots
        let full := slots.all Option.isSome
        ((s.modBucket k (fun x => { x with batch := some { bt with
            slots := slots, closed := bt.closed || full || ageUs e = 0, full := full } })).modItem n
          (fun x => { x with slotted := true })).unqueueLive n
      match bk.batch with
      | none => put { slots := List.replicate (batchSize e) none, since := s.clk.time }
      | some bt => if bt.closed then s.modBucket k (fun x => { x with queued := x.queued ++ [n] }) else put bt
    | _, _ => s

/-- An item gives up its slot or its place in the queue (R295): in a batch that has not closed, the oldest queued item
takes the slot. -/
def State.freeSlot (s : State) (n : Nat) : State :=
  match tabFind s.intake.items n with
  | none => s
  | some it =>
    match it.bucket with
    | none => s
    | some b =>
      let k := it.ctx * 8 + b
      let s := (s.modBucket k (fun x => { x with
        batch := x.batch.map (fun bt => { bt with slots := bt.slots.map (fun o => if o = some n then none else o) }),
        queued := x.queued.filter (· ≠ n) })).unqueueLive n
      let s := s.modItem n (fun x => { x with slotted := false })
      let bk := tabGet {} s.intake.buckets k
      match bk.batch, bk.queued with
      | some bt, m :: _ => if bt.closed then s else (s.modBucket k (fun x => { x with queued := x.queued.filter (· ≠ m) })).takeSlot m
      | _, _ => s

/-- A bucket whose batch has gone forms its next batch from the queued items, oldest first. -/
def State.refillBucket (s : State) (k : Nat) : State :=
  let q := (tabGet {} s.intake.buckets k).queued
  q.foldl (fun (s : State) n => s.takeSlot n) (s.modBucket k (fun x => { x with batch := none, queued := [] }))

/-- A sample fails (R283): its slot goes, and its record is ready with no fields. -/
def State.failItem (s : State) (n status code : Nat) : State :=
  match tabFind s.intake.items n with
  | none => s
  | some it =>
    let s := s.count it.ctx code 1
    let s := s.freeSlot n
    match it.kind with
    | .live _ => (s.setIntake { s.intake with items := tabDel s.intake.items n }).freeItemBufs it
    | _ => s.finishItem n status [] false

/-- Counter of a failure status (R283, R300). -/
def failCounter (status : Nat) : Nat := if status = stCorrupt then 0x60 else if status = stTruncated then 0x61 else 0x62

/-- Tile count of an item, when every view's dimensions are known (R292, R293). -/
def Item.tileTotal (it : Item) (p : Profile) : Nat :=
  sumOf (it.views.flatMap (fun v => (v.dims.getD []).map (fun d =>
    tileCount p it.level v.skew v.aspect d.1 d.2.1)))

/-- The checks made once dimensions are known (R283, R284, R293): caps, tile count, bucket. -/
def State.checkDims (s : State) (n : Nat) : State :=
  match tabFind s.intake.items n with
  | none => s
  | some it =>
    match s.prof it.ctx with
    | none => s
    | some p =>
      let bad := it.views.find? (fun v => v.outcome == some stCorrupt ||
        (v.dims.getD []).any (fun d => p.breaksCaps d.1 d.2.1))
      match bad with
      | some v => s.failItem n stCorrupt (if v.outcome = some stCorrupt then 0x60 else 0x63)
      | none =>
        if it.views.all (fun v => v.dims.isSome) && it.bucket.isNone then
          let t := it.tileTotal p
          match p.bucketOf t with
          | none => s.failItem n stCorrupt 0x64
          | some b => (s.modItem n (fun x => { x with
              tiles := some t, bucket := some b, limitUs := budgetUs (p.buckets[b]?.getD 0) })).takeSlot n
        else s

/-! ### The decode array (R278, R286) -/

/-- The unit that decodes a view: strips and tiles of a TIFF file go to the unit of their compression, and the parser itself
takes uncompressed and PackBits ones (R278, R282). -/
def View.unit (v : View) : Nat :=
  if v.isVideo then 0
  else if v.format = 3 then (if v.strips = 7 then 1 else if 2 ≤ v.strips && v.strips ≤ 4 then 2 else 4)
  else v.format + 1

/-- Work that waits at a unit of the decode array: real-time, place in fetch order, place in its sample, and what it is. -/
def State.decodeWaits (s : State) (u : Nat) : List (Bool × Nat × Nat × DecodeJob) :=
  s.intake.items.flatMap (fun x =>
    if x.2.bucket.isNone || !s.ctxRuns x.2.ctx then []
    else ((List.range x.2.views.length).zip x.2.views).filterMap (fun v =>
      if v.2.read && v.2.outcome.isNone && !v.2.isRaw && v.2.unit == u then
        some (s.isRt x.2.ctx, x.1, v.1, .view x.1 v.1)
      else none)) ++
  (if u = 0 then s.intake.streams.filterMap (fun t =>
      match t.2.units with
      | a :: _ => if s.ctxRuns t.2.ctx then some (s.isRt t.2.ctx, a.order, 0, .access t.1 a.order) else none
      | [] => none)
   else [])

/-- The work that a unit takes up next (R278): of a real-time context before one of a best-effort context, and in each class
the one fetched first. -/
def State.nextDecode (s : State) (u : Nat) : Option DecodeJob :=
  ((s.decodeWaits u).foldl (fun (b : Option (Bool × Nat × Nat × DecodeJob)) h =>
    match b with
    | none => some h
    | some y =>
      if (h.1 && !y.1) || (h.1 == y.1 && (h.2.1 < y.2.1 || (h.2.1 == y.2.1 && h.2.2.1 < y.2.2.1))) then some h
      else b) none).map (fun h => h.2.2.2)

/-- Work that a unit has begun is still there. -/
def State.decodeGoes (s : State) (j : DecodeJob) : Bool :=
  match j with
  | .view n i => (match (tabFind s.intake.items n).bind (fun it => it.views[i]?) with | some v => v.outcome.isNone | none => false)
  | .access t o => (match (tabFind s.intake.streams t).bind (fun x => x.units.head?) with | some a => a.order == o | none => false)

/-- The work of a unit: what it has begun, to its end, or else the next (R278; log 138). -/
def State.servedDecode (s : State) (u : Nat) : Option DecodeJob :=
  match tabFind s.intake.decoding u with
  | some j => if s.decodeGoes j then some j else s.nextDecode u
  | none => s.nextDecode u

/-- An item's decode budget starts now, if it has not (R286). -/
def State.startBudget (s : State) (n : Nat) : State :=
  s.modItem n (fun x => { x with budget := some (x.budget.getD s.clk.time) })

/-- Free units of the decode array begin work, which starts the budget of the sample it belongs to. A RAW view needs no unit:
its sample's budget starts with its bucket known and its data read. -/
def State.decodeStart (s : State) : State :=
  let s := (List.range 5).foldl (fun (s : State) u =>
    match s.servedDecode u with
    | none => s.setIntake { s.intake with decoding := tabDel s.intake.decoding u }
    | some j =>
      let s := s.setIntake { s.intake with decoding := tabPut s.intake.decoding u j }
      match j with
      | .view n _ => s.startBudget n
      | .access .. => s) s
  (s.intake.items.filter (fun x => x.2.bucket.isSome && x.2.budget.isNone &&
    x.2.views.any (fun v => v.isRaw && v.read && v.outcome.isNone))).foldl (fun (s : State) x => s.startBudget x.1) s

/-- The first unread view's data arrives in LPDDR5 that the context owns (R21), and the header of a still is read from that
copy. -/
def State.viewArrives (s : State) (item : Nat) (it : Item) (i : Nat) (v : View) (copy : Option (Nat × Nat)) (b : Bytes) : State :=
  let last := i + 1 = it.views.length
  let s := s.modItem item (fun x => { x with
    ref := if last then some (if x.replayed then x.ref.getD s.clk.time else s.clk.time) else x.ref,
    -- the header pass of a video segment begins (R286, R293)
    budget := if v.isVideo then some (x.budget.getD s.clk.time) else x.budget,
    views := listMod x.views i (fun v =>
      let v := { v with read := true, copy := copy,
                        strips := if v.format = 3 then (match tiffTags b (fld v.entry 15 8) with | some (_, _, c) => c | none => 0) else 0 }
      if v.isVideo || v.dims.isSome then v
      else match v.declared b with
        | some d => { v with dims := some [d] }
        | none => { v with dims := some [], outcome := some stCorrupt }) })
  -- the partner learns the instant that a re-run starts from (R428)
  let s := match (tabFind s.intake.items item).bind Item.ref, it.kind with
    | some t, .sample q d => if last && s.mirroring then s.mirror (.reference it.ctx q d t) .none else s
    | _, _ => s
  (s.checkDims item).decodeStart

/-- VIEW_READ_COMPLETE (R21): the first unread view has been read from host memory; the last fixes the reference
instant. It waits where the context's LPDDR5 has no room for the copy (log 150). -/
def execViewReadComplete (item : Nat) (s : State) : Result :=
  .next (match tabFind s.intake.items item with
    | none => s
    | some it =>
      match it.views.findIdx? (fun v => !v.read) with
      | none => s
      | some i =>
        match it.views[i]? with
        | none => s
        | some v =>
          if !s.works || !s.busMaster 0 then s
          else match s.bufPut 0x0B it.ctx (s.hostBytes (fld v.entry 191 128) (fld v.entry 223 192)) with
            | none => s
            | some (copy, s) =>
              match s.bufGet 0x0B it.ctx copy with
              | (s, none) => s
              | (s, some b) => s.viewArrives item it i v copy b)

/-- HEADER_PASS_COMPLETE (R293): a header pass over a video segment ends; 1 to 16 pictures, the first of them an IDR or IRAP
picture (R283), the caps, and the limits of the stream binding and of R280. -/
def execHeaderPassComplete (item : Nat) (view : Nat) (r : HeaderResult) (s : State) : Result :=
  .next (match tabFind s.intake.items item with
    | none => s
    | some it =>
      match it.views[view]? with
      | none => s
      | some v =>
        if !s.works || !v.read || !v.isVideo || v.dims.isSome then s
        else match s.bufGet 0x0B it.ctx v.copy with
        | (s, none) => s
        | (s, some _) =>
          let (dims, bad) := match r with
            | .ok ps => (ps.map (fun (p : PicHeader) => (p.width, p.height, p.colours)),
                16 < ps.length || (ps.head?.map PicHeader.idr) != some true ||
                ps.any (fun (p : PicHeader) => !videoOk v.binding p.width p.height p.colours p.depth p.dpb p.opts))
            | .corrupt => ([], true)
          let s := s.modItem item (fun x => { x with views := listMod x.views view (fun v => { v with
            dims := some dims, outcome := if bad then some stCorrupt else none }) })
          (s.checkDims item).decodeStart)

/-- Every view has ended (R283): the sample fails with the lowest-numbered failing view's outcome, or goes on. -/
def State.viewsDone (s : State) (n : Nat) : State :=
  match tabFind s.intake.items n with
  | none => s
  | some it =>
    if it.views.all (fun v => v.outcome.isSome) then
      match it.views.find? (fun v => v.outcome ≠ some 0) with
      | some v => let st := v.outcome.getD stCorrupt; s.failItem n st (failCounter st)
      | none => s
    else s

/-- Has the decode budget of an item run out (R286)? -/
def State.overBudget (s : State) (it : Item) : Bool :=
  match it.budget, it.bucket with
  | some t, some _ => t + 1000 * it.limitUs < s.clk.time
  | _, _ => false

/-- Pictures of a stream go to its picture memory in LPDDR5 as agent DECODE (R54, R278, R279), where later pictures refer to
them, at a place in it that no rule gives (log 128). -/
def State.storePictures (s : State) (ctx : Nat) (lp : Nat × Nat) (ps : List Picture) : State :=
  ps.foldl (fun (s : State) p =>
    let b := pictureBytes p
    if b.isEmpty || lp.2 < b.length then s
    else
      let (f, s) := s.freeNat
      (s.lpWrite 0x0B 0 (some ctx) (lp.1 + f % (lp.2 - b.length + 1)) b).1) s

/-- VIEW_DECODE_COMPLETE (R278, R283, R285): the decode that a unit runs on the copy of the view's data ends, and its pixels are
in the context's LPDDR5 (log 150). A RAW view's pixels come from its data. A result that the view's data cannot give is no event
of this device. -/
def execViewDecodeComplete (item : Nat) (view : Nat) (r : DecodeResult) (s : State) : Result :=
  .next (match tabFind s.intake.items item with
    | none => s
    | some it =>
      match it.views[view]?, s.prof it.ctx with
      | some v, some p =>
        let turn := v.isRaw || s.servedDecode v.unit == some (.view item view)
        if !s.works || !v.read || it.bucket.isNone || v.outcome.isSome || !turn then s
        else match s.bufGet 0x0B it.ctx v.copy with
        | (s, none) => s
        | (s, some data) =>
          if !v.isRaw && !v.canGive data r then s
          else
            let (pics, out) :=
              if v.isRaw then
                let (pic, short) := v.rawPicture p data
                ([pic], if short then stTruncated else 0)
              else match r with
                | .decoded ps => (ps, 0)
                | .corrupt => ([], stCorrupt)
                | .truncated ps => (v.filled p data ps, stTruncated)
            -- a sample out of budget is abandoned, and its buffers are released (R286)
            let (pics, out) := if s.overBudget it then ([], stSlow) else (pics, out)
            match (s.bufFree v.copy).bufPut 0x0B it.ctx (pics.flatMap pictureBytes) with
            | none => s
            | some (buf, s) =>
              let s := s.modItem item (fun x => { x with views := listMod x.views view (fun v =>
                { v with pics := pics.map pictureBare, buf := buf, copy := none, outcome := some out }) })
              let s := match (if v.isVideo then tabFind s.intake.streams (fld v.entry 21 16) else none) with
                | some st => s.storePictures it.ctx st.lp pics
                | none => s
              (s.viewsDone item).decodeStart
      | _, _ => s)

/-- DECODE_BUDGET_EXPIRY (R286): a sample with a view still undecoded is abandoned; its unfinished views end SLOW. -/
def execDecodeBudgetExpiry (item : Nat) (s : State) : Result :=
  .next (match tabFind s.intake.items item with
    | none => s
    | some it =>
      if !s.works || it.budget.isNone || it.bucket.isNone || it.views.all (fun v => v.outcome.isSome) then s
      else
        let s := s.modItem item (fun x => { x with
          views := x.views.map (fun v => { v with outcome := some (v.outcome.getD stSlow) }) })
        (s.viewsDone item).decodeStart)

/-! ### Stages 1 to 4 of an item -/

/-- An image of a decoded picture. -/
def pictureImage (p : Picture) : Image2 := { w := p.width, h := p.height, depth := p.depth, planes := p.planes }

/-- The device's stages of one picture (R296): stages `level` + 1 to 4. -/
def primePicture (p : Profile) (level : Nat) (skew : Int) (aspect view : Nat) (pic : Picture) :
    List (Bytes × (Nat × Nat × Nat)) :=
  let im := pictureImage pic
  let im := if 1 ≤ level then im else stage1 p pic.ycc pic.limited skew im
  let im := if 2 ≤ level then im else stage2 p aspect im
  let im := if 3 ≤ level then im else stage3 p pic.ycc pic.bt709 pic.limited im
  stage4 p view im

/-- The primer reads the stored lines of a page from its page store, as agent PRIMER (R54, R271); none where a word of them
cannot be corrected. -/
def State.pageLines (s : State) (c : PortCfg) (g : Page) : State × Option (List Bytes) :=
  (List.range g.stored).foldl (fun (z : State × Option (List Bytes)) r =>
    (chunkPieces g.chunks (r * c.pitch) (zeros c.pitch)).foldl (fun (z : State × Option (List Bytes)) x =>
      match z with
      | (s, some ls) =>
        (match s.lpRead 0x0A 0 (some g.ctx) x.1 x.2.length with
         | (s, some b) => (s, some (listMod ls r (fun l => l ++ b)))
         | (s, none) => (s, none))
      | z => z) z) (s, some (List.replicate g.stored []))

/-- The lines of a page as one image (R263). -/
def pageImage (c : PortCfg) (lines : List Bytes) : Image2 :=
  { w := c.outPx, h := lines.length, depth := 8 * c.bytes, planes := (List.range c.colours).map (fun k =>
      lines.flatMap (fun b => (List.range c.outPx).map (fun x => leAt b ((k * c.outPx + x) * c.bytes) c.bytes))) }

/-- Columns and lines that a captured page is cropped to (R290): x0, x1, y0, y1. -/
def cropBox (p : Profile) (geo : Nat) : Int × Int × Int × Int :=
  ((fld geo 111 96 : Int) - p.crop, (fld geo 127 112 : Int) + p.crop, sext 32 (fld geo 159 128) - p.crop,
   (fld geo 191 160 : Int) + p.crop)

/-- Skew that rotates a page: none after a failed fit (R290). -/
def pageSkew (geo : Nat) : Int := if bit geo 227 then 0 else sext 32 (fld geo 223 192)

/-- The tiles of a captured page. -/
def pageTiles (p : Profile) (c : PortCfg) (lines : List Bytes) (geo : Nat) : List (Bytes × (Nat × Nat × Nat)) :=
  let (x0, x1, y0, y1) := cropBox p geo
  let im := cropImage (pageImage c lines) x0 x1 y0 y1
  stage4 p 0 (stage3 p false false false (stage2 p c.aspect (stage1 p false false (pageSkew geo) im)))

/-- The tiles of a page taken over from a failed partner (R428). -/
def mirroredTiles (p : Profile) (aspect : Nat) (pic : Picture) (geo : Nat) : List (Bytes × (Nat × Nat × Nat)) :=
  let (x0, x1, y0, y1) := cropBox p geo
  let im := cropImage (pictureImage pic) x0 x1 y0 y1
  stage4 p 0 (stage3 p false false false (stage2 p aspect (stage1 p false false (pageSkew geo) im)))

/-- Views of an item in picture order: each picture of a segment is a view of its own (R283). -/
def Item.pictures (it : Item) : List (View × Picture) := it.views.flatMap (fun v => v.pics.map (fun q => (v, q)))

/-- The primer reads the pictures of views from LPDDR5, as agent PRIMER (R54, R278); none where a word of them cannot be
corrected (R301). -/
def State.readPictures (s : State) (ctx : Nat) : List View → State × Option (List (View × Picture))
  | [] => (s, some [])
  | v :: r =>
    match s.bufGet 0x0A ctx v.buf with
    | (s, none) => (s, none)
    | (s, some b) =>
      match s.readPictures ctx r with
      | (s, none) => (s, none)
      | (s, some l) => (s, some ((if v.buf.isSome then fillPictures v.pics b else v.pics).map (fun q => (v, q)) ++ l))

/-- Split bytes into `n` parts of equal length. -/
def splitEven (n : Nat) (b : Bytes) : List Bytes := (List.range n).map (fun i => slice b (i * (b.length / n)) (b.length / n))

/-- The tiles of an item, by its kind; none where a read of its pixels fails. -/
def State.itemTiles (s : State) (it : Item) (p : Profile) : State × Option (List (Bytes × (Nat × Nat × Nat))) :=
  match it.kind with
  | .page pt q =>
    let port := tabGet {} s.ports pt
    match (port.pages.find? (fun g => g.seq == q)).bind (fun g => (port.cfgOf g).map (fun c => (g, c))) with
    | some (g, c) =>
      let (s, ls) := s.pageLines c g
      (s, ls.map (fun ls => pageTiles p c ls (g.geometry.getD 0)))
    | none => (s, some [])
  | .mirrored _ _ geo _ =>
    let (s, l) := s.readPictures it.ctx it.views
    (s, l.map (fun l => l.flatMap (fun x => mirroredTiles p x.1.aspect x.2 geo)))
  | _ =>
    let (s, l) := s.readPictures it.ctx it.views
    (s, l.map (fun l => ((List.range l.length).zip l).flatMap (fun x =>
      primePicture p it.level x.2.1.skew x.2.1.aspect x.1 x.2.2)))

/-- PRIMER_ITEM_COMPLETE (R290 to R292): stage 4 of an item is done, its tiles are in the context's LPDDR5 (log 150), and its
slot is filled. -/
def execPrimerItemComplete (item : Nat) (s : State) : Result :=
  .next (match tabFind s.intake.items item with
    | none => s
    | some it =>
      match s.prof it.ctx with
      | none => s
      | some p =>
        if !s.works || !it.slotted || it.filled || it.views.any (fun v => v.outcome ≠ some 0) then s
        else
          let skews : List Int := if 1 ≤ it.level || !p.deskew then [] else
            match it.kind with
            | .page pt q => [pageSkew ((s.pageGeometry pt q).getD 0)]
            | .mirrored _ _ geo _ => [pageSkew geo]
            | _ => it.pictures.map (fun x => x.1.skew)
          let clamps := countIf (fun (k : Int) => 11438 < k.natAbs) skews
          match s.itemTiles it p with
          | (s, none) => s
          | (s, some tiles) =>
            match s.bufPut 0x0A it.ctx (tiles.flatMap Prod.fst) with
            | none => s
            | some (at0, s) =>
              let s := it.views.foldl (fun (s : State) v => s.bufFree v.buf) s
              (s.count it.ctx 0x6D clamps).modItem item (fun x => { x with
                filled := true, tilesAt := at0, tileTable := tiles.map Prod.snd,
                views := x.views.map (fun v => { v with buf := none }) }))

/-- A page's tile count gives its bucket (R292, R293). -/
def State.placePage (s : State) (n : Nat) (pr : Profile) (geo aspect width lines : Nat) : State :=
  let (x0, x1, y0, y1) := cropBox pr geo
  let w := (min (x1 + 1) width).toNat - (max x0 0).toNat
  let h := (min (y1 + 1) lines).toNat - (max y0 0).toNat
  let t := tileCount pr 0 (pageSkew geo) aspect w h
  match pr.bucketOf t with
  | none => s.failItem n stCorrupt 0x64
  | some b => (s.modItem n (fun x => { x with tiles := some t, bucket := some b })).takeSlot n

/-- An item queued without a slot goes to the bucket that the context's new profile gives its tile count, or fails
OVERSIZE where it has none (R292, R293, R299; log 131). -/
def State.rebucketItem (s : State) (n : Nat) (p : Profile) : State :=
  match tabFind s.intake.items n with
  | none => s
  | some it =>
    match it.kind, it.views with
    | .page pt q, _ =>
      let port := tabGet {} s.ports pt
      (match (port.pages.find? (fun g => g.seq == q)).bind (fun g => (port.cfgOf g).map (fun c => (g, c))) with
       | some (g, c) => s.placePage n p (g.geometry.getD 0) c.aspect c.outPx g.stored
       | none => s)
    | .mirrored _ _ geo _, v :: _ =>
      let d := ((v.dims.getD []).head?).getD (0, 0, 1)
      s.placePage n p geo v.aspect d.1 d.2.1
    | _, _ =>
      let t := it.tileTotal p
      (match p.bucketOf t with
       | none => s.failItem n stCorrupt 0x64
       | some b => (s.modItem n (fun x => { x with
           tiles := some t, bucket := some b, limitUs := budgetUs (p.buckets[b]?.getD 0) })).takeSlot n)

/-- The items of a context that wait in its buckets' queues are placed again under its new profile, in the order of their
acceptance (R299; log 131). -/
def State.rebucket (s : State) (c : Nat) : State :=
  match s.prof c with
  | none => s
  | some p =>
    let ks := (List.range 8).map (fun b => c * 8 + b)
    let l := ks.flatMap (fun k => (tabGet {} s.intake.buckets k).queued)
    let ids := (s.intake.items.map Prod.fst).filter l.contains
    let s := ks.foldl (fun (s : State) k => s.modBucket k (fun x => { x with queued := [] })) s
    ids.foldl (fun (s : State) n => s.rebucketItem n p) s

/-- GEOMETRY_FIT_COMPLETE (R268, R293): the geometry block of the oldest ended page is complete, and the page goes to the
primer; a page of a context that is gone gets its CONTEXT_FAULT record (R18). -/
def execGeometryFitComplete (p : Nat) (s : State) : Result :=
  .next (
    let q := s.port p
    match (q.pages.find? (fun g => g.geometry.isNone)).bind (fun g => (q.cfgOf g).map (fun c => (g, c))) with
    | some (g, c) =>
      if !s.portLive p then s
      else
        let geo := geometryOf c q g
        let last := g.ended.getD 0
        let s := s.putPort p { q with
          pages := q.pages.map (fun x => if x.seq = g.seq then { x with geometry := some geo } else x),
          revLines := q.revLines.filter (fun l => last < l), overLines := q.overLines.filter (fun l => last < l) }
        let n := s.intake.nextItem
        let it : Item :=
          { kind := .page p g.seq, ctx := g.ctx, cq := g.cq, itemId := 2 ^ 62 + p * 2 ^ 48 + g.seq % 2 ^ 48,
            capture := g.start0, ref := some g.fin }
        let s := s.setIntake { s.intake with items := tabPut s.intake.items n it, nextItem := n + 1 }
        let s := if s.mirroring then s.mirror (.geometry g.ctx g.cq p g.seq geo g.fin) .none else s
        let st := s.ctxState g.ctx
        if st = .tearingDown || st = .faulted || (s.ctx? g.ctx).isNone then s.finishItem n stContextFault [] false
        else match s.prof g.ctx with
          | none => s
          | some pr =>
            s.placePage n pr geo c.aspect c.outPx g.stored
    | none => s)

/-- A picture of a LIVE stream within the binding's limits and those of R280. -/
def Stream.takes (st : Stream) (q : Picture) : Bool :=
  videoOk st.record q.width q.height q.planes.length q.depth q.dpb q.opts && q.ycc && wholePicture q

/-- LIVE_PICTURE_DECODED (R278, R287, R288): the stream's oldest access unit, which the video decoder works on, has been
consumed; its picture is queued for batch formation, or dropped. -/
def execLivePictureDecoded (stream : Nat) (r : DecodeResult) (s : State) : Result :=
  .next (match tabFind s.intake.streams stream with
    | none => s
    | some st =>
      match st.units with
      | [] => s
      | a :: rest =>
        if !s.works || s.servedDecode 0 != some (.access stream a.order) then s
        else
          let s := s.setIntake { s.intake with streams := tabPut s.intake.streams stream { st with units := rest } }
          let s := s.completeDesc a.sq a.desc stOK a.data.length
          let drop := fun (s : State) => (s.count st.ctx 0x67 1).setIntake { s.intake with
            streams := tabUpd s.intake.streams stream (fun x => { x with broken := true }) }
          State.decodeStart (match r, s.prof st.ctx with
          | .decoded [q], some p =>
            if !st.takes q || (q.refsLost && !q.idr) then drop s
            else
              match s.bufPut 0x0B st.ctx (pictureBytes q) with
              | none => drop s
              | some (buf, s) =>
              let s := s.storePictures st.ctx st.lp [q]
              let s := s.setIntake { s.intake with
                streams := tabUpd s.intake.streams stream (fun x => { x with broken := x.broken && !q.idr }) }
              let v : View :=
                { entry := 0, read := true, dims := some [(q.width, q.height, q.planes.length)], outcome := some 0,
                  pics := [pictureBare q], buf := buf }
              match p.bucketOf (tileCount p 0 0 0 q.width q.height) with
              | none => (s.bufFree buf).count st.ctx 0x64 1
              | some b =>
                let depth := fld st.record 11 8
                -- a full queue drops its oldest waiting frame first
                let s := match st.waiting with
                  | o :: _ => if depth ≤ st.waiting.length then s.failItem o 0 0x66 else s
                  | [] => s
                let n := s.intake.nextItem
                let it : Item :=
                  { kind := .live stream, ctx := st.ctx, cq := st.cq, itemId := 0, views := [v], capture := a.capture,
                    ref := some a.capture, bucket := some b, tiles := some (tileCount p 0 0 0 q.width q.height),
                    maxAge := fld st.record 95 64 }
                let s := s.setIntake { s.intake with
                  items := tabPut s.intake.items n it, nextItem := n + 1,
                  streams := tabUpd s.intake.streams stream (fun x => { x with waiting := x.waiting ++ [n] }) }
                s.takeSlot n
          | _, _ => drop s))

/-- BATCH_AGE_TIMEOUT (R294): the batch that forms in a bucket closes. -/
def execBatchAgeTimeout (ctx : Nat) (bucket : Nat) (s : State) : Result :=
  .next (
    if !s.works then s
    else s.modBucket (ctx * 8 + bucket) (fun x => { x with
      batch := x.batch.map (fun b => { b with closed := true }) }))

/-! ### Split levels (R297) -/

/-- Notice SPLIT_CHANGE (R387); its effective time is set when it is posted (R382). -/
def State.splitNotice (s : State) (c src old new : Nat) : State :=
  match s.ctx? c with
  | none => s
  | some x =>
    let isStream := src < 64
    let id := if isStream then src else src - 64
    s.notice x.session 0x8002 src
      (toLe 2 (c + if isStream then 256 else 0) ++ toLe 2 id ++ toLe 4 (old + 4 * new) ++ zeros 8)

/-- Move a source's level, with its notice and counter. The level that held before stays that of the last change whose
notice has been posted (R382). -/
def State.moveLevel (s : State) (src : Nat) (x : Source) (new : Nat) : State :=
  let old := match x.before with | some (o, t) => if t = 2 ^ 64 then o else x.level | none => x.level
  let s := s.setIntake { s.intake with
    sources := tabUpd s.intake.sources src (fun y => { y with level := new, before := some (old, 2 ^ 64) }) }
  (s.count x.ctx 0x6B 1).splitNotice x.ctx src x.level new

/-- Pending SPLIT_CHANGE notices of a channel (R382). -/
def State.splitPending (s : State) (ch : Nat) : Nat :=
  countIf (fun m => !m.reply && m.opcode == 0x8002) (tabGet [] s.mbox.ready ch)

/-- The session of a context may take one more split change (R382). -/
def State.splitRoom (s : State) (c : Nat) : Bool :=
  match s.ctx? c with | some x => s.splitPending x.session < 64 | none => false

/-- The source with the largest (or least) mean latency; ties to the lowest source (log 28). -/
def pickSource (largest : Bool) (l : List (Nat × Source)) : Option (Nat × Source) :=
  let mean := fun (x : Source) => (sumOf x.lat, x.lat.length)
  let lt := fun (a b : Nat × Nat) => a.1 * b.2 < b.1 * a.2
  l.foldl (fun b x => match b with
    | none => some x
    | some y => if (if largest then lt (mean y.2) (mean x.2) else lt (mean x.2) (mean y.2)) then some x else b) none

/-- One context's change at the end of a window (R297). -/
def State.splitCtx (s : State) (c : Nat) : State :=
  match s.ctx? c, s.prof c with
  | some x, some p =>
    let srcs := s.intake.sources.filter (fun e => e.2.ctx == c && !e.2.lat.isEmpty)
    let occ := s.intake.occupancy
    if 64 ≤ s.splitPending x.session then s
    else if occ.length ≥ 2 && (occ.take 2).all (fun o => p.splitHi < o) then
      match pickSource true (srcs.filter (fun e => e.2.level < p.splitMax)) with
      | some e => s.moveLevel e.1 e.2 (e.2.level + 1)
      | none => s
    else if occ.length ≥ 4 && (occ.take 4).all (fun o => o < p.splitLo) then
      match pickSource false (srcs.filter (fun e => p.splitMin < e.2.level)) with
      | some e => s.moveLevel e.1 e.2 (e.2.level - 1)
      | none => s
    else s
  | _, _ => s

/-- SPLIT_WINDOW_END (R297): the primer was busy for `pct` percent of the 100 ms window. -/
def execSplitWindowEnd (pct : Nat) (s : State) : Result :=
  .next (
    if !s.works then s
    else
      let s := s.setIntake { s.intake with occupancy := (pct :: s.intake.occupancy).take 4 }
      let s := (s.ctxs.map Prod.fst).foldl (fun (s : State) c => s.splitCtx c) s
      s.setIntake { s.intake with sources := tabMap s.intake.sources (fun _ x => { x with lat := [] }) })

end Sys2Proof.Machine
end

