-- ==== Sys2Proof/Machine/Text.lean ====
section
/-! DEFINITION. Machine/Text.lean: vocabularies, text input and the detokenizer (09_text_engine.md). -/

namespace Sys2Proof.Machine

/-! ### UTF-8 (R212, R213) -/

/-- Continuation ranges that a lead byte needs (Unicode, Table 3-7); none for a byte that begins no character. -/
def utf8Tail (b : Nat) : Option (List (Nat × Nat)) :=
  let c := (0x80, 0xBF)
  if b < 0x80 then some []
  else if 0xC2 ≤ b && b ≤ 0xDF then some [c]
  else if b = 0xE0 then some [(0xA0, 0xBF), c]
  else if b = 0xED then some [(0x80, 0x9F), c]
  else if 0xE1 ≤ b && b ≤ 0xEF then some [c, c]
  else if b = 0xF0 then some [(0x90, 0xBF), c, c]
  else if b = 0xF4 then some [(0x80, 0x8F), c, c]
  else if 0xF1 ≤ b && b ≤ 0xF3 then some [c, c, c]
  else none

/-- The bits of a lead byte. -/
def utf8Lead (b n : Nat) : Nat := if n = 0 then b else b % 2 ^ (6 - n)

/-- How a character that has begun goes on: complete with its value, broken after some bytes, or open at the end. -/
inductive Tail8 where
  | char (cp used : Nat)
  | broken (used : Nat)
  | openEnd
  deriving DecidableEq, Repr

/-- Match continuation bytes. -/
def tail8 : List (Nat × Nat) → Bytes → Nat → Nat → Tail8
  | [], _, cp, used => .char cp used
  | _ :: _, [], _, _ => .openEnd
  | (lo, hi) :: r, b :: bs, cp, used =>
    if lo ≤ b.toNat && b.toNat ≤ hi then tail8 r bs (cp * 64 + b.toNat % 64) (used + 1) else .broken used

/-- Decode bytes: characters, replacements made, and carried bytes (none when `final`). Fuel is the byte count. -/
def decode8 (final : Bool) : Nat → Bytes → List Nat × Nat × Bytes
  | 0, b => ([], 0, b)
  | _ + 1, [] => ([], 0, [])
  | f + 1, b :: bs =>
    match utf8Tail b.toNat with
    | none =>
      let (cs, n, r) := decode8 final f bs
      (0xFFFD :: cs, n + 1, r)
    | some t =>
      match tail8 t bs (utf8Lead b.toNat t.length) 1 with
      | .char cp used =>
        let (cs, n, r) := decode8 final f (bs.drop (used - 1))
        (cp :: cs, n, r)
      | .broken used =>
        let (cs, n, r) := decode8 final f (bs.drop (used - 1))
        (0xFFFD :: cs, n + 1, r)
      | .openEnd => if final then ([0xFFFD], 1, []) else ([], 0, b :: bs)

/-- UTF-8 of a code point. -/
def encode8 (cp : Nat) : Bytes :=
  if cp < 0x80 then toLe 1 cp
  else if cp < 0x800 then toLe 1 (0xC0 + cp / 64) ++ toLe 1 (0x80 + cp % 64)
  else if cp < 0x10000 then toLe 1 (0xE0 + cp / 4096) ++ toLe 1 (0x80 + cp / 64 % 64) ++ toLe 1 (0x80 + cp % 64)
  else toLe 1 (0xF0 + cp / 262144) ++ toLe 1 (0x80 + cp / 4096 % 64) ++ toLe 1 (0x80 + cp / 64 % 64) ++ toLe 1 (0x80 + cp % 64)

/-- Is a byte string well-formed UTF-8 (R220)? -/
def wellFormed8 (b : Bytes) : Bool :=
  let (_, n, r) := decode8 true b.length b
  n = 0 && r.isEmpty

/-! ### Vocabulary images (R208 to R211): header, hash slots, pool in that order (log 29) -/

/-- vocab_size -/
def vSize (v : Bytes) : Nat := fld (leAt v 0 64) 18 0
/-- hash_bits -/
def vHashBits (v : Bytes) : Nat := fld (leAt v 0 64) 28 24
/-- entry_count -/
def vEntries (v : Bytes) : Nat := fld (leAt v 0 64) 51 32
/-- max_probe -/
def vProbe (v : Bytes) : Nat := fld (leAt v 0 64) 60 56
/-- pool_bytes -/
def vPool (v : Bytes) : Nat := fld (leAt v 0 64) 86 64
/-- norm_count -/
def vNorms (v : Bytes) : Nat := fld (leAt v 0 64) 98 96
/-- presplit_offset -/
def vPresplit (v : Bytes) : Nat := fld (leAt v 0 64) 159 128
/-- norm_offset_i -/
def vNormOff (v : Bytes) (i : Nat) : Nat := fld (leAt v 0 64) (191 + 32 * i) (160 + 32 * i)

/-- A hash slot, 128 bits. -/
def vSlot (v : Bytes) (i : Nat) : Nat := leAt v (64 + 16 * i) 16
/-- Bytes of the pool. -/
def vPoolAt (v : Bytes) (o n : Nat) : Bytes := slice v (64 + 16 * 2 ^ vHashBits v + o) n
/-- A little-endian number of the pool. -/
def vNat (v : Bytes) (o n : Nat) : Nat := leAt v (64 + 16 * 2 ^ vHashBits v + o) n

/-- ID index entry of a token (R210). -/
def vIndex (v : Bytes) (t : Nat) : Nat := vNat v (4 * t) 4
/-- Kind of a token: 0 ORDINARY, 1 CONTROL, 2 END_FIELD, 3 END_SEQUENCE. -/
def vKind (v : Bytes) (t : Nat) : Nat := fld (vIndex v t) 31 28
/-- Text of a token. -/
def vText (v : Bytes) (t : Nat) : Bytes := vPoolAt v (fld (vIndex v t) 21 0) (fld (vIndex v t) 27 22)

/-- One byte into FNV-1a (R209). -/
def fnvStep (h : Nat) (b : Byte) : Nat := (Nat.xor h b.toNat * 0x100000001B3) % 2 ^ 64
/-- FNV-1a offset basis. -/
def fnvBasis : Nat := 0xCBF29CE484222325
/-- Hash of a byte string. -/
def fnv (b : Bytes) : Nat := b.foldl fnvStep fnvBasis

/-- Search for a string from a slot on (R209). -/
def vProbeFrom (v : Bytes) (h : Nat) (str : Bytes) : Nat → Nat → Option Nat
  | 0, _ => none
  | f + 1, i =>
    let sl := vSlot v (i % 2 ^ vHashBits v)
    if !bit sl 20 then none
    else if fld sl 79 64 = h / 2 ^ 48 && fld sl 29 24 = str.length && vPoolAt v (fld sl 53 32) str.length = str then some sl
    else vProbeFrom v h str f (i + 1)

/-- The slot of a string (R209). -/
def vLookup (v : Bytes) (h : Nat) (str : Bytes) : Option Nat := vProbeFrom v h str (vProbe v + 1) (h % 2 ^ vHashBits v)

/-- Header of normalisation table `o`: mode. -/
def nMode (v : Bytes) (o : Nat) : Nat := vNat v o 1 % 4
/-- Entry of a code point in a normalisation table (R214). -/
def nEntry (v : Bytes) (o cp : Nat) : Nat :=
  let blk := vNat v (vNat v (o + 4) 4 + 2 * (cp / 256)) 2
  vNat v (vNat v (o + 8) 4 + 1024 * blk + 4 * (cp % 256)) 4
/-- Canonical combining class. -/
def nCcc (v : Bytes) (o cp : Nat) : Nat := fld (nEntry v o cp) 7 0
/-- Mapping of a code point. -/
def nMap (v : Bytes) (o cp : Nat) : List Nat :=
  let e := nEntry v o cp
  if bit e 13 then (List.range (fld e 12 8)).map (fun i => vNat v (vNat v (o + 12) 4 + 4 * (fld e 31 14 + i)) 4) else [cp]
/-- Composite of a pair (R214), if the table has one. -/
def nPair (v : Bytes) (o a b : Nat) : Option Nat :=
  let base := vNat v (o + 16) 4
  ((List.range (vNat v (o + 20) 2)).find? (fun i => vNat v (base + 12 * i) 4 == a && vNat v (base + 12 * i + 4) 4 == b)).map
    (fun i => vNat v (base + 12 * i + 8) 4)

/-- A normalisation table obeys R214. -/
def nOk (v : Bytes) (o : Nat) : Bool :=
  let h := vNat v o 64
  let pool := vPool v
  let l1 := fld h 63 32
  let bl := fld h 95 64
  let mp := fld h 127 96
  let pr := fld h 159 128
  let pc := fld h 175 160
  let pair := fun i => vNat v (pr + 12 * i) 4 * 2 ^ 32 + vNat v (pr + 12 * i + 4) 4
  onlyBits h [(1, 0), (175, 32)] && h % 4 ≤ 2 && l1 % 64 == 0 && bl % 64 == 0 && mp % 64 == 0 && pr % 64 == 0 &&
  l1 + 8704 ≤ pool && pr + 12 * pc ≤ pool && (h % 4 ≠ 0 || pr == 0) &&
  (List.range 4352).all (fun i =>
    let blk := vNat v (l1 + 2 * i) 2
    bl + 1024 * (blk + 1) ≤ pool &&
    (List.range 256).all (fun k =>
      let e := vNat v (bl + 1024 * blk + 4 * k) 4
      fld e 12 8 ≤ 18 && (bit e 13 || fld e 12 8 == 0) && (fld e 12 8 == 0 || mp + 4 * (fld e 31 14 + fld e 12 8) ≤ pool))) &&
  (List.range (pc - 1)).all (fun i => pair i < pair (i + 1))

/-- Blocks that a level-1 array at pool offset `l1` names: one more than the highest. -/
def vBlocks (v : Bytes) (l1 : Nat) : Nat := maxOf ((List.range 4352).map (fun i => vNat v (l1 + 2 * i) 2)) + 1

/-- The regions of a normalisation table (R214): header, level-1 array, blocks, mapping array, pairs. The mapping array ends
where the last mapping that an entry names ends (log 29). -/
def nRegions (v : Bytes) (o : Nat) : List (Nat × Nat) :=
  let h := vNat v o 64
  let l1 := fld h 63 32
  let bl := fld h 95 64
  let n := vBlocks v l1
  let maps := (List.range (256 * n)).map (fun i =>
    let e := vNat v (bl + 4 * i) 4
    if fld e 12 8 = 0 then 0 else fld e 31 14 + fld e 12 8)
  [(o, 64), (l1, 8704), (bl, 1024 * n), (fld h 127 96, 4 * maxOf maps), (fld h 159 128, 12 * fld h 175 160)]

/-- Ordinary tokens of a vocabulary. -/
def vOrdinary (v : Bytes) : List Nat := (List.range (vSize v)).filter (fun t => vKind v t == 0)

/-- Blocks of the pre-split table's class map. -/
def preBlocks (v : Bytes) : Nat := vBlocks v (vPresplit v)

/-- The regions of the pool (R210, R211, R214, R217): ID index, texts, pre-split table with its matrix and mask,
normalisation tables. Empty ones are left out. -/
def vRegions (v : Bytes) : List (Nat × Nat) :=
  ((0, 4 * vSize v) :: (vOrdinary v).map (fun t => (fld (vIndex v t) 21 0, fld (vIndex v t) 27 22)) ++
    (if vPresplit v = 0 then [] else [(vPresplit v, 8704 + 128 * preBlocks v + 34)]) ++
    (List.range (vNorms v)).flatMap (fun i => nRegions v (vNormOff v i))).filter (fun r => r.2 != 0)

/-- What R209 has a slot say of its string: `tok` is the string's token, if it has one. -/
def vSlotSays (toks : List (Bytes × Nat)) (str : Bytes) (sl : Nat) : Bool :=
  let tok := (toks.find? (fun x => x.1 == str)).map Prod.snd
  let longer := toks.any (fun x => str.length < x.1.length && x.1.take str.length == str)
  (tok.isSome || longer) && bit sl 18 == tok.isSome && bit sl 19 == longer && fld sl 17 0 == tok.getD 0

/-- A string has a slot, and it is as R211 asks. -/
def vSlotOk (v : Bytes) (toks : List (Bytes × Nat)) (str : Bytes) : Bool :=
  match vLookup v (fnv str) str with
  | none => false
  | some sl => vSlotSays toks str sl

/-- A valid slot obeys R209 and R211: its string lies in the pool, check is of it, and it is near its home slot. -/
def vUsedOk (v : Bytes) (toks : List (Bytes × Nat)) (i : Nat) : Bool :=
  let sl := vSlot v i
  let n := fld sl 29 24
  let str := vPoolAt v (fld sl 53 32) n
  1 ≤ n && n ≤ 32 && fld sl 53 32 + n ≤ vPool v && fld sl 79 64 == fnv str / 2 ^ 48 && vSlotSays toks str sl &&
  (2 ^ vHashBits v + i - fnv str % 2 ^ vHashBits v) % 2 ^ vHashBits v ≤ vProbe v

/-- The checks of R208 to R211. -/
def vocabOk (v : Bytes) : Bool :=
  let h := leAt v 0 64
  let toks := (vOrdinary v).map (fun t => (vText v t, t))
  let slots := (List.range (2 ^ vHashBits v)).map (vSlot v)
  let used := (List.range (2 ^ vHashBits v)).filter (fun i => bit (vSlot v i) 20)
  let regs := vRegions v
  onlyBits h [(18, 0), (28, 24), (51, 32), (60, 56), (86, 64), (98, 96), (287, 128)] &&
  256 ≤ vSize v && vSize v ≤ 262144 && 12 ≤ vHashBits v && vHashBits v ≤ 19 && vEntries v ≤ 2 ^ vHashBits v &&
  vPool v % 65536 == 0 && vPool v ≤ 4194304 && vNorms v ≤ 4 && vPresplit v % 64 == 0 &&
  (List.range 4).all (fun i => vNormOff v i % 64 == 0 && (i < vNorms v || vNormOff v i == 0)) &&
  64 + 16 * 2 ^ vHashBits v + vPool v ≤ v.length &&
  (List.range (vSize v)).all (fun t => vKind v t ≤ 3 &&
    (if vKind v t = 0 then 1 ≤ fld (vIndex v t) 27 22 && fld (vIndex v t) 27 22 ≤ 32 else fld (vIndex v t) 27 22 == 0)) &&
  regs.all (fun r => r.1 + r.2 ≤ vPool v) &&
  (List.range regs.length).all (fun i => (List.range i).all (fun j =>
    let a := regs[i]?.getD (0, 0)
    let b := regs[j]?.getD (0, 0)
    !overlaps a.1 a.2 b.1 b.2)) &&
  (List.range 256).all (fun b => toks.any (fun x => x.1 == toLe 1 b)) &&
  (List.range toks.length).all (fun i => (List.range i).all (fun j => (toks[i]?.map Prod.fst) != (toks[j]?.map Prod.fst))) &&
  toks.all (fun x => (List.range x.1.length).all (fun n => vSlotOk v toks (x.1.take (n + 1)))) &&
  slots.all (fun sl => onlyBits sl [(20, 0), (29, 24), (53, 32), (79, 64)]) &&
  used.all (vUsedOk v toks) && used.length == vEntries v && (List.range (vNorms v)).all (fun i => nOk v (vNormOff v i))

/-! ### Normalisation (R214 to R216) -/

/-- Decomposition of a Hangul syllable (R215 step 2). -/
def hangulDecomp (cp : Nat) : List Nat :=
  if 0xAC00 ≤ cp && cp ≤ 0xD7A3 then
    let x := cp - 0xAC00
    let t := x % 28
    [0x1100 + x / 588, 0x1161 + x % 588 / 28] ++ (if t = 0 then [] else [0x11A7 + t])
  else [cp]

/-- Composition of two characters, Hangul or by the table (R215 step 4). -/
def composePair (v : Bytes) (o a b : Nat) : Option Nat :=
  if 0x1100 ≤ a && a ≤ 0x1112 && 0x1161 ≤ b && b ≤ 0x1175 then some (0xAC00 + ((a - 0x1100) * 21 + (b - 0x1161)) * 28)
  else if 0xAC00 ≤ a && a ≤ 0xD7A3 && (a - 0xAC00) % 28 = 0 && 0x11A8 ≤ b && b ≤ 0x11C2 then some (a + (b - 0x11A7))
  else nPair v o a b

/-- Insert a character into a run in stable order of ccc. -/
def insertCcc (ccc : Nat → Nat) (c : Nat) : List Nat → List Nat
  | [] => [c]
  | x :: r => if ccc c < ccc x then c :: x :: r else x :: insertCcc ccc c r

/-- Canonical ordering (R215 step 3): runs of ccc above 0, sorted. `run` is the run so far. -/
def orderRuns (ccc : Nat → Nat) : List Nat → List Nat → List Nat
  | [], run => run
  | c :: r, run => if ccc c = 0 then run ++ c :: orderRuns ccc r [] else orderRuns ccc r (insertCcc ccc c run)

/-- Canonical composition (R215 step 4), as runs: the decomposed characters of each, and what they compose to. A run
begins at a starter that composes with nothing before it. `src` is the open run so far, `st` its composed starter, and
`mid` the marks kept after that. -/
def composeRuns (ccc : Nat → Nat) (comp : Nat → Nat → Option Nat) :
    List Nat → List Nat → Option Nat → List Nat → List (List Nat × List Nat)
  | [], src, st, mid => [(src, st.toList ++ mid)]
  | c :: r, src, none, mid =>
    if ccc c = 0 then (src, mid) :: composeRuns ccc comp r [c] (some c) []
    else composeRuns ccc comp r (src ++ [c]) none (mid ++ [c])
  | c :: r, src, some s, mid =>
    let blocked := match mid.getLast? with | some x => ccc x == 0 || ccc c ≤ ccc x | none => false
    match (if blocked then none else comp s c) with
    | some x => composeRuns ccc comp r (src ++ [c]) (some x) mid
    | none =>
      if ccc c = 0 then (src, s :: mid) :: composeRuns ccc comp r [c] (some c) []
      else composeRuns ccc comp r (src ++ [c]) (some s) (mid ++ [c])

/-- Stream-Safe insertion (R216): characters with U+034F before the 31st in a row of ccc above 0, the run's length, and
insertions. -/
def streamSafe (ccc : Nat → Nat) : List Nat → Nat → List Nat × Nat × Nat
  | [], n => ([], n, 0)
  | c :: r, n =>
    if ccc c = 0 then
      let (l, m, k) := streamSafe ccc r 0
      (c :: l, m, k)
    else if n = 30 then
      let (l, m, k) := streamSafe ccc r 1
      (0x034F :: c :: l, m, k + 1)
    else
      let (l, m, k) := streamSafe ccc r (n + 1)
      (c :: l, m, k)

/-- One table of the chain: output, held characters with their run, insertions. What is held since the last starter (R216)
has been mapped and decomposed and is not yet composed, so each step of R215 happens once wherever buffers end. -/
def normStep (v : Bytes) (o : Nat) (final : Bool) (st : List Nat × Nat) (cs : List Nat) : List Nat × (List Nat × Nat) × Nat :=
  if nMode v o = 0 then (cs.flatMap (nMap v o), st, 0)
  else
    let ccc := nCcc v o
    let (safe, run, k) := streamSafe ccc cs st.2
    let dec := st.1 ++ safe.flatMap (fun c => (nMap v o c).flatMap hangulDecomp)
    let runs := composeRuns ccc (composePair v o) (orderRuns ccc dec []) [] none []
    if final then (runs.flatMap Prod.snd, ([], 0), k)
    else (runs.dropLast.flatMap Prod.snd, ((runs.getLast?.map Prod.fst).getD [], run), k)

/-- The chain of tables (R214). -/
def normChain (v : Bytes) (final : Bool) : List Nat → List (List Nat × Nat) → List Nat → List Nat × List (List Nat × Nat) × Nat
  | [], _, cs => (cs, [], 0)
  | i :: r, sts, cs =>
    let (out, st, k) := normStep v (vNormOff v i) final (sts.headD ([], 0)) cs
    let (out2, sts2, k2) := normChain v final r (sts.drop 1) out
    (out2, st :: sts2, k + k2)

/-! ### Pre-splitting and tokenization (R217, R218) -/

/-- Class of a code point: level-1 array, then blocks of 128 bytes (log 29). -/
def preClass (v : Bytes) (cp : Nat) : Nat :=
  let o := vPresplit v
  let blk := vNat v (o + 2 * (cp / 256)) 2
  let w := vNat v (o + 8704 + 128 * blk + 4 * (cp % 256 / 8)) 4
  (w / 16 ^ (cp % 8)) % 16

/-- Does a piece end between two characters (R217)? -/
def preBoundary (v : Bytes) (a b : Nat) : Bool :=
  let o := vPresplit v + 8704 + 128 * preBlocks v
  let ca := preClass v a
  let cb := preClass v b
  let single := vNat v (o + 32) 2
  bit (vNat v (o + 2 * ca) 2) cb || bit single ca || bit single cb

/-- How the longest match from a position ends: best length and token, and whether it is decided (R218). -/
def longest (v : Bytes) (b : Bytes) : Nat → Nat → Nat → Nat × Nat → (Nat × Nat) × Bool
  | 0, _, _, best => (best, true)
  | f + 1, n, h, best =>
    match b[n]? with
    | none => (best, false)
    | some x =>
      let h := fnvStep h x
      match vLookup v h (b.take (n + 1)) with
      | none => (best, true)
      | some sl =>
        let best := if bit sl 18 then (n + 1, fld sl 17 0) else best
        if bit sl 19 then longest v b f (n + 1) h best else (best, true)

/-- Tokens of a piece: token and offset, and the bytes not decided (R218). -/
def tokenize (v : Bytes) (final : Bool) : Nat → Nat → Bytes → List (Nat × Nat) × Nat × Bytes
  | 0, o, b => ([], o, b)
  | f + 1, o, b =>
    if b.isEmpty then ([], o, [])
    else
      let (best, decided) := longest v b 32 0 fnvBasis (0, 0)
      if best.1 = 0 || !(decided || final) then ([], o, b)
      else
        let (ts, o2, r) := tokenize v final f (o + best.1) (b.drop best.1)
        ((best.2, o) :: ts, o2, r)

/-- Feed normalised characters through the pre-splitter: state is last character, open piece, offset. -/
def feedChars (v : Bytes) : List Nat → Option Nat → Bytes → Nat → List (Nat × Nat) × Option Nat × Bytes × Nat
  | [], last, piece, o => ([], last, piece, o)
  | c :: r, last, piece, o =>
    if vPresplit v = 0 then feedChars v r none (piece ++ encode8 c) o
    else
      match last with
      | none => feedChars v r (some c) piece o
      | some l =>
        let piece := piece ++ encode8 l
        if preBoundary v l c then
          let (ts, o2, _) := tokenize v true piece.length o piece
          let (ts2, last2, p2, o3) := feedChars v r (some c) [] o2
          (ts ++ ts2, last2, p2, o3)
        else feedChars v r (some c) piece o

/-- What one buffer does to a stream: tokens with offsets, replacements, insertions, new state (R212 to R218). -/
def textBuffer (v : Bytes) (final : Bool) (st : TextStream) (buf : Bytes) : List (Nat × Nat) × Nat × Nat × TextStream :=
  let inp := st.raw ++ buf
  let (cs, rep, raw) := decode8 final inp.length inp
  let (out, held, cgj) := normChain v final (List.range (vNorms v)) st.held cs
  let (ts, last, piece, o) := feedChars v out st.last st.piece st.offset
  let piece := if final then piece ++ (match last with | some l => encode8 l | none => []) else piece
  let (ts2, o2, rest) := tokenize v final piece.length o piece
  let ts := ts ++ ts2
  if final then (ts, rep, cgj, { st with raw := [], held := [], last := none, piece := [], offset := 0 })
  else (ts, rep, cgj, { st with raw := raw, held := held, last := last, piece := rest, offset := o2 })

/-- The loaded vocabulary of a context's schedule image. -/
def State.vocabRec (s : State) (c : Nat) : Option Vocab :=
  match (s.ctx? c).bind Ctx.image with
  | some i => s.text.vocabs.find? (fun v => v.digest == i.vocab)
  | none => none

/-- The image of a context's vocabulary. -/
def State.vocabOf (s : State) (c : Nat) : Option Bytes := (s.vocabRec c).map Vocab.image

/-- Where a vocabulary's slots and its pool lie in vocabulary memory: offset and bytes. -/
def Vocab.ranges (v : Vocab) : List (Nat × Nat) :=
  [(16 * v.slotBase, 16 * 2 ^ vHashBits v.image), (8388608 + 65536 * v.poolBase, vPool v.image)]

/-- Where the ID index entry and the text of a token lie in vocabulary memory (R210): what the detokenizer reads. -/
def Vocab.tokenRanges (v : Vocab) (t : Nat) : List (Nat × Nat) :=
  let o := 8388608 + 65536 * v.poolBase
  [(o + 4 * t, 4), (o + fld (vIndex v.image t) 21 0, fld (vIndex v.image t) 27 22)]

/-- A text job reads its vocabulary (R228, R445). Which words the text takes it to is not stated for each lookup: of the
words that hold an error, it is free which ones it reads (log 119). -/
def State.jobReads (s : State) (c : Nat) (v : Vocab) : State × Bool :=
  s.someReads .vocabulary 0 (some c) v.ranges

/-- Add to a context's counters what the text engine's input stages did (R227): bytes, replacements, insertions, tokens. -/
def State.countText (s : State) (c bytes rep cgj toks : Nat) : State :=
  (((s.count c 0x30 bytes).count c 0x31 rep).count c 0x32 cgj).count c 0x33 toks

/-! ### Text jobs (R219) -/

/-- The job that the engine takes up next (R219), as stream and submission number: of a real-time context before one of a
best-effort context, and in each class the one submitted first. -/
def State.nextText (s : State) : Option (Nat × Nat) :=
  let heads := s.text.streams.filterMap (fun t =>
    match t.2.jobs with
    | j :: _ => if s.ctxRuns t.2.ctx then some (s.isRt t.2.ctx, t.1, j.no) else none
    | [] => none)
  (heads.foldl (fun (b : Option (Bool × Nat × Nat)) h =>
    match b with
    | none => some h
    | some y => if (h.1 && !y.1) || (h.1 == y.1 && h.2.2 < y.2.2) then some h else b) none).map Prod.snd

/-- The job that the engine runs: the one it has begun, which goes on to its buffer's end, or else the next. -/
def State.servedText (s : State) : Option (Nat × Nat) :=
  match s.text.serving with
  | some (n, k) =>
    (match (tabFind s.text.streams n).bind (fun t => t.jobs.head?) with
     | some j => if j.no = k then some (n, k) else s.nextText
     | none => s.nextText)
  | none => s.nextText

/-- The engine, where it is free, begins a job. -/
def State.serveText (s : State) : State := s.setText { s.text with serving := s.servedText }

/-- The engine runs a job of a context. -/
def State.textBusy (s : State) (c : Nat) : Bool :=
  match s.servedText with
  | some (n, _) => (match tabFind s.text.streams n with | some t => t.ctx == c | none => false)
  | none => false

/-- A TEXT descriptor joins its stream's jobs. -/
def State.queueText (s : State) (n sq desc : Nat) : State :=
  let s := s.serveText
  let j : TextJob := { sq := sq, desc := desc, no := s.text.nextJob }
  (s.setText { s.text with
    nextJob := s.text.nextJob + 1,
    streams := tabUpd s.text.streams n (fun x => { x with jobs := x.jobs ++ [j] }) }).serveText

/-- Change a text stream. -/
def State.putStream (s : State) (n : Nat) (x : TextStream) : State :=
  s.setText { s.text with streams := tabPut s.text.streams n x }

/-- A close request that waits is answered once the stream has no job (R383). -/
def State.closeStream (s : State) (n : Nat) : State :=
  match tabFind s.text.streams n with
  | some x =>
    if x.closing.isSome && x.jobs.isEmpty then
      let s := s.setText { s.text with streams := tabDel s.text.streams n }
      (s.mbox.taken.filter (fun r => r.opcode == 0x0043 && fld (leNat r.payload) 15 8 == n)).foldl (fun (s : State) r =>
        s.replyMirrored r.ch r.seq r.opcode stOK [] [.textStream n none]) s
    else s
  | none => s

/-- TEXT_JOB_COMPLETE (R218, R219): the stream's oldest buffer, which the engine runs, has been read; the entries that fit of
its decided tokens are written, its descriptor completes, and the engine goes on to the next job. -/
def execTextJobComplete (stream : Nat) (s : State) : Result :=
  .next (match tabFind s.text.streams stream with
    | none => s
    | some st =>
      match st.jobs with
      | [] => s
      | j :: rest =>
        match tabFind s.hq j.sq, s.vocabRec st.ctx with
        | some q, some v =>
          match q.outst.find? (fun d => d.no == j.desc) with
          | none => s
          | some d =>
            if !s.works || !s.busMaster 0 || s.servedText != some (stream, j.no) then s
            else
              match s.jobReads st.ctx v with
              | (s, false) => s
              | (s, true) =>
                let w := d.word
                let buf := s.hostBytes (fld w 191 128) (fld w 223 192)
                let (ts, rep, cgj, st2) := textBuffer v.image (bit w 13) st buf
                let per := if bit w 352 then 2 else 1
                let fit := fld w 351 320 / 4
                let entries := ts.flatMap (fun t => if per = 2 then [t.1, t.2] else [t.1])
                let whole := min ts.length (fit / per)
                let s := s.hostPut (fld w 319 256) ((entries.take fit).flatMap (toLe 4))
                let s := (s.putStream stream { st2 with jobs := rest }).serveText
                let s := s.countText st.ctx buf.length rep cgj whole
                let s := s.completeDesc j.sq j.desc (if whole = ts.length then stOK else stFormat) whole
                s.closeStream stream
        | _, _ => s)

/-! ### The detokenizer (R220 to R225) -/

/-- Stop table entries of a text profile: text, include_stop. -/
def stopsOf (p : TextProfile) : List (Bytes × Bool) :=
  p.stops.map (fun e => (e.take (leAt e 64 2 % 128), bit (leAt e 64 2) 7))

/-- A text profile obeys R309 and R220. -/
def profileOk (p : TextProfile) : Bool :=
  1 ≤ p.fieldCount && p.fieldCount ≤ 64 && 1 ≤ p.fieldMaxBytes && p.fieldMaxBytes ≤ 4096 && p.stops.length ≤ 16 &&
  p.stops.all (fun e =>
    let n := leAt e 64 2 % 128
    1 ≤ n && n ≤ 64 && e.length == 72 && leAt e 64 8 < 256 && (e.drop n).take (64 - n) == zeros (64 - n) &&
      wellFormed8 (e.take n)) &&
  (List.range p.stops.length).all (fun i => (List.range i).all (fun j =>
    (((stopsOf p)[i]?).map Prod.fst) != (((stopsOf p)[j]?).map Prod.fst)))

/-- Hold-back H (R220). -/
def holdLen (p : TextProfile) : Nat := maxOf ((stopsOf p).map (fun x => x.1.length)) - 1

/-- The longest stop string ending at byte `k` of the held bytes. -/
def stopAt (stops : List (Bytes × Bool)) (held : Bytes) (k : Nat) : Option (Bytes × Bool) :=
  (stops.filter (fun x => x.1.length ≤ k && (held.take k).drop (k - x.1.length) == x.1)).foldl
    (fun b x => match b with | some y => if y.1.length < x.1.length then some x else b | none => some x) none

/-- The first position at which a stop string ends (R222): position, and the stop. -/
def firstStop (stops : List (Bytes × Bool)) (held : Bytes) : Option (Nat × Bytes × Bool) :=
  match (List.range (held.length + 1)).find? (fun k => (stopAt stops held k).isSome) with
  | some k => (stopAt stops held k).map (fun x => (k, x))
  | none => none

/-- Largest number of bytes up to `n` that ends on a character boundary of well-formed UTF-8. -/
def charFloor (b : Bytes) : Nat → Nat
  | 0 => 0
  | n + 1 => match b[n + 1]? with
    | some x => if x.toNat / 64 = 2 then charFloor b n else n + 1
    | none => n + 1

/-- Add released bytes to a field's text, whole characters within the limit; once one is dropped, all later are (R224).
Gives the sequence and whether the overflow begins here. -/
def addText (p : TextProfile) (q : Seq) (b : Bytes) : Seq × Bool :=
  if q.overflow || b.isEmpty then (q, false)
  else
    let room := p.fieldMaxBytes - q.text.length
    if b.length ≤ room then ({ q with text := q.text ++ b }, false)
    else ({ q with text := q.text ++ b.take (charFloor b room), overflow := true }, true)

/-- What detokenizing changes beside the sequence: replacements, stop matches, overflows. -/
structure DetokCount where
  replaced : Nat := 0
  stops : Nat := 0
  overflows : Nat := 0
  deriving DecidableEq, Repr

/-- End a field at other than a stop string (R223): held bytes are released, pending bytes become one U+FFFD. -/
def flushField (p : TextProfile) (q : Seq) : Seq × DetokCount :=
  let (q, a) := addText p q q.held
  let (q2, b) := if q.pending.isEmpty then (q, false) else addText p q (encode8 0xFFFD)
  ({ q2 with held := [], pending := [] },
    { replaced := if q.pending.isEmpty then 0 else 1, overflows := (if a then 1 else 0) + (if b then 1 else 0) })

/-- A committed token's text enters the detokenizer (R221, R222). `ending` is set when a stop string ends the field; the
bytes after it stay held for the next field. -/
def detokText (p : TextProfile) (text : Bytes) (q : Seq) : Seq × DetokCount :=
  let inp := q.pending ++ text
  let (cs, rep, rest) := decode8 false inp.length inp
  let held := q.held ++ cs.flatMap encode8
  let q := { q with pending := rest, held := held }
  match firstStop (stopsOf p) held with
  | some (k, stop, keep) =>
    let body := held.take (if keep then k else k - stop.length)
    let (q, o) := addText p q body
    ({ q with held := held.drop k, ending := some 0 }, { replaced := rep, stops := 1, overflows := if o then 1 else 0 })
  | none =>
    let n := charFloor held (held.length - holdLen p)
    let (q, o) := addText p q (held.take n)
    ({ q with held := held.drop n }, { replaced := rep, overflows := if o then 1 else 0 })

end Sys2Proof.Machine
end

