-- ==== Sys2Proof/Machine/Stencil.lean ====
section
/-! DEFINITION. Machine/Stencil.lean: grammar and lexicon images, the commit walk, masks and dead ends
(10_stencil_engine.md). -/

namespace Sys2Proof.Machine

/-! ### Grammar images (R229 to R232) -/

/-- Header of a grammar image. -/
def gHdr (g : Bytes) : Nat := leAt g 0 64
/-- state_count -/
def gStates (g : Bytes) : Nat := fld (gHdr g) 16 0
/-- class_count -/
def gClasses (g : Bytes) : Nat := fld (gHdr g) 44 32
/-- field_count -/
def gFields (g : Bytes) : Nat := fld (gHdr g) 54 48
/-- mask_count -/
def gMasks (g : Bytes) : Nat := fld (gHdr g) 80 64
/-- trans_total -/
def gTrans (g : Bytes) : Nat := fld (gHdr g) 120 96
/-- vocab_size -/
def gVocab (g : Bytes) : Nat := fld (gHdr g) 146 128
/-- class_table_offset -/
def gClassOff (g : Bytes) : Nat := fld (gHdr g) 191 160
/-- state_offset -/
def gStateOff (g : Bytes) : Nat := fld (gHdr g) 223 192
/-- mask_offset -/
def gMaskOff (g : Bytes) : Nat := fld (gHdr g) 255 224
/-- trans_offset -/
def gTransOff (g : Bytes) : Nat := fld (gHdr g) 287 256
/-- field_offset -/
def gFieldOff (g : Bytes) : Nat := fld (gHdr g) 319 288

/-- Class entry of a token. -/
def gClassEntry (g : Bytes) (t : Nat) : Nat := leAt g (gClassOff g + 2 * t) 2
/-- Class of a token. -/
def gClass (g : Bytes) (t : Nat) : Nat := gClassEntry g t % 4096
/-- State entry (R230). -/
def gState (g : Bytes) (n : Nat) : Nat := leAt g (gStateOff g + 16 * n) 16
/-- mask_index of a state -/
def stMask (e : Nat) : Nat := fld e 15 0
/-- exit_mask_index of a state -/
def stExit (e : Nat) : Nat := fld e 31 16
/-- has_exit of a state -/
def stHasExit (e : Nat) : Bool := bit e 56
/-- lex_enter of a state -/
def stLexEnter (e : Nat) : Bool := bit e 81
/-- lex_slot of a state -/
def stLexSlot (e : Nat) : Nat := fld e 85 82
/-- Class mask, as a number of 4,096 bits. -/
def gMask (g : Bytes) (i : Nat) : Nat := leAt g (gMaskOff g + 512 * i) 512
/-- Transition entry. -/
def gTransAt (g : Bytes) (i : Nat) : Nat := leAt g (gTransOff g + 4 * i) 4
/-- Field entry (R231). -/
def gField (g : Bytes) (i : Nat) : Nat := leAt g (gFieldOff g + 8 * i) 8
/-- Transitions of a state: class and next state. -/
def gTransOf (g : Bytes) (e : Nat) : List (Nat × Nat) :=
  (List.range (fld e 76 64)).map (fun i =>
    let t := gTransAt g (fld e 55 32 + i)
    (fld t 11 0, fld t 27 12))
/-- Next state on a class, if the state has a transition on it. -/
def gNext (g : Bytes) (n c : Nat) : Option Nat := ((gTransOf g (gState g n)).find? (fun x => x.1 == c)).map Prod.snd

/-- Classes of a mask in ascending order. -/
def maskClasses (m : Nat) : List Nat := (List.range 4096).filter (bit m)

/-- A state obeys R230 and R232. The k of R232's last clause is a lexicon's slot, 1 to 15 (log 120). -/
def gStateOk (g : Bytes) (n : Nat) : Bool :=
  let e := gState g n
  let m := gMask g (stMask e)
  let x := if stHasExit e then gMask g (stExit e) else 0
  let ts := gTransOf g e
  onlyBits e [(56, 0), (76, 64), (85, 80)] && stMask e < gMasks g && stExit e < gMasks g &&
  (stHasExit e || stExit e == 0) && fld e 76 64 ≤ 4096 && fld e 55 32 + fld e 76 64 ≤ gTrans g &&
  ts.map Prod.fst == maskClasses (Nat.lor m x) && ts.all (fun t => t.2 < gStates g) &&
  (stLexSlot e != 0 || (!stLexEnter e && !stHasExit e)) && Nat.land m x == 0 &&
  (stLexSlot e == 0 || ts.all (fun t => !bit m t.1 || stLexSlot (gState g t.2) == stLexSlot e))

/-- A grammar image obeys R229 to R232, for a vocabulary of `vs` tokens and a text profile of `fs` fields. No mask holds a
class at or above class_count: R232 concludes that every class of a mask has a token. -/
def grammarOk (g : Bytes) (vs fs : Nat) : Bool :=
  let inside := fun o n => o % 64 == 0 && decide (o + n ≤ g.length)
  64 ≤ g.length &&
  onlyBits (gHdr g) [(16, 0), (44, 32), (54, 48), (80, 64), (120, 96), (146, 128), (319, 160)] &&
  1 ≤ gStates g && gStates g ≤ 65536 && 1 ≤ gClasses g && gClasses g ≤ 4096 && 1 ≤ gFields g && gFields g ≤ 64 &&
  gFields g == fs && 1 ≤ gMasks g && gMasks g ≤ 65536 && 1 ≤ gTrans g && gTrans g ≤ 16777216 && gVocab g == vs &&
  inside (gClassOff g) (2 * gVocab g) && inside (gStateOff g) (16 * gStates g) && inside (gMaskOff g) (512 * gMasks g) &&
  inside (gTransOff g) (4 * gTrans g) && inside (gFieldOff g) (8 * gFields g) &&
  (List.range (gVocab g)).all (fun t => gClassEntry g t < gClasses g) &&
  (List.range (gClasses g)).all (fun c => (List.range (gVocab g)).any (fun t => gClass g t == c)) &&
  (List.range (gMasks g)).all (fun i => gMask g i < 2 ^ gClasses g) &&
  (List.range (gTrans g)).all (fun i => fld (gTransAt g i) 31 28 == 0) &&
  (List.range (gStates g)).all (gStateOk g) &&
  (List.range (gFields g)).all (fun i =>
    let f := gField g i
    onlyBits f [(48, 0)] && fld f 15 0 < gStates g && fld f 31 16 < gStates g &&
      (if bit f 48 then 1 ≤ fld f 47 32 else fld f 47 16 == 0))

/-- Lexicon slots that a grammar's states name. -/
def gSlots (g : Bytes) : List Nat :=
  ((List.range (gStates g)).map (fun n => stLexSlot (gState g n))).filter (fun k => k != 0)

/-! ### Lexicon images (R233, R234) -/

/-- node_count -/
def lxNodes (l : Bytes) : Nat := fld (leAt l 0 64) 24 0
/-- node_offset -/
def lxNodeOff (l : Bytes) : Nat := fld (leAt l 0 64) 95 64
/-- edge_offset -/
def lxEdgeOff (l : Bytes) : Nat := fld (leAt l 0 64) 127 96
/-- A node. -/
def lxNode (l : Bytes) (v : Nat) : Nat := leAt l (lxNodeOff l + 16 * v) 16
/-- first_edge -/
def ndFirst (n : Nat) : Nat := fld n 23 0
/-- edge_count -/
def ndEdges (n : Nat) : Nat := fld n 40 32
/-- terminal -/
def ndTerm (n : Nat) : Bool := bit n 41
/-- payload_id -/
def ndPayload (n : Nat) : Nat := fld n 95 64
/-- An edge entry. -/
def lxEdge (l : Bytes) (e : Nat) : Nat := leAt l (lxEdgeOff l + 4 * e) 4
/-- Edge tokens of a node, in order. -/
def lxTokens (l : Bytes) (v : Nat) : List Nat :=
  let n := lxNode l v
  (List.range (ndEdges n)).map (fun i => fld (lxEdge l (ndFirst n + i)) 17 0)

/-- Strictly ascending. -/
def ascending : List Nat → Bool
  | [] => true
  | [_] => true
  | a :: b :: r => decide (a < b) && ascending (b :: r)

/-- A lexicon image obeys R233 and R234; with a vocabulary, its tokens are ORDINARY tokens of it. -/
def lexiconOk (l : Bytes) (v : Option Bytes) : Bool :=
  let n := lxNodes l
  let runs := (List.range n).map (fun i => (ndFirst (lxNode l i), ndEdges (lxNode l i)))
  64 ≤ l.length && onlyBits (leAt l 0 64) [(24, 0), (127, 64)] && 1 ≤ n && n ≤ 16777216 &&
  lxNodeOff l % 64 == 0 && lxEdgeOff l % 64 == 0 && lxNodeOff l + 16 * n ≤ l.length && lxEdgeOff l + 4 * n ≤ l.length &&
  lxEdge l 0 == 0 &&
  (List.range n).all (fun i =>
    let nd := lxNode l i
    onlyBits nd [(23, 0), (41, 32), (95, 64)] && ndEdges nd ≤ 256 && (ndEdges nd != 0 || (ndFirst nd == 0 && ndTerm nd)) &&
      (if ndTerm nd then ndPayload nd != 0xFFFFFFFF else ndPayload nd == 0) && ascending (lxTokens l i)) &&
  (List.range (n - 1)).all (fun i => countIf (fun r => r.1 ≤ i + 1 && i + 1 < r.1 + r.2) runs == 1) &&
  sumOf (runs.map Prod.snd) == n - 1 &&
  (List.range (n - 1)).all (fun i =>
    fld (lxEdge l (i + 1)) 31 18 == 0 &&
      (match v with | some v => fld (lxEdge l (i + 1)) 17 0 < vSize v && vKind v (fld (lxEdge l (i + 1)) 17 0) == 0 | none => true))

/-! ### Bindings (R235, R236, R242) -/

/-- Resident bytes of the stencil cache: grammars, and roots of lexicons. -/
def residentBytes (gs ls : List Bytes) : Nat :=
  sumOf (gs.map (fun g => 2 * gVocab g + 16 * gStates g + 4 * gTrans g + 512 * gMasks g)) +
  sumOf (ls.map (fun l => 16 + 4 * ndEdges (lxNode l 0)))

/-- Resident bytes of what is bound now, with the lexicons of bindings that wait for a field start (R247). -/
def StenSt.resident (t : StenSt) : Nat :=
  residentBytes ((t.grammars.filter (fun g => !g.users.isEmpty)).map Grammar.image)
    ((t.lexicons.filter (fun g => !g.users.isEmpty || t.waiting.any (fun w => w.2.2 == some g.digest))).map Grammar.image)

/-- Sum of max_seq over the contexts with a stencil binding that meet `p` (R235, R242). -/
def State.stencilLoad (s : State) (p : Ctx → Bool) : Nat :=
  sumOf (s.ctxs.map (fun c => if c.2.hasStencil && p c.2 then c.2.maxSeq else 0))

/-- b_stencil in ns for a stencil load (R22, R242). -/
def bStencil (load : Nat) : Nat := if load ≤ 256 then 6000 else 12000

/-- The stencil load of admitted real-time contexts (R242). -/
def State.rtLoad (s : State) : Nat := s.stencilLoad (fun c => c.realTime && c.part.isSome)

/-- The grammar that a context's image binds. -/
def State.grammarOf (s : State) (c : Nat) : Option Grammar :=
  match (s.ctx? c).bind Ctx.image with
  | some i => s.sten.grammars.find? (fun g => g.digest == i.grammar)
  | none => none

/-- A lexicon image by digest. -/
def State.lexicon (s : State) (d : Bytes) : Option Grammar := s.sten.lexicons.find? (fun l => l.digest == d)

/-- Text profile of a context. -/
def State.profileOf (s : State) (c : Nat) : Option TextProfile := ((s.ctx? c).bind Ctx.image).bind Image.text

/-! ### Reading state of a context -/

/-- Reading state. -/
def State.reading (s : State) (c : Nat) : Reading := tabGet {} s.read.ctx c

/-- Replace it. -/
def State.putReading (s : State) (c : Nat) (r : Reading) : State := s.setRead { s.read with ctx := tabPut s.read.ctx c r }

/-- Change one sequence. -/
def State.modSeq (s : State) (c j : Nat) (f : Seq → Seq) : State :=
  let r := s.reading c
  s.putReading c { r with seqs := listMod r.seqs j f }

/-- Release lexicons whose last binding and last walk have ended (R247): a binding that waits is a binding. -/
def State.sweepLexicons (s : State) : State :=
  let walked := s.read.ctx.flatMap (fun r => (r.2.seqs.filter Seq.lex).map Seq.lexDig)
  let ends := fun (l : Grammar) => l.wasBound && l.users.isEmpty && !walked.contains l.digest &&
    !s.sten.waiting.any (fun w => w.2.2 == some l.digest)
  let gone := s.sten.lexicons.filter ends
  let s := s.setSten { s.sten with
    lexicons := s.sten.lexicons.filter (fun l => !ends l),
    lines := s.sten.lines.filter (fun l => !gone.any (fun g => g.digest == l.1)) }
  gone.foldl (fun s l => s.lpFree l.addr l.image.length) s

/-- The resident part of the stencil cache (R235), which lies after the walk buffers. -/
def StenSt.residentPart (t : StenSt) : Nat × Nat := (2 ^ 19, t.resident)

/-- The line cache: the rest of the stencil cache (R235). -/
def StenSt.linePart (t : StenSt) : Nat × Nat := (2 ^ 19 + t.resident, 2 ^ 21 - 2 ^ 19 - t.resident)

/-- The bytes of sequence `j`'s walk buffer that `n` edge tokens take (R235, log 30). -/
def State.walkBuf (s : State) (c j n : Nat) : Nat × Nat := (1024 * (walkBase s.ctxs c + j), 4 * n)

/-- Lexicon changes that wait for the context's field start take effect (R247), and the roots of those bound now are
written into the resident part. -/
def State.applyLexicons (s : State) (c : Nat) : State :=
  let ws := s.sten.waiting.filter (fun w => w.1 == c)
  if ws.isEmpty then s
  else
    (fun (t : State) => t.someWrites .stencil 0 [t.sten.residentPart]) (ws.foldl (fun (s : State) w =>
      let k := c * 16 + w.2.1
      let old := tabFind s.sten.slots k
      let slots := match w.2.2 with | some d => tabPut s.sten.slots k d | none => tabDel s.sten.slots k
      let uses := fun (d : Bytes) => slots.any (fun x => x.1 / 16 == c && x.2 == d)
      s.setSten { s.sten with
        slots := slots,
        lexicons := s.sten.lexicons.map (fun l =>
          if w.2.2 = some l.digest && !l.users.contains c then { l with users := c :: l.users, wasBound := true }
          else if old = some l.digest && !uses l.digest then { l with users := l.users.filter (fun u => u != c) }
          else l) })
      (s.setSten { s.sten with waiting := s.sten.waiting.filter (fun w => w.1 != c) })).sweepLexicons

/-! ### The walk (R237 to R240) -/

/-- Enter a grammar state at a field start or after a token outside a lexicon: lex_enter starts a walk at the root. -/
def State.enterState (s : State) (c : Nat) (g : Bytes) (q : Seq) (n : Nat) : Seq :=
  let e := gState g n
  if stLexEnter e then
    { q with s := n, lex := true, v := 0, lexDig := (tabFind s.sten.slots (c * 16 + stLexSlot e)).getD [] }
  else { q with s := n, lex := false }

/-- Image of the lexicon a sequence walks. -/
def State.lexImage (s : State) (q : Seq) : Bytes := match s.lexicon q.lexDig with | some l => l.image | none => []

/-- The edge tokens of v that pass mask(s), in ascending order (R240). -/
def State.listTokens (s : State) (g : Bytes) (q : Seq) : List Nat :=
  let m := gMask g (stMask (gState g q.s))
  (lxTokens (s.lexImage q) q.v).filter (fun t => bit m (gClass g t))

/-- An exit is open: v is terminal and s names an exit mask. -/
def State.exitOpen (s : State) (g : Bytes) (q : Seq) : Bool :=
  q.lex && ndTerm (lxNode (s.lexImage q) q.v) && stHasExit (gState g q.s)

/-- Is token `t` in the admissible set of a sequence (R240)? -/
def State.admits (s : State) (g : Bytes) (q : Seq) (t : Nat) : Bool :=
  let e := gState g q.s
  let k := gClass g t
  t < gVocab g &&
    (if q.lex then
      ((lxTokens (s.lexImage q) q.v).contains t && bit (gMask g (stMask e)) k) ||
        (s.exitOpen g q && bit (gMask g (stExit e)) k)
    else bit (gMask g (stMask e)) k)

/-- Is the admissible set empty? -/
def State.noToken (s : State) (g : Bytes) (q : Seq) : Bool := !(List.range (gVocab g)).any (s.admits g q)

/-- Fetch lexicon lines (R235, R246): each line missing from the line cache is read from LPDDR5, as stream 0 of the agent
(R54, log 128), written into the cache, and counted; one that is held is read there (R434). -/
def State.fetchLines (s : State) (c : Nat) (l : Grammar) : List Nat → State
  | [] => s
  | n :: r =>
    let k := (l.digest, n)
    if s.sten.lines.contains k then
      let (s, _) := s.someReads .stencil 0 (some c) [s.sten.linePart]
      (s.setSten { s.sten with lines := k :: s.sten.lines.filter (fun x => x != k) }).fetchLines c l r
    else
      let s := s.someWrites .stencil 0 [s.sten.linePart]
      let cap := (2 ^ 21 - 2 ^ 19 - s.sten.resident) / 64
      let (s, _) := s.lpRead 0x0C 0 (some c) (l.addr + 64 * n) 64
      ((s.count c 0x45 1).setSten { s.sten with lines := (k :: s.sten.lines).take cap }).fetchLines c l r

/-- Fetch a node and its edges into the walk buffer of sequence `j`; the root is resident. -/
def State.fetchNode (s : State) (c j : Nat) (d : Bytes) (v : Nat) : State :=
  match s.lexicon d with
  | none => s
  | some l =>
    if v = 0 then s
    else
      let nd := lxNode l.image v
      let a := lxEdgeOff l.image + 4 * ndFirst nd
      let es := if ndEdges nd = 0 then [] else (List.range ((a + 4 * ndEdges nd - 1) / 64 + 1 - a / 64)).map (· + a / 64)
      let s := s.fetchLines c l ((lxNodeOff l.image + 16 * v) / 64 :: es)
      let b := s.walkBuf c j (ndEdges nd)
      s.wrote .stencil 0 b.1 b.2

/-- The engine reads what a sequence's walk and mask rest on (R237, R240, R434): words of the resident part, and, at a node
that is not the root, its walk buffer; false where an uncorrectable word stops it (R247). -/
def State.walkRead (s : State) (c j : Nat) (q : Seq) : State × Bool :=
  match s.someReads .stencil 0 (some c) [s.sten.residentPart] with
  | (s, false) => (s, false)
  | (s, true) =>
    if q.lex && q.v != 0 then
      s.readRanges .stencil 0 (some c) [s.walkBuf c j (lxTokens (s.lexImage q) q.v).length]
    else (s, true)

/-- The walk buffers that hold a node's edges, by sequence of a context (R235, R247). -/
def State.walkBufs (s : State) (c : Nat) : List (Nat × Nat) :=
  let qs := (s.reading c).seqs
  ((List.range qs.length).zip qs).filterMap (fun y =>
    if y.2.lex && y.2.v != 0 then some (s.walkBuf c y.1 (lxTokens (s.lexImage y.2) y.2.v).length) else none)

/-- What a committed token does to the stencil state (R237): the sequence, whether a node is to be fetched, and whether
an exit gave a payload. -/
def State.walkToken (s : State) (c : Nat) (g : Bytes) (q : Seq) (t : Nat) : Seq × Bool × Bool :=
  let k := gClass g t
  let nxt := (gNext g q.s k).getD q.s
  let img := s.lexImage q
  match (if q.lex && bit (gMask g (stMask (gState g q.s))) k then (lxTokens img q.v).idxOf? t else none) with
  | some i => ({ q with v := ndFirst (lxNode img q.v) + i, s := nxt }, true, false)
  | none =>
    if q.lex then
      (s.enterState c g { q with payload := some (ndPayload (lxNode img q.v)), lex := false } nxt, false, true)
    else (s.enterState c g q nxt, false, false)

/-- Count what the detokenizer did. -/
def State.countDetok (s : State) (c : Nat) (d : DetokCount) : State :=
  ((s.count c 0x34 d.replaced).count c 0x35 d.stops).count c 0x36 d.overflows

/-- The condition of R24 holds for a retry of at most `n` tokens. -/
def State.retryFits (s : State) (c n : Nat) (q : Seq) : Bool :=
  match s.ctx? c with
  | none => false
  | some x =>
    if !x.realTime then true
    else
      let ref := match q.item.bind (fun i => tabFind s.intake.items i) with | some it => it.ref.getD s.clk.time | none => s.clk.time
      let p := match x.cert with | some e => max e.wStep (bStencil s.rtLoad) | none => bStencil s.rtLoad
      s.clk.time + n * p + 100000 ≤ ref + 1000 * min x.deadlineUs x.intervalUs

/-- Start a sequence's first field (R239), or its next. -/
def State.startField (s : State) (c : Nat) (g : Bytes) (q : Seq) (i : Nat) : Seq :=
  s.enterState c g
    { q with field := i, fieldPos := q.ids.length, text := [], overflow := false, fieldTokens := 0, ending := none,
             payload := none, retried := false, lex := false } (fld (gField g i) 15 0)

/-- The record of a field that ends now, and whether it ends outside an accepting state (R239). -/
def State.closeField (s : State) (g : Option Bytes) (q : Seq) (code : Nat) : FieldOut × Bool :=
  let nd := lxNode (s.lexImage q) q.v
  let pay := if q.lex && ndTerm nd then ndPayload nd else q.payload.getD 0xFFFFFFFF
  let acc := match g with | some g => bit (gState g q.s) 80 | none => true
  ({ text := q.text, endedBy := code, dead := code == 4, payload := pay, accept := acc && g.isSome,
     tokens := q.fieldTokens, overflow := q.overflow }, !acc)

/-- An empty field that a sequence never reached. -/
def emptyField (code : Nat) : FieldOut :=
  { text := [], endedBy := code, dead := code == 4, payload := 0xFFFFFFFF, accept := false, tokens := 0, overflow := false }

end Sys2Proof.Machine
end

