-- ==== Sys2Proof/Machine/Kv.lean ====
section
/-! DEFINITION. Machine/Kv.lean: the paged key-value cache: layout, slots, prefix tree, copy-on-write, tiers, and the
legacy page walker (08_kv_cache.md). -/

namespace Sys2Proof.Machine

/-- The KV layout record of a context (R179). -/
def Ctx.kvRec (c : Ctx) : Option Nat := (c.image.bind Image.kv).map KvLayout.record
/-- walk_mode is LEGACY -/
def kvLegacy (r : Nat) : Bool := fld r 3 0 == 1
/-- n_sites -/
def kvSites (r : Nat) : Nat := fld r 22 16
/-- n_heads -/
def kvHeads (r : Nat) : Nat := fld r 30 24
/-- slots -/
def kvSlots (r : Nat) : Nat := fld r 55 32
/-- page_list_len -/
def kvListLen (r : Nat) : Nat := fld r 95 64
/-- share_domain -/
def kvShare (r : Nat) : Nat := fld r 101 100
/-- max_seq -/
def kvMaxSeq (r : Nat) : Nat := fld r 113 104
/-- prefix_seed -/
def kvSeed (r : Nat) : Nat := fld r 191 128
/-- canvas_units -/
def kvUnits (r : Nat) : Nat := fld r 223 192
/-- cow_per_step -/
def kvCowMax (r : Nat) : Nat := fld r 255 224
/-- Bytes of a key or value row: D × w. -/
def kvRow (r : Nat) : Nat := 64 * fld r 11 8
/-- Bytes of a plane, P (R177). -/
def kvPlane (r : Nat) : Nat := 256 * kvRow r
/-- Bytes of a frame (R177). -/
def kvFrame (r : Nat) : Nat := kvHeads r * 2 * kvPlane r

/-- LPDDR5 payload copied within a context, with correction (R399). -/
def State.lpCopy (s : State) (c src dst n : Nat) : State :=
  match s.lpRead 8 0 (some c) src n with
  | (s, some b) => (s.lpWrite 8 0 (some c) dst b).1
  | (s, none) => s

/-- Frame address of a slot at a site (R177). -/
def frameAt (rd : Reading) (r site slot : Nat) : Nat := tabGet 0 rd.sites site + slot * kvFrame r

/-- Slot that a page-list entry names, if it is valid (R182). -/
def slotOf (rd : Reading) (i : Nat) : Option Nat := match tabGet 0 rd.pages i with | 0 => none | n + 1 => some n

/-! ### Slots and the prefix tree (R190 to R195) -/

/-- First eight bytes of SHAKE256, little-endian (R190). -/
def shake64 (b : Bytes) : Nat := leNat (shake256 8 b)

/-- h[−1] (R190). -/
def hashRoot (seed dom : Nat) : Nat := shake64 (toLe 8 seed ++ toLe 8 dom)

/-- h[p] from h[p − 1] and the tokens of the page (R190). -/
def hashPage (h : Nat) (ids : List Nat) : Nat := shake64 (toLe 8 h ++ toLe 2 ids.length ++ ids.flatMap (toLe 4))

/-- Nodes that a slot reference count of 1 and the lack of children let go, oldest match first (R194). -/
def oldestLeaf (rd : Reading) : Option Nat :=
  let ok := rd.tree.filter (fun n => !rd.tree.any (fun m => m.2.parent == some n.1) && tabGet 0 rd.refs n.2.slot == 1)
  (ok.foldl (fun (b : Option (Nat × Node)) n => match b with
    | none => some n
    | some m => if n.2.used < m.2.used then some n else b) none).map Prod.fst

/-- Drop one reference of a slot (R192). -/
def Reading.unref (rd : Reading) (slot : Nat) : Reading := { rd with refs := tabMod 0 rd.refs slot (· - 1) }

/-- The canvas copies of a slot that is free again go: nothing names them any more. -/
def Reading.dropPairs (rd : Reading) (slot : Nat) : Reading := { rd with pairs := rd.pairs.filter (fun p => p.page != slot) }

/-- Take a free slot, freeing tree nodes where none is free (R192, R194). -/
def takeSlotKv (n : Nat) : Nat → Reading → Option (Nat × Reading)
  | 0, _ => none
  | f + 1, rd =>
    match (List.range n).find? (fun k => tabGet 0 rd.refs k == 0) with
    | some k => some (k, { rd with refs := tabSet 0 rd.refs k 1 })
    | none =>
      match oldestLeaf rd with
      | none => none
      | some i =>
        let sl := match tabFind rd.tree i with | some x => x.slot | none => 0
        takeSlotKv n f (({ rd with tree := tabDel rd.tree i }.unref sl).dropPairs sl)

/-- Add a node for a page (R191): its slot gains a reference. -/
def Reading.addNode (rd : Reading) (clock : Nat) (parent : Option Nat) (h : Nat) (ids : List Nat) (slot : Nat) : Reading :=
  if rd.tree.any (fun n => n.2.slot == slot && n.2.ids == ids) then rd
  else
    let k := (tabFree rd.tree (rd.tree.length + 1)).getD 0
    { rd with tree := tabPut rd.tree k { parent := parent, hash := h, ids := ids, slot := slot, used := clock },
              refs := tabMod 0 rd.refs slot (· + 1) }

/-- What the walk of R191 counts: pages shared, collisions, refused shares. -/
structure WalkCount where
  hits : Nat := 0
  collisions : Nat := 0
  refused : Nat := 0
  deriving DecidableEq, Repr

/-- Walk a prompt down the prefix tree (R191): page list entries from `i`, tokens matched, counts. Each match takes the next
number of `clock`, so that no two matches are of one age (R194). -/
def walkPrefix (clock : Nat) : Nat → Reading → Nat → Option Nat → Nat → List Nat → Reading × Nat × WalkCount
  | 0, rd, _, _, _, _ => (rd, 0, {})
  | f + 1, rd, i, node, h, ids =>
    if ids.isEmpty then (rd, 0, {})
    else
      let pg := ids.take 256
      let hp := hashPage h pg
      match rd.tree.find? (fun n => n.2.parent == node && n.2.hash == hp && n.2.ids.length == pg.length) with
      | none => (rd, 0, {})
      | some (k, n) =>
        if n.ids != pg then (rd, 0, { collisions := 1 })
        else if 65535 ≤ tabGet 0 rd.refs n.slot then (rd, 0, { refused := 1 })
        else
          let rd := { rd with pages := tabSet 0 rd.pages i (n.slot + 1), refs := tabMod 0 rd.refs n.slot (· + 1),
                              tree := tabPut rd.tree k { n with used := clock } }
          let (rd, m, c) := walkPrefix (clock + 1) f rd (i + 1) (some k) hp (ids.drop 256)
          (rd, m + pg.length, { c with hits := c.hits + 1 })

/-- The node that holds page `p` of a sequence, by the slot that its page list names. -/
def nodeOfPage (rd : Reading) (first p : Nat) : Option (Nat × Node) :=
  match slotOf rd (first + p) with
  | some sl => rd.tree.find? (fun n => n.2.slot == sl)
  | none => none

/-- Record page `p` of a sequence in the tree: when it is full, or holds the prompt's end (R191). -/
def Reading.notePage (rd : Reading) (clock root : Nat) (q : Seq) (p : Nat) : Reading :=
  match slotOf rd (q.firstPage + p) with
  | none => rd
  | some sl =>
    let pg := (q.ids.drop (256 * p)).take 256
    if p = 0 then rd.addNode clock none (hashPage root pg) pg sl
    else
      match nodeOfPage rd q.firstPage (p - 1) with
      | some (k, n) => rd.addNode clock (some k) (hashPage n.hash pg) pg sl
      | none => rd

/-! ### Legacy page walker (R185 to R188) -/

/-- Drop matching TLB entries in all eight TLBs (R188). -/
def State.dropTlb (s : State) (p : TlbEntry → Bool) : State :=
  s.setRead { s.read with tlb := tabMap s.read.tlb (fun _ l => l.filter (fun e => !p e)) }

/-- Translate an lpn for an atelier (R187): the frame address and whether it is writable, or a fault of the walk. -/
def State.lpwFrame (s : State) (c a site lpn : Nat) (r : Nat) : State × Option (Nat × Bool) :=
  let l := tabGet [] s.read.tlb a
  match l.find? (fun e => e.ctx == c && e.site == site && e.lpn == lpn) with
  | some e => (s.setRead { s.read with tlb := tabPut s.read.tlb a (e :: l.filter (fun x => x != e)) }, some (e.frame, e.writable))
  | none =>
    let s := s.count c 0x26 1
    let root := tabGet 0 (s.reading c).sites site
    let bad := fun (s : State) => (s.contained c 0x06, none)
    match s.lpRead 0x0D a (some c) (root + 8 * (lpn / 1024)) 8 with
    | (s, none) => (s, none)
    | (s, some b1) =>
      let w := leNat b1
      let leaf := 4096 * fld w 35 12
      if !bit w 0 || !onlyBits w [(0, 0), (35, 12)] || leaf % 8192 != 0 || !s.lpOwned c leaf 8192 then bad s
      else
        match s.lpRead 0x0D a (some c) (leaf + 8 * (lpn % 1024)) 8 with
        | (s, none) => (s, none)
        | (s, some b2) =>
          let v := leNat b2
          let fr := 4096 * fld v 35 12
          if !bit v 0 || !onlyBits v [(1, 0), (35, 12)] || !s.lpOwned c fr (kvFrame r) then bad s
          else
            let e : TlbEntry := { ctx := c, site := site, lpn := lpn, frame := fr, writable := bit v 1 }
            (s.setRead { s.read with tlb := tabPut s.read.tlb a ((e :: l).take 64) }, some (fr, bit v 1))

/-- Home frame of a page of a sequence at a site, for an easel's atelier (R177, R185); none where the walk ended in an
error, which is then raised (R183, R187). -/
def State.homeFrame (s : State) (c a site : Nat) (r : Nat) (q : Seq) (p : Nat) (write : Bool) : State × Option Nat :=
  if kvLegacy r then
    match s.lpwFrame c a site (q.firstPage + p) r with
    | (s, some (f, wr)) => if write && !wr then (s.contained c 0x06, none) else (s, some f)
    | (s, none) => (s, none)
  else
    match slotOf (s.reading c) (q.firstPage + p) with
    | some sl => (s, some (frameAt (s.reading c) r site sl))
    | none => (s.contained c 0x06, none)

/-! ### The canvas tier (R196 to R198) -/

/-- Canvas offset of pool unit `u` of a context in an atelier: units lie at the top of its share (log 34). -/
def poolAt (x : Ctx) (r a u : Nat) : Nat :=
  let (b, n) := x.region a
  b + n - (u + 1) * 2 * kvPlane r

/-- Copy a dirty resident pair to its home frame (R198). -/
def State.copyHome (s : State) (c : Nat) (x : Ctx) (r : Nat) (home : Nat) (pr : Pair2) : State :=
  if !pr.dirty then s
  else
    let off := poolAt x r pr.atelier pr.place
    match s.readRanges .canvas pr.atelier (some c) [(off, 2 * kvPlane r)] with
    | (s, false) => s
    | (s, true) =>
      let (s, _) := s.lpWrite 8 0 (some c) (home + pr.head * 2 * kvPlane r) (s.canBytes pr.atelier off (2 * kvPlane r))
      let rd := s.reading c
      s.putReading c { rd with pairs := rd.pairs.map (fun q => if q = pr then { q with dirty := false } else q) }

/-- Home frame of a resident pair: its slot's frame, or the frame that the legacy tables name. -/
def State.pairHome (s : State) (c r : Nat) (pr : Pair2) : State × Option Nat :=
  if kvLegacy r then
    match s.lpwFrame c pr.atelier pr.site pr.page r with
    | (s, some f) => (s, some f.1)
    | (s, none) => (s, none)
  else (s, some (frameAt (s.reading c) r pr.site pr.page))

/-- Copy one pair home, where it is dirty. -/
def State.sendHome (s : State) (c : Nat) (x : Ctx) (r : Nat) (pr : Pair2) : State :=
  if !pr.dirty then s
  else
    match s.pairHome c r pr with
    | (s, some h) => s.copyHome c x r h pr
    | (s, none) => s

/-- Copy home every dirty pair that meets `p` (R198). -/
def State.copyHomes (s : State) (c : Nat) (p : Pair2 → Bool) : State :=
  match s.ctx? c with
  | none => s
  | some x =>
    match x.kvRec with
    | none => s
    | some r =>
      ((s.reading c).pairs.filter (fun q => q.dirty && p q)).foldl (fun s q => s.sendHome c x r q) s

/-- Name of a page in the canvas pool: its slot, or its lpn. -/
def pageName (rd : Reading) (r : Nat) (q : Seq) (p : Nat) : Nat :=
  if kvLegacy r then q.firstPage + p else (slotOf rd (q.firstPage + p)).getD 0

/-- Copy-on-write before a tail write at token slot `t` (R193). -/
def State.cow (s : State) (c : Nat) (r : Nat) (p t : Nat) (q : Seq) : State :=
  match slotOf (s.reading c) (q.firstPage + p) with
  | none => s
  | some old =>
    if tabGet 0 (s.reading c).refs old ≤ 1 then s
    else
      let s := s.copyHomes c (fun pr => pr.page == old)
      match takeSlotKv (kvSlots r) (kvSlots r + 1) (s.reading c) with
      | none => s
      | some (new, rd) =>
        let rd := { rd with pages := tabSet 0 rd.pages (q.firstPage + p) (new + 1), cows := rd.cows + 1 }.unref old
        let s := (s.putReading c rd).count c 0x22 1
        let s := (List.range (kvSites r)).foldl (fun (s : State) site =>
          (List.range (kvHeads r)).foldl (fun (s : State) h =>
            [0, kvPlane r].foldl (fun (s : State) v =>
              let o := h * 2 * kvPlane r + v
              s.lpCopy c (frameAt rd r site old + o) (frameAt rd r site new + o) (t * kvRow r)) s) s) s
        if kvCowMax r < (s.reading c).cows then s.risk c 7 else s

/-- Write one key or value row of the tail page (R184): into the canvas copy where the pair is resident, else home. The
row's value comes from the schedule and no rule names its source: free (log 35). -/
def State.tailRow (s : State) (c : Nat) (x : Ctx) (r : Nat) (site head name home off : Nat) : State :=
  let (v, s) := s.freeNat
  let row := toLe (kvRow r) v
  let rd := s.reading c
  match rd.pairs.find? (fun pr => pr.site == site && pr.head == head && pr.page == name) with
  | some pr =>
    let s := s.canPut pr.atelier (poolAt x r pr.atelier pr.place + off) row
    let rd := s.reading c
    s.putReading c { rd with pairs := rd.pairs.map (fun q => if q = pr then { q with dirty := true } else q) }
  | none => (s.lpWrite 8 0 (some c) (home + head * 2 * kvPlane r + off) row).1

/-- Make the page that holds position `n` of a sequence writable, and write the position's rows (R184, R189, R193). -/
def State.writePos (s : State) (c : Nat) (x : Ctx) (r : Nat) (n : Nat) (q : Seq) (groups : List (Nat × Nat × Nat × Nat)) : State :=
  let p := n / 256
  let t := n % 256
  let s :=
    if kvLegacy r then s
    else
      match slotOf (s.reading c) (q.firstPage + p) with
      | some _ => s.cow c r p t q
      | none =>
        match takeSlotKv (kvSlots r) (kvSlots r + 1) (s.reading c) with
        | some (k, rd) => s.putReading c { rd with pages := tabSet 0 rd.pages (q.firstPage + p) (k + 1) }
        | none => s
  groups.foldl (fun (s : State) g =>
    let (site, a, h0, hn) := g
    match s.homeFrame c a site r q p true with
    | (s, none) => s
    | (s, some fr) =>
      (List.range hn).foldl (fun (s : State) i =>
        let nm := pageName (s.reading c) r q p
        let s := s.tailRow c x r site (h0 + i) nm fr (t * kvRow r)
        s.tailRow c x r site (h0 + i) nm fr (kvPlane r + t * kvRow r)) s) s

/-- Release every page of a sequence (R192), its dirty pairs copied home first (R198). -/
def State.releasePages (s : State) (c : Nat) (q : Seq) (from0 : Nat) : State :=
  match (s.ctx? c).bind Ctx.kvRec with
  | none => s
  | some r =>
    let ps := (List.range ((max q.tokens q.ids.length) / 256 + 1)).filter (from0 ≤ ·)
    if kvLegacy r then
      let mine := fun (pr : Pair2) => ps.contains (pr.page - q.firstPage) && q.firstPage ≤ pr.page
      let s := s.copyHomes c mine
      let rd := s.reading c
      s.putReading c { rd with pairs := rd.pairs.filter (fun pr => !mine pr) }
    else
      let names := ps.filterMap (fun p => slotOf (s.reading c) (q.firstPage + p))
      let s := s.copyHomes c (fun pr => names.contains pr.page)
      let rd := s.reading c
      let rd := ps.foldl (fun (rd : Reading) p =>
        match slotOf rd (q.firstPage + p) with
        | some sl => { rd with pages := tabSet 0 rd.pages (q.firstPage + p) 0 }.unref sl
        | none => rd) rd
      s.putReading c { rd with pairs := rd.pairs.filter (fun pr => 0 < tabGet 0 rd.refs pr.page) }

/-! ### Attention sites -/

/-- Groups of an attention site with their easels: KV site, easel, group. -/
def Ctx.groupsOf (c : Ctx) (v : Variant) : List (AttnSite × Nat × AttnGroup) :=
  match c.part with
  | none => []
  | some p => v.sites.flatMap (fun st => st.groups.filterMap (fun g => (p.easels[g.pos]?).map (fun e => (st, e, g))))

/-- Groups of a variant's attention sites, in the same order. -/
def Variant.groups (v : Variant) : List (AttnSite × AttnGroup) := v.sites.flatMap (fun st => st.groups.map (fun g => (st, g)))

/-- Mask-table entry of block (b, p) of a sequence (R168); query blocks are numbered over all devices of a ring job
(R200). -/
def maskEntry (q : Seq) (b p : Nat) : Nat := q.maskIndex + (q.block0 + b) * ceilDiv q.tokens 256 + p

/-- Summary of block (b, p) of a sequence as a site sees it (R168, R169): 0 ALL_MASKED, 1 ALL_OPEN, 2 MIXED. -/
def State.summaryOf (s : State) (x : Ctx) (st : AttnSite) (q : Seq) (b p : Nat) : Nat :=
  if q.maskMode = 0 then 1
  else
    let e := maskEntry q b p
    fld (memRead s.lp.mem (x.lpBase + st.maskSummary + e / 4)).toNat (2 * (e % 4) + 1) (2 * (e % 4))

/-- The bitmap of a MIXED block goes to the place that its group's FORWARD names (R168, R183); false where it cannot be
read. -/
def State.moveBitmap (s : State) (c : Nat) (x : Ctx) (st : AttnSite) (e : Nat) (g : AttnGroup) (q : Seq) (b p : Nat) : State × Bool :=
  match s.lpRead 8 0 (some c) (x.lpBase + st.maskBitmaps + 4096 * maskEntry q b p) 4096 with
  | (s, some m) => (s.palPut e (fld (leNat (s.palBytes e g.fwdTemplate 64)) 383 352) m, true)
  | (s, none) => (s, false)

end Sys2Proof.Machine
end

