-- ==== Sys2Proof/Machine/Reading.lean ====
section
/-! DEFINITION. Machine/Reading.lean: batches handed to the schedule, decoder steps, commits, field ends, dead ends and
mask records (R167 to R170, R237 to R245, R294, R311, R317, R318). -/

namespace Sys2Proof.Machine

/-- The variant of a context, empty where it has none. -/
def Ctx.var (c : Ctx) : Variant := c.variant.getD {}

/-- A sequence has ended, or never held an item. -/
def Seq.idle (q : Seq) : Bool := q.finished || q.item.isNone

/-! ### The end of a sequence and of a batch -/

/-- Pending KV TLB invalidations of a context are applied and answered (R188). -/
def State.applyInvals (s : State) (c : Nat) : State :=
  let rd := s.reading c
  rd.invals.foldl (fun (s : State) v =>
    let s := s.dropTlb (fun e => e.ctx == c && (v.scope == 0 || (e.site == v.site &&
      (v.scope == 1 || (v.first ≤ e.lpn && e.lpn < v.first + v.count)))))
    s.reply v.ch v.seq 0x0060 stOK []) (s.putReading c { rd with invals := [] })

/-- The partition is idle again when no sequence runs, every started queue has run END (R311), and the records of the last
commit are written (R243, R247). An invalidation that waits is applied then (R188). -/
def State.settle (s : State) (c : Nat) : State :=
  let r := s.reading c
  if r.seqs.all Seq.idle && r.started.isEmpty && r.maskDue.isNone then
    ((s.modCtx c (fun x => { x with busy := false, riskStep := 0 })).putReading c { r with seqs := [], stepping := false }).applyInvals c
  else s

/-- A sequence ends: its pages are released, and its item's record becomes ready (R8, R10). -/
def State.endSeq (s : State) (c j : Nat) : State :=
  match (s.reading c).seqs[j]? with
  | none => s
  | some q =>
    if q.finished then s
    else
      let s := s.releasePages c q 0
      let s := s.modSeq c j (fun q => { q with finished := true, queries := 0, allRows := 0, ending := none, lex := false })
      let s := match q.item with | some n => s.finishItem n stOK q.fields true | none => s
      s.sweepLexicons.settle c

/-- s_max of a context's certificate entry. -/
def Ctx.sMax (c : Ctx) : Nat := match c.cert with | some e => e.sMax | none => 65535

/-- The sequence has generated its most tokens (R22, R24). -/
def Ctx.atLimit (x : Ctx) (q : Seq) : Bool :=
  match q.retryUsed with
  | some u => decide (u.2 ≤ u.1)
  | none => decide (x.sMax ≤ q.generated)

/-- A sequence's field ends with a code (R223, R239): its entry joins the fields that have ended, and OPEN_ENDS counts one
that ends outside an accepting state. -/
def State.shutField (s : State) (c : Nat) (q : Seq) (code : Nat) : State × Seq :=
  let (f, bad) := s.closeField ((s.grammarOf c).map Grammar.image) q code
  (if bad then s.count c 0x47 1 else s, { q with fields := q.fields ++ [f] })

/-- The fields of a profile that a sequence never began are empty and carry a code (R223, R318). -/
def Seq.fillFields (q : Seq) (p : TextProfile) (code : Nat) : Seq :=
  { q with fields := q.fields ++ List.replicate (p.fieldCount - q.field - 1) (emptyField code) }

/-- The field under way has the text that it holds released into it (R223). -/
def State.flushSeq (s : State) (c : Nat) (p : TextProfile) (q : Seq) : State × Seq :=
  let (q, d) := flushField p q
  (s.countDetok c d, q)

/-- The next field starts, with the bytes that followed the last stop string (R222): they are searched at once. -/
def State.nextField (s : State) (c : Nat) (p : TextProfile) (g : Bytes) (q : Seq) : State × Seq :=
  let (q, d) := detokText p [] (s.startField c g q (q.field + 1))
  (s.countDetok c d, q)

/-- Close the field that has ended with a code, and start the next one or end the sequence (R223, R239, R318). At the token
limit a next field is started only for the bytes that followed a stop string: it ends with TOKEN_LIMIT. -/
def State.closeSeqField (s : State) (c j code : Nat) : State :=
  match (s.reading c).seqs[j]?, s.profileOf c, s.grammarOf c with
  | some q, some p, some g =>
    let (s, q) := s.shutField c q code
    let limit := match s.ctx? c with | some x => x.atLimit q | none => false
    let noRest := q.held.isEmpty && q.pending.isEmpty
    if code = 2 || code = 3 || q.field + 1 = p.fieldCount || (limit && noRest) then
      (s.modSeq c j (fun _ => q.fillFields p (if code = 2 then 2 else 3))).endSeq c j
    else
      let s := s.applyLexicons c
      let (s, q) := s.nextField c p g.image q
      let (s, q) :=
        if limit && q.ending.isNone then
          let (s, q) := s.flushSeq c p q
          (s, { q with ending := some 3 })
        else (s, q)
      s.modSeq c j (fun _ => q)
  | _, _, _ => s

/-- A sequence of a context that is torn down ends (R223): a field whose end has been found ends so, and the one after it,
or the one under way, carries TEARDOWN, as do the rest. The fuel is the profile's field count. -/
def State.tearFields (s : State) (c : Nat) (p : TextProfile) (g : Bytes) : Nat → Seq → State × Seq
  | 0, q => (s, q)
  | f + 1, q =>
    match q.ending with
    | some code =>
      let (s, q) := s.shutField c q code
      if code = 2 || code = 3 || q.field + 1 = p.fieldCount then (s, q.fillFields p code)
      else
        let (s, q) := s.nextField c p g q
        s.tearFields c p g f q
    | none =>
      let (s, q) := s.flushSeq c p q
      let (s, q) := s.shutField c q 5
      (s, q.fillFields p 5)

/-- The fields of a sequence of a context that is torn down. -/
def State.tornFields (s : State) (c : Nat) (q : Seq) : State × List FieldOut :=
  match s.profileOf c with
  | none => (s, q.fields)
  | some p =>
    if q.finished then (s, q.fields)
    else
      let (s, q) := s.tearFields c p (((s.grammarOf c).map Grammar.image).getD []) (p.fieldCount + 1) q
      (s, q.fields)

/-- FIELD_END_VERDICT (R226, R239): the detokenizer's field end reaches the stencil engine. -/
def execFieldEndVerdict (ctx : Nat) (seq : Nat) (s : State) : Result :=
  .next (match (s.reading ctx).seqs[seq]? with
    | some q =>
      match q.ending with
      | some code => if !s.works || q.finished then s else s.closeSeqField ctx seq code
      | none => s
    | none => s)

/-! ### Dispatch (R191, R294, R295, R317) -/

/-- A live frame is stale at dispatch (R288). -/
def State.stale (s : State) (it : Item) : Bool := it.isLive && it.maxAge != 0 && it.capture + 1000 * it.maxAge < s.clk.time

/-- The tiles that dispatch hands over for a slot (R294, R295): the item's, or those of a blank placeholder, as many as the
bucket's max_tiles (log 130). -/
def State.slotTiles (s : State) (c bucket : Nat) (o : Option Nat) : State × List Bytes :=
  match o.bind (tabFind s.intake.items), s.prof c with
  | some it, _ =>
    let (s, b) := s.bufGet 0x0A c it.tilesAt
    (s, splitEven it.tileTable.length (b.getD []))
  | none, some p => (s, List.replicate (maxTiles (p.buckets[bucket]?.getD 0)) (blankTile p))
  | none, none => (s, [])

/-- The tiles of every slot of a batch, read where the primer has put them (R301). -/
def State.batchTiles (s : State) (c bucket : Nat) : List (Option Nat) → State × List (List Bytes)
  | [] => (s, [])
  | o :: r =>
    let (s, t) := s.slotTiles c bucket o
    let (s, ts) := s.batchTiles c bucket r
    (s, t :: ts)

/-- The length-table page base of sequence `j`: page list entries in equal parts, or 512 legacy pages (log 37). -/
def firstPageOf (r j : Nat) : Nat := if kvLegacy r then 512 * j else j * (kvListLen r / max 1 (kvMaxSeq r))

/-- The tokens of an adaptation sample's target text, with the text engine's counters (R212, R216, R218, R227). The job
reads vocabulary memory: its output is not used after an uncorrectable word (R228). -/
def State.targetTokens (s : State) (c : Nat) (b : Bytes) : State × List Nat :=
  match s.vocabRec c with
  | some v =>
    match s.jobReads c v with
    | (s, true) =>
      let (ts, rep, cgj, _) := textBuffer v.image true { ctx := c } b
      (s.countText c b.length rep cgj ts.length, ts.map Prod.fst)
    | (s, false) => (s, [])
  | none => (s, [])

/-- Create the sequence of a slot (R191, R239): its prompt, one token where it has no target text (log 16), walks the
prefix tree, and its first field starts. -/
def State.newSeq (s : State) (c j : Nat) (o : Option Nat) : State × Seq :=
  match o.bind (fun n => (tabFind s.intake.items n).map (fun it => (n, it))), s.ctx? c with
  | some (n, it), some x =>
    let (s, text) := if it.train then s.targetTokens c it.target else (s, [])
    let (t0, s) := s.freeNat
    let prompt := if text.isEmpty then [t0 % 2 ^ 18] else text
    let q : Seq := { item := some n, ids := prompt, prompt := prompt.length }
    let (s, q) := match x.kvRec with
      | none => (s, q)
      | some r =>
        let q := { q with firstPage := firstPageOf r j }
        if kvLegacy r || kvShare r = 0 then (s, q)
        else
          let root := hashRoot (kvSeed r) (if kvShare r = 1 then n + 1 else 0)
          let (rd, m, k) := walkPrefix s.read.clock (prompt.length + 1) (s.reading c) q.firstPage none root prompt
          let s := s.setRead { s.read with clock := s.read.clock + k.hits + 1 }
          let s := (((s.putReading c rd).count c 0x20 k.hits).count c 0x21 k.collisions).count c 0x23 k.refused
          (s, { q with tokens := m })
    let site := x.var.sites.find? (fun st => st.maskSummary != 0)
    let q := { q with maskMode := if site.isSome then 1 else 0 }
    match s.grammarOf c with
    | some g => (s, s.startField c g.image q 0)
    | none => (s, { q with fieldPos := q.ids.length })
  | _, _ => (s, { finished := true })

/-- Sequences of a list of slots, from index `j`. -/
def State.newSeqs (s : State) (c : Nat) : List (Option Nat) → Nat → State × List Seq
  | [], _ => (s, [])
  | o :: r, j =>
    let (s, q) := s.newSeq c j o
    let (s, qs) := s.newSeqs c r (j + 1)
    (s, q :: qs)

/-- An item is handed to the schedule: the interval check of R317, its source's latency (R297). -/
def State.handOver (s : State) (c : Nat) (n : Nat) : State :=
  match tabFind s.intake.items n, s.ctx? c with
  | some it, some x =>
    let ref := it.ref.getD s.clk.time
    let short := match x.lastRef with | some l => x.realTime && ref < l + 1000 * x.intervalUs | none => false
    let s := if short then s.risk c 8 else s
    let s := s.modCtx c (fun x => { x with lastRef := some ref })
    let src := match it.kind with | .sample q _ => some (64 + q) | .live st => some st | _ => none
    let s := match src with
      | some k => s.setIntake { s.intake with
          sources := tabUpd s.intake.sources k (fun y => { y with lat := y.lat ++ [s.clk.time - ref] }) }
      | none => s
    s.modItem n (fun it => { it with dispatched := true })
  | _, _ => s

/-- A stencil site's contexts have mask records due for their step (R243). -/
def State.maskNow (s : State) (c : Nat) : State :=
  match s.ctx? c with
  | some x => if x.hasStencil then s.putReading c { s.reading c with maskDue := some s.clk.time } else s
  | none => s

/-- The causes of R319 that stand when a step of a context begins: throttling, refresh above twice nominal, a
neighbour-refresh exponent below k_min, and a record that waits for its completion queue. -/
def State.standing (s : State) (c : Nat) : State :=
  let s := if s.pwr.throttle = 0 then s else s.risk c 4
  let s := if s.lp.chan.any (fun k => mr4Over k.2.mr4) then s.risk c 0 else s
  let s := match (s.ctx? c).bind Ctx.cert with | some e => if s.lp.k < e.kMin then s.risk c 1 else s | none => s
  if s.hq.any (fun q => q.2.ready.any (fun r => r.held && r.ctx == c)) then s.risk c 5 else s

/-- BATCH_DISPATCH (R294): a closed batch with every slot settled goes to the context's schedule. -/
def execBatchDispatch (ctx : Nat) (bucket : Nat) (s : State) : Result :=
  .next (match s.ctx? ctx with
    | none => s
    | some x =>
      let k := ctx * 8 + bucket
      match (tabGet {} s.intake.buckets k).batch with
      | none => s
      | some bt =>
        let filled := bt.slots.all (fun o => match o with
          | none => true
          | some n => (match tabFind s.intake.items n with | some it => it.filled | none => true))
        if !s.works || x.st != .running || x.busy || x.stopping || x.restoring || !bt.closed || !filled then s
        else
          let s := s.leaveIdle
          let old := bt.slots.filterMap (fun o => o.bind (fun n =>
            match tabFind s.intake.items n with | some it => if s.stale it then some n else none | none => none))
          let s := old.foldl (fun (s : State) n => s.failItem n 0 0x65) s
          let slots := bt.slots.map (fun o => match o with | some n => if tabHas s.intake.items n then some n else none | none => none)
          if slots.all Option.isNone then s.refillBucket k
          else
            let blanks := countIf Option.isNone slots
            let s := (s.count ctx 0x68 blanks).count ctx (if bt.full then 0x69 else 0x6A) 1
            let items := slots.filterMap id
            let s := items.foldl (fun (s : State) n => s.handOver ctx n) s
            let s := s.applyLexicons ctx
            let (s, tiles) := s.batchTiles ctx bucket slots
            let (s, qs) := s.newSeqs ctx slots 0
            let rd := s.reading ctx
            let s := s.putReading ctx { rd with seqs := qs, items := items, step := 0, cows := 0, tiles := tiles }
            let s := s.maskNow ctx
            let s := (s.modCtx ctx (fun x => { x with busy := true, riskStep := 0 })).standing ctx
            let train := items.any (fun n => match tabFind s.intake.items n with | some it => it.train | none => false)
            let plain := items.any (fun n => match tabFind s.intake.items n with | some it => !it.train | none => false)
            let (s, a) := if plain then s.ringEvent ctx 0 else (s, [])
            let (s, b) := if train then s.ringEvent ctx 2 else (s, [])
            let s := s.putReading ctx { s.reading ctx with started := a ++ b }
            s.refillBucket k)

/-! ### Decoder steps (R167 to R170, R184, R311, R318) -/

/-- The query extent of a sequence's next step: first new position, keys after it, query rows, first query position
(R167, R191). -/
def Seq.extent (q : Seq) : Nat × Nat × Nat :=
  if q.tokens < q.ids.length then (q.ids.length, q.ids.length - q.tokens, q.tokens)
  else (q.tokens, 1, q.tokens - 1)

/-- First position, and the position after the last, of a device's shard of a sequence (R200). -/
def RingJob.shard (j : RingJob) (seq : Nat) : Nat × Nat :=
  match (j.shards[seq]?).bind (fun l => l[j.index]?) with
  | some (f, n) => (256 * f, 256 * (f + n))
  | none => (0, 0)

/-- Query rows of a step that a device holds, and the first one's position: all of them, or those of its shard (R200). -/
def ownRows (o : Option RingJob) (seq rows pos : Nat) : Nat × Nat :=
  match o with
  | none => (rows, pos)
  | some j =>
    let (a, b) := j.shard seq
    (min (pos + rows) b - max pos a, max pos a)

/-- Of a sequence of `n` keys, those that a device holds (R200). -/
def ownKeys (o : Option RingJob) (seq n : Nat) : Nat :=
  match o with
  | none => n
  | some j => min n (j.shard seq).2 - (j.shard seq).1

/-- Most keys of a sequence: 512 pages, or 4,096 of a ring job, whose page numbers are global; in legacy mode a page's number
stays below 512 in either (R167, R185, R200). -/
def keyLimit (o : Option RingJob) (kv : Option Nat) : Nat :=
  if o.isSome && !(match kv with | some r => kvLegacy r | none => false) then 1048576 else 131072

/-- Least max_tokens over the KV sites of a variant (R170, R318). -/
def maxTokensOf (v : Variant) : Nat :=
  (v.sites.filter (fun st => st.kvSite != 0x3F)).foldl (fun m st => min m st.maxTokens) 131072

/-- Least max_queries over the sites of a variant (R170). -/
def maxQueriesOf (v : Variant) : Nat := v.sites.foldl (fun m st => min m st.maxQueries) 131072

/-- Length-table entry (R167). -/
def lengthEntry (q : Seq) : Bytes :=
  toLe 4 q.firstPage ++ toLe 4 q.tokens ++ toLe 4 q.queries ++ toLe 4 q.pos0 ++ toLe 4 q.maskMode ++
  toLe 4 q.maskIndex ++ zeros 8

/-- Mask-table index of each sequence: blocks of the sequences before it, on all devices of a ring job (R200; log 37). -/
def maskIndices : List Seq → Nat → List Seq
  | [], _ => []
  | q :: r, m =>
    { q with maskIndex := if q.maskMode = 1 then m else 0 } ::
      maskIndices r (m + ceilDiv q.allRows 128 * ceilDiv q.tokens 256)

/-- The sequences as the length table of a site gives them (R167): its own key counts where its keys are in no KV pages,
and TABLE only where the site has a mask table. -/
def Reading.seqsAt (rd : Reading) (st : AttnSite) : List Seq :=
  maskIndices (rd.seqs.map (fun q =>
    { q with
      tokens := if st.kvSite = 0x3F && !q.idle then tabGet 0 rd.siteTokens st.lengthTable else q.tokens,
      maskMode := if st.maskSummary = 0 then 0 else q.maskMode })) 0

/-- Pages of a sequence that have become full go into the tree, with the one that holds its prompt's end (R191); each note
takes the next number of the clock. -/
def State.notePages (s : State) (c r : Nat) (q : Seq) (n : Nat) (full : List Nat) : State :=
  let root := hashRoot (kvSeed r) (if kvShare r = 1 then q.item.getD 0 + 1 else 0)
  let ends := if q.tokens < q.prompt && q.prompt % 256 != 0 then [q.prompt / 256] else []
  let qp := { q with ids := q.ids.take (max q.prompt (n / 256 * 256)) }
  let t := s.read.clock
  let ps := full ++ ends
  let rd := ((List.range ps.length).zip ps).foldl (fun (rd : Reading) i =>
    rd.notePage (t + i.1) root (if full.contains i.2 then q else qp) i.2) (s.reading c)
  (s.setRead { s.read with clock := t + ps.length }).putReading c rd

/-- The new positions of a sequence become writable and their rows are written (R184); pages that are full now go home
(R198) and into the tree (R191). -/
def State.growSeq (s : State) (c : Nat) (x : Ctx) (j : Nat) (q : Seq) (n r : Nat) : State :=
  let gs := ((x.groupsOf x.var).filter (fun (g : AttnSite × Nat × AttnGroup) => g.1.kvSite != 0x3F)).map
    (fun (g : AttnSite × Nat × AttnGroup) => (g.1.kvSite, g.2.1 / 8, g.2.2.headFirst, g.2.2.hCount))
  let mine := (List.range (n - q.tokens)).filter (fun i => ownPage (s.ringJob? c) j ((q.tokens + i) / 256))
  let s := mine.foldl (fun (s : State) i => s.writePos c x r (q.tokens + i) q gs) s
  let full := (List.range (n / 256)).filter (fun p => q.tokens < 256 * (p + 1))
  let names := full.map (pageName (s.reading c) r q)
  let s := s.copyHomes c (fun pr => names.contains pr.page)
  if kvLegacy r || kvShare r = 0 then s else s.notePages c r q n full

/-- One sequence at a step start: TOKEN_LIMIT where the keys that this device would hold, or its query rows, pass the declared
maximum (R170, R200, R318); otherwise it grows. -/
def State.stepSeq (s : State) (c : Nat) (x : Ctx) (j : Nat) : State :=
  match (s.reading c).seqs[j]? with
  | none => s
  | some q =>
    if q.idle then s
    else
      let (n, rows, pos) := q.extent
      let o := s.ringJob? c
      if maxTokensOf x.var < ownKeys o j n || maxQueriesOf x.var < (ownRows o j rows pos).1 || keyLimit o x.kvRec < n then
        match s.profileOf c with
        | some p =>
          let (s, q) := s.flushSeq c p q
          (s.modSeq c j (fun _ => q)).closeSeqField c j 3
        | none => s.endSeq c j
      else
        let s := match x.kvRec with
          | none => s
          | some r => s.growSeq c x j q n r
        let (own, first) := ownRows o j rows pos
        s.modSeq c j (fun q => { q with
          tokens := n, queries := own, pos0 := first, allRows := rows, block0 := (first - pos) / 128 })

/-- Put a field into a command word. -/
def putField (w v hi lo : Nat) : Nat := w - fld w hi lo * 2 ^ lo + place v hi lo

/-- The blocks that a device receives in a step, in order (R201): hop, KV site, sequence, page, group. `gs` lists the head
groups as KV site and place in the variant. -/
def RingJob.blocks (j : RingJob) (gs : List (Nat × Nat)) (nsites : Nat) : List (Nat × Nat × Nat × Nat × Nat) :=
  (List.range (j.n - 1)).flatMap (fun h =>
    (List.range nsites).flatMap (fun site =>
      (List.range j.shards.length).flatMap (fun q =>
        (j.pages q ((j.index + j.n - (h + 1)) % j.n)).flatMap (fun p =>
          (gs.filter (fun g => g.1 == site)).map (fun g => (h + 1, site, q, p, g.2))))))

/-- Head groups of a variant as KV site and place in the variant. -/
def Variant.groupKeys (v : Variant) : List (Nat × Nat) :=
  (List.range v.groups.length).zip v.groups |>.map (fun g => (g.2.1.kvSite, g.1))

/-- Blocks that a context's ring job brings in a step. -/
def Ctx.ringBlocks (x : Ctx) (j : RingJob) : List (Nat × Nat × Nat × Nat × Nat) :=
  match x.ringVariant, x.kvRec with
  | some v, some r => j.blocks v.groupKeys (kvSites r)
  | _, _ => []

/-- Where a FORWARD finds K and V of a page: in the template's buffers, by turns, or in the receive buffer of its block's
number (R201, R312, R418). -/
def State.kvPlaces (s : State) (c r : Nat) (g : AttnGroup) (w p : Nat) (blk : Option Nat) : Nat :=
  match blk with
  | none => if p % 2 = 0 then w else putField (putField w g.kAlt 255 224) g.vAlt 287 256
  | some n =>
    match (s.ringJob? c).bind (fun j => s.ringBuf j (n % 2)) with
    | some (_, o, _) => putField (putField (putField w 1 139 139) o 255 224) (o + kvPlane r) 287 256
    | none => w

/-- A command that the attention sequencer emits (R169): FORWARD of a block, or FINALISE. `blk` is the number of the
received block that brings the page (R201). -/
structure Emitted where
  seq : Nat
  block : Nat
  rows : Nat
  page : Nat
  blk : Option Nat
  summary : Nat
  keys : Nat
  first : Bool
  fin : Bool
  deriving DecidableEq, Repr

/-- The FORWARD of a block (R169). -/
def State.forwardOf (s : State) (x : Ctx) (st : AttnSite) (qi : Nat) (q : Seq) (b p : Nat) (blk : Option Nat) : Emitted :=
  { seq := qi, block := b, rows := min 128 (q.queries - 128 * b), page := p, blk := blk, summary := s.summaryOf x st q b p,
    keys := min 256 (q.tokens - 256 * p), first := false, fin := false }

/-- Query blocks of a sequence. -/
def Seq.blocks (q : Seq) : List Nat := List.range (ceilDiv q.queries 128)

/-- FORWARDs of one query block over pages of its device, but for ALL_MASKED ones (R169). -/
def State.ownForwards (s : State) (x : Ctx) (st : AttnSite) (qi : Nat) (q : Seq) (b : Nat) (own : Nat → Bool) : List Emitted :=
  (((List.range (ceilDiv q.tokens 256)).filter own).map (fun p => s.forwardOf x st qi q b p none)).filter (fun m => m.summary != 0)

/-- The ALL_MASKED initialisation of a query block without a FORWARD, and its FINALISE (R169). -/
def closeBlock (qi : Nat) (q : Seq) (b : Nat) (none0 : Bool) : List Emitted :=
  let m : Emitted :=
    { seq := qi, block := b, rows := min 128 (q.queries - 128 * b), page := 0, blk := none, summary := 0, keys := 1, first := true, fin := false }
  (if none0 then [m] else []) ++ [{ m with keys := 0, first := false, fin := true }]

/-- Mark the first FORWARD of each query block of each sequence (R169). -/
def markFirst : List (Nat × Nat) → List Emitted → List Emitted
  | _, [] => []
  | l, m :: r =>
    let k := (m.seq, m.block)
    if m.fin || l.contains k then m :: markFirst l r else { m with first := true } :: markFirst (k :: l) r

/-- FORWARDs of the blocks that a step receives for a group, in the order in which they come (R201). -/
def State.gotForwards (s : State) (x : Ctx) (j : RingJob) (st : AttnSite) (gi : Nat) (qs : List Seq) : List Emitted :=
  let bs := x.ringBlocks j
  ((List.range bs.length).zip bs).flatMap (fun b =>
    let (_, site, qi, p, g) := b.2
    match qs[qi]? with
    | some q =>
      if site != st.kvSite || g != gi || ceilDiv q.tokens 256 ≤ p then []
      else
        let n := (j.steps - 1) * bs.length + b.1
        (q.blocks.map (fun k => s.forwardOf x st qi q k p (some n))).filter (fun m => m.summary != 0)
    | none => [])

/-- The commands of a step for a group, in order: by sequence and query block (R169); over a ring job, FORWARDs of the
device's own shard, then those of each received block, and last the FINALISEs (R201). -/
def State.groupEmits (s : State) (c : Nat) (x : Ctx) (st : AttnSite) (gi : Nat) : List Emitted :=
  let qs := (s.reading c).seqsAt st
  let each := fun (f : Nat → Seq → Nat → List Emitted) =>
    ((List.range qs.length).zip qs).flatMap (fun q => q.2.blocks.flatMap (fun b => f q.1 q.2 b))
  match (if st.kvSite = 0x3F then none else s.ringJob? c) with
  | none =>
    each (fun qi q b =>
      let l := s.ownForwards x st qi q b (fun _ => true)
      markFirst [] l ++ closeBlock qi q b l.isEmpty)
  | some j =>
    let l := each (fun qi q b => s.ownForwards x st qi q b (fun p => (j.pages qi j.index).contains p)) ++ s.gotForwards x j st gi qs
    markFirst [] l ++ each (fun qi q b => closeBlock qi q b (!l.any (fun m => m.seq == qi && m.block == b)))

/-- The word of an emitted command, from the group's templates (R312). -/
def State.emitWord (s : State) (c r : Nat) (g : AttnGroup) (fw fin : Nat) (m : Emitted) : Nat :=
  if m.fin then putField fin m.rows 159 152
  else
    let w := putField fw m.summary 137 136
    let w := putField w (if m.first then 1 else 0) 138 138
    let w := putField w m.rows 159 152
    let w := putField w m.keys 168 160
    let w := if m.summary = 2 then w else putField w 0 383 352
    if m.summary = 0 then w else s.kvPlaces c r g w m.page m.blk

/-- The attention sequencer writes a group's commands of the step, and END (R169, R312), and rings its queue. -/
def State.emitGroup (s : State) (c : Nat) (x : Ctx) (st : AttnSite) (e gi : Nat) (g : AttnGroup) : State × Nat :=
  match s.readRanges .palette e (some c) [(g.fwdTemplate, 64), (g.finTemplate, 64)] with
  | (s, false) => (s, e * 16 + g.queue)
  | (s, true) =>
  let fw := leNat (s.palBytes e g.fwdTemplate 64)
  let fin := leNat (s.palBytes e g.finTemplate 64)
  let ws := (s.groupEmits c x st gi).map (s.emitWord c (x.kvRec.getD 0) g fw fin) ++ [0x1F]
  let s := match s.regionOf c e 0 with
    | some (o, _) => s.palPut e (o + g.emitOffset) (ws.flatMap (toLe 64))
    | none => s
  (s.ring1 e g.queue g.emitOffset, e * 16 + g.queue)

/-- The key counts of a step at the sites without KV pages: no rule gives them, free (log 37). Sites of one length table
have one count. -/
def State.siteCounts (s : State) (c : Nat) (x : Ctx) : State :=
  (x.var.sites.filter (fun st => st.kvSite == 0x3F)).foldl (fun (s : State) st =>
    let rd := s.reading c
    if tabHas rd.siteTokens st.lengthTable then s
    else
      let (f, s) := s.freeNat
      s.putReading c { rd with siteTokens := tabPut rd.siteTokens st.lengthTable (f % (st.maxTokens + 1)) }) s

/-- Write the length tables of a step (R167). -/
def State.lengthTables (s : State) (c : Nat) (x : Ctx) : State :=
  x.var.sites.foldl (fun (s : State) st =>
    (s.lpWrite 8 0 (some c) (x.lpBase + st.lengthTable) (((s.reading c).seqsAt st).flatMap lengthEntry)).1) s

/-- The sequencer reads the summaries of the step's blocks (R168, R169): an uncorrectable word freezes the device (R400). -/
def State.readSummaries (s : State) (c : Nat) (x : Ctx) : State :=
  (x.var.sites.filter (fun st => st.maskSummary != 0)).foldl (fun (s : State) st =>
    (((s.reading c).seqsAt st).filter (fun q => q.maskMode == 1 && q.queries != 0)).foldl (fun (s : State) q =>
      let lo := maskEntry q 0 0
      let hi := maskEntry q (ceilDiv q.queries 128) 0
      (s.lpRead 8 0 (some c) (x.lpBase + st.maskSummary + lo / 4) (ceilDiv hi 4 - lo / 4)).1) s) s

/-- The queues that a decoder step starts: those of its STEP entry points, and one for each head group (R169, R311). -/
def State.startStep (s : State) (c : Nat) (x : Ctx) : State :=
  let (s, es) := s.ringEvent c 1
  let all := x.groupsOf x.var
  let (s, gs) := ((List.range all.length).zip all).foldl (fun (r : State × List Nat) g =>
    let (s, k) := r.1.emitGroup c x g.2.1 g.2.2.1 g.1 g.2.2.2
    (s, r.2 ++ [k])) (s, [])
  s.putReading c { s.reading c with started := es ++ gs }

/-! ### The commit (R237 to R239, R221, R318) -/

/-- Is a committed token in the set of the record published for the sequence (R238)? -/
def State.published (s : State) (g : Bytes) (q : Seq) (t : Nat) : Bool :=
  match q.mask with
  | .classes | .lexicon => s.admits g q t
  | _ => false

/-- The text and the field end that a committed token brings (R221 to R223): END_FIELD, END_SEQUENCE, a stop string, or
the token limit. -/
def State.commitText (s : State) (c : Nat) (x : Ctx) (p : TextProfile) (q : Seq) (t : Nat) : State × Seq :=
  let kind := match s.vocabOf c with | some v => vKind v t | none => 0
  let text := match s.vocabOf c with | some v => if kind = 0 then vText v t else [] | none => []
  let q := { q with ids := q.ids ++ [t], generated := q.generated + 1, fieldTokens := q.fieldTokens + 1,
                    retryUsed := q.retryUsed.map (fun u => (u.1 + 1, u.2)) }
  let (q, d) := if kind = 0 then detokText p text q else (q, {})
  let s := s.countDetok c d
  let stop := fun (code : Nat) =>
    let (s, q) := s.flushSeq c p q
    (s, { q with ending := some code })
  if q.ending.isSome then (s, q)
  else if kind = 2 then stop 1
  else if kind = 3 then stop 2
  else if x.atLimit q then stop 3
  else (s, q)

/-- The detokenizer reads a token's entry and text in the vocabulary (R228). -/
def State.readToken (s : State) (c t : Nat) : State × Bool :=
  match s.vocabRec c with
  | some v => s.readRanges .vocabulary 0 (some c) (v.tokenRanges t)
  | none => (s, true)

/-- Commit one sequence's token (R237, R238). -/
def State.commitSeq (s : State) (c : Nat) (x : Ctx) (list : Nat) (j : Nat) : State :=
  match (s.reading c).seqs[j]?, s.grammarOf c, s.profileOf c with
  | some q, some g, some p =>
    if q.idle || q.queries = 0 || q.ending.isSome then s
    else
      let (s, b) := s.lpRead 8 0 (some c) (x.lpBase + list + 4 * j) 4
      match b with
      | none => s
      | some b =>
        let t := fld (leNat b) 17 0
        match s.walkRead c j q with
        | (s, false) => s
        | (s, true) =>
        if !(t < gVocab g.image && s.published g.image q t) then s.contained c 0x0E
        else
          match s.readToken c t with
          | (s, false) => s
          | (s, true) =>
            let d := q.lexDig
            let (q1, fetch, exit) := s.walkToken c g.image q t
            let s := if exit then s.count c 0x46 1 else s
            let (s, q2) := s.commitText c x p q1 t
            let s := s.modSeq c j (fun _ => { q2 with mask := .none, dead := false })
            if fetch && q2.ending.isNone then s.fetchNode c j d q2.v else s
  | _, _, _ => s

/-- The commit instant of a stencil site (R237): every sequence in length-table order, then masks are due (R243). -/
def State.commitStep (s : State) (c : Nat) (x : Ctx) (st : StencilSite) : State :=
  let n := (s.reading c).seqs.length
  let s := (List.range n).foldl (fun (s : State) j => s.commitSeq c x st.commitList j) s
  let rd := s.reading c
  (s.putReading c { rd with step := rd.step + 1 }).maskNow c

/-- Work of a context at the END of one of its queues (R62, R237, R311). -/
def State.queueEnded (s : State) (c e q : Nat) : State :=
  match s.ctx? c with
  | none => s
  | some x =>
    let rd := s.reading c
    let s := s.putReading c { rd with started := rd.started.filter (fun k => k != e * 16 + q) }
    let site := x.var.stencil.find? (fun st => st.commitQueue == q &&
      (match x.part with | some p => p.easels[st.commitPos]? == some e | none => false))
    let train := fun (j : Nat) => match ((s.reading c).seqs[j]?).bind Seq.item with
      | some n => (match tabFind s.intake.items n with | some it => it.train | none => false)
      | none => false
    let s := match site with
      | some st => if rd.stepping then s.commitStep c x st else s
      | none => s
    -- work that no commit ends: images without a stencil site, and adaptation samples, end with their event (log 38)
    let rd := s.reading c
    let s := if rd.started.isEmpty && x.busy then
        (List.range rd.seqs.length).foldl (fun (s : State) j => if !x.hasStencil || train j then s.endSeq c j else s) s
      else s
    s.settle c

/-! ### Masks (R240, R241, R243) and dead ends (R245) -/

/-- Kind of the record that a sequence's state gives (R241). -/
def State.maskOf (s : State) (g : Bytes) (q : Seq) : MaskKind :=
  if q.idle then .stopped else if s.noToken g q then .dead else if q.lex then .lexicon else .classes

/-- The mask record of a sequence (R241): header and list. -/
def State.maskRecord (s : State) (g : Grammar) (q : Seq) (step : Nat) (k : MaskKind) : Bytes :=
  let e := gState g.image q.s
  let addr := fun i => g.addr + gMaskOff g.image + 512 * i
  let ts := if k = .lexicon then s.listTokens g.image q else []
  let ex := k = .lexicon && s.exitOpen g.image q
  let code := match k with | .classes => 0 | .lexicon => 1 | .dead => 2 | _ => 3
  toLe 1 code ++ toLe 1 (if ex then 1 else 0) ++ toLe 2 ts.length ++ toLe 4 step ++
  toLe 8 (if k = .classes then addr (stMask e) else 0) ++ toLe 8 (if ex then addr (stExit e) else 0) ++
  toLe 3 (if k = .lexicon then q.v else 0) ++ zeros 37 ++ ts.flatMap (toLe 4)

/-- Write a sequence's record of the step into the mask rings (R236, R241) and count it; what lies past a record's list is
free. -/
def State.writeMask (s : State) (c : Nat) (x : Ctx) (g : Grammar) (j : Nat) (q : Seq) (k : MaskKind) : State :=
  let step := (s.reading c).step
  let b := s.maskRecord g q step k
  let (f, s) := s.freeNat
  let full := b ++ toLe (1088 - b.length) f
  (x.var.stencil.foldl (fun (s : State) st =>
    (s.lpWrite 0x0C 0 (some c) (x.lpBase + st.maskRing + (step % 2 * st.maxSeq + j) * 1088) full).1) s).count c 0x40
      x.var.stencil.length

/-- Write the records of every sequence; that of a sequence that stops in this step at its dead end was written with the
report (R245). False where a read of the stencil cache fails: no record is built from it (R247). -/
def State.writeMasks (s : State) (c : Nat) (x : Ctx) (g : Grammar) : Nat → List Seq → State × Bool
  | _, [] => (s, true)
  | j, q :: r =>
    if q.dead then (s.modSeq c j (fun q => { q with mask := .dead, dead := false })).writeMasks c x g (j + 1) r
    else
      match s.walkRead c j q with
      | (s, false) => (s, false)
      | (s, true) =>
        let k := s.maskOf g.image q
        ((s.writeMask c x g j q k).modSeq c j (fun q => { q with mask := k })).writeMasks c x g (j + 1) r

/-- The last record of a context's step can be written: its masks are due, and every field verdict and dead end of the step
has been decided. -/
def State.maskReady (s : State) (c : Nat) : Bool :=
  match s.ctx? c, s.grammarOf c with
  | some x, some g => s.works && x.st == .running && !s.inError c && (s.reading c).maskDue.isSome &&
      !(s.reading c).seqs.any (fun q => !q.idle && (q.ending.isSome || (!q.dead && s.noToken g.image q)))
  | _, _ => false

/-- MASK_BUILD_COMPLETE (R240 to R244): the last record of the step is written, and the mask tally is posted. The engine
serves real-time sequences before best-effort ones (R242). -/
def execMaskBuildComplete (ctx : Nat) (s : State) : Result :=
  .next (match s.ctx? ctx, s.grammarOf ctx, (s.reading ctx).maskDue with
    | some x, some g, some t0 =>
      if !s.maskReady ctx || (!x.realTime && s.ctxs.any (fun y => y.2.realTime && s.maskReady y.1)) then s
      else
        match s.writeMasks ctx x g 0 (s.reading ctx).seqs with
        | (s, false) => s
        | (s, true) =>
          let s := if x.realTime && bStencil s.rtLoad < s.clk.time - t0 then s.risk ctx 6 else s
          let s := s.putReading ctx { s.reading ctx with maskDue := none }
          (x.var.stencil.foldl (fun (s : State) st =>
            match x.tallyAt st.tallyPos st.tallyLocal with
            | some t => (s.tallyAdd t 1).settleAll
            | none => s) s).settle ctx
    | _, _, _ => s)

/-- DEAD_END_REPORT (R24, R195, R225, R239, R245): the engine writes the DEAD record, the field ends, and its single retry
starts, whose record replaces it, or the sequence stops. A later field's own retry, after one of an earlier field, stays
within what that one may still generate (log 117). -/
def execDeadEndReport (ctx : Nat) (seq : Nat) (s : State) : Result :=
  .next (match s.ctx? ctx, s.grammarOf ctx, (s.reading ctx).seqs[seq]?, s.profileOf ctx with
    | some x, some g, some q, some p =>
      if !s.works || x.st != .running || q.idle || q.ending.isSome || q.dead || (s.reading ctx).maskDue.isNone ||
          !s.noToken g.image q then s
      else
        match s.walkRead ctx seq q with
        | (s, false) => s
        | (s, true) =>
        let s := (s.writeMask ctx x g seq q .dead).count ctx 0x41 1
        let fe := gField g.image q.field
        let n := fld fe 47 32
        let (s, q1) := s.flushSeq ctx p q
        let unspent := bit fe 48 && !q.retried
        if unspent && s.retryFits ctx n q then
          let s := s.count ctx 0x42 1
          let most := match q.retryUsed with | some u => min n (u.2 - u.1) | none => n
          let keep := min q.tokens q.fieldPos
          let s := s.releasePages ctx q (ceilDiv keep 256)
          let q2 : Seq := { q with
            tokens := keep, ids := q.ids.take q.fieldPos, text := [], held := [], pending := [], overflow := false,
            fieldTokens := 0, payload := none, retried := true, retryUsed := some (0, most), lex := false, mask := .none }
          s.modSeq ctx seq (fun _ => s.enterState ctx g.image q2 (fld fe 31 16))
        else
          let s := if unspent then s.count ctx 0x43 1 else s
          let (s, q1) := s.shutField ctx q1 4
          (s.modSeq ctx seq (fun _ => { q1.fillFields p 4 with dead := true })).endSeq ctx seq
    | _, _, _, _ => s)

end Sys2Proof.Machine
end

