-- ==== Sys2Proof/Machine/Walk.lean ====
section
/-! DEFINITION. Machine/Walk.lean: the page walk and the canvas pool that it fills, the bitmaps of received ring blocks, and the
start of a decoder step (R167 to R170, R183, R196, R197, R201). -/

namespace Sys2Proof.Machine

/-! ### How far a group's commands of the step have got -/

/-- Commands of a step that a group's queue has run, of `n` emitted (R169, R312). -/
def State.groupDone (s : State) (c e : Nat) (g : AttnGroup) (n : Nat) : Nat :=
  if (s.reading c).started.contains (e * 16 + g.queue) then ((s.queue e g.queue).next - g.emitOffset) / 64 else n

/-- A block that the page walk serves: a FORWARD of an open block of the device's own shard (R183). At a site whose keys are in
no KV pages it has only a bitmap to move (R168). -/
def Emitted.walks (m : Emitted) (paged : Bool) : Bool := !m.fin && m.blk.isNone && (if paged then m.summary != 0 else m.summary == 2)

/-- The commands of a group with their places. -/
def numbered (ms : List Emitted) : List (Nat × Emitted) := (List.range ms.length).zip ms

/-- The blocks of a group that the page walk serves, in the order of R169, each with its place among the commands. -/
def walkList (st : AttnSite) (ms : List Emitted) : List (Nat × Emitted) :=
  (numbered ms).filter (fun m => m.2.walks (st.kvSite != 0x3F))

/-- A group's FORWARDs name one place for bitmaps (R312): that of command `at0` may be moved there once every earlier MIXED
block of the group has ended (R168). -/
def maskFree (ms : List Emitted) (at0 done : Nat) : Bool :=
  (numbered ms).all (fun m => m.2.summary != 2 || at0 ≤ m.1 || decide (m.1 < done))

/-- prefetch_distance (R179): 0 stands for 2. -/
def kvPrefetch (r : Nat) : Nat := if fld r 99 96 = 0 then 2 else fld r 99 96

/-- The walk of block `k` of a list may start, where `done` commands have ended (R197): it is no more than
prefetch_distance blocks ahead, and every earlier block in the same buffer (R312: buffers alternate by page) has ended. -/
def mayWalk (l : List (Nat × Emitted)) (r k page done : Nat) : Bool :=
  decide (k ≤ countIf (fun m => decide (m.1 < done)) l + kvPrefetch r) &&
  (l.take k).all (fun m => m.2.page % 2 != page % 2 || decide (m.1 < done))

/-! ### The canvas pool (R196 to R198) -/

/-- Head groups of a variant with their places. -/
def Ctx.groupsAt (x : Ctx) : List (Nat × AttnSite × Nat × AttnGroup) :=
  let gs := x.groupsOf x.var
  (List.range gs.length).zip gs

/-- A head lies in a group. -/
def AttnGroup.has (g : AttnGroup) (head : Nat) : Bool := g.headFirst ≤ head && head < g.headFirst + g.hCount

/-- A resident pair is pinned (R197): a command of the step that has not ended names it. -/
def State.pinned (s : State) (c : Nat) (x : Ctx) (r : Nat) (pr : Pair2) : Bool :=
  x.groupsAt.any (fun g =>
    let (gi, st, e, gr) := g
    st.kvSite == pr.site && e / 8 == pr.atelier && gr.has pr.head &&
    (let ms := s.groupEmits c x st gi
     let qs := (s.reading c).seqs
     (walkList st ms).any (fun m => decide (s.groupDone c e gr ms.length ≤ m.1) &&
       (match qs[m.2.seq]? with | some q => pageName (s.reading c) r q m.2.page == pr.page | none => false))))

/-- Place a plane pair in the canvas pool: a free unit, or that of the unpinned pair used longest ago, copied home first
where it is dirty (R197, R198). -/
def State.poolPlace (s : State) (c : Nat) (x : Ctx) (r a : Nat) : State × Option Nat :=
  let rd := s.reading c
  let here := rd.pairs.filter (fun p => p.atelier == a)
  match (List.range (kvUnits r)).find? (fun u => !here.any (fun p => p.place == u)) with
  | some u => (s, some u)
  | none =>
    match (here.filter (fun p => !s.pinned c x r p)).getLast? with
    | none => (s, none)
    | some v =>
      let s := (s.sendHome c x r v).count c 0x24 1
      let rd := s.reading c
      (s.putReading c { rd with pairs := rd.pairs.filter (fun p =>
        !(p.atelier == a && p.place == v.place)) }, some v.place)

/-- A resident pair leaves the pool, copied home first where it is dirty (R198). -/
def State.dropPair (s : State) (c : Nat) (x : Ctx) (r : Nat) (pr : Pair2) : State :=
  let s := s.sendHome c x r pr
  let rd := s.reading c
  s.putReading c { rd with pairs := rd.pairs.filter (fun p => !(p.atelier == pr.atelier && p.place == pr.place)) }

/-- How the walk brings a pair: through the canvas pool, straight from home (STREAM), or at once from home because the
block is already waiting for it (R196, R197). -/
inductive WalkMode where
  | cache | stream | late
  deriving DecidableEq, Repr

/-- Read a pair from its home frame and put it where its block names; false where it cannot be read (R50). -/
def State.pairFromHome (s : State) (c : Nat) (x : Ctx) (r a site head name home : Nat) (keep : Bool)
    (put : State → Bytes → State) : State × Bool :=
  match s.lpRead 8 0 (some c) (home + head * (2 * kvPlane r)) (2 * kvPlane r) with
  | (s, none) => (s, false)
  | (s, some b) =>
    let s :=
      if !keep then s
      else
        match s.poolPlace c x r a with
        | (s, none) => s
        | (s, some u) =>
          let s := s.canPut a (poolAt x r a u) b
          let rd := s.reading c
          s.putReading c { rd with pairs :=
            { atelier := a, site := site, page := name, head := head, place := u, dirty := false } :: rd.pairs }
    (put s b, true)

/-- Bring one plane pair to the place that its block names (R183, R196, R197); false where it cannot be read. A late pair
that is dirty is copied home before it is read there (log 118). -/
def State.movePair (s : State) (c : Nat) (x : Ctx) (r a site head : Nat) (mode : WalkMode) (name home : Nat)
    (put : State → Bytes → State) : State × Bool :=
  let rd := s.reading c
  match rd.pairs.find? (fun p => p.atelier == a && p.site == site && p.head == head && p.page == name), mode with
  | some pr, .cache =>
    (match s.readRanges .canvas a (some c) [(poolAt x r a pr.place, 2 * kvPlane r)] with
     | (s, false) => (s, false)
     | (s, true) =>
       let s := s.putReading c { rd with pairs := pr :: rd.pairs.filter (fun p => p != pr) }
       (put s (s.canBytes a (poolAt x r a pr.place) (2 * kvPlane r)), true))
  | some pr, .stream => (s.dropPair c x r pr).pairFromHome c x r a site head name home false put
  | some pr, .late => (s.sendHome c x r pr).pairFromHome c x r a site head name home false put
  | none, .cache => s.pairFromHome c x r a site head name home true put
  | none, _ => s.pairFromHome c x r a site head name home false put

/-- Add what a list lacks. -/
def addNew (l : List (Nat × Nat)) (v : Nat × Nat) : List (Nat × Nat) := if l.contains v then l else v :: l

/-- Plane pairs that the step reads at a KV site in an atelier (R196): each page of an open block once, for each head. -/
def State.pairsRead (s : State) (c : Nat) (x : Ctx) (r site a : Nat) : Nat :=
  let qs := (s.reading c).seqs
  ((x.groupsAt.filter (fun g => g.2.1.kvSite == site && g.2.2.1 / 8 == a)).foldl (fun l g =>
    (walkList g.2.1 (s.groupEmits c x g.2.1 g.1)).foldl (fun l m =>
      match qs[m.2.seq]? with
      | some q => (List.range g.2.2.2.hCount).foldl (fun l i =>
          addNew l (pageName (s.reading c) r q m.2.page, g.2.2.2.headFirst + i)) l
      | none => l) l) []).length

/-! ### PAGE_WALK -/

/-- The plane pairs of one page move for each head of a group, as long as their reads succeed. -/
def State.movePairs (s : State) (c : Nat) (x : Ctx) (r a site : Nat) (g : AttnGroup) (mode : WalkMode) (name home : Nat)
    (put : Nat → State → Bytes → State) : State × Bool :=
  (List.range g.hCount).foldl (fun (w : State × Bool) i =>
    if w.2 then w.1.movePair c x r a site (g.headFirst + i) mode name home (put i) else w) (s, true)

/-- The plane pairs of a block go to the places that its FORWARD names (R183); false where one cannot be read. -/
def State.walkPairs (s : State) (c : Nat) (x : Ctx) (r : Nat) (st : AttnSite) (e : Nat) (g : AttnGroup) (q : Seq) (m : Emitted)
    (fw : Nat) (late : Bool) : State × Bool :=
  let a := e / 8
  let s := if late then s.count c 0x25 1 else s
  match s.homeFrame c a st.kvSite r q m.page false with
  | (s, none) => (s, false)
  | (s, some fr) =>
    let pool := s.pairsRead c x r st.kvSite a ≤ kvUnits r || m.page + 1 = ceilDiv q.tokens 256
    let mode := if late then WalkMode.late else if pool && 0 < kvUnits r then .cache else .stream
    let ka := if m.page % 2 = 0 then fld fw 255 224 else g.kAlt
    s.movePairs c x r a st.kvSite g mode (pageName (s.reading c) r q m.page) fr
      (fun i s b => s.spPut e (bit fw 139) (ka + i * 2 * kvPlane r) b)

/-- The walk of one block for a head group: its plane pairs and, where it is MIXED, its bitmap go to the places that the
FORWARD names, and the tally that it acquires is posted once they have all been read (R50, R168, R183). -/
def State.walkBlock (s : State) (c : Nat) (x : Ctx) (r : Nat) (st : AttnSite) (e : Nat) (g : AttnGroup) (m : Emitted) (late : Bool) : State :=
  match ((s.reading c).seqsAt st)[m.seq]? with
  | none => s
  | some q =>
    let (s, read) := s.readRanges .palette e (some c) [(g.fwdTemplate, 64)]
    let fw := leNat (s.palBytes e g.fwdTemplate 64)
    let (s, ok) := if !read then (s, false) else if st.kvSite = 0x3F then (s, true) else s.walkPairs c x r st e g q m fw late
    let (s, ok) := if ok && m.summary = 2 then s.moveBitmap c x st e g q m.block m.page else (s, ok)
    if ok && cAcq fw then s.tallyAdd (e * 256 + cAcqTally fw) (cAcqN fw) else s

/-- The walk of one head group, where the block it is to walk next is one of page `page` of sequence `seq`. -/
def State.walkGroup (s : State) (c : Nat) (x : Ctx) (r seq page gi : Nat) (st : AttnSite) (e : Nat) (g : AttnGroup) : State :=
  let ms := s.groupEmits c x st gi
  let l := walkList st ms
  let k := tabGet 0 (s.reading c).walked gi
  match l[k]? with
  | none => s
  | some (at0, m) =>
    let done := s.groupDone c e g ms.length
    if m.seq != seq || m.page != page || !mayWalk l r k page done || (m.summary == 2 && !maskFree ms at0 done) then s
    else
      let fw := leNat (s.palBytes e g.fwdTemplate 64)
      let late := at0 == done && (s.queue e g.queue).wait == some (.acquire (e * 256 + cAcqTally fw) (cAcqN fw))
      let rd := s.reading c
      (s.putReading c { rd with walked := tabPut rd.walked gi (k + 1) }).walkBlock c x r st e g m late

/-- PAGE_WALK (R168, R183, R197): the plane pairs of one page of a sequence go to every head group of a KV site whose next
block it is; at sites without KV pages (0x3F), the bitmap. Each query block of a page has a walk of its own. -/
def execPageWalk (ctx : Nat) (site : Nat) (seq : Nat) (page : Nat) (s : State) : Result :=
  .next (match s.ctx? ctx with
    | none => s
    | some x =>
      if !s.works || x.st != .running || !(s.reading ctx).stepping || (x.kvRec.isNone && site != 0x3F) then s
      else
        ((x.groupsAt.filter (fun g => g.2.1.kvSite == site)).foldl (fun (s : State) g =>
          s.walkGroup ctx x (x.kvRec.getD 0) seq page g.1 g.2.1 g.2.2.1 g.2.2.2) s).settleAll)

/-! ### Received ring blocks (R201 to R203) -/

/-- The open query blocks of a sequence at a page: the FORWARDs that a received block waits for (R201). -/
def State.openBlocks (s : State) (x : Ctx) (j : RingJob) (idx : Nat) : List Nat :=
  match (x.ringBlocks j)[idx]? with
  | none => []
  | some (_, _, qi, p, gi) =>
    match (x.ringVariant.map Variant.groups).bind (fun gs => gs[gi]?) with
    | some (st, _) =>
      (match ((s.reading j.ctx).seqsAt st)[qi]? with
       | some q => if ceilDiv q.tokens 256 ≤ p then [] else q.blocks.filter (fun b => s.summaryOf x st q b p != 0)
       | none => [])
    | none => []

/-- What a block waits for in its receive buffer: `no` is its number among the job's blocks from the west, which gives its
decoder step and its place in that step's order (R201, R202). A block of a job that the context's attention does not run
over, or of a variant without KV sites, has no place there, and waits for one copy out of the buffer (log 154). -/
def State.blockUse (s : State) (x : Ctx) (j : RingJob) (no : Nat) : HeldBlock :=
  let bs := x.ringBlocks j
  let own : Bool := match s.ringJob? j.ctx with | some k => k.job == j.job | none => false
  match bs[no % bs.length]? with
  | none => { no := no, reads := 0, sends := 1, any := true }
  | some y =>
    if !own then { no := no, reads := 0, sends := 1, any := true }
    else
      let sends := if y.1 + 1 = j.n then 0 else 1
      let step := no / bs.length
      if j.steps ≤ step then { no := no, reads := 1, sends := sends, early := true }
      else if step + 1 < j.steps || (s.reading j.ctx).started.isEmpty then { no := no, reads := 0, sends := sends }
      else { no := no, reads := (s.openBlocks x j (no % bs.length)).length, sends := sends }

/-- The next MIXED block of a group after its first `done` commands is a received one that is held: its bitmap goes to the
place that the group's FORWARD names (R168, R183, R201). -/
def State.nextMask (s : State) (c : Nat) (x : Ctx) (gi : Nat) (st : AttnSite) (e : Nat) (g : AttnGroup) (done : Nat) : State :=
  match (numbered (s.groupEmits c x st gi)).find? (fun m => decide (done ≤ m.1) && m.2.summary == 2), s.ringJob? c with
  | some (i, m), some j =>
    let rd := s.reading c
    let moved := tabGet [] rd.masked gi
    let here : Bool := match m.blk with
      | some n => (match tabFind j.bufs (2 + n % 2) with | some u => u.no == n | none => false)
      | none => false
    (match (rd.seqsAt st)[m.seq]? with
     | some q =>
       if !here || moved.contains i then s
       else ((s.putReading c { rd with masked := tabPut rd.masked gi (i :: moved) }).moveBitmap c x st e g q m.block m.page).1
     | none => s)
  | _, _ => s

/-- The bitmaps of received blocks whose turn has come; the command of easel `e` and queue `q` that runs, if one is given,
counts as ended. -/
def State.nextMasks (s : State) (c : Nat) (runs : Option (Nat × Nat)) : State :=
  match s.ctx? c with
  | none => s
  | some x =>
    if (s.reading c).started.isEmpty then s
    else
      x.groupsAt.foldl (fun (s : State) y =>
        let (gi, st, e, g) := y
        let n := (s.groupEmits c x st gi).length
        let done := s.groupDone c e g n + (if runs == some (e, g.queue) then 1 else 0)
        s.nextMask c x gi st e g done) s

/-- A FORWARD of a queue has read its keys, at canvas offset `off` of its atelier where they lie there (R202); the bitmap of
the received block whose turn comes next follows. -/
def State.forwardRead (s : State) (c e q : Nat) (off : Option Nat) : State :=
  match s.ringJob? c with
  | none => s
  | some _ => (match off with | some o => s.ringRead c (e / 8) o | none => s).nextMasks c (some (e, q))

/-! ### The start of a decoder step (R167 to R170, R196, R201) -/

/-- A decoder step of a context with a ring job begins (R201). -/
def State.ringBegin (s : State) (c : Nat) : State :=
  match s.ringJob? c with
  | some j => s.modJob c j.job (fun j => { j with steps := j.steps + 1 })
  | none => s

/-- The blocks that came ahead of the decoder step that has begun now wait for their FORWARDs (R201, R202). -/
def State.ringStep (s : State) (c : Nat) : State :=
  match s.ctx? c, s.ringJob? c with
  | some x, some j =>
    j.bufs.foldl (fun (s : State) u =>
      if u.2.early then s.usedBuf j (u.1 / 2) (u.1 % 2) (fun v => s.blockUse x j v.no) else s) s
  | _, _ => s

/-- A pair of the pool is the tail page of a sequence. -/
def State.isTail (s : State) (c r : Nat) (pr : Pair2) : Bool :=
  (s.reading c).seqs.any (fun q => !q.idle && 0 < q.tokens && pageName (s.reading c) r q (ceilDiv q.tokens 256 - 1) == pr.page)

/-- Where a site's step runs an atelier's pool in STREAM, the canvas holds only tail pages (R196): the others leave it. -/
def State.streamPools (s : State) (c : Nat) (x : Ctx) : State :=
  match x.kvRec with
  | none => s
  | some r =>
    (s.reading c).pairs.foldl (fun (s : State) pr =>
      if kvUnits r < s.pairsRead c x r pr.site pr.atelier && !s.isTail c r pr then s.dropPair c x r pr else s) s

/-- DECODER_STEP_START (R167 to R170, R311, R318): invalidations are applied, the length table is built, pages are
prepared, and the attention commands and STEP entry points start. -/
def execDecoderStepStart (ctx : Nat) (s : State) : Result :=
  .next (match s.ctx? ctx with
    | none => s
    | some x =>
      let rd := s.reading ctx
      let live := rd.seqs.any (fun q => !q.idle)
      let waits := rd.seqs.any (fun q => !q.idle && q.ending.isSome)
      if !s.works || x.st != .running || !x.busy || x.stopping || !rd.started.isEmpty || !live || waits then s
      else
        let s := s.applyInvals ctx
        let s := s.modCtx ctx (fun x => { x with riskStep := 0 })
        let s := s.standing ctx
        let rd := s.reading ctx
        let s := s.putReading ctx { rd with cows := 0, siteTokens := [], walked := [], masked := [] }
        let s := (List.range rd.seqs.length).foldl (fun (s : State) j => s.stepSeq ctx x j) s
        let rd := s.reading ctx
        if rd.seqs.all Seq.idle then s
        else
          let s := s.putReading ctx { rd with stepping := true }
          let s := (((s.siteCounts ctx x).lengthTables ctx x).readSummaries ctx x).streamPools ctx x
          if s.err.frozen then s else ((((s.ringBegin ctx).startStep ctx x).ringStep ctx).nextMasks ctx none))

end Sys2Proof.Machine
end

