-- ==== Sys2Proof/Machine/Attn.lean ====
section
/-! DEFINITION. Machine/Attn.lean: blockwise attention and rotary positions (R149 to R164, R171 to R174). -/

namespace Sys2Proof.Machine

/-! ### Operands (R149, R150) -/

/-- A statistics entry (R150); numbers are FP32 codes. -/
structure Stat where
  max : Nat
  sum : Nat
  lse2 : Nat
  delta : Nat
  empty : Bool
  nan : Bool
  deriving DecidableEq, Repr

/-- Read a statistics entry. -/
def State.statAt (s : State) (e off : Nat) : Stat :=
  let b := s.palBytes e off 32
  { max := leAt b 0 4, sum := leAt b 4 4, lse2 := leAt b 8 4, delta := leAt b 12 4,
    empty := bit (leAt b 16 1) 0, nan := bit (leAt b 16 1) 1 }

/-- Write a statistics entry, reserved bits zero. -/
def State.putStat (s : State) (e off : Nat) (t : Stat) : State :=
  s.palPut e off (toLe 4 t.max ++ toLe 4 t.sum ++ toLe 4 t.lse2 ++ toLe 4 t.delta ++
    toLe 1 ((if t.empty then 1 else 0) + (if t.nan then 2 else 0)) ++ zeros 15)

/-- fmt_qkv -/
def aFmt (w : Nat) : Fmt := (cFmt w 132).getD .fp16
/-- fmt_out -/
def aOut (w : Nat) : Fmt := (cFmt w 148).getD .fp32
/-- Byte width of fmt_qkv. -/
def aB (w : Nat) : Nat := (aFmt w).bits / 8
/-- Address of the operand that q_addr names, row r of head h, of element width b. -/
def aQ (w h r b : Nat) : Nat := fld w 223 192 + 64 * fld w 431 416 * h + r * aDim w * b
/-- K row. -/
def aK (w h r : Nat) : Nat := fld w 255 224 + 64 * fld w 447 432 * h + r * aDim w * aB w
/-- V row. -/
def aV (w h r : Nat) : Nat := fld w 287 256 + 64 * fld w 447 432 * h + r * aDim w * aB w
/-- O row. -/
def aO (w h r : Nat) : Nat := fld w 319 288 + 64 * fld w 463 448 * h + r * aDim w * 4
/-- Statistics entry. -/
def aStat (w h r : Nat) : Nat := fld w 351 320 + 4096 * h + 32 * r

/-- A key is open to a query row (R154, R155). -/
def State.keyOpen (s : State) (e w i j : Nat) : Bool :=
  j < aKeys w && (fld w 137 136 == 1 ||
    (fld w 137 136 == 2 && bit (leNat (s.palBytes e (fld w 383 352 + 32 * i + j / 8) 1)) (j % 8)))

/-- Open keys of a query row, ascending. -/
def State.openKeys (s : State) (e w i : Nat) : List Nat := (List.range (aKeys w)).filter (s.keyOpen e w i)

/-- Keys that are open to some query row: the K and V rows that the command uses. -/
def State.usedKeys (s : State) (e w : Nat) : List Nat :=
  (List.range (aKeys w)).filter (fun j => (List.range (aRows w)).any (fun i => s.keyOpen e w i j))

/-- Heads of the command. -/
def heads (w : Nat) : List Nat := List.range (aHeads w)

/-- The bitmap of a MIXED block. -/
def maskRange (w : Nat) : List Range := if fld w 137 136 = 2 then [⟨false, fld w 383 352, 32 * aRows w⟩] else []

/-- Statistics and FP32 rows of the command's running state. -/
def stateRanges (w : Nat) : List Range :=
  (heads w).map (fun h => ⟨false, aStat w h 0, 32 * aRows w⟩) ++
  (heads w).map (fun h => ⟨false, aO w h 0, aRows w * aDim w * 4⟩)

/-- Rows of K and V at the keys used. -/
def kvRanges (w : Nat) (ks : List Nat) : List Range :=
  (heads w).flatMap (fun h => ks.flatMap (fun j =>
    [⟨bit w 139, aK w h j, aDim w * aB w⟩, ⟨bit w 139, aV w h j, aDim w * aB w⟩]))

/-! ### Arithmetic (R78, R156) -/

/-- Runs of 32. -/
def runs32 : Nat → List FV → List (List FV)
  | 0, _ => []
  | n + 1, l => if l.isEmpty then [] else l.take 32 :: runs32 n (l.drop 32)

/-- The slice sums of two rows, 32 elements each (R78). -/
def sliceSums (a b : List FV) : List FV :=
  List.zipWith (sliceSum 2) (runs32 (a.length / 32 + 1) a) (runs32 (b.length / 32 + 1) b)

/-- The dot product of R156: the slice sums, rounded once to FP32 (log 40). -/
def dotF (a b : List FV) : FV := r32 (exactSum (sliceSums a b))

/-- A product of FP16 class with scales of 1.0 and FP32 accumulation: each slice sum is rounded to FP32 and added in ascending
order (R78, R156, R173). -/
def accDot (a b : List FV) : FV := accFloats fzero ((sliceSums a b).map (fun x => (x, FV.fin false 1 0, none)))

/-- Column k of a list of rows. -/
def colAt (rows : List (List FV)) (k : Nat) : List FV := rows.map (fun r => r.getD k fzero)

/-- A vector times a list of rows. -/
def vecMat (d : Nat) (p : List FV) (rows : List (List FV)) : List FV := (List.range d).map (fun k => accDot p (colAt rows k))

/-- scale × log2(e) rounded to FP32 (R156): log2(e) is one over ln 2. -/
def scaleC (w : Nat) : FV :=
  match ofF32 (fld w 495 464) with
  | .fin neg m e =>
    let (n, d) := magFrac m e
    ofF32 (fracF32 neg (n * 2 ^ sfuW) (d * ln2Fix))
  | v => v

/-- FP32 values as bytes. -/
def f32Bytes (l : List FV) : Bytes := l.flatMap (fun v => toLe 4 (toF32 v))

/-- Canonical FP32 NaN. -/
def nan32 : Nat := 0x7FC00000

/-- `d` zero values. -/
def zeroVec (d : Nat) : List FV := List.replicate d fzero

/-- Round to fmt_qkv (R156), with the counts of the conversion (R105). -/
def roundQ (f : Fmt) (v : FV) : FV × Sat :=
  let (c, t) := encFloat f v
  (decFloat f c, t)

/-- Sum of the counts of a list. -/
def satSum (l : List Sat) : Sat := l.foldl Sat.add Sat.zero

/-- Poison a row (R159). -/
def State.poison (s : State) (e w h i : Nat) (t : Stat) : State :=
  let s := s.palPut e (aO w h i) ((List.replicate (aDim w) nan32).flatMap (toLe 4))
  s.putStat e (aStat w h i) { t with nan := true, empty := false, sum := nan32 }

/-! ### FORWARD (R156) -/

/-- Weights of a row before the sum: for every key below key_count, with the running maximum m. -/
def fwdWeights (f : Fmt) (n : Nat) (sc : List (Nat × FV)) (m : FV) : List (FV × Sat) :=
  (List.range n).map (fun j => match sc.find? (fun x => x.1 == j) with
    | some x => roundQ f (sfu .exp2 (r32 (fsub x.2 m)))
    | none => (fzero, {}))

/-- One query row of one head. -/
def State.forwardRow (s : State) (c e w h i : Nat) : State :=
  let d := aDim w
  let st0 := s.statAt e (aStat w h i)
  let st := if bit w 138 then { st0 with empty := true, nan := false, max := 0, sum := 0 } else st0
  let s := if bit w 138 then s.putStat e (aStat w h i) st else s
  let ks := s.openKeys e w i
  if st.nan || ks.isEmpty then s
  else
    let q := s.floatRow e false (aFmt w) (aQ w h i (aB w)) d
    let sc := ks.map (fun j => (j, r32 (fmul (dotF q (s.floatRow e (bit w 139) (aFmt w) (aK w h j) d)) (scaleC w))))
    if sc.any (fun x => !fisFin x.2) then s.poison e w h i st
    else
      let mb := (sc.map Prod.snd).foldl fmax (.inf true)
      let m := if st.empty then mb else fmax (ofF32 st.max) mb
      let ps := fwdWeights (aFmt w) (aKeys w) sc m
      let p := ps.map Prod.fst
      let lb := rowSum p
      let vs := (List.range (aKeys w)).map (fun j =>
        if ks.contains j then s.floatRow e (bit w 139) (aFmt w) (aV w h j) d else zeroVec d)
      -- a row's one open key gives its V row unchanged, the sign of a zero too (R157)
      let y := match ks with
        | [j] => if st.empty then s.floatRow e (bit w 139) (aFmt w) (aV w h j) d else vecMat d p vs
        | _ => vecMat d p vs
      let o := s.floatRow e false .fp32 (aO w h i) d
      let a := sfu .exp2 (r32 (fsub (ofF32 st.max) m))
      let keep := toF32 a == 0x3F800000
      let sum0 := ofF32 st.sum
      let (o2, l2) :=
        if st.empty then (y, lb)
        else
          let o1 := if keep then o else o.map (fun x => r32 (fmul a x))
          let l1 := if keep then sum0 else r32 (fmul a sum0)
          (List.zipWith (fun x z => r32 (fadd x z)) o1 y, r32 (fadd l1 lb))
      let s := (s.palPut e (aO w h i) (f32Bytes o2)).countSat c (satSum (ps.map Prod.snd))
      s.putStat e (aStat w h i) { st with max := toF32 m, sum := toF32 l2, empty := false }

/-- The score scratch after a command is unspecified (R149). -/
def State.freeScratch (s : State) (e w n : Nat) : State :=
  let (v, s) := s.freeNat
  s.palPut e (fld w 415 384) (toLe n v)

/-- Every row of every head, one after another. -/
def State.eachRow (s : State) (w : Nat) (f : State → Nat → Nat → State) : State :=
  (heads w).foldl (fun s h => (List.range (aRows w)).foldl (fun s i => f s h i) s) s

/-- The body of FORWARD. -/
def State.forward (s : State) (c e q0 w : Nat) : State × BodyEnd :=
  s.withRanges c e (maskRange w) [] (fun s =>
    let sum := fld w 137 136
    let q := (heads w).map (fun h => (⟨false, aQ w h 0 (aB w), aRows w * aDim w * aB w⟩ : Range))
    s.withRanges c e (stateRanges w ++ if sum = 0 then [] else q ++ kvRanges w (s.usedKeys e w)) [] (fun s =>
      let s := (s.eachRow w (fun s h i => s.forwardRow c e w h i)).freeScratch e w (1024 * aRows w)
      (s.forwardRead c e q0 (if bit w 139 then some (aK w 0 0) else none), .done)))

/-- FORWARD (R156). -/
def execForward (e q : Nat) (s : State) : Result :=
  .next (s.runCommand e q (selOp2 0x05 0) (fun c w s => s.forward c e q w))

/-! ### FINALISE and MERGE (R160, R161) -/

/-- One row of FINALISE. -/
def State.finaliseRow (s : State) (c e w h i : Nat) : State :=
  let d := aDim w
  let st := s.statAt e (aStat w h i)
  let f := aOut w
  let put := fun (s : State) (l : List FV) =>
    let (b, t) := encRow f (l.map Lane.f)
    (s.palPut e (aQ w h i (f.bits / 8)) b).countSat c t
  if st.nan then (put s (List.replicate d .nan)).putStat e (aStat w h i) { st with lse2 := nan32 }
  else if st.empty then (put s (zeroVec d)).putStat e (aStat w h i) { st with sum := 0, lse2 := 0 }
  else
    let r := sfu .recip (ofF32 st.sum)
    let s := put s ((s.floatRow e false .fp32 (aO w h i) d).map (fun x => r32 (fmul x r)))
    s.putStat e (aStat w h i) { st with lse2 := toF32 (fadd (ofF32 st.max) (sfu .log2 (ofF32 st.sum))) }

/-- FINALISE (R160). -/
def execFinalise (e q : Nat) (s : State) : Result :=
  .next (s.runCommand e q (selOp2 0x05 1) (fun c w s => s.withRanges c e (stateRanges w) [] (fun s =>
    (s.eachRow w (fun s h i => s.finaliseRow c e w h i), .done))))

/-- O row of state B. -/
def bO (w h r : Nat) : Nat := fld w 255 224 + 64 * fld w 463 448 * h + r * aDim w * 4
/-- Statistics of state B. -/
def bStat (w h r : Nat) : Nat := fld w 287 256 + 4096 * h + 32 * r

/-- One row of MERGE. -/
def State.mergeRow (s : State) (e w h i : Nat) : State :=
  let d := aDim w
  let sa := s.statAt e (aStat w h i)
  let sb := s.statAt e (bStat w h i)
  if sa.nan || sb.nan then s.poison e w h i sa
  else if sb.empty then s
  else if sa.empty then
    (s.palPut e (aO w h i) (f32Bytes (s.floatRow e false .fp32 (bO w h i) d))).putStat e (aStat w h i)
      { sa with max := toF32 (ofF32 sb.max), sum := toF32 (ofF32 sb.sum), empty := false }
  else
    let m := fmax (ofF32 sa.max) (ofF32 sb.max)
    let a := sfu .exp2 (r32 (fsub (ofF32 sa.max) m))
    let b := sfu .exp2 (r32 (fsub (ofF32 sb.max) m))
    let mix := fun x y => r32 (fadd (r32 (fmul a x)) (r32 (fmul b y)))
    let o := List.zipWith mix (s.floatRow e false .fp32 (aO w h i) d) (s.floatRow e false .fp32 (bO w h i) d)
    (s.palPut e (aO w h i) (f32Bytes o)).putStat e (aStat w h i)
      { sa with max := toF32 m, sum := toF32 (mix (ofF32 sa.sum) (ofF32 sb.sum)) }

/-- MERGE (R161). -/
def execMerge (e q : Nat) (s : State) : Result :=
  .next (s.runCommand e q (selOp2 0x05 2) (fun c w s =>
    let b := (heads w).map (fun h => (⟨false, bStat w h 0, 32 * aRows w⟩ : Range)) ++
      (heads w).map (fun h => ⟨false, bO w h 0, aRows w * aDim w * 4⟩)
    s.withRanges c e (stateRanges w ++ b) [] (fun s => (s.eachRow w (fun s h i => s.mergeRow e w h i), .done))))

/-! ### The backward pass (R171 to R174) -/

/-- One row of BACKWARD_PREP: q_addr names the finalised output, k_addr dO. -/
def State.prepRow (s : State) (e w h i : Nat) : State :=
  let d := aDim w
  let st := s.statAt e (aStat w h i)
  let out := s.floatRow e false (aOut w) (aQ w h i ((aOut w).bits / 8)) d
  let dO := s.floatRow e false (aFmt w) (fld w 255 224 + 64 * fld w 431 416 * h + i * d * aB w) d
  let v := if st.nan then nan32 else if st.empty then 0
    else toF32 (rowSum (List.zipWith (fun x y => r32 (fmul x y)) dO out))
  s.putStat e (aStat w h i) { st with delta := v }

/-- BACKWARD_PREP (R171). -/
def execBackwardPrep (e q : Nat) (s : State) : Result :=
  .next (s.runCommand e q (selOp2 0x05 3) (fun c w s =>
    let ob := (aOut w).bits / 8
    let rs := (heads w).flatMap (fun h =>
      [(⟨false, aQ w h 0 ob, aRows w * aDim w * ob⟩ : Range),
       ⟨false, fld w 255 224 + 64 * fld w 431 416 * h, aRows w * aDim w * aB w⟩, ⟨false, aStat w h 0, 32 * aRows w⟩])
    s.withRanges c e rs [] (fun s => (s.eachRow w (fun s h i => s.prepRow e w h i), .done))))

/-- Regions of the operands that a backward record names (R172): dO, dQ, dK, dV, by head. -/
def recordRanges (w r : Nat) : List (List Range) :=
  let d := aDim w
  let by4 := fun (lo st len : Nat) => rowRanges false (fld r (lo + 31) lo) (64 * st) len (aHeads w)
  [by4 0 (fld w 431 416) (aRows w * d * aB w), by4 32 (fld w 463 448) (aRows w * d * 4),
   by4 64 (fld r 143 128) (aKeys w * d * 4), by4 96 (fld r 143 128) (aKeys w * d * 4)]

/-- The record is well-formed and its operands lie apart and in bounds (R153, R172). -/
def recordOk (ok : Range → Bool) (w r : Nat) : Bool :=
  onlyBits r [(143, 0)] && [31, 63, 95, 127].all (fun hi => mult (fld r hi (hi - 31)) 64) &&
  disjoint (attnOperands w ++ recordRanges w r).flatten && (recordRanges w r).flatten.all ok

/-- Weights and gradients of one row over the keys below key_count (R173): p, g, and the counts of their roundings. Every
product is a MATMUL with FP32 accumulation, those that recompute the scores too (log 40). -/
def State.backRow (s : State) (e w r h i : Nat) : List (FV × FV × Sat) :=
  let d := aDim w
  let f := aFmt w
  let st := s.statAt e (aStat w h i)
  let ks := if st.empty || st.nan then [] else s.openKeys e w i
  let q := s.floatRow e false f (aQ w h i (aB w)) d
  let dO := s.floatRow e false f (fld r 31 0 + 64 * fld w 431 416 * h + i * d * aB w) d
  (List.range (aKeys w)).map (fun j =>
    if ks.contains j then
      let k := s.floatRow e (bit w 139) f (aK w h j) d
      let v := s.floatRow e (bit w 139) f (aV w h j) d
      let sc := r32 (fmul (accDot q k) (scaleC w))
      let (p, t1) := roundQ f (sfu .exp2 (r32 (fsub sc (ofF32 st.lse2))))
      let g0 := r32 (fmul (r32 (fmul p (r32 (fsub (accDot dO v) (ofF32 st.delta))))) (ofF32 (fld w 495 464)))
      let (g, t2) := roundQ f g0
      (p, g, t1.add t2)
    else (fzero, fzero, {}))

/-- Add a vector into an FP32 row. -/
def State.addRow (s : State) (e off d : Nat) (l : List FV) : State :=
  s.palPut e off (f32Bytes (List.zipWith (fun x y => r32 (fadd x y)) (s.floatRow e false .fp32 off d) l))

/-- One head of BACKWARD. -/
def State.backHead (s : State) (c e w r h : Nat) : State :=
  let d := aDim w
  let f := aFmt w
  let rows := List.range (aRows w)
  let stat := fun i => s.statAt e (aStat w h i)
  let live := fun i => !(stat i).empty && !(stat i).nan
  let pg := rows.map (s.backRow e w r h)
  let pAt := fun i j => ((pg.getD i []).getD j (fzero, fzero, {})).1
  let gAt := fun i j => ((pg.getD i []).getD j (fzero, fzero, {})).2.1
  let dO := rows.map (fun i => if live i then s.floatRow e false f (fld r 31 0 + 64 * fld w 431 416 * h + i * d * aB w) d else zeroVec d)
  let qs := rows.map (fun i => if live i then s.floatRow e false f (aQ w h i (aB w)) d else zeroVec d)
  let kAddr := fun j => fld r 95 64 + 64 * fld r 143 128 * h + j * d * 4
  let vAddr := fun j => fld r 127 96 + 64 * fld r 143 128 * h + j * d * 4
  let qAddr := fun i => fld r 63 32 + 64 * fld w 463 448 * h + i * d * 4
  let s0 := s
  let s := s.countSat c (satSum (pg.flatMap (fun l => l.map (fun x => x.2.2))))
  let nan := (List.replicate d nan32).flatMap (toLe 4)
  let s := (List.range (aKeys w)).foldl (fun (s : State) j =>
    let by0 := rows.filter (fun i => s0.keyOpen e w i j)
    if by0.any (fun i => (stat i).nan) then (s.palPut e (vAddr j) nan).palPut e (kAddr j) nan
    else if by0.any live then
      -- a row to which the key is closed adds nothing, whatever it holds (R154, R174)
      let mine := fun (l : List (List FV)) => rows.map (fun i => if by0.contains i then l.getD i [] else zeroVec d)
      (s.addRow e (vAddr j) d (vecMat d (rows.map (fun i => pAt i j)) (mine dO))).addRow e (kAddr j) d
        (vecMat d (rows.map (fun i => gAt i j)) (mine qs))
    else s) s
  rows.foldl (fun (s : State) i =>
    if (stat i).nan then s.palPut e (qAddr i) nan
    else
      let ks := s0.openKeys e w i
      if !live i || ks.isEmpty then s
      else
        let kr := (List.range (aKeys w)).map (fun j =>
          if ks.contains j then s0.floatRow e (bit w 139) f (aK w h j) d else zeroVec d)
        s.addRow e (qAddr i) d (vecMat d ((List.range (aKeys w)).map (gAt i)) kr)) s

/-- The body of BACKWARD. -/
def State.backward (s : State) (c e w : Nat) : State × BodyEnd :=
  s.withRanges c e (⟨false, fld w 319 288, 64⟩ :: maskRange w) [] (fun s =>
    let r := leNat (s.palBytes e (fld w 319 288) 64)
    if !recordOk (s.rangeOk c e) w r then (s, .format)
    else
      let q := (heads w).flatMap (fun h => [(⟨false, aQ w h 0 (aB w), aRows w * aDim w * aB w⟩ : Range),
        ⟨false, aStat w h 0, 32 * aRows w⟩])
      let reads := if fld w 137 136 = 0 then []
        else q ++ kvRanges w (s.usedKeys e w) ++ (recordRanges w r).flatten
      s.withRanges c e reads [] (fun s =>
        let s := if fld w 137 136 = 0 then s else (heads w).foldl (fun s h => s.backHead c e w r h) s
        (s.freeScratch e w (2048 * aRows w), .done)))

/-- BACKWARD (R173). -/
def execBackward (e q : Nat) (s : State) : Result :=
  .next (s.runCommand e q (selOp2 0x05 4) (fun c w s => s.backward c e w))

/-! ### ROTARY (R163, R164) -/

/-- Format of ROTARY. -/
def roFmt (w : Nat) : Fmt := (cFmt w 128).getD .fp32
/-- rot_dim -/
def roDim (w : Nat) : Nat := fld w 191 176
/-- Byte of element k of a row of a head. -/
def roAddr (w h r k : Nat) : Nat := fld w 223 192 + fld w 287 256 * h + fld w 255 224 * r + k * ((roFmt w).bits / 8)
/-- Elements of pair k. -/
def roPair (w k : Nat) : Nat × Nat := if bit w 132 then (2 * k, 2 * k + 1) else (k, k + roDim w / 2)

/-- Rotate one pair. -/
def State.rotate (s : State) (c e w h r k : Nat) (co si : FV) : State :=
  let f := roFmt w
  let (a, b) := roPair w k
  let rd := fun i => codeValue f (leNat (s.palBytes e (roAddr w h r i) (f.bits / 8)))
  let xa := rd a
  let xb := rd b
  let nan := fisNan xa || fisNan xb
  let ya := if nan then .nan else r32 (fsub (fmul xa co) (fmul xb si))
  let yb := if nan then .nan else r32 (fadd (fmul xa si) (fmul xb co))
  let (ca, ta) := encFloat f ya
  let (cb, tb) := encFloat f yb
  ((s.palPut e (roAddr w h r a) (toLe (f.bits / 8) ca)).palPut e (roAddr w h r b) (toLe (f.bits / 8) cb)).countSat c (ta.add tb)

/-- Rotate one row of every head. -/
def State.rotaryRow (s : State) (c e w r : Nat) : State :=
  let n := fld w 319 288 + r
  (List.range (roDim w / 2)).foldl (fun (s : State) k =>
    let f := s.palF32 e (fld w 351 320 + 4 * k)
    let co := trig 0 n f
    let si := if bit w 133 then fneg (trig 1 n f) else trig 1 n f
    (List.range (fld w 175 160)).foldl (fun s h => s.rotate c e w h r k co si) s) s

/-- The body of ROTARY. -/
def State.rotaryRun (s : State) (c e w : Nat) : State × BodyEnd :=
  let fr : Range := ⟨false, fld w 351 320, 2 * roDim w⟩
  let rows := (List.range (fld w 175 160)).flatMap (fun h =>
    (List.range (fld w 159 144)).map (fun r => (⟨false, roAddr w h r 0, roDim w * ((roFmt w).bits / 8)⟩ : Range)))
  s.withRanges c e (fr :: rows) [] (fun s =>
    let fs := (List.range (roDim w / 2)).map (fun k => s.palF32 e (fld w 351 320 + 4 * k))
    if fs.all (fun f => fisFin f && !fisZero f && !fsign f) then
      ((List.range (fld w 159 144)).foldl (fun s r => s.rotaryRow c e w r) s, .done)
    else (s, .format))

/-- ROTARY (R164). -/
def execRotary (e q : Nat) (s : State) : Result :=
  .next (s.runCommand e q (selOp 0x07) (fun c w s => s.rotaryRun c e w))

end Sys2Proof.Machine
end

