-- ==== Sys2Proof/Machine/Control.lean ====
section
/-! DEFINITION. Machine/Control.lean: doorbells, tallies, barriers and the end of a command stream (R32 to R42, R55,
R62, R63, R66). -/

namespace Sys2Proof.Machine

/-- EASEL_DOORBELL (R62): a doorbell from the studio controller. -/
def execEaselDoorbell (e q off : Nat) (s : State) : Result :=
  .next (if !s.works || 16 ≤ q then s else s.leaveIdle.ring1 e q off)

/-- NOP (R66): only its header operations. -/
def execNop (e q : Nat) (s : State) : Result :=
  .next (s.runCommand e q (selOp 0x00) (fun _ _ s => (s, .done)))

/-! ### Tallies -/

/-- n of a TALLY command. -/
def tlN (w : Nat) : Nat := fld w 175 160
/-- tally of a TALLY command. -/
def tlT (w : Nat) : Nat := fld w 145 132

/-- The body of TALLY_ACQUIRE and TALLY_WAIT (R33, R34): the queue waits, or goes on at once. -/
def State.tallyBody (s : State) (e q w : Nat) (acquire : Bool) : State × BodyEnd :=
  let s := s.waitTally e q (tlT w) (tlN w) acquire
  if (s.queue e q).wait.isSome then (s, .block)
  else (s.modQueue e q (fun x => { x with granted := false }), .done)

/-- TALLY_ACQUIRE (R33). -/
def execTallyAcquire (e q : Nat) (s : State) : Result :=
  .next (s.runCommand e q (selOp2 0x10 0) (fun _ w s => s.tallyBody e q w true))

/-- TALLY_WAIT (R33). -/
def execTallyWait (e q : Nat) (s : State) : Result :=
  .next (s.runCommand e q (selOp2 0x10 1) (fun _ w s => s.tallyBody e q w false))

/-- TALLY_RELEASE (R37). -/
def execTallyRelease (e q : Nat) (s : State) : Result :=
  .next (s.runCommand e q (selOp2 0x10 2) (fun _ w s => (s.tallyAdd (tlT w) (tlN w), .done)))

/-- TALLY_POST (R35, R37): a post of a context's DMA engine, or of the studio controller for a context. One that names a
tally outside the context's partition reaches nothing. -/
def execTallyPost (ctx tally n : Nat) (s : State) : Result :=
  .next (if s.works && s.tallyIn ctx tally && n < 65536 then (s.tallyAdd tally n).settleAll else s)

/-- TALLY_SET (R33): the studio controller sets a count; waits and acquires that it meets complete. -/
def execTallySet (tally n : Nat) (s : State) : Result :=
  .next (if s.works && tally < 16384 then
      ((s.setFab { s.fab with tally := tabSet 0 s.fab.tally tally (n % 65536) }).serveTally tally).settleAll
    else s)

/-- TALLY_READ (R33): the count goes to the studio controller. -/
def execTallyRead (tally : Nat) (s : State) : Result :=
  .next (if s.works && tally < 16384 then
      s.setFab { s.fab with reports := s.fab.reports ++ [.tallyValue tally (tabGet 0 s.fab.tally tally)] }
    else s)

/-! ### Barriers -/

/-- The body of BARRIER_ARRIVE: the queue waits for the generation that its arrival counts toward (R41). -/
def State.arriveBody (s : State) (c e q : Nat) : State × BodyEnd :=
  match (s.ctx? c).bind (fun x => x.barOf e) with
  | none => (s, .block)
  | some (dev, k) =>
    match s.barrier dev k with
    | none => (s, .block)
    | some b =>
      let (b2, g) := b.arrive e q
      ((s.setBarrier dev k b2).modQueue e q (fun x => { x with wait := some (.barrier g) }), .block)

/-- BARRIER_ARRIVE (R41). -/
def execBarrierArrive (e q : Nat) (s : State) : Result :=
  .next (s.runCommand e q (selOp 0x11) (fun c _ s => s.arriveBody c e q))

/-- BARRIER_COMPLETE (R42). -/
def execBarrierComplete (atelier chan : Nat) (s : State) : Result :=
  .next (if chan < 8 then s.barrierDone false (atelier * 8 + chan) else s)

/-- DEVICE_BARRIER_COMPLETE (R55). -/
def execDeviceBarrierComplete (chan : Nat) (s : State) : Result :=
  .next (s.barrierDone true chan)

/-! ### END -/

/-- END (R62, R66, R311): the queue becomes IDLE and reports the end to the studio controller. -/
def execEndCmd (e q : Nat) (s : State) : Result :=
  .next (s.runCommand e q (selOp 0x1F) (fun c _ s =>
    let s := s.modQueue e q (fun _ => {})
    let s := s.setFab { s.fab with reports := s.fab.reports ++ [.ended e q] }
    let s := s.queueEnded c e q
    (if (s.reading c).started.isEmpty then s.readBufs c else s, .done)))

/-! ### Stopping (R63) -/

/-- A BLOCKED queue enters STOPPED at once; its wait is abandoned, to be reissued on resume (R60, R63). -/
def CmdQueue.stopBlocked (x : CmdQueue) : CmdQueue :=
  if x.run == .running && x.wait.isSome then { x with run := .stopped } else x

/-- PREEMPT_STOP_SIGNAL (R63, R325): the signal reaches an easel of a partition that is being stopped. -/
def execPreemptStopSignal (e : Nat) (s : State) : Result :=
  .next (match s.easelCtx e with
    | none => s
    | some c =>
      match s.ctx? c with
      | none => s
      | some x =>
        if !s.works || !x.stopping || s.fab.stop.contains e then s
        else
          let s := s.setFab { s.fab with
            stop := e :: s.fab.stop,
            queue := tabMap s.fab.queue (fun k q => if k / 16 = e then q.stopBlocked else q) }
          s.dropWaits [e] true)

/-- QUEUE_STOPPED (R63): a running queue's last command has ended and its writes have been accepted. -/
def execQueueStopped (e q : Nat) (s : State) : Result :=
  .next (if s.works && q < 16 && s.fab.stop.contains e && (s.queue e q).run == .running then
      s.modQueue e q (fun x => { x with run := .stopped })
    else s)

end Sys2Proof.Machine
end

