-- ==== Sys2Proof/Machine/Convert.lean ====
section
/-! DEFINITION. Machine/Convert.lean: CONVERT (R114 to R121, R129). -/

namespace Sys2Proof.Machine

/-- Source format. -/
def cvSrc (w : Nat) : Fmt := (cFmt w 128).getD .fp32
/-- Destination format. -/
def cvDst (w : Nat) : Fmt := (cFmt w 132).getD .fp32
/-- The command encodes. -/
def cvEnc (w : Nat) : Bool := isF (cvSrc w) && !isF (cvDst w)
/-- scale_mode -/
def cvMode (w : Nat) : Nat := fld w 137 136
/-- rows -/
def cvRows (w : Nat) : Nat := fld w 175 160
/-- row_len -/
def cvLen (w : Nat) : Nat := fld w 223 192
/-- First element of source row r. -/
def cvSrcAt (w r : Nat) : Nat := fld w 255 224 + fld w 319 288 * r
/-- First element of destination row r. -/
def cvDstAt (w r : Nat) : Nat := fld w 287 256 + fld w 351 320 * r

/-- Ranges of a row in either layout. -/
def layoutRow (block canvas : Bool) (f : Fmt) (at0 n : Nat) : List Range :=
  if block then (List.range (ceilDiv n 32)).map (fun b => blockLine canvas f (at0 + 8 * b)) else [⟨canvas, at0, plainLen f n⟩]

/-- An element of a block to encode: a value, a listed outlier, or padding. -/
inductive Slot where
  | val (x : FV)
  | outlier
  | pad
  deriving DecidableEq, Repr

/-- The value of a slot that takes part in its block's range. -/
def Slot.value : Slot → Option FV
  | .val x => some x
  | _ => none

/-- The range of a block (R116): largest and smallest of zero and its values. -/
def rangeOf (l : List FV) : FV × FV := (l.foldl fmax fzero, l.foldl fmin fzero)

/-- Encode one block under a scale and zero point (R106 to R109, R129). -/
def encBlock (f : Fmt) (scale zp : Nat) (l : List Slot) : Block × Sat :=
  if (l.filterMap Slot.value).any (fun x => !fisFin x) then (Block.nan, { block := 1 })
  else
    let z := if f == .uint8 || f == .uint4 then zp else 0
    let r := l.map (fun x => match x with
      | .val x => encScaled f x (decFloat .bf16 scale) zp
      | _ => (z, {}))
    ({ scale := scale, zp := z, codes := r.map Prod.fst }, r.foldl (fun a x => a.add x.2) Sat.zero)

/-- Slots of block b of a row of values (R100, R129). -/
def slotsOf (xs : List FV) (listed : List Nat) (b : Nat) : List Slot :=
  (List.range 32).map (fun i =>
    let k := 32 * b + i
    if xs.length ≤ k then .pad else if listed.contains k then .outlier else .val (xs.getD k fzero))

/-- How a command finds its scale: for each block, or one for all; with one from the history, saturation is counted in
SAT_FALLBACK (R118). -/
inductive ScaleBy where
  | block
  | fixed (scale zp : Nat)
  | history (scale zp : Nat)
  deriving DecidableEq, Repr

/-- Encode one block by the command's way to a scale. -/
def encBlockBy (f : Fmt) (by0 : ScaleBy) (l : List Slot) : Block × Sat :=
  match by0 with
  | .block =>
    let (hi, lo) := rangeOf ((l.filterMap Slot.value).filter fisFin)
    let (sc, zp) := scaleOf f hi lo
    encBlock f sc zp l
  | .fixed sc zp => encBlock f sc zp l
  | .history sc zp => let (b, t) := encBlock f sc zp l; (b, t.asFallback)

/-- Source values of a row. -/
def State.cvValues (s : State) (e w r : Nat) : List FV := s.floatRow e (bit w 138) (cvSrc w) (cvSrcAt w r) (cvLen w)

/-- Write a row's outlier values into its activation matrix (R129). -/
def State.putOutliers (s : State) (c e r : Nat) (z : Glaze) (xs : List FV) : State :=
  (List.range z.list.length).foldl (fun (s : State) i =>
    let (v, t) := encFloat .bf16 (xs.getD (z.list.getD i 0) fzero)
    (s.palPut e (z.act + z.actStride * r + 2 * i) (toLe 2 v)).countSat c t) s

/-- Encode one row into a BLOCK format; `s0` is the state that it reads. -/
def State.encodeRow (s0 : State) (c e w : Nat) (by0 : ScaleBy) (z : Option Glaze) (s : State) (r : Nat) : State :=
  let xs := s0.cvValues e w r
  let listed := match z with | some z => z.list | none => []
  let s := (List.range (ceilDiv (cvLen w) 32)).foldl (fun (s : State) b =>
    let (blk, t) := encBlockBy (cvDst w) by0 (slotsOf xs listed b)
    (s.putBlock e (bit w 139) (cvDst w) (cvDstAt w r + 8 * b) blk).countSat c t) s
  match z with
  | some z => s.putOutliers c e r z xs
  | none => s

/-- Encode every row, and zero the slots beyond the last block (R100; log 41). -/
def State.encodeRows (s : State) (c e w : Nat) (by0 : ScaleBy) (z : Option Glaze) : State :=
  let s1 := (List.range (cvRows w)).foldl (fun s1 r => s.encodeRow c e w by0 z s1 r) s
  s1.zeroTail e (bit w 139) (cvDst w) (cvDstAt w (cvRows w - 1) + 8 * (ceilDiv (cvLen w) 32 - 1))

/-- Encode every row into PLAIN INT4 or UINT4 (R104, R105). -/
def State.encodePlain (s : State) (c e w : Nat) : State :=
  (List.range (cvRows w)).foldl (fun (s1 : State) r =>
    let (b, t) := encRow (cvDst w) ((s.cvValues e w r).map Lane.f)
    (s1.spPut e (bit w 139) (cvDstAt w r) b).countSat c t) s

/-- Access checks and reads of an encoding command, with its outlier list. -/
def State.withEncode (s : State) (c e w : Nat) (block : Bool) (more : List Range)
    (k : Option Glaze → State → State × BodyEnd) : State × BodyEnd :=
  let rows := List.range (cvRows w)
  let src := rows.map (fun r => (⟨bit w 138, cvSrcAt w r, plainLen (cvSrc w) (cvLen w)⟩ : Range))
  let dst := rows.flatMap (fun r => layoutRow block (bit w 139) (cvDst w) (cvDstAt w r) (cvLen w))
  if bit w 141 then
    s.withGlaze c e (fld w 479 448) (cvLen w) (fun z s =>
      s.withRanges c e (src ++ more) (dst ++ rowRanges false z.act z.actStride (2 * z.list.length) (cvRows w)) (k (some z)))
  else s.withRanges c e (src ++ more) dst (k none)

/-- Whether the INT4 or UINT4 side of a command is BLOCK: no field says so; a scale mode or an outlier list shows a
BLOCK target, and otherwise it is free, but the same for the same command (R112, log 32). Every other narrow format is
BLOCK. -/
def cvBlock (w : Nat) : Bool :=
  let f := if cvEnc w then cvDst w else cvSrc w
  (f != .int4 && f != .uint4) || cvMode w != 0 || bit w 141 || Config.convertBlock w

/-- The body of CONVERT in FIRST_PASS mode (R116), and of an encoding into PLAIN INT4 or UINT4. -/
def State.convertFirst (s : State) (c e w : Nat) : State × BodyEnd :=
  let blk := cvBlock w
  s.withEncode c e w blk [] (fun z s =>
    (if blk then s.encodeRows c e w .block z else s.encodePlain c e w, .done))

/-- CONVERT_FIRST_PASS (R116). -/
def execConvertFirstPass (e q : Nat) (s : State) : Result :=
  .next (s.runCommand e q (fun w => cOp w == 0x06 && cvEnc w && cvMode w == 0) (fun c w s => s.convertFirst c e w))

/-! ### FALLBACK (R117, R118) -/

/-- Entry i of a scale history, as hi and lo. -/
def histEntry (b : Bytes) (i : Nat) : FV × FV := (ofF32 (leAt b (8 * i) 4), ofF32 (leAt b (8 * i + 4) 4))
/-- head -/
def histHead (b : Bytes) : Nat := leAt b 136 1 % 16
/-- filled -/
def histFilled (b : Bytes) : Nat := leAt b 137 1 % 32

/-- fb_n: 0 stands for 4. -/
def fbN (w : Nat) : Nat := if fld w 148 144 = 0 then 4 else fld w 148 144

/-- The way to a scale that a history gives (R118). -/
def histScale (f : Fmt) (n : Nat) (b : Bytes) : ScaleBy :=
  let k := min n (histFilled b)
  if k = 0 then .block
  else
    let es := (List.range k).map (fun j => histEntry b ((histHead b + 32 - (j + 1)) % 16))
    let hi := (es.map Prod.fst).foldl fmax fzero
    let lo := (es.map Prod.snd).foldl fmin fzero
    let (sc, zp) := scaleOf f hi lo
    .history sc zp

/-- Finite source elements that are no listed outlier. -/
def State.cvRange (s : State) (e w : Nat) (listed : List Nat) : List FV :=
  (List.range (cvRows w)).flatMap (fun r =>
    let xs := s.cvValues e w r
    ((List.range xs.length).filter (fun i => !listed.contains i)).filterMap (fun i =>
      let x := xs.getD i fzero
      if fisFin x then some x else none))

/-- Update a scale history (R118). -/
def State.putHistory (s : State) (e at0 : Nat) (b : Bytes) (xs : List FV) (stepEnd : Bool) : State :=
  let hi := xs.foldl fmax (ofF32 (leAt b 128 4))
  let lo := xs.foldl fmin (ofF32 (leAt b 132 4))
  if stepEnd then
    let s := s.palPut e (at0 + 8 * histHead b) (toLe 4 (toF32 hi) ++ toLe 4 (toF32 lo))
    s.palPut e (at0 + 128) (zeros 8 ++ toLe 1 ((histHead b + 1) % 16) ++ toLe 1 (min (histFilled b + 1) 16))
  else s.palPut e (at0 + 128) (toLe 4 (toF32 hi) ++ toLe 4 (toF32 lo))

/-- The body of CONVERT in FALLBACK mode. -/
def State.convertFallback (s : State) (c e w : Nat) : State × BodyEnd :=
  let h := fld w 383 352
  s.withEncode c e w true [⟨false, h, 256⟩] (fun z s =>
    let b := s.palBytes e h 256
    let xs := s.cvRange e w (match z with | some z => z.list | none => [])
    let s := s.encodeRows c e w (histScale (cvDst w) (fbN w) b) z
    (s.putHistory e h b xs (bit w 140), .done))

/-- CONVERT_FALLBACK (R118). -/
def execConvertFallback (e q : Nat) (s : State) : Result :=
  .next (s.runCommand e q (fun w => cOp w == 0x06 && cvEnc w && cvMode w == 1) (fun c w s => s.convertFallback c e w))

/-! ### FIXED and decoding (R119, R121) -/

/-- fixed_scale rounded up to BF16 (R115, R119). -/
def fixedScale (w : Nat) : Nat :=
  match ofF32 (fld w 415 384) with
  | .fin _ m x => let (n, d) := magFrac m x; roundUpBf16 n d
  | _ => 0

/-- CONVERT_FIXED (R119). -/
def execConvertFixed (e q : Nat) (s : State) : Result :=
  .next (s.runCommand e q (fun w => cOp w == 0x06 && cvEnc w && cvMode w == 2) (fun c w s =>
    s.withEncode c e w true [] (fun z s => (s.encodeRows c e w (.fixed (fixedScale w) (fld w 423 416)) z, .done))))

/-- Decoded values of a row. -/
def State.decodeValues (s : State) (e w : Nat) (block : Bool) (r : Nat) : List FV :=
  if block then
    ((List.range (ceilDiv (cvLen w) 32)).flatMap (fun b =>
      let k := s.blockAt e (bit w 138) (cvSrc w) (cvSrcAt w r + 8 * b)
      k.codes.map (fun (x : Nat) => decBlock (cvSrc w) x k.scale k.zp))).take (cvLen w)
  else s.floatRow e (bit w 138) (cvSrc w) (cvSrcAt w r) (cvLen w)

/-- The body of a decoding CONVERT (R103, R121). -/
def State.convertDecode (s : State) (c e w : Nat) : State × BodyEnd :=
  let blk := cvBlock w
  let rows := List.range (cvRows w)
  let src := rows.flatMap (fun r => layoutRow blk (bit w 138) (cvSrc w) (cvSrcAt w r) (cvLen w))
  s.withRanges c e src (rowRanges (bit w 139) (fld w 287 256) (fld w 351 320) (plainLen (cvDst w) (cvLen w)) (cvRows w)) (fun s =>
    (rows.foldl (fun (s1 : State) r =>
      let (b, t) := encRow (cvDst w) ((s.decodeValues e w blk r).map Lane.f)
      (s1.spPut e (bit w 139) (cvDstAt w r) b).countSat c t) s, .done))

/-- CONVERT_DECODE (R121). -/
def execConvertDecode (e q : Nat) (s : State) : Result :=
  .next (s.runCommand e q (fun w => cOp w == 0x06 && !cvEnc w) (fun c w s => s.convertDecode c e w))

end Sys2Proof.Machine
end

