-- ==== Sys2Proof/Machine/Dma.lean ====
section
/-! DEFINITION. Machine/Dma.lean: DMA descriptors and the engines that carry them out (R31, R44 to R54, R67, R417,
R418). -/

namespace Sys2Proof.Machine

/-- Fields of a descriptor (R46). -/
def dOp (d : Nat) : Nat := fld d 3 0
/-- src_space -/
def dSrcSp (d : Nat) : Nat := fld d 7 4
/-- dst_space -/
def dDstSp (d : Nat) : Nat := fld d 11 8
/-- stream_id -/
def dStream (d : Nat) : Nat := fld d 23 16
/-- post_enable -/
def dPost (d : Nat) : Bool := bit d 24
/-- fence -/
def dFence (d : Nat) : Bool := bit d 25
/-- post_tally -/
def dTally (d : Nat) : Nat := fld d 45 32
/-- post_count -/
def dCount (d : Nat) : Nat := fld d 63 48
/-- src_addr -/
def dSrc (d : Nat) : Nat := fld d 127 64
/-- dst_addr -/
def dDst (d : Nat) : Nat := fld d 191 128
/-- length_x -/
def dLen (d : Nat) : Nat := fld d 223 192
/-- count_y -/
def dY (d : Nat) : Nat := fld d 239 224
/-- count_z -/
def dZ (d : Nat) : Nat := fld d 255 240

/-- Strides of the source, (0, 0) where the opcode has none. -/
def dSrcStr (d : Nat) : Nat × Nat := if dOp d = 1 then (fld d 287 256, fld d 319 288) else (0, 0)
/-- Strides of the destination. -/
def dDstStr (d : Nat) : Nat × Nat := if dOp d = 0 then (0, 0) else (fld d 351 320, fld d 383 352)

/-- The rows of a descriptor: index, source address, destination address. -/
def dRows (d : Nat) : List (Nat × Nat × Nat) :=
  (List.range (dZ d)).flatMap (fun z => (List.range (dY d)).map (fun y =>
    (z * dY d + y, dSrc d + (dSrcStr d).1 * y + (dSrcStr d).2 * z, dDst d + (dDstStr d).1 * y + (dDstStr d).2 * z)))

/-- A link space: 4 EAST, 5 WEST. -/
def isLink (sp : Nat) : Bool := sp == 4 || sp == 5

/-- Bits of the address form of a space (R47, R417). -/
def spaceForm (sp : Nat) (dst : Bool) (a : Nat) : Bool :=
  match sp with
  | 0 => a < 2 ^ 26
  | 1 => a < 2 ^ 25
  | 2 => a < 2 ^ 36
  | 3 => true
  | _ => onlyBits a (if dst then [(23, 20)] else [(24, 12)]) && inR (fld a 23 20) 2 15

/-- Alignment of a space (R47). -/
def spaceAlign (sp : Nat) : Nat := if sp ≤ 1 then 8 else if isLink sp then 4096 else 1

/-- The checks of R46 to R48 that the descriptor itself decides, with the partition check of post_tally (R35). -/
def descOk (inPart : Nat → Bool) (d : Nat) : Bool :=
  let copy := dOp d == 0
  let fill := dOp d == 2
  let al := fun sp v => mult v (spaceAlign sp)
  onlyBits d [(11, 0), (25, 16), (45, 32), (447, 48)] && dOp d ≤ 2 && dDstSp d ≤ 5 && dSrcSp d ≤ 5 &&
  (!fill || (dSrcSp d == 0 && dSrc d == 0)) && 1 ≤ dLen d && 1 ≤ dY d && 1 ≤ dZ d &&
  (!copy || (dY d == 1 && dZ d == 1)) && (fill || fld d 447 384 == 0) &&
  (fill || (spaceForm (dSrcSp d) false (dSrc d) && al (dSrcSp d) (dSrc d) && al (dSrcSp d) (dLen d) &&
    al (dSrcSp d) (dSrcStr d).1 && al (dSrcSp d) (dSrcStr d).2)) &&
  spaceForm (dDstSp d) true (dDst d) && al (dDstSp d) (dDst d) && al (dDstSp d) (dLen d) &&
  al (dDstSp d) (dDstStr d).1 && al (dDstSp d) (dDstStr d).2 &&
  (if (isLink (dSrcSp d) && !fill) || isLink (dDstSp d) then copy && dLen d ≤ 2 ^ 20 else true) &&
  (!dPost d || inPart (dTally d))

/-- A row of a descriptor lies in memory that the context owns (R47, R417). -/
def State.dmaOwns (s : State) (c : Nat) (sp a n : Nat) (write : Bool) : Bool :=
  match s.ctx? c with
  | none => false
  | some x =>
    match sp with
    | 0 =>
      let e := a / 2 ^ 20
      (match x.part with | some p => p.easels.contains e | none => false) && a % 2 ^ 20 + n ≤ palUsable s.fab e
    | 1 =>
      let t := a / 2 ^ 22
      let (b, k) := x.region t
      b ≤ a % 2 ^ 22 && a % 2 ^ 22 + n ≤ b + k
    | 2 => a + n ≤ 2 ^ 36 && s.lpOwned c a n
    | 3 => x.windows.any (fun w => w.2.base ≤ a && a + n ≤ w.2.base + w.2.length && (!write || w.2.writable))
    | _ =>
      match s.jobOn (sp - 4) (fld a 23 20) with
      | none => false
      | some j => j.ctx == c && j.confirmed && (write || (match s.ringBuf j (fld a 24 24) with
          | some b => 4096 * fld a 19 12 + n ≤ b.2.2
          | none => false))

/-- Every row of a descriptor is owned. -/
def State.dmaRowsOk (s : State) (c d : Nat) : Bool :=
  (dRows d).all (fun r =>
    (dOp d == 2 || s.dmaOwns c (dSrcSp d) r.2.1 (dLen d) false) && s.dmaOwns c (dDstSp d) r.2.2 (dLen d) true)

/-- Space and address that hold a link's receive buffer: the context's canvas (R418). -/
def State.dmaPlace (s : State) (sp a : Nat) : Nat × Nat :=
  if isLink sp then
    match s.jobOn (sp - 4) (fld a 23 20) with
    | none => (6, 0)
    | some j =>
      match s.ringBuf j (fld a 24 24) with
      | some b => (1, b.1 * 2 ^ 22 + b.2.1 + 4096 * fld a 19 12)
      | none => (6, 0)
  else (sp, a)

/-- Read bytes of a space; none where an uncorrectable error stops the read (R50). -/
def State.dmaRead (s : State) (c agent stream sp a n : Nat) : State × Option Bytes :=
  match s.dmaPlace sp a with
  | (0, a) =>
    let (s, ok) := s.readRanges .palette (a / 2 ^ 20) (some c) [(a % 2 ^ 20, n)]
    (s, if ok then some (memBytes s.fab.palette a n) else none)
  | (1, a) =>
    let (s, ok) := s.readRanges .canvas (a / 2 ^ 22) (some c) [(a % 2 ^ 22, n)]
    (s, if ok then some (memBytes s.fab.canvas a n) else none)
  | (2, a) => s.lpRead agent stream (some c) a n
  | (3, a) => (s, some (s.hostBytes a n))
  | _ => (s, none)

/-- Write bytes of a space; a word of LPDDR5 that cannot be corrected stops the write. -/
def State.dmaWrite (s : State) (c agent stream sp a : Nat) (b : Bytes) : State :=
  match sp with
  | 0 => s.palPut (a / 2 ^ 20) (a % 2 ^ 20) b
  | 1 => s.canPut (a / 2 ^ 22) (a % 2 ^ 22) b
  | 2 => (s.lpWrite agent stream (some c) a b).1
  | 3 => s.hostPut a b
  | _ => s

/-- A destination word of a transfer: its place in the order of free values, source address, destination address,
bytes. -/
structure Chunk where
  idx : Nat
  src : Nat
  dst : Nat
  len : Nat
  deriving DecidableEq, Repr

/-- Words that a row of `n` bytes may touch. -/
def rowWords (n : Nat) : Nat := (n + 7) / 8 + 1

/-- The aligned 8-byte words of a descriptor's destination, in order (R28, R31). -/
def dChunks (d : Nat) : List Chunk :=
  let n := dLen d
  (dRows d).flatMap (fun r => (List.range (rowWords n)).filterMap (fun k =>
    let lo := max r.2.2 (8 * (r.2.2 / 8 + k))
    let hi := min (r.2.2 + n) (8 * (r.2.2 / 8 + k + 1))
    if lo < hi then some ⟨r.1 * rowWords n + k, r.2.1 + (lo - r.2.2), lo, hi - lo⟩ else none))

/-- Free values that a descriptor's movement takes. -/
def dFree (d : Nat) : Nat := dZ d * dY d * rowWords (dLen d)

/-- The destination word of a chunk overlaps the source of its descriptor, where it is read: that of a LINK source is a
receive buffer in a canvas (R49, R418). -/
def State.chunkOverlap (s : State) (d : Nat) (k : Chunk) : Bool :=
  dOp d != 2 && (dRows d).any (fun r =>
    let p := s.dmaPlace (dSrcSp d) r.2.1
    p.1 == dDstSp d && overlaps p.2 (dLen d) (8 * (k.dst / 8)) 8)

/-- The bytes of FILL at an address (R46). -/
def fillBytes (d a n : Nat) : Bytes := (List.range n).map (fun i => BitVec.ofNat 8 (fld d 447 384 >>> (8 * ((a + i) % 8))))

/-- Move one word; false where its source cannot be read. -/
def State.moveChunk (s : State) (c agent d : Nat) (k : Chunk) : State × Bool :=
  if dOp d = 2 then (s.dmaWrite c agent (dStream d) (dDstSp d) k.dst (fillBytes d k.dst k.len), true)
  else
    match s.dmaRead c agent (dStream d) (dSrcSp d) k.src k.len with
    | (s, some b) => (s.dmaWrite c agent (dStream d) (dDstSp d) k.dst b, true)
    | (s, none) => (s, false)

/-- Write a word with unspecified content (R49); false where its source cannot be read (R50). -/
def State.moveFree (s : State) (c agent d : Nat) (k : Chunk) : State × Bool :=
  match s.dmaRead c agent (dStream d) (dSrcSp d) k.src k.len with
  | (s, some _) =>
    let (v, s) := s.freeNat
    (s.dmaWrite c agent (dStream d) (dDstSp d) k.dst (toLe k.len v), true)
  | (s, none) => (s, false)

/-- Move the words of a job whose free bit is `early`: some move when the job starts and the rest before it completes
(R31; log 45). Overlapping words are written last, at completion, with unspecified content, so that every other word is
moved from its source as it was (R49). False where a source word cannot be read. -/
def State.moveWords (s : State) (c agent d free0 : Nat) (early : Bool) : State × Bool :=
  let mine := fun (k : Chunk) => !s.chunkOverlap d k && Config.freeBit (free0 + k.idx) == early
  let r := ((dChunks d).filter mine).foldl (fun (x : State × Bool) k => if x.2 then x.1.moveChunk c agent d k else x) (s, true)
  if early then r
  else ((dChunks d).filter (s.chunkOverlap d)).foldl (fun (x : State × Bool) k => if x.2 then x.1.moveFree c agent d k else x) r

/-! ### Acceptance (R44, R67) -/

/-- Descriptors that an engine has accepted. -/
def State.jobs (s : State) (g : Nat) : List DmaJob := tabGet [] s.fab.dma g

/-- Replace the descriptors of an engine. -/
def State.setJobs (s : State) (g : Nat) (l : List DmaJob) : State := s.setFab { s.fab with dma := tabSet [] s.fab.dma g l }

/-- The body of DMA: the engine reads the descriptor, checks it, and accepts it (R46, R47, R67). -/
def State.dmaBody (s : State) (c e q w : Nat) : State × BodyEnd :=
  let a := fld w 159 128
  s.withRanges c e [⟨false, a, 64⟩] [] (fun s =>
    let d := leNat (s.palBytes e a 64)
    if !descOk (s.tallyIn c) d then (s, .format)
    else if !s.dmaRowsOk c d then (s, .fault 0x04)
    else (s.setJobs (e / 8) (s.jobs (e / 8) ++ [{ ctx := c, e := e, q := q, desc := d }]), .done))

/-- DMA (R67). -/
def execDma (e q : Nat) (s : State) : Result :=
  .next (s.runCommand e q (selOp 0x12) (fun c w s => s.dmaBody c e q w))

/-! ### Tags (R51, R52) -/

/-- Pool of a space that transactions go to: 0 LPDDR5, 1 PCIe, 2 links; 3 none (palettes and canvases). -/
def spacePool (sp : Nat) : Nat := if sp = 2 then 0 else if sp = 3 then 1 else if isLink sp then 2 else 3

/-- Component p of a triple of pools. -/
def poolOf (t : Nat × Nat × Nat) (p : Nat) : Nat := if p = 0 then t.1 else if p = 1 then t.2.1 else if p = 2 then t.2.2 else 0

/-- Change a component. -/
def setPool (t : Nat × Nat × Nat) (p v : Nat) : Nat × Nat × Nat :=
  if p = 0 then (v, t.2.1, t.2.2) else if p = 1 then (t.1, v, t.2.2) else if p = 2 then (t.1, t.2.1, v) else t

/-- Tags of a pool (R51). -/
def allTags (p : Nat) : Nat := if p = 0 then 4096 else 2048

/-- Tags of a pool reserved for the fixed-function units and the studio controller (R51). Each of their transactions begins
and ends within the command that makes it, so that between commands all of these tags are free (log 116). -/
def fixedTags (p : Nat) : Nat := if p = 0 then 512 else if p = 1 then 256 else 0

/-- Tags divided among contexts (R51). -/
def poolTags (p : Nat) : Nat := allTags p - fixedTags p

/-- Tags of one stretcher link (R51). -/
def linkTags : Nat := 1024

/-- Tags that the jobs of contexts that meet `f` hold. -/
def State.tagsHeld (s : State) (p : Nat) (f : Nat → Bool) : Nat :=
  sumOf (s.fab.dma.flatMap (fun g => (g.2.filter (fun j => f j.ctx)).map (fun j => poolOf j.tags p)))

/-- Tags reserved for the real-time contexts that hold partitions. -/
def State.rtQuota (s : State) (p : Nat) : Nat :=
  sumOf (s.ctxs.map (fun c => if c.2.realTime then (match c.2.part with | some q => poolOf q.tags p | none => 0) else 0))

/-- Free tags of a context's quota, or of the best-effort share (R52), as far as the pool has any (R51). -/
def State.tagsFree (s : State) (c p : Nat) : Nat :=
  match s.ctx? c with
  | none => 0
  | some x =>
    min (poolTags p - s.tagsHeld p (fun _ => true))
      (if x.realTime then (match x.part with | some q => poolOf q.tags p - s.tagsHeld p (· == c) | none => 0)
      else poolTags p - s.rtQuota p - s.tagsHeld p (fun k => !s.isRt k))

/-- Transactions of a descriptor: at most 256 bytes each. -/
def dTransactions (d : Nat) : Nat := dZ d * dY d * ceilDiv (dLen d) 256

/-- Pools that a descriptor's spaces use; a source in a receive buffer is read from the canvas (R418), which takes none. -/
def dPools (d : Nat) : List Nat :=
  let a := spacePool (dDstSp d)
  let b := if dOp d = 2 || isLink (dSrcSp d) then 3 else spacePool (dSrcSp d)
  (if a = b then [a] else [a, b]).filter (· < 3)

/-- Tags of a link that transactions in flight of contexts that meet `f` hold (R51). -/
def State.linkHeld (s : State) (sp : Nat) (f : Nat → Bool) : Nat :=
  sumOf (s.fab.dma.flatMap (fun g => (g.2.filter (fun j => dDstSp j.desc == sp && f j.ctx)).map (fun j => j.tags.2.2)))

/-- Tags of a link that a context may take: of those that are free, a best-effort context leaves what the real-time quotas of
the pool may need on this link (R51, R52, log 43). -/
def State.linkFree (s : State) (c sp : Nat) : Nat :=
  let free := linkTags - s.linkHeld sp (fun _ => true)
  if s.isRt c then free else min free (linkTags - min linkTags (s.rtQuota 2) - s.linkHeld sp (fun k => !s.isRt k))

/-- The tags a starting job takes: in each pool as many as it has transactions, up to the free ones, and of a link up to
that link's. -/
def State.takeTags (s : State) (c d : Nat) : Nat × Nat × Nat :=
  (dPools d).foldl (fun t p =>
    let n := min (dTransactions d) (s.tagsFree c p)
    setPool t p (if p = 2 then min n (s.linkFree c (dDstSp d)) else n)) (0, 0, 0)

/-- A descriptor reads or writes host memory. -/
def usesHost (d : Nat) : Bool := dDstSp d == 3 || (dOp d != 2 && dSrcSp d == 3)

/-- The requests that a descriptor needs can be issued: none to host memory while Bus Master Enable is 0 or PF0 is in D3hot
(R365, R366). -/
def State.mayMove (s : State) (d : Nat) : Bool := !usesHost d || s.busMaster 0

/-- TAG_RETURN (R52): a transaction of a context ends, and its tag returns. -/
def execTagReturn (pool ctx : Nat) (s : State) : Result :=
  .next (if !s.works then s
    else
      let dec := fun (l : List DmaJob) =>
        match l.findIdx? (fun j => j.ctx == ctx && 0 < poolOf j.tags pool) with
        | some i => listMod l i (fun j => { j with tags := setPool j.tags pool (poolOf j.tags pool - 1) })
        | none => l
      match s.fab.dma.find? (fun g => g.2.any (fun j => j.ctx == ctx && 0 < poolOf j.tags pool)) with
      | some g => s.setJobs g.1 (dec g.2)
      | none => s)

/-! ### Start and completion (R45, R48 to R50, R418) -/

/-- May descriptor i of an engine start (R45)? Descriptors of one queue start in order; a fence waits for the earlier
ones of its queue and stream. -/
def mayStart (l : List DmaJob) (i : Nat) (j : DmaJob) : Bool :=
  let before := (l.take i).filter (fun k => k.e == j.e && k.q == j.q)
  !j.started && before.all (fun k => k.started) &&
  (!dFence j.desc || before.all (fun k => k.failed || dStream k.desc != dStream j.desc))

/-- Start a job whose destination is a link (R417, R418): it takes a credit and the block leaves. -/
def State.startLink (s : State) (g i : Nat) (j : DmaJob) (t : Nat × Nat × Nat) : State :=
  let l := dDstSp j.desc - 4
  let ch := fld (dDst j.desc) 23 20
  let k := s.link l
  if !k.up || k.retraining || 2 ≤ tabGet 0 k.used ch then s
  else
    match s.jobOn l ch with
    | none => s
    | some rj =>
      if !rj.confirmed || rj.dead then s
      else if rj.maxBlock < dLen j.desc then
        (s.setJobs g (listMod (s.jobs g) i (fun j => { j with started := true, failed := true }))).contained j.ctx 0x09
      else
        match s.dmaRead j.ctx g (dStream j.desc) (dSrcSp j.desc) (dSrc j.desc) (dLen j.desc) with
        | (s, none) => s.setJobs g (listMod (s.jobs g) i (fun j => { j with started := true, failed := true }))
        | (s, some b) =>
          let s := s.setLink l { k with used := tabMod 0 k.used ch (· + 1) }
          let s := s.setJobs g (listMod (s.jobs g) i (fun j => { j with started := true, tags := t }))
          s.emit (.ringBlock l ch b)

/-- Start descriptor i of an engine, if its opcode is `op` and it may start. An agent without a free tag stalls (R52). -/
def State.startJob (s : State) (g i op : Nat) : State :=
  match (s.jobs g)[i]? with
  | none => s
  | some j =>
    let t := s.takeTags j.ctx j.desc
    if !s.works || !s.mayMove j.desc || dOp j.desc != op || !mayStart (s.jobs g) i j || (dPools j.desc).any (fun p => poolOf t p == 0) then s
    else
      let s := s.leaveIdle
      if isLink (dDstSp j.desc) then s.startLink g i j t
      else
        let f := s.free
        let s := s.setFree (f + dFree j.desc)
        let (s, ok) := s.moveWords j.ctx g j.desc f true
        s.setJobs g (listMod (s.jobs g) i (fun j => { j with started := true, free0 := f, failed := !ok, tags := t }))

/-- COPY (R46). -/
def execCopy (engine i : Nat) (s : State) : Result := .next (s.startJob engine i 0)

/-- COPY_3D (R46). -/
def execCopy3d (engine i : Nat) (s : State) : Result := .next (s.startJob engine i 1)

/-- FILL (R46). -/
def execFill (engine i : Nat) (s : State) : Result := .next (s.startJob engine i 2)

/-- Tally post of a completed descriptor: discarded for a context that is being torn down (R331 step 3). -/
def State.dmaPost (s : State) (c d : Nat) : State :=
  if dPost d && s.ctxState c == .running && s.tallyIn c (dTally d) then s.tallyAdd (dTally d) (dCount d) else s

/-- A copy out of a receive buffer has read its block to the end (R202; log 44). -/
def State.linkRead (s : State) (d : Nat) : State :=
  if dOp d != 2 && isLink (dSrcSp d) then
    s.ringSent (dSrcSp d - 4) (fld (dSrc d) 23 20) (fld (dSrc d) 24 24) (dDstSp d == 4)
  else s

/-- DMA_DESCRIPTOR_COMPLETE (R45, R50): every write has been accepted, and the engine posts. A descriptor whose source
read met an uncorrectable error ends without a post. -/
def execDmaDescriptorComplete (engine i : Nat) (s : State) : Result :=
  .next (match (s.jobs engine)[i]? with
    | none => s
    | some j =>
      if !s.works || !j.started || !s.mayMove j.desc then s
      else
        let (s, ok) := if j.failed then (s, false)
          else if isLink (dDstSp j.desc) then (s, true)
          else s.moveWords j.ctx engine j.desc j.free0 false
        let s := s.setJobs engine ((s.jobs engine).eraseIdx i)
        if ok then ((s.linkRead j.desc).dmaPost j.ctx j.desc).settleAll else s)

end Sys2Proof.Machine
end

