-- ==== Sys2Proof/Machine/Image.lean ====
section
/-! DEFINITION. Machine/Image.lean: reading and checking a schedule image (R70, R117, R124, R146, R175, R179, R180, R189,
R304, R307 to R312, R326, R328). -/

namespace Sys2Proof.Machine

/-- A part directory entry (R307). -/
structure PartDir where
  kind : Nat
  variant : Nat
  count : Nat
  offset : Nat
  length : Nat
  deriving DecidableEq, Repr

/-- Header of an image. -/
def imHdr (b : Bytes) : Nat := leAt b 0 128
/-- part_count -/
def imParts (b : Bytes) : Nat := fld (imHdr b) 54 48
/-- variant_count -/
def imVariants (b : Bytes) : Nat := fld (imHdr b) 59 56

/-- The part directory. -/
def imDir (b : Bytes) : List PartDir :=
  (List.range (imParts b)).map (fun i =>
    let e := leAt b (128 + 32 * i) 32
    { kind := fld e 7 0, variant := fld e 15 8, count := fld e 63 32, offset := fld e 127 64, length := fld e 191 128 })

/-- A shared part kind (R308). -/
def sharedKind (k : Nat) : Bool := k == 1 || k == 2 || k == 3 || k == 15

/-- Entry size of a part kind; the KV layout and the text profile have their own lengths. -/
def entrySize (k : Nat) : Nat :=
  [0, 128, 0, 0, 512, 32, 4, 8, 16, 320, 4, 64, 64, 32, 32, 16][k]?.getD 0

/-- No two parts overlap. -/
def partsApart : List PartDir → Bool
  | [] => true
  | d :: r => r.all (fun x => !overlaps d.offset d.length x.offset x.length) && partsApart r

/-- The directory (R307, R308). -/
def dirOk (b : Bytes) : Bool :=
  let ds := imDir b
  let n := 128 + 32 * imParts b
  n ≤ b.length && (List.range (imParts b)).all (fun i => onlyBits (leAt b (128 + 32 * i) 32) [(15, 0), (191, 32)]) &&
  ds.all (fun d =>
    inR d.kind 1 15 && (if sharedKind d.kind then d.variant == 0xFF else decide (d.variant < imVariants b)) &&
    mult d.offset 64 && n ≤ d.offset && d.offset + d.length ≤ b.length &&
    (d.kind == 2 || d.kind == 3 || d.length == d.count * entrySize d.kind) &&
    countIf (fun (x : PartDir) => x.kind == d.kind && x.variant == d.variant) ds == 1) && partsApart ds

/-- A part by kind and variant. -/
def partOf (b : Bytes) (kind variant : Nat) : Option PartDir :=
  (imDir b).find? (fun d => d.kind == kind && (sharedKind kind || d.variant == variant))

/-- The bytes of a part, none where it is absent. -/
def partBytes (b : Bytes) (kind variant : Nat) : Bytes :=
  match partOf b kind variant with
  | some d => slice b d.offset d.length
  | none => []

/-- Entries of a part, as numbers. -/
def partEntries (b : Bytes) (kind variant : Nat) : List Nat :=
  match partOf b kind variant with
  | some d => (List.range d.count).map (fun i => leAt b (d.offset + entrySize kind * i) (entrySize kind))
  | none => []

/-! ### Parts -/

/-- A certificate entry (R304). -/
def certOf (e : Nat) : CertEntry :=
  { e := fld e 3 0, a := fld e 6 4 + 1, kMin := fld e 11 8, eccStalls := fld e 31 16, wEnc := fld e 63 32,
    wStep := fld e 95 64, sMax := fld e 111 96, ringWait := fld e 159 128, ringDevices := fld e 163 160,
    tagsLp := fld e 203 192, tagsPcie := fld e 218 208, tagsLink := fld e 235 224, canvasKib := fld e 271 256,
    longestCmd := fld e 319 288, saveBytes := fld e 351 320, maskUse := fld e 383 352 }

/-- The field rules of a certificate entry (R304). -/
def certEntryOk (rt : Bool) (w : Nat) : Bool :=
  let c := certOf w
  onlyBits w [(6, 0), (11, 8), (111, 16), (163, 128), (203, 192), (218, 208), (235, 224), (271, 256), (383, 288)] &&
  inR c.e 1 8 && inR c.kMin 6 14 && 1 ≤ c.sMax && (c.ringDevices == 0 || inR c.ringDevices 2 8) &&
  (c.ringDevices != 0 || c.ringWait == 0) && c.tagsLp ≤ 3584 && c.tagsPcie ≤ 1792 && c.tagsLink ≤ 2048 &&
  mult c.canvasKib 64 && c.canvasKib ≤ 4096 && (c.a == 1 || 2 ≤ c.e) &&
  (if rt then c.saveBytes == 0 else c.longestCmd ≤ 18000 && c.saveBytes ≤ 14680064)

/-- No two entries name one shape. -/
def shapesApart : List CertEntry → Bool
  | [] => true
  | c :: r => r.all (fun x => x.e != c.e || x.a != c.a) && shapesApart r

/-- A palette map slot (R70, R310). -/
def palSlot (w : Nat) : Option PalRegion :=
  if w = 0 then none
  else some { kind := fld w 3 0, offset := fld w 63 32, size := fld w 95 64, digest := toLe 32 (fld w 383 128) }

/-- The map of a position. -/
def palMap (b : Bytes) : List (Option PalRegion) := (List.range 8).map (fun i => palSlot (leAt b (64 * i) 64))

/-- Regions of a map. -/
def mapRegions (m : List (Option PalRegion)) : List PalRegion := m.filterMap id

/-- No two regions overlap. -/
def regionsApart : List PalRegion → Bool
  | [] => true
  | r :: rs => rs.all (fun x => !overlaps r.offset r.size x.offset x.size) && regionsApart rs

/-- R70. -/
def mapOk (b : Bytes) : Bool :=
  let rs := mapRegions (palMap b)
  (List.range 8).all (fun i => onlyBits (leAt b (64 * i) 64) [(3, 0), (95, 32), (383, 128)]) && !rs.isEmpty &&
  rs.all (fun r => r.kind ≤ 3 && mult r.offset 4096 && mult r.size 4096 && 4096 ≤ r.size && r.offset + r.size ≤ 2 ^ 20 &&
    (r.kind != 1 || r.size ≤ 524288) && (r.kind == 2 || leNat r.digest == 0)) &&
  countIf (fun (r : PalRegion) => r.kind == 0) rs == 1 && countIf (fun (r : PalRegion) => r.kind == 1) rs ≤ 1 &&
  regionsApart rs

/-- A region of a variant by position and index. -/
def Variant.region (v : Variant) (pos i : Nat) : Option PalRegion := ((v.palette[pos]?).bind (fun m => m[i]?)).join

/-- A REGION_INIT entry (R310). -/
def initOf (w : Nat) : RegionInit :=
  { pos := fld w 7 0, region := fld w 10 8, source := fld w 13 12, regionOffset := fld w 63 32,
    sourceOffset := fld w 127 64, length := fld w 159 128 }

/-- Rules of a REGION_INIT entry; `src` gives the length of a WEIGHT_SET section. -/
def initOk (v : Variant) (imLen : Nat) (src : Bytes → Option Nat) (w : Nat) : Bool :=
  let n := initOf w
  onlyBits w [(10, 0), (13, 12), (159, 32)] && n.source ≤ 2 && mult n.regionOffset 64 && mult n.sourceOffset 64 &&
  mult n.length 64 && 64 ≤ n.length && (n.source != 2 || n.sourceOffset == 0) &&
  match v.region n.pos n.region with
  | none => false
  | some r =>
    n.regionOffset + n.length ≤ r.size && ((r.kind == 2) == (n.source == 1)) &&
    (match n.source with
     | 0 => n.sourceOffset + n.length ≤ imLen
     | 1 => (match src r.digest with | some k => n.sourceOffset + n.length ≤ k | none => false)
     | _ => true)

/-- An ENTRY_POINT entry (R311). -/
def entryOf (w : Nat) : EntryPoint := { event := fld w 3 0, pos := fld w 15 8, queue := fld w 19 16, start := fld w 63 32 }

/-- A RELOCATION entry (R311). -/
def relocOf (w : Nat) : Reloc :=
  { pos := fld w 7 0, region := fld w 10 8, kind := fld w 15 12, offset := fld w 63 32, bitLo := fld w 69 64, width := fld w 78 72 }

/-- Rules of a RELOCATION entry. -/
def relocOk (v : Variant) (w : Nat) : Bool :=
  let r := relocOf w
  onlyBits w [(10, 0), (15, 12), (69, 32), (78, 72)] && r.kind ≤ 5 && mult r.offset 8 && inR r.width 1 64 &&
  r.bitLo + r.width ≤ 64 && (match v.region r.pos r.region with | some x => r.offset + 8 ≤ x.size | none => false)

/-- A scale history seed is well-formed (R117). -/
def historyOk (b : Bytes) : Bool :=
  let n := histFilled b
  let h := histHead b
  let seeded := fun i => (List.range n).any (fun j => (h + 32 - (j + 1)) % 16 == i)
  let entry := fun i =>
    let (hi, lo) := histEntry b i
    fisFin hi && fisFin lo && !(fsign hi && !fisZero hi) && !(!fsign lo && !fisZero lo)
  n ≤ 16 && leAt b 128 8 == 0 && leAt b 136 1 < 16 && leAt b 137 1 < 32 && (slice b 138 118).all (· == 0) &&
  (List.range 16).all (fun i => if seeded i then entry i else leAt b (8 * i) 8 == 0)

/-- A FUSED_CHAIN entry names WORK buffers on every position and seeded histories (R146, R312). -/
def chainOk (v : Variant) (w : Nat) : Bool :=
  let pos := List.range v.palette.length
  onlyBits w [(7, 0), (51, 16), (319, 64)] && inR (fld w 3 0) 1 8 && inR (fld w 7 4) 2 9 &&
  (List.range 9).all (fun i => !bit w (19 + 4 * i)) &&
  (List.range (fld w 7 4)).all (fun i => pos.all (fun p =>
    match v.region p (fld w (18 + 4 * i) (16 + 4 * i)) with | some r => r.kind == 3 | none => false)) &&
  (List.range 8).all (fun l =>
    let o := fld w (95 + 32 * l) (64 + 32 * l)
    o == 0 || pos.all (fun p => v.histories.any (fun h => h.1 == p && h.2.1 == o && 1 ≤ histFilled h.2.2)))

/-- A GROUP entry (R312). -/
def groupOf (w : Nat) : AttnGroup :=
  { pos := fld w 15 8, queue := fld w 19 16, headFirst := fld w 37 32, hCount := fld w 42 40, fwdTemplate := fld w 95 64,
    finTemplate := fld w 127 96, kAlt := fld w 159 128, vAlt := fld w 191 160, emitOffset := fld w 223 192,
    emitBytes := fld w 255 224 }

/-- Attention sites: each SITE with its groups. -/
def sitesOf : Nat → List Nat → Option (List AttnSite)
  | 0, l => if l.isEmpty then some [] else none
  | n + 1, l =>
    match l with
    | [] => some []
    | w :: r =>
      let k := fld w 22 16
      let gs := r.take k
      let st : AttnSite :=
        { kvSite := fld w 13 8, maxTokens := fld w 48 32, maxQueries := fld w 80 64, lengthTable := fld w 127 96,
          maskSummary := fld w 159 128, maskBitmaps := fld w 191 160, groups := gs.map groupOf }
      if fld w 1 0 = 0 && gs.length == k && gs.all (fun g => fld g 1 0 == 1) then (sitesOf n (r.drop k)).map (st :: ·) else none

/-- Reserved bits of ATTENTION_SITE entries. -/
def siteBits (w : Nat) : Bool :=
  if fld w 1 0 = 0 then onlyBits w [(1, 0), (13, 8), (22, 16), (48, 32), (80, 64), (191, 96)]
  else onlyBits w [(1, 0), (19, 8), (37, 32), (42, 40), (255, 64)]

/-- Commands that the sequencer may emit for a group of a site in one step, END included (R169). -/
def siteCommands (st : AttnSite) (seqs : Nat) : Nat :=
  seqs * (ceilDiv st.maxQueries 128 * (ceilDiv st.maxTokens 256 + 1)) + 1

/-- Rules of a site and its groups; `seqs` is the sequences in flight. -/
def siteOk (v : Variant) (kv : Option Nat) (seqs : Nat) (st : AttnSite) : Bool :=
  inR st.groups.length 1 64 && inR st.maxTokens 1 131072 && inR st.maxQueries 1 131072 && mult st.lengthTable 64 &&
  (st.kvSite == 0x3F || (match kv with | some r => decide (st.kvSite < kvSites r) | none => false)) &&
  st.groups.all (fun g =>
    inR g.hCount 1 4 && mult g.emitOffset 64 && mult g.emitBytes 64 && 64 * siteCommands st seqs ≤ g.emitBytes &&
    (st.kvSite == 0x3F || (match kv with | some r => g.headFirst + g.hCount ≤ kvHeads r | none => false)) &&
    match v.palette[g.pos]? with
    | none => false
    | some m =>
      let inWork := fun o => (mapRegions m).any (fun r => r.kind == 3 && r.offset ≤ o && o + 64 ≤ r.offset + r.size)
      let cmd := (mapRegions m).find? (fun r => r.kind == 0)
      inWork g.fwdTemplate && inWork g.finTemplate &&
      (match cmd with | some r => g.emitOffset + g.emitBytes ≤ r.size | none => false))

/-- A STENCIL_SITE entry (R312). -/
def stencilOf (w : Nat) : StencilSite :=
  { commitPos := fld w 7 0, commitQueue := fld w 11 8, tallyPos := fld w 23 16, tallyLocal := fld w 31 24,
    maskUse := fld w 63 32, maskRing := fld w 95 64, commitList := fld w 127 96, maxSeq := fld w 137 128 }

/-- Rules of a STENCIL_SITE entry. -/
def stencilOk (n : Nat) (w : Nat) : Bool :=
  let t := stencilOf w
  onlyBits w [(11, 0), (137, 16)] && t.commitPos < n && t.tallyPos < n && mult t.maskRing 64 && mult t.commitList 64 &&
  inR t.maxSeq 1 512

/-- A RING entry (R312). -/
def ringOf (w : Nat) : RingEntry :=
  { atelier := fld w 3 0, barrier := bit w 4, tallyPos := fld w 15 8, tallyLocal := fld w 23 16, bufferOffset := fld w 63 32,
    bufferBytes := fld w 95 64 }

/-- Rules of a RING entry: both buffers lie in the canvas share. -/
def ringOk (c : CertEntry) (w : Nat) : Bool :=
  let r := ringOf w
  onlyBits w [(4, 0), (23, 8), (95, 32)] && r.atelier < c.a && r.tallyPos < c.e * c.a && mult r.bufferOffset 4096 &&
  mult r.bufferBytes 4096 && inR r.bufferBytes 4096 1048576 && r.bufferOffset + 2 * r.bufferBytes ≤ 1024 * c.canvasKib

/-- One variant of an image. -/
def variantOf (b : Bytes) (v : Nat) : Variant :=
  { palette := (List.range (match partOf b 4 v with | some d => d.count | none => 0)).map
      (fun i => palMap (slice (partBytes b 4 v) (512 * i) 512)),
    init := (partEntries b 5 v).map initOf,
    tallies := (partEntries b 6 v).map (fun w => (fld w 7 0, fld w 15 8, fld w 31 16)),
    entries := (partEntries b 7 v).map entryOf,
    relocs := (partEntries b 8 v).map relocOf,
    histories := (partEntries b 9 v).map (fun w => (fld w 7 0, fld w 63 32, toLe 256 (w / 2 ^ 512))),
    saveMarks := (partEntries b 10 v).map (fun w => (fld w 7 0, fld w 10 8)),
    chains := partEntries b 11 v,
    sites := (sitesOf ((partEntries b 12 v).length + 1) (partEntries b 12 v)).getD [],
    stencil := (partEntries b 13 v).map stencilOf,
    rings := (partEntries b 14 v).map ringOf }

/-- The KV layout part (R179). -/
def kvOf (b : Bytes) : Option KvLayout :=
  match partOf b 2 0 with
  | none => none
  | some d =>
    let x := partBytes b 2 0
    let r := leAt x 0 64
    some { record := r, sites := (List.range ((d.length - 64) / 8)).map (fun i => leAt x (64 + 8 * i) 8) }

/-- The text profile part (R309). -/
def textOf (b : Bytes) : Option TextProfile :=
  match partOf b 3 0 with
  | none => none
  | some d =>
    let x := partBytes b 3 0
    some { fieldCount := fld (leAt x 0 16) 6 0, fieldMaxBytes := fld (leAt x 0 16) 28 16,
           stops := (List.range ((d.length - 16) / 72)).map (fun i => slice x (16 + 72 * i) 72) }

/-- The image that a section's bytes hold. -/
def imageOf (b : Bytes) : Image :=
  { cls := fld (imHdr b) 41 40, vocab := toLe 32 (fld (imHdr b) 319 64), grammar := toLe 32 (fld (imHdr b) 575 320),
    cert := (partEntries b 1 0).map certOf, kv := kvOf b, text := textOf b,
    tileGeom := (partEntries b 15 0).head?, variants := (List.range (imVariants b)).map (variantOf b), bytes := b }

/-! ### Content of palettes as an image loads them -/

/-- The byte that REGION_INIT loads at an offset of a region (R310); `src` gives a WEIGHT_SET section. -/
def loadedByte (im : Bytes) (src : Bytes → Option Bytes) (v : Variant) (pos i o : Nat) : Byte :=
  match (v.init.filter (fun n => n.pos == pos && n.region == i && n.regionOffset ≤ o && o < n.regionOffset + n.length)).getLast? with
  | none => 0
  | some n =>
    match n.source with
    | 0 => im.getD (n.sourceOffset + (o - n.regionOffset)) 0
    | 1 => (match v.region pos i with
      | some r => ((src r.digest).getD []).getD (n.sourceOffset + (o - n.regionOffset)) 0
      | none => 0)
    | _ => 0

/-- The byte that a position's palette holds after loading. -/
def loadedPal (im : Bytes) (src : Bytes → Option Bytes) (v : Variant) (pos o : Nat) : Byte :=
  let m := v.palette[pos]?.getD []
  match (List.range 8).find? (fun i => match m[i]?.join with | some r => r.offset ≤ o && o < r.offset + r.size | none => false) with
  | none => 0
  | some i => (match m[i]?.join with | some r => loadedByte im src v pos i (o - r.offset) | none => 0)

/-- Bytes of a position's palette after loading. -/
def loadedBytes (im : Bytes) (src : Bytes → Option Bytes) (v : Variant) (pos o n : Nat) : Bytes :=
  (List.range n).map (fun i => loadedPal im src v pos (o + i))

/-- The command words of a position's COMMAND region. -/
def loadedCommands (im : Bytes) (src : Bytes → Option Bytes) (v : Variant) (pos : Nat) : List Nat :=
  match (mapRegions (v.palette[pos]?.getD [])).find? (fun r => r.kind == 0) with
  | none => []
  | some r => (List.range (r.size / 64)).map (fun i => leNat (loadedBytes im src v pos (r.offset + 64 * i) 64))

/-- A MATMUL or CONVERT word with an outlier list, well-formed but for the list's address: its address and channels. -/
def glazeRef (w : Nat) : Option (Nat × Nat) :=
  if cOp w = 0x01 && bit w 140 && matmulOk (w - fld w 421 416 * 2 ^ 416) then some (fld w 447 416, 32 * mmK w)
  else if cOp w = 0x06 && bit w 141 && convertOk (w - fld w 453 448 * 2 ^ 448) then some (fld w 479 448, cvLen w)
  else none

/-- The glaze operands that an image loads meet R124 to R126. No rule says how firmware finds a bundle's operands: they are
those that its COMMAND words name, in the palettes as the bundle loads them (log 146). -/
def glazesOk (im : Bytes) (src : Bytes → Option Bytes) (v : Variant) : Bool :=
  (List.range v.palette.length).all (fun p => ((loadedCommands im src v p).filterMap glazeRef).all (fun g =>
    let h := leNat (loadedBytes im src v p g.1 64)
    mult g.1 64 && glazeHdrOk h g.2 && glazeListOk (glazeN h) g.2 (loadedBytes im src v p (g.1 + 64) (glazeListLen (glazeN h)))))

/-- A palette range of a position lies in a region marked for saving. -/
def markedRange (v : Variant) (pos o n : Nat) : Bool :=
  v.saveMarks.any (fun m => m.1 == pos && (match v.region pos m.2 with
    | some r => r.offset ≤ o && o + n ≤ r.offset + r.size
    | none => false))

/-- Running states, statistics and gradient accumulators of an attention command: palette ranges that must survive
pre-emption (R152, R172, R175). `bwd` is the backward operand record that BACKWARD names. -/
def attnState (w : Nat) (bwd : Nat) : List Range :=
  let o := fun (a : Nat) => headRanges w false a (64 * fld w 463 448) (aRows w * aDim w * 4)
  let st := fun (a : Nat) => headRanges w false a 4096 (32 * aRows w)
  let kv := fun (a : Nat) => headRanges w false a (64 * fld bwd 143 128) (aKeys w * aDim w * 4)
  match aPhase w with
  | 0 | 1 => o (fld w 319 288) ++ st (fld w 351 320)
  | 2 => o (fld w 319 288) ++ st (fld w 351 320) ++ o (fld w 255 224) ++ st (fld w 287 256)
  | 3 => st (fld w 351 320)
  | _ => st (fld w 351 320) ++ o (fld bwd 63 32) ++ kv (fld bwd 95 64) ++ kv (fld bwd 127 96)

/-- An attention command's state at a position lies in regions marked for saving (R175). -/
def stateMarked (im : Bytes) (src : Bytes → Option Bytes) (v : Variant) (p w : Nat) : Bool :=
  (attnState w (leNat (loadedBytes im src v p (fld w 319 288) 64))).all (fun r => markedRange v p r.off r.len)

/-- A best-effort variant marks its scale histories and running states for saving (R130, R175). -/
def marksOk (im : Bytes) (src : Bytes → Option Bytes) (v : Variant) : Bool :=
  v.histories.all (fun h => markedRange v h.1 h.2.1 256) &&
  (List.range v.palette.length).all (fun p =>
    ((loadedCommands im src v p).filter (fun w => cOp w == 0x05)).all (stateMarked im src v p) &&
    ((loadedCommands im src v p).filter (fun w => cOp w == 0x06 && cvMode w == 1)).all (fun w =>
      markedRange v p (fld w 383 352) 256)) &&
  v.sites.all (fun st => st.groups.all (fun g =>
    stateMarked im src v g.pos (leNat (loadedBytes im src v g.pos g.fwdTemplate 64))))

/-- The ATTN_BLOCKs of a KV site, its FORWARD and FINALISE templates, have the layout's format (R179; log 136). -/
def kvFmtOk (im : Bytes) (src : Bytes → Option Bytes) (r : Nat) (v : Variant) : Bool :=
  v.sites.all (fun st => st.kvSite == 0x3F || st.groups.all (fun g =>
    fld (leNat (loadedBytes im src v g.pos g.fwdTemplate 64)) 135 132 == fld r 7 4 &&
    fld (leNat (loadedBytes im src v g.pos g.finTemplate 64)) 135 132 == fld r 7 4))

/-! ### Checks -/

/-- The KV layout record (R179, R180, R189). -/
def kvOk (im : Image) (k : KvLayout) : Bool :=
  let r := k.record
  let native := !kvLegacy r
  let mt := maxOf (im.variants.map (fun v => maxOf ((v.sites.filter (fun s => s.kvSite != 0x3F)).map AttnSite.maxTokens)))
  onlyBits r [(11, 0), (22, 16), (30, 24), (55, 32), (101, 64), (113, 104), (255, 116)] && fld r 3 0 ≤ 1 &&
  inR (fld r 7 4) 1 2 && inR (fld r 11 8) 1 8 && inR (kvSites r) 1 64 && inR (kvHeads r) 1 64 &&
  (native || (kvSlots r == 0 && kvListLen r == 0 && kvShare r == 0)) && (!native || 1 ≤ kvListLen r) &&
  fld r 99 96 ≤ 8 && kvShare r ≤ 2 && inR (kvMaxSeq r) 1 512 && fld r 127 116 ≤ 512 &&
  (kvShare r != 0 || kvSeed r == 0) && 2 * kvPlane r ≤ 2 ^ 20 &&
  k.sites.length == kvSites r && (!native || kvMaxSeq r * ceilDiv mt 256 + fld r 127 116 ≤ kvSlots r)

/-- The sum that save_bytes must cover (R326): accumulators, 4 KiB for each easel, marked regions, scale histories, ring
receive buffers, and dirty tail pairs; detokenizer, stencil and text state have no stated size (log 46). -/
def saveNeed (im : Image) (v : Variant) (c : CertEntry) : Nat :=
  let n := c.e * c.a
  let marks := sumOf (v.saveMarks.map (fun m => match v.region m.1 m.2 with | some r => r.size | none => 0))
  let loose := countIf (fun (h : Nat × Nat × Bytes) => !markedRange v h.1 h.2.1 256) v.histories
  let kv := match im.kv with | some k => kvUnits k.record * c.a * 2 * kvPlane k.record | none => 0
  n * (65536 + 4096) + marks + 256 * loose + sumOf (v.rings.map (fun r => 2 * r.bufferBytes)) + kv

/-- One variant (R308, R310 to R312). -/
def variantOk (b : Bytes) (src : Bytes → Option Bytes) (im : Image) (i : Nat) : Bool :=
  match im.variants[i]?, im.cert[i]? with
  | some v, some c =>
    let n := c.e * c.a
    let kv := im.kv.map KvLayout.record
    let seqs := match v.stencil.head?, kv with | some t, _ => t.maxSeq | none, some r => kvMaxSeq r | none, none => 1
    (partOf b 4 i).isSome && (partOf b 7 i).isSome && v.palette.length == n &&
    (List.range n).all (fun p => mapOk (slice (partBytes b 4 i) (512 * p) 512)) &&
    (partEntries b 5 i).all (initOk v b.length (fun d => (src d).map List.length)) &&
    v.tallies.all (fun t => t.1 < n) &&
    (partEntries b 7 i).all (fun w => onlyBits w [(3, 0), (19, 8), (63, 32)] && fld w 3 0 ≤ 2 && fld w 15 8 < n && mult (fld w 63 32) 64) &&
    (partEntries b 8 i).all (relocOk v) &&
    (partEntries b 9 i).all (fun w => onlyBits w [(7, 0), (63, 32), (2559, 512)] && fld w 7 0 < n && mult (fld w 63 32) 256 &&
      fld w 63 32 + 256 ≤ 2 ^ 20 && historyOk (toLe 256 (w / 2 ^ 512))) &&
    (partEntries b 10 i).all (fun w => onlyBits w [(10, 0)] && (v.region (fld w 7 0) (fld w 10 8)).isSome) &&
    (im.cls == 1 || (partOf b 10 i).isNone) &&
    v.chains.all (chainOk v) && (partEntries b 12 i).all siteBits &&
    (sitesOf ((partEntries b 12 i).length + 1) (partEntries b 12 i)).isSome && v.sites.all (siteOk v kv seqs) &&
    (partEntries b 13 i).all (stencilOk n) && (partEntries b 14 i).all (ringOk c) &&
    (if v.stencil.isEmpty then c.maskUse == 0
     else c.maskUse == (v.stencil.map StencilSite.maskUse).foldl min (2 ^ 32)) &&
    (c.wEnc == 0 || v.entries.any (fun x => x.event == 0)) && (c.wStep == 0 || v.entries.any (fun x => x.event == 1)) &&
    (im.cls == 0 || (saveNeed im v c ≤ c.saveBytes && marksOk b src v)) &&
    glazesOk b src v && (match kv with | some r => kvFmtOk b src r v | none => true)
  | _, _ => false

/-- An image with a TRAIN entry has one in every variant (R311; log 137). -/
def trainOk (im : Image) : Bool :=
  let has := fun (v : Variant) => v.entries.any (fun x => x.event == 2)
  !im.variants.any has || im.variants.all has

/-- The whole image, but for its digests (R304, R307 to R312). `rt` says that its context is real-time. -/
def imageFormatOk (b : Bytes) (src : Bytes → Option Bytes) (rt : Bool) : Bool :=
  let h := imHdr b
  let im := imageOf b
  let stencil := im.variants.any (fun v => !v.stencil.isEmpty)
  let seqs := (im.variants.flatMap (fun v => v.stencil.map StencilSite.maxSeq)) ++
    (match im.kv with | some k => if stencil then [kvMaxSeq k.record] else [] | none => [])
  128 ≤ b.length && onlyBits h [(41, 0), (54, 48), (59, 56), (575, 64)] && fld h 41 40 == (if rt then 0 else 1) &&
  inR (imParts b) 1 64 && inR (imVariants b) 1 8 && dirOk b && (partOf b 1 0).isSome &&
  im.cert.length == imVariants b && (partEntries b 1 0).all (certEntryOk rt) && shapesApart im.cert &&
  (List.range (imVariants b)).all (variantOk b src im) && trainOk im &&
  (im.kv.isSome || im.variants.all (fun v => v.sites.all (fun s => s.kvSite == 0x3F))) &&
  (match partOf b 2 0, im.kv with | some d, some k => d.length == 64 + 8 * kvSites k.record && kvOk im k | _, _ => true) &&
  (match partOf b 3 0, im.text with
   | some d, some t =>
     let w := leAt (partBytes b 3 0) 0 16
     onlyBits w [(6, 0), (28, 16), (36, 32)] && d.length == 16 + 72 * fld w 36 32 && profileOk t
   | _, _ => true) &&
  (!stencil || (im.text.isSome && leNat im.grammar != 0)) && (stencil || leNat im.grammar == 0) &&
  seqs.all (fun n => n == seqs.headD 0) &&
  (match im.tileGeom with
   | some t => onlyBits t [(38, 0)] && (partEntries b 15 0).length == 1 &&
      inR (fld t 15 0) 16 2048 && mult (fld t 15 0) 16 && inR (fld t 31 16) 16 2048 && mult (fld t 31 16) 16
   | none => (partOf b 15 0).isNone && im.variants.all (fun v => !v.entries.any (fun x => x.event == 0)))

/-- Canvas pool that does not fit the canvas share of a variant (R180). -/
def poolTooBig (im : Image) : Bool :=
  match im.kv with
  | some k => im.cert.any (fun c => decide (1024 * c.canvasKib < kvUnits k.record * 2 * kvPlane k.record))
  | none => false

/-- Status of a schedule image's own checks: OK, FORMAT, VERSION or NO_RESOURCE (R307, R180). -/
def imageStatus (b : Bytes) (src : Bytes → Option Bytes) (rt : Bool) : Nat :=
  if fld (imHdr b) 31 0 != 0x44535A4D then stFormat
  else if fld (imHdr b) 39 32 != 1 then stVersion
  else if !imageFormatOk b src rt then stFormat
  else if poolTooBig (imageOf b) then stNoResource
  else stOK

/-- Bytes of a context's own LPDDR5 that an image names: tables, rings and lists at their declared offsets, with the save
area and the fields that relocation makes addresses of (log 47). -/
def imageExtent (im : Image) : Nat :=
  let seqs := maxOf (im.variants.map (fun v => maxOf (v.stencil.map StencilSite.maxSeq)))
  let ofV := fun (v : Variant) =>
    maxOf (v.sites.flatMap (fun s => [s.lengthTable + 32 * 512, s.maskSummary + 2 ^ 20, s.maskBitmaps + 2 ^ 22]) ++
      v.stencil.flatMap (fun t => [t.maskRing + 2 * t.maxSeq * 1088, t.commitList + 4 * t.maxSeq]))
  65536 * ceilDiv (max seqs (maxOf (im.variants.map ofV))) 65536 + 2 ^ 24 + 65536 * ceilDiv (maxOf (im.cert.map CertEntry.saveBytes)) 65536

end Sys2Proof.Machine
end

