-- ==== Sys2Proof/Machine/Place.lean ====
section
/-! DEFINITION. Machine/Place.lean: placement, binding a variant to a partition, admission, leaving a partition, save and
resume (R39, R55, R305, R306, R310, R311, R313 to R315, R321, R322, R324 to R330). -/

namespace Sys2Proof.Machine

/-! ### The procedure of R321 -/

/-- A WEIGHT_SET section of a context. -/
def Ctx.weight (x : Ctx) (d : Bytes) : Bytes := ((x.weights.find? (fun w => w.1 == d)).map Prod.snd).getD []

/-- Easel `e` holds the region resident: equal digest, offset and size (R322). -/
def State.isResident (s : State) (e : Nat) (r : PalRegion) : Bool :=
  r.kind == 2 && s.sched.resident.any (fun y => y.easel == e && y.digest == r.digest && y.offset == r.offset && y.size == r.size)

/-- resident(x, p) of R321. -/
def State.residentBytes (s : State) (e : Nat) (m : List (Option PalRegion)) : Nat :=
  sumOf (((mapRegions m).filter (s.isResident e)).map PalRegion.size)

/-- Choices of `k` members of an ascending list, in ascending lexicographic order. -/
def chooseK : List Nat → Nat → List (List Nat)
  | _, 0 => [[]]
  | [], _ + 1 => []
  | x :: r, k + 1 => (chooseK r k).map (x :: ·) ++ chooseK r (k + 1)

/-- The first choice of greatest score. -/
def bestOf : List (Nat × List Nat) → Option (Nat × List Nat)
  | [] => none
  | x :: r => some (r.foldl (fun b y => if b.1 < y.1 then y else b) x)

/-- Best choice of `n` easels of atelier `a` for shape atelier `i` of a variant; `ok` tells an easel at a position. -/
def State.bestIn (s : State) (v : Variant) (ok : Nat → Nat → Bool) (n i a : Nat) : Option (Nat × List Nat) :=
  let scored := (chooseK ((List.range 8).map (8 * a + ·)) n).filterMap (fun ch =>
    let ps := (List.range n).zip ch
    if ps.all (fun p => ok p.2 (i * n + p.1)) then
      some (sumOf (ps.map (fun p => s.residentBytes p.2 (v.palette[i * n + p.1]?.getD []))), ch)
    else none)
  bestOf scored

/-- Easels of the best placement of a shape (R321). The score is a sum over ateliers, so the best choice of a set of
ateliers is the best of each. -/
def State.bestPlace (s : State) (v : Variant) (c : CertEntry) (ok : Nat → Nat → Bool) : Option (List Nat) :=
  let sets := chooseK (List.range 8) c.a
  let scored := sets.filterMap (fun as =>
    ((List.range c.a).zip as).foldl (fun (b : Option (Nat × List Nat)) x =>
      match b, s.bestIn v ok c.e x.1 x.2 with
      | some u, some w => some (u.1 + w.1, u.2 ++ w.2)
      | _, _ => none) (some (0, [])))
  (bestOf scored).map Prod.snd

/-! ### Canvas shares (R39) -/

/-- Regions of a canvas that contexts hold, but for those of the contexts in `drop`, and that admissions wait for. -/
def State.canvasTaken (s : State) (drop : List Nat) (a : Nat) : List (Nat × Nat) :=
  let mine := fun (p : Part) => (p.canvas.filter (fun r => r.1 == a)).map (fun r => (r.2.1, r.2.2))
  s.ctxs.flatMap (fun c => match c.2.part with | some p => if drop.contains c.1 then [] else mine p | none => []) ++
  s.sched.admitting.flatMap (fun x => mine x.2.2)

/-- First place for a share among taken regions (R39 gives no place; the choice is the model's, log 13). -/
def fitShare (taken : List (Nat × Nat)) (size top : Nat) : Option Nat :=
  ((0 :: taken.map (fun t => t.1 + t.2)).filter (fun c =>
    c + size ≤ top && !taken.any (fun t => overlaps t.1 t.2 c size))).foldl
    (fun (b : Option Nat) c => match b with | none => some c | some x => some (min x c)) none

/-- The fabric once the pending retirements have taken effect (R442, R451). -/
def State.fabAfter (s : State) : Fabric := s.err.pendingRetire.foldl (fun f x => retire f x.1 x.2.1 [x.2.2]) s.fab

/-- The share of a context in each atelier, where every one can hold it. -/
def State.canvasShares (s : State) (drop : List Nat) (size : Nat) : List Nat → Option (List (Nat × Nat × Nat))
  | [] => some []
  | a :: r =>
    match fitShare (s.canvasTaken drop a) size (canUsable s.fabAfter a), s.canvasShares drop size r with
    | some o, some l => some ((a, o, size) :: l)
    | _, _ => none

/-- The ateliers of a placement. -/
def ateliersOf (c : CertEntry) (es : List Nat) : List Nat := (List.range c.a).map (fun i => es[i * c.e]?.getD 0 / 8)

/-- Best-effort contexts that hold an easel of a placement. -/
def State.holders (s : State) (es : List Nat) : List Nat :=
  (s.ctxs.filter (fun c => match c.2.part with | some p => p.easels.any es.contains | none => false)).map Prod.fst

/-- An easel that an admission waits for. -/
def State.reserved (s : State) (e : Nat) : Bool := s.sched.admitting.any (fun x => x.2.2.easels.contains e)

/-- The tests of R321 on an easel that do not depend on its owner. -/
def State.fitsEasel (s : State) (v : Variant) (c : CertEntry) (e pos : Nat) : Bool :=
  mapSize (v.palette[pos]?.getD []) ≤ palUsable s.fabAfter e && 1024 * c.canvasKib ≤ canUsable s.fabAfter (e / 8)

/-! ### Admission of real-time contexts (R313) -/

/-- The partition that a context holds or waits for. -/
def State.partOf (s : State) (c : Nat) (x : Ctx) : Option Part :=
  match x.part with
  | some p => some p
  | none => (s.sched.admitting.find? (fun a => a.1 == c)).map (fun a => a.2.2)

/-- Admitted real-time contexts with their certificate entries. -/
def State.rtAdmitted (s : State) : List (Nat × Ctx × Part × CertEntry) :=
  s.ctxs.filterMap (fun c =>
    if c.2.realTime then
      match s.partOf c.1 c.2, c.2.image with
      | some p, some i => (i.cert[p.variant]?).map (fun e => (c.1, c.2, p, e))
      | _, _ => none
    else none)

/-- b_intake of a context (R298): the largest of its ports, submission queues and streams. -/
def State.bIntake (s : State) (c : Nat) : Nat :=
  match s.prof c with
  | none => 0
  | some p =>
    let ports := s.ports.filterMap (fun q => if q.2.ctx = some c then q.2.cfg.map p.intakePort else none)
    let sqs := (s.ctxSqs c).map (fun _ => p.intakeSource 16)
    let live := s.intake.streams.filterMap (fun t =>
      if t.2.ctx = c then some (p.intakeSource (if bit t.2.record 2 then 1 else 16)) else none)
    maxOf (ports ++ sqs ++ live)

/-- d_main of R22, with b_out of R314. -/
def dMain (bIn b : Nat) (e : CertEntry) : Nat := bIn + e.wEnc + e.sMax * max e.wStep b + 100000

/-- Condition 6 of R313. -/
def State.meetsDeadline (s : State) (c : Nat) (x : Ctx) (e : CertEntry) (b : Nat) : Bool :=
  dMain (s.bIntake c) b e ≤ 1000 * min x.deadlineUs x.intervalUs

/-- Condition 5 of R313, for an entry whose variant has a stencil site. -/
def meetsMask (x : Ctx) (v : Nat) (e : CertEntry) (b : Nat) : Bool :=
  match x.image.bind (fun i => i.variants[v]?) with
  | some w => w.stencil.isEmpty || b ≤ e.maskUse
  | none => true

/-- Tags of the context share of a pool that real-time quotas may take (R51, R313). -/
def quotaMax (p : Nat) : Nat := if p = 0 then 3584 - 1024 else if p = 1 then 1792 - 256 else 2048

/-- Judge one certificate entry for a real-time context: 0 with its partition, or the number of the first condition that
fails (R313). -/
def State.judgeEntry (s : State) (c : Nat) (x : Ctx) (i : Nat) (e : CertEntry) (v : Variant) : Nat × Option Part :=
  let rtFree := fun n => !s.reserved n && (match (s.easelCtx n).bind s.ctx? with | some y => !y.realTime | none => true)
  match s.bestPlace v e (fun n pos => rtFree n && s.fitsEasel v e n pos) with
  | none => (1, none)
  | some es =>
    let rts := s.rtAdmitted
    let used := fun p => sumOf (rts.map (fun r => poolOf r.2.2.1.tags p))
    let q := (e.tagsLp, e.tagsPcie, e.tagsLink)
    if !(List.range 3).all (fun p => used p + poolOf q p ≤ quotaMax p) then (2, none)
    else
      match s.canvasShares (s.holders es) (1024 * e.canvasKib) (ateliersOf e es) with
      | none => (3, none)
      | some sh =>
        let load0 := sumOf (rts.map (fun r => if r.2.1.hasStencil then r.2.1.maxSeq else 0))
        let load := load0 + (if x.hasStencil then x.maxSeq else 0)
        let b := bStencil load
        let others := if load0 ≤ 256 && 256 < load then rts.filter (fun r => r.2.1.hasStencil) else []
        if 512 < load then (4, none)
        else if !(meetsMask x i e b && others.all (fun r => meetsMask r.2.1 r.2.2.1.variant r.2.2.2 b)) then (5, none)
        else if !(s.meetsDeadline c x e b && others.all (fun r => s.meetsDeadline r.1 r.2.1 r.2.2.2 b)) then (6, none)
        else (0, some { variant := i, easels := es, canvas := sh, bars := [], devBar := none, tags := q, placedAt := s.clk.time })

/-- Judge the entries in preference order: the partition, or the status of the refusal. -/
def State.judgeEntries (s : State) (c : Nat) (x : Ctx) (im : Image) : List Nat → Bool → Part ⊕ Nat
  | [], late => .inr (if late then stDeadline else stNoResource)
  | i :: r, late =>
    match im.cert[i]?, im.variants[i]? with
    | some e, some v =>
      (match s.judgeEntry c x i e v with
       | (_, some p) => .inl p
       | (k, none) => s.judgeEntries c x im r (late || k = 5 || k = 6))
    | _, _ => s.judgeEntries c x im r late

/-! ### Binding (R310, R311) -/

/-- What a relocation makes of a value at a position; none where nothing of the shape has that number. A LINK_CHANNEL
takes the channel of the confirmed job `js` of its RING entry, and stays as it is until there is one. -/
def relocValue (x : Ctx) (p : Part) (e : CertEntry) (js : List RingJob) (pos kind v : Nat) : Option Nat :=
  match kind with
  | 0 => p.easels[v]?
  | 1 => if v < e.a then (p.easels[v * e.e]?).map (· / 8) else none
  | 2 => (p.easels[v / 256]?).map (fun n => n * 256 + v % 256)
  | 3 => (p.easels[pos]?).bind (fun n => (p.canvas.find? (fun r => r.1 == n / 8)).map (fun r => r.2.1 + v))
  | 4 => some (x.lpBase + v)
  | 5 => some (((js.find? (fun j => j.entry == v)).map RingJob.chanEast).getD v)
  | _ => none

/-- Apply one relocation to the palette; `src` gives the word that holds the field before it. None where the value does
not fit (R311). -/
def State.relocate (s : State) (c : Nat) (x : Ctx) (p : Part) (e : CertEntry) (v : Variant) (src : State → Nat → Nat → Nat)
    (r : Reloc) : Option State :=
  match p.easels[r.pos]?, v.region r.pos r.region with
  | some n, some g =>
    let off := g.offset + r.offset
    let w := src s r.pos off
    let hi := r.bitLo + r.width - 1
    let js := s.ring.jobs.filter (fun j => j.ctx == c && j.confirmed && !j.dead)
    match relocValue x p e js r.pos r.kind (fld w hi r.bitLo) with
    | some y =>
      if y < 2 ^ r.width then
        let now := leNat (s.palBytes n off 8)
        some (s.palPut n off (toLe 8 (putField now y hi r.bitLo)))
      else none
    | none => none
  | _, _ => some s

/-- Apply the relocations that `sel` selects, in part order. -/
def State.relocateAll (s : State) (c : Nat) (x : Ctx) (p : Part) (e : CertEntry) (v : Variant) (src : State → Nat → Nat → Nat)
    (sel : Reloc → Bool) : Option State :=
  (v.relocs.filter sel).foldl (fun (o : Option State) r => o.bind (fun s => s.relocate c x p e v src r)) (some s)

/-- Load the regions of one position on easel `e` (R310 step 1). -/
def State.loadPos (s : State) (x : Ctx) (im : Image) (v : Variant) (pos e : Nat) : State :=
  let fresh := (List.range 8).filterMap (fun i => match v.region pos i with
    | some g => if s.isResident e g then none else some (i, g)
    | none => none)
  let hit := fun (y : Resident) => y.easel == e && fresh.any (fun g => overlaps y.offset y.size g.2.offset g.2.size)
  let s := s.setSched { s.sched with resident := s.sched.resident.filter (fun y => !hit y) }
  let s := fresh.foldl (fun (s : State) g => s.palZero e g.2.offset g.2.size) s
  let s := (v.init.filter (fun n => n.pos == pos)).foldl (fun (s : State) n =>
    match fresh.find? (fun g => g.1 == n.region) with
    | none => s
    | some g =>
      let b := match n.source with
        | 0 => slice im.bytes n.sourceOffset n.length
        | 1 => slice (x.weight g.2.digest) n.sourceOffset n.length
        | _ => zeros n.length
      s.palPut e (g.2.offset + n.regionOffset) b) s
  s.setSched { s.sched with resident := s.sched.resident ++ (fresh.filter (fun g => g.2.kind == 2)).map (fun g =>
    { easel := e, digest := g.2.digest, offset := g.2.offset, size := g.2.size }) }

/-- A barrier channel that is free in an atelier (R40). No rule says which firmware gives: the lowest (log 13). -/
def State.freeBar (s : State) (a : Nat) : Nat := ((List.range 8).find? (fun k => !tabHas s.fab.bar (a * 8 + k))).getD 0
/-- A free device barrier channel (R55): the lowest (log 13). -/
def State.freeDevBar (s : State) : Nat := (tabFree s.fab.devBar 32).getD 0

/-- Bind a variant to a partition (R310): palettes, relocations, tallies, histories, one barrier channel in every atelier
with the partition's easels there as members (R40), and a device channel where it spans ateliers (R55). None where a
relocated value does not fit (R311; log 114). -/
def State.bindPart (s : State) (c : Nat) (p : Part) : Option State :=
  match s.ctx? c with
  | none => none
  | some x =>
    match x.image with
    | none => none
    | some im =>
      match im.variants[p.variant]?, im.cert[p.variant]? with
      | some v, some e =>
        let inAt := fun a => p.easels.filter (fun n => n / 8 == a)
        let p := { p with
          bars := (ateliersOf e p.easels).map (fun a => a * 8 + s.freeBar a),
          devBar := if 1 < e.a then some s.freeDevBar else none, placedAt := s.clk.time }
        let pos := (List.range p.easels.length).zip p.easels
        let skip := fun (r : Reloc) => match p.easels[r.pos]?, v.region r.pos r.region with
          | some n, some g => s.isResident n g
          | _, _ => false
        let s0 := (p.easels.foldl (fun (s : State) n => s.retireNow .palette n) s)
        let s0 := p.canvas.foldl (fun (s : State) r => s.retireNow .canvas r.1) s0
        let s1 := pos.foldl (fun (s : State) y => s.loadPos x im v y.1 y.2) s0
        let src := fun (s : State) q off => leNat (s.palBytes (p.easels[q]?.getD 0) off 8)
        match s1.relocateAll c x p e v src (fun r => !skip r) with
        | none => none
        | some s2 =>
          let f := s2.fab
          let clean := f.tally.filter (fun t => !p.easels.contains (t.1 / 256))
          let tally := v.tallies.foldl (fun t y => tabSet 0 t (p.easels[y.1]?.getD 0 * 256 + y.2.1) y.2.2) clean
          let s3 := s2.setFab { f with
            tally := tally,
            queue := f.queue.filter (fun q => !p.easels.contains (q.1 / 16)),
            bar := p.bars.foldl (fun t k => tabPut t k { owner := c, members := inAt (k / 8) }) f.bar,
            devBar := match p.devBar with | some k => tabPut f.devBar k { owner := c, members := p.easels } | none => f.devBar }
          let s4 := v.histories.foldl (fun (s : State) h => s.palPut (p.easels[h.1]?.getD 0) h.2.1 h.2.2) s3
          some ((s4.modCtx c (fun x => { x with part := some p, stopping := false })).ringPlaced c)
      | _, _ => none

/-! ### Leaving a partition (R322, R331 step 4) -/

/-- Zero a palette but for the resident regions in `keep`. -/
def State.scrubPal (s : State) (e : Nat) (keep : List Resident) : State :=
  let kept := fun o => keep.any (fun r => r.offset ≤ o && o < r.offset + r.size)
  let hit := fun (w : WordAt) => w.mem == .palette && w.unit == e && !kept (8 * w.word)
  (s.setFab { s.fab with palette := s.fab.palette.filter (fun b => b.1 / 2 ^ 20 != e || kept (b.1 % 2 ^ 20)) }).setErr
    { s.err with
      sram := s.err.sram.filter (fun x => !hit x.1), writeBack := s.err.writeBack.filter (fun w => !hit w) }

/-- The context gives up its partition: its easels' palettes are zeroed but for the WEIGHT regions resident there, its own
and those that it did not write over, where `keep` (R322); its canvas regions, tallies, queues and barrier channels are
cleared. -/
def State.leavePart (s : State) (c : Nat) (keep : Bool) : State :=
  match s.ctx? c with
  | none => s
  | some x =>
    match x.part with
    | none => s
    | some p =>
      let s := s.dropWaits p.easels false
      let s := p.easels.foldl (fun (s : State) e =>
        let s := s.scrubPal e (if keep then s.sched.resident.filter (fun y => y.easel == e) else [])
        if keep then s
        else s.setSched { s.sched with resident := s.sched.resident.filter (fun y => y.easel != e) }) s
      let s := p.canvas.foldl (fun (s : State) r => s.canZero r.1 r.2.1 r.2.2) s
      let f := s.fab
      let s := s.setFab { f with
        queue := f.queue.filter (fun q => !p.easels.contains (q.1 / 16)),
        tally := f.tally.filter (fun t => !p.easels.contains (t.1 / 256)),
        stop := f.stop.filter (fun e => !p.easels.contains e),
        vecParity := f.vecParity.filter (fun e => !p.easels.contains e),
        bar := f.bar.filter (fun b => b.2.owner != c),
        devBar := f.devBar.filter (fun b => b.2.owner != c) }
      let s := s.putReading c { s.reading c with pairs := [] }
      s.modCtx c (fun x => { x with part := none, stopping := false, restoring := false })

/-! ### Entering RUNNING -/

/-- The deferred CONTEXT_START of a context is answered (R315, R391). -/
def State.answerStart (s : State) (c status : Nat) : State :=
  (s.mbox.taken.filter (fun r => r.opcode == 0x0011 && r.ctx == some c)).foldl
    (fun (s : State) r => s.answerCtx r c status []) s

/-- A context leaves the list of those that wait for a place. -/
def State.unwait (s : State) (c : Nat) : State := s.setSched { s.sched with waiting := s.sched.waiting.filter (fun y => y != c) }

/-- A resuming context whose restore has not ended gives its partition back and waits again. -/
def State.dropRestore (s : State) (c : Nat) : State :=
  match s.ctx? c with
  | some x => if x.restoring then (s.leavePart c true).setSched { s.sched with waiting := s.sched.waiting ++ [c] } else s
  | none => s

/-- Make best-effort contexts give way: those that run are stopped, a resume under way is dropped. -/
def State.giveWay (s : State) (cs : List Nat) : State :=
  cs.foldl (fun (s : State) w =>
    match s.ctx? w with
    | some x =>
      if x.restoring then s.dropRestore w else s.startPreempt w
    | none => s) s

/-- Another context holds an easel or canvas bytes of a partition. -/
def State.clashes (s : State) (c : Nat) (p : Part) : Bool :=
  s.ctxs.any (fun x => x.1 != c && (match x.2.part with
    | some q => q.easels.any p.easels.contains || q.canvas.any (fun r => p.canvas.any (fun t =>
        r.1 == t.1 && overlaps r.2.1 r.2.2 t.2.1 t.2.2))
    | none => false))

/-- The partition chosen for an admission still meets R321 as macros stand, those marked for retirement taken out (R444,
R451). -/
def State.admitFits (s : State) (x : Ctx) (p : Part) : Bool :=
  match x.image.bind (fun im => im.variants[p.variant]?), x.image.bind (fun im => im.cert[p.variant]?) with
  | some v, some e =>
    ((List.range p.easels.length).zip p.easels).all (fun y => s.fitsEasel v e y.2 y.1) &&
    p.canvas.all (fun r => r.2.1 + r.2.2 ≤ canUsable s.fabAfter r.1)
  | _, _ => true

/-- An admission's partition is bound where nothing else holds any of it (R315, R335). -/
def State.placeAdmit (s : State) (c : Nat) (p : Part) : State :=
  if s.clashes c p then s
  else
    let s := s.setSched { s.sched with admitting := s.sched.admitting.filter (fun y => y.1 != c) }
    match s.bindPart c p with
    | some s => (s.enter c .running stOK 0).answerStart c stOK
    | none => s.answerStart c stFormat

/-- Place admissions whose easels and canvas have become free, in order of arrival (R315, R335). One whose choice no longer
fits is judged anew (R444). -/
def State.completeAdmits (s : State) : State :=
  s.sched.admitting.foldl (fun (s : State) a =>
    let (c, ch, p) := a
    match s.ctx? c with
    | none => s
    | some x =>
      if s.admitFits x p then s.placeAdmit c p
      else
        let t := s.setSched { s.sched with admitting := s.sched.admitting.filter (fun y => y.1 != c) }
        match x.image with
        | none => t.answerStart c stFormat
        | some im =>
          match t.judgeEntries c x im (List.range im.cert.length) false with
          | .inr st => t.answerStart c st
          | .inl q =>
            let u := t.giveWay (t.holders q.easels)
            (u.setSched { u.sched with admitting := u.sched.admitting ++ [(c, ch, q)] }).placeAdmit c q) s

/-- Admit a real-time context (R313, R315): placed at once, or after its victims have left, or refused. -/
def State.admitRt (s : State) (c ch : Nat) : State × Option Nat :=
  match s.ctx? c with
  | none => (s, some stFormat)
  | some x =>
    match x.image with
    | none => (s, some stFormat)
    | some im =>
      if s.pci.rate < 3 || s.pci.width < 4 then (s, some stNoResource)
      else
        match s.judgeEntries c x im (List.range im.cert.length) false with
        | .inr st => (s, some st)
        | .inl p =>
          let s := s.giveWay (s.holders p.easels)
          ((s.setSched { s.sched with admitting := s.sched.admitting ++ [(c, ch, p)] }).completeAdmits, none)

/-! ### Best-effort placement (R324) -/

/-- Placement of a waiting best-effort context over easels that are free or held by contexts that `allow` admits: the
partition and the contexts to pre-empt. -/
def State.bePlace (s : State) (x : Ctx) (im : Image) (allow : Nat → Ctx → Bool) : List Nat → Option (Part × List Nat)
  | [] => none
  | i :: r =>
    match im.cert[i]?, im.variants[i]? with
    | some e, some v =>
      let may := fun n => !s.reserved n && (match s.easelCtx n with
        | none => true
        | some w => (match s.ctx? w with | some y => allow w y | none => false))
      let inAt := fun a => (s.ctxs.filter (fun c => allow c.1 c.2 && (match c.2.part with
        | some p => p.easels.any (fun n => n / 8 == a)
        | none => false))).map Prod.fst
      let canv := fun a => (fitShare (s.canvasTaken (inAt a) a) (1024 * e.canvasKib) (canUsable s.fabAfter a)).isSome
      (match s.bestPlace v e (fun n pos => may n && s.fitsEasel v e n pos && canv (n / 8)) with
       | none => s.bePlace x im allow r
       | some es =>
         let vs := s.holders es
         match s.canvasShares vs (1024 * e.canvasKib) (ateliersOf e es) with
         | none => s.bePlace x im allow r
         | some sh => some ({ variant := i, easels := es, canvas := sh, bars := [], devBar := none,
                              tags := (0, 0, 0), placedAt := s.clk.time }, vs))
    | _, _ => s.bePlace x im allow r

/-- May a running context be pre-empted for one of priority `pr` (R324)? -/
def State.mayPreempt (s : State) (pr : Nat) (y : Ctx) : Bool :=
  !y.realTime && y.st == .running && !y.stopping && !y.restoring && (match y.part with
    | some p => y.priority < pr || (y.priority == pr && p.placedAt + 100000000 ≤ s.clk.time)
    | none => false)

/-- Insert into a falling list of numbers. -/
def insertDown (a : Nat) : List Nat → List Nat
  | [] => [a]
  | b :: r => if b ≤ a then a :: b :: r else b :: insertDown a r

/-- The placement that R324 prefers: none pre-empted, else victims of least highest priority, then of latest earliest
placement. -/
def State.choosePlace (s : State) (x : Ctx) (im : Image) (vs : List Nat) : Option (Part × List Nat) :=
  match s.bePlace x im (fun _ _ => false) vs with
  | some r => some r
  | none =>
    if s.ctxs.any (fun c => c.2.stopping) then none
    else
      let ok := fun (y : Ctx) => s.mayPreempt x.priority y
      match (List.range (x.priority + 1)).find? (fun k => (s.bePlace x im (fun _ y => ok y && y.priority ≤ k) vs).isSome) with
      | none => none
      | some k =>
        let at0 := fun (y : Ctx) => match y.part with | some p => p.placedAt | none => 0
        let ts := ((s.ctxs.filter (fun c => ok c.2 && c.2.priority ≤ k)).map (fun c => at0 c.2)).foldl (fun l a => insertDown a l) []
        ts.findSome? (fun t => s.bePlace x im (fun _ y => ok y && y.priority ≤ k && t ≤ at0 y) vs)

/-- Try to place one waiting context: bound where nothing must give way, else its victims are stopped. -/
def State.placeBe (s : State) (c : Nat) : Option State :=
  match s.ctx? c with
  | none => none
  | some x =>
    match x.image with
    | none => none
    | some im =>
      let vs := match x.saved with | some y => [y.variant] | none => List.range im.cert.length
      match s.choosePlace x im vs with
      | none => none
      | some (p, []) =>
        (match s.bindPart c p with
         | none => none
         | some s =>
           let s := s.unwait c
           some (if x.saved.isSome then s.modCtx c (fun x => { x with restoring := true }) else (s.enter c .running stOK 0).mirrorCtx c))
      | some (_, w) => some (s.giveWay w)

/-- Device time of a context's entry to its state. -/
def State.sinceOf (s : State) (c : Nat) : Nat := match s.ctx? c with | some x => x.since | none => 0

/-- Put a waiting context behind those that entered WAITING or PREEMPTED no later. -/
def State.insertSince (s : State) (c : Nat) : List Nat → List Nat
  | [] => [c]
  | d :: r => if s.sinceOf c < s.sinceOf d then c :: d :: r else d :: s.insertSince c r

/-- Waiting contexts in the order of R324: descending priority, then order of entry to WAITING, which a bundle's binding or
a pre-emption brings (R303). -/
def State.beOrder (s : State) : List Nat :=
  (List.range 8).reverse.flatMap (fun k => (s.sched.waiting.filter (fun c => match s.ctx? c with
    | some x => x.priority == k
    | none => false)).foldl (fun l c => s.insertSince c l) [])

/-- BEST_EFFORT_PLACEMENT (R324): the first waiting context that can be placed. -/
def execBestEffortPlacement (s : State) : Result :=
  .next (if s.works then ((s.beOrder.findSome? s.placeBe).map State.leaveIdle).getD s else s)

/-! ### Save and resume (R326 to R329) -/

/-- Move the entries of one block of a table to another block number. -/
def rekey {α : Type} (t : Tab α) (size from0 to0 : Nat) (into : Tab α) : Tab α :=
  (t.filter (fun e => e.1 / size == from0)).foldr (fun e r => tabPut r (to0 * size + e.1 % size) e.2) into

/-- Palette ranges that pre-emption saves at a position: marked regions and scale histories (R326). -/
def savedRanges (v : Variant) (pos : Nat) : List (Nat × Nat) :=
  (v.saveMarks.filter (fun m => m.1 == pos)).filterMap (fun m => (v.region pos m.2).map (fun r => (r.offset, r.size))) ++
  (v.histories.filter (fun h => h.1 == pos)).map (fun h => (h.2.1, 256))

/-- Ring receive buffers of a variant: shape atelier, offset in the share, bytes of both (R203, R312). -/
def ringRanges (v : Variant) : List (Nat × Nat × Nat) := v.rings.map (fun r => (r.atelier, r.bufferOffset, 2 * r.bufferBytes))

/-- Words of a partition's palettes and canvases that the save reads can be corrected. -/
def State.saveReads (s : State) (c : Nat) (v : Variant) (p : Part) (e : CertEntry) (whole : Bool) : State × Bool :=
  let (s, ok) := ((List.range p.easels.length).zip p.easels).foldl (fun (r : State × Bool) y =>
    if r.2 then r.1.readRanges .palette y.2 (some c) (if whole then [(0, 2 ^ 20)] else savedRanges v y.1) else r)
    (s.readRanges .stencil 0 (some c) (s.walkBufs c))
  if whole then
    p.canvas.foldl (fun (r : State × Bool) y => if r.2 then r.1.readRanges .canvas y.1 (some c) [(y.2.1, y.2.2)] else r) (s, ok)
  else
    (ringRanges v).foldl (fun (r : State × Bool) y =>
      let a := p.easels[y.1 * e.e]?.getD 0 / 8
      let b := match p.canvas.find? (fun k => k.1 == a) with | some k => k.2.1 | none => 0
      if r.2 then r.1.readRanges .canvas a (some c) [(b + y.2.1, y.2.2)] else r) (s, ok)

/-- The state of R326 as it is saved; `whole` saves all of the palettes and canvas shares (R484). R90 speaks of a command
that reads an accumulator entry of wrong parity; a save of one raises no error (log 144). -/
def State.savedOf (s : State) (v : Variant) (p : Part) (e : CertEntry) (whole : Bool) : Saved :=
  let f := s.fab
  let ps := (List.range p.easels.length).zip p.easels
  let base := fun a => match p.canvas.find? (fun k => k.1 == a) with | some k => k.2.1 | none => 0
  let at0 := fun i => p.easels[i * e.e]?.getD 0 / 8
  let can := if whole then (List.range e.a).map (fun i => (i, 0, 1024 * e.canvasKib)) else ringRanges v
  let byPos := fun (t : Tab Nat) => ps.foldl (fun r y => rekey t 1 y.2 y.1 r) []
  { variant := p.variant,
    queues := ps.foldl (fun r y => rekey f.queue 16 y.2 y.1 r) [],
    tallies := ps.foldl (fun r y => rekey f.tally 256 y.2 y.1 r) [],
    palette :=
      if whole then ps.foldl (fun r y => rekey f.palette (2 ^ 20) y.2 y.1 r) []
      else ps.foldl (fun m y => (savedRanges v y.1).foldl (fun m g =>
        memPut m (y.1 * 2 ^ 20 + g.1) (s.palBytes y.2 g.1 g.2)) m) [],
    acc := ps.foldl (fun r y => rekey f.acc 16384 y.2 y.1 r) [],
    accKind := ps.foldl (fun r y => rekey f.accKind 512 y.2 y.1 r) [],
    canvas := can.foldl (fun m g => memPut m (g.1 * 2 ^ 22 + g.2.1) (s.canBytes (at0 g.1) (base (at0 g.1) + g.2.1) g.2.2)) [],
    inAtelier := p.inAtelier,
    bars := (p.bars.filterMap (tabFind f.bar)).map (fun b => (b.gen, byPos b.arrivals)),
    devBar := (p.devBar.bind (fun k => tabFind f.devBar k)).map (fun b => (b.gen, byPos b.arrivals)) }

/-- Started queues of the event under way, by position while saved and by easel while running. -/
def mapStarted (g : Nat → Option Nat) (l : List Nat) : List Nat := l.filterMap (fun k => (g (k / 16)).map (fun e => e * 16 + k % 16))

/-- A saved queue goes on (R329): its command is fetched again, and its abandoned wait is reissued. -/
def State.resumeQueue (s : State) (c e q : Nat) (x : CmdQueue) : State :=
  if x.run = QRun.idle then s
  else
    let s := s.modQueue e q (fun _ => { run := .running, next := x.next, bad := x.bad })
    if x.bad then s
    else
      let s := s.takeUp c e q none
      let s := s.modQueue e q (fun y => { y with ahead := s.aheadOf c e x.next, acquired := x.acquired, granted := x.granted })
      match x.wait, (s.queue e q).cmd with
      | some (.barrier g), some _ =>
        (match (s.ctx? c).bind (fun y => y.barOf e) with
         | none => s
         | some (dev, k) =>
           match s.barrier dev k with
           | none => s
           | some b =>
             if b.gen ≤ g then
               (s.setBarrier dev k { b with waiting := b.waiting ++ [(e, q, g)] }).modQueue e q (fun y => { y with wait := some (.barrier g) })
             else s.modQueue e q CmdQueue.grant)
      | some _, some w =>
        if x.acquired then s.waitTally e q (tlT w) (tlN w) (fld w 131 128 == 0)
        else s.waitTally e q (e * 256 + cAcqTally w) (cAcqN w) true
      | _, _ => s

/-- Put the saved palette regions back on the easels of a partition, with their fields relocated anew (R306, R329). None
where a relocated value does not fit. -/
def State.restorePal (s : State) (c : Nat) (x : Ctx) (im : Image) (v : Variant) (e : CertEntry) (p : Part) (sv : Saved) : Option State :=
  let ps := (List.range p.easels.length).zip p.easels
  let s := ps.foldl (fun (s : State) y => (savedRanges v y.1).foldl (fun (s : State) g =>
    s.palPut y.2 g.1 (memBytes sv.palette (y.1 * 2 ^ 20 + g.1) g.2)) s) s
  let src := fun (_ : State) q off => leNat (loadedBytes im.bytes (fun d => some (x.weight d)) v q off 8)
  let marked := fun (r : Reloc) => v.saveMarks.any (fun m => m.1 == r.pos && m.2 == r.region)
  s.relocateAll c x p e v src marked

/-- Put the rest of the saved state back into a partition, and restart its queues (R329). The rule gives no order in which
the queues' abandoned waits are issued again; the model takes positions and queues in rising order (log 115). -/
def State.restore (s : State) (c : Nat) (v : Variant) (e : CertEntry) (p : Part) (sv : Saved) : State :=
  let ps := (List.range p.easels.length).zip p.easels
  let base := fun a => match p.canvas.find? (fun k => k.1 == a) with | some k => k.2.1 | none => 0
  let at0 := fun i => p.easels[i * e.e]?.getD 0 / 8
  let s := (ringRanges v).foldl (fun (s : State) g =>
    s.canPut (at0 g.1) (base (at0 g.1) + g.2.1) (memBytes sv.canvas (g.1 * 2 ^ 22 + g.2.1) g.2.2)) s
  let s := (s.walkBufs c).foldl (fun (s : State) b => s.wrote .stencil 0 b.1 b.2) s
  let f := s.fab
  let mine := fun n => p.easels.contains n
  let toE := fun (t : Tab Nat) => ps.foldl (fun r y => rekey t 1 y.1 y.2 r) []
  let put := fun (b : Barrier) (g : Nat × Tab Nat) => { b with gen := g.1, arrivals := toE g.2 }
  let s := s.setFab { f with
    acc := ps.foldl (fun r y => rekey sv.acc 16384 y.1 y.2 r) (f.acc.filter (fun k => !mine (k.1 / 16384))),
    -- a write of an entry makes its parity right again (R90)
    accParity := f.accParity.filter (fun k => !mine (k / 16384)),
    accKind := ps.foldl (fun r y => rekey sv.accKind 512 y.1 y.2 r) (f.accKind.filter (fun k => !mine (k.1 / 512))),
    tally := ps.foldl (fun r y => rekey sv.tallies 256 y.1 y.2 r) (f.tally.filter (fun k => !mine (k.1 / 256))),
    bar := (p.bars.zip sv.bars).foldl (fun t y => tabUpd t y.1 (fun b => put b y.2)) f.bar,
    devBar := match p.devBar, sv.devBar with | some k, some g => tabUpd f.devBar k (fun b => put b g) | _, _ => f.devBar }
  let rd := s.reading c
  let s := s.putReading c { rd with started := mapStarted (fun i => p.easels[i]?) rd.started }
  (sv.queues.foldl (fun (s : State) q => s.resumeQueue c (p.easels[q.1 / 16]?.getD 0) (q.1 % 16) q.2) s).settleAll

/-- Where a context's save area lies in its LPDDR5 allocation (log 19): at its end. -/
def Ctx.saveAt (x : Ctx) (im : Image) : Nat := x.lpBase + x.lpSize - 65536 * ceilDiv (maxOf (im.cert.map CertEntry.saveBytes)) 65536

/-- The saved state is written to the save area (R327): save_bytes that no rule lays out, so free bytes (log 19). False
where the write freezes the device. -/
def State.writeSave (s : State) (c : Nat) (x : Ctx) (e : CertEntry) : State × Bool :=
  match x.image with
  | none => (s, true)
  | some im =>
    let (f, s) := s.freeNat
    s.lpWrite 8 0 (some c) (x.saveAt im) (toLe e.saveBytes f)

/-- RESUME_RESTORE_COMPLETE (R329): the save area has been read. -/
def execResumeRestoreComplete (ctx : Nat) (s : State) : Result :=
  .next (match s.ctx? ctx with
    | none => s
    | some x =>
      match x.part, x.variant, x.cert, x.image, x.saved with
      | some p, some v, some e, some im, some sv =>
        if !s.works || !x.restoring then s
        else if x.stopping then (s.dropRestore ctx).completeAdmits
        else
          match s.lpRead 8 0 (some ctx) (x.saveAt im) e.saveBytes with
          | (s, none) => s
          | (s, some _) =>
            match s.restorePal ctx x im v e p sv with
            | none => s.dropRestore ctx
            | some s =>
              let s := s.modCtx ctx (fun x => { x with restoring := false, saved := none })
              let s := (s.enter ctx .running stOK 0).count ctx 0x7A 1
              (s.restore ctx v e p sv).nextMasks ctx none
      | _, _, _, _, _ => s)

end Sys2Proof.Machine
end

