-- ==== Sys2Proof/Machine/Teardown.lean ====
section
/-! DEFINITION. Machine/Teardown.lean: taking up errors, teardown, and the end of a context (R16, R18, R204, R223, R331 to
R333, R335, R364, R447, R507). -/

namespace Sys2Proof.Machine

/-! ### Step 1 and 2 -/

/-- Deferred requests that name a context, other than its destroy, are answered (R507). -/
def State.cutRequests (s : State) (c status : Nat) : State :=
  let s := s.setPorts (tabMap s.ports (fun _ q => if q.ctx = some c then { q with stopReq := none, newCfg := none } else q))
  let s := s.setText { s.text with streams := tabMap s.text.streams (fun _ x => if x.ctx = c then { x with closing := none } else x) }
  let s := s.putReading c { s.reading c with invals := [] }
  (s.answerAll (fun r => r.ctx == some c && r.opcode != 0x0012) status).freeCopies

/-- The ring jobs of a context end: what arrives for them is discarded, and the credits of what they hold return. -/
def State.stopJobs (s : State) (c : Nat) : State :=
  (s.ring.jobs.filter (fun j => j.ctx == c && !j.dead)).foldl (fun (s : State) j =>
    (s.modJob c j.job (fun j => { j with dead := true })).freeJob j) s

/-- The ring jobs of a context that is torn down end (R204, R422): their abort notices go east and west. -/
def State.abortJobs (s : State) (c : Nat) : State :=
  ((s.ring.jobs.filter (fun j => j.ctx == c && !j.dead)).foldl (fun (s : State) j =>
    (s.sendOn 0 (.abort 0 j.job)).sendOn 1 (.abort 1 j.job)) s).stopJobs c

/-- Ports of a context that has left RUNNING for good: a port with no page open goes OFF, another ends its page first
(R18). -/
def State.stopPorts (s : State) (c : Nat) : State :=
  (s.setPorts (tabMap s.ports (fun _ q => if q.ctx = some c && q.page.isNone then q.turnOff else q))).feedHolds

/-- A context enters TEARING_DOWN (R331 steps 1 and 2): mode 1 after an error, 2 after an abort. -/
def State.startTeardown (s : State) (c mode cause : Nat) : State :=
  match s.ctx? c with
  | none => s
  | some x =>
    if x.st = .tearingDown || x.st = .faulted then s
    else
      let status := if mode = 1 then stContextFault else stAborted
      let es := match x.part with | some p => p.easels | none => []
      let s := s.setHq (tabMap s.hq (fun _ q => if !q.isCq && q.ctx == c then { q with stopped := true } else q))
      let s := s.dropWaits es false
      let s := s.setFab { s.fab with
        stop := s.fab.stop.filter (fun e => !es.contains e),
        queue := es.foldl (fun t e => (List.range 16).foldl (fun t k =>
          tabPut t (e * 16 + k) { (tabGet {} t (e * 16 + k)) with run := .faulted, cmd := none, ahead := [], wait := none }) t) s.fab.queue }
      let s := s.modCtx c (fun x => { x with
        tearMode := mode, tearStep := 2, cause := if mode = 1 then cause else 0, stopping := false, restoring := false,
        draining := false })
      let s := s.setSched { s.sched with
        waiting := s.sched.waiting.filter (fun y => y != c), admitting := s.sched.admitting.filter (fun y => y.1 != c) }
      let s := s.enter c .tearingDown status (if mode = 1 then cause else 0)
      ((s.cutRequests c status).abortJobs c).stopPorts c

/-- The next queued CONTAINED error begins to be handled (R447). -/
def State.nextError (s : State) : State :=
  match s.err.queue with
  | [] => s.putErr { s.err with active := none, takenUp := false }
  | x :: r => s.putErr { s.err with active := some x, takenUp := false, queue := r }

/-- ERROR_TAKE_UP (R447): firmware takes up the CONTAINED error that waits. An error of a context that is past its scrub,
or is gone, needs nothing more. -/
def execErrorTakeUp (s : State) : Result :=
  .next (match s.err.active with
    | none => s
    | some (c, cause) =>
      if !s.works || s.err.takenUp then s
      else
        match s.ctx? c with
        | none => s.nextError
        | some x =>
          if x.st = .faulted || x.tearStep = 4 then s.nextError
          else (s.leaveIdle.setErr { s.err with takenUp := true }).startTeardown c 1 cause)

/-! ### Steps 3 to 5 -/

/-- Records of CONTEXT_FAULT for everything of a context without a record (R331 step 5, R16): items, then the other
accepted descriptors. Live frames whose read has not been emitted are discarded (R7, R301). -/
def State.faultRecords (s : State) (c : Nat) : State :=
  let seqs := (s.reading c).seqs
  let s := (s.intake.items.filter (fun x => x.2.ctx == c)).foldl (fun (s : State) x =>
    let (s, fs) := match seqs.find? (fun q => q.item == some x.1) with | some q => s.tornFields c q | none => (s, [])
    s.finishItem x.1 stContextFault fs (x.2.dispatched && !x.2.isLive)) s
  (s.ctxSqs c).foldl (fun (s : State) q =>
    (q.2.outst.filter (fun d => !d.done && fld d.word 7 0 != 1)).foldl (fun (s : State) d =>
      s.completeDesc q.1 d.no stContextFault 0) s) s

/-- What firmware and the engines keep of a context beyond its partition goes (R206, R228, R247, R331 step 4). -/
def State.dropEngines (s : State) (c : Nat) : State :=
  let s := s.setIntake { s.intake with
    buckets := s.intake.buckets.filter (fun b => b.1 / 8 != c),
    streams := s.intake.streams.filter (fun t => t.2.ctx != c),
    sources := s.intake.sources.filter (fun t => t.2.ctx != c) }
  let s := s.setText { s.text with streams := s.text.streams.filter (fun t => t.2.ctx != c) }
  let s := s.setRead { s.read with
    ctx := tabDel s.read.ctx c, tlb := tabMap s.read.tlb (fun _ l => l.filter (fun e => e.ctx != c)) }
  let s := s.setSten { s.sten with waiting := s.sten.waiting.filter (fun w => w.1 != c) }
  let s := s.setFab { s.fab with dma := (tabMap s.fab.dma (fun _ l => l.filter (fun j => j.ctx != c))).filter (fun g => !g.2.isEmpty) }
  (s.modCtx c (fun x => { x with busy := false, riskStep := 0, saved := none })).sweepLexicons

/-- Steps 3 to 5 of R331; resident WEIGHT regions stay after an abort only (R322, R333). -/
def State.scrubCtx (s : State) (c : Nat) (keep : Bool) : State :=
  let s := s.faultRecords c
  let s := s.leavePart c keep
  let s := s.dropEngines c
  let s := s.modCtx c (fun x => { x with tearStep := 4 })
  let s := match s.err.active with | some a => if a.1 = c && s.err.takenUp then s.nextError else s | none => s
  s.completeAdmits

/-- TEARDOWN_SCRUB_COMPLETE (R331 steps 3 to 5): the context's descriptors in flight have completed. -/
def execTeardownScrubComplete (ctx : Nat) (s : State) : Result :=
  .next (match s.ctx? ctx with
    | none => s
    | some x =>
      let flight := s.fab.dma.any (fun g => g.2.any (fun j => j.ctx == ctx && j.started && !j.failed))
      if !s.works || x.st != .tearingDown || x.tearStep != 2 || flight then s
      else s.scrubCtx ctx (x.tearMode == 2))

/-! ### Step 6 and the end of a context -/

/-- Something of a context still has no written record (R331 step 5, R333). -/
def State.owesRecords (s : State) (c : Nat) : Bool :=
  s.hq.any (fun q => (!q.2.isCq && q.2.ctx == c && !q.2.outst.isEmpty) || q.2.ready.any (fun r => r.ctx == c)) ||
  s.intake.items.any (fun x => x.2.ctx == c) ||
  s.ports.any (fun p => p.2.ctx == some c && (p.2.page.isSome || !p.2.pages.isEmpty))

/-- The vocabularies that no context uses once one is destroyed are freed (R207). -/
def State.dropVocab (s : State) (c : Nat) : State :=
  let vs := s.text.vocabs.map (fun v => { v with users := v.users.filter (fun u => u != c) })
  s.setText { s.text with vocabs := vs.filter (fun v => !v.users.isEmpty) }

/-- Grammars and lexicons that no context uses any more are freed (R229, R235). -/
def State.dropUser (s : State) (c : Nat) : State :=
  let gs := s.sten.grammars.map (fun g => { g with users := g.users.filter (fun u => u != c) })
  let s := (gs.filter (fun g => g.users.isEmpty)).foldl (fun (s : State) g => s.lpFree g.addr g.image.length) s
  (s.setSten { s.sten with
    grammars := gs.filter (fun g => !g.users.isEmpty),
    lexicons := s.sten.lexicons.map (fun l => { l with users := l.users.filter (fun u => u != c) }),
    slots := s.sten.slots.filter (fun k => k.1 / 16 != c),
    waiting := s.sten.waiting.filter (fun w => w.1 != c) }).sweepLexicons

/-- A context's LPDDR5 goes back, zeroed, with the page store of its ports (R332); its ports are OFF (R18). -/
def State.freeMemory (s : State) (c : Nat) : State :=
  let off := fun (q : Port) => { q.turnOff with chunks := [], free := [], unacked := [], store := [], pages := [], page := none }
  let s := s.setPorts (tabMap s.ports (fun _ q => if q.ctx = some c then off q else q))
  let s := s.lpFreeUnits (fun _ o => o == c + 1)
  let s := s.modCtx c (fun x => { x with lpSize := 0, regions := [] })
  s.feedHolds

/-- Ring jobs of a context are over: its channels are free again. -/
def State.endJobs (s : State) (c : Nat) : State :=
  let js := s.ring.jobs.filter (fun j => j.ctx == c)
  let clear := fun (k : Link) (chs : List Nat) => { k with chans := k.chans.filter (fun x => !chs.contains x.1) }
  s.setRing { s.ring with
    jobs := s.ring.jobs.filter (fun j => j.ctx != c),
    east := clear s.ring.east (js.map RingJob.chanEast), west := clear s.ring.west (js.map RingJob.chanWest) }

/-- The handle and windows are released when no CQ bound with this owner remains (R383). -/
def State.releaseHandle (s : State) (c : Nat) : State :=
  match s.ctx? c with
  | some x => if x.tearMode = 3 && !s.hq.any (fun q => q.2.isCq && q.2.ctx == c) then s.setCtxs (tabDel s.ctxs c) else s
  | none => s

/-- The context's work has ended (R383): its SQs, ports, streams and text streams are unbound, its destroy is answered,
and its handle goes when its CQs have. -/
def State.finishDestroy (s : State) (c : Nat) : State :=
  let s := (((s.freeMemory c).dropUser c).dropVocab c).endJobs c
  let s := s.setHq (s.hq.filter (fun q => q.2.isCq || q.2.ctx != c))
  let unbound := fun (q : Port) => { q with ctx := none, cq := 0, quota := 0 }
  let s := s.setPorts (tabMap s.ports (fun _ q => if q.ctx = some c then unbound q else q))
  let s := s.dropEngines c
  let s := s.modCtx c (fun x => { x with tearMode := 3, draining := false, st := if x.st = .faulted then .faulted else .tearingDown })
  let s := s.answerAll (fun r => r.opcode != 0x0012 && r.ctx == some c) stAborted
  let s := s.answerAll (fun r => r.opcode == 0x0012 && r.ctx == some c) stOK
  let s := if s.mirroring then s.mirror (.gone c) .none else s
  (s.feedHolds).releaseHandle c

/-- A destroy of the context waits for its work to end. -/
def State.destroying (s : State) (c : Nat) : Bool := s.mbox.taken.any (fun r => r.opcode == 0x0012 && r.ctx == some c)

/-- CONTEXT_FAULTED_ENTRY (R331 step 6): every record of step 5 has been written. -/
def execContextFaultedEntry (ctx : Nat) (s : State) : Result :=
  .next (match s.ctx? ctx with
    | none => s
    | some x =>
      if !s.works || x.st != .tearingDown || x.tearStep != 4 || x.tearMode = 3 || s.owesRecords ctx then s
      else
        let s := (s.freeMemory ctx).dropUser ctx
        let s := s.enter ctx .faulted (if x.tearMode = 1 then stContextFault else stAborted) x.cause
        if s.destroying ctx then s.finishDestroy ctx else s)

/-- A DRAIN destroy ends when nothing of the context is left to complete: no record owed, no capture, no work running
(R333). -/
def State.checkDrain (s : State) (c : Nat) : State :=
  match s.ctx? c with
  | none => s
  | some x =>
    let capturing := s.ports.any (fun p => p.2.ctx == some c && (p.2.st == .capturing || p.2.st == .calibrating))
    let waits := s.mbox.taken.any (fun r => r.ctx == some c && (r.opcode == 0x0023 || r.opcode == 0x0030 || r.opcode == 0x0031))
    let dma := s.fab.dma.any (fun g => g.2.any (fun j => j.ctx == c && !j.failed))
    if x.draining && x.st == .running && !x.busy && !capturing && !waits && !dma && !s.owesRecords c then
      ((s.stopJobs c).leavePart c true).finishDestroy c |>.completeAdmits
    else s

/-- Contexts whose drain has ended go. -/
def State.checkDrains (s : State) : State :=
  ((s.ctxs.filter (fun x => x.2.draining)).map Prod.fst).foldl (fun (s : State) c => s.checkDrain c) s

/-- CONTEXT_DESTROY in ABORT mode, or a DRAIN of a context that holds no partition (R333, R335): a pre-emption under way
completes its save first. -/
def State.abortCtx (s : State) (c : Nat) : State :=
  match s.ctx? c with
  | none => s
  | some x =>
    if x.st = .faulted then s.finishDestroy c
    else if x.st = .tearingDown then s
    else if x.stopping then (s.answerStart c stAborted).modCtx c (fun x => { x with tearMode := 2 })
    else (s.answerStart c stAborted).startTeardown c 2 0

/-- PREEMPT_SAVE_COMPLETE (R326 to R328): every queue of the partition is STOPPED, its descriptors have completed, its
text and stencil work has ended, and its state is saved. -/
def execPreemptSaveComplete (ctx : Nat) (s : State) : Result :=
  .next (match s.ctx? ctx with
    | none => s
    | some x =>
      match x.part, x.variant, x.cert with
      | some p, some v, some e =>
        let still := s.fab.queue.all (fun q => !p.easels.contains (q.1 / 16) || q.2.run != QRun.running)
        let dma := s.fab.dma.any (fun g => g.2.any (fun j => j.ctx == ctx && !j.failed))
        if !s.works || !x.stopping || x.st != .running || !p.easels.all s.fab.stop.contains || !still || dma ||
            (s.reading ctx).maskDue.isSome || s.textBusy ctx then s
        else
          let s := s.copyHomes ctx (fun _ => true)
          match s.saveReads ctx v p e false with
          | (s, false) => s
          | (s, true) =>
            match s.writeSave ctx x e with
            | (s, false) => s
            | (s, true) =>
              if s.err.frozen || s.inError ctx then s
              else
                let sv := s.savedOf v p e false
                let rd := s.reading ctx
                let s := s.putReading ctx { rd with started := mapStarted (fun n => p.easels.idxOf? n) rd.started }
                let s := s.leavePart ctx true
                let s := (s.modCtx ctx (fun x => { x with saved := some sv })).count ctx 0x79 1
                let s := s.enter ctx .preempted stPreempted 0
                let s := s.applyInvals ctx
                let s := s.setSched { s.sched with waiting := s.sched.waiting ++ [ctx] }
                (if s.destroying ctx then s.startTeardown ctx 2 0 else s).completeAdmits
      | _, _, _ => s)

end Sys2Proof.Machine
end

