-- ==== Sys2Proof/Machine/Reset.lean ====
section
/-! DEFINITION. Machine/Reset.lean: the resets of the device and what each clears (R365, R372, R389, R460, R475, R488,
R492 to R495, R502, R506). -/

namespace Sys2Proof.Machine

/-- The device answers on PCIe and its mailbox windows: from the core, or in SLEEP and WAKING from the AON (R347,
R475). -/
def State.linked (s : State) : Bool := s.aon.powered && (s.alive || s.pwr.state == 2 || s.aon.waking)

/-- Device time as it stands: of the running core, or carried by the AON counter (R488). -/
def State.timeNow (s : State) : Nat :=
  if s.alive && !s.aon.waking then s.clk.time
  else s.aon.entryTime + (s.aon.ticks - s.aon.entryTicks) * 10 ^ 9 / 32768

/-! ### Receiver resets (R372) -/

/-- Staging is empty again, and its memory is given back (R461). -/
def State.clearStaging (s : State) : State :=
  let s := match s.boot.stagingAt with | some a => s.lpFree a s.boot.stagingTotal | none => s
  s.setBoot { s.boot with stagingOwner := none, stagingTotal := 0, staging := [], stagingAt := none, pushed := [] }

/-- A request of a channel that meets `p` is dead: a flash write, a pairing or a mirror message that would answer it
answers nothing. Channel 64 is none. -/
def State.forgetReplies (s : State) (p : Nat → Bool) : State :=
  let dead := fun (w : MirrorWait) => match w with | .reply ch .. => if p ch then .none else w | _ => w
  let s := s.setBoot { s.boot with
    flashBusy := s.boot.flashBusy.map (fun f => if p f.1 then (64, f.2) else f) }
  s.setPair { s.pair with
    wanted := s.pair.wanted.map (fun w => if p w.1 then (64, w.2) else w),
    sent := s.pair.sent.map dead, unsent := s.pair.unsent.map (fun x => (x.1, dead x.2)) }

/-- The host of the channel has a message there that no receiver has taken whole (R372, R391). -/
def State.untaken (s : State) (ch : Nat) : Bool :=
  (tabGet {} s.mbox.win ch).pending || tabHas s.mbox.gather ch || tabHas s.mbox.whole ch

/-- Clear the channels that meet `p`: windows, sessions, fragments, requests and messages; `mark` sets aborted where a
message had not been taken, `tally` counts device messages lost as ABORTED. -/
def State.clearChans (s : State) (p : Nat → Bool) (mark tally : Bool) : State :=
  let m := s.mbox
  let lost := sumOf ((m.win.filter (fun w => p w.1 && w.2.valid)).map (fun _ => 1)) +
    sumOf ((m.ready.filter (fun r => p r.1)).map (fun r => r.2.length))
  let marked := if mark then (List.range 40).filter (fun ch => p ch && s.untaken ch) else []
  let ibis := marked.filter (fun ch => 32 ≤ ch && match tabFind m.session ch with | some x => x.path == 1 | none => false)
  let win := marked.foldl (fun t ch => tabPut t ch { aborted := true }) (m.win.filter (fun w => !p w.1))
  let s := s.setMbox { m with
    win := win,
    session := m.session.filter (fun x => !p x.1), gather := m.gather.filter (fun x => !p x.1),
    whole := m.whole.filter (fun x => !p x.1), ready := m.ready.filter (fun x => !p x.1),
    taken := m.taken.filter (fun r => !p r.ch),
    discarded := if tally then m.discarded + lost else m.discarded }
  let staged := s.boot.flashBusy.isNone && match s.boot.stagingOwner with | some ch => p ch | none => false
  let s := if staged then s.clearStaging else s
  let s := s.setBoot { s.boot with nonces := s.boot.nonces.filter (fun x => !p x.1) }
  ibis.foldl (fun (s : State) ch => s.emit (.ibi (ch - 32))) (s.forgetReplies p).freeCopies

/-- The secure channels that a path owns (R368). -/
def State.ownedBy (s : State) (path ch : Nat) : Bool :=
  32 ≤ ch && match tabFind s.mbox.session ch with | some x => x.path == path | none => false

/-! ### The outstanding report (R389, R495) -/

/-- Put an entry in its place by acceptance number. -/
def insertAcc (x : Nat × OutEntry) : List (Nat × OutEntry) → List (Nat × OutEntry)
  | [] => [x]
  | y :: r => if x.1 < y.1 then x :: y :: r else y :: insertAcc x r

/-- Every accepted descriptor and item without a written record, in order of acceptance (R389): pages taken over from a
failed partner come first, live reads last. -/
def State.outEntries (s : State) : List OutEntry :=
  let descs := s.hq.flatMap (fun q => q.2.outst.map (fun d =>
    (d.acc, ({ id := fld d.word 63 32, item := fld d.word 7 0 == 1, sq := some q.1, ctx := q.2.ctx } : OutEntry))))
  let pages := s.ports.flatMap (fun p =>
    if p.2.ctx.isNone then []
    else (p.2.pages ++ p.2.page.toList).map (fun g =>
      (g.acc, ({ id := 2 ^ 62 + p.1 * 2 ^ 48 + g.seq % 2 ^ 48, item := true, sq := none, ctx := g.ctx } : OutEntry))))
  let lives := s.hq.flatMap (fun q => (q.2.ready.filter (fun r => r.kind == 2)).map (fun r =>
    ({ id := r.itemId, item := true, sq := none, ctx := r.ctx } : OutEntry)))
  let page := fun (id c : Nat) => ({ id := id, item := true, sq := none, ctx := c } : OutEntry)
  let loose := (s.intake.items.filter (fun (i : Nat × Item) => i.2.loosePage)).map (fun i => page i.2.itemId i.2.ctx) ++
    s.hq.flatMap (fun q => (q.2.ready.filter Rec.loosePage).map (fun r => page r.itemId r.ctx))
  loose ++ ((descs ++ pages).foldl (fun l x => insertAcc x l) []).map Prod.snd ++ lives

/-- What the reset that ends a freeze leaves to report: the carry area where it had been written (R495). -/
def State.reportOf (s : State) : Boot :=
  let ok := s.err.frozen && s.boot.carryValid
  { report := if ok then s.boot.carry else [], reportTotal := if ok then s.boot.carryTotal else 0,
    reportHeld := s.err.frozen, reportUnread := ok && s.boot.carryUnread,
    carry := s.boot.carry, carryTotal := s.boot.carryTotal, carryValid := s.boot.carryValid,
    flash := if s.boot.flashBusy.isSome then none else s.boot.flash }

/-! ### Contexts at an FLR of PF0 (R365) -/

/-- Ports lose their context: a page in progress goes on into a page store that firmware now owns; else the port is
OFF. -/
def State.loosePorts (s : State) : State :=
  s.ports.foldl (fun (s : State) x =>
    if x.2.ctx.isNone then s
    else if x.2.page.isSome then
      let units := x.2.chunks.flatMap (fun a => (List.range 16).map (fun i => a / 65536 + i))
      let s := s.setLp { s.lp with owner := units.foldl (fun t u => tabPut t u 257) s.lp.owner }
      s.putPort x.1 { x.2 with ctx := none, cq := 0, pages := [], newCfg := none, stopReq := none, calib := none }
    else s.clearPort x.1) s

/-- Every context is destroyed without a record, and every queue, port binding, stream binding and window goes. -/
def State.wipeContexts (s : State) : State :=
  let cs := s.ctxs.map Prod.fst
  let s := s.loosePorts
  let s := cs.foldl (fun (s : State) c =>
    let s := ((s.abortJobs c).leavePart c true).dropEngines c
    ((((s.lpFreeUnits (fun _ o => o == c + 1)).dropUser c).dropVocab c).endJobs c)) s
  let s := { s with
    ctxs := [], hq := [], read := { s.read with ctx := [], tlb := [] },
    intake := { s.intake with streams := [], items := [], buckets := [], sources := [], decoding := [] },
    text := { s.text with streams := [], serving := none },
    sched := { s.sched with waiting := [], admitting := [] } }
  s.putErr { s.err with active := none, takenUp := false, queue := [] }

/-- PF0's own state returns to its reset (R365): MSI-X, Bus Master Enable, power state, and PTM, whose first dialogue fixes
offset0 anew once it is enabled again (R489). -/
def State.resetPf0 (s : State) : State :=
  s.setPci { s.pci with
    bme0 := false, d3pf0 := false, cfg0 := {},
    unmasked := s.pci.unmasked.filter (2048 ≤ ·), pend := s.pci.pend.filter (2048 ≤ ·),
    table := s.pci.table.filter (fun t => 65536 ≤ t.1) } |>.setClk { s.clk with ptm := false, offset0 := none }

/-- A port with nothing of a page, a binding or a quota left: its tokens and its chunks are back (R26, R275). -/
def Port.bare (p : Port) : Port :=
  { p.turnOff with
    ctx := none, cq := 0, newCfg := none, quota := 0, tokens := 0, chunks := [], free := [], unacked := [], store := [], pages := [],
    page := none, buf := [], capping := false, stopReq := none }

/-- A link whose credits and receive buffers are as after training (R26, R418). -/
def Link.fullCredit (k : Link) : Link := { k with used := [], nextBuf := [], full := [] }

/-- The reset that follows a freeze restores every quota, token, chunk and credit to its initial count (R26, R275). -/
def State.restoreCounts (s : State) : State :=
  { s with
    ports := tabMap s.ports (fun _ p => p.bare),
    ring := { s.ring with east := s.ring.east.fullCredit, west := s.ring.west.fullCredit } }

/-- What LPDDR5 holds of a staged image is lost with it; an image whose flash write is under way stays (R461, R462). -/
def State.keepStaging (s : State) : State :=
  match s.boot.stagingAt with
  | none => s
  | some a =>
    if s.boot.flashBusy.isSome then
      s.setBoot { s.boot with staging := memPut [] 0 (memBytes s.lp.mem a s.boot.stagingTotal), stagingAt := none }
    else s.clearStaging

/-- FIRMWARE_RESTART (R26, R275, R372, R437, R449, R493): an FLR of PF0 while frozen. Memory is trained, and palettes and
canvases are tested, anew; what earlier boots repaired, retired and counted is forgotten (R413, R449). -/
def State.firmwareRestart (s : State) : State :=
  let rep := s.reportOf
  let s := ((s.keepStaging.wipeContexts.restoreCounts.clearChans (· < 32) false true).resetPf0).putErr
    { sram := s.err.sram.filter (fun x => x.1.mem != .palette && x.1.mem != .canvas) }
  let s := { s with
    fab := {}, sched := {}, text := {}, sten := {}, read := {}, pair := {}, lp := {},
    boot := { s.boot with
      stage := 3, failCode := 0, degraded := false, report := rep.report, reportTotal := rep.reportTotal, reportHeld := true,
      reportUnread := rep.reportUnread, paired := false },
    pwr := { s.pwr with nextCause := 6, nextAfter := true } }
  s.event 6

/-- FIRMWARE_RESTART as its own command; it occurs only while the device is frozen. -/
def execFirmwareRestart (s : State) : Result :=
  .next (if s.alive && s.err.frozen then s.firmwareRestart else s)

/-- FLR_PF0 (R365, R372): when the device is frozen it is a firmware restart (R493). In SLEEP it is a wake source
(R478). -/
def execFlrPf0 (s : State) : Result :=
  .next (
    if !s.linked then s
    else if s.err.frozen then s.firmwareRestart
    else
      let asleep := s.pwr.state == 2 || s.aon.waking
      let s := ((s.wipeContexts.clearChans (· < 32) false true).resetPf0).feedHolds
      if asleep then s.wake 6 else s.leaveIdle)

/-- FLR_PF1 (R365, R372): only the secure channels that PF1 owns, and PF1's own state. -/
def execFlrPf1 (s : State) : Result :=
  .next (
    if !s.linked then s
    else
      let s := s.clearChans (s.ownedBy 0) false true
      let s := s.setPci { s.pci with
        bme1 := false, d3pf1 := false, cfg1 := {},
        unmasked := s.pci.unmasked.filter (· < 2048), pend := s.pci.pend.filter (· < 2048),
        table := s.pci.table.filter (fun t => t.1 < 65536) }
      if s.pwr.state == 2 || s.aon.waking then s.wake 6 else s.leaveIdle)

/-- I3C_TARGET_RESET (R372): the secure channels that I3C owns. -/
def execI3cTargetReset (s : State) : Result :=
  .next (
    if !s.linked then s
    else
      let s := s.clearChans (s.ownedBy 1) false true
      s.setMbox { s.mbox with i3cPtr := 0, i3cPart := [] })

/-- SEAL_CORE_RESTART (R372, R460, R474): the seal firmware starts again from the retained image. -/
def execSealCoreRestart (s : State) : Result :=
  .next (
    if !s.alive then s
    else
      let s := (s.clearChans (32 ≤ ·) true false).clearStaging
      s.setBoot { s.boot with
        identityReady := false, nonces := [],
        flash := if s.boot.flashBusy.isSome then none else s.boot.flash, flashBusy := none })

/-! ### Power-on and device resets (R493, R502, R506) -/

/-- What survives every reset: fuses, the queue of commands, host memory, the serial flash, and the model's own
records. -/
def State.bare (s : State) : State :=
  { pending := s.pending, fuse := s.fuse, hostMem := s.hostMem, free := s.free, out := s.out,
    boot := { flash := if s.boot.flashBusy.isSome then none else s.boot.flash } }

/-- POWER_ON_RESET (R493, R494): everything but the fuses is cleared; cause POWER_ON. -/
def execPowerOnReset (s : State) : Result := .next s.bare

/-- AON_SUPPLY_LOSS (R506): nothing runs until the supply returns. -/
def execAonSupplyLoss (s : State) : Result := .next (s.bare.setAon { powered := false })

/-- A device reset begins (R488, R493 to R495): what the AON does not hold is cleared. -/
def State.deviceReset (s : State) (cause : Nat) (resetN perstN trip : Bool) : State :=
  let live := s.alive && !s.aon.waking
  let under := !s.alive && s.pwr.state == 3 && !s.aon.waking
  let aon := { s.aon with
    waking := false, wakeTrips := 0, storedDb := [],
    entryTime := if live then s.clk.time else s.aon.entryTime,
    entryTicks := if live then s.aon.ticks else s.aon.entryTicks }
  let r := { s.bare with
    aon := aon,
    pwr := { resetN := resetN, perstN := perstN, tripHeld := trip, cause := s.pwr.cause, afterFreeze := s.pwr.afterFreeze,
             nextCause := cause, nextAfter := (under && s.pwr.nextAfter) || s.err.frozen },
    clk := { time := s.clk.time },
    boot := if under then s.boot else s.reportOf,
    pci := { pmeEn0 := s.pci.pmeEn0 && !perstN } }
  if s.pwr.coreEn then r.emit (.coreEn false) else r

/-- RESET_CAUSE code of a device reset (R494). -/
def resetCode : ResetCause → Nat
  | .resetPin => 1 | .perst => 2 | .hotReset => 3 | .linkDown => 3 | .coreSupply => 5

/-- DEVICE_RESET (R493). CORE_PG falling in SLEEP, or with the core off, is ignored (R506). -/
def execDeviceReset (cause : ResetCause) (s : State) : Result :=
  .next (
    if !s.aon.powered || (cause == .coreSupply && !s.pwr.corePg) then s
    else s.deviceReset (resetCode cause) (s.pwr.resetN && cause != .resetPin) (s.pwr.perstN && cause != .perst) s.pwr.tripHeld)

/-- RELEASE_OF_RESET (R502): RESET_N and PERST_N are high; CORE_EN is asserted unless a thermal trip still holds the
device (R506). -/
def execReleaseOfReset (s : State) : Result :=
  .next (
    if !s.aon.powered then s
    else
      let s := s.setPwr { s.pwr with resetN := true, perstN := true }
      if s.pwr.tripHeld || s.pwr.coreEn || s.pwr.state = 2 then s
      else (s.setPwr { s.pwr with coreEn := true }).emit (.coreEn true))

/-- CORE_PG_RISE (R485, R494, R502, R503): a wake goes on, or boot begins: straps are sampled, RESET_CAUSE is written, and
device time takes up from the AON counter (R488). A HOST boot reads no flash and enters RECOVERY (R456). -/
def execCorePgRise (bootSrc i3cAddr : Nat) (s : State) : Result :=
  .next (
    if !s.aon.powered || !s.pwr.coreEn || s.pwr.corePg then s
    else if s.aon.waking then s.setPwr { s.pwr with corePg := true }
    else
      let time := if s.pwr.nextCause = 0 then s.clk.time else s.timeNow
      let s := s.setClk { time := time }
      let s := s.setPwr { s.pwr with
        corePg := true, bootSrc := bootSrc % 2, i3cAddr := 0x58 + i3cAddr % 4, cause := s.pwr.nextCause,
        afterFreeze := s.pwr.nextAfter, nextAfter := false }
      let s := s.setPci { s.pci with pmeEn0 := false }
      s.setBoot { s.boot with stage := if bootSrc % 2 = 1 then 1 else 0, failCode := 0, romTest := false, image := none, flashBusy := none })

/-- THERMAL_TRIP (R492, R499): THERMTRIP_N goes low, and the device is held in reset. -/
def execThermalTrip (s : State) : Result :=
  .next (
    if !s.aon.powered || s.pwr.tripHeld then s
    else (s.deviceReset 4 s.pwr.resetN s.pwr.perstN true).emit (.thermtrip true))

/-- THERMAL_TRIP_RELEASE (R492, R506): the trip ends; CORE_EN waits for RESET_N and PERST_N. -/
def execThermalTripRelease (s : State) : Result :=
  .next (
    if !s.aon.powered || !s.pwr.tripHeld then s
    else
      let s := (s.setPwr { s.pwr with tripHeld := false }).emit (.thermtrip false)
      if s.pwr.resetN && s.pwr.perstN then (s.setPwr { s.pwr with coreEn := true }).emit (.coreEn true) else s)

end Sys2Proof.Machine
end

