-- ==== Sys2Proof/Machine/Lpddr.lean ====
section
/-! DEFINITION. Machine/Lpddr.lean: the channel controllers: requests, refresh, neighbour refresh, scrub, and the
diagnostic snapshot (R397 to R413); throttling (R490, R491). -/

namespace Sys2Proof.Machine

/-! ### Throttling (R491) -/

/-- Move the throttle step: POWER_STATE[2] and EVENT_STATUS.thermal follow where it leaves or returns to 0 (R491). -/
def State.setThrottle (s : State) (n : Nat) : State :=
  let old := s.pwr.throttle
  let s := s.setPwr { s.pwr with throttle := n }
  let s := if (old == 0) == (n == 0) then s else s.event 4
  if old = 0 && 0 < n then s.riskAll 4 Ctx.busy else s

/-- One step down. -/
def State.stepDown (s : State) : State := s.setThrottle (min 3 (s.pwr.throttle + 1))

/-- What MR4 reports about temperature: one step down when it leaves the operating range (R404, R491). -/
def State.mr4Report (s : State) (beyond : Bool) : State :=
  let s1 := s.setPwr { s.pwr with mr4Hot := beyond }
  if beyond && !s.pwr.mr4Hot then
    let s2 := s1.stepDown
    s2.setPwr { s2.pwr with coolMs := 0 }
  else s1

/-! ### Requests (R399 to R403) -/

/-- The controllers serve requests: firmware serves, not frozen, memory out of self-refresh (R392, R410, R480). -/
def State.lpServes (s : State) : Bool := s.works && s.pwr.state == 0

/-- A request names 1 to 256 bytes of payload (R401, R412). -/
def State.lpReqOk (s : State) (addr len : Nat) : Bool :=
  s.lpServes && 1 ≤ len && len ≤ 256 && addr + len ≤ payloadBytes s.boot.memcfg

/-- LPDDR5_READ (R399, R400, R403): the words are corrected, or the device freezes and nothing is delivered. -/
def execLpddr5Read (agent stream addr len : Nat) (s : State) : Result :=
  .next (if !s.lpReqOk addr len then s
    else
      match s.lpRead agent stream (s.lpOwner addr) addr len with
      | (s, some b) => s.setLp { s.lp with readData := b }
      | (s, none) => s)

/-- LPDDR5_WRITE (R399, R403): whole 8-byte words; their check bits follow. -/
def execLpddr5Write (agent stream addr : Nat) (bytes : Bytes) (s : State) : Result :=
  .next (if !s.lpReqOk addr bytes.length || addr % 8 != 0 || bytes.length % 8 != 0 then s
    else (s.lpWrite agent stream (s.lpOwner addr) addr bytes).1)

/-- LPDDR5_PARTIAL_WRITE (R399, R400): part of a word is read, corrected, merged and written back; an uncorrectable word
freezes the device and nothing is written. -/
def execLpddr5PartialWrite (agent stream addr : Nat) (bytes : Bytes) (s : State) : Result :=
  .next (if !s.lpReqOk addr bytes.length || (addr % 8 == 0 && bytes.length % 8 == 0) then s
    else (s.lpWrite agent stream (s.lpOwner addr) addr bytes).1)

/-! ### Refresh (R397, R404 to R406) -/

/-- The controllers can refresh: memory is trained and out of self-refresh; a freeze does not stop refresh (R410). -/
def State.lpRefreshes (s : State) : Bool := s.ready && s.pwr.state == 0

/-- PER_BANK_REFRESH (R404): it leaves no row of the bank open. -/
def execPerBankRefresh (c rank bank : Nat) (s : State) : Result :=
  .next (if !s.lpRefreshes || 16 ≤ c || ranks s.boot.memcfg ≤ rank || 16 ≤ bank then s
    else
      let s := s.setLp { s.lp with banks := tabUpd s.lp.banks ((c * 2 + rank) * 16 + bank) (fun b => { b with row := none }) }
      s.modChan c (fun x => { x with refreshes := x.refreshes + 1 }))

/-- MR4_POLL (R404): the controller follows the field; above twice the nominal rate it is a cause of R319. -/
def execMr4Poll (c field : Nat) (s : State) : Result :=
  .next (if !s.lpServes || 16 ≤ c then s
    else
      let s := s.modChan c (fun x => { x with mr4 := field % 8 })
      let s := if mr4Over field then s.riskAll 0 (fun _ => true) else s
      s.mr4Report (s.lp.chan.any (fun x => mr4Beyond x.2.mr4)))

/-- NEIGHBOUR_REFRESH (R405, R413): the rows beside the row of the bank's chosen activate, where that is `row`; it comes
before the bank's next activate at the latest. -/
def execNeighbourRefresh (c rank bank row : Nat) (s : State) : Result :=
  .next (
    let m := s.boot.memcfg
    let key := (c * 2 + rank) * 16 + bank
    if !s.lpRefreshes || 16 ≤ c || ranks m ≤ rank || 16 ≤ bank || (s.lp.bank key).due != some row then s
    else s.setLp (s.lp.payDue m key))

/-- hammer_threshold H (R395). -/
def hammer (m : Nat) : Nat := if fld m 31 16 = 0 then 4800 else fld m 31 16

/-- The least f with H · 2^f at least a: ceil(log2(a / H)) where a exceeds H. -/
def log2Up (h a : Nat) : Nat := ((List.range 33).find? (fun f => decide (a ≤ h * 2 ^ f))).getD 32

/-- The target exponent of R406. -/
def kTarget (h aMax : Nat) : Nat :=
  let a := (32 * aMax) % 2 ^ 32
  if 2 * a < h then 14
  else
    let top := Nat.log2 (h / 4)
    let f := if h < a then log2Up h a else 0
    min 14 (max 6 (top - f))

/-- NREFRESH_ADAPT_WINDOW (R406, R320): k falls at once, and rises by one after 16 windows with a higher target; the next
window begins. A real-time context whose k_min is above k has a cause of R319. -/
def execNrefreshAdaptWindow (_ : Unit) (s : State) : Result :=
  .next (if !s.works then s
    else
      let t := kTarget (hammer s.boot.memcfg) (maxOf (s.lp.banks.map (fun b => b.2.window)))
      let k := s.lp.k
      let high := if k < t then min 16 (s.lp.kHigh + 1) else 0
      let k2 := if t < k then t else if high = 16 then k + 1 else k
      let s := s.setLp { s.lp with k := k2, kHigh := high, banks := tabMap s.lp.banks (fun _ b => { b with window := 0 }) }
      s.riskAll 1 (fun x => match x.cert with | some e => decide (k2 < e.kMin) | none => false))

/-- DQ_OSC_TRACK (R397): the write timing is adjusted when the rank's count has drifted from that of the last adjustment, at
first that of training; the spec does not say how far a drift must go (log 49). -/
def execDqOscTrack (c rank count : Nat) (s : State) : Result :=
  .next (if !s.lpServes || 16 ≤ c || ranks s.boot.memcfg ≤ rank then s
    else
      let last := (tabFind (tabGet {} s.lp.chan c).osc rank).getD (Config.oscTrained c rank)
      if last != count && Config.oscDrifted last count then
        s.modChan c (fun x => { x with adjusts := x.adjusts + 1, osc := tabPut x.osc rank count })
      else s)

/-- Payload address of byte `a` of a channel's own space (R401). -/
def chanAddr (m c a : Nat) : Nat := (a / grain m) * (16 * grain m) + c * grain m + a % grain m

/-- LPDDR5_SCRUB (R407): the next 320-byte group: 256 payload bytes and their check burst. -/
def execLpddr5Scrub (c : Nat) (s : State) : Result :=
  .next (if !s.lpServes || 16 ≤ c then s
    else
      let at0 := (tabGet {} s.lp.chan c).scrubAt
      let a := chanAddr s.boot.memcfg c (256 * at0)
      let groups := payloadBytes s.boot.memcfg / 4096
      let s := s.modChan c (fun x => { x with scrubAt := (at0 + 1) % max 1 groups })
      let m := s.boot.memcfg
      let (c0, k, b, r, _) := lpMap m a
      let s := s.setLp ((s.lp.activate m c0 k b r).activate m c0 k (Nat.xor b 8) (payloadRows m + r / 4))
      (((wordsOf a 256).filter (fun w => tabHas s.lp.err w)).foldl (fun (x : State × Bool) w =>
        if x.2 then x.1.lpWord 0 0 true false none w else x) (s, true)).1)

/-- WCK2CK_SYNC_LOSS (R410): unless repaired, a memory freeze error of kind COMMAND on its channel. -/
def execWck2ckSyncLoss (c : Nat) (repaired : Bool) (s : State) : Result :=
  .next (if !s.ready || 16 ≤ c || repaired then s
    else s.memoryFreeze
      { chan := c, kind := 3, row := 0, rank := 0, bank := 0, col := 0, agent := 0, stream := 0, scrub := false,
        rmw := false, addr := 0, data := 0, check := 0, syndrome := 0 })

/-! ### The diagnostic snapshot (R411, R412) -/

/-- A held request entry (R412). -/
def heldEntry (h : HeldReq) : Nat :=
  place h.agent 4 0 + place h.stream 15 8 + (if h.write then 2 ^ 16 else 0) + (if h.partial_ then 2 ^ 17 else 0) +
  place h.addr 67 32 + place h.len 104 96 + place h.tag 139 128

/-- Cut [a, a + n) at multiples of 256 bytes: payload address and bytes of each request. -/
def requestsOf (a n : Nat) : List (Nat × Nat) :=
  (blocksOf a n).map (fun g => (max a (256 * g), min (a + n) (256 * g + 256) - max a (256 * g)))

/-- The requests of one started DMA descriptor to LPDDR5, as many as it holds tags for: payload address, bytes, whether it
writes. -/
def DmaJob.requests (j : DmaJob) : List (Nat × Nat × Bool) :=
  let rows := dRows j.desc
  let rd := if dOp j.desc != 2 && dSrcSp j.desc == 2 then rows.flatMap (fun r => requestsOf r.2.1 (dLen j.desc)) else []
  let wr := if dDstSp j.desc == 2 then rows.flatMap (fun r => requestsOf r.2.2 (dLen j.desc)) else []
  (rd.map (fun x => (x.1, x.2, false)) ++ wr.map (fun x => (x.1, x.2, true))).take (poolOf j.tags 0)

/-- The requests that a controller holds while the device is frozen (R410, R412): those of the descriptors under way, in the
order of their engines (log 70). -/
def State.heldReqs (s : State) (c : Nat) : List HeldReq :=
  let rs := s.fab.dma.flatMap (fun g => (g.2.filter (fun j => j.started && !j.failed)).flatMap (fun j =>
    j.requests.map (fun r => (g.1, dStream j.desc, r))))
  let mine := (rs.filter (fun r => (lpMap s.boot.memcfg r.2.2.1).1 == c)).take 256
  ((List.range mine.length).zip mine).map (fun x =>
    { agent := x.2.1, stream := x.2.2.1, write := x.2.2.2.2.2,
      partial_ := x.2.2.2.2.2 && (x.2.2.2.1 % 8 != 0 || x.2.2.2.2.1 % 8 != 0), addr := x.2.2.2.1, len := x.2.2.2.2.1,
      tag := Config.heldTag c x.1 % 4096 })

/-- A 32-bit word of a channel's snapshot block. -/
def State.snapRead (s : State) (c off : Nat) : Nat :=
  if !s.err.frozen then 0
  else
    let x := tabGet {} s.lp.chan c
    let z : Snap :=
      { chan := 0, kind := 0, row := 0, rank := 0, bank := 0, col := 0, agent := 0, stream := 0, scrub := false,
        rmw := false, addr := 0, data := 0, check := 0, syndrome := 0 }
    let det := match s.lp.snap with | some n => n.chan | none => 0
    let n := match s.lp.snap with | some n => if n.chan = c then n else z | none => z
    let first := match s.lp.snap with | some n => n.chan == c | none => false
    if off = 0x00 then 1 + (if first then 2 else 0) + place n.kind 3 2 + place det 7 4
    else if off = 0x04 then place n.row 16 0 + place n.rank 17 17 + place n.bank 21 18
    else if off = 0x08 then place n.col 10 0
    else if off = 0x0C then
      place n.agent 4 0 + place n.stream 15 8 + (if n.scrub then 2 ^ 16 else 0) + (if n.rmw then 2 ^ 17 else 0)
    else if off = 0x10 then fld n.addr 31 0
    else if off = 0x14 then fld n.addr 35 32
    else if off = 0x18 then fld n.data 31 0
    else if off = 0x1C then fld n.data 63 32
    else if off = 0x20 then place n.check 15 0 + place n.syndrome 31 16
    else if off = 0x24 then x.corrected
    else if off = 0x28 then x.later
    else if off = 0x2C then place s.lp.k 3 0 + place x.mr4 6 4
    else if off = 0x30 then place (s.heldReqs c).length 8 0
    else if 0x100 ≤ off && off < 0x2100 then
      match (s.heldReqs c)[(off - 0x100) / 32]? with
      | some h => (heldEntry h >>> (8 * ((off - 0x100) % 32))) % 2 ^ 32
      | none => 0
    else 0

end Sys2Proof.Machine
end

