-- ==== Sys2Proof/Machine/Regs.lean ====
section
/-! DEFINITION. Machine/Regs.lean: registers, MSI-X, PCIe function states, and the mailbox registers of both paths
(R336 to R348, R365, R366, R368 to R370, R478). -/

namespace Sys2Proof.Machine

/-- A function's BARs are served: the device answers, and the function is in D0 (R366). -/
def State.barOk (s : State) (fn : Nat) : Bool := s.linked && (if fn = 0 then !s.pci.d3pf0 else !s.pci.d3pf1)

/-- The AON answers for the core (R347). -/
def State.aonServes (s : State) : Bool := s.pwr.state == 2 || s.aon.waking

/-- What identifies a function in its configuration space (R339). -/
structure PciIdentity where
  vendor : Nat
  device : Nat
  classCode : Nat
  serial : Nat
  deriving DecidableEq, Repr

/-- The identity of PF0 or PF1 (R339): the Device Serial Number capability carries DEVICE_UID. -/
def State.pciIdentity (s : State) (fn : Nat) : PciIdentity :=
  { vendor := 0x1F9B, device := if fn = 0 then 0x9600 else 0x9601, classCode := if fn = 0 then 0x120000 else 0x108000,
    serial := s.fuse.uid }

/-- The values of R336 that a function's configuration space may take. -/
def PciConfig.ok (c : PciConfig) : Bool :=
  [128, 256, 512].contains c.maxPayload && [128, 256, 512, 1024, 2048, 4096].contains c.maxReadRequest && c.aspm < 8

/-! ### Reads -/

/-- A window of mailbox channel `ch` (0 to 31 non-secure, 32 to 39 secure). -/
def State.win (s : State) (ch : Nat) : Window40 := tabGet {} s.mbox.win ch

/-- Replace a window. -/
def State.putWin (s : State) (ch : Nat) (w : Window40) : State :=
  s.setMbox { s.mbox with win := tabSet {} s.mbox.win ch w }

/-- MB_STATUS (R346). -/
def mbStatus (w : Window40) : Nat :=
  (if w.pending then 1 else 0) + (if w.valid then 2 else 0) + (if w.aborted then 4 else 0)

/-- A 32-bit word of a mailbox window (R346). -/
def winRead (w : Window40) (off : Nat) : Nat :=
  if off < 0x110 then memNat w.h2d off 4
  else if 0x200 ≤ off && off < 0x310 then memNat w.d2h (off - 0x200) 4
  else if off = 0x3F4 then mbStatus w
  else 0

/-- RESET_CAUSE (R494). -/
def resetCause (p : Power) : Nat := place p.cause 3 0 + (if p.afterFreeze then 16 else 0)

/-- Registers below the mailbox windows (R341, R342). -/
def State.reg (s : State) (fn off : Nat) : Nat :=
  if off = 0x00 then 0x00B09600
  else if off = 0x04 then (if s.boot.stage = 5 then s.boot.fwVersion else 0)
  else if off = 0x08 then (if s.boot.stage = 5 then s.boot.protoVersion else 0)
  else if off = 0x20 then bootStatus s
  else if off = 0x80 then (if fn = 0 then s.pci.evStatus0 else s.pci.evStatus1)
  else if off = 0x84 then (if fn = 0 then s.pci.evEnable0 else s.pci.evEnable1)
  else if fn ≠ 0 then 0
  else if off = 0x10 then fld s.fuse.uid 31 0
  else if off = 0x14 then fld s.fuse.uid 63 32
  else if off = 0x24 then resetCause s.pwr
  else if off = 0x40 then powerState s.pwr
  else if off = 0x44 then s.aon.wakeCause
  else if off = 0x50 then linkStatus s.pci
  else if off = 0x60 then fld s.timeNow 31 0
  else if off = 0x64 then s.clk.hiLatch
  else if off = 0x90 then errSummary s.err
  else if off = 0x94 then s.err.correctedCount
  else if off = 0xA0 then s.pci.dbError
  else if off = 0xA4 then s.pci.dbErrorCount
  else 0

/-- An aligned 32-bit read of BAR0 (R340 to R347); other accesses read as zero. -/
def State.bar0Read (s : State) (fn off : Nat) : Nat :=
  if off % 4 ≠ 0 || !s.barOk fn then 0
  else if s.aonServes then
    if off = 0 || off = 0x20 || (fn = 0 && (off = 0x40 || off = 0x44 || off = 0x60 || off = 0x64)) then s.reg fn off else 0
  else if off < 0x10000 then s.reg fn off
  else if off < (if fn = 0 then 0x18000 else 0x12000) then
    winRead (s.win ((off - 0x10000) / 0x400 + (if fn = 0 then 0 else 32))) ((off - 0x10000) % 0x400)
  else if fn = 0 && 0x80000 ≤ off && off < 0x100000 then s.snapRead ((off - 0x80000) / 0x8000) ((off - 0x80000) % 0x8000)
  else 0

/-- A 32-bit read of BAR4 (R340, R348): the MSI-X table, with the mask bit of vector control, and the pending bits. -/
def State.bar4Read (s : State) (fn off : Nat) : Nat :=
  if off % 4 ≠ 0 || !s.barOk fn then 0
  else
    let vecs := if fn = 0 then 2048 else 16
    if off < 16 * vecs then
      if off % 16 = 12 then (if s.pci.unmasked.contains (fn * 2048 + off / 16) then 0 else 1)
      else tabGet 0 s.pci.table (fn * 65536 + off)
    else if 0x8000 ≤ off && off < 0x8000 + vecs / 8 then
      sumOf ((List.range 32).map (fun i =>
        if s.pci.pend.contains (fn * 2048 + 8 * (off - 0x8000) + i) then 2 ^ i else 0))
    else 0

/-- A read of BAR2 returns the last value written to the doorbell (R5, R353): one that the AON still stores is the
newest (R347). -/
def State.bar2Read (s : State) (off : Nat) : Nat :=
  if off % 4096 ≠ 0 || !s.barOk 0 then 0
  else
    match tabFind s.hq (off / 4096), s.aon.storedDb.reverse.find? (fun d => d.1 == off / 4096) with
    | some _, some d => d.2 % 65536
    | some q, none => q.db
    | none, _ => 0

/-- DEVICE_TIME_LO_READ (R341): the low word is returned, and the high word is latched. -/
def execDeviceTimeLoRead (s : State) : Result :=
  .next (if !s.barOk 0 then s
    else (s.setClk { s.clk with hiLatch := fld s.timeNow 63 32 }).setPci { s.pci with readData := fld s.timeNow 31 0 })

/-- DB_ERROR_COUNT_READ (R341): the count is returned and cleared; in SLEEP and WAKING it reads as zero (R347). -/
def execDbErrorCountRead (s : State) : Result :=
  .next (if !s.barOk 0 then s
    else if s.aonServes then s.setPci { s.pci with readData := 0 }
    else s.setPci { s.pci with readData := s.pci.dbErrorCount, dbErrorCount := 0 })

/-! ### MSI-X (R348, R365) -/

/-- The due vectors of a function that are unmasked are sent, once each (R348, R365). -/
def State.flushVecs (s : State) (fn : Nat) : State :=
  if !s.busMaster fn then s
  else
    let due := s.pci.pend.filter (fun k => k / 2048 == fn && s.pci.unmasked.contains k)
    let s := s.setPci { s.pci with pend := s.pci.pend.filter (fun k => !due.contains k) }
    due.reverse.foldl (fun (s : State) k => s.emit (.msix fn (k % 2048))) s

/-- Unmask a vector. -/
def State.unmask (s : State) (fn vec : Nat) : State :=
  let k := fn * 2048 + vec
  (if s.pci.unmasked.contains k then s else s.setPci { s.pci with unmasked := k :: s.pci.unmasked }).flushVecs fn

/-- A vector that a function has (R348). -/
def msixOk (fn vec : Nat) : Bool := (fn == 0 && vec < 2048) || (fn == 1 && vec < 16)

/-- MSIX_UNMASK (R348). -/
def execMsixUnmask (fn vec : Nat) (s : State) : Result :=
  .next (if !s.barOk fn || !msixOk fn vec then s else s.unmask fn vec)

/-! ### Mailbox registers (R368, R370) -/

/-- A secure channel that the other path owns discards writes (R368). -/
def State.otherPath (s : State) (path ch : Nat) : Bool :=
  32 ≤ ch && match tabFind s.mbox.session ch with | some x => x.path != path | none => false

/-- A write to MB_DOORBELL (R370, R372, R371, R347). -/
def State.mbDoorbell (s : State) (path ch v : Nat) : State :=
  let w := s.win ch
  if v % 2 = 0 || s.otherPath path ch || w.pending then s
  else
    let s := s.putWin ch { w with pending := true, aborted := false, via := path }
    if s.aonServes then s.wake (if ch < 32 then 4 else 5) else s.leaveIdle

/-- A write to MB_ACK (R370). -/
def State.mbAck (s : State) (path ch v : Nat) : State :=
  let w := s.win ch
  if v % 2 = 0 || s.otherPath path ch || !w.valid then s else s.putWin ch { w with valid := false }

/-- Write bytes into MB_H2D. -/
def State.mbWrite (s : State) (path ch off : Nat) (b : Bytes) : State :=
  if s.otherPath path ch then s
  else let w := s.win ch; s.putWin ch { w with h2d := memPut w.h2d off b }

/-- A path reaches a channel: PCIe (0) through the channel's function, I3C (1) the secure channels (R368). -/
def State.reaches (s : State) (path ch : Nat) : Bool :=
  if ch < 32 then path == 0 && s.barOk 0
  else ch < 40 && ((path == 0 && s.barOk 1) || (path == 1 && s.linked))

/-- MB_DOORBELL_WRITE (R370). -/
def execMbDoorbellWrite (path ch v : Nat) (s : State) : Result :=
  .next (if s.reaches path ch then s.mbDoorbell path ch v else s)

/-- MB_ACK_WRITE (R370). -/
def execMbAckWrite (path ch v : Nat) (s : State) : Result :=
  .next (if s.reaches path ch then s.mbAck path ch v else s)

/-- One byte that an I3C private write puts at an address of the secure windows (R369): doorbell and ack take effect when
their four bytes are complete. -/
def State.i3cByte (s : State) (a : Nat) (b : Byte) : State :=
  let ch := 32 + a / 0x400
  let o := a % 0x400
  if o < 0x110 then s.mbWrite 1 ch o [b]
  else if (0x3F0 ≤ o && o < 0x3F4) || (0x3F8 ≤ o && o < 0x3FC) then
    let part := tabPut s.mbox.i3cPart a b.toNat
    let at0 := a - a % 4
    if (List.range 4).all (fun i => tabHas part (at0 + i)) then
      let v := sumOf ((List.range 4).map (fun i => tabGet 0 part (at0 + i) * 256 ^ i))
      let s := s.setMbox { s.mbox with i3cPart := part.filter (fun p => !(at0 ≤ p.1 && p.1 < at0 + 4)) }
      if o < 0x3F8 then s.mbDoorbell 1 ch v else s.mbAck 1 ch v
    else s.setMbox { s.mbox with i3cPart := part }
  else s

/-- I3C_PRIVATE_WRITE (R369): a 2-byte pointer, then data from it upward. -/
def execI3cPrivateWrite (bytes : Bytes) (s : State) : Result :=
  .next (if !s.linked || bytes.length < 2 then s
    else
      let p := leAt bytes 0 2 % 8192
      let s := s.setMbox { s.mbox with i3cPtr := p }
      let data := bytes.drop 2
      ((List.range data.length).zip data).foldl (fun (s : State) x => s.i3cByte ((p + x.1) % 8192) x.2) s)

/-- A private read of `n` bytes from the last pointer upward (R369). -/
def State.i3cRead (s : State) (n : Nat) : Bytes :=
  (List.range n).map (fun i =>
    let a := (s.mbox.i3cPtr + i) % 8192
    BitVec.ofNat 8 (winRead (s.win (32 + a / 0x400)) (a % 0x400 - a % 4) >>> (8 * (a % 4))))

/-! ### Writes -/

/-- A W1C register after a write of `v`: the bits written as 1 are clear (R5). -/
def w1c (x v : Nat) : Nat := Nat.land x (Nat.xor (v % 2 ^ 32) (2 ^ 32 - 1))

/-- A write to WAKE_CAUSE (R478); the AON holds the register, in SLEEP too. -/
def State.wakeCauseWrite (s : State) (v : Nat) : State :=
  if !s.barOk 0 then s else s.setAon { s.aon with wakeCause := w1c s.aon.wakeCause v }

/-- A write to EVENT_STATUS of a function (R344, R358): the written bits clear; PF0's db_error takes DB_ERROR.valid with
it. -/
def State.eventStatusWrite (s : State) (fn v : Nat) : State :=
  if !s.barOk fn || s.aonServes || 2 ≤ fn then s
  else if fn = 0 then
    s.setPci { s.pci with
      evStatus0 := w1c s.pci.evStatus0 v, dbError := if bit v 2 then fld s.pci.dbError 30 0 else s.pci.dbError }
  else s.setPci { s.pci with evStatus1 := w1c s.pci.evStatus1 v }

/-- WAKE_CAUSE_CLEAR (R478). -/
def execWakeCauseClear (v : Nat) (s : State) : Result := .next (s.wakeCauseWrite v)

/-- EVENT_STATUS_CLEAR (R344, R358). -/
def execEventStatusClear (fn v : Nat) (s : State) : Result := .next (s.eventStatusWrite fn v)

/-- A 32-bit write into the mailbox windows of a function, at an offset from their start (R346): MB_H2D stores it,
MB_DOORBELL and MB_ACK act (R370), and the other offsets ignore it. -/
def State.winWrite (s : State) (fn off v : Nat) : State :=
  let ch := off / 0x400 + (if fn = 0 then 0 else 32)
  let o := off % 0x400
  if o < 0x110 then s.mbWrite 0 ch o (toLe 4 v)
  else if o = 0x3F0 then s.mbDoorbell 0 ch v
  else if o = 0x3F8 then s.mbAck 0 ch v
  else s

/-- A 32-bit write to BAR0 (R340, R341, R346). -/
def State.bar0Write (s : State) (fn off v : Nat) : State :=
  if off = 0x84 && !s.aonServes then
    if fn = 0 then s.setPci { s.pci with evEnable0 := v % 256 } else s.setPci { s.pci with evEnable1 := v % 256 }
  else if off = 0x80 then s.eventStatusWrite fn v
  else if off = 0x44 && fn = 0 then s.wakeCauseWrite v
  else if 0x10000 ≤ off && off < (if fn = 0 then 0x18000 else 0x12000) then s.winWrite fn (off - 0x10000) v
  else s

/-- A 32-bit write to BAR4 (R340, R348): the MSI-X table; the pending bits ignore it. -/
def State.bar4Write (s : State) (fn off v : Nat) : State :=
  if off < 16 * (if fn = 0 then 2048 else 16) then
    if off % 16 = 12 then
      if v % 2 = 0 then s.unmask fn (off / 16)
      else s.setPci { s.pci with unmasked := s.pci.unmasked.filter (fun k => k != fn * 2048 + off / 16) }
    else s.setPci { s.pci with table := tabSet 0 s.pci.table (fn * 65536 + off) (v % 2 ^ 32) }
  else s

/-! ### The link and the functions' power states -/

/-- PCIE_LINK_TRAINING (R336, R341): LINK_STATUS; below 8 GT/s or ×4 the link is degraded. -/
def execPcieLinkTraining (rate width : Nat) (s : State) : Result :=
  .next (
    let ok := 1 ≤ rate && rate ≤ 5 && (width == 1 || width == 2 || width == 4 || width == 8)
    if !s.alive || s.aon.waking || !ok then s
    else
      let s := s.setPci { s.pci with rate := rate, width := width, l2 := false }
      (if rate < 3 || width < 4 then s.event 5 else s).leaveIdle)

/-- A record, notice or wake source waits for the host (R366). -/
def State.hostWaits (s : State) : Bool :=
  s.hq.any (fun q => !q.2.ready.isEmpty) || s.mbox.ready.any (fun r => r.1 < 32 && r.2.any (fun m => !m.reply)) ||
  s.aon.wakeCause != 0

/-- HOST_READ_ERROR (R338): a CONTAINED error of the context for which the device read. -/
def execHostReadError (ctx : Nat) (s : State) : Result :=
  .next (if s.works then s.contained ctx 0x08 else s)

end Sys2Proof.Machine
end

