-- ==== Sys2Proof/Machine/Queues.lean ====
section
/-! DEFINITION. Machine/Queues.lean: doorbells, fetch and acceptance of descriptors, and the writing of records (R15 to
R19, R296, R297, R347, R350 to R364). -/

namespace Sys2Proof.Machine

/-- Entries of a queue (R350). -/
def HwQueue.entries (q : HwQueue) : Nat := 2 ^ fld q.binding 12 8
/-- Ring base. -/
def HwQueue.ring (q : HwQueue) : Nat := fld q.binding 127 64
/-- Body area size and base. -/
def HwQueue.bodySize (q : HwQueue) : Nat := 2 ^ fld q.binding 260 256
/-- Body area base. -/
def HwQueue.bodyBase (q : HwQueue) : Nat := fld q.binding 255 192

/-- `a − b` modulo `n`, for ring indices below n. -/
def ringSub (a b n : Nat) : Nat := (a + n - b % n) % n

/-! ### Doorbells (R347, R353, R358) -/

/-- A doorbell error (R358): the first is latched, later ones are counted. -/
def State.dbFail (s : State) (q status : Nat) : State :=
  if bit s.pci.dbError 31 then s.setPci { s.pci with dbErrorCount := min (s.pci.dbErrorCount + 1) (2 ^ 32 - 1) }
  else (s.setPci { s.pci with dbError := place q 13 0 + place status 23 16 + 2 ^ 31 }).event 2

/-- Why a doorbell write is an error, if it is one; the first condition of R358's list decides. -/
def State.dbJudge (s : State) (q i : Nat) : Option Nat :=
  match tabFind s.hq q with
  | none => some stFormat
  | some h =>
    let n := h.entries
    if n ≤ i then some stFormat
    else if h.isCq then (if ringSub h.tail h.head n < ringSub i h.head n then some stFormat else none)
    else if (h.head + n - h.tail - 1 + n) % n < ringSub i h.tail n then some stFormat
    else if s.ctxState h.ctx = .tearingDown || s.ctxState h.ctx = .faulted then some stContextFault
    else none

/-- The effect of a queue doorbell write (R353). After a takeover, the head that the host writes says which held records
are written again (R427, R428). -/
def State.ringDb (s : State) (q v : Nat) : State :=
  let i := v % 65536
  match s.dbJudge q i with
  | some e => s.leaveIdle.dbFail q e
  | none =>
    match tabFind s.hq q with
    | none => s
    | some h =>
      let n := h.entries
      let s := s.leaveIdle
      if h.isCq then
        let freed := ringSub i h.head n
        let again := fun (r : Rec) => match r.slot with
          | some (k, _, _) => !h.waitHead || decide (ringSub k i n < ringSub h.tail i n)
          | none => true
        let s := s.setHq (tabPut s.hq q { h with
          head := i, db := i, bodyUse := h.bodyUse.drop freed, waitHead := false, ready := h.ready.filter again })
        if s.mirroring then s.mirror (.cqHead q i) .none else s
      else s.setHq (tabPut s.hq q { h with tail := i, db := i })

/-- A doorbell write through BAR2: in SLEEP and WAKING it is stored (R347). -/
def State.queueDb (s : State) (q v : Nat) : State :=
  if !s.barOk 0 || 16384 ≤ q then s
  else if s.aonServes then s.setAon { s.aon with storedDb := s.aon.storedDb ++ [(q, v)] }
  else s.ringDb q v

/-- SQ_DOORBELL_WRITE (R353). -/
def execSqDoorbellWrite (q v : Nat) (s : State) : Result := .next (s.queueDb q v)

/-- CQ_DOORBELL_WRITE (R353). -/
def execCqDoorbellWrite (q v : Nat) (s : State) : Result := .next (s.queueDb q v)

/-- REGISTER_WRITE (R340, R341, R346, R348, R353): an aligned 32-bit write to a register; one at a register with a row of
its own acts as that row, and read-only and reserved offsets ignore it. -/
def execRegisterWrite (fn bar off v : Nat) (s : State) : Result :=
  .next (
    if !s.barOk fn || off % 4 ≠ 0 || 2 ≤ fn then s
    else if bar = 0 then s.bar0Write fn off v
    else if bar = 2 && fn = 0 && off % 4096 = 0 then s.queueDb (off / 4096) v
    else if bar = 4 then s.bar4Write fn off v
    else s)

/-! ### Checks of a descriptor (R355 to R357) -/

/-- Reserved bits of a descriptor are zero (R355). -/
def descBits (w : Nat) : Bool :=
  fld w 15 14 == 0 && fld w 23 18 == 0 && fld w 31 28 == 0 && fld w 255 240 == 0 && fld w 511 353 == 0

/-- Fields that only the opcodes named in R355 use are zero for the others. -/
def descFields (w : Nat) : Bool :=
  let op := fld w 7 0
  let sample := op == 1
  let text := op == 2
  (sample || (!bit w 12 && fld w 17 16 == 0 && fld w 27 24 == 0)) &&
  (text || (!bit w 13 && !bit w 352)) &&
  (sample || op == 3 || fld w 127 64 == 0) &&
  (text || op == 3 || fld w 239 224 == 0) &&
  (text || (sample && bit w 12) || fld w 319 256 == 0) &&
  (fld w 319 256 != 0 || fld w 351 320 == 0)

/-- A range lies in a registered window; an empty range names nothing. -/
def Ctx.rangeOk (x : Ctx) (a n : Nat) : Bool := n == 0 || x.inWindow a n

/-- The stream of a view is the context's, in SAMPLE mode (R357). -/
def State.viewStream (s : State) (c n : Nat) : Bool :=
  match tabFind s.intake.streams n with
  | some st => st.ctx == c && !bit st.record 2
  | none => false

/-- A view entry of a sample at split level `k` (R356, R357). -/
def State.viewOk (s : State) (c : Nat) (x : Ctx) (k v : Nat) : Bool :=
  let f := fld v 3 0
  let sized := f == 1 || 8 ≤ f
  (f ≤ 5 || (8 ≤ f && f ≤ 11)) && fld v 31 22 == 0 && fld v 255 224 == 0 &&
  (f == 1 || fld v 7 4 == 0) && !(bit v 4 && bit v 5) &&
  (f == 3 || fld v 15 8 == 0) &&
  (if f == 4 || f == 5 then s.viewStream c (fld v 21 16) else fld v 21 16 == 0) &&
  (if sized then fld v 47 32 != 0 && fld v 63 48 != 0 else fld v 63 32 == 0) &&
  fld v 223 192 != 0 && x.inWindow (fld v 191 128) (fld v 223 192) &&
  (if 8 ≤ f then 1 ≤ k else k == 0)

/-- View entries of a SAMPLE descriptor, as fetched. -/
def State.viewList (s : State) (w : Nat) : List Nat :=
  (List.range (fld w 27 24 + 1)).map (fun i => memNat s.hostMem (fld w 191 128 + 32 * i) 32)

/-- The target text of an adaptation sample keeps its sequence within the declared maxima (R170): its tokens are its keys,
and all of them are query rows. A ring job shares the keys and rows out by shards (R200): the sample fits the device's shard
of some sequence, and which one its batch gives it only the step knows, which ends it where it does not fit (log 37). -/
def State.targetOk (s : State) (c : Nat) (x : Ctx) (w : Nat) : Bool :=
  match x.image, s.vocabOf c with
  | some im, some v =>
    let vs := match x.part with | some p => (im.variants[p.variant]?).toList | none => im.variants
    let n := (textBuffer v true { ctx := c } (s.hostBytes (fld w 319 256) (fld w 351 320))).1.length
    match s.ringJob? c with
    | some j =>
      decide (n ≤ keyLimit (some j) x.kvRec) && vs.all (fun z => (List.range j.shards.length).any (fun q =>
        decide (ownKeys (some j) q n ≤ maxTokensOf z) && decide ((ownRows (some j) q n 0).1 ≤ maxQueriesOf z)))
    | none => vs.all (fun z => decide (n ≤ maxTokensOf z) && decide (n ≤ maxQueriesOf z))
  | _, _ => true

/-- The checks of one opcode (R355 to R357). -/
def State.descOk (s : State) (c : Nat) (x : Ctx) (w : Nat) : Bool :=
  let a := fld w 191 128
  let n := fld w 223 192
  let h := fld w 239 224
  let op := fld w 7 0
  descBits w && descFields w && x.rangeOk a n && x.rangeOk (fld w 319 256) (fld w 351 320) &&
  (if op = 1 then
    match s.prof c with
    | none => false
    | some p =>
      let k := fld w 17 16
      a % 64 == 0 && n == 32 * (fld w 27 24 + 1) && p.splitMin ≤ k && k ≤ p.splitMax &&
      (s.viewList w).all (s.viewOk c x k) && (!bit w 12 || s.targetOk c x w)
  else if op = 2 then
    let vocab := match x.image with | some im => im.vocab.any (fun b => b != 0) | none => false
    n != 0 && vocab && (match tabFind s.text.streams h with | some t => t.ctx == c | none => false)
  else if op = 3 then
    n != 0 && (match tabFind s.intake.streams h with | some t => t.ctx == c && bit t.record 2 | none => false)
  else if op = 4 then a == 0 && n == 0
  else false)

/-- Status with which a fetched descriptor is rejected, or OK (R354). -/
def State.descStatus (s : State) (c w : Nat) : Nat :=
  if fld w 11 8 ≠ 2 then stVersion
  else match s.ctx? c with
    | some x => if s.descOk c x w then stOK else stFormat
    | none => stFormat

/-! ### Fetch and acceptance (R354, R364, R495) -/

/-- The entry at the head of an SQ, where the SQ is open: firmware serves, PF0 may issue requests, the context takes
work, and fewer than 16,128 descriptors and items are outstanding. -/
def State.fetchOpen (s : State) (q : Nat) : Option (HwQueue × Nat) :=
  match tabFind s.hq q with
  | none => none
  | some h =>
    let open_ := match s.ctx? h.ctx with
      | some x => !x.draining && x.st != .tearingDown && x.st != .faulted
      | none => false
    if s.works && s.busMaster 0 && !h.isCq && !h.stopped && h.head != h.tail && open_ && s.outCount < 16128 then
      some (h, memNat s.hostMem (h.ring + 64 * h.head) 64)
    else none

/-- A descriptor of an SQ waits for the partner's acknowledgement (R425). -/
def State.acceptWaits (s : State) (q : Nat) : Bool :=
  s.mirrorWaits.any (fun m => match m with | .accept k _ _ _ => k == q | _ => false)

/-- An SQ's turn (R354): SQs of real-time contexts come before those of best-effort ones, and each class is served round
robin, from the queue number after the one served last. -/
def State.fetchTurn (s : State) (q : Nat) (h : HwQueue) : Bool :=
  let rt := s.isRt h.ctx
  let last := if rt then s.sched.lastFetch.1 else s.sched.lastFetch.2
  let far := fun k => (k + 32767 - last) % 16384
  s.hq.all (fun k => (s.fetchOpen k.1).isNone || s.acceptWaits k.1 ||
    (if s.isRt k.2.ctx == rt then decide (far q ≤ far k.1) else rt))

/-- The entry at the head of an SQ whose turn it is to fetch. -/
def State.fetchable (s : State) (q : Nat) : Option (HwQueue × Nat) :=
  match s.fetchOpen q with
  | some (h, w) => if s.fetchTurn q h then some (h, w) else none
  | none => none

/-- An SQ of a context has been served (R354). -/
def State.sqServed (s : State) (q c : Nat) : State :=
  let l := s.sched.lastFetch
  s.setSched { s.sched with lastFetch := if s.isRt c then (q, l.2) else (l.1, q) }

/-- The head of an SQ moves past a fetched entry, which takes a fetch number. -/
def State.takeHead (s : State) (q : Nat) (h : HwQueue) (ds : List Desc) : State :=
  ((s.leaveIdle).sqServed q h.ctx).setHq (tabPut s.hq q { h with
    head := (h.head + 1) % h.entries, nextNo := h.nextNo + 1, outst := h.outst ++ ds })

/-- A rejected descriptor: one completion record and nothing more (R354). -/
def State.rejectDesc (s : State) (q : Nat) (h : HwQueue) (w status : Nat) : State :=
  (s.takeHead q h []).pushRec (fld h.binding 29 16)
    { kind := 0, status := status, sq := some q, descNo := h.nextNo, itemId := fld w 63 32, ctx := h.ctx }

/-- The work of an accepted descriptor begins, with its view entries (R15, R219, R297, R359). -/
def State.startDesc (s : State) (q : Nat) (h : HwQueue) (d : Desc) (views : List Nat) : State :=
  let w := d.word
  let op := fld w 7 0
  if op = 1 then
    let k := fld w 17 16
    let n := s.intake.nextItem
    let it : Item :=
      { kind := .sample q d.no, ctx := h.ctx, cq := fld h.binding 29 16, itemId := fld w 63 32,
        views := views.map s.newView, level := k, train := bit w 12,
        target := s.hostBytes (fld w 319 256) (fld w 351 320), capture := d.time,
        ref := d.ref, replayed := d.replayed }
    -- a sample whose views all state their dimensions has its bucket at once (R293)
    let s1 := (s.setIntake { s.intake with items := tabPut s.intake.items n it, nextItem := n + 1 }).checkDims n
    match tabFind s.intake.sources (64 + q) with
    | some x =>
      (match x.before with
       | some (old, at0) => if at0 < s.clk.time && k == old && old != x.level then s1.count h.ctx 0x6C 1 else s1
       | none => s1)
    | none => s1
  else if op = 2 then
    s.queueText (fld w 239 224) q d.no
  else if op = 3 then
    let n := s.intake.nextItem
    let a : AccessUnit :=
      { sq := q, desc := d.no, capture := d.time, data := s.hostBytes (fld w 191 128) (fld w 223 192), order := n }
    (s.setIntake { s.intake with
      nextItem := n + 1,
      streams := tabUpd s.intake.streams (fld w 239 224) (fun x => { x with units := x.units ++ [a] }) }).decodeStart
  else s.settleMarkers q

/-- The capture time that a descriptor fetched now carries (R15): the host's, or the time of the fetch. -/
def State.captureOf (s : State) (w : Nat) : Nat := if fld w 127 64 = 0 then s.clk.time else fld w 127 64

/-- The view entries of a fetched descriptor (R356). -/
def State.viewsOf (s : State) (w : Nat) : List Nat := if fld w 7 0 = 1 then s.viewList w else []

/-- A descriptor fetched with capture time `t` and view entries `vs` is accepted (R354, R495), and its work begins. -/
def State.acceptDesc (s : State) (q : Nat) (h : HwQueue) (w t : Nat) (vs : List Nat) : State :=
  let d : Desc := { no := h.nextNo, acc := s.sched.accSeq, word := w, time := t }
  let s := s.takeHead q h [d]
  (s.setSched { s.sched with accSeq := s.sched.accSeq + 1 }).startDesc q h d vs

/-- Take the entry fetched at the head of an SQ: reject it or accept it. -/
def State.takeDesc (s : State) (q : Nat) (h : HwQueue) (w t : Nat) (vs : List Nat) : State :=
  let st := s.descStatus h.ctx w
  if st = stOK then s.acceptDesc q h w t vs else s.rejectDesc q h w st

/-- Fetch the entry at the head of an SQ for the row of opcode `op`; an opcode that no row has is taken by any row. While
the device mirrors, acceptance waits for the partner (R425). -/
def State.fetchDesc (s : State) (op q : Nat) : State :=
  match s.fetchable q with
  | none => s
  | some (h, w) =>
    let o := fld w 7 0
    if o ≠ op && 1 ≤ o && o ≤ 4 then s
    else if s.mirroring && s.descStatus h.ctx w = stOK then
      if s.acceptWaits q then s
      else
        let views := if o = 1 then s.hostBytes (fld w 191 128) (fld w 223 192) else []
        (s.sqServed q h.ctx).mirror (.submission h.ctx q h.nextNo ((h.head + 1) % h.entries) (s.captureOf w) (toLe 64 w) views)
          (.accept q w (s.captureOf w) (s.viewsOf w))
    else s.takeDesc q h w (s.captureOf w) (s.viewsOf w)

/-- The partner has acknowledged the descriptor at the head of an SQ, as it was fetched (R15, R425). -/
def State.acceptHead (s : State) (q w t : Nat) (vs : List Nat) : State :=
  match s.fetchOpen q with
  | some (h, _) => s.takeDesc q h w t vs
  | none => s

/-- SAMPLE (R354 to R357). -/
def execSample (q : Nat) (s : State) : Result := .next (s.fetchDesc 1 q)

/-- TEXT (R354, R355, R357). -/
def execText (q : Nat) (s : State) : Result := .next (s.fetchDesc 2 q)

/-- STREAM_DATA (R354, R355, R357). -/
def execStreamData (q : Nat) (s : State) : Result := .next (s.fetchDesc 3 q)

/-- MARKER (R354, R355, R359). -/
def execMarker (q : Nat) (s : State) : Result := .next (s.fetchDesc 4 q)

/-! ### Writing records (R14, R16, R17, R19, R359 to R362) -/

/-- The item status at the moment of writing (R16), and whether the record is late (R17). -/
def State.finalStatus (s : State) (r : Rec) : Nat × Bool :=
  let late := r.kind != 0 && (match r.deadline with | some d => decide (d < s.clk.time) | none => false)
  let torn := s.ctxState r.ctx == .tearingDown || s.ctxState r.ctx == .faulted
  let lost := match r.page with
    | some (p, q) => bit ((s.pageGeometry p q).getD 0) 224
    | none => false
  let st :=
    if torn && r.status != stFormat && r.status != stVersion then stContextFault
    else if r.status != stOK then r.status
    else if lost then stIncomplete
    else if late then stDeadline
    else stOK
  (st, late)

/-- The body with its item status (R363). -/
def bodyWith (b : Bytes) (st : Nat) : Bytes := if b.isEmpty then [] else b.take 8 ++ toLe 1 st ++ b.drop 9

/-- Where a body of `n` bytes goes in the body area: its offset and the bytes skipped before it, or none where it does
not fit in the released space (R362). -/
def HwQueue.bodyPlace (h : HwQueue) (n : Nat) : Option (Nat × Nat) :=
  let a := h.bodySize
  let skip := if h.bodyAt + n ≤ a then 0 else a - h.bodyAt
  if sumOf h.bodyUse + skip + n ≤ a then some (if h.bodyAt + n ≤ a then h.bodyAt else 0, skip) else none

/-- A completion record (R359). A COMPLETION has no body, and its body offset is free (log 51). -/
def State.recordWord (s : State) (h : HwQueue) (r : Rec) (st : Nat) (late : Bool) (off len : Nat) : Nat :=
  let head := match r.sqHead, r.sq with
    | some n, _ => n
    | none, some q => (match tabFind s.hq q with | some x => x.head | none => 0)
    | none, none => 0
  (if h.passes % 2 = 0 then 1 else 0) + place r.kind 3 1 + (if late then 16 else 0) + (if r.replayed then 32 else 0) +
  place st 15 8 + (match r.sq with | some q => place q 29 16 + 2 ^ 30 | none => 0) + place head 47 32 +
  place r.itemId 127 64 + place s.clk.time 191 128 + place off 223 192 + place len 255 224 + place r.detail 287 256

/-- A record that must wait is held, once counted against its context (R19, R319), and PME asks for the host (R366). -/
def State.holdRec (s : State) (q : Nat) (r : Rec) : State :=
  let s := if r.held then s
    else (s.setHq (tabUpd s.hq q (fun h => { h with ready := listMod h.ready 0 (fun x => { x with held := true }) }))).risk r.ctx 5
  s.pme

/-- What goes back when a record is written: the descriptor's slot, and the page's store (R14). -/
def State.recordDone (s : State) (r : Rec) : State :=
  let s := match r.sq, r.sqHead with
    | some q, none => s.setHq (tabUpd s.hq q (fun h => { h with outst := h.outst.filter (fun d => d.no != r.descNo) }))
    | _, _ => s
  let s := match r.page with
    | some (p, n) =>
      let g := s.port p
      let mine := match g.pages.find? (fun (x : Page) => x.seq == n) with | some x => x.chunks | none => []
      let s := s.putPort p { g with
        pages := g.pages.filter (fun x => x.seq != n), free := g.free ++ mine,
        unacked := g.unacked.filter (fun c => !mine.contains c) }
      match g.cfg with | some c => s.trimPool p c.storeMib | none => s
    | none => s
  (s.feedHolds).checkDrain r.ctx

/-- The vector of a CQ becomes due by coalesce_count, or at every record with no delay (R361). -/
def State.signal (s : State) (q : Nat) : State :=
  match tabFind s.hq q with
  | none => s
  | some h =>
    let n := h.unsignalled + 1
    let s := s.setHq (tabPut s.hq q { h with unsignalled := n, oldestAt := if h.unsignalled = 0 then s.clk.time else h.oldestAt })
    if fld h.binding 167 152 = 0 || max 1 (fld h.binding 151 144) ≤ n then
      (s.setHq (tabUpd s.hq q (fun h => { h with unsignalled := 0 }))).raiseVec 0 (fld h.binding 138 128)
    else s

/-- The oldest record of a CQ as it goes to its tail (R361): the completion record and the body. A COMPLETION has no body, and
its body offset is free (log 51). -/
def State.composeRec (s : State) (h : HwQueue) (r : Rec) (off : Nat) : State × Nat × Bytes :=
  let (st, late) := s.finalStatus r
  let body := bodyWith r.body st
  let (f, s1) := s.freeNat
  (if r.kind = 0 then s1 else s,
    s.recordWord h r st late (if r.kind = 0 then 64 * (f % (h.bodySize / 64)) else off) body.length, body)

/-- Write a record at a CQ's tail: the body first, then the completion record (R361). -/
def State.putRec (s : State) (q : Nat) (h : HwQueue) (r : Rec) (word : Nat) (body : Bytes) (off skip : Nat) : State :=
  let late := bit word 4
  let s := (s.hostPut (h.bodyBase + off) body).hostPut (h.ring + 64 * h.tail) (toLe 64 word)
  let wrap := h.tail + 1 = h.entries
  let s := s.setHq (tabPut s.hq q { h with
    ready := h.ready.drop 1, tail := if wrap then 0 else h.tail + 1, passes := if wrap then h.passes + 1 else h.passes,
    bodyAt := if body.isEmpty then h.bodyAt else off + body.length, bodyUse := h.bodyUse ++ [skip + body.length] })
  let s := if late then s.count r.ctx 0x70 1 else s
  let s := if r.replayed then s.count r.ctx 0x2A 1 else s
  ((s.leaveIdle.signal q).recordDone r)

/-- Write the oldest record of a CQ: as it is now, or as the partner has acknowledged it (R425). -/
def State.writeRec (s : State) (q : Nat) (h : HwQueue) (r : Rec) (off skip : Nat) : State :=
  match r.sent with
  | some (word, body, off, skip) => s.putRec q h r word body off skip
  | none =>
    let (s, word, body) := s.composeRec h r off
    s.putRec q h r word body off skip

/-- Send the oldest record of a CQ to the partner; its write waits for the acknowledgement, and writes what was sent (R425,
R428). -/
def State.mirrorRec (s : State) (q : Nat) (h : HwQueue) (r : Rec) (off skip : Nat) : State :=
  let (s, word, body) := s.composeRec h r off
  let keep := fun (x : Rec) => { x with sent := some (word, body, off, skip) }
  (s.setHq (tabUpd s.hq q (fun h => { h with ready := listMod h.ready 0 keep }))).mirror
    (.record r.ctx q h.tail off (toLe 64 word) body) (.record q)

/-- A takeover rewrite: the mirrored record and body go to their old slot and offset, with replayed set (R428). -/
def State.rewriteRec (s : State) (q : Nat) (h : HwQueue) (r : Rec) (slot off : Nat) (old : Bytes) : State :=
  let word := leNat old
  let word := if bit word 5 then word else word + 32
  let s := (s.hostPut (h.bodyBase + off) r.body).hostPut (h.ring + 64 * slot) (toLe 64 word)
  let s := s.setHq (tabPut s.hq q { h with ready := h.ready.drop 1 })
  (((s.count r.ctx 0x2A 1).leaveIdle.signal q).recordDone r)

/-- A record may be written now: those of a PREEMPTED context come after its resume (R329). One that the partner has, or that
is on its way there, stays what it is. -/
def State.postable (s : State) (r : Rec) : Bool := r.mirrored || r.sent.isSome || s.ctxState r.ctx != .preempted

/-- Records of PREEMPTED contexts let those of other contexts pass (R329). -/
def State.passHeld (s : State) (q : Nat) : State :=
  s.setHq (tabUpd s.hq q (fun h => { h with ready := h.ready.filter s.postable ++ h.ready.filter (fun r => !s.postable r) }))

/-- RECORD_POST (R14, R16, R17, R19, R329, R359 to R363, R365, R425): the oldest finished record of a CQ is written, or
held. -/
def execRecordPost (q : Nat) (s : State) : Result :=
  .next (
    let s := s.passHeld q
    match tabFind s.hq q with
    | none => s
    | some h =>
      match h.ready with
      | [] => s
      | r :: _ =>
        if !s.works || !h.isCq || h.waitHead || !s.postable r then s
        else if !s.busMaster 0 then s.holdRec q r
        else match r.slot with
          | some (slot, off, old) => s.rewriteRec q h r slot off old
          | none =>
            if (h.tail + 1) % h.entries = h.head then s.holdRec q r
            else match h.bodyPlace r.body.length with
              | none => s.holdRec q r
              | some (off, skip) =>
                if s.mirroring && !r.mirrored then
                  if s.mirrorWaits.contains (.record q) then s else s.mirrorRec q h r off skip
                else s.writeRec q h r off skip)

/-- MSIX_COALESCE_TIMEOUT (R361): coalesce_us after the oldest unsignalled record. -/
def execMsixCoalesceTimeout (q : Nat) (s : State) : Result :=
  .next (match tabFind s.hq q with
    | none => s
    | some h =>
      if !s.alive || h.unsignalled = 0 || s.clk.time < h.oldestAt + 1000 * fld h.binding 167 152 then s
      else (s.setHq (tabPut s.hq q { h with unsignalled := 0 })).raiseVec 0 (fld h.binding 138 128))

end Sys2Proof.Machine
end

