-- ==== Sys2Proof/Machine/Mbox.lean ====
section
/-! DEFINITION. Machine/Mbox.lean: taking, checking and answering MHP messages, fragments, posting, and sessions (R368 to
R382, R391). -/

namespace Sys2Proof.Machine

/-! ### Headers (R373) -/

/-- opcode -/
def hOp (h : Nat) : Nat := fld h 15 0
/-- more -/
def hMore (h : Nat) : Bool := bit h 18
/-- seq -/
def hSeq (h : Nat) : Nat := fld h 47 32
/-- session -/
def hSession (h : Nat) : Nat := fld h 55 48
/-- frag_index -/
def hFrag (h : Nat) : Nat := fld h 61 56
/-- payload_length -/
def hLen (h : Nat) : Nat := fld h 72 64

/-- A request's header has only the fields a request uses, in range (R373, R377 check 7). -/
def hdrOk (h : Nat) : Bool := onlyBits h [(15, 0), (18, 18), (47, 32), (55, 48), (61, 56), (72, 64)] && hLen h ≤ 256

/-- The message in MB_H2D: header and payload. -/
def State.msg (s : State) (ch : Nat) : Nat × Bytes :=
  let w := s.win ch
  let h := memNat w.h2d 0 16
  (h, memBytes w.h2d 16 (min 256 (hLen h)))

/-- Bits [hi:lo] of a payload; what lies beyond its end is zero. -/
def pf (b : Bytes) (hi lo : Nat) : Nat := fld (leNat b) hi lo

/-- The session handle of a channel (R373). -/
def handleOf (ch : Nat) : Nat := ch

/-- Firmware, or the seal core, serves the channel (R343, R368, R448). -/
def State.served (s : State) (ch : Nat) : Bool :=
  if ch < 32 then s.ready && (s.pwr.state == 0 || s.pwr.state == 1) else decide (ch < 40) && s.alive && !s.aonServes

/-- Requests of a channel that are not answered: those taken, and replies that are not posted (R371). -/
def State.unanswered (s : State) (ch : Nat) : Nat :=
  countIf (fun r => r.ch == ch) s.mbox.taken + countIf (fun m => m.reply) (tabGet [] s.mbox.ready ch)

/-- A message waits on the channel, and the receiver takes messages there (R371). -/
def State.takes (s : State) (ch : Nat) : Bool := s.served ch && (s.win ch).pending && s.unanswered ch < 16

/-- Take the message: h2d_pending clears (R370). -/
def State.takeMsg (s : State) (ch : Nat) : State := (s.putWin ch { s.win ch with pending := false }).leaveIdle

/-- Make a reply ready for a message that has not become a request. An enrol nonce is good for one enrolment, this one too
(R466). -/
def State.refuse (s : State) (ch seq op status : Nat) : State :=
  let m : OutMsg :=
    { opcode := op, reply := true, status := status, seq := seq, payload := [], key := 0, frag := 0, ready := s.clk.time }
  let s := if 32 ≤ ch && op == 0x0103 then s.setBoot { s.boot with nonces := tabDel s.boot.nonces ch } else s
  s.setMbox { s.mbox with ready := tabMod [] s.mbox.ready ch (insertReady m) }

/-- The next request number of a channel goes on by one (R375). -/
def State.nextReq (s : State) (ch : Nat) : State :=
  s.setMbox { s.mbox with
    session := tabUpd s.mbox.session ch (fun x => { x with nextSeq := (x.nextSeq + 1) % 65536 }) }

/-- Commands of the non-secure and of the secure channels (R383, R384). -/
def opExists (ch op : Nat) : Bool :=
  if ch < 32 then
    [0x01, 0x02, 0x10, 0x11, 0x12, 0x13, 0x20, 0x21, 0x22, 0x23, 0x30, 0x31, 0x32, 0x33, 0x40, 0x41, 0x42, 0x43].contains op ||
    [0x50, 0x51, 0x52, 0x53, 0x54, 0x55, 0x56, 0x57, 0x58, 0x60, 0x61, 0x70, 0x71, 0x80, 0x81, 0x82].contains op
  else op == 0x01 || op == 0x02 || (0x100 ≤ op && op ≤ 0x105)

/-- Commands that firmware accepts while the device is frozen (R380). -/
def frozenOk (op : Nat) : Bool := [0x01, 0x02, 0x13, 0x70, 0x71].contains op

/-- Checks 3 to 5 of R377: the status of the first that fails, or OK. -/
def State.opCheck (s : State) (ch minor op : Nat) : Nat :=
  if !opExists ch op then stFormat
  else if 0x80 ≤ op && op ≤ 0x82 && minor < 1 then stVersion
  else if ch < 32 && s.err.frozen && !frozenOk op then stFrozen
  else stOK

/-- A request enters the list of those that are taken and not answered, and its handler runs. -/
def State.begin (s : State) (r : Request) (run : State → Request → State) : State :=
  run (s.setMbox { s.mbox with taken := s.mbox.taken ++ [r] }) r

/-- The message that waits on channel `ch` is taken by the row of command `op` that `sel` selects, and goes through the
checks of R377 in order; `named` is check 6, `fmt` the payload's part of check 7, and `run` check 8 with the effect. -/
def State.onMsg (s : State) (ch op : Nat) (sel : Bytes → Bool) (ctxOf : State → Bytes → Option Nat)
    (named : State → Nat → Bytes → Bool) (fmt : Bytes → Bool) (run : State → Request → State) : State :=
  let (h, p) := s.msg ch
  if !s.takes ch || hOp h ≠ op || !sel p || tabHas s.mbox.gather ch || tabHas s.mbox.whole ch then s
  else
    let s := s.takeMsg ch
    match tabFind s.mbox.session ch with
    | none => s.refuse ch (hSeq h) op stFormat
    | some x =>
      if hSeq h ≠ x.nextSeq then s.refuse ch (hSeq h) op stFormat
      else
        let s := s.nextReq ch
        if hSession h ≠ handleOf ch then s.refuse ch (hSeq h) op stFormat
        else
          let st := s.opCheck ch x.minor op
          if st ≠ stOK then s.refuse ch (hSeq h) op st
          else if !named s ch p || !hdrOk h || hMore h || hFrag h ≠ 0 || !fmt p then s.refuse ch (hSeq h) op stFormat
          else s.begin { ch := ch, seq := hSeq h, opcode := op, payload := p, ctx := ctxOf s p } run

/-- The row of a secure command takes a whole message gathered from fragments, or one that came in one piece
(R374, R384). -/
def State.onSecure (s : State) (ch op : Nat) (fmt : Bytes → Bool) (run : State → Request → State) : State :=
  if ch < 32 then s
  else
    match tabFind s.mbox.whole ch with
    | some (o, seq, p) =>
      if o ≠ op || !s.served ch then s
      else
        let s := s.setMbox { s.mbox with whole := tabDel s.mbox.whole ch }
        if fmt p then s.begin { ch := ch, seq := seq, opcode := op, payload := p, ctx := none } run
        else s.refuse ch seq op stFormat
    | none =>
      if hMore (s.msg ch).1 then s
      else s.onMsg ch op (fun _ => true) (fun _ _ => none) (fun _ _ _ => true) fmt run

/-- A message with an opcode that no row has is answered FORMAT (R377 check 3). -/
def State.takeStray (s : State) (ch : Nat) : State :=
  let (h, _) := s.msg ch
  if !s.takes ch || opExists ch (hOp h) || tabHas s.mbox.gather ch || tabHas s.mbox.whole ch then s
  else
    let s := s.takeMsg ch
    let s := match tabFind s.mbox.session ch with
      | some x => if hSeq h = x.nextSeq then s.nextReq ch else s
      | none => s
    s.refuse ch (hSeq h) (hOp h) stFormat

/-! ### Fragments (R374) -/

/-- A fragment that begins a message: check 1 and 2 of R377, the number, and the first index. -/
def State.firstFragOk (s : State) (ch h : Nat) : Bool :=
  match tabFind s.mbox.session ch with
  | some x => hSeq h == x.nextSeq && hSession h == handleOf ch && hFrag h == 0 && hLen h == 256 && hdrOk h
  | none => false

/-- MESSAGE_FRAGMENT (R374, R384): the fragment that waits on a secure channel is taken and gathered; one that does not
follow its predecessor ends the message. -/
def execMessageFragment (ch : Nat) (s : State) : Result :=
  .next (
    let (h, p) := s.msg ch
    if ch < 32 || !s.takes ch || tabHas s.mbox.whole ch then s
    else
      match tabFind s.mbox.gather ch with
      | none =>
        if !hMore h || !(0x100 ≤ hOp h && hOp h ≤ 0x105) then s
        else
          let ok := s.firstFragOk ch h
          let s := s.takeMsg ch
          if ok then
            s.setMbox { s.mbox with
              gather := tabPut s.mbox.gather ch { opcode := hOp h, seq := hSeq h, next := 1, payload := p } }
          else
            let s := match tabFind s.mbox.session ch with
              | some x => if hSeq h = x.nextSeq then s.nextReq ch else s
              | none => s
            s.refuse ch (hSeq h) (hOp h) stFormat
      | some g =>
        let follows := hOp h == g.opcode && hSeq h == g.seq && hSession h == handleOf ch && hFrag h == g.next && hdrOk h &&
          (!hMore h || (hLen h == 256 && hFrag h < 63))
        let s := s.takeMsg ch
        if !follows then
          ((s.setMbox { s.mbox with gather := tabDel s.mbox.gather ch }).nextReq ch).refuse ch g.seq g.opcode stFormat
        else if hMore h then
          s.setMbox { s.mbox with gather := tabPut s.mbox.gather ch { g with next := g.next + 1, payload := g.payload ++ p } }
        else
          (s.setMbox { s.mbox with
            gather := tabDel s.mbox.gather ch, whole := tabPut s.mbox.whole ch (g.opcode, g.seq, g.payload ++ p) }).nextReq ch)

/-! ### Posting (R370, R375, R376, R382) -/

/-- The header of a device message's fragment. -/
def outHeader (m : OutMsg) (ch seq len : Nat) (more : Bool) : Nat :=
  place m.opcode 15 0 + (if m.reply then 2 ^ 16 else 2 ^ 17) + (if more then 2 ^ 18 else 0) + place m.status 31 24 +
  place seq 47 32 + place (handleOf ch) 55 48 + place m.frag 61 56 + place len 72 64

/-- The source that a SPLIT_CHANGE names (R387; Intake.sources). -/
def splitSource (p : Bytes) : Nat := if bit (leNat p) 8 then pf p 29 16 else 64 + pf p 29 16

/-- SPLIT_CHANGE gets its effective time when it is posted: 10 ms on; R297 applies from then (R382). -/
def State.stampSplit (s : State) (m : OutMsg) : State × OutMsg :=
  if m.opcode = 0x8002 then
    let t := s.clk.time + 10000000
    (s.setIntake { s.intake with
      sources := tabUpd s.intake.sources (splitSource m.payload) (fun x => { x with before := x.before.map (fun b => (b.1, t)) }) },
     { m with payload := slice m.payload 0 8 ++ toLe 8 t })
  else (s, m)

/-- The interrupt of a channel: a vector, or I3C's where that path owns it (R369, R370). -/
def State.chanInterrupt (s : State) (ch : Nat) : State :=
  if ch < 32 then s.raiseVec 0 (ch + 1)
  else
    let path := match tabFind s.mbox.session ch with | some x => x.path | none => (s.win ch).via
    if path = 1 then s.emit (.ibi (ch - 32)) else s.raiseVec 1 (ch - 31)

/-- D2H_POST (R370, R374 to R376, R382): the oldest ready message, or its next fragment, enters MB_D2H. -/
def execD2hPost (ch : Nat) (s : State) : Result :=
  .next (
    match tabGet [] s.mbox.ready ch with
    | [] => s
    | m0 :: rest =>
      if !s.served ch || (s.win ch).valid then s
      else
        let first := m0.frag = 0
        let (s, m1) := if first && !m0.reply then s.stampSplit m0 else (s, m0)
        let seq := if first && !m1.reply then (match tabFind s.mbox.session ch with | some x => x.nextNotice | none => 0) else m1.seq
        let m := { m1 with seq := seq }
        let s := if first && !m.reply then
            s.setMbox { s.mbox with
              session := tabUpd s.mbox.session ch (fun x => { x with nextNotice := (x.nextNotice + 1) % 65536 }) }
          else s
        let part := (m.payload.drop (256 * m.frag)).take 256
        let more : Bool := 256 * m.frag + 256 < m.payload.length
        let w := s.win ch
        let s := s.setMbox { s.mbox with
          ready := tabSet [] s.mbox.ready ch (if more then { m with frag := m.frag + 1 } :: rest else rest) }
        let bytes := toLe 16 (outHeader m ch seq part.length more) ++ part
        (s.putWin ch { w with valid := true, d2h := memPut w.d2h 0 bytes }).chanInterrupt ch)

/-! ### Sessions (R378 to R381) -/

/-- report_pending (R383, R389): no session has read the last entry of the report held; during a freeze the report is the
carry area's list, which ends every earlier reading. -/
def State.reportPending (s : State) : Bool :=
  if !s.err.frozen then s.boot.reportUnread
  else if s.boot.carryValid then s.boot.carryUnread
  else !s.outEntries.isEmpty

/-- SESSION_OPEN (R375, R377, R378, R383). -/
def execSessionOpen (ch : Nat) (s : State) : Result :=
  .next (
    let (h, p) := s.msg ch
    if !s.takes ch || hOp h ≠ 0x0001 || tabHas s.mbox.gather ch || tabHas s.mbox.whole ch then s
    else
      let via := (s.win ch).via
      let s := s.takeMsg ch
      let hi := min (pf p 23 16) 2
      if hSession h ≠ handleOf ch || hSeq h ≠ 0 || !hdrOk h || hMore h || hFrag h ≠ 0 || !onlyBits (leNat p) [(23, 0)] then
        s.refuse ch (hSeq h) 0x0001 stFormat
      else if tabHas s.mbox.session ch then s.refuse ch 0 0x0001 stNoResource
      else if pf p 7 0 ≠ 3 || hi < pf p 15 8 then s.refuse ch 0 0x0001 stVersion
      else
        let s := s.setMbox { s.mbox with
          session := tabPut s.mbox.session ch { minor := hi, nextSeq := 1, nextNotice := 0, path := via } }
        s.begin { ch := ch, seq := 0, opcode := 0x0001, payload := p, ctx := none } (fun s r =>
          s.answer r stOK (toLe 1 3 ++ toLe 1 hi ++ toLe 1 (handleOf ch) ++ toLe 1 (if s.reportPending then 1 else 0) ++
            toLe 4 (s.reg 0 0x04))))

/-- The session of a channel ends: its notices that are not posted go, with its enrol nonce; a pushed image stays staged,
owned by no session (R461, R466). -/
def State.endSession (s : State) (ch : Nat) : State :=
  let s := s.setMbox { s.mbox with
    session := tabDel s.mbox.session ch,
    ready := tabMod [] s.mbox.ready ch (fun l => l.filter (fun m => m.reply || m.frag != 0)) }
  s.setBoot { s.boot with
    nonces := tabDel s.boot.nonces ch,
    stagingOwner := if s.boot.stagingOwner = some ch then some 255 else s.boot.stagingOwner }

/-- SESSION_CLOSE (R381). -/
def execSessionClose (ch : Nat) (s : State) : Result :=
  .next (s.onMsg ch 0x0002 (fun _ => true) (fun _ _ => none) (fun _ _ _ => true) (fun p => leNat p == 0) (fun s r =>
    if s.ctxs.any (fun c => c.2.session == ch) then s.answer r stNoResource []
    else (s.answer r stOK []).endSession ch))

/-! ### What commands share -/

/-- The handle is held by the channel's session: a context, or one that is destroyed and waits for its CQs (R383). -/
def State.inSession (s : State) (ch c : Nat) : Bool := match s.ctx? c with | some x => x.session == ch | none => false

/-- The context exists and belongs to the channel's session (R377 check 6, R381). -/
def State.ownsCtx (s : State) (ch c : Nat) : Bool :=
  match s.ctx? c with | some x => x.session == ch && x.tearMode != 3 | none => false

/-- The queue is bound, under a context of the channel's session. -/
def State.ownsQueue (s : State) (ch q : Nat) : Bool :=
  match tabFind s.hq q with | some h => s.inSession ch h.ctx | none => false

/-- The port is bound to a context of the channel's session. -/
def State.ownsPort (s : State) (ch p : Nat) : Bool :=
  match (s.port p).ctx with | some c => s.ownsCtx ch c | none => false

/-- A deferred request waits; one that names a context which is being torn down, or is FAULTED, is answered at once with
what the teardown gives it (R507). -/
def State.defer (s : State) (r : Request) : State :=
  match r.ctx.bind s.ctx? with
  | some x =>
    if x.st = .tearingDown || x.st = .faulted then s.answer r (if x.tearMode = 1 then stContextFault else stAborted) [] else s
  | none => s

/-- A command that reads host memory runs where the device may issue requests; else its request waits until it may
(R365, R371). -/
def State.onHost (s : State) (r : Request) (run : State → Request → State) : State :=
  if s.busMaster 0 then run s r
  else
    let mark := fun (q : Request) => if q.ch == r.ch && q.seq == r.seq then { q with hostWait := true } else q
    (s.setMbox { s.mbox with taken := s.mbox.taken.map mark }).defer r

/-- A deferred request may be served: the context it names is not being torn down and not FAULTED. -/
def State.deferOk (s : State) (r : Request) : Bool :=
  match r.ctx.bind s.ctx? with
  | some x => !(x.st == .tearingDown || x.st == .faulted)
  | none => true

end Sys2Proof.Machine
end

