-- ==== Sys2Proof/Machine/MhpCtx.lean ====
section
/-! DEFINITION. Machine/MhpCtx.lean: MHP commands on contexts, windows, regions, copies, queues and text streams (R302,
R313, R324, R333, R350, R351, R367, R383, R391, R507). -/

namespace Sys2Proof.Machine

/-- No selector: the row takes every message of its opcode. -/
def anySel (_ : Bytes) : Bool := true

/-- The context in bits [7:0] of a payload. -/
def ctxByte (_ : State) (p : Bytes) : Option Nat := some (pf p 7 0)

/-- The context in bits [7:0] belongs to the channel's session. -/
def ownCtx (s : State) (ch : Nat) (p : Bytes) : Bool := s.ownsCtx ch (pf p 7 0)

/-- Only the listed bits of the payload are set (R377 check 7). -/
def pBits (rs : List (Nat × Nat)) (p : Bytes) : Bool := onlyBits (leNat p) rs

/-! ### Contexts (R302, R383) -/

/-- The field rules of a context parameter record (R302). -/
def paramsOk (w : Nat) : Bool :=
  onlyBits w [(4, 0), (95, 32)] && fld w 1 0 ≤ 1 &&
  (if fld w 1 0 = 0 then
    fld w 4 2 == 0 && 1 ≤ fld w 63 32 && fld w 63 32 ≤ 4000000 && 1 ≤ fld w 95 64 && fld w 95 64 ≤ 4000000
  else fld w 95 32 == 0)

/-- CONTEXT_CREATE (R302, R383, R423). -/
def execContextCreate (ch : Nat) (s : State) : Result :=
  .next (s.onMsg ch 0x0010 anySel (fun _ _ => none) (fun _ _ _ => true) (fun p => paramsOk (leNat p)) (fun s r =>
    match tabFree s.ctxs 256 with
    | none => s.answer r stNoResource []
    | some c =>
      if s.mirroring && 64 ≤ s.ctxs.length then s.answer r stNoResource []
      else
        let s := s.setCtxs (tabPut s.ctxs c { params := leNat r.payload, session := ch, since := s.clk.time })
        s.answerCtx r c stOK (toLe 1 c)))

/-- Every KV site of a legacy context has a root table (R383). -/
def State.rootsSet (s : State) (c : Nat) (x : Ctx) : Bool :=
  match x.kvRec with
  | some r => !kvLegacy r || (List.range (kvSites r)).all (fun i => tabHas (s.reading c).sites i)
  | none => true

/-- CONTEXT_START (R298, R313, R324, R383). An admission under way goes on, and its reply answers both requests. -/
def execContextStart (ch : Nat) (s : State) : Result :=
  .next (s.onMsg ch 0x0011 anySel ctxByte ownCtx (pBits [(7, 0)]) (fun s r =>
    let c := pf r.payload 7 0
    match s.ctx? c with
    | none => s.answer r stFormat []
    | some x =>
      if x.st != .waiting || (x.realTime && x.profile.isNone) || !s.rootsSet c x then s.answer r stFormat []
      else if x.realTime then
        if s.sched.admitting.any (fun a => a.1 == c) then s
        else match s.admitRt c ch with
          | (s, some st) => s.answer r st []
          | (s, none) => s
      else
        let s := if s.sched.waiting.contains c then s
          else s.setSched { s.sched with waiting := s.sched.waiting ++ [c] }
        s.answerCtx r c stOK []))

/-- A context in DRAIN takes no further capture: a port with no page open goes OFF, and another at its page's end
(R333). -/
def State.drainPorts (s : State) (c : Nat) : State :=
  (s.setPorts (tabMap s.ports (fun _ q =>
    if q.ctx = some c then
      if q.page.isSome then { q with stopReq := some (0, 0) }
      else if q.st = .capturing then
        { q.dropTokens with st := .armed, stopReq := none, paperRun := 0, plainRun := 0, idle := 0 }
      else q
    else q))).feedHolds

/-- CONTEXT_DESTROY (R333, R335, R383, R391): in DRAIN a context that holds a partition completes its work; any other
case is an abort. -/
def State.destroyCtx (s : State) (r : Request) (drain : Bool) : State :=
  let c := pf r.payload 7 0
  match s.ctx? c with
  | none => s.answer r stFormat []
  | some x =>
    if x.tearMode = 3 then s.answer r stOK []
    else if drain && x.st == .running && !x.stopping && x.part.isSome then
      let stops := s.mbox.taken.filter (fun q => q.opcode == 0x0053 && q.ctx == some c &&
        (s.port (pf q.payload 1 0)).page.isNone)
      let s := ((s.modCtx c (fun x => { x with draining := true })).drainPorts c)
      (stops.foldl (fun (s : State) q => s.answer q stOK []) s).checkDrain c
    else s.abortCtx c

/-- CONTEXT_DESTROY in DRAIN mode. -/
def execContextDestroyDrain (ch : Nat) (s : State) : Result :=
  .next (s.onMsg ch 0x0012 (fun p => !bit (leNat p) 8) ctxByte ownCtx (pBits [(8, 0)]) (fun s r => s.destroyCtx r true))

/-- CONTEXT_DESTROY in ABORT mode. -/
def execContextDestroyAbort (ch : Nat) (s : State) : Result :=
  .next (s.onMsg ch 0x0012 (fun p => bit (leNat p) 8) ctxByte ownCtx (pBits [(8, 0)]) (fun s r => s.destroyCtx r false))

/-- CONTEXT_QUERY (R303, R383). -/
def execContextQuery (ch : Nat) (s : State) : Result :=
  .next (s.onMsg ch 0x0013 anySel ctxByte ownCtx (pBits [(7, 0)]) (fun s r =>
    match s.ctx? (pf r.payload 7 0) with
    | none => s.answer r stFormat []
    | some x =>
      let (v, es) := match x.part with | some p => (p.variant, p.easels) | none => (0, [])
      s.answer r stOK (toLe 8 (x.st.code + 256 * v) ++ toLe 8 (sumOf (es.map (fun e => 2 ^ e))))))

/-! ### Windows and regions (R383) -/

/-- WINDOW_REGISTER (R383). -/
def execWindowRegister (ch : Nat) (s : State) : Result :=
  .next (s.onMsg ch 0x0020 anySel ctxByte ownCtx
    (fun p => pBits [(7, 0), (191, 64)] p && pf p 127 64 % 4096 == 0 && pf p 191 128 % 4096 == 0 && 4096 ≤ pf p 191 128 &&
      pf p 127 64 + pf p 191 128 ≤ 2 ^ 64)
    (fun s r =>
      let c := pf r.payload 7 0
      match s.ctx? c with
      | none => s.answer r stFormat []
      | some x =>
        match tabFree x.windows 64 with
        | none => s.answer r stNoResource []
        | some n =>
          let w : Window := { base := pf r.payload 127 64, length := pf r.payload 191 128, writable := true }
          (s.modCtx c (fun x => { x with windows := tabPut x.windows n w })).answerCtx r c stOK (toLe 1 n)))

/-- A ring or body area of one of the context's queues lies in a window. -/
def State.windowUsed (s : State) (c : Nat) (w : Window) : Bool :=
  let inW := fun a n => overlaps w.base w.length a n
  s.hq.any (fun q => q.2.ctx == c && (inW q.2.ring (64 * q.2.entries) || (q.2.isCq && inW q.2.bodyBase q.2.bodySize)))

/-- WINDOW_RELEASE (R383). -/
def execWindowRelease (ch : Nat) (s : State) : Result :=
  .next (s.onMsg ch 0x0021 anySel ctxByte
    (fun s ch p => ownCtx s ch p && (match s.ctx? (pf p 7 0) with | some x => tabHas x.windows (pf p 13 8) | none => false))
    (pBits [(13, 0)])
    (fun s r =>
      let c := pf r.payload 7 0
      match (s.ctx? c).bind (fun x => tabFind x.windows (pf r.payload 13 8)) with
      | none => s.answer r stFormat []
      | some w =>
        if s.windowUsed c w || (s.ctxSqs c).any (fun q => !q.2.outst.isEmpty) then s.answer r stNoResource []
        else (s.modCtx c (fun x => { x with windows := tabDel x.windows (pf r.payload 13 8) })).answerCtx r c stOK []))

/-- REGION_ALLOC (R332, R383). -/
def execRegionAlloc (ch : Nat) (s : State) : Result :=
  .next (s.onMsg ch 0x0022 anySel ctxByte ownCtx
    (fun p => pBits [(7, 0), (63, 32)] p && pf p 63 32 % 65536 == 0 && pf p 63 32 != 0)
    (fun s r =>
      let c := pf r.payload 7 0
      let n := pf r.payload 63 32
      match (s.ctx? c).bind (fun x => tabFree x.regions 16) with
      | none => s.answer r stNoResource []
      | some i =>
        match s.lpAlloc (c + 1) n with
        | none => s.answer r stNoResource []
        | some (a, s) => (s.modCtx c (fun x => { x with regions := tabPut x.regions i (a, n) })).answerCtx r c stOK (toLe 8 a)))

/-! ### Copies (R383) -/

/-- The region of a context that holds [a, a + n): index and region. -/
def Ctx.regionAt (x : Ctx) (a n : Nat) : Option (Nat × Nat × Nat) :=
  (x.regions.find? (fun g => g.2.1 ≤ a && a + n ≤ g.2.1 + g.2.2)).map (fun g => (g.1, g.2.1, g.2.2))

/-- The start of MEM_COPY: the ranges lie in a window and in a region, and the reply waits for the copy. -/
def State.startCopy (s : State) (r : Request) : State :=
  match s.ctx? (pf r.payload 7 0) with
  | none => s.answer r stFormat []
  | some x =>
    let n := pf r.payload 223 192
    if x.inWindow (pf r.payload 127 64) n && (x.regionAt (pf r.payload 191 128) n).isSome then s.defer r
    else s.answer r stFormat []

/-- Payload rules of MEM_COPY. -/
def copyFmt (p : Bytes) : Bool := pBits [(8, 0), (223, 64)] p && 1 ≤ pf p 223 192

/-- MEM_COPY from the host to the device. -/
def execMemCopyToDevice (ch : Nat) (s : State) : Result :=
  .next (s.onMsg ch 0x0023 (fun p => !bit (leNat p) 8) ctxByte ownCtx copyFmt State.startCopy)

/-- MEM_COPY from the device to the host. -/
def execMemCopyToHost (ch : Nat) (s : State) : Result :=
  .next (s.onMsg ch 0x0023 (fun p => bit (leNat p) 8) ctxByte ownCtx copyFmt State.startCopy)

/-- MEM_COPY_COMPLETE (R383, R365, R425): the bytes have moved, and the reply is made ready. Firmware's engine reads and
writes LPDDR5 as agent 8 (R54). -/
def execMemCopyComplete (ch seq : Nat) (s : State) : Result :=
  .next (match s.mbox.taken.find? (fun r => r.ch == ch && r.seq == seq && r.opcode == 0x0023) with
    | none => s
    | some r =>
      if !s.works || !s.busMaster 0 || s.replyWaits ch seq then s
      else
        let c := pf r.payload 7 0
        let host := pf r.payload 127 64
        let dev := pf r.payload 191 128
        let n := pf r.payload 223 192
        if bit (leNat r.payload) 8 then
          match s.lpRead 8 0 (some c) dev n with
          | (s, some b) => (s.hostPut host b).answer r stOK []
          | (s, none) => s
        else
          let b := s.hostBytes host n
          match s.lpWrite 8 0 (some c) dev b with
          | (s, true) =>
            (match (s.ctx? c).bind (fun x => x.regionAt dev n) with
             | some (i, base, size) => s.replyMirrored ch seq 0x0023 stOK [] [.region c i size (dev - base) b]
             | none => s.answer r stOK [])
          | (s, false) => s)

/-! ### Queue bindings (R350, R351, R367) -/

/-- The largest result body of a context (R351, R363). -/
def Ctx.largestBody (x : Ctx) : Nat :=
  match x.image.bind Image.text with
  | some t => 64 * ceilDiv (128 + 16 * t.fieldCount + t.fieldCount * t.fieldMaxBytes) 64
  | none => 128

/-- A CQ can take the results of a context (R351). -/
def State.cqTakes (s : State) (cq : Nat) (body : Nat) : Bool :=
  match tabFind s.hq cq with | some h => h.isCq && 2 * body ≤ h.bodySize | none => false

/-- A bound CQ of the channel's session. -/
def State.ownsCq (s : State) (ch cq : Nat) : Bool :=
  match tabFind s.hq cq with | some h => h.isCq && s.inSession ch h.ctx | none => false

/-- The record of QUEUE_BIND. -/
def bindRec (p : Bytes) : Nat := pf p 1023 512

/-- The field rules of a queue binding record (R350). -/
def bindRecOk (w : Nat) : Bool :=
  4 ≤ fld w 12 8 && fld w 12 8 ≤ 16 && fld w 127 64 % 4096 == 0 &&
  if bit w 0 then
    onlyBits w [(0, 0), (12, 8), (138, 64), (167, 144), (260, 192)] && 33 ≤ fld w 138 128 && fld w 255 192 % 4096 == 0 &&
    16 ≤ fld w 260 256 && fld w 260 256 ≤ 26
  else onlyBits w [(12, 8), (29, 16), (39, 32), (127, 64)]

/-- Payload rules of QUEUE_BIND. -/
def queueFmt (p : Bytes) : Bool := pBits [(13, 0), (23, 16), (1023, 512)] p && bindRecOk (bindRec p)

/-- The owning context of QUEUE_BIND. -/
def queueCtx (_ : State) (p : Bytes) : Option Nat := some (pf p 23 16)

/-- QUEUE_BIND for an SQ (R351, R383); its source starts at the profile's split_min (R297). -/
def execQueueBindSq (ch : Nat) (s : State) : Result :=
  .next (s.onMsg ch 0x0040 (fun p => !bit (bindRec p) 0) queueCtx (fun s ch p => s.ownsCtx ch (pf p 23 16)) queueFmt (fun s r =>
    let q := pf r.payload 13 0
    let c := pf r.payload 23 16
    let w := bindRec r.payload
    let h : HwQueue := { isCq := false, binding := w, ctx := c }
    match s.ctx? c with
    | none => s.answer r stFormat []
    | some x =>
      if tabHas s.hq q || fld w 39 32 != c || !x.inWindow h.ring (64 * h.entries) || !s.ownsCq ch (fld w 29 16) then
        s.answer r stFormat []
      else if !s.cqTakes (fld w 29 16) x.largestBody || 1024 ≤ (s.ctxSqs c).length then s.answer r stNoResource []
      else
        let lv := match x.prof with | some p => p.splitMin | none => 0
        let s := s.setHq (tabPut s.hq q h)
        let s := s.setIntake { s.intake with sources := tabPut s.intake.sources (64 + q) { ctx := c, level := lv } }
        s.replyMirrored ch r.seq 0x0040 stOK [] [.queue q c (toLe 64 w)]))

/-- QUEUE_BIND for a CQ (R350, R351, R383). -/
def execQueueBindCq (ch : Nat) (s : State) : Result :=
  .next (s.onMsg ch 0x0040 (fun p => bit (bindRec p) 0) queueCtx (fun s ch p => s.ownsCtx ch (pf p 23 16)) queueFmt (fun s r =>
    let q := pf r.payload 13 0
    let c := pf r.payload 23 16
    let w := bindRec r.payload
    let h : HwQueue := { isCq := true, binding := w, ctx := c }
    match s.ctx? c with
    | none => s.answer r stFormat []
    | some x =>
      if tabHas s.hq q || !x.inWindow h.ring (64 * h.entries) || !x.inWindow h.bodyBase h.bodySize then s.answer r stFormat []
      else (s.setHq (tabPut s.hq q h)).replyMirrored ch r.seq 0x0040 stOK [] [.queue q c (toLe 64 w)]))

/-- A queue may be unbound (R351, R367). -/
def State.mayUnbind (s : State) (q : Nat) (h : HwQueue) : Bool :=
  if h.isCq then
    h.ready.isEmpty && !s.hq.any (fun x => !x.2.isCq && fld x.2.binding 29 16 == q) &&
    !s.ports.any (fun x => x.2.ctx.isSome && x.2.cq == q) &&
    !s.intake.streams.any (fun x => bit x.2.record 2 && x.2.cq == q) && !s.intake.items.any (fun x => x.2.cq == q)
  else
    h.outst.all (fun d => d.done || s.hq.any (fun x => x.2.ready.any (fun r => r.sq == some q && r.descNo == d.no)))

/-- QUEUE_UNBIND (R351, R367, R383): the last CQ of a destroyed context takes its handle with it. -/
def execQueueUnbind (ch : Nat) (s : State) : Result :=
  .next (s.onMsg ch 0x0041 anySel (fun s p => (tabFind s.hq (pf p 13 0)).map HwQueue.ctx)
    (fun s ch p => s.ownsQueue ch (pf p 13 0)) (pBits [(13, 0)]) (fun s r =>
    let q := pf r.payload 13 0
    match tabFind s.hq q with
    | none => s.answer r stFormat []
    | some h =>
      if !s.mayUnbind q h then s.answer r stNoResource []
      else
        let last := fun (r : Rec) => if r.sq == some q && r.sqHead.isNone then { r with sqHead := some h.head } else r
        let s := (s.setHq (tabMap (tabDel s.hq q) (fun _ x => { x with ready := x.ready.map last }))).setIntake
          { s.intake with sources := tabDel s.intake.sources (64 + q) }
        (s.replyMirrored ch r.seq 0x0041 stOK [] [.queue q h.ctx []]).releaseHandle h.ctx))

/-! ### Text streams (R383) -/

/-- TEXT_STREAM_OPEN (R383). -/
def execTextStreamOpen (ch : Nat) (s : State) : Result :=
  .next (s.onMsg ch 0x0042 anySel ctxByte ownCtx (pBits [(15, 0)]) (fun s r =>
    let c := pf r.payload 7 0
    let n := pf r.payload 15 8
    if tabHas s.text.streams n then s.answer r stNoResource []
    else (s.putStream n { ctx := c }).replyMirrored ch r.seq 0x0042 stOK [] [.textStream n (some c)]))

/-- TEXT_STREAM_CLOSE (R383): deferred until the stream's accepted jobs have completed. -/
def execTextStreamClose (ch : Nat) (s : State) : Result :=
  .next (s.onMsg ch 0x0043 anySel (fun s p => (tabFind s.text.streams (pf p 15 8)).map TextStream.ctx)
    (fun s ch p => match tabFind s.text.streams (pf p 15 8) with | some x => s.ownsCtx ch x.ctx | none => false)
    (pBits [(15, 8)]) (fun s r =>
    let n := pf r.payload 15 8
    if s.deferOk r then
      (s.setText { s.text with streams := tabUpd s.text.streams n (fun x => { x with closing := some (ch, r.seq) }) }).closeStream n
    else s.defer r))

end Sys2Proof.Machine
end

