-- ==== Sys2Proof/Machine/MhpDev.lean ====
section
/-! DEFINITION. Machine/MhpDev.lean: MHP commands on line-scan ports, streams, the primer profile, KV tables, lexicon
bindings, counters and the outstanding report (R111, R186, R188, R249, R255, R257, R261, R262, R267, R276, R277, R279,
R289, R297, R298, R301, R383, R388, R389). -/

namespace Sys2Proof.Machine

/-- A RUNNING real-time context meets condition 6 of R313 as it stands (R298). -/
def State.keepsDeadline (s : State) (c : Nat) : Bool :=
  match s.ctx? c with
  | some x =>
    if x.realTime && x.st == .running then
      match x.cert with | some e => s.meetsDeadline c x e (bStencil s.rtLoad) | none => true
    else true
  | none => true

/-! ### Ports -/

/-- The context of the port in bits [1:0]. -/
def portCtx (s : State) (p : Bytes) : Option Nat := (s.port (pf p 1 0)).ctx

/-- The port in bits [1:0] is bound in the channel's session. -/
def ownPort (s : State) (ch : Nat) (p : Bytes) : Bool := s.ownsPort ch (pf p 1 0)

/-- Tokens of the intake buffers: 6 MiB in units of 4 KiB (R272). -/
def intakeTokens : Nat := 1536

/-- The quota that a port has reserved, a waiting record's included (R272). -/
def Port.reserved (p : Port) : Nat := max p.quota (match p.newCfg with | some (c, _) => c.quota | none => 0)

/-- The intake buffers can give port `p` the quota of a record (R255, R272). -/
def State.quotaFits (s : State) (p : Nat) (c : PortCfg) : Bool :=
  sumOf ((s.ports.filter (fun x => x.1 != p)).map (fun x => x.2.reserved)) + c.quota ≤ intakeTokens

/-- A context's primer profile takes the largest page of a record (R255, R289). -/
def Ctx.takesPort (x : Ctx) (c : PortCfg) : Bool := match x.prof with | some p => p.takesPort c | none => true

/-- No other session's context has the port in bits [1:0] (R381). -/
def portFree (s : State) (ch : Nat) (p : Bytes) : Bool := (s.port (pf p 1 0)).ctx.isNone || ownPort s ch p

/-- PORT_BIND (R249, R272, R289, R298, R351, R381, R383). A bound port is unbound first (log 52). -/
def execPortBind (ch : Nat) (s : State) : Result :=
  .next (s.onMsg ch 0x0050 (fun p => !bit (leNat p) 48) (fun _ p => some (pf p 15 8))
    (fun s ch p => s.ownsCtx ch (pf p 15 8) && s.ownsCq ch (pf p 45 32) && portFree s ch p)
    (pBits [(1, 0), (15, 8), (45, 32), (48, 48)]) (fun s r =>
    let n := pf r.payload 1 0
    let c := pf r.payload 15 8
    let cq := pf r.payload 45 32
    let q := s.port n
    match s.ctx? c with
    | none => s.answer r stFormat []
    | some x =>
      if (match q.cfg with | some g => !x.takesPort g | none => false) then s.answer r stFormat []
      else if q.ctx.isSome || q.page.isSome || !s.cqTakes cq x.largestBody then s.answer r stNoResource []
      else
        let t := s.putPort n { q with ctx := some c, cq := cq, st := .off }
        match q.cfg with
        | none => (t.armPort n).feedHolds.answer r stOK []
        | some g =>
          if !s.quotaFits n g then s.answer r stNoResource []
          else match t.poolFor n c g.storeMib with
            | none => s.answer r stNoResource []
            | some u =>
              let u := u.putPort n { u.port n with quota := g.quota }
              if u.keepsDeadline c then ((u.armPort n).feedHolds).answer r stOK [] else s.answer r stDeadline []))

/-- PORT_UNBIND (R249, R272, R383): the port goes OFF and gives back its quota and its page store; it keeps its record and
tables. A page that is open or has no written record, or a calibration, refuses it (log 52). -/
def execPortUnbind (ch : Nat) (s : State) : Result :=
  .next (s.onMsg ch 0x0050 (fun p => bit (leNat p) 48) portCtx ownPort (pBits [(1, 0), (15, 8), (45, 32), (48, 48)]) (fun s r =>
    let n := pf r.payload 1 0
    let q := s.port n
    if q.page.isSome || !q.pages.isEmpty || q.st == .calibrating then s.answer r stNoResource []
    else
      let s := s.answerAll (fun x => x.opcode == 0x0053 && pf x.payload 1 0 == n) stOK
      ((s.clearPort n).feedHolds).answer r stOK []))

/-- The effect of PORT_CONFIG (R255, R257, R277, R298, R383). -/
def State.configPort (s : State) (r : Request) : State :=
  let n := pf r.payload 1 0
  let q := s.port n
  match q.ctx.bind (fun c => (s.ctx? c).map (fun x => (c, x))) with
  | none => s.answer r stFormat []
  | some (c, x) =>
    let a := pf r.payload 127 64
    let g := parsePortCfg (s.hostBytes a 1024)
    if !x.inWindow a 1024 || !g.formatOk n || !x.takesPort g then s.answer r stFormat []
    else if !s.quotaFits n g then s.answer r stNoResource []
    else match s.reserveFor n c g.storeMib with
      | none => s.answer r stNoResource []
      | some (t, l) =>
        let u := (t.joinPool n g.storeMib l).applyCfg n g
        if !u.keepsDeadline c then s.answer r stDeadline []
        else if q.page.isSome then (t.putPort n { t.port n with newCfg := some (g, l) }).answer r stOK []
        else
          let u := u.putPort n { u.port n with calib := (u.port n).calib.map (fun k => { k with taken := 0, sums := [] }) }
          u.answer r stOK []

/-- PORT_CONFIG. -/
def execPortConfig (ch : Nat) (s : State) : Result :=
  .next (s.onMsg ch 0x0051 anySel portCtx ownPort (pBits [(1, 0), (127, 64)]) (fun s r => s.onHost r State.configPort))

/-- CAPTURE_START (R13, R249, R383). -/
def execCaptureStart (ch : Nat) (s : State) : Result :=
  .next (s.onMsg ch 0x0052 anySel portCtx ownPort (pBits [(1, 0)]) (fun s r =>
    let n := pf r.payload 1 0
    let gone := match (portCtx s r.payload).bind s.ctx? with | some x => x.draining | none => true
    if (s.port n).st == .off || gone then s.answer r stNoResource [] else (s.startEvent n).answer r stOK []))

/-- CAPTURE_STOP (R267, R277, R383): at once with no page open, else when the open page ends. -/
def execCaptureStop (ch : Nat) (s : State) : Result :=
  .next (s.onMsg ch 0x0053 anySel portCtx ownPort (pBits [(1, 0)]) (fun s r =>
    let n := pf r.payload 1 0
    let q := s.port n
    if !s.deferOk r then s.defer r
    else if q.st != .capturing then s.answer r stOK []
    else
      let s := s.putPort n { q with stopReq := some (ch, r.seq) }
      if q.page.isSome then s else (s.endCapture n).feedHolds))

/-- The start of CALIBRATE (R262, R383). -/
def State.calibrate (s : State) (r : Request) (kind : Nat) : State :=
  let n := pf r.payload 1 0
  let q := s.port n
  if q.st != .armed then s.answer r stNoResource []
  else if !s.deferOk r then s.defer r
  else
    let k : Calib :=
      { kind := kind, lines := pf r.payload 23 16 + 1, target := pf r.payload 47 32, taken := 0, sums := [], ch := r.ch,
        seq := r.seq }
    s.putPort n { q with st := .calibrating, calib := some k }

/-- CALIBRATE of kind DARK. -/
def execCalibrateDark (ch : Nat) (s : State) : Result :=
  .next (s.onMsg ch 0x0054 (fun p => !bit (leNat p) 8) portCtx ownPort (pBits [(1, 0), (8, 8), (23, 16), (47, 32)])
    (fun s r => s.calibrate r 0))

/-- CALIBRATE of kind WHITE. -/
def execCalibrateWhite (ch : Nat) (s : State) : Result :=
  .next (s.onMsg ch 0x0054 (fun p => bit (leNat p) 8) portCtx ownPort (pBits [(1, 0), (8, 8), (23, 16), (47, 32)])
    (fun s r => s.calibrate r 1))

/-- The entries of a calibration table: colour planes of 16-bit values (R261). -/
def State.tableOf (s : State) (c : PortCfg) (a d : Nat) : Tab Nat :=
  (List.range c.colours).foldl (fun t k => (List.range c.pixels).foldl (fun t i =>
    tabSet d t (k * 2 ^ 14 + i) (memNat s.hostMem (a + 2 * (k * c.pixels + i)) 2)) t) []

/-- CALIB_TABLE_LOAD (R261, R383): a port without a record has no table. -/
def State.loadTable (s : State) (r : Request) : State :=
  let gain := bit (leNat r.payload) 8
  let n := pf r.payload 1 0
  let a := pf r.payload 127 64
  let q := s.port n
  match q.cfg, (portCtx s r.payload).bind s.ctx? with
  | some c, some x =>
    if !x.inWindow a (2 * c.colours * c.pixels) then s.answer r stFormat []
    else if gain then (s.putPort n { q with gain := s.tableOf c a 0x4000 }).answer r stOK []
    else (s.putPort n { q with dark := s.tableOf c a 0 }).answer r stOK []
  | _, _ => s.answer r stFormat []

/-- CALIB_TABLE_LOAD of the dark table. -/
def execCalibTableLoadDark (ch : Nat) (s : State) : Result :=
  .next (s.onMsg ch 0x0055 (fun p => !bit (leNat p) 8) portCtx ownPort (pBits [(1, 0), (8, 8), (127, 64)])
    (fun s r => s.onHost r State.loadTable))

/-- CALIB_TABLE_LOAD of the gain table. -/
def execCalibTableLoadGain (ch : Nat) (s : State) : Result :=
  .next (s.onMsg ch 0x0055 (fun p => bit (leNat p) 8) portCtx ownPort (pBits [(1, 0), (8, 8), (127, 64)])
    (fun s r => s.onHost r State.loadTable))

/-! ### Streams and the primer profile -/

/-- The field rules of a stream record (R279). -/
def streamRecOk (w : Nat) : Bool :=
  onlyBits w [(11, 0), (45, 32), (61, 48), (95, 64)] && fld w 1 0 ≤ 1 && (!bit w 3 || fld w 1 0 == 1) &&
  (if bit w 2 then 1 ≤ fld w 11 8 else fld w 11 8 == 0 && fld w 95 64 == 0) &&
  16 ≤ fld w 45 32 && fld w 45 32 ≤ 8192 && 16 ≤ fld w 61 48 && fld w 61 48 ≤ 8192

/-- Bytes of a stream's pictures (R279): 4:2:0, one byte a sample, or two at 10 bits (log 53). -/
def streamBytes (w : Nat) : Nat :=
  (fld w 7 4 + 1 + fld w 11 8 + 1) * ceilDiv (3 * fld w 45 32 * fld w 61 48) 2 * (if bit w 3 then 2 else 1)

/-- STREAM_BIND (R279, R297, R298, R351, R383). -/
def execStreamBind (ch : Nat) (s : State) : Result :=
  .next (s.onMsg ch 0x0056 anySel ctxByte
    (fun s ch p => ownCtx s ch p && (!bit (pf p 1023 512) 2 || s.ownsCq ch (pf p 29 16)))
    (fun p => pBits [(7, 0), (29, 16), (1023, 512)] p && streamRecOk (pf p 1023 512) &&
      (bit (pf p 1023 512) 2 || pf p 29 16 == 0))
    (fun s r =>
      let c := pf r.payload 7 0
      let w := pf r.payload 1023 512
      let cq := pf r.payload 29 16
      match s.ctx? c, tabFree s.intake.streams 64 with
      | some x, some n =>
        if bit w 2 && !s.cqTakes cq x.largestBody then s.answer r stNoResource []
        else match s.lpAlloc (c + 1) (streamBytes w) with
          | none => s.answer r stNoResource []
          | some (a, t) =>
            let lv := match x.prof with | some p => p.splitMin | none => 0
            let st : Stream := { record := w, ctx := c, cq := cq, lp := (a, streamBytes w) }
            let t := t.setIntake { t.intake with
              streams := tabPut t.intake.streams n st, sources := tabPut t.intake.sources n { ctx := c, level := lv } }
            if !t.keepsDeadline c then s.answer r stDeadline []
            else t.replyMirrored ch r.seq 0x0056 stOK (toLe 1 n) [.stream n c cq (toLe 64 w)]
      | _, _ => s.answer r stNoResource []))

/-- STREAM_UNBIND (R301, R383): waiting live frames are dropped, and what has been submitted completes. -/
def execStreamUnbind (ch : Nat) (s : State) : Result :=
  .next (s.onMsg ch 0x0057 anySel (fun s p => (tabFind s.intake.streams (pf p 5 0)).map Stream.ctx)
    (fun s ch p => match tabFind s.intake.streams (pf p 5 0) with | some x => s.ownsCtx ch x.ctx | none => false)
    (pBits [(5, 0)]) (fun s r =>
      let n := pf r.payload 5 0
      match tabFind s.intake.streams n with
      | none => s.answer r stFormat []
      | some x =>
        let s := x.waiting.foldl (fun (s : State) i => s.failItem i 0 0x66) s
        let s := x.units.foldl (fun (s : State) a => s.completeDesc a.sq a.desc stOK 0) s
        let s := s.setIntake { s.intake with
          streams := tabDel s.intake.streams n, sources := tabDel s.intake.sources n }
        let s := s.lpFree x.lp.1 x.lp.2
        s.replyMirrored ch r.seq 0x0057 stOK [] [.stream n x.ctx x.cq []]))

/-- A profile agrees with the TILE_GEOMETRY part of a bound image (R289, R308). -/
def Profile.fitsImage (p : Profile) (im : Option Image) : Bool :=
  match im with
  | none => true
  | some i =>
    match i.tileGeom with
    | none => false
    | some g => fld g 15 0 == p.tileW && fld g 31 16 == p.tileH && fld g 38 32 == p.overlap

/-- Bucket entries beyond bucket_count are zero (R383). -/
def profileTail (b : Bytes) : Bool := (b.drop (64 + 16 * fld (leAt b 0 64) 7 4)).all (fun x => x == 0)

/-- Every source of a context returns to split_min, with a notice where its level changes (R297), as far as its session
has room for split changes (R382). -/
def State.resetLevels (s : State) (c : Nat) (lv : Nat) : State :=
  (s.intake.sources.filter (fun x => x.2.ctx == c && x.2.level != lv)).foldl (fun (s : State) x =>
    if s.splitRoom c then s.moveLevel x.1 x.2 lv else s) s

/-- PRIMER_PROFILE_SET (R249, R289, R297, R298, R383). -/
def execPrimerProfileSet (ch : Nat) (s : State) : Result :=
  .next (s.onMsg ch 0x0058 anySel ctxByte ownCtx
    (fun p => pBits [(7, 0), (2047, 512)] p && (parseProfile (slice p 64 192)).ok && profileTail (slice p 64 192))
    (fun s r =>
      let c := pf r.payload 7 0
      let b := slice r.payload 64 192
      let p := parseProfile b
      let ports := s.ports.filter (fun q => q.2.ctx == some c)
      match s.ctx? c with
      | none => s.answer r stFormat []
      | some x =>
        if !p.fitsImage x.image || ports.any (fun q => match q.2.cfg with | some g => !p.takesPort g | none => false) then
          s.answer r stFormat []
        else
          let t := s.modCtx c (fun x => { x with profile := some b })
          if !t.keepsDeadline c then s.answer r stDeadline []
          else
            let t := (t.resetLevels c p.splitMin).rebucket c
            let t := (ports.foldl (fun (t : State) q => t.armPort q.1) t).feedHolds
            t.answerCtx r c stOK []))

/-! ### KV tables and lexicons -/

/-- LEGACY_ROOT_SET (R186, R383). -/
def execLegacyRootSet (ch : Nat) (s : State) : Result :=
  .next (s.onMsg ch 0x0033 anySel ctxByte ownCtx (fun p => pBits [(7, 0), (13, 8), (127, 64)] p && pf p 127 64 % 8192 == 0)
    (fun s r =>
      let c := pf r.payload 7 0
      let site := pf r.payload 13 8
      let a := pf r.payload 127 64
      match s.ctx? c with
      | none => s.answer r stFormat []
      | some x =>
        match x.kvRec with
        | none => s.answer r stFormat []
        | some k =>
          if !kvLegacy k || kvSites k ≤ site || (x.regionAt a 8192).isNone then s.answer r stFormat []
          else
            let rd := s.reading c
            (s.putReading c { rd with sites := tabPut rd.sites site a }).answer r stOK []))

/-- KV_TLB_INVALIDATE (R188, R383): applied at the next decoder step, or at once where no step runs. -/
def State.invalidate (s : State) (r : Request) : State :=
  let c := pf r.payload 7 0
  match s.ctx? c with
  | none => s.answer r stFormat []
  | some x =>
    let scope := pf r.payload 9 8
    let okSite := scope = 0 || (match x.kvRec with | some k => decide (pf r.payload 21 16 < kvSites k) | none => false)
    if scope = 3 || !okSite || (scope = 2 && pf r.payload 83 64 = 0) then s.answer r stFormat []
    else if !s.deferOk r then s.defer r
    else
      let v : Inval :=
        { scope := scope, site := pf r.payload 21 16, first := pf r.payload 51 32, count := pf r.payload 83 64, ch := r.ch,
          seq := r.seq }
      let rd := s.reading c
      let s := s.putReading c { rd with invals := rd.invals ++ [v] }
      if x.st == .running && x.busy then s else s.applyInvals c

/-- Payload rules of KV_TLB_INVALIDATE. -/
def invalFmt (p : Bytes) : Bool := pBits [(9, 0), (21, 16), (51, 32), (83, 64)] p

/-- KV_TLB_INVALIDATE of scope CONTEXT; scope 3 is FORMAT. -/
def execKvTlbInvalidateContext (ch : Nat) (s : State) : Result :=
  .next (s.onMsg ch 0x0060 (fun p => pf p 9 8 == 0 || pf p 9 8 == 3) ctxByte ownCtx invalFmt State.invalidate)

/-- KV_TLB_INVALIDATE of scope SITE. -/
def execKvTlbInvalidateSite (ch : Nat) (s : State) : Result :=
  .next (s.onMsg ch 0x0060 (fun p => pf p 9 8 == 1) ctxByte ownCtx invalFmt State.invalidate)

/-- KV_TLB_INVALIDATE of scope RANGE. -/
def execKvTlbInvalidateRange (ch : Nat) (s : State) : Result :=
  .next (s.onMsg ch 0x0060 (fun p => pf p 9 8 == 2) ctxByte ownCtx invalFmt State.invalidate)

/-- The lexicon bindings that wait once context `c` asks for one in a slot, or for its end. -/
def State.lexWaits (s : State) (c slot : Nat) (d : Option Bytes) : List (Nat × Nat × Option Bytes) :=
  s.sten.waiting.filter (fun w => !(w.1 == c && w.2.1 == slot)) ++ [(c, slot, d)]

/-- A slot of context `c` is bound to a lexicon, or freed (R247): at once, but for a running context and one whose walk uses
the slot's lexicon, where it waits for the next field start. -/
def State.bindLexicon (s : State) (c slot : Nat) (d : Option Bytes) : State :=
  let run := match s.ctx? c with | some x => x.st == .running | none => false
  let old := tabFind s.sten.slots (c * 16 + slot)
  let used := (s.reading c).seqs.any (fun q => q.lex && some q.lexDig == old)
  let s := s.setSten { s.sten with waiting := s.lexWaits c slot d }
  if run || used then s else s.applyLexicons c

/-- The images that contexts bind once context `c` also binds lexicon `d`, with those of bindings that wait: the resident
part stays within 1 MiB (R235). -/
def State.lexFits (s : State) (c slot : Nat) (d : Bytes) : Bool :=
  decide ((s.bindLexicon c slot (some d)).sten.resident ≤ 2 ^ 20)

/-- A loaded lexicon obeys R234 for the vocabulary of a context. -/
def State.lexSuits (s : State) (c : Nat) (d : Bytes) : Bool :=
  match s.lexicon d with | some l => lexiconOk l.image (s.vocabOf c) | none => false

/-- LEXICON_BIND (R234, R235, R247, R383). -/
def execLexiconBind (ch : Nat) (s : State) : Result :=
  .next (s.onMsg ch 0x0032 anySel ctxByte ownCtx (fun p => pBits [(11, 0), (511, 256)] p && 1 ≤ pf p 11 8) (fun s r =>
    let c := pf r.payload 7 0
    let slot := pf r.payload 11 8
    let d := slice r.payload 32 32
    let clear := d.all (fun b => b == 0)
    if (s.ctx? c).isNone || (!clear && !s.lexSuits c d) then s.answer r stFormat []
    else if !clear && !s.lexFits c slot d then s.answer r stNoResource []
    else (s.bindLexicon c slot (if clear then none else some d)).answerCtx r c stOK []))

/-! ### Counters and the outstanding report (R388, R389) -/

/-- The counter codes of a request. -/
def counterCodes (p : Bytes) : List Nat := (List.range (pf p 21 16)).map (fun i => leAt p (4 + i) 1)

/-- Codes of the CONTEXT scope (R388). -/
def ctxCode (k : Nat) : Bool := k < 0x10 || (0x20 ≤ k && k < 0x50) || (0x60 ≤ k && k < 0x80)

/-- Codes of the PORT scope. -/
def portCode (k : Nat) : Bool := 0x50 ≤ k && k < 0x60

/-- Payload rules of COUNTER_QUERY. -/
def counterFmt (code : Nat → Bool) (p : Bytes) : Bool :=
  onlyBits (leNat p) [(1, 0), (15, 8), (31 + 8 * pf p 21 16, 32), (21, 16)] && 1 ≤ pf p 21 16 && pf p 21 16 ≤ 32 &&
  pf p 1 0 ≤ 1 && (counterCodes p).all code

/-- COUNTER_QUERY of scope CONTEXT (R111, R388); scopes 2 and 3 are FORMAT. -/
def execCounterQueryContext (ch : Nat) (s : State) : Result :=
  .next (s.onMsg ch 0x0070 (fun p => pf p 1 0 != 1) (fun _ p => some (pf p 15 8))
    (fun s ch p => 2 ≤ pf p 1 0 || s.ownsCtx ch (pf p 15 8)) (counterFmt ctxCode) (fun s r =>
    let t := match s.ctx? (pf r.payload 15 8) with | some x => x.counters | none => []
    s.answer r stOK ((counterCodes r.payload).flatMap (fun k => toLe 8 (tabGet 0 t k)))))

/-- COUNTER_QUERY of scope PORT (R276, R388). -/
def execCounterQueryPort (ch : Nat) (s : State) : Result :=
  .next (s.onMsg ch 0x0070 (fun p => pf p 1 0 == 1) (fun s p => (s.port (pf p 15 8)).ctx)
    (fun s ch p => pf p 15 8 < 4 && s.ownsPort ch (pf p 15 8)) (counterFmt portCode) (fun s r =>
    s.answer r stOK ((counterCodes r.payload).flatMap (fun k => toLe 8 (tabGet 0 (s.port (pf r.payload 15 8)).counters k)))))

/-- An entry of the outstanding report (R389). -/
def outEntry (e : OutEntry) : Bytes :=
  toLe 8 e.id ++ toLe 2 ((if e.item then 1 else 0) + place (e.sq.getD 0) 15 2) ++
  toLe 1 (if e.sq.isSome then 1 else 0) ++ toLe 1 e.ctx ++ zeros 4

/-- The reply of OUTSTANDING_REPORT over a list. -/
def outReply (l : List OutEntry) (total start : Nat) : Bytes :=
  let part := (l.drop start).take 1023
  toLe 4 total ++ toLe 4 start ++ toLe 2 part.length ++ zeros 6 ++ part.flatMap outEntry

/-- A reply from entry `start` on brings the last of `n` entries. -/
def readsLast (n start : Nat) : Bool := decide (start < n) && decide (n ≤ start + 1023)

/-- Answer a request for the report: during a freeze, from the carry area; else from the report held. It is read once its
last entry has been sent. -/
def State.answerReport (s : State) (r : Request) : State :=
  let start := pf r.payload 31 0
  if s.err.frozen then
    (s.setBoot { s.boot with carryUnread := s.boot.carryUnread && !readsLast s.boot.carry.length start }).answer r stOK
      (outReply s.boot.carry s.boot.carryTotal start)
  else
    let s := s.setBoot { s.boot with reportUnread := s.boot.reportUnread && !readsLast s.boot.report.length start }
    s.answer r stOK (outReply s.boot.report s.boot.reportTotal start)

/-- OUTSTANDING_REPORT (R380, R389): during a freeze it waits until the list is complete. -/
def execOutstandingReport (ch : Nat) (s : State) : Result :=
  .next (s.onMsg ch 0x0071 anySel (fun _ _ => none) (fun _ _ _ => true) (pBits [(31, 0)]) (fun s r =>
    if s.err.frozen && !s.boot.carryValid then s else s.answerReport r))

/-- CARRY_AREA_WRITTEN (R389, R495): the first 16,380 entries and the total; requests for the report that wait are
answered. -/
def execCarryAreaWritten (s : State) : Result :=
  .next (if !s.alive || !s.err.frozen || s.boot.carryValid then s
    else
      let l := s.outEntries
      let s := s.setBoot { s.boot with
        carry := l.take 16380, carryTotal := l.length, carryValid := true, carryUnread := !l.isEmpty }
      (s.mbox.taken.filter (fun r => r.opcode == 0x0071)).foldl (fun (s : State) r => s.answerReport r) s)

end Sys2Proof.Machine
end

