-- ==== Sys2Proof/Machine/Envelope.lean ====
section
/-! DEFINITION. Machine/Envelope.lean: bundles and lexicons: the envelope, its checks, and binding (R180, R189, R207, R229,
R233, R235, R236, R289, R351, R383, R454, R455, R469 to R471). -/

namespace Sys2Proof.Machine

/-! ### Digests and signatures (R454, R455) -/

/-- digest64 -/
def digest64 (b : Bytes) : Bytes := shake256 64 b
/-- digest32 -/
def digest32 (b : Bytes) : Bytes := shake256 32 b

/-- ASCII bytes of a label. -/
def ascii (l : List Nat) : Bytes := l.map (BitVec.ofNat 8)

/-- The signed digest of a label and covered bytes (R454). -/
def signedDigest (label covered : Bytes) : Bytes := digest64 (toLe 2 label.length ++ label ++ covered)

/-- MZ96-BUNDLE -/
def labelBundle : Bytes := ascii [0x4D, 0x5A, 0x39, 0x36, 0x2D, 0x42, 0x55, 0x4E, 0x44, 0x4C, 0x45]

/-! ### The envelope (R469, R470) -/

/-- A section: kind, offset, length, digest. -/
abbrev Section := Nat × Nat × Nat × Bytes

/-- section_count -/
def evCount (b : Bytes) : Nat := leAt b 5 1

/-- The section table. -/
def evSections (b : Bytes) : List Section :=
  (List.range (evCount b)).map (fun i =>
    let o := 2112 + 64 * i
    (leAt b o 1, leAt b (o + 8) 8, leAt b (o + 16) 8, slice b (o + 24) 32))

/-- The bytes of a section. -/
def secBytes (b : Bytes) (x : Section) : Bytes := slice b x.2.1 x.2.2.1

/-- No two sections overlap. -/
def secsApart : List Section → Bool
  | [] => true
  | x :: r => r.all (fun y => !overlaps x.2.1 x.2.2.1 y.2.1 y.2.2.1) && secsApart r

/-- Sections of a kind. -/
def secsOf (b : Bytes) (kind : Nat) : List Section := (evSections b).filter (fun x => x.1 == kind)

/-- The covered bytes of an envelope (R455). -/
def evCovered (b : Bytes) : Bytes := b.take (b.length - 1280)

/-- Check 1 of R471. `lex` says that the command is LEXICON_LOAD. -/
def envelopeOk (b : Bytes) (lex : Bool) : Bool :=
  let n := evCount b
  let ss := evSections b
  leAt b 0 4 == 0x4E425A4D && 1 ≤ n && n ≤ 32 && leAt b 6 2 == 0 && leAt b 8 8 == b.length && b.length % 64 == 0 &&
  2112 + 64 * n + 1280 ≤ b.length && (slice b 16 240).all (· == 0) && (slice b 2049 63).all (· == 0) &&
  (List.range n).all (fun i => leAt b (2113 + 64 * i) 7 == 0 && leAt b (2168 + 64 * i) 8 == 0) &&
  ss.all (fun x => x.2.1 % 64 == 0 && 2112 + 64 * n ≤ x.2.1 && x.2.1 + x.2.2.1 + 1280 ≤ b.length) && secsApart ss &&
  (if lex then n == 1 && ss.all (fun x => x.1 == 5)
   else ss.all (fun x => 1 ≤ x.1 && x.1 ≤ 4) && (secsOf b 1).length == 1 && (secsOf b 3).length ≤ 1 && (secsOf b 4).length ≤ 1)

/-- The embedded owner key (R469). -/
def evKey (b : Bytes) : Bytes := slice b 256 1793

/-- Checks 1 to 5 of R471: the status of the first that fails, or OK. -/
def State.envelopeStatus (s : State) (b : Bytes) (lex : Bool) : Nat :=
  if !envelopeOk b lex then stFormat
  else if leAt b 4 1 != 1 then stVersion
  else if !s.fuse.ownerLock || leNat (digest64 (evKey b)) != s.fuse.ownerDigest then stAuth
  else if !falconVerify (evKey b) (signedDigest labelBundle (evCovered b)) (b.drop (b.length - 1280)) then stAuth
  else if !(evSections b).all (fun x => digest32 (secBytes b x) == x.2.2.2) then stAuth
  else stOK

/-! ### Vocabularies and grammars (R207, R229, R235, R236) -/

/-- A base for `n` units aligned to `al` beside taken ranges (base, length) of `top` units; first fit (log 13). -/
def fitUnits (taken : List (Nat × Nat)) (n al top : Nat) : Option Nat :=
  ((List.range (top / max 1 al)).map (al * ·)).find? (fun b => b + n ≤ top && !taken.any (fun t => overlaps t.1 t.2 b n))

/-- Load a vocabulary for a context: shared where its digest is loaded (R207). -/
def State.loadVocab (s : State) (c : Nat) (d img : Bytes) : Option State :=
  let vs := s.text.vocabs
  if vs.any (fun v => v.digest == d) then
    some (s.setText { s.text with
      vocabs := vs.map (fun v => if v.digest == d && !v.users.contains c then { v with users := c :: v.users } else v) })
  else
    let slots := 2 ^ vHashBits img
    let pool := vPool img / 65536
    match fitUnits (vs.map (fun v => (v.slotBase, 2 ^ vHashBits v.image))) slots slots 524288,
        (if pool = 0 then some 0 else fitUnits (vs.map (fun v => (v.poolBase, vPool v.image / 65536))) pool 1 64) with
    | some a, some b =>
      let v : Vocab := { digest := d, image := img, users := [c], slotBase := a, poolBase := b }
      some (v.ranges.foldl (fun (s : State) r => s.wrote .vocabulary 0 r.1 r.2) (s.setText { s.text with vocabs := vs ++ [v] }))
    | _, _ => none

/-- Load a grammar for a context: shared where its digest is loaded (R229). -/
def State.loadGrammar (s : State) (c : Nat) (d img : Bytes) : Option State :=
  let gs := s.sten.grammars
  if gs.any (fun g => g.digest == d) then
    some (s.setSten { s.sten with
      grammars := gs.map (fun g => if g.digest == d && !g.users.contains c then { g with users := c :: g.users } else g) })
  else match s.lpAlloc 257 img.length with
    | none => none
    | some (a, s) =>
      let s := s.setSten { s.sten with grammars := s.sten.grammars ++ [{ digest := d, image := img, addr := a, users := [c] }] }
      some (s.someWrites .stencil 0 [s.sten.residentPart])

/-- A context no longer uses grammars other than one; what has no user goes. A vocabulary stays until the last context that
named it is destroyed (R207). -/
def State.keepOnly (s : State) (c : Nat) (g : Bytes) : State :=
  let gs := s.sten.grammars.map (fun x => { x with users := if x.digest == g then x.users else x.users.filter (fun u => u != c) })
  let s := (gs.filter (fun x => x.users.isEmpty)).foldl (fun (s : State) x => s.lpFree x.addr x.image.length) s
  s.setSten { s.sten with grammars := gs.filter (fun x => !x.users.isEmpty) }

/-- The image of a digest: in the envelope's section of that kind, or loaded for the context (R307). -/
def namedImage (b : Bytes) (kind : Nat) (loaded : List (Bytes × Bytes)) (d : Bytes) : Option Bytes :=
  match (secsOf b kind).find? (fun x => x.2.2.2 == d) with
  | some x => some (secBytes b x)
  | none => (loaded.find? (fun x => x.1 == d)).map Prod.snd

/-! ### Binding a bundle (R471 check 6) -/

/-- A WEIGHT_SET section by digest: of the envelope, or of an earlier bundle of the context. -/
def weightOf (b : Bytes) (x : Ctx) (d : Bytes) : Option Bytes := namedImage b 2 x.weights d

/-- The format checks of R229, R236, R289 and R307 on what the image names; the lexicons that the context has bound are
checked again against its vocabulary (R234). -/
def State.namesOk (s : State) (c : Nat) (x : Ctx) (b : Bytes) (im : Image) : Bool :=
  let vs := (s.text.vocabs.filter (fun v => v.users.contains c)).map (fun v => (v.digest, v.image))
  let gs := (s.sten.grammars.filter (fun g => g.users.contains c)).map (fun g => (g.digest, g.image))
  let v := namedImage b 3 vs im.vocab
  (leNat im.vocab == 0 || (match v with | some i => vocabOk i | none => false)) &&
  (leNat im.grammar == 0 ||
    (match namedImage b 4 gs im.grammar, v, im.text with
     | some g, some i, some t =>
       grammarOk g (vSize i) t.fieldCount && (gSlots g).all (fun k => tabHas s.sten.slots (c * 16 + k))
     | _, _, _ => false)) &&
  s.sten.slots.all (fun k => k.1 / 16 != c || (match s.lexicon k.2 with | some l => lexiconOk l.image v | none => true)) &&
  (match x.prof with | some p => p.fitsImage (some im) | none => true)

/-- The completion queues to which a context routes results can take its largest body (R351). -/
def State.cqsTake (s : State) (c body : Nat) : Bool :=
  (s.ctxSqs c).all (fun q => s.cqTakes (fld q.2.binding 29 16) body) &&
  s.ports.all (fun p => p.2.ctx != some c || s.cqTakes p.2.cq body) &&
  s.intake.streams.all (fun t => t.2.ctx != c || !bit t.2.record 2 || s.cqTakes t.2.cq body)

/-- Reserve the frame pools of a native KV layout, one for each site (R180, R189). -/
def State.kvAlloc (s : State) (c r : Nat) : Nat → Option (State × Tab Nat)
  | 0 => some (s, [])
  | n + 1 =>
    match State.kvAlloc s c r n with
    | none => none
    | some (s, t) => (s.lpAlloc (c + 1) (kvSlots r * kvFrame r)).map (fun x => (x.2, tabPut t n x.1))

/-- Give back what the context's earlier bundle holds in LPDDR5. -/
def State.dropBundle (s : State) (c : Nat) (x : Ctx) : State :=
  let s := if x.lpSize = 0 then s else s.lpFree x.lpBase x.lpSize
  match x.kvRec with
  | some r =>
    if kvLegacy r then s
    else (s.reading c).sites.foldl (fun (s : State) p => s.lpFree p.2 (kvSlots r * kvFrame r)) s
  | none => s

/-- The memory that a bundle needs: its vocabulary, its grammar, its KV pools and its region in LPDDR5; none where one of
them does not fit. `t` has let go of the bundle before it (R305, R322, R471). -/
def State.bundleMem (s t : State) (c : Nat) (b : Bytes) (im : Image) : Option (Nat × State × Tab Nat) :=
  let vs := (s.text.vocabs.filter (fun v => v.users.contains c)).map (fun v => (v.digest, v.image))
  let gs := (s.sten.grammars.filter (fun g => g.users.contains c)).map (fun g => (g.digest, g.image))
  let withV := if leNat im.vocab = 0 then some t else (namedImage b 3 vs im.vocab).bind (t.loadVocab c im.vocab)
  let withG := if leNat im.grammar = 0 then withV
    else withV.bind (fun t => (namedImage b 4 gs im.grammar).bind (t.loadGrammar c im.grammar))
  let withK := withG.bind (fun t => match im.kv with
    | some k => if kvLegacy k.record then some (t, []) else t.kvAlloc c k.record (kvSites k.record)
    | none => some (t, []))
  withK.bind (fun r => (r.1.lpAlloc (c + 1) (imageExtent im)).map (fun a => (a.1, a.2, r.2)))

/-- The bundle is the context's (R305, R471): its image, its weight regions, and its entry in the list of what is loaded. -/
def State.commitBundle (t : State) (c : Nat) (req : Nat × Nat) (x : Ctx) (b digest : Bytes) (im : Image) (base : Nat)
    (sites : Tab Nat) : State :=
  let n := t.sched.loadSeq
  let t := t.setSched { t.sched with loadSeq := n + 1 }
  let old := x.weights.filter (fun w => (secsOf b 2).all (fun z => z.2.2.2 != w.1))
  let t := t.modCtx c (fun x => { x with
    image := some im, bundles := x.bundles ++ [b],
    weights := (secsOf b 2).map (fun z => (z.2.2.2, secBytes b z)) ++ old,
    loaded := x.loaded ++ [{ kind := 0, digest := digest32 (evCovered b), order := n, req := req }],
    modelDigest := digest, lpBase := base, lpSize := 65536 * ceilDiv (imageExtent im) 65536 })
  let t := t.putReading c { sites := sites }
  if x.st = .empty then t.enter c .waiting stOK 0 else t

/-- Stencil sequences of the best-effort and real-time contexts, with `c`'s image changed to `im` (R246). -/
def State.stencilWith (s : State) (x : Ctx) (im : Image) : Nat :=
  s.stencilLoad (fun _ => true) - (if x.hasStencil then x.maxSeq else 0) +
    (if ({ x with image := some im } : Ctx).hasStencil then ({ x with image := some im } : Ctx).maxSeq else 0)

/-- Bind an image of status `st` to the context `x`: it must be free to take it, what it names must be there, and its
records and memory must fit. -/
def State.bindImage (s : State) (c : Nat) (req : Nat × Nat) (b : Bytes) (x : Ctx) (digest : Bytes) (im : Image) (st : Nat) :
    State × Nat :=
  if x.st != .empty && x.st != .waiting then (s, stFormat)
  else if st != stOK then (s, st)
  else if !s.namesOk c x b im then (s, stFormat)
  else if !s.cqsTake c ({ x with image := some im } : Ctx).largestBody || 512 < s.stencilWith x im then (s, stNoResource)
  else
    match s.bundleMem (s.dropBundle c x) c b im with
    | none => (s, stNoResource)
    | some (base, t, sites) =>
      if 2 ^ 20 < (t.keepOnly c im.grammar).sten.resident then (s, stNoResource)
      else ((t.keepOnly c im.grammar).commitBundle c req x b digest im base sites, stOK)

/-- Bind a checked bundle to a context: the new state and OK, or the state as it was and the status of the failure. -/
def State.bindBundle (s : State) (c : Nat) (req : Nat × Nat) (b : Bytes) : State × Nat :=
  match s.ctx? c, (secsOf b 1).head? with
  | some x, some sec =>
    s.bindImage c req b x sec.2.2.2 (imageOf (secBytes b sec)) (imageStatus (secBytes b sec) (weightOf b x) x.realTime)
  | _, _ => (s, stFormat)

/-- Keep a checked lexicon: one copy for each digest (R233, R235). -/
def State.keepLexicon (s : State) (c : Nat) (req : Nat × Nat) (b : Bytes) : State × Nat × Bytes :=
  match (evSections b).head? with
  | none => (s, stFormat, [])
  | some sec =>
    let l := secBytes b sec
    let d := sec.2.2.2
    if !lexiconOk l (s.vocabOf c) then (s, stFormat, [])
    else
      let kept := if (s.lexicon d).isSome then some s
        else (s.lpAlloc 257 l.length).map (fun r => r.2.setSten { r.2.sten with
          lexicons := r.2.sten.lexicons ++ [{ digest := d, image := l, addr := r.1, users := [] }] })
      match kept with
      | none => (s, stNoResource, [])
      | some t =>
        let n := t.sched.loadSeq
        let t := (t.setSched { t.sched with loadSeq := n + 1 }).modCtx c (fun x => { x with
          loaded := x.loaded ++ [{ kind := 1, digest := digest32 (evCovered b), order := n, name := d, req := req }] })
        (t, stOK, d ++ toLe 4 (lxNodes l))

/-! ### The commands -/

/-- Firmware's copy of an envelope, in LPDDR5 that it owns, waits with the request for its checks (R471). -/
def State.holdEnvelope (s : State) (r : Request) : State :=
  match s.ctx? (pf r.payload 7 0) with
  | none => s.answer r stFormat []
  | some x =>
    let a := pf r.payload 127 64
    let n := pf r.payload 191 128
    if !x.inWindow a n || (r.opcode = 0x0030 && x.st != .empty && x.st != .waiting) then s.answer r stFormat []
    else if !s.deferOk r then s.defer r
    else
      match s.lpAlloc 257 n with
      | none => s.answer r stNoResource []
      | some (p, t) =>
        let t := (t.lpWrite 8 0 none p (s.hostBytes a n)).1
        t.setMbox { t.mbox with copies := (r.ch, r.seq, p, n) :: t.mbox.copies }

/-- BUNDLE_LOAD (R383, R471). -/
def execBundleLoad (ch : Nat) (s : State) : Result :=
  .next (s.onMsg ch 0x0030 anySel ctxByte ownCtx (pBits [(7, 0), (191, 64)]) (fun s r => s.onHost r State.holdEnvelope))

/-- LEXICON_LOAD (R383, R471). -/
def execLexiconLoad (ch : Nat) (s : State) : Result :=
  .next (s.onMsg ch 0x0031 anySel ctxByte ownCtx (pBits [(7, 0), (191, 64)]) (fun s r => s.onHost r State.holdEnvelope))

/-- A bundle that is bound while an admission of its context is under way: the admission is judged anew (R305, R313). -/
def State.readmit (s : State) (c : Nat) : State :=
  match s.sched.admitting.find? (fun a => a.1 == c), s.ctx? c with
  | some a, some x =>
    let s := s.setSched { s.sched with admitting := s.sched.admitting.filter (fun y => y.1 != c) }
    if !s.rootsSet c x then s.answerStart c stFormat
    else match s.admitRt c a.2.1 with
      | (s, some st) => s.answerStart c st
      | (s, none) => s
  | _, _ => s

/-- A load is answered once its copy `b` has been checked (R471). -/
def State.answerLoad (s : State) (r : Request) (b : Bytes) : State :=
  let c := pf r.payload 7 0
  let lex := r.opcode == 0x0031
  let st := s.envelopeStatus b lex
  if st != stOK then s.answer r st []
  else if lex then
    let (t, st, out) := s.keepLexicon c (r.ch, r.seq) b
    if st = stOK then t.answerCtx r c stOK out else t.answer r st []
  else
    let (t, st) := s.bindBundle c (r.ch, r.seq) b
    if st = stOK then (t.answerCtx r c stOK (digest32 (evCovered b))).readmit c else t.answer r st []

/-- ENVELOPE_CHECK_COMPLETE (R471): the checks end, the load that waits is answered, and the copy's memory goes back. -/
def execEnvelopeCheckComplete (ch seq : Nat) (s : State) : Result :=
  .next (match s.mbox.taken.find? (fun r => r.ch == ch && r.seq == seq && (r.opcode == 0x0030 || r.opcode == 0x0031)),
      s.mbox.copies.find? (fun k => k.1 == ch && k.2.1 == seq) with
    | some r, some k =>
      if !s.works || s.replyWaits ch seq then s
      else
        match s.lpRead 8 0 none k.2.2.1 k.2.2.2 with
        | (s, some b) => (s.answerLoad r b).freeCopies
        | (s, none) => s
    | _, _ => s)

end Sys2Proof.Machine
end

