-- ==== Sys2Proof/Machine/Seal.lean ====
section
/-! DEFINITION. Machine/Seal.lean: the seal core: the firmware image, identity, attestation, the owner key, pushed images,
and the debug port (R452 to R468, R472). -/

namespace Sys2Proof.Machine

/-! ### The firmware image (R457, R458) -/

/-- Label MZ96-FW. -/
def labelFw : Bytes := ascii [0x4D, 0x5A, 0x39, 0x36, 0x2D, 0x46, 0x57]

/-- image_length -/
def fwLen (b : Bytes) : Nat := leAt b 8 4
/-- fw_version of the image -/
def fwVer (b : Bytes) : Nat := leAt b 12 4
/-- rollback_version -/
def fwRollback (b : Bytes) : Nat := leAt b 16 1
/-- advance_rollback -/
def fwAdvance (b : Bytes) : Bool := bit (leAt b 17 1) 0

/-- Body regions: seal firmware, studio controller firmware, memory configuration block. -/
def fwRegions (b : Bytes) : List (Nat × Nat) :=
  [(leAt b 24 4, leAt b 28 4), (leAt b 32 4, leAt b 36 4), (leAt b 40 4, 64)]

/-- Check 1 of R458: the image can be read, and its magic, lengths and regions are those of R457. -/
def fwFormatOk (b : Bytes) : Bool :=
  let n := fwLen b
  let rs := fwRegions b
  leAt b 0 4 == 0x36395A4D && (slice b 5 3).all (· == 0) && n ≤ b.length && n % 64 == 0 && 65536 ≤ n && n ≤ 1572864 &&
  fwRollback b ≤ 64 && onlyBits (leAt b 17 7) [(0, 0)] && (slice b 48 464).all (· == 0) && (slice b 2305 63).all (· == 0) &&
  4096 ≤ leAt b 28 4 && leAt b 28 4 ≤ 262144 && 4096 ≤ leAt b 36 4 &&
  rs.all (fun r => 2368 ≤ r.1 && r.1 + r.2 + 1280 ≤ n) && rs.all (fun r => r.1 % 64 == 0) &&
  !overlaps (leAt b 24 4) (leAt b 28 4) (leAt b 32 4) (leAt b 36 4) &&
  !overlaps (leAt b 24 4) (leAt b 28 4) (leAt b 40 4) 64 && !overlaps (leAt b 32 4) (leAt b 36 4) (leAt b 40 4) 64

/-- The covered bytes of an image. -/
def fwCovered (b : Bytes) : Bytes := b.take (fwLen b - 1280)

/-- The checks of R458 in order: the status of the first that fails, or OK. -/
def State.fwStatus (s : State) (b : Bytes) : Nat :=
  let key := slice b 512 1793
  if !fwFormatOk b then stFormat
  else if leAt b 4 1 != 1 then stVersion
  else if leNat (digest64 key) != s.fuse.rootDigest then stAuth
  else if !falconVerify key (signedDigest labelFw (fwCovered b)) (slice b (fwLen b - 1280) 1280) then stAuth
  else if fwRollback b < s.fuse.rollback then stVersion
  else stOK

/-- The seal core starts a verified image (R458): stage VERIFIED, and the identity key is derived. -/
def State.startImage (s : State) (b : Bytes) : State :=
  s.setBoot { s.boot with image := some (b.take (fwLen b)), stage := 2, failCode := 0, identityReady := false }

/-- BOOT_IMAGE_LOADED (R438, R456, R458): the image that the flash held is in control SRAM, which the ROM has tested, and the
ROM checks it. -/
def execBootImageLoaded (s : State) : Result :=
  .next (if !s.alive || s.boot.stage != 0 || s.pwr.bootSrc != 0 || s.aonServes then s
    else
      let s := s.setBoot { s.boot with romTest := true }
      match s.boot.flash with
      | none => s.setBoot { s.boot with stage := 1, failCode := stFormat }
      | some b =>
        let st := s.fwStatus b
        if st = stOK then s.startImage b else s.setBoot { s.boot with stage := 1, failCode := st })

/-! ### Identity (R463, R464) -/

/-- The seed of the identity key: the input of its SHAKE256 stream (R463). -/
def State.idSeed (s : State) : Bytes :=
  toLe 2 7 ++ ascii [0x4D, 0x5A, 0x39, 0x36, 0x2D, 0x49, 0x44] ++ toLe 32 s.fuse.identitySeed

/-- The identity public key. -/
def State.idKey (s : State) : Bytes := padTo 1793 (Config.falconPublic s.idSeed)

/-- The identity digest (R463). -/
def State.idDigest (s : State) : Bytes := digest64 s.idKey

/-- A device's owner key digest as its links and flits carry it. -/
def State.ownerBytes (s : State) : Bytes := toLe 64 s.fuse.ownerDigest

/-- Step 3 of link training (R415): the seal core sends its UID and digests, once its identity key is ready (R463). -/
def State.sendIdentity (s : State) (link : Nat) : State :=
  if s.boot.identityReady then s.sendOn link (.identity link s.fuse.uid s.idDigest s.ownerBytes) else s

/-- A signature by the identity key (R455). -/
def State.idSign (s : State) (label covered : Bytes) : Bytes :=
  padTo 1280 (Config.falconSign s.idSeed (signedDigest label covered))

/-- Label MZ96-PAIR. -/
def labelPair : Bytes := ascii [0x4D, 0x5A, 0x39, 0x36, 0x2D, 0x50, 0x41, 0x49, 0x52]

/-- The covered bytes of the challenge (R454). -/
def pairCovered (nonce : Bytes) (signer challenger : Nat) : Bytes := nonce ++ toLe 8 signer ++ toLe 8 challenger

/-- Answer the peer's nonce (R424): the seal core signs it. Before its key is ready the nonce waits (R463). -/
def State.signNonce (s : State) (link : Nat) (nonce : Bytes) : State :=
  if s.boot.identityReady then
    s.sendOn link (.challenge (.signature s.idKey (s.idSign labelPair (pairCovered nonce s.fuse.uid (s.link link).peerUid))))
  else s.setPair { s.pair with toSign := s.pair.toSign ++ [(link, nonce)] }

/-- Nonces that waited for the identity key are signed (R463). -/
def State.signWaiting (s : State) : State :=
  let l := s.pair.toSign
  l.foldl (fun (s : State) x => s.signNonce x.1 x.2) (s.setPair { s.pair with toSign := [] })

/-- The answer to IDENTITY_CERT_GET (R464). -/
def State.certReply (s : State) (r : Request) : State :=
  if slice s.fuse.cert 128 1793 == s.idKey then s.answer r stOK (padTo 3264 s.fuse.cert) else s.answer r stAuth []

/-! ### Attestation (R467) -/

/-- fw_version of the running image, zero if none. -/
def State.runningVersion (s : State) : Nat := match s.boot.image with | some b => fwVer b | none => 0

/-- The firmware digest: the signed digest of the running image (R455), zero if none. -/
def State.fwDigest (s : State) : Bytes :=
  match s.boot.image with | some b => signedDigest labelFw (fwCovered b) | none => zeros 64

/-- The entries that a quote may list (R467, R474): of contexts that exist, what has been answered OK. The slot of a lexicon
is the first that binds it, 0 where none does. -/
def State.quoteEntries (s : State) : List Bytes :=
  (s.ctxs.filter (fun c => c.2.tearMode != 3)).flatMap (fun c =>
    (c.2.loaded.filter (fun (l : Loaded) => !s.replyWaits l.req.1 l.req.2)).map (fun (l : Loaded) =>
    let slot := match s.sten.slots.find? (fun k => k.1 / 16 == c.1 && k.2 == l.name) with | some k => k.1 % 16 | none => 0
    toLe 1 c.1 ++ toLe 1 l.kind ++ toLe 1 (if l.kind = 1 then slot else 0) ++ zeros 13 ++ padTo 32 l.digest))

/-- Label MZ96-QUOTE. -/
def labelQuote : Bytes := ascii [0x4D, 0x5A, 0x39, 0x36, 0x2D, 0x51, 0x55, 0x4F, 0x54, 0x45]

/-- A quote (R467). -/
def State.quote (s : State) (nonce : Bytes) (start : Nat) : Bytes :=
  let es := s.quoteEntries.drop start
  let part := es.take 256
  let flags := (if s.fuse.debugLock then 0 else 1) + (if s.boot.debugAttached then 2 else 0) +
    (if s.fuse.ownerLock then 4 else 0) + (if s.boot.paired then 8 else 0) + (if 256 < es.length then 16 else 0)
  let head := toLe 4 0x54515A4D ++ toLe 1 1 ++ toLe 1 flags ++ toLe 1 s.fuse.rollback ++ zeros 1 ++ toLe 8 s.fuse.uid ++
    toLe 8 s.timeNow ++ toLe 4 (bootStatus s) ++ toLe 4 s.runningVersion ++ toLe 2 part.length ++ toLe 2 start ++
    toLe 4 (errSummary s.err) ++ zeros 24 ++ padTo 32 nonce ++ padTo 64 s.fwDigest ++
    (if s.fuse.ownerLock then toLe 64 s.fuse.ownerDigest else zeros 64) ++ padTo 64 (s.pair.enrolled.getD []) ++
    padTo 64 s.idDigest ++ zeros 32
  let body := head ++ part.flatten
  body ++ s.idSign labelQuote body

/-- The answer to ATTEST_QUOTE. -/
def State.quoteReply (s : State) (r : Request) : State :=
  s.answer r stOK (s.quote (slice r.payload 0 32) (pf r.payload 271 256))

/-! ### Secure commands (R465, R466, R468) -/

/-- SECURE_STATUS (R466): with a fresh enrol nonce, a free value. -/
def execSecureStatus (ch : Nat) (s : State) : Result :=
  .next (s.onSecure ch 0x0100 (fun p => leNat p == 0) (fun s r =>
    let (n, s) := s.freeNat
    let nonce := toLe 32 n
    let s := s.setBoot { s.boot with nonces := tabPut s.boot.nonces ch nonce }
    let flags := (if s.fuse.ownerLock then 1 else 0) +
      (if s.fuse.ownerDigest != 0 && !s.fuse.ownerLock then 2 else 0) + (if s.fuse.debugLock then 4 else 0) +
      (if s.boot.debugAttached then 8 else 0) + (if s.boot.identityReady then 16 else 0)
    s.answer r stOK (toLe 1 s.boot.stage ++ toLe 1 s.boot.failCode ++ toLe 1 s.fuse.rollback ++ toLe 1 flags ++
      toLe 4 s.runningVersion ++ toLe 8 s.fuse.uid ++ nonce ++ toLe 64 s.fuse.rootDigest ++
      (if s.boot.identityReady then padTo 64 s.idDigest else zeros 64))))

/-- IDENTITY_CERT_GET (R463 to R465): deferred until the identity key is ready. -/
def execIdentityCertGet (ch : Nat) (s : State) : Result :=
  .next (s.onSecure ch 0x0101 (fun p => leNat p == 0) (fun s r => if s.boot.identityReady then s.certReply r else s))

/-- ATTEST_QUOTE (R463, R465, R467): deferred until the identity key is ready. -/
def execAttestQuote (ch : Nat) (s : State) : Result :=
  .next (s.onSecure ch 0x0102 (pBits [(271, 0)]) (fun s r => if s.boot.identityReady then s.quoteReply r else s))

/-- IDENTITY_KEY_READY (R463): the requests that wait for the key go on. -/
def execIdentityKeyReady (s : State) : Result :=
  .next (if !s.alive || s.aonServes || s.boot.image.isNone || s.boot.identityReady then s
    else
      let s := s.setBoot { s.boot with identityReady := true }
      let s := ((s.sendIdentity 0).sendIdentity 1).signWaiting
      (s.mbox.taken.filter (fun r => 32 ≤ r.ch && (r.opcode == 0x0101 || r.opcode == 0x0102))).foldl
        (fun (s : State) r => if r.opcode = 0x0101 then s.certReply r else s.quoteReply r) s)

/-- Layout of OWNER_KEY_ENROL (R468). -/
def enrolFmt (p : Bytes) : Bool :=
  p.length == 3136 && onlyBits (leAt p 0 8) [(0, 0)] && (slice p 1801 55).all (· == 0)

/-- Label MZ96-ENROL. -/
def labelEnrol : Bytes := ascii [0x4D, 0x5A, 0x39, 0x36, 0x2D, 0x45, 0x4E, 0x52, 0x4F, 0x4C]

/-- OWNER_KEY_ENROL (R465, R466, R468): whatever it answers, the enrol nonce is gone. -/
def execOwnerKeyEnrol (ch : Nat) (s : State) : Result :=
  .next (s.onSecure ch 0x0103 enrolFmt (fun s r =>
    let nonce := tabFind s.boot.nonces ch
    let s := s.setBoot { s.boot with nonces := tabDel s.boot.nonces ch }
    if s.boot.stage != 5 then s.answer r stNoResource []
    else
      let key := slice r.payload 8 1793
      let lock := leAt r.payload 0 1
      let d := leNat (digest64 key)
      let ok := match nonce with
        | some n => falconVerify key
            (signedDigest labelEnrol (toLe 8 s.fuse.uid ++ n ++ toLe 1 lock)) (slice r.payload 1856 1280)
        | none => false
      let clash := Nat.land s.fuse.ownerDigest d != s.fuse.ownerDigest || (s.fuse.ownerLock && s.fuse.ownerDigest != d)
      if !ok || clash then s.answer r stAuth []
      else
        let f := s.fuse
        (s.setFuse { f with ownerDigest := Nat.lor f.ownerDigest d, ownerLock := true, debugLock := f.debugLock || lock == 1 }).answer
          r stOK []))

/-! ### Pushed images (R461, R462) -/

/-- Put pushed bytes into the staging area: control SRAM in RECOVERY, and in READY LPDDR5 that firmware owns, taken at the
first push; none where it has no room or a word of it freezes the device. -/
def State.stagePut (s : State) (off total : Nat) (data : Bytes) : Option State :=
  if s.boot.stage != 5 then some (s.setBoot { s.boot with staging := memPut s.boot.staging off data, romTest := true })
  else
    let place : Option (Nat × State) := match s.boot.stagingAt with
      | some a => some (a, s)
      | none => (s.lpAlloc 257 total).map (fun r => (r.1, r.2.setBoot { r.2.boot with stagingAt := some r.1 }))
    place.bind (fun r => match r.2.lpWrite 8 0 none (r.1 + off) data with
      | (s, true) => some s
      | (_, false) => none)

/-- The staged image; none where a word of it cannot be corrected. -/
def State.staged (s : State) : State × Option Bytes :=
  match (if s.boot.stage = 1 then none else s.boot.stagingAt) with
  | some a => s.lpRead 8 0 none a s.boot.stagingTotal
  | none => (s, some (memBytes s.boot.staging 0 s.boot.stagingTotal))

/-- IMAGE_PUSH (R438, R461, R465): in RECOVERY the bytes go to control SRAM, which the ROM has tested. -/
def execImagePush (ch : Nat) (s : State) : Result :=
  .next (s.onSecure ch 0x0104 (fun p => pf p 31 0 % 64 == 0) (fun s r =>
    let b := s.boot
    let off := pf r.payload 31 0
    let total := pf r.payload 63 32
    let data := r.payload.drop 8
    if b.stage != 1 && b.stage != 5 then s.answer r stNoResource []
    else if (match b.stagingOwner with | some o => o != ch | none => false) || b.flashBusy.isSome then
      s.answer r stNoResource []
    else if (b.stagingOwner.isSome && total != b.stagingTotal) || 1572864 < total || total < off + data.length ||
        (data.length % 64 != 0 && off + data.length != total) then s.answer r stFormat []
    else
      match s.stagePut off total data with
      | none => s.answer r stNoResource []
      | some s =>
        (s.setBoot { s.boot with
          stagingOwner := some ch, stagingTotal := total, pushed := (off, data.length) :: b.pushed }).answer r stOK []))

/-- Every byte of the staged image has been pushed (R462). -/
def Boot.covered (b : Boot) : Bool :=
  (List.range (ceilDiv b.stagingTotal 64)).all (fun u =>
    b.pushed.any (fun x => x.1 ≤ 64 * u && min (64 * u + 64) b.stagingTotal ≤ x.1 + x.2))

/-- IMAGE_COMMIT (R462, R465): it ends the staging, whatever it answers; a flash write keeps the image until its end. -/
def execImageCommit (ch : Nat) (s : State) : Result :=
  .next (s.onSecure ch 0x0105 (pBits [(0, 0)]) (fun s r =>
    let b := s.boot
    let persist := bit (leNat r.payload) 0
    if b.stage != 1 && b.stage != 5 then s.answer r stNoResource []
    else if (match b.stagingOwner with | some o => o != ch | none => false) || b.flashBusy.isSome then
      s.answer r stNoResource []
    else
      match s.staged with
      | (s, none) => s.clearStaging.answer r stNoResource []
      | (s, some img) =>
        let st := if b.stagingOwner.isNone || !b.covered then stFormat else s.fwStatus img
        if st != stOK then s.clearStaging.answer r st []
        else if b.stage = 5 && !persist then s.clearStaging.answer r stFormat []
        else if persist then
          s.setBoot { s.boot with
            flashBusy := some (ch, r.seq, b.stage == 1), stagingAt := if b.stage = 1 then none else s.boot.stagingAt }
        else (s.clearStaging.startImage img).answer r stOK []))

/-- FLASH_WRITE_COMPLETE (R462): the flash has been programmed and read back; a mismatch leaves no valid image. -/
def execFlashWriteComplete (ok : Bool) (s : State) : Result :=
  .next (match s.boot.flashBusy with
    | none => s
    | some (ch, seq, start) =>
      if !s.alive || s.aonServes then s
      else
        let (s, img) := s.staged
        let kept := if ok then img else none
        let s := (s.setBoot { s.boot with flashBusy := none, flash := kept }).clearStaging
        match kept with
        | none => s.reply ch seq 0x0105 stNoResource []
        | some b => (if start then s.startImage b else s).reply ch seq 0x0105 stOK [])

/-! ### The debug port (R472) -/

/-- What a read through the debug port delivers: palettes, canvases and external memory as they stand; the spec lays out
nothing of the studio controller, the easels' registers and the other memories, whose bytes are free (log 55). -/
def State.debugRead (s : State) (space : DebugSpace) (unit addr n : Nat) : State :=
  match space with
  | .palette => s.emit (.debug (s.palBytes unit (addr % 2 ^ 20) (min n (2 ^ 20 - addr % 2 ^ 20))))
  | .canvas => s.emit (.debug (s.canBytes unit (addr % 2 ^ 22) (min n (2 ^ 22 - addr % 2 ^ 22))))
  | .external => s.emit (.debug (memBytes s.lp.mem addr n))
  | .other => let (v, s) := s.freeNat; s.emit (.debug (toLe n v))

/-- A write through the debug port (log 55). -/
def State.debugWrite (s : State) (space : DebugSpace) (unit addr : Nat) (b : Bytes) : State :=
  match space with
  | .palette => if unit < 64 && addr + b.length ≤ 2 ^ 20 then s.palPut unit addr b else s
  | .canvas => if unit < 8 && addr + b.length ≤ 2 ^ 22 then s.canPut unit addr b else s
  | .external => if addr + b.length ≤ payloadBytes s.boot.memcfg then (s.lpWrite 8 0 none addr b).1 else s
  | .other => s

/-- DEBUG_PORT_ACCESS (R472): ignored once DEBUG_LOCK is blown. The spec does not give the identification code: it is free
(log 55). -/
def execDebugPortAccess (a : DebugAccess) (s : State) : Result :=
  .next (if !s.alive || s.fuse.debugLock then s
    else
      let used := s.setBoot { s.boot with debugAttached := true }
      match a with
      | .idRead => let (n, s) := s.freeNat; s.emit (.idcode (n % 2 ^ 32))
      | .attach => used
      | .detach => used
      | .fuseWrite => used.setFuse { s.fuse with debugLock := true }
      | .read space unit addr n => used.debugRead space unit addr n
      | .write space unit addr b => used.debugWrite space unit addr b)

end Sys2Proof.Machine
end

