-- ==== Sys2Proof/Machine/Boot.lean ====
section
/-! DEFINITION. Machine/Boot.lean: the boot self-test with its spares, and training with memory repair, up to READY
(R395, R396, R408, R409, R438 to R441, R459). -/

namespace Sys2Proof.Machine

/-- Boot stops: stage FAILED with its code (R343, R344). -/
def State.bootFail (s : State) (code : Nat) : State :=
  (s.setBoot { s.boot with stage := 6, failCode := code }).event 7

/-! ### Self-test (R438 to R440) -/

/-- A macro of the device, by memory, unit and index. -/
def testExists (t : MacroTest) : Bool :=
  match t.mem with
  | .palette => t.unit < 64 && t.index < 32
  | .canvas => t.unit < 8 && t.index < 128
  | _ => t.unit == 0

/-- Failing rows in ascending order, each with its failing column groups. -/
def testRows (t : MacroTest) : Tab (List Nat) :=
  (t.rows.filter (fun r => !r.2.isEmpty)).foldl (fun m r => tabPut m r.1 (tabGet [] m r.1 ++ r.2)) []

/-- Rows in which column group `g` fails. -/
def groupRows (m : Tab (List Nat)) (g : Nat) : Nat := countIf (fun r => r.2.contains g) m

/-- g_s of R439: the column group that fails in the most rows, two or more, the lowest on a tie. -/
def worstGroup (m : Tab (List Nat)) : Option Nat :=
  (List.range 79).foldl (fun (b : Option Nat) g =>
    let n := groupRows m g
    match b with
    | none => if 2 ≤ n then some g else none
    | some h => if groupRows m h < n then some g else some h) none

/-- What self-test makes of a macro (R439): rows and column group replaced by spares, and whether it is retired. -/
def testAssign (t : MacroTest) : List Nat × Option Nat × Bool :=
  let m := testRows t
  let g := if t.spareGroupBad then none else worstGroup m
  let left := (m.filter (fun r => r.2.any (fun k => g != some k))).map Prod.fst
  let n := 4 - t.badSpareRows
  (left.take n, g, n < left.length || t.retestFails)

/-- Take the result of one macro: its spares are assigned, or it is retired. -/
def State.testMacro (s : State) (t : MacroTest) : State :=
  let (rows, g, gone) := testAssign t
  if gone then
    (s.setFab (retire s.fab t.mem t.unit [t.index])).setBoot { s.boot with degraded := true }
  else if rows.isEmpty && g.isNone then s
  else s.setErr { s.err with spares := (t.mem, t.unit, t.index, rows, g) :: s.err.spares }

/-- A memory that is never degraded (R440). -/
def memWhole (m : SramMem) : Bool := m != .palette && m != .canvas

/-- The macros of a test that is under way (R438, R493): those of the control SRAM while the ROM runs it, and later the others;
a firmware restart tests palettes and canvases only. -/
def State.tested (s : State) (rom : Bool) (fails : List MacroTest) : List MacroTest :=
  fails.filter (fun t => testExists t && (t.mem == .control) == rom && !(s.pwr.nextCause == 6 && memWhole t.mem))

/-- SELF_TEST_COMPLETE (R438 to R440, R493): `fails` lists the macros in which the test found failing bits, spares that
fail, or a retest that fails. The ROM's test of the control SRAM comes before the image is placed there (R438): an image that
is placed with no report of it has passed (log 153). Boot self-test ends stage SELF_TEST. -/
def execSelfTestComplete (fails : List MacroTest) (s : State) : Result :=
  .next (
    let rom := s.boot.stage ≤ 1
    if !s.alive || s.aonServes || (if rom then s.boot.romTest else s.boot.stage != 3) then s
    else
      let ts := s.tested rom fails
      if ts.any (fun t => memWhole t.mem && (testAssign t).2.2) then s.bootFail stDegraded
      else
        let s := ts.foldl State.testMacro s
        s.setBoot (if rom then { s.boot with romTest := true } else { s.boot with stage := 4 }))

/-! ### Training (R395, R396, R408, R409) -/

/-- The fields of the memory configuration block are those of R395. -/
def memcfgOk (m : Nat) : Bool :=
  let g := fld m 11 8
  let h := fld m 31 16
  let total := ranks m * densityGb m
  onlyBits m [(6, 0), (11, 8), (39, 16)] && fld m 2 0 ≤ 2 && fld m 6 4 ≤ 4 && 4 ≤ total && total ≤ 32 &&
  (g == 0 || (8 ≤ g && g ≤ 16 : Bool)) && (h == 0 || (512 ≤ h : Bool))

/-- Place of a row in the order of R408. -/
def rowKey (r : RowAt) : Nat := ((r.chan * 2 + r.rank) * 16 + r.bank) * 2 ^ 17 + r.row

/-- Put a failing row in its place. -/
def insertRow (x : RowAt × Bool × Bool) : List (RowAt × Bool × Bool) → List (RowAt × Bool × Bool)
  | [] => [x]
  | y :: r => if rowKey x.1 < rowKey y.1 then x :: y :: r else y :: insertRow x r

/-- A row that the memory has and that payload uses (R394). -/
def rowUsed (m : Nat) (r : RowAt) : Bool :=
  r.chan < 16 && r.rank < ranks m && r.bank < 16 && r.row < payloadRows m + payloadRows m / 4

/-- A failing row is repaired, or excluded (R408, R409). -/
def State.repairRow (s : State) (x : RowAt × Bool × Bool) : State :=
  let (r, resource, passes) := x
  let try0 := resource && s.lp.hppr < 16
  let s := if try0 then s.setLp { s.lp with hppr := s.lp.hppr + 1 } else s
  if try0 && passes then s
  else
    let s := if rowUsed s.boot.memcfg r then s.excludeRow (r.chan, r.rank, r.bank, r.row) else s
    s.setBoot { s.boot with degraded := true }

/-- READY is reached (R343, R344, R372, R459, R494). -/
def State.becomeReady (s : State) (image : Bytes) : State :=
  let s := s.setBoot { s.boot with stage := 5, failCode := 0, fwVersion := fwVer image, protoVersion := 0x02030002 }
  let s := s.setPwr { s.pwr with state := 0 }
  let s := if s.pwr.nextCause = 6 then
      s.setPwr { s.pwr with cause := 6, afterFreeze := s.pwr.nextAfter, nextCause := 0, nextAfter := false }
    else s
  let s := (s.event 7).clearChans (· < 32) true false
  let s := if fwAdvance image && s.fuse.rollback < fwRollback image then s.setFuse { s.fuse with rollback := fwRollback image } else s
  s.feedHolds

/-- TRAINING_COMPLETE (R395, R396, R408, R409, R459): the block of the image is judged first, then training, then rows
are repaired or excluded, and memory is zero. hPPR support is what the memory reports; the block has no field for it, so
memory without it differs (log 54). -/
def execTrainingComplete (r : TrainResult) (s : State) : Result :=
  .next (match s.boot.image with
    | none => s
    | some im =>
      if !s.alive || s.aonServes || s.boot.stage != 4 then s
      else
        let m := leAt im (leAt im 40 4) 64
        let s := s.setBoot { s.boot with memcfg := m }
        if !memcfgOk m || fld m 6 4 != r.densityCode || (fld m 3 3 : Nat) != r.ranksM1 || !r.hppr then s.bootFail stFormat
        else if !r.ok then s.bootFail stNoResource
        else
          let s := s.setLp {}
          let rows := r.failing.foldl (fun l x => insertRow x l) []
          (rows.foldl State.repairRow s).becomeReady im)

end Sys2Proof.Machine
end

