-- ==== Sys2Proof/Machine/Conv.lean ====
section
/-! DEFINITION. Machine/Conv.lean: window expansion and pooling (R131 to R145). -/

namespace Sys2Proof.Machine

/-- What tap `t` of output position `r` of the command reads (R136): a tile position (row, column), ZERO or CONSTANT. -/
inductive Src where
  | tile (y x : Nat)
  | zero
  | const
  deriving DecidableEq, Repr

/-- Vertical and horizontal tap of tap index t. -/
def tapYX (w t : Nat) : Nat × Nat := (t / (axisX w).k, t % (axisX w).k)

/-- Output row and column of row r of the command (R138). -/
def posYX (w r : Nat) : Nat × Nat :=
  ((axisY w).q0 + r / max 1 (axisX w).qn, (axisX w).q0 + r % max 1 (axisX w).qn)

/-- Resolve a tap (R136): the vertical edge decides a corner. -/
def tapSrc (w r t : Nat) : Src :=
  let (i, j) := tapYX w t
  let (qy, qx) := posYX w r
  match (axisY w).at qy i with
  | .zero => .zero
  | .const => .const
  | .pos y =>
    match (axisX w).at qx j with
    | .zero => .zero
    | .const => .const
    | .pos x => .tile (y - (axisY w).t0) (x - (axisX w).t0)

/-- Element index of channel c at a tile position (R131). -/
def elemIndex (w c y x : Nat) : Nat := c * gStC w + y * gStY w + x * gStX w

/-- Taps of a window. -/
def nTaps (w : Nat) : Nat := (axisY w).k * (axisX w).k

/-- Channel and tap of slot i of slice q (R138); none for a padding slot. -/
def slotCT (w q i : Nat) : Option (Nat × Nat) :=
  if bit w 133 then
    let per := ceilDiv (gC w) 32
    let c := q % max 1 per * 32 + i
    if c < gC w then some (c, q / max 1 per) else none
  else
    let per := ceilDiv (nTaps w) 32
    let t := q % max 1 per * 32 + i
    if t < nTaps w then some (q / max 1 per, t) else none

/-- The element that slot i of slice q of row r takes, where a tile element fills it. -/
def slotElem (w r q i : Nat) : Option Nat :=
  match slotCT w q i with
  | some (c, t) => (match tapSrc w r t with | .tile y x => some (elemIndex w c y x) | _ => none)
  | none => none

/-- Every slot of a command: row, slice, slot, in the order of the rows. -/
def allSlots (w : Nat) : List (Nat × Nat × Nat) :=
  (List.range (gRows w)).flatMap (fun r => (List.range (gSlices w)).flatMap (fun q =>
    (List.range 32).map (fun i => (r, q, i))))

/-- Byte range of a source element. -/
def elemRange (w : Nat) (f : Fmt) (block : Bool) (x : Nat) : Range :=
  if block then blockLine (bit w 134) f (gSrc w + 8 * (x / 32)) else ⟨bit w 134, gSrc w + x * (f.bits / 8), f.bits / 8⟩

/-- The elements that GESSO_EXPAND reads, in read order. -/
def gessoElems (w : Nat) : List Nat := (allSlots w).filterMap (fun p => slotElem w p.1 p.2.1 p.2.2)

/-- Source code of an element. -/
def State.elemCode (s : State) (e w : Nat) (f : Fmt) (block : Bool) (x : Nat) : Nat :=
  if block then (s.blockAt e (bit w 134) f (gSrc w + 8 * (x / 32))).codes.getD (x % 32) 0
  else leNat (s.spBytes e (bit w 134) (gSrc w + x * (f.bits / 8)) (f.bits / 8))

/-- The code that one slot takes, under the code that stands for zero (R135, R138). -/
def State.slotCode (s : State) (e w : Nat) (f : Fmt) (block : Bool) (z0 : Nat) (r q i : Nat) : Nat :=
  match slotCT w q i with
  | none => z0
  | some (c, t) =>
    match tapSrc w r t with
    | .zero => z0
    | .const => fld w 223 208
    | .tile y x => s.elemCode e w f block (elemIndex w c y x)

/-- Write one gesso slice (R138, R139). `ref` is the reference scale and zero point of a BLOCK gesso. -/
def State.gessoSlice (s0 : State) (c e w g : Nat) (f : Fmt) (ref : Nat × Nat) (s : State) (r q : Nat) : State :=
  let blk := bit w 132
  let k := r * gSlices w + q
  let at0 := g + 64 * fld w 486 474
  let z0 := if blk && (f == .uint8 || f == .uint4) then ref.2 else 0
  let codes := (List.range 32).map (s0.slotCode e w f blk z0 r q)
  if blk then
    let nan := (List.range 32).any (fun i => match slotElem w r q i with
      | some x => (s0.blockAt e (bit w 134) f (gSrc w + 8 * (x / 32))).isNan
      | none => false)
    let h := 8 * f.perLine * (at0 / 64) + 8 * k
    if nan then (s.putBlock e false f h Block.nan).count c 4 1
    else s.putBlock e false f h { scale := ref.1, zp := ref.2, codes := codes }
  else s.palPut e (at0 + k * 32 * (f.bits / 8)) (plainBytes f codes)

/-- Scale and zero point of the blocks that a BLOCK source's elements lie in, NaN blocks left out, in read order. -/
def State.gessoScales (s : State) (e w : Nat) (f : Fmt) : List (Nat × Nat) :=
  ((gessoElems w).map (fun x => s.blockAt e (bit w 134) f (gSrc w + 8 * (x / 32)))).filterMap
    (fun b => if b.isNan then none else some (b.scale, b.zp))

/-- Write every slice; the slots of the last line beyond the last block are zero (R100). -/
def State.gessoWrite (s : State) (c e w g : Nat) (f : Fmt) (ref : Nat × Nat) : State :=
  let s1 := (List.range (gRows w)).foldl (fun s1 r =>
    (List.range (gSlices w)).foldl (fun s1 q => s.gessoSlice c e w g f ref s1 r q) s1) s
  if bit w 132 then
    s1.zeroTail e false f (8 * f.perLine * ((g + 64 * fld w 486 474) / 64) + 8 * (gRows w * gSlices w - 1))
  else s1

/-- The content of the GESSO region is unspecified (R139). -/
def State.freeGesso (s : State) (c e : Nat) : State :=
  match s.regionOf c e 1 with
  | none => s
  | some (o, n) =>
    let (v, s) := s.freeNat
    s.palPut e o (toLe n v)

/-- The body of GESSO_EXPAND. Where no block gives a reference scale, none is stated: free (log 39). -/
def State.gesso (s : State) (c e w : Nat) : State × BodyEnd :=
  match cFmt w 128, s.regionOf c e 1 with
  | some f, some (g, n) =>
    let blk := bit w 132
    let d := gDest w g f blk
    if g + n < d.off + d.len then (s, .fault 0x04)
    else
      s.withRanges c e ((gessoElems w).map (elemRange w f blk)) [d] (fun s =>
        if blk then
          match s.gessoScales e w f with
          | [] =>
            let v := Config.gessoEmpty w
            (s.gessoWrite c e w g f
              (v.1 % 2 ^ 16, if f == .uint8 then v.2 % 256 else if f == .uint4 then v.2 % 16 else 0), .done)
          | ref :: rest =>
            if rest.all (fun x => x == ref) then (s.gessoWrite c e w g f ref, .done)
            else (s.freeGesso c e, .fault 0x07)
        else (s.gessoWrite c e w g f (0, 0), .done))
  | _, _ => (s, .fault 0x04)

/-- GESSO_EXPAND (R138, R139). -/
def execGessoExpand (e q : Nat) (s : State) : Result :=
  .next (s.runCommand e q (selOp 0x03) (fun c w s => s.gesso c e w))

/-! ### POOL (R143, R144) -/

/-- A tap is padded (R144): its coordinate lies outside the full tensor on an axis. -/
def padded (w r t : Nat) : Bool :=
  let (i, j) := tapYX w t
  let (qy, qx) := posYX w r
  let y := (axisY w).coord qy i
  let x := (axisX w).coord qx j
  decide (y < 0) || decide (((axisY w).n : Int) ≤ y) || decide (x < 0) || decide (((axisX w).n : Int) ≤ x)

/-- The value of a tap of channel c. -/
def State.tapValue (s : State) (e w : Nat) (f : Fmt) (r c t : Nat) : FV :=
  let code := match tapSrc w r t with
    | .zero => 0
    | .const => fld w 223 208
    | .tile y x => s.elemCode e w f false (elemIndex w c y x)
  codeValue f code

/-- Counted taps of an output position, in ascending order. -/
def poolTaps (w r : Nat) : List Nat := (List.range (nTaps w)).filter (fun t => bit w 135 || !padded w r t)

/-- MAX of counted taps (R144). -/
def poolMaxOf (l : List FV) : FV :=
  match l with
  | [] => fzero
  | x :: r => let m := r.foldl fmax x; if fisZero m then fzero else m

/-- A value divided by a count, as a code of a format, rounded once (R144). -/
def quotCode (f : Fmt) (v : FV) (n : Nat) : Nat × Sat :=
  match v with
  | .fin neg m x =>
    let (a, b) := magFrac m x
    if f.isInt then
      let (z, c) := clampInt f.lo f.hi (rneInt neg a (b * n))
      (twos f.bits z, if c then { int := 1 } else {})
    else encFrac f neg a (b * n)
  | v => encPlain f (.f v)

/-- One output element of POOL. -/
def State.poolElem (s : State) (e w : Nat) (f : Fmt) (avg : Bool) (r c : Nat) : Nat × Sat :=
  let l := (poolTaps w r).map (s.tapValue e w f r c)
  if l.isEmpty then encPlain f (.f fzero)
  else if avg then quotCode f (l.foldl (fun a v => r32 (fadd a v)) fzero) l.length
  else encPlain f (.f (poolMaxOf l))

/-- The elements that POOL reads. -/
def poolElems (w : Nat) : List Nat :=
  (List.range (gRows w)).flatMap (fun r => (List.range (gC w)).flatMap (fun c => (poolTaps w r).filterMap (fun t =>
    match tapSrc w r t with | .tile y x => some (elemIndex w c y x) | _ => none)))

/-- The body of POOL. -/
def State.pool (s : State) (c e w : Nat) : State × BodyEnd :=
  match cFmt w 128 with
  | none => (s, .format)
  | some f =>
    let d := poolDest w f
    s.withRanges c e ((poolElems w).map (elemRange w f false)) [d] (fun s =>
      let l := (List.range (gRows w)).flatMap (fun r => (List.range (gC w)).map (fun ch => s.poolElem e w f (bit w 133) r ch))
      ((s.spPut e d.canvas d.off (plainBytes f (l.map Prod.fst))).countSat c (l.foldl (fun a x => a.add x.2) Sat.zero), .done))

/-- POOL_MAX (R144). -/
def execPoolMax (e q : Nat) (s : State) : Result :=
  .next (s.runCommand e q (fun w => cOp w == 0x04 && !bit w 133) (fun c w s => s.pool c e w))

/-- POOL_AVG (R144). -/
def execPoolAvg (e q : Nat) (s : State) : Result :=
  .next (s.runCommand e q (fun w => cOp w == 0x04 && bit w 133) (fun c w s => s.pool c e w))

end Sys2Proof.Machine
end

