-- ==== Sys2Proof/Machine/Power.lean ====
section
/-! DEFINITION. Machine/Power.lean: IDLE, SLEEP and the wake sequence, the AON's comparators and timer, throttling, and
PTM (R11, R13, R347, R476 to R485, R488 to R491, R496). -/

namespace Sys2Proof.Machine

/-! ### Comparators and their start events (R13, R476 to R478) -/

/-- Paper trips of the comparators in `mask` start captures on the ports that name them (R13, R477). -/
def State.paperStarts (s : State) (mask : Nat) : State :=
  (List.range 4).foldl (fun (s : State) p =>
    match (s.port p).cfg with
    | some c => if bit c.hdr 19 && bit mask (fld c.hdr 21 20) then s.startEvent p else s
    | none => s) s

/-- COMPARATOR_TRIP (R13, R476 to R478): a trip until it rearms; a paper trip that joins a wake starts its capture at the
end of the wake. -/
def execComparatorTrip (n : Nat) (s : State) : Result :=
  .next (
    if !s.aon.powered || 4 ≤ n || bit s.aon.tripped n then s
    else
      let paper := s.isPaper n
      let later := paper && s.aonServes
      let a := s.aon
      let s := s.setAon { a with
        tripped := a.tripped + 2 ^ n,
        wakeTrips := if later && !bit a.wakeTrips n then a.wakeTrips + 2 ^ n else a.wakeTrips }
      let s := s.wake n
      if s.works then
        let s := s.leaveIdle
        if paper then s.paperStarts (2 ^ n) else s.feedHolds
      else s)

/-- COMPARATOR_REARM (R476, R477). -/
def execComparatorRearm (n : Nat) (s : State) : Result :=
  .next (if !s.aon.powered || 4 ≤ n || !bit s.aon.tripped n then s
    else (s.setAon { s.aon with tripped := s.aon.tripped - 2 ^ n }).feedHolds)

/-! ### Throttling (R491) -/

/-- Firmware can read the sensors: the control cores run, outside SLEEP. -/
def State.senses (s : State) : Bool := s.ready && s.pwr.state < 2

/-- THERMAL_SAMPLE (R491, R496): the highest junction in °C, core power in mW. A step down at the onset of a power or MR4
condition and at every sample above 100 °C; at most one step a sample, and down wins. -/
def execThermalSample (junction : Int) (p100us : Nat) (over55 : Bool) (p10ms : Nat) (mr4Hot : Bool) (s : State) : Result :=
  .next (
    if !s.senses then s
    else
      let p := s.pwr
      let over60 := decide (60000 < p100us)
      let down := decide (100 < junction) || (over60 && !p.over60) || (over55 && !p.over55) || (mr4Hot && !p.mr4Hot)
      let cool := decide (junction ≤ 95) && decide (p10ms < 50000) && !mr4Hot
      let ms := if cool then p.coolMs + 1 else 0
      let up := !down && 100 ≤ ms
      let s := s.setPwr { p with over60 := over60, over55 := over55, mr4Hot := mr4Hot, coolMs := if down || up then 0 else ms }
      if down then s.stepDown else if up then s.setThrottle (p.throttle - 1) else s)

/-- What firmware finds pending at a timer wake (R479): queue doorbells that the AON stored, to be acted on after the next
wake (R347). Every other source starts the wake sequence itself. -/
def State.timerPending (s : State) : Bool := !s.aon.storedDb.isEmpty

/-- AON_TIMER_MATURE (R11, R478, R479, R496): firmware reads the sensors and MR4. Where something is pending, the wake
sequence goes on; else the device is in SLEEP again with the timer set anew, without having brought intake up. During a
wake sequence the timer joins it. -/
def execAonTimerMature (junction : Int) (mr4Hot : Bool) (s : State) : Result :=
  .next (
    if !s.aon.powered || !s.aon.timerSet then s
    else if s.asleep && !s.aon.waking && s.timerPending then
      let hot := decide (100 < junction)
      let s := if hot || (mr4Hot && !s.pwr.mr4Hot) then s.stepDown else s
      ((s.setPwr { s.pwr with mr4Hot := mr4Hot, coolMs := 0 }).setAon { s.aon with timerSet := false }).wake 7
    else if s.asleep && !s.aon.waking then
      let a := s.aon
      let s := s.setAon { a with wakeCause := if bit a.wakeCause 7 then a.wakeCause else a.wakeCause + 2 ^ 7 }
      let s := (s.emit (.coreEn true)).pme
      let hot := decide (100 < junction)
      let s := if hot || (mr4Hot && !s.pwr.mr4Hot) then s.stepDown else s
      (s.setPwr { s.pwr with mr4Hot := mr4Hot, coolMs := 0 }).emit (.coreEn false)
    else if s.aon.waking then (s.setAon { s.aon with timerSet := false }).wake 7
    else s.setAon { s.aon with timerSet := false })

/-! ### IDLE (R481) -/

/-- No unit has work, no capture runs, no mailbox request is unanswered (R481). -/
def State.noWork (s : State) : Bool :=
  s.fab.queue.all (fun q => q.2.run != QRun.running) && s.fab.dma.all (fun g => g.2.all DmaJob.failed) &&
  s.ctxs.all (fun c => !c.2.busy && !c.2.stopping && !c.2.restoring) &&
  s.intake.items.all (fun x => x.2.filled || x.2.failed != 0) &&
  s.intake.streams.all (fun t => t.2.units.isEmpty) && s.text.streams.all (fun t => t.2.jobs.isEmpty) &&
  s.read.ctx.all (fun r => r.2.maskDue.isNone) &&
  s.ports.all (fun p => p.2.st != .capturing && p.2.store.isEmpty) &&
  s.mbox.taken.isEmpty && s.mbox.whole.isEmpty && s.mbox.win.all (fun w => !w.2.pending) &&
  s.mbox.ready.all (fun r => r.2.all (fun m => !m.reply))

/-- Every RUNNING real-time context leaves 50 µs between its deadline and d_main (R481). -/
def State.idleSlack (s : State) : Bool :=
  let rts := s.rtAdmitted
  let b := bStencil (sumOf (rts.map (fun r => if r.2.1.hasStencil then r.2.1.maxSeq else 0)))
  rts.all (fun r => r.2.1.st != .running ||
    decide (dMain (s.bIntake r.1) b r.2.2.2 + 50000 ≤ 1000 * r.2.1.deadlineUs))

/-- IDLE_ENTRY (R481): 1 ms has passed without work. -/
def execIdleEntry (s : State) : Result :=
  .next (if s.works && s.pwr.state == 0 && s.noWork && s.idleSlack then s.setPwr { s.pwr with state := 1 } else s)

/-! ### SLEEP (R482 to R484) -/

/-- The conditions of R482 beyond 10 s of IDLE. -/
def State.maySleep (s : State) : Bool :=
  s.works && s.pwr.state == 1 && s.outCount == 0 && s.intake.items.isEmpty && s.hq.all (fun q => q.2.ready.isEmpty) &&
  s.ports.all (fun p => p.2.st != .capturing && p.2.st != .calibrating) &&
  s.intake.streams.all (fun t => !bit t.2.record 2) && s.ring.jobs.all (fun j => !j.confirmed) && !s.pair.formed &&
  s.ctxs.all (fun c => c.2.st != .preempted && c.2.st != .tearingDown)

/-- Bytes of what SLEEP saves of a partition (R484): palettes, both accumulator banks and 4 KiB of queue, tally and barrier
state by easel, and canvas shares. -/
def Part.sleepBytes (p : Part) : Nat := p.easels.length * (2 ^ 20 + 2 ^ 16 + 4096) + sumOf (p.canvas.map (fun r => r.2.2))

/-- The save of one context is written from `a` on, and the context keeps what is saved and where (R484, log 78). -/
def State.putSleep (c : Nat) (p : Part) (sv : Saved) (a : Nat) (s : State) : State × Bool :=
  let w := s.freeNat.2.lpWrite 8 0 (some c) a (toLe p.sleepBytes s.freeNat.1)
  (w.1.modCtx c (fun x => { x with saved := some sv, sleepAt := some (a, p.sleepBytes) }), w.2)

/-- The save of one context goes to LPDDR5 that it owns (R484); its layout is free (log 78). False where there is no room or
a word freezes the device. -/
def State.writeSleep (s : State) (c : Nat) (p : Part) (sv : Saved) : State × Bool :=
  (s.lpAlloc (c + 1) p.sleepBytes).elim (s, false) (fun r => r.2.putSleep c p sv r.1)

/-- Save one context whole (R484); false where a word of it cannot be corrected, or memory has no room. -/
def State.saveOne (s : State) (c : Nat) (v : Variant) (p : Part) (e : CertEntry) : State × Bool :=
  let r := s.saveReads c v p e true
  if r.2 then r.1.writeSleep c p (r.1.savedOf v p e true) else r

/-- Save every RUNNING context whole (R484), as far as none fails. -/
def State.saveRunning (s : State) : State × Bool :=
  (s.ctxs.filter (fun c => c.2.st == .running)).foldl (fun (r : State × Bool) c =>
    match r.2, c.2.part, c.2.variant, c.2.cert with
    | true, some p, some v, some e => r.1.saveOne c.1 v p e
    | _, _, _, _ => r) (s, true)

/-- The bytes of a port's dark and gain tables (R261, R483). -/
def Port.tableBytes (q : Port) : Bytes :=
  match q.cfg with
  | none => []
  | some c =>
    let plane := fun (t : Tab Nat) d => (List.range c.colours).flatMap (fun k => (List.range c.pixels).flatMap (fun i =>
      toLe 2 (tabGet d t (k * 2 ^ 14 + i))))
    plane q.dark 0 ++ plane q.gain 0x4000

/-- Firmware copies every port's tables to LPDDR5 that it owns (R483); false where there is no room. -/
def State.saveTables (s : State) : State × Bool :=
  s.ports.foldl (fun (r : State × Bool) q =>
    let b := q.2.tableBytes
    if !r.2 || b.isEmpty then r
    else
      match r.1.lpAlloc 257 b.length with
      | none => (r.1, false)
      | some (a, s) =>
        let (s, ok) := s.lpWrite 8 0 none a b
        (s.putPort q.1 { s.port q.1 with tables := some a }, ok)) (s, true)

/-- SLEEP is not entered: what was taken for its saves is given back. -/
def State.dropSaves (s : State) : State :=
  let s := s.ctxs.foldl (fun (s : State) c => match c.2.sleepAt with
    | some a => (s.lpFree a.1 a.2).modCtx c.1 (fun x => { x with sleepAt := none, saved := none })
    | none => s) s
  s.ports.foldl (fun (s : State) q => match q.2.tables with
    | some a => (s.lpFree a q.2.tableBytes.length).putPort q.1 { q.2 with tables := none }
    | none => s) s

/-- The tables come back at step 8 of the wake sequence (R485). -/
def State.restoreTables (s : State) : State :=
  s.ports.foldl (fun (s : State) q =>
    match q.2.tables, q.2.cfg with
    | some a, some c =>
      let n := 2 * c.colours * c.pixels
      (match s.lpRead 8 0 none a (2 * n) with
       | (s, some b) =>
         let table := fun d (b : Bytes) => (List.range c.colours).foldl (fun t k => (List.range c.pixels).foldl (fun t i =>
           tabSet d t (k * 2 ^ 14 + i) (leAt b (2 * (k * c.pixels + i)) 2)) t) ([] : Tab Nat)
         (s.putPort q.1 { s.port q.1 with dark := table 0 (b.take n), gain := table 0x4000 (b.drop n), tables := none }).lpFree a (2 * n)
       | (s, none) => s)
    | _, _ => s) s

/-- What SLEEP leaves of a port: its line in progress, delay lines and tables go, and it loses AFE lock; its timing outputs
hold the levels `tg` that they have (R483). -/
def Port.sleep (p : Port) (tg : List (Option Bool)) : Port :=
  { p with locked := false, fcoRun := 0, running := false, held := false, cur := none, frame := 0, done := [], hist := [],
           tg := tg, dark := [], gain := [] }

/-- The contents of every SRAM but control SRAM go (R483). -/
def State.dropSram (s : State) : State :=
  let f := s.fab
  let bare := fun (b : Barrier) => { b with arrivals := [], gen := 0, waiting := [] }
  let s := s.setFab { f with
    palette := [], canvas := [], acc := [], accKind := [], accParity := [], vecParity := [], queue := [], tally := [],
    waiters := [], bar := tabMap f.bar (fun _ b => bare b), devBar := tabMap f.devBar (fun _ b => bare b), dma := [] }
  let s := s.setErr { s.err with
    sram := s.err.sram.filter (fun x => x.1.mem == .control), writeBack := s.err.writeBack.filter (fun w => w.mem == .control) }
  let s := s.setSched { s.sched with resident := [] }
  let s := s.setSten { s.sten with lines := [] }
  let s := s.setRead { s.read with tlb := [] }
  let s := s.setLp { s.lp with chan := tabMap s.lp.chan (fun _ c => { c with cache := [] }), banks := [] }
  s.setPorts (tabMap s.ports (fun n p => p.sleep (s.tgNow n)))

/-- SLEEP_ENTRY (R482 to R484, R488): 10 s of IDLE have passed. -/
def execSleepEntry (s : State) : Result :=
  .next (if !s.maySleep then s
    else
      let r := s.feedHolds.saveTables
      match (if r.2 then r.1.saveRunning else r) with
      | (s, false) => s.dropSaves
      | (s, true) =>
        let s := s.dropSram
        let s := s.setAon { s.aon with
          timerSet := true, wakeTrips := 0, entryTime := s.clk.time, entryTicks := s.aon.ticks }
        (s.setPwr { s.pwr with state := 2, coreEn := false, corePg := false }).emit (.coreEn false))

/-! ### The end of the wake sequence (R484, R485) -/

/-- Put a context that slept back into its partition (R484): WEIGHT regions from the bundle, all else as saved; a word of
the save that cannot be corrected freezes the device. -/
def State.wakeCtx (s : State) (c : Nat) : State :=
  match s.ctx? c with
  | none => s
  | some x =>
    let at0 := x.sleepAt.getD (0, 0)
    let (s, back) := s.lpRead 8 0 (some c) at0.1 at0.2
    let s := if back.isSome then (s.lpFree at0.1 at0.2).modCtx c (fun x => { x with sleepAt := none }) else s
    match back.bind (fun _ => x.part), x.variant, x.cert, x.image, x.saved with
    | some p, some v, some e, some im, some sv =>
      let ps := (List.range p.easels.length).zip p.easels
      let s := ps.foldl (fun (s : State) y => s.loadPos x im v y.1 y.2) s
      let src := fun (s : State) q off => leNat (s.palBytes (p.easels[q]?.getD 0) off 8)
      let s := (s.relocateAll c x p e v src (fun _ => true)).getD s
      let weight := fun pos o => (mapRegions (v.palette[pos]?.getD [])).any (fun r => r.kind == 2 && decide (r.offset ≤ o) && decide (o < r.offset + r.size))
      let f := s.fab
      let posOf := fun n => (p.easels.idxOf? n).getD 64
      let own := f.palette.filter (fun b => !p.easels.contains (b.1 / 2 ^ 20) || weight (posOf (b.1 / 2 ^ 20)) (b.1 % 2 ^ 20))
      let other := sv.palette.filter (fun b => !weight (b.1 / 2 ^ 20) (b.1 % 2 ^ 20))
      let at0 := fun i => p.easels[i * e.e]?.getD 0 / 8
      let base := fun a => match p.canvas.find? (fun k => k.1 == a) with | some k => k.2.1 | none => 0
      let toE := fun (t : Tab Nat) => ps.foldl (fun r y => rekey t 1 y.1 y.2 r) []
      let put := fun (b : Barrier) (g : Nat × Tab Nat) => { b with gen := g.1, arrivals := toE g.2 }
      let s := s.setFab { f with
        palette := ps.foldl (fun r y => rekey other (2 ^ 20) y.1 y.2 r) own,
        canvas := sv.canvas.foldl (fun m b =>
          let a := at0 (b.1 / 2 ^ 22)
          memWrite m (a * 2 ^ 22 + base a + b.1 % 2 ^ 22) b.2) f.canvas,
        acc := ps.foldl (fun r y => rekey sv.acc 16384 y.1 y.2 r) f.acc,
        accKind := ps.foldl (fun r y => rekey sv.accKind 512 y.1 y.2 r) f.accKind,
        tally := ps.foldl (fun r y => rekey sv.tallies 256 y.1 y.2 r) f.tally,
        queue := ps.foldl (fun r y => rekey sv.queues 16 y.1 y.2 r) f.queue,
        bar := (p.bars.zip sv.bars).foldl (fun t y => tabUpd t y.1 (fun b => put b y.2)) f.bar,
        devBar := match p.devBar, sv.devBar with | some k, some g => tabUpd f.devBar k (fun b => put b g) | _, _ => f.devBar }
      (s.modCtx c (fun x => { x with saved := none })).ringBarrier c
    | _, _, _, _, _ => s

/-- WAKE_SEQUENCE_COMPLETE (R485 step 9, R347, R484, R488): the core's supply is up, saved state is back, and what waited
is acted on. -/
def execWakeSequenceComplete (s : State) : Result :=
  .next (
    if !s.aon.powered || !s.aon.waking || !s.pwr.corePg then s
    else
      let t := s.timeNow
      let dbs := s.aon.storedDb
      let trips := s.aon.wakeTrips
      let s := s.setAon { s.aon with waking := false, timerSet := false, storedDb := [], wakeTrips := 0 }
      let s := s.setClk { s.clk with time := t, frac := 0, slewPpm := 0, half := false, err := 0 }
      let s := s.setPwr { s.pwr with state := 0 }
      let s := (s.ctxs.filter (fun c => c.2.st == .running)).foldl (fun (s : State) c => s.wakeCtx c.1) s
      let s := s.restoreTables.paperStarts trips
      let s := dbs.foldl (fun (s : State) d => s.ringDb d.1 d.2) s
      s.feedHolds)

/-! ### Device time (R489) -/

/-- PTM_DIALOGUE (R489, R496): `master` is the PTM master time in ns. That a dialogue takes place says that the host has
enabled PTM (R349). -/
def execPtmDialogue (master : Nat) (s : State) : Result :=
  .next (
    if !s.senses then s
    else
      let k := s.clk
      match k.offset0 with
      | none => s.setClk { k with ptm := true, offset0 := some ((k.time : Int) - master) }
      | some o =>
        let e := (k.time : Int) - master - o
        if e < -10000 then s.setClk { k with ptm := true, time := k.time + (-e).toNat, slewPpm := 0, half := false, err := 0 }
        else if 10000 < e then s.setClk { k with ptm := true, slewPpm := 0, half := true, err := e }
        else s.setClk { k with ptm := true, slewPpm := if e = 0 then 0 else if 0 < e then -500 else 500, half := false, err := e })

end Sys2Proof.Machine
end

