-- ==== Sys2Proof/Machine/Faults.lean ====
section
/-! DEFINITION. Machine/Faults.lean: device freezes, the write-back and the scrub of on-chip words, and retirement (R410,
R435, R436, R441, R445, R447, R448). -/

namespace Sys2Proof.Machine

/-- DEVICE_FREEZE (R445, R447, R448): `cause` names what is detected. A memory error without a word is a parity error on
a controller's command path (R410), on a channel that is free; a double fault needs an error that is being handled. -/
def execDeviceFreeze (cause : Nat) (s : State) : Result :=
  .next (
    if !s.ready || s.aonServes then s
    else if cause = 1 then
      let (n, s) := s.freeNat
      s.memoryFreeze
        { chan := n % 16, kind := 3, row := 0, rank := 0, bank := 0, col := 0, agent := 0, stream := 0, scrub := false,
          rmw := false, addr := 0, data := 0, check := 0, syndrome := 0 }
    else if cause = 3 then (if s.err.active.isSome then s.freeze 3 else s)
    else if cause = 2 || cause = 4 || cause = 5 then s.fatal cause
    else s)

/-- WATCHDOG_EXPIRY (R445, R447): a control core has left its watchdog unserviced for 10 ms. -/
def execWatchdogExpiry (s : State) : Result :=
  .next (if !s.ready || s.aonServes then s else s.fatal 5)

/-- CORRECTED_WRITE_BACK (R435): the corrected word is stored; one that a write has reached since is no longer here. -/
def execCorrectedWriteBack (mem : SramMem) (unit word : Nat) (s : State) : Result :=
  .next (
    let w : WordAt := { mem := mem, unit := unit, word := word }
    if !s.alive || s.aonServes || !s.err.writeBack.contains w then s
    else s.setErr { (setFlips s.err w 0) with writeBack := s.err.writeBack.filter (fun x => x != w) })

/-- Words that a memory holds, without those of retired macros (R27, R444). -/
def State.wordsIn (s : State) (mem : SramMem) (unit : Nat) : Nat :=
  match mem with
  | .palette => if unit < 64 then palUsable s.fab unit / 8 else 0
  | .canvas => if unit < 8 then canUsable s.fab unit / 8 else 0
  | .vocabulary => if unit = 0 then 1572864 else 0
  | .stencil => if unit = 0 then 262144 else 0
  | .intake => if unit = 0 then 786432 else 0
  | .control => if unit = 0 then 262144 else 0

/-- ONCHIP_SCRUB (R436): the scrubber's next word is read and corrected. -/
def execOnchipScrub (mem : SramMem) (unit : Nat) (s : State) : Result :=
  .next (
    let n := s.wordsIn mem unit
    if !s.works || s.pwr.state != 0 || n = 0 then s
    else
      let mine := fun (w : WordAt) => w.mem == mem && w.unit == unit
      let at0 := (match s.err.scrubPos.find? mine with | some w => w.word | none => 0) % n
      let next : WordAt := { mem := mem, unit := unit, word := (at0 + 1) % n }
      let s := s.setErr { s.err with scrubPos := next :: s.err.scrubPos.filter (fun w => !mine w) }
      (s.readWord { mem := mem, unit := unit, word := at0 } none).1)

/-- MACRO_RETIREMENT (R441, R442, R444): the marked macros of a palette or canvas that holds no context's data. -/
def execMacroRetirement (mem : SramMem) (unit : Nat) (s : State) : Result :=
  .next (if !s.works then s else s.retireNow mem unit)

end Sys2Proof.Machine
end

