-- ==== Sys2Proof/Machine/Links.lean ====
section
/-! DEFINITION. Machine/Links.lean: stretcher links, ring formation, ring jobs, blocks, credits, ring barriers and abort
notices (R200 to R204, R414 to R422). -/

namespace Sys2Proof.Machine

/-! ### A pair is broken (R426) -/

/-- A MIRROR_PAIR request that waits is answered, and the challenge under way is over (R423, R431). -/
def State.pairAnswer (s : State) (status : Nat) (payload : Bytes) : State :=
  match s.pair.wanted with
  | none => s
  | some (ch, seq, _, _, _) =>
    (s.setPair { s.pair with wanted := none, nonce := none, peer := none, verified := false }).reply ch seq 0x0080 status payload

/-- What waited for one acknowledgement goes on (R425): a reply is made ready, a descriptor is accepted, a record is
written. -/
def State.afterMirror (s : State) (w : MirrorWait) : State :=
  match w with
  | .none => s
  | .reply ch seq op st p =>
    let s := s.reply ch seq op st p
    if op = 0x0080 then s.setPair { s.pair with wanted := none, nonce := none, peer := none, verified := false } else s
  | .accept q w t vs => s.acceptHead q w t vs
  | .record q =>
    let s := s.setHq (tabUpd s.hq q (fun h => { h with ready := listMod h.ready 0 (fun r => { r with mirrored := true }) }))
    match execRecordPost q s with
    | .next t => t
    | _ => s
  | .chunks p l => (s.setPorts (tabUpd s.ports p (fun q => { q with unacked := q.unacked.filter (fun c => !l.contains c) }))).feedHolds

/-- Nothing waits for the partner any more (R426): the pair is gone, and what waited goes on. -/
def State.flushWaits (s : State) : State :=
  let ws := s.mirrorWaits
  let s := s.setPair { enrolled := s.pair.enrolled }
  let s := (s.setPorts (tabMap s.ports (fun _ q => { q with unacked := [] }))).feedHolds
  ws.foldl (fun (s : State) w => s.afterMirror w) s

/-- Heartbeat loss (R426): partner_lost is set. The active device goes on unmirrored, and nothing waits for the partner
any more; the standby holds what it has. A pairing whose replies are still deferred is refused (R431). -/
def State.heartbeatLost (s : State) : State :=
  let deferred := s.pair.wanted.isSome
  let s := s.pairAnswer stNoResource []
  if !s.pair.formed || s.pair.lost then s
  else
    let s := s.event 3
    if s.pair.role = 1 || deferred then s.flushWaits
    else s.setPair { s.pair with lost := true }

/-! ### Training and retraining (R415, R419) -/

/-- Firmware sends its discovery flit east (R420). -/
def State.discover (s : State) : State := s.sendOn 0 (.discovery { origin := s.fuse.uid, hops := 0 })

/-- A command that comes over a link: nothing comes over one that is down (R415), and what comes over one that retrains is held
until it has retrained (R419). -/
def State.viaLink (s : State) (link : Nat) (i : Instr) (go : State → State) : State :=
  let k := s.link link
  if !s.alive || s.aonServes || 2 ≤ link || !k.up then s
  else if k.retraining then s.setLink link { k with came := k.came ++ [i] }
  else go s

/-- STRETCHER_LINK_TRAINING_COMPLETE (R415, R420, R481): versions are numbered 0 for 1.0 and 1 for 1.1. The seal core sends this
device's own UID and digests (step 3). -/
def execStretcherLinkTrainingComplete (link : Nat) (peer : LinkPeer) (s : State) : Result :=
  .next (
    if !s.alive || s.aonServes || 2 ≤ link || (s.link link).up then s
    else if !peer.lanesOk || min peer.maxVer 1 < peer.minVer then s
    else
      let k : Link :=
        { up := true, version := min peer.maxVer 1, peerUid := peer.uid, peerIdentity := peer.identity,
          peerOwner := peer.owner, chans := (s.link link).chans }
      (((s.setLink link k).sendIdentity link).discover).leaveIdle)

/-- LINK_RETRAINS counts one for every context with a ring job or mirrored state on the link (R419, R430). -/
def State.countRetrain (s : State) (link : Nat) : State :=
  let all := s.mirroring && s.pair.link == link
  let cs := (s.ctxs.filter (fun c => all || s.ring.jobs.any (fun j => j.ctx == c.1))).map Prod.fst
  cs.foldl (fun (s : State) c => s.count c 0x28 1) s

/-- LINK_RETRAIN (R419). -/
def execLinkRetrain (link : Nat) (s : State) : Result :=
  .next (
    let k := s.link link
    if !s.alive || s.aonServes || 2 ≤ link || !k.up || k.retraining then s
    else ((s.setLink link { k with retraining := true }).countRetrain link).leaveIdle)

/-- A link goes down (R419): its ring jobs' contexts are torn down, the other neighbour is told, credits return to their
initial count, and a pair over it is broken. The blocks that came over the other link give their credits back (R25). -/
def State.linkDown (s : State) (link : Nat) : State :=
  let js := s.ring.jobs.filter (fun j => !j.dead)
  let s := s.setLink link { chans := (s.link link).chans }
  let s := s.setRing { s.ring with size := 0 }
  let s := js.foldl (fun (s : State) j =>
    let s := s.sendOn (1 - link) (.abort (1 - link) j.job)
    ((s.modJob j.ctx j.job (fun j => { j with dead := true })).freeJob j).contained j.ctx 0x0A) s
  let ends := s.pair.formed && s.pair.link == link
  let asked := match s.pair.wanted with | some (_, _, _, l, _) => l == link | none => false
  if ends || asked then s.heartbeatLost else s

/-- A link carries flits: it is up and not retraining (R415, R419). -/
def State.carries (s : State) (link : Nat) : Bool := s.alive && !s.aonServes && link < 2 && (s.link link).up && !(s.link link).retraining

/-! ### Ring formation (R420) -/

/-- RING_DISCOVERY_FLIT (R420): forwarded east, or the ring is closed at its sender. `hops` counts the hops before the
one that brought it. -/
def execRingDiscoveryFlit (link : Nat) (f : DiscFlit) (s : State) : Result :=
  .next (s.viaLink link (.ringDiscoveryFlit link f) (fun s =>
    if link ≠ 1 then s
    else
      let h := f.hops + 1
      if f.origin = s.fuse.uid then (if 2 ≤ h && h ≤ 8 then (s.setRing { s.ring with size := h }).leaveIdle else s)
      else if h < 8 then (s.sendOn 0 (.discovery { f with hops := h })).leaveIdle
      else s))

/-- The confirmation flit of a job as it leaves this device. -/
def State.confirmFlit (s : State) (j : RingJob) : ConfirmFlit :=
  let cls := match s.ctx? j.ctx with | some x => fld x.params 1 0 | none => 0
  { origin := s.fuse.uid, hops := 0, job := j.job, n := j.n, index := j.index, cls := cls, maxBlock := j.maxBlock,
    shard := j.shardDigest, owner := s.ownerBytes, agree := true }

/-- A flit passes a device that holds the job (R420): what differs is marked, the index becomes this device's, and the
block size the lesser. A differing owner key leaves no owner digest in the flit. -/
def State.passFlit (s : State) (j : RingJob) (f : ConfirmFlit) : State :=
  let mine := s.confirmFlit j
  let same := f.n == j.n && j.index == (f.index + 1) % j.n && f.cls == mine.cls && f.shard == j.shardDigest
  let g : ConfirmFlit :=
    { f with
      hops := f.hops + 1, index := j.index, maxBlock := min f.maxBlock j.maxBlock, agree := f.agree && same,
      owner := if f.owner == mine.owner then f.owner else [] }
  s.sendOn 0 (.confirm g)

/-- A job that is not confirmed ends, and its channel is free again. -/
def State.dropJob (s : State) (c job : Nat) : State :=
  let js := s.ring.jobs.filter (fun j => j.ctx == c && j.job == job)
  let clear := fun (k : Link) (chs : List Nat) => { k with chans := k.chans.filter (fun x => !chs.contains x.1) }
  s.setRing { s.ring with
    jobs := s.ring.jobs.filter (fun j => !(j.ctx == c && j.job == job)),
    east := clear s.ring.east (js.map RingJob.chanEast), west := clear s.ring.west (js.map RingJob.chanWest) }

/-- The request that set a job up is answered. -/
def State.answerJob (s : State) (j : RingJob) (status : Nat) : State :=
  s.answerAll (fun r => r.opcode == 0x0061 && r.ctx == some j.ctx && pf r.payload 63 32 == j.job) status

/-- The LINK_CHANNEL fields of a context that holds a partition take the channels of its job, and its barrier extends
across the ring (R311, R416, R421); none where a channel does not fit its field. -/
def State.relocateRing (s : State) (c : Nat) : Option State :=
  match s.ctx? c with
  | some x =>
    (match x.part, x.variant, x.cert, x.image with
     | some p, some v, some e, some im =>
       let src := fun (_ : State) q off => leNat (loadedBytes im.bytes (fun d => some (x.weight d)) v q off 8)
       (s.relocateAll c x p e v src (fun r => r.kind == 5)).map (fun (s : State) => s.ringBarrier c)
     | _, _, _, _ => some s)
  | none => some s

/-- A job is confirmed (R311, R421): LINK_CHANNEL fields take its channel, and its barrier spans the ring. One whose channel
does not fit such a field is refused with FORMAT (R311). -/
def State.confirmJob (s : State) (j : RingJob) (maxBlock : Nat) : State :=
  let s := s.modJob j.ctx j.job (fun j => { j with confirmed := true, maxBlock := min j.maxBlock maxBlock })
  match s.relocateRing j.ctx with
  | some t => t.answerJob j stOK
  | none => (s.answerJob j stFormat).dropJob j.ctx j.job

/-- A flit returns to its sender, which decides (R420). -/
def State.judgeFlit (s : State) (f : ConfirmFlit) : State :=
  match s.ring.jobs.find? (fun j => j.job == f.job && !j.confirmed && !j.dead) with
  | none => s
  | some j =>
    let good := f.agree && f.n == j.n && j.index == (f.index + 1) % j.n && f.hops + 1 == j.n
    if f.owner != s.ownerBytes then (s.answerJob j stAuth).dropJob j.ctx j.job
    else if !good then (s.answerJob j stFormat).dropJob j.ctx j.job
    else s.confirmJob j f.maxBlock

/-- JOB_CONFIRM_FLIT (R420): a flit for a job that this device does not hold yet waits for it. -/
def execJobConfirmFlit (link : Nat) (f : ConfirmFlit) (s : State) : Result :=
  .next (s.viaLink link (.jobConfirmFlit link f) (fun s =>
    if link ≠ 1 || !s.works then s
    else
      let s := s.leaveIdle
      if f.origin = s.fuse.uid then s.judgeFlit f
      else
        match s.ring.jobs.find? (fun j => j.job == f.job && !j.dead) with
        | some j => s.passFlit j f
        | none => s.setRing { s.ring with waiting := s.ring.waiting ++ [f] }))

/-- The shard table as RING_JOB_SETUP gives it (R383): by sequence, N entries. -/
def shardTable (b : Bytes) (n : Nat) : List (List (Nat × Nat)) :=
  (List.range (b.length / (8 * n))).map (fun q => (List.range n).map (fun i =>
    (leAt b (8 * (q * n + i)) 4, leAt b (8 * (q * n + i) + 4) 4)))

/-- A shard table of R200: whole rows, shards of at most 512 pages, and at most 4,096 pages to a sequence. -/
def shardsOk (len n : Nat) (t : List (List (Nat × Nat))) : Bool :=
  len % (8 * n) == 0 && 0 < len && t.all (fun l => l.all (fun x => x.2 ≤ 512 && x.1 + x.2 ≤ 4096))

/-- RING_JOB_SETUP (R200, R383, R416, R420): deferred until the ring has confirmed the job. The job takes the lowest
channel that is free on both links, and the lowest RING entry of the variant that no job of the context has. -/
def State.setupJob (s : State) (r : Request) : State :=
  let c := pf r.payload 7 0
  let n := pf r.payload 67 64
  let a := pf r.payload 191 128
  let len := pf r.payload 223 192
  let job := pf r.payload 63 32
  let tab := s.hostBytes a len
  let shards := shardTable tab n
  match s.ctx? c with
  | none => s.answer r stFormat []
  | some x =>
    match x.ringVariant with
    | none => s.answer r stFormat []
    | some v =>
      let used := (s.ring.jobs.filter (fun j => j.ctx == c)).map RingJob.entry
      match (List.range v.rings.length).find? (fun i => !used.contains i) with
      | none => s.answer r stFormat []
      | some i =>
        if !x.inWindow a len || !shardsOk len n shards || s.ring.jobs.any (fun j => j.job == job) then s.answer r stFormat []
        else if !s.deferOk r then s.defer r
        else if s.ring.size ≠ n || !s.ring.east.up || !s.ring.west.up then s.answer r stNoResource []
        else
          match (List.range 14).find? (fun k => !tabHas s.ring.east.chans (k + 2) && !tabHas s.ring.west.chans (k + 2)) with
          | none => s.answer r stNoResource []
          | some k =>
            let chn := k + 2
            let j : RingJob :=
              { ctx := c, job := job, n := n, index := pf r.payload 71 68, chanEast := chn, chanWest := chn,
                shardDigest := digest32 tab, maxBlock := (v.rings[i]?.map RingEntry.bufferBytes).getD 0, confirmed := false,
                since := s.clk.time, shards := shards, entry := i, localDone := false, token := false, dead := false }
            let g := s.ring
            let held := g.waiting.filter (fun f => f.job == job)
            let s := s.setRing { g with
              jobs := g.jobs ++ [j], waiting := g.waiting.filter (fun f => f.job != job),
              east := { g.east with chans := tabPut g.east.chans chn c },
              west := { g.west with
                chans := tabPut g.west.chans chn c, nextBuf := tabDel g.west.nextBuf chn,
                full := g.west.full.filter (fun b => b.1 != chn) } }
            let s := s.setLink 0 { s.ring.east with
              nextBuf := tabDel s.ring.east.nextBuf chn, full := s.ring.east.full.filter (fun b => b.1 != chn) }
            let s := s.sendOn 0 (.confirm (s.confirmFlit j))
            held.foldl (fun (s : State) f => s.passFlit j f) s

/-- RING_JOB_SETUP. -/
def execRingJobSetup (ch : Nat) (s : State) : Result :=
  .next (s.onMsg ch 0x0061 anySel ctxByte ownCtx
    (fun p => pBits [(7, 0), (71, 32), (223, 128)] p && 2 ≤ pf p 67 64 && pf p 67 64 ≤ 8 && pf p 71 68 < pf p 67 64)
    (fun s r => s.onHost r State.setupJob))

/-- RING_JOB_CONFIRM_TIMEOUT (R420): 100 ms have passed, and some device has no matching job. Where the west neighbour's flit
for another job_id waits here in this job's place, the job_id differs: FORMAT (log 94). -/
def execRingJobConfirmTimeout (ctx : Nat) (s : State) : Result :=
  .next (if !s.works then s
    else (s.ring.jobs.filter (fun j => j.ctx == ctx && !j.confirmed && !j.dead)).foldl (fun (s : State) j =>
      let other := s.ring.waiting.any (fun f => f.job != j.job && f.n == j.n && j.index == (f.index + 1) % j.n)
      (s.answerJob j (if other then stFormat else stNoResource)).dropJob j.ctx j.job) s)

/-! ### Blocks and credits (R201 to R204, R418) -/

/-- A block lands in the receive buffer of a context whose state is saved: it is part of what is restored (R203). An
overflow of its tally is the error of R35. -/
def State.landSaved (s : State) (j : RingJob) (x : Ctx) (sv : Saved) (b : Nat) (data : Bytes) : State :=
  match x.ringEntry j with
  | none => s
  | some r =>
    let canvas := memPut sv.canvas (r.atelier * 2 ^ 22 + r.bufferOffset + b * r.bufferBytes) data
    let t := r.tallyPos * 256 + r.tallyLocal
    let full := 65535 ≤ tabGet 0 sv.tallies t
    let sv := { sv with canvas := canvas, tallies := tabMod 0 sv.tallies t (fun n => min 65535 (n + 1)) }
    let s := s.modCtx j.ctx (fun x => { x with saved := some sv })
    if full then s.contained j.ctx 0x05 else s

/-- Where a block lands: in the saved state, in the canvas, or, before the context has had a canvas, beside the job (R203,
R418; log 154). -/
def State.land (s : State) (j : RingJob) (x : Ctx) (key : Nat) (data : Bytes) : State :=
  match x.saved, x.part with
  | some sv, _ => s.landSaved j x sv (key % 2) data
  | none, some _ => s.landCanvas j x (key % 2) data
  | none, none => s.modJob j.ctx j.job (fun j => { j with landing := tabPut j.landing key data })

/-- What a block waits for that comes over a link (R202): one from the east has no place in the order of blocks, which travel
east (R201; log 154). -/
def State.comesOver (s : State) (x : Ctx) (j : RingJob) (link : Nat) : HeldBlock :=
  if link = 1 then s.blockUse x j j.place else { no := 0, reads := 0, sends := 1, any := true }

/-- RING_BLOCK_ARRIVAL (R201 to R204, R418): the block lands in the buffer that the sender's credit reserved, and the ring
tally is posted. One for a job that is torn down is discarded and its credit returned; one that nothing reads and that goes
no further gives its credit back at once (R202). -/
def execRingBlockArrival (link chan : Nat) (data : Bytes) (s : State) : Result :=
  .next (s.viaLink link (.ringBlockArrival link chan data) (fun s =>
    if !s.works then s
    else
      let s := s.leaveIdle
      match s.jobOn link chan with
      | none => s.sendOn link (.credit link chan)
      | some j =>
        match (if j.dead || !j.confirmed then none else s.ctx? j.ctx) with
        | none => s.sendOn link (.credit link chan)
        | some x =>
          let k := s.link link
          let b := tabGet 0 k.nextBuf chan
          if j.maxBlock < data.length || k.full.contains (chan, b) then s
          else
            let u := s.comesOver x j link
            let s := s.setLink link { k with nextBuf := tabSet 0 k.nextBuf chan ((b + 1) % 2), full := (chan, b) :: k.full }
            let s := s.modJob j.ctx j.job (fun j => { j with
              bufs := tabPut j.bufs (2 * link + b) u, place := if link = 1 then j.place + 1 else j.place })
            let s := ((s.land j x (2 * link + b) data).count j.ctx 0x27 1).nextMasks j.ctx none
            (match s.jobOn link chan with
             | some j => s.usedBuf j link b (fun u => u)
             | none => s)))

/-- CREDIT_RETURN (R418): the sender may start its next block. -/
def execCreditReturn (link chan : Nat) (s : State) : Result :=
  .next (s.viaLink link (.creditReturn link chan) (fun s =>
    let k := s.link link
    (s.setLink link { k with used := tabMod 0 k.used chan (· - 1) }).leaveIdle))

/-! ### Ring barriers (R421) -/

/-- The barrier of a context completes round the rings that it spans: in its partition, or in its saved state (R60, R421). -/
def State.finishRing (s : State) (c : Nat) : State :=
  match s.ctx? c with
  | none => s
  | some x =>
    match x.saved with
    | some sv =>
      let go := fun (b : Nat × Tab Nat) => (b.1 + 1, (b.2.map (fun a => (a.1, a.2 - 1))).filter (fun a => a.2 != 0))
      let bars := if sv.inAtelier then sv.bars.map go else sv.bars
      let dev := if sv.inAtelier then sv.devBar else sv.devBar.map go
      s.modCtx c (fun x => { x with saved := some { sv with bars := bars, devBar := dev } })
    | none => x.barKeys.foldl (fun (s : State) k => s.finishBarrier k.1 k.2) s

/-- The ring jobs of a context whose RING entries declare a ring barrier. -/
def State.barJobs (s : State) (c : Nat) : List RingJob :=
  match s.ctx? c with
  | some x => (s.ringJobs c).filter (fun j => match x.ringEntry j with | some r => r.barrier | none => false)
  | none => []

/-- The completion token of a job has come (R421): the barrier completes once it has come for every ring that it spans. -/
def State.ringPassed (s : State) (j : RingJob) : State :=
  let s := s.modJob j.ctx j.job (fun j => { j with localDone := false, token := false, passed := true })
  if (s.barJobs j.ctx).all RingJob.passed then
    (s.mapJobs (fun k => if k.ctx = j.ctx then { k with passed := false } else k)).finishRing j.ctx
  else s

/-- RING_BARRIER_TOKEN (R421, R431): the token goes on once the local members have arrived; back at device 0 it starts
the completion token, which completes the barrier on each device. -/
def execRingBarrierToken (link : Nat) (f : TokenFlit) (s : State) : Result :=
  .next (s.viaLink link (.ringBarrierToken link f) (fun s =>
    if link ≠ 1 || !s.works then s
    else
      let s := s.leaveIdle
      match s.ring.jobs.find? (fun j => j.job == f.job && j.confirmed && !j.dead) with
      | none => s
      | some j =>
        if f.complete then
          if j.index = 0 then s else (s.ringPassed j).sendOn 0 (.token f)
        else if j.index = 0 then
          if j.localDone then (s.ringPassed j).sendOn 0 (.token { f with complete := true }) else s
        else if j.localDone then s.sendOn 0 (.token f)
        else s.modJob j.ctx j.job (fun j => { j with token := true })))

/-- RING_ABORT_NOTICE (R204, R422): the job's context is torn down, and the notice goes on in its direction. -/
def execRingAbortNotice (link job : Nat) (s : State) : Result :=
  .next (s.viaLink link (.ringAbortNotice link job) (fun s =>
    if !s.works then s
    else
      let s := s.leaveIdle
      match s.ring.jobs.find? (fun j => j.job == job) with
      | none => s
      | some j =>
        let s := s.count j.ctx 0x29 1
        if j.dead then s
        else
          let s := s.sendOn (1 - link) (.abort (1 - link) job)
          ((s.modJob j.ctx job (fun j => { j with dead := true })).freeJob j).contained j.ctx 0x0B))

end Sys2Proof.Machine
end

