-- ==== Sys2Proof/Machine/HostWait.lean ====
section
/-! DEFINITION. Machine/HostWait.lean: Bus Master Enable and the functions' power states, and the requests that wait until
the device may read host memory (R365, R366, R371, R478). -/

namespace Sys2Proof.Machine

/-- Run a request that has waited for host memory. -/
def State.runWaiting (s : State) (r : Request) : State :=
  if r.opcode = 0x0051 then s.configPort r
  else if r.opcode = 0x0055 then s.loadTable r
  else if r.opcode = 0x0061 then s.setupJob r
  else s.holdEnvelope r

/-- The requests that wait for host memory run in the order in which they were taken, once the device may issue requests
(R365). -/
def State.serveHost (s : State) : State :=
  if !s.works || !s.busMaster 0 then s
  else
    let s1 := s.setMbox { s.mbox with taken := s.mbox.taken.map (fun q => { q with hostWait := false }) }
    (s.mbox.taken.filter (fun r => r.hostWait)).foldl (fun (s : State) r =>
      if s.deferOk r then s.runWaiting { r with hostWait := false } else s) s1

/-- BUS_MASTER_ENABLE_WRITE (R365): set, the vectors that became due are sent, and what waits for host memory goes on. -/
def execBusMasterEnableWrite (fn : Nat) (v : Bool) (s : State) : Result :=
  .next (
    if !s.linked || 2 ≤ fn then s
    else
      let s := if fn = 0 then s.setPci { s.pci with bme0 := v } else s.setPci { s.pci with bme1 := v }
      (s.flushVecs fn).serveHost)

/-- PCI_POWER_STATE_WRITE (R366, R478): a return of PF0 to D0 wakes the device from SLEEP. -/
def execPciPowerStateWrite (fn : Nat) (power : PciPower) (pmeEn : Bool) (s : State) : Result :=
  let d3 := match power with | .d0 => false | .d3hot _ => true
  .next (
    if !s.linked || 2 ≤ fn then s
    else if fn = 0 then
      let back := s.pci.d3pf0 && !d3
      let s := s.setPci { s.pci with d3pf0 := d3, pmeEn0 := pmeEn, l2 := match power with | .d0 => false | .d3hot l2 => l2 }
      let s := if d3 then s else (s.setPwr { s.pwr with wakeN := false }).flushVecs 0
      if d3 then (if s.hostWaits then s.pme else s)
      else if back && s.aonServes then s.wake 6
      else s.serveHost
    else (s.setPci { s.pci with d3pf1 := d3, pmeEn1 := pmeEn }).flushVecs 1)

end Sys2Proof.Machine
end

