-- ==== Sys2Proof/Machine/Pair.lean ====
section
/-! DEFINITION. Machine/Pair.lean: mirrored pairs: pairing and its identity challenge, initial mirroring, mirror messages,
heartbeats (R423 to R426, R431). -/

namespace Sys2Proof.Machine

/-! ### Initial mirroring (R423, R425) -/

/-- Bytes that LPDDR5 holds, as firmware's agent reads them. -/
def State.readMirrored (s : State) (c a n : Nat) : State × Bytes :=
  match s.lpRead 8 0 (some c) a n with
  | (s, some b) => (s, b)
  | (s, none) => (s, zeros n)

/-- Mirror the regions of a context. -/
def State.mirrorRegions (s : State) (c : Nat) (x : Ctx) : State :=
  x.regions.foldl (fun (s : State) g =>
    let (s, b) := s.readMirrored c g.2.1 g.2.2
    s.mirror (.region c g.1 g.2.2 0 b) .none) s

/-- Mirror a queue: its binding, where it stands, and its accepted descriptors without a written record. -/
def State.mirrorQueue (s : State) (q : Nat) (h : HwQueue) : State :=
  let s := s.mirror (.queue q h.ctx (toLe 64 h.binding)) .none
  let s := s.mirror (.queueAt q h.head h.tail h.passes h.bodyAt h.bodyUse) .none
  h.outst.foldl (fun (s : State) d =>
    let views := match s.intake.items.find? (fun i => i.2.kind == .sample q d.no) with
      | some i => i.2.views.flatMap (fun v => toLe 32 v.entry)
      | none => []
    let s := s.mirror (.submission h.ctx q d.no h.head d.time (toLe 64 d.word) views) .none
    match (s.intake.items.find? (fun i => i.2.kind == .sample q d.no)).bind (fun i => i.2.ref) with
    | some t => s.mirror (.reference h.ctx q d.no t) .none
    | none => s) s

/-- Mirror the stored lines and the geometry block of a page. -/
def State.mirrorPage (s : State) (p : Nat) (g : Page) : State :=
  let q := s.port p
  match q.cfg with
  | none => s
  | some c =>
    let rows := (List.range g.stored).filter (fun r => !q.store.any (fun l => l.page == g.seq && l.row == r))
    let s := rows.foldl (fun (s : State) r =>
      let (s, b) := (chunkPieces g.chunks (r * c.pitch) (zeros c.pitch)).foldl (fun (z : State × Bytes) x =>
        let (s, b) := z.1.readMirrored g.ctx x.1 x.2.length
        (s, z.2 ++ b)) (s, [])
      s.mirror (lineMsg c p q g r b) .none) s
    match g.geometry with
    | some geo => s.mirror (.geometry g.ctx g.cq p g.seq geo g.fin) .none
    | none => s

/-- The active device sends all that R425 lists, and last the end of initial mirroring, for whose acknowledgement the
reply waits (R423). -/
def State.mirrorAll (s : State) (w : MirrorWait) : State :=
  let s := s.ctxs.foldl (fun (s : State) c =>
    let s := (s.mirror (contextMsg s c.1 c.2) .none).mirrorRegions c.1 c.2
    if c.2.tearMode = 3 then s.mirror (.gone c.1) .none else s) s
  let s := s.hq.foldl (fun (s : State) q => s.mirrorQueue q.1 q.2) s
  let s := s.intake.streams.foldl (fun (s : State) x => s.mirror (.stream x.1 x.2.ctx x.2.cq (toLe 64 x.2.record)) .none) s
  let s := s.text.streams.foldl (fun (s : State) x => s.mirror (.textStream x.1 (some x.2.ctx)) .none) s
  let s := s.ports.foldl (fun (s : State) p =>
    (p.2.pages ++ p.2.page.toList).foldl (fun (s : State) g => s.mirrorPage p.1 g) s) s
  s.mirror .initialDone w

/-! ### Pairing (R423, R424) -/

/-- The devices trust each other's owner, and the peer is the one that is enrolled, if one is (R423, R424). -/
def State.peerAllowed (s : State) (link : Nat) : Bool :=
  let k := s.link link
  k.peerOwner == s.ownerBytes && (match s.pair.enrolled with | some d => d == k.peerIdentity | none => true)

/-- The pairing that a device refuses, or its pair, is over; the peer learns of it. -/
def State.pairOver (s : State) (link status : Nat) : State :=
  let s := s.sendOn link (.challenge (.ends status))
  (s.pairAnswer status []).setPair { enrolled := s.pair.enrolled }

/-- The pair forms once each device has verified the other (R423 to R425): the active device mirrors its state. -/
def State.formPair (s : State) : State :=
  match s.pair.wanted, s.pair.peer with
  | some (ch, seq, role, link, _), some _ =>
    if !s.pair.verified || s.pair.formed then s
    else
      let k := s.link link
      let s := s.setBoot { s.boot with paired := true }
      let s := s.setPair { s.pair with
        formed := true, role := role, link := link, lost := false, lastBeat := s.clk.time, held := [], pieces := [], sent := [],
        unsent := [], enrolled := some (s.pair.enrolled.getD k.peerIdentity) }
      if role = 1 then s.mirrorAll (.reply ch seq 0x0080 stOK (toLe 8 k.peerUid ++ padTo 64 k.peerIdentity)) else s
  | _, _ => s

/-- A device asks for the pair, role 1 active or 2 standby (R423). -/
def State.askPair (s : State) (r : Request) (role : Nat) : State :=
  let link := pf r.payload 0 0
  let k := s.link link
  if !k.up then s.answer r stNoResource []
  else if k.version = 0 then s.answer r stVersion []
  else if !s.peerAllowed link then s.answer r stAuth []
  else if s.pair.formed || s.pair.wanted.isSome || (role = 1 && 64 < s.ctxs.length) then s.answer r stNoResource []
  else
    let (n, s) := s.freeNat
    let nonce := toLe 32 n
    let s := s.setPair { s.pair with
      wanted := some (r.ch, r.seq, role, link, s.clk.time), nonce := some nonce, verified := false }
    let s := s.sendOn link (.challenge (.nonce nonce (role == 1)))
    match s.pair.peer with
    | some (l, p, active) =>
      if l ≠ link then s
      else if active == (role == 1) then s.pairOver link stNoResource
      else s.signNonce link p
    | none => s

/-- MIRROR_PAIR with role ACTIVE (R423). -/
def execMirrorPairActive (ch : Nat) (s : State) : Result :=
  .next (s.onMsg ch 0x0080 (fun p => !bit (leNat p) 1) (fun _ _ => none) (fun _ _ _ => true) (pBits [(1, 0)])
    (fun s r => s.askPair r 1))

/-- MIRROR_PAIR with role STANDBY (R423). -/
def execMirrorPairStandby (ch : Nat) (s : State) : Result :=
  .next (s.onMsg ch 0x0080 (fun p => bit (leNat p) 1) (fun _ _ => none) (fun _ _ _ => true) (pBits [(1, 0)])
    (fun s r => s.askPair r 2))

/-- The role of a request that waits on a link. -/
def State.wantedOn (s : State) (link : Nat) : Option Nat :=
  match s.pair.wanted with
  | some (_, _, role, l, _) => if l = link then some role else none
  | none => none

/-- The peer's nonce (R424). -/
def State.takeNonce (s : State) (link : Nat) (n : Bytes) (active : Bool) : State :=
  match s.wantedOn link with
  | some role =>
    if s.pair.formed then s
    else if active == (role == 1) then s.pairOver link stNoResource
    else ((s.setPair { s.pair with peer := some (link, n, active) }).signNonce link n).formPair
  | none =>
    if s.pair.formed || s.pair.wanted.isSome then s.sendOn link (.challenge (.ends stNoResource))
    else if (s.link link).version ≠ 0 && !s.peerAllowed link then s.sendOn link (.challenge (.ends stAuth))
    else s.setPair { s.pair with peer := some (link, n, active) }

/-- The peer's signature (R424, R454). -/
def State.takeSignature (s : State) (link : Nat) (key sig : Bytes) : State :=
  let k := s.link link
  match s.wantedOn link, s.pair.nonce with
  | some _, some n =>
    if s.pair.formed then s
    else if digest64 key == k.peerIdentity &&
        falconVerify key (signedDigest labelPair (pairCovered n k.peerUid s.fuse.uid)) sig then
      (s.setPair { s.pair with verified := true }).formPair
    else s.pairOver link stAuth
  | _, _ => s

/-- The peer's pairing is over: it has refused, or dissolved the pair (R423). -/
def State.takeOver (s : State) (link status : Nat) : State :=
  let s := match s.wantedOn link with
    | some _ => s.pairAnswer (if status = stOK then stNoResource else status) []
    | none => s
  if s.pair.formed && s.pair.link == link then s.flushWaits
  else match s.pair.peer with
    | some (l, _, _) => if l = link then s.setPair { s.pair with peer := none } else s
    | none => s

/-- IDENTITY_CHALLENGE (R424). -/
def execIdentityChallenge (link : Nat) (m : ChallengeMsg) (s : State) : Result :=
  .next (s.viaLink link (.identityChallenge link m) (fun s =>
    if !s.works then s
    else match m with
      | .nonce n active => s.leaveIdle.takeNonce link n active
      | .signature key sig => s.leaveIdle.takeSignature link key sig
      | .ends status => s.leaveIdle.takeOver link status))

/-- MIRROR_PAIR_TIMEOUT (R423): no matching request within 100 ms. -/
def execMirrorPairTimeout (s : State) : Result :=
  .next (if !s.works || s.pair.formed then s else s.pairAnswer stNoResource [])

/-- MIRROR_UNPAIR (R423, R424, R431): the pair is dissolved at once, and the enrolment ends with it. -/
def execMirrorUnpair (ch : Nat) (s : State) : Result :=
  .next (s.onMsg ch 0x0081 anySel (fun _ _ => none) (fun _ _ _ => true) (pBits [(0, 0)]) (fun s r =>
    let link := pf r.payload 0 0
    let other : Bool := match s.pair.wanted with | some (_, _, _, l, _) => l != link | none => s.pair.formed && s.pair.link != link
    if other then s.answer r stNoResource []
    else
      let s := if s.pair.formed || s.pair.wanted.isSome then s.sendOn link (.challenge (.ends stOK)) else s
      let s := (s.pairAnswer stNoResource []).flushWaits
      (s.setPair {}).answer r stOK []))

/-! ### Mirror messages (R425) -/

/-- The context of a mirror message. -/
def mirrorCtxOf : MirrorMsg → Option Nat
  | .context h .. => some h
  | .gone h => some h
  | .region h .. => some h
  | .queue _ c _ => some c
  | .stream _ c _ _ => some c
  | .queueAt .. => none
  | .textStream _ c => c
  | .submission c .. => some c
  | .pageLine c .. => some c
  | .geometry c .. => some c
  | .record c .. => some c
  | .cqHead .. => none
  | .reference c .. => some c
  | .data .. => none
  | .initialDone => none

/-- The queue of a mirror message. -/
def mirrorQueueOf : MirrorMsg → Option Nat
  | .queue q _ _ => some q
  | .queueAt q .. => some q
  | .submission _ q .. => some q
  | .record _ q .. => some q
  | .cqHead q _ => some q
  | .reference _ q _ _ => some q
  | _ => none

/-- A message binds a CQ of context `c`. -/
def bindsCq (c : Nat) : MirrorMsg → Bool
  | .queue _ d r => d == c && bit (leNat r) 0
  | _ => false

/-- A record answers a submission. -/
def answersSub (w : Nat) : MirrorMsg → Bool
  | .submission _ q _ _ _ d _ => bit w 30 && fld w 29 16 == q && fld (leNat d) 63 32 == fld w 127 64
  | _ => false

/-- A record answers a page. -/
def answersPage (w : Nat) : MirrorMsg → Bool
  | .pageLine _ _ p g .. => !bit w 30 && fld w 127 64 == 2 ^ 62 + p * 2 ^ 48 + g % 2 ^ 48
  | .geometry _ _ p g .. => !bit w 30 && fld w 127 64 == 2 ^ 62 + p * 2 ^ 48 + g % 2 ^ 48
  | _ => false

/-- A context that is gone keeps its CQs and their records while they are bound (R383, R425). -/
def goneMsgs (c : Nat) (l : List MirrorMsg) : List MirrorMsg :=
  let cqs := (l.filter (bindsCq c)).filterMap mirrorQueueOf
  let rest := l.filter (fun m => mirrorCtxOf m != some c || (match m with
    | .context .. => true
    | .gone _ => true
    | .record .. => true
    | _ => match mirrorQueueOf m with | some q => cqs.contains q | none => false))
  if cqs.isEmpty then rest.filter (fun m => mirrorCtxOf m != some c) else rest

/-- What a standby holds once a message has come (R425): the newest state of each context, what is bound, what is
accepted and has no record, and the records with the CQ heads. -/
def holdMsg (l : List MirrorMsg) (m : MirrorMsg) : List MirrorMsg :=
  match m with
  | .context h .. => l.filter (fun x => match x with | .context g .. => g != h | _ => true) ++ [m]
  | .gone c => goneMsgs c (l ++ [m])
  | .queue q c [] =>
    let r := l.filter (fun x => mirrorQueueOf x != some q)
    if r.any (fun x => x == .gone c) then goneMsgs c r else r
  | .queue q _ _ => l.filter (fun x => mirrorQueueOf x != some q) ++ [m]
  | .stream n _ _ [] => l.filter (fun x => match x with | .stream k .. => k != n | _ => true)
  | .textStream n none => l.filter (fun x => match x with | .textStream k _ => k != n | _ => true)
  | .record _ _ _ _ w _ =>
    let w := leNat w
    ((l.eraseP (answersSub w)).filter (fun x => !answersPage w x)) ++ [m]
  | .initialDone => l
  | _ => l ++ [m]

/-- LPDDR5 bytes that no owner holds. -/
def State.lpFreeBytes (s : State) : Nat :=
  payloadBytes s.boot.memcfg - 65536 * (s.lp.owner.length + s.lp.excluded.length + s.lp.pendingExcl.length)

/-- The end of initial mirroring on the standby (R423): it answers, or it cannot hold the state. -/
def State.standbyDone (s : State) : State :=
  match s.pair.wanted with
  | none => s.sendOn s.pair.link (.mirrorAck 1)
  | some (_, _, _, link, _) =>
    if s.lpFreeBytes < sumOf (s.pair.held.map mirrorBytes) then s.pairOver link stNoResource
    else
      let k := s.link link
      (s.sendOn link (.mirrorAck 1)).pairAnswer stOK (toLe 8 k.peerUid ++ padTo 64 k.peerIdentity)

/-- Pieces of a message that has still to come, with one more. -/
def morePieces (l : List Bytes) (fresh : Bool) (b : Bytes) : List Bytes :=
  if fresh then l ++ [b] else l.dropLast ++ [(l.getLast?.getD []) ++ b]

/-- A mirror message as the standby keeps it (R425): bytes that go ahead of a message wait for it. -/
def State.keepMirror (s : State) (m : MirrorMsg) : State :=
  match m with
  | .data fresh b => s.setPair { s.pair with pieces := morePieces s.pair.pieces fresh b }
  | _ => s.setPair { s.pair with held := holdMsg s.pair.held (mirrorFill s.pair.pieces m), pieces := [] }

/-- MIRROR_MESSAGE (R425). -/
def execMirrorMessage (m : MirrorMsg) (s : State) : Result :=
  .next (s.viaLink s.pair.link (.mirrorMessage m) (fun s =>
    if !s.works || !s.pair.formed || s.pair.role ≠ 2 || s.pair.lost then s
    else
      let s := s.leaveIdle.keepMirror m
      match m with
      | .initialDone => s.standbyDone
      | _ => s.sendOn s.pair.link (.mirrorAck 1)))

/-- MIRROR_ACK (R425): the oldest `n` messages are acknowledged, and what waited for them goes on. -/
def execMirrorAck (n : Nat) (s : State) : Result :=
  .next (s.viaLink s.pair.link (.mirrorAck n) (fun s =>
    if !s.works || !s.mirroring then s
    else
      let s := s.leaveIdle
      let ws := s.pair.sent.take n
      let s := s.setPair { s.pair with sent := s.pair.sent.drop n }
      (ws.foldl (fun (s : State) w => s.afterMirror w) s).mirrorMore))

/-! ### Heartbeats (R426) -/

/-- HEARTBEAT_SEND (R426): a frozen device marks its heartbeats FROZEN. -/
def execHeartbeatSend (s : State) : Result :=
  .next (if s.alive && !s.aonServes && s.pair.formed && !s.pair.lost then
    s.sendOn s.pair.link (.heartbeat s.err.frozen) else s)

/-- HEARTBEAT (R426). -/
def execHeartbeat (frozen : Bool) (s : State) : Result :=
  .next (s.viaLink s.pair.link (.heartbeat frozen) (fun s =>
    if !s.pair.formed || s.pair.lost then s
    else if frozen then s.heartbeatLost
    else s.setPair { s.pair with lastBeat := s.clk.time }))

/-- HEARTBEAT_LOSS (R426): 1.5 ms have passed without a heartbeat. -/
def execHeartbeatLoss (s : State) : Result :=
  .next (if !s.alive || s.aonServes || !s.pair.formed || s.pair.lost then s else s.heartbeatLost)

/-! ### The end of a retraining (R419, R431) -/

/-- A flit or block that was held while its link retrained is delivered. -/
def State.deliver (s : State) (i : Instr) : State :=
  let r : Result := match i with
    | .ringDiscoveryFlit l f => execRingDiscoveryFlit l f s
    | .jobConfirmFlit l f => execJobConfirmFlit l f s
    | .ringBlockArrival l ch b => execRingBlockArrival l ch b s
    | .creditReturn l ch => execCreditReturn l ch s
    | .ringBarrierToken l f => execRingBarrierToken l f s
    | .ringAbortNotice l j => execRingAbortNotice l j s
    | .identityChallenge l m => execIdentityChallenge l m s
    | .mirrorMessage m => execMirrorMessage m s
    | .mirrorAck n => execMirrorAck n s
    | .heartbeat f => execHeartbeat f s
    | _ => .next s
  match r with
  | .next t => t
  | _ => s

/-- A link has retrained: what was held goes on in order, what comes and what leaves. -/
def State.resumeLink (s : State) (link : Nat) : State :=
  let k := s.link link
  let s := s.setLink link { k with retraining := false, came := [], leaves := [] }
  k.came.foldl (fun (s : State) i => s.deliver i) (k.leaves.foldl (fun (s : State) o => s.emit o) s)

/-- LINK_RETRAIN_COMPLETE (R419): the link goes on, or it is down. -/
def execLinkRetrainComplete (link : Nat) (ok : Bool) (s : State) : Result :=
  .next (if !s.alive || s.aonServes || 2 ≤ link || !(s.link link).retraining then s
    else if ok then (s.resumeLink link).leaveIdle
    else ((s.countRetrain link).linkDown link).leaveIdle)

end Sys2Proof.Machine
end

