-- ==== Sys2Proof/Machine/Takeover.lean ====
section
/-! DEFINITION. Machine/Takeover.lean: the standby takes over from its failed partner (R427 to R429). -/

namespace Sys2Proof.Machine

/-! ### What is held of a queue -/

/-- The handle on this device of a mirrored context; 256, no context, where it has none. -/
def newHandle (hs : List (Nat × Option Nat)) (c : Nat) : Nat :=
  match hs.find? (fun x => x.1 == c) with | some (_, some n) => n | _ => 256

/-- A held message brings a CQ further: where it stands, and the records that are written again (R425, R428). -/
def cqStep (hs : List (Nat × Option Nat)) (q : Nat) (h : HwQueue) (m : MirrorMsg) : HwQueue :=
  match m with
  | .queueAt k head tail passes bodyAt use =>
    if k = q then { h with head := head, db := head, tail := tail, passes := passes, bodyAt := bodyAt, bodyUse := use } else h
  | .record c k slot off w b =>
    if k = q then
      let wrap := slot + 1 = h.entries
      let skip := if b.isEmpty || h.bodyAt ≤ off then 0 else h.bodySize - h.bodyAt
      let r : Rec :=
        { kind := fld (leNat w) 3 1, status := fld (leNat w) 15 8, itemId := fld (leNat w) 127 64, ctx := newHandle hs c,
          body := b, replayed := true, slot := some (slot, off, w), mirrored := true }
      { h with
        tail := if wrap then 0 else slot + 1, passes := if wrap then h.passes + 1 else h.passes,
        bodyAt := if b.isEmpty then h.bodyAt else off + b.length, bodyUse := h.bodyUse ++ [skip + b.length],
        ready := h.ready ++ [r] }
    else h
  | .cqHead k i =>
    if k = q then
      let n := h.entries
      let freed := ringSub i h.head n
      let passed := fun (r : Rec) => match r.slot with | some (k, _, _) => decide (ringSub k h.head n < freed) | none => false
      { h with head := i, db := i, bodyUse := h.bodyUse.drop freed, ready := h.ready.filter (fun r => !passed r) }
    else h
  | _ => h

/-- A held message brings an SQ further: its head, and the descriptors that are run again (R425, R428). A record's head
that is one behind was written before the last acceptance (log 50). -/
def sqStep (q : Nat) (h : HwQueue) (m : MirrorMsg) : HwQueue :=
  match m with
  | .queueAt k head _ _ _ _ => if k = q then { h with head := head, tail := head, db := head } else h
  | .submission _ k no head t d _ =>
    if k = q then
      let x : Desc := { no := no, acc := 0, word := leNat d, time := t, replayed := true }
      { h with head := head, tail := head, db := head, nextNo := no + 1, outst := h.outst ++ [x] }
    else h
  | .reference _ k no t =>
    if k = q then { h with outst := h.outst.map (fun d => if d.no = no then { d with ref := some t } else d) } else h
  | .record _ _ _ _ w _ =>
    let i := fld (leNat w) 47 32
    if bit (leNat w) 30 && fld (leNat w) 29 16 == q && ringSub h.head i h.entries != 1 then
      { h with head := i, tail := i, db := i }
    else h
  | _ => h

/-- The mirrored view entries of a submission. -/
def heldViews (l : List MirrorMsg) (q no : Nat) : List Nat :=
  (l.findSome? (fun m => match m with
    | .submission _ k n _ _ _ v => if k = q && n = no then some ((List.range (v.length / 32)).map (fun i => leAt v (32 * i) 32)) else none
    | _ => none)).getD []

/-! ### Contexts (R427 steps 1 and 2) -/

/-- The newest state of mirrored context `c`. -/
def heldCtx (l : List MirrorMsg) (c : Nat) : Option MirrorMsg :=
  l.find? (fun m => match m with | .context h .. => h == c | _ => false)

/-- Create a mirrored context in the taking session; one that has ended on the partner keeps its handle for its CQs. -/
def State.createHeld (s : State) (ch : Nat) (l : List MirrorMsg) (m : MirrorMsg) : State × Nat × Option Nat :=
  match m with
  | .context h ps _ _ _ ws _ =>
    let isGone := l.contains (.gone h)
    (match tabFree s.ctxs 256 with
     | none => (s, h, none)
     | some c =>
       let wins := ws.foldl (fun t (w : Nat × Nat × Nat) => tabPut t w.1 { base := w.2.1, length := w.2.2, writable := true }) []
       let x : Ctx :=
         { params := leNat ps, session := ch, since := s.clk.time, windows := wins, tearMode := if isGone then 3 else 0,
           st := if isGone then .faulted else .waiting }
       (s.setCtxs (tabPut s.ctxs c x), h, some c))
  | _ => (s, 256, none)

/-- Keep a mirrored lexicon and bind it to its slot (R235). -/
def State.takeLexicon (s : State) (c slot : Nat) (b : Bytes) : State × Bool :=
  let d := digest32 b
  let kept := if (s.lexicon d).isSome then some s
    else (s.lpAlloc 257 b.length).map (fun r => r.2.setSten { r.2.sten with
      lexicons := r.2.sten.lexicons ++ [{ digest := d, image := b, addr := r.1, users := [] }] })
  match kept with
  | none => (s, false)
  | some t =>
    if !t.lexSuits c d || !t.lexFits c slot d then (s, false)
    else
      let n := t.sched.loadSeq
      let t := (t.setSched { t.sched with loadSeq := n + 1 }).modCtx c (fun x => { x with
        loaded := x.loaded ++ [{ kind := 1, digest := d, order := n, name := d, req := (64, 0) }] })
      ((t.setSten { t.sten with waiting := t.sten.waiting ++ [(c, slot, some d)] }).applyLexicons c, true)

/-- Verify a mirrored bundle again and bind it (R425, R427). -/
def State.takeBundle (s : State) (c : Nat) (b : Bytes) : State × Bool :=
  if s.envelopeStatus b false ≠ stOK then (s, false)
  else
    let (t, st) := s.bindBundle c (64, 0) b
    (t, st == stOK)

/-- One region write of a mirrored context. -/
def State.takeRegion (s : State) (c i size off : Nat) (b : Bytes) : State × Bool :=
  let got := match (s.ctx? c).bind (fun x => tabFind x.regions i) with
    | some g => some (g.1, s)
    | none => (s.lpAlloc (c + 1) size).map (fun (r : Nat × State) => (r.1, r.2.modCtx c (fun x => { x with regions := tabPut x.regions i (r.1, size) })))
  match got with
  | none => (s, false)
  | some (a, s) => s.lpWrite 8 0 (some c) (a + off) b

/-- Do `f` to every member, while all goes well. -/
def State.allWell {α : Type} (s : State) (l : List α) (f : State → α → State × Bool) : State × Bool :=
  l.foldl (fun (r : State × Bool) x => if r.2 then f r.1 x else r) (s, true)

/-- What a mirrored context is bound to: lexicons, bundles, profile, regions, stream and text stream handles. -/
def State.takeParts (s : State) (l : List MirrorMsg) (old c : Nat) : State × Bool :=
  match heldCtx l old with
  | some (.context _ _ bundles profile _ _ lexs) =>
    let (s, a) := s.allWell lexs (fun s x => s.takeLexicon c x.1 x.2)
    let (s, b) := s.allWell bundles (fun s x => s.takeBundle c x)
    let s := if profile.isEmpty then s else s.modCtx c (fun x => { x with profile := some profile })
    let lv := match s.prof c with | some p => p.splitMin | none => 0
    let (s, d) := s.allWell l (fun s m => match m with
      | .region h i size off data => if h = old then s.takeRegion c i size off data else (s, true)
      | .stream n h cq w =>
        if h ≠ old then (s, true)
        else if tabHas s.intake.streams n then (s, false)
        else (match s.lpAlloc (c + 1) (streamBytes (leNat w)) with
          | none => (s, false)
          | some (a, t) =>
            let st : Stream := { record := leNat w, ctx := c, cq := cq, lp := (a, streamBytes (leNat w)), broken := true }
            (t.setIntake { t.intake with
              streams := tabPut t.intake.streams n st, sources := tabPut t.intake.sources n { ctx := c, level := lv } }, true))
      | .textStream n h =>
        if h ≠ some old then (s, true)
        else if tabHas s.text.streams n then (s, false)
        else (s.putStream n { ctx := c }, true)
      | _ => (s, true))
    (s, a && b && d)
  | _ => (s, false)

/-- Bind the mirrored queues of a context under their numbers (R427): CQs wait for the host's head write. False where a
number is bound here already. -/
def State.takeQueues (s : State) (hs : List (Nat × Option Nat)) (l : List MirrorMsg) (old c : Nat) : State × Bool :=
  let lv := match s.prof c with | some p => p.splitMin | none => 0
  l.foldl (fun (r : State × Bool) m =>
    match m with
    | .queue q h w =>
      if h ≠ old then r
      else if tabHas r.1.hq q then (r.1, false)
      else
        let w := leNat w
        if bit w 0 then
          let x : HwQueue := { isCq := true, binding := w, ctx := c, waitHead := true }
          (r.1.setHq (tabPut r.1.hq q (l.foldl (cqStep hs q) x)), r.2)
        else
          let x : HwQueue := { isCq := false, binding := putField w c 39 32, ctx := c }
          let s := r.1.setHq (tabPut r.1.hq q (l.foldl (sqStep q) x))
          (s.setIntake { s.intake with sources := tabPut s.intake.sources (64 + q) { ctx := c, level := lv } }, r.2)
    | _ => r) (s, true)

/-- Push a record to a CQ of a context, if it is one. -/
def State.pushOwn (s : State) (c cq : Nat) (r : Rec) : State :=
  match tabFind s.hq cq with
  | some h => if h.isCq && h.ctx == c then s.pushRec cq r else s
  | none => s

/-- Records of CONTEXT_FAULT, at their CQs, for the accepted descriptors of the SQs of a mirrored context whose numbers are
bound here already (R427): such an SQ is not bound. `c` is its handle here, 256 where it has none. -/
def State.faultQueues (s : State) (taken : List Nat) (l : List MirrorMsg) (old c : Nat) : State :=
  l.foldl (fun (s : State) m => match m with
    | .queue q h w =>
      if h ≠ old || bit (leNat w) 0 || !taken.contains q then s
      else
        let x := l.foldl (sqStep q) { isCq := false, binding := leNat w, ctx := c }
        x.outst.foldl (fun (s : State) d =>
          let tag := fld d.word 63 32
          let sample := fld d.word 7 0 == 1
          s.pushOwn c (fld x.binding 29 16)
            { kind := if sample then 1 else 0, status := stContextFault, sq := some q, descNo := d.no, sqHead := some x.head,
              itemId := tag, ctx := c, replayed := true,
              body := if sample then resultBody tag d.time (d.ref.getD d.time) [] none [] else [] }) s
    | _ => s) s

/-! ### Work that is run again (R428) -/

/-- The descriptors of a context that have no record are run again, in order. -/
def State.rerunDescs (s : State) (l : List MirrorMsg) (c : Nat) : State :=
  (s.ctxSqs c).foldl (fun (s : State) q =>
    (q.2.outst.filter (fun d => d.replayed && !d.done)).foldl (fun (s : State) d =>
      let n := s.sched.accSeq
      let s := (s.setSched { s.sched with accSeq := n + 1 }).setHq (tabUpd s.hq q.1 (fun h => { h with
        outst := h.outst.map (fun x => if x.no = d.no then { x with acc := n } else x) }))
      s.startDesc q.1 q.2 d (heldViews l q.1 d.no)) s) s

/-- Pages that a context's messages tell of: port and page. -/
def heldPages (l : List MirrorMsg) (old : Nat) : List (Nat × Nat) :=
  (l.filterMap (fun m => match m with
    | .pageLine c _ p g .. => if c = old then some (p, g) else none
    | .geometry c _ p g .. => if c = old then some (p, g) else none
    | _ => none)).eraseDups

/-- The stored lines of a held page, by row. -/
def heldRows (l : List MirrorMsg) (p g : Nat) : List Bytes :=
  (l.foldl (fun (t : Tab Bytes) m => match m with
    | .pageLine _ _ q h row _ _ _ _ _ _ _ b => if q = p && h = g then tabPut t row b else t
    | _ => t) []).map Prod.snd

/-- The picture of a held page: line width, colours, sample bytes. -/
def heldPicture (rows : List Bytes) (w colours bytes : Nat) : Picture :=
  { width := w, height := rows.length, depth := 8 * bytes,
    planes := (List.range colours).map (fun k => rows.flatMap (fun b =>
      (List.range w).map (fun x => leAt b ((k * w + x) * bytes) bytes))),
    ycc := false, bt709 := false, limited := false, idr := true, refsLost := false }

/-- The record of CONTEXT_FAULT of a held page whose context has no handle here (R427). -/
def State.faultPage (s : State) (l : List MirrorMsg) (pg : Nat × Nat) : State :=
  let id := 2 ^ 62 + pg.1 * 2 ^ 48 + pg.2 % 2 ^ 48
  let found := l.foldl (fun (o : Option (Nat × Nat × Nat)) m => match m with
    | .pageLine _ cq q h _ _ fin _ _ _ _ geo _ => if q = pg.1 && h = pg.2 then some (cq, fin, geo) else o
    | .geometry _ cq q h geo fin => if q = pg.1 && h = pg.2 then some (cq, fin, geo) else o
    | _ => o) none
  match found with
  | none => s
  | some (cq, fin, geo) =>
    s.pushOwn 256 cq
      { kind := 1, status := stContextFault, itemId := id, ctx := 256, replayed := true, body := resultBody id fin fin [] (some geo) [] }

/-- A held page is an item again. One whose geometry block did not come ends at its last mirrored line, incomplete
(R428). -/
def State.rerunPage (s : State) (l : List MirrorMsg) (c : Nat) (pg : Nat × Nat) : State :=
  let (p, g) := pg
  let rows := heldRows l p g
  let last := l.foldl (fun (o : Option (Nat × Nat × Nat × Nat × Nat × Nat × Nat × Nat)) m => match m with
    | .pageLine _ cq q h _ t0 fin col by_ w asp geo _ => if q = p && h = g then some (cq, t0, fin, col, by_, w, asp, geo) else o
    | _ => o) none
  let whole := l.findSome? (fun m => match m with
    | .geometry _ cq q h geo fin => if q = p && h = g then some (cq, geo, fin) else none
    | _ => none)
  let (cq, t0, fin, col, by_, w, asp, geo) := match last, whole with
    | some (cq, t0, _, col, by_, w, asp, _), some (_, geo, fin) => (cq, t0, fin, col, by_, w, asp, geo)
    | some (cq, t0, fin, col, by_, w, asp, geo), none => (cq, t0, fin, col, by_, w, asp, if bit geo 224 then geo else geo + 2 ^ 224)
    | none, some (cq, geo, fin) => (cq, fin, fin, 1, 1, 0, 65536, geo)
    | none, none => (0, 0, 0, 1, 1, 0, 65536, 2 ^ 224)
  let pic := heldPicture rows w col by_
  let v : View :=
    { entry := place asp 127 96, read := true, dims := some [(w, rows.length, col)], outcome := some 0, pics := [pic] }
  let n := s.intake.nextItem
  let it : Item :=
    { kind := .mirrored p g geo (bit geo 224), ctx := c, cq := cq, itemId := 2 ^ 62 + p * 2 ^ 48 + g % 2 ^ 48, views := [v],
      capture := t0, ref := some fin, replayed := true }
  let s := s.setIntake { s.intake with items := tabPut s.intake.items n it, nextItem := n + 1 }
  match s.prof c with
  | some pr => s.placePage n pr geo asp w rows.length
  | none => s

/-! ### The takeover (R427) -/

/-- Step 2 for one context: all it is bound to, and its work that is run again. -/
def State.takeCtx (s : State) (hs : List (Nat × Option Nat)) (l : List MirrorMsg) (old c : Nat) : State × Bool :=
  if l.contains (.gone old) then ((s.takeQueues hs l old c).1, true)
  else
    let (s, a) := s.takeParts l old c
    let (s, b) := s.takeQueues hs l old c
    (s, a && b)

/-- Step 3 for one context (R313, R324): a real-time context that ran on the partner is admitted, a best-effort context
is queued. -/
def State.enterHeld (s : State) (ch : Nat) (l : List MirrorMsg) (old c : Nat) : State × Bool :=
  match s.ctx? c, heldCtx l old with
  | some x, some (.context _ _ _ _ entry _ _) =>
    if x.st != .waiting then (s, true)
    else if x.realTime then
      if entry.isNone then (s, true)
      else if x.profile.isNone || !s.rootsSet c x then (s, false)
      else (match s.admitRt c ch with
        | (t, none) => (t, true)
        | (_, some _) => (s, false))
    else (s.setSched { s.sched with waiting := s.sched.waiting ++ [c] }, true)
  | _, _ => (s, false)

/-- A mirrored context for which no handle is free: its CQs are bound, without an owner, and each of its accepted descriptors
and pages gets a CONTEXT_FAULT record there (R427, R429; log 147). -/
def State.faultOrphan (s : State) (hs : List (Nat × Option Nat)) (l : List MirrorMsg) (old : Nat) : State :=
  let sqs := l.filterMap (fun m => match m with | .queue q h w => if h = old && !bit (leNat w) 0 then some q else none | _ => none)
  let cqs := l.filter (fun m => match m with | .queue _ h w => h = old && bit (leNat w) 0 | _ => true)
  let s := ((s.takeQueues hs cqs old 256).1).faultQueues sqs l old 256
  (heldPages l old).foldl (fun (s : State) pg => s.faultPage l pg) s

/-- The accepted descriptors of the SQs of a context that keep another's queue numbers from it get their records (R427). -/
def State.faultTaken (s : State) (l : List MirrorMsg) (old c : Nat) : State :=
  let taken := l.filterMap (fun m => match m with
    | .queue q _ _ => (match tabFind s.hq q with | some h => if h.ctx = c then none else some q | none => none)
    | _ => none)
  s.faultQueues taken l old c

/-- Steps 1 to 3: the new state, and each context with its new handle. One that cannot be taken over is a CONTAINED error
with cause 0x0D, whose teardown gives each of its items a CONTEXT_FAULT record (R427, R446, R447). -/
def State.takeAll (s : State) (ch : Nat) (l : List MirrorMsg) : State × List (Nat × Option Nat) :=
  let ms := (List.range 256).filterMap (heldCtx l)
  let (s, hs) := ms.foldl (fun (r : State × List (Nat × Option Nat)) m =>
    let (s, h, n) := r.1.createHeld ch l m
    (s, r.2 ++ [(h, n)])) (s, [])
  let (s, fits) := hs.foldl (fun (r : State × List (Nat × Option Nat)) x =>
    match x.2 with
    | none => (if l.contains (.gone x.1) then r.1 else r.1.faultOrphan hs l x.1, r.2 ++ [(x.1, none)])
    | some c =>
      let (s, ok) := r.1.takeCtx hs l x.1 c
      (if ok then s else s.faultTaken l x.1 c, r.2 ++ [(x.1, if ok then some c else none)])) (s, [])
  let s := hs.foldl (fun (s : State) x => match x.2 with
    | none => s
    | some c =>
      let s := s.rerunDescs l c
      (heldPages l x.1).foldl (fun (s : State) pg => s.rerunPage l c pg) s) s
  let fail := fun (s : State) (old : Nat) => match hs.find? (fun x => x.1 == old) with
    | some (_, some c) => s.contained c 0x0D
    | _ => s
  let (s, out) := fits.foldl (fun (r : State × List (Nat × Option Nat)) x =>
    if l.contains (.gone x.1) then r
    else match x.2 with
      | none => (fail r.1 x.1, r.2 ++ [(x.1, none)])
      | some c =>
        (match r.1.enterHeld ch l x.1 c with
         | (s, true) => (s, r.2 ++ [(x.1, some c)])
         | (s, false) => (fail s x.1, r.2 ++ [(x.1, none)]))) (s, [])
  (s, out)

/-- The reply payload (R427). -/
def takeoverReply (l : List (Nat × Option Nat)) : Bytes :=
  toLe 4 l.length ++ l.flatMap (fun x => toLe 1 x.1 ++ toLe 1 (x.2.getD 0xFF))

/-- MIRROR_TAKEOVER (R427 to R429, R431). -/
def execMirrorTakeover (ch : Nat) (s : State) : Result :=
  .next (s.onMsg ch 0x0082 anySel (fun _ _ => none) (fun _ _ _ => true) (pBits [(0, 0)]) (fun s r =>
    if !s.pair.formed || s.pair.role ≠ 2 || !s.pair.lost || s.pair.link ≠ pf r.payload 0 0 then s.answer r stNoResource []
    else
      let (s, out) := s.takeAll ch s.pair.held
      (s.setPair { enrolled := s.pair.enrolled }).answer r stOK (takeoverReply out)))

end Sys2Proof.Machine
end

