-- ==== Sys2Proof/Machine/Vector.lean ====
section
/-! DEFINITION. Machine/Vector.lean: the vector commands (R83 to R88). -/

namespace Sys2Proof.Machine

/-- fmt_a -/
def vA (w : Nat) : Fmt := (cFmt w 132).getD .fp32
/-- fmt_b -/
def vB (w : Nat) : Fmt := (cFmt w 136).getD .fp32
/-- fmt_dst -/
def vD (w : Nat) : Fmt := (cFmt w 140).getD .fp32
/-- rows -/
def vRows (w : Nat) : Nat := fld w 175 160
/-- row_len -/
def vLen (w : Nat) : Nat := fld w 223 192
/-- Row r of input a. -/
def vAAt (w r : Nat) : Nat := fld w 255 224 + fld w 351 320 * r
/-- Row r of input b. -/
def vBAt (w r : Nat) : Nat := fld w 287 256 + fld w 383 352 * r
/-- Output row r. -/
def vDAt (w r : Nat) : Nat := fld w 319 288 + fld w 415 384 * r
/-- param0 -/
def vParam (w : Nat) : FV := ofF32 (fld w 447 416)
/-- aux_addr -/
def vAux (w : Nat) : Nat := fld w 479 448

/-- Ranges of input a. -/
def vARanges (w : Nat) : List Range := rowRanges (bit w 144) (fld w 255 224) (fld w 351 320) (plainLen (vA w) (vLen w)) (vRows w)
/-- Ranges of input b. -/
def vBRanges (w : Nat) : List Range := rowRanges (bit w 145) (fld w 287 256) (fld w 383 352) (plainLen (vB w) (vLen w)) (vRows w)
/-- Ranges of an output of `n` elements a row. -/
def vDRanges (w n : Nat) : List Range := rowRanges (bit w 146) (fld w 319 288) (fld w 415 384) (plainLen (vD w) n) (vRows w)

/-- Lanes of row r of input a. -/
def State.vRowA (s : State) (e w r : Nat) : List Lane := s.plainRow e (bit w 144) (vA w) (vAAt w r) (vLen w)
/-- Lanes of row r of input b. -/
def State.vRowB (s : State) (e w r : Nat) : List Lane := s.plainRow e (bit w 145) (vB w) (vBAt w r) (vLen w)

/-- Write an output row and count its conversions: an element that the operation and the conversion both clamp is counted
once (R111). -/
def State.vPut (s : State) (c e w r : Nat) (l : List (Lane × Sat)) : State :=
  let out := l.map (fun x => let (k, t) := encPlain (vD w) x.1; (k, t.once x.2))
  (s.spPut e (bit w 146) (vDAt w r) (plainBytes (vD w) (out.map Prod.fst))).countSat c
    (out.foldl (fun a x => a.add x.2) Sat.zero)

/-- A vector command: checks, reads, and each row by `f`, which reads the state before any write. A register of wrong
parity is an error of the command's context (R90). -/
def State.vecRun (s : State) (c e w : Nat) (reads : List Range) (n : Nat) (f : State → Nat → List (Lane × Sat)) :
    State × BodyEnd :=
  s.withRanges c e reads (vDRanges w n) (fun s =>
    ((List.range (vRows w)).foldl (fun (s1 : State) r => s1.vPut c e w r (f s r)) s, .done))

/-- An INT32 result, the clamp counted in SAT_INT. R83 computes in INT32 and does not say what a result beyond it gives; the
model clamps as a conversion does (R105, log 125). -/
def satLane (z : Int) : Lane × Sat :=
  let (v, c) := clampInt Fmt.int32.lo Fmt.int32.hi z
  (.i v, if c then { int := 1 } else {})

/-- A float result. -/
def fLane (v : FV) : Lane × Sat := (.f v, {})

/-! ### VEC_BINARY (R84) -/

/-- A two-input operation: on INT32 where both inputs are integer, on FP32 otherwise (R83). -/
def lane2 (fi : Int → Int → Int) (ff : FV → FV → FV) (a b : Lane) : Lane × Sat :=
  match a, b with
  | .i x, .i y => satLane (fi x y)
  | _, _ => fLane (ff a.toFV b.toFV)

/-- The body of a two-input operation. -/
def State.vecTwo (s : State) (c e w : Nat) (fi : Int → Int → Int) (ff : FV → FV → FV) : State × BodyEnd :=
  s.vecRun c e w (vARanges w ++ vBRanges w) (vLen w) (fun s r => List.zipWith (lane2 fi ff) (s.vRowA e w r) (s.vRowB e w r))

/-- The body of an operation on each element of input a. -/
def State.vecMap (s : State) (c e w : Nat) (f : Lane → Lane × Sat) : State × BodyEnd :=
  s.vecRun c e w (vARanges w) (vLen w) (fun s r => (s.vRowA e w r).map f)

/-- VEC_BINARY_ADD (R84). -/
def execVecBinaryAdd (e q : Nat) (s : State) : Result :=
  .next (s.runCommand e q (selOp2 0x20 0) (fun c w s => s.vecTwo c e w (· + ·) (fun x y => r32 (fadd x y))))

/-- VEC_BINARY_SUB (R84). -/
def execVecBinarySub (e q : Nat) (s : State) : Result :=
  .next (s.runCommand e q (selOp2 0x20 1) (fun c w s => s.vecTwo c e w (· - ·) (fun x y => r32 (fsub x y))))

/-- VEC_BINARY_MUL (R84). -/
def execVecBinaryMul (e q : Nat) (s : State) : Result :=
  .next (s.runCommand e q (selOp2 0x20 2) (fun c w s => s.vecTwo c e w (· * ·) (fun x y => r32 (fmul x y))))

/-- VEC_BINARY_MAX (R84). -/
def execVecBinaryMax (e q : Nat) (s : State) : Result :=
  .next (s.runCommand e q (selOp2 0x20 3) (fun c w s => s.vecTwo c e w max fmax))

/-- VEC_BINARY_MIN (R84). -/
def execVecBinaryMin (e q : Nat) (s : State) : Result :=
  .next (s.runCommand e q (selOp2 0x20 4) (fun c w s => s.vecTwo c e w min fmin))

/-- VEC_BINARY_ADD_SCALAR (R84). -/
def execVecBinaryAddScalar (e q : Nat) (s : State) : Result :=
  .next (s.runCommand e q (selOp2 0x20 5) (fun c w s => s.vecMap c e w (fun a => fLane (r32 (fadd a.toFV (vParam w))))))

/-- VEC_BINARY_MUL_SCALAR (R84). -/
def execVecBinaryMulScalar (e q : Nat) (s : State) : Result :=
  .next (s.runCommand e q (selOp2 0x20 6) (fun c w s => s.vecMap c e w (fun a => fLane (r32 (fmul a.toFV (vParam w))))))

/-! ### VEC_UNARY (R84, R85) -/

/-- A one-input operation on INT32 or FP32. -/
def lane1 (fi : Int → Int) (ff : FV → FV) (a : Lane) : Lane × Sat :=
  match a with
  | .i x => satLane (fi x)
  | .f v => fLane (ff v)

/-- A special function of an element. -/
def laneSfu (g : FV → FV) (a : Lane) : Lane × Sat := fLane (g a.toFV)

/-- VEC_UNARY_COPY (R84, R104, R105). -/
def execVecUnaryCopy (e q : Nat) (s : State) : Result :=
  .next (s.runCommand e q (selOp2 0x21 0) (fun c w s => s.vecMap c e w (fun a => (a, {}))))

/-- VEC_UNARY_ABS (R84). -/
def execVecUnaryAbs (e q : Nat) (s : State) : Result :=
  .next (s.runCommand e q (selOp2 0x21 1) (fun c w s => s.vecMap c e w (lane1 (fun z => (z.natAbs : Int)) fabs)))

/-- VEC_UNARY_NEG (R84). -/
def execVecUnaryNeg (e q : Nat) (s : State) : Result :=
  .next (s.runCommand e q (selOp2 0x21 2) (fun c w s => s.vecMap c e w (lane1 (fun z => -z) fneg)))

/-- VEC_UNARY_RELU (R84). -/
def execVecUnaryRelu (e q : Nat) (s : State) : Result :=
  .next (s.runCommand e q (selOp2 0x21 3) (fun c w s => s.vecMap c e w (lane1 (fun z => max z 0) frelu)))

/-- VEC_UNARY_EXP2 (R85). -/
def execVecUnaryExp2 (e q : Nat) (s : State) : Result :=
  .next (s.runCommand e q (selOp2 0x21 4) (fun c w s => s.vecMap c e w (laneSfu (sfu .exp2))))

/-- VEC_UNARY_EXP (R85). -/
def execVecUnaryExp (e q : Nat) (s : State) : Result :=
  .next (s.runCommand e q (selOp2 0x21 5) (fun c w s => s.vecMap c e w (laneSfu sfuExp)))

/-- VEC_UNARY_LOG2 (R85). -/
def execVecUnaryLog2 (e q : Nat) (s : State) : Result :=
  .next (s.runCommand e q (selOp2 0x21 6) (fun c w s => s.vecMap c e w (laneSfu (sfu .log2))))

/-- VEC_UNARY_RECIP (R85). -/
def execVecUnaryRecip (e q : Nat) (s : State) : Result :=
  .next (s.runCommand e q (selOp2 0x21 7) (fun c w s => s.vecMap c e w (laneSfu (sfu .recip))))

/-- VEC_UNARY_RSQRT (R85). -/
def execVecUnaryRsqrt (e q : Nat) (s : State) : Result :=
  .next (s.runCommand e q (selOp2 0x21 8) (fun c w s => s.vecMap c e w (laneSfu (sfu .rsqrt))))

/-- VEC_UNARY_SQRT (R85). -/
def execVecUnarySqrt (e q : Nat) (s : State) : Result :=
  .next (s.runCommand e q (selOp2 0x21 9) (fun c w s => s.vecMap c e w (laneSfu (sfu .sqrt))))

/-- VEC_UNARY_TANH (R85). -/
def execVecUnaryTanh (e q : Nat) (s : State) : Result :=
  .next (s.runCommand e q (selOp2 0x21 10) (fun c w s => s.vecMap c e w (laneSfu (sfu .tanh))))

/-- VEC_UNARY_SIGMOID (R85). -/
def execVecUnarySigmoid (e q : Nat) (s : State) : Result :=
  .next (s.runCommand e q (selOp2 0x21 11) (fun c w s => s.vecMap c e w (laneSfu (sfu .sigmoid))))

/-- VEC_UNARY_GELU_TANH (R85). -/
def execVecUnaryGeluTanh (e q : Nat) (s : State) : Result :=
  .next (s.runCommand e q (selOp2 0x21 12) (fun c w s => s.vecMap c e w (laneSfu (sfu .gelu))))

/-- VEC_UNARY_SILU (R85). -/
def execVecUnarySilu (e q : Nat) (s : State) : Result :=
  .next (s.runCommand e q (selOp2 0x21 13) (fun c w s => s.vecMap c e w (laneSfu (sfu .silu))))

/-! ### VEC_REDUCE (R86) -/

/-- Integers of a row, where every lane is one. -/
def intsOf (l : List Lane) : List Int := l.map (fun x => match x with | .i z => z | .f _ => 0)

/-- One value of a row: INT32 for integer inputs, FP32 for float inputs (R86). -/
def reduceRow (f : Fmt) (fi : List Int → Int) (ff : List FV → FV) (l : List Lane) : List (Lane × Sat) :=
  if f.isInt then [satLane (fi (intsOf l))] else [fLane (ff (l.map Lane.toFV))]

/-- The extreme of a row of values; a zero extreme is +0 (R86). -/
def foldF (g : FV → FV → FV) (l : List FV) : FV :=
  match l with
  | [] => fzero
  | x :: r => let m := r.foldl g x; if fisZero m then fzero else m

/-- The extreme of a row of integers. -/
def foldI (g : Int → Int → Int) (l : List Int) : Int :=
  match l with
  | [] => 0
  | x :: r => r.foldl g x

/-- The body of a reduction. -/
def State.vecReduce (s : State) (c e w : Nat) (f : List Lane → List (Lane × Sat)) : State × BodyEnd :=
  s.vecRun c e w (vARanges w) 1 (fun s r => f (s.vRowA e w r))

/-- VEC_REDUCE_MAX (R86). -/
def execVecReduceMax (e q : Nat) (s : State) : Result :=
  .next (s.runCommand e q (selOp2 0x22 0) (fun c w s => s.vecReduce c e w (reduceRow (vA w) (foldI max) (foldF fmax))))

/-- VEC_REDUCE_MIN (R86). -/
def execVecReduceMin (e q : Nat) (s : State) : Result :=
  .next (s.runCommand e q (selOp2 0x22 1) (fun c w s => s.vecReduce c e w (reduceRow (vA w) (foldI min) (foldF fmin))))

/-- VEC_REDUCE_SUM (R86). -/
def execVecReduceSum (e q : Nat) (s : State) : Result :=
  .next (s.runCommand e q (selOp2 0x22 2) (fun c w s => s.vecReduce c e w (fun l => [fLane (rowSum (l.map Lane.toFV))])))

/-- VEC_REDUCE_MAXABS (R86). -/
def execVecReduceMaxabs (e q : Nat) (s : State) : Result :=
  .next (s.runCommand e q (selOp2 0x22 3) (fun c w s => s.vecReduce c e w
    (reduceRow (vA w) (fun l => foldI max (l.map (fun z => (z.natAbs : Int)))) (fun l => foldF fmax (l.map fabs)))))

/-- VEC_REDUCE_SUMSQ (R86): each square is rounded to FP32 before it is added (log 126). -/
def execVecReduceSumsq (e q : Nat) (s : State) : Result :=
  .next (s.runCommand e q (selOp2 0x22 4) (fun c w s => s.vecReduce c e w
    (fun l => [fLane (rowSum (l.map (fun x => r32 (fmul x.toFV x.toFV))))])))

/-! ### VEC_NORM (R87) -/

/-- Gamma or beta: FP32 values of the row's length. -/
def State.vAuxRow (s : State) (e w at0 : Nat) : List FV := s.floatRow e false .fp32 at0 (vLen w)

/-- LAYER (R87), rounded after each operation (log 141). -/
def normLayer (eps : FV) (g b x : List FV) : List FV :=
  let n := x.length
  let mean := fdivNat (rowSum x) n
  let dx := x.map (fun v => r32 (fsub v mean))
  let v := fdivNat (rowSum (dx.map (fun d => r32 (fmul d d)))) n
  let k := sfu .rsqrt (r32 (fadd v eps))
  (List.range n).map (fun i =>
    r32 (fadd (r32 (fmul (r32 (fmul (dx.getD i fzero) k)) (g.getD i fzero))) (b.getD i fzero)))

/-- RMS (R87), rounded after each operation (log 141). -/
def normRms (eps : FV) (g x : List FV) : List FV :=
  let n := x.length
  let v := fdivNat (rowSum (x.map (fun d => r32 (fmul d d)))) n
  let k := sfu .rsqrt (r32 (fadd v eps))
  (List.range n).map (fun i => r32 (fmul (r32 (fmul (x.getD i fzero) k)) (g.getD i fzero)))

/-- VEC_NORM_LAYER (R87). -/
def execVecNormLayer (e q : Nat) (s : State) : Result :=
  .next (s.runCommand e q (selOp2 0x23 0) (fun c w s =>
    s.vecRun c e w (vARanges w ++ [⟨false, vAux w, 8 * vLen w⟩]) (vLen w) (fun s r =>
      (normLayer (vParam w) (s.vAuxRow e w (vAux w)) (s.vAuxRow e w (vAux w + 4 * vLen w))
        ((s.vRowA e w r).map Lane.toFV)).map fLane)))

/-- VEC_NORM_RMS (R87). -/
def execVecNormRms (e q : Nat) (s : State) : Result :=
  .next (s.runCommand e q (selOp2 0x23 1) (fun c w s =>
    s.vecRun c e w (vARanges w ++ [⟨false, vAux w, 4 * vLen w⟩]) (vLen w) (fun s r =>
      (normRms (vParam w) (s.vAuxRow e w (vAux w)) ((s.vRowA e w r).map Lane.toFV)).map fLane)))

/-! ### VEC_SOFTMAX (R88) -/

/-- 1.442695 as FP32. -/
def log2e32 : FV := ofF32 0x3FB8AA3B

/-- VEC_SOFTMAX of one row (R88): elements with their open bits. The argument of exp2 is rounded after each operation, from
left to right (log 141). -/
def softmax (param : FV) (l : List (FV × Bool)) : List FV :=
  let xs := (l.filter (fun x => x.2)).map Prod.fst
  if xs.any fisNan then l.map (fun _ => FV.nan)
  else
    let m := xs.foldl (fun m x => if flt m x then x else m) (.inf true)
    if m = .inf true then l.map (fun _ => fzero)
    else
      let es := l.map (fun x => if x.2 then sfu .exp2 (r32 (fmul (r32 (fmul (r32 (fsub x.1 m)) log2e32)) param)) else fzero)
      let r := sfu .recip (rowSum es)
      es.map (fun x => r32 (fmul x r))

/-- Bytes of a mask row: one bit for each element, padded to 64 bits. -/
def maskRow (n : Nat) : Nat := 8 * ceilDiv n 64

/-- VEC_SOFTMAX (R88). -/
def execVecSoftmax (e q : Nat) (s : State) : Result :=
  .next (s.runCommand e q (selOp2 0x24 0) (fun c w s =>
    let mk := maskRow (vLen w)
    s.vecRun c e w (vARanges w ++ if bit w 147 then [⟨false, vAux w, mk * vRows w⟩] else []) (vLen w) (fun s r =>
      let m := leNat (s.palBytes e (vAux w + mk * r) mk)
      let xs := (s.vRowA e w r).map Lane.toFV
      (softmax (vParam w) ((List.range xs.length).map (fun i => (xs.getD i fzero, !bit w 147 || bit m i)))).map fLane)))

end Sys2Proof.Machine
end

