-- ==== Sys2Proof/Machine/Dispatch.lean ====
section
/-! DEFINITION. Machine/Dispatch.lean: one arm per command, each a call of that command's meaning. -/

namespace Sys2Proof.Machine

/-- The effect of a command on everything but the queue. -/
def exec (i : Instr) (s : State) : Host.Outcome State Fault Refusal :=
  match i with
  | .powerOnReset => Sys2Proof.Machine.execPowerOnReset s
  | .deviceReset cause => Sys2Proof.Machine.execDeviceReset cause s
  | .releaseOfReset => Sys2Proof.Machine.execReleaseOfReset s
  | .corePgRise bootSrc i3cAddr => Sys2Proof.Machine.execCorePgRise bootSrc i3cAddr s
  | .firmwareRestart => Sys2Proof.Machine.execFirmwareRestart s
  | .sealCoreRestart => Sys2Proof.Machine.execSealCoreRestart s
  | .thermalTrip => Sys2Proof.Machine.execThermalTrip s
  | .thermalTripRelease => Sys2Proof.Machine.execThermalTripRelease s
  | .comparatorTrip n => Sys2Proof.Machine.execComparatorTrip n s
  | .comparatorRearm n => Sys2Proof.Machine.execComparatorRearm n s
  | .aonTimerMature junction mr4Hot => Sys2Proof.Machine.execAonTimerMature junction mr4Hot s
  | .wakeSequenceComplete => Sys2Proof.Machine.execWakeSequenceComplete s
  | .idleEntry => Sys2Proof.Machine.execIdleEntry s
  | .sleepEntry => Sys2Proof.Machine.execSleepEntry s
  | .thermalSample junction p100us over55 p10ms mr4Hot => Sys2Proof.Machine.execThermalSample junction p100us over55 p10ms mr4Hot s
  | .ptmDialogue master => Sys2Proof.Machine.execPtmDialogue master s
  | .deviceTimeLoRead => Sys2Proof.Machine.execDeviceTimeLoRead s
  | .wakeCauseClear v => Sys2Proof.Machine.execWakeCauseClear v s
  | .eventStatusClear fn v => Sys2Proof.Machine.execEventStatusClear fn v s
  | .dbErrorCountRead => Sys2Proof.Machine.execDbErrorCountRead s
  | .registerWrite fn bar off v => Sys2Proof.Machine.execRegisterWrite fn bar off v s
  | .pcieLinkTraining rate width => Sys2Proof.Machine.execPcieLinkTraining rate width s
  | .flrPf0 => Sys2Proof.Machine.execFlrPf0 s
  | .flrPf1 => Sys2Proof.Machine.execFlrPf1 s
  | .busMasterEnableWrite fn v => Sys2Proof.Machine.execBusMasterEnableWrite fn v s
  | .pciPowerStateWrite fn power pmeEn => Sys2Proof.Machine.execPciPowerStateWrite fn power pmeEn s
  | .msixUnmask fn vec => Sys2Proof.Machine.execMsixUnmask fn vec s
  | .hostReadError ctx => Sys2Proof.Machine.execHostReadError ctx s
  | .i3cTargetReset => Sys2Proof.Machine.execI3cTargetReset s
  | .i3cPrivateWrite bytes => Sys2Proof.Machine.execI3cPrivateWrite bytes s
  | .sqDoorbellWrite q v => Sys2Proof.Machine.execSqDoorbellWrite q v s
  | .cqDoorbellWrite q v => Sys2Proof.Machine.execCqDoorbellWrite q v s
  | .sample q => Sys2Proof.Machine.execSample q s
  | .text q => Sys2Proof.Machine.execText q s
  | .streamData q => Sys2Proof.Machine.execStreamData q s
  | .marker q => Sys2Proof.Machine.execMarker q s
  | .recordPost q => Sys2Proof.Machine.execRecordPost q s
  | .msixCoalesceTimeout q => Sys2Proof.Machine.execMsixCoalesceTimeout q s
  | .mbDoorbellWrite path ch v => Sys2Proof.Machine.execMbDoorbellWrite path ch v s
  | .mbAckWrite path ch v => Sys2Proof.Machine.execMbAckWrite path ch v s
  | .messageFragment ch => Sys2Proof.Machine.execMessageFragment ch s
  | .d2hPost ch => Sys2Proof.Machine.execD2hPost ch s
  | .sessionOpen ch => Sys2Proof.Machine.execSessionOpen ch s
  | .sessionClose ch => Sys2Proof.Machine.execSessionClose ch s
  | .contextCreate ch => Sys2Proof.Machine.execContextCreate ch s
  | .contextStart ch => Sys2Proof.Machine.execContextStart ch s
  | .contextDestroyDrain ch => Sys2Proof.Machine.execContextDestroyDrain ch s
  | .contextDestroyAbort ch => Sys2Proof.Machine.execContextDestroyAbort ch s
  | .contextQuery ch => Sys2Proof.Machine.execContextQuery ch s
  | .windowRegister ch => Sys2Proof.Machine.execWindowRegister ch s
  | .windowRelease ch => Sys2Proof.Machine.execWindowRelease ch s
  | .regionAlloc ch => Sys2Proof.Machine.execRegionAlloc ch s
  | .memCopyToDevice ch => Sys2Proof.Machine.execMemCopyToDevice ch s
  | .memCopyToHost ch => Sys2Proof.Machine.execMemCopyToHost ch s
  | .memCopyComplete ch seq => Sys2Proof.Machine.execMemCopyComplete ch seq s
  | .bundleLoad ch => Sys2Proof.Machine.execBundleLoad ch s
  | .lexiconLoad ch => Sys2Proof.Machine.execLexiconLoad ch s
  | .envelopeCheckComplete ch seq => Sys2Proof.Machine.execEnvelopeCheckComplete ch seq s
  | .lexiconBind ch => Sys2Proof.Machine.execLexiconBind ch s
  | .legacyRootSet ch => Sys2Proof.Machine.execLegacyRootSet ch s
  | .queueBindSq ch => Sys2Proof.Machine.execQueueBindSq ch s
  | .queueBindCq ch => Sys2Proof.Machine.execQueueBindCq ch s
  | .queueUnbind ch => Sys2Proof.Machine.execQueueUnbind ch s
  | .textStreamOpen ch => Sys2Proof.Machine.execTextStreamOpen ch s
  | .textStreamClose ch => Sys2Proof.Machine.execTextStreamClose ch s
  | .portBind ch => Sys2Proof.Machine.execPortBind ch s
  | .portUnbind ch => Sys2Proof.Machine.execPortUnbind ch s
  | .portConfig ch => Sys2Proof.Machine.execPortConfig ch s
  | .captureStart ch => Sys2Proof.Machine.execCaptureStart ch s
  | .captureStop ch => Sys2Proof.Machine.execCaptureStop ch s
  | .calibrateDark ch => Sys2Proof.Machine.execCalibrateDark ch s
  | .calibrateWhite ch => Sys2Proof.Machine.execCalibrateWhite ch s
  | .calibTableLoadDark ch => Sys2Proof.Machine.execCalibTableLoadDark ch s
  | .calibTableLoadGain ch => Sys2Proof.Machine.execCalibTableLoadGain ch s
  | .streamBind ch => Sys2Proof.Machine.execStreamBind ch s
  | .streamUnbind ch => Sys2Proof.Machine.execStreamUnbind ch s
  | .primerProfileSet ch => Sys2Proof.Machine.execPrimerProfileSet ch s
  | .kvTlbInvalidateContext ch => Sys2Proof.Machine.execKvTlbInvalidateContext ch s
  | .kvTlbInvalidateSite ch => Sys2Proof.Machine.execKvTlbInvalidateSite ch s
  | .kvTlbInvalidateRange ch => Sys2Proof.Machine.execKvTlbInvalidateRange ch s
  | .ringJobSetup ch => Sys2Proof.Machine.execRingJobSetup ch s
  | .counterQueryContext ch => Sys2Proof.Machine.execCounterQueryContext ch s
  | .counterQueryPort ch => Sys2Proof.Machine.execCounterQueryPort ch s
  | .outstandingReport ch => Sys2Proof.Machine.execOutstandingReport ch s
  | .mirrorPairActive ch => Sys2Proof.Machine.execMirrorPairActive ch s
  | .mirrorPairStandby ch => Sys2Proof.Machine.execMirrorPairStandby ch s
  | .mirrorUnpair ch => Sys2Proof.Machine.execMirrorUnpair ch s
  | .mirrorTakeover ch => Sys2Proof.Machine.execMirrorTakeover ch s
  | .secureStatus ch => Sys2Proof.Machine.execSecureStatus ch s
  | .identityCertGet ch => Sys2Proof.Machine.execIdentityCertGet ch s
  | .attestQuote ch => Sys2Proof.Machine.execAttestQuote ch s
  | .ownerKeyEnrol ch => Sys2Proof.Machine.execOwnerKeyEnrol ch s
  | .imagePush ch => Sys2Proof.Machine.execImagePush ch s
  | .imageCommit ch => Sys2Proof.Machine.execImageCommit ch s
  | .flashWriteComplete ok => Sys2Proof.Machine.execFlashWriteComplete ok s
  | .easelDoorbell e q off => Sys2Proof.Machine.execEaselDoorbell e q off s
  | .nop e q => Sys2Proof.Machine.execNop e q s
  | .matmul e q => Sys2Proof.Machine.execMatmul e q s
  | .accDrain e q => Sys2Proof.Machine.execAccDrain e q s
  | .gessoExpand e q => Sys2Proof.Machine.execGessoExpand e q s
  | .poolMax e q => Sys2Proof.Machine.execPoolMax e q s
  | .poolAvg e q => Sys2Proof.Machine.execPoolAvg e q s
  | .forward e q => Sys2Proof.Machine.execForward e q s
  | .finalise e q => Sys2Proof.Machine.execFinalise e q s
  | .merge e q => Sys2Proof.Machine.execMerge e q s
  | .backwardPrep e q => Sys2Proof.Machine.execBackwardPrep e q s
  | .backward e q => Sys2Proof.Machine.execBackward e q s
  | .convertFirstPass e q => Sys2Proof.Machine.execConvertFirstPass e q s
  | .convertFallback e q => Sys2Proof.Machine.execConvertFallback e q s
  | .convertFixed e q => Sys2Proof.Machine.execConvertFixed e q s
  | .convertDecode e q => Sys2Proof.Machine.execConvertDecode e q s
  | .rotary e q => Sys2Proof.Machine.execRotary e q s
  | .tallyAcquire e q => Sys2Proof.Machine.execTallyAcquire e q s
  | .tallyWait e q => Sys2Proof.Machine.execTallyWait e q s
  | .tallyRelease e q => Sys2Proof.Machine.execTallyRelease e q s
  | .tallyPost ctx tally n => Sys2Proof.Machine.execTallyPost ctx tally n s
  | .tallySet tally n => Sys2Proof.Machine.execTallySet tally n s
  | .tallyRead tally => Sys2Proof.Machine.execTallyRead tally s
  | .barrierArrive e q => Sys2Proof.Machine.execBarrierArrive e q s
  | .barrierComplete atelier chan => Sys2Proof.Machine.execBarrierComplete atelier chan s
  | .deviceBarrierComplete chan => Sys2Proof.Machine.execDeviceBarrierComplete chan s
  | .dma e q => Sys2Proof.Machine.execDma e q s
  | .endCmd e q => Sys2Proof.Machine.execEndCmd e q s
  | .vecBinaryAdd e q => Sys2Proof.Machine.execVecBinaryAdd e q s
  | .vecBinarySub e q => Sys2Proof.Machine.execVecBinarySub e q s
  | .vecBinaryMul e q => Sys2Proof.Machine.execVecBinaryMul e q s
  | .vecBinaryMax e q => Sys2Proof.Machine.execVecBinaryMax e q s
  | .vecBinaryMin e q => Sys2Proof.Machine.execVecBinaryMin e q s
  | .vecBinaryAddScalar e q => Sys2Proof.Machine.execVecBinaryAddScalar e q s
  | .vecBinaryMulScalar e q => Sys2Proof.Machine.execVecBinaryMulScalar e q s
  | .vecUnaryCopy e q => Sys2Proof.Machine.execVecUnaryCopy e q s
  | .vecUnaryAbs e q => Sys2Proof.Machine.execVecUnaryAbs e q s
  | .vecUnaryNeg e q => Sys2Proof.Machine.execVecUnaryNeg e q s
  | .vecUnaryRelu e q => Sys2Proof.Machine.execVecUnaryRelu e q s
  | .vecUnaryExp2 e q => Sys2Proof.Machine.execVecUnaryExp2 e q s
  | .vecUnaryExp e q => Sys2Proof.Machine.execVecUnaryExp e q s
  | .vecUnaryLog2 e q => Sys2Proof.Machine.execVecUnaryLog2 e q s
  | .vecUnaryRecip e q => Sys2Proof.Machine.execVecUnaryRecip e q s
  | .vecUnaryRsqrt e q => Sys2Proof.Machine.execVecUnaryRsqrt e q s
  | .vecUnarySqrt e q => Sys2Proof.Machine.execVecUnarySqrt e q s
  | .vecUnaryTanh e q => Sys2Proof.Machine.execVecUnaryTanh e q s
  | .vecUnarySigmoid e q => Sys2Proof.Machine.execVecUnarySigmoid e q s
  | .vecUnaryGeluTanh e q => Sys2Proof.Machine.execVecUnaryGeluTanh e q s
  | .vecUnarySilu e q => Sys2Proof.Machine.execVecUnarySilu e q s
  | .vecReduceMax e q => Sys2Proof.Machine.execVecReduceMax e q s
  | .vecReduceMin e q => Sys2Proof.Machine.execVecReduceMin e q s
  | .vecReduceSum e q => Sys2Proof.Machine.execVecReduceSum e q s
  | .vecReduceMaxabs e q => Sys2Proof.Machine.execVecReduceMaxabs e q s
  | .vecReduceSumsq e q => Sys2Proof.Machine.execVecReduceSumsq e q s
  | .vecNormLayer e q => Sys2Proof.Machine.execVecNormLayer e q s
  | .vecNormRms e q => Sys2Proof.Machine.execVecNormRms e q s
  | .vecSoftmax e q => Sys2Proof.Machine.execVecSoftmax e q s
  | .preemptStopSignal e => Sys2Proof.Machine.execPreemptStopSignal e s
  | .queueStopped e q => Sys2Proof.Machine.execQueueStopped e q s
  | .copy engine k => Sys2Proof.Machine.execCopy engine k s
  | .copy3d engine k => Sys2Proof.Machine.execCopy3d engine k s
  | .fill engine k => Sys2Proof.Machine.execFill engine k s
  | .dmaDescriptorComplete engine k => Sys2Proof.Machine.execDmaDescriptorComplete engine k s
  | .tagReturn pool ctx => Sys2Proof.Machine.execTagReturn pool ctx s
  | .preemptSaveComplete ctx => Sys2Proof.Machine.execPreemptSaveComplete ctx s
  | .bestEffortPlacement => Sys2Proof.Machine.execBestEffortPlacement s
  | .errorTakeUp => Sys2Proof.Machine.execErrorTakeUp s
  | .teardownScrubComplete ctx => Sys2Proof.Machine.execTeardownScrubComplete ctx s
  | .contextFaultedEntry ctx => Sys2Proof.Machine.execContextFaultedEntry ctx s
  | .deviceFreeze cause => Sys2Proof.Machine.execDeviceFreeze cause s
  | .watchdogExpiry => Sys2Proof.Machine.execWatchdogExpiry s
  | .carryAreaWritten => Sys2Proof.Machine.execCarryAreaWritten s
  | .correctedWriteBack mem unit word => Sys2Proof.Machine.execCorrectedWriteBack mem unit word s
  | .onchipScrub mem unit => Sys2Proof.Machine.execOnchipScrub mem unit s
  | .macroRetirement mem unit => Sys2Proof.Machine.execMacroRetirement mem unit s
  | .splitWindowEnd pct => Sys2Proof.Machine.execSplitWindowEnd pct s
  | .lpddr5Read agent stream addr len => Sys2Proof.Machine.execLpddr5Read agent stream addr len s
  | .lpddr5Write agent stream addr bytes => Sys2Proof.Machine.execLpddr5Write agent stream addr bytes s
  | .lpddr5PartialWrite agent stream addr bytes => Sys2Proof.Machine.execLpddr5PartialWrite agent stream addr bytes s
  | .perBankRefresh c rank bank => Sys2Proof.Machine.execPerBankRefresh c rank bank s
  | .mr4Poll c field => Sys2Proof.Machine.execMr4Poll c field s
  | .neighbourRefresh c rank bank row => Sys2Proof.Machine.execNeighbourRefresh c rank bank row s
  | .nrefreshAdaptWindow tick => Sys2Proof.Machine.execNrefreshAdaptWindow tick s
  | .dqOscTrack c rank count => Sys2Proof.Machine.execDqOscTrack c rank count s
  | .lpddr5Scrub c => Sys2Proof.Machine.execLpddr5Scrub c s
  | .bootImageLoaded => Sys2Proof.Machine.execBootImageLoaded s
  | .selfTestComplete fails => Sys2Proof.Machine.execSelfTestComplete fails s
  | .trainingComplete r => Sys2Proof.Machine.execTrainingComplete r s
  | .identityKeyReady => Sys2Proof.Machine.execIdentityKeyReady s
  | .afeLinkLock p => Sys2Proof.Machine.execAfeLinkLock p s
  | .afeFrame p fcoOk words => Sys2Proof.Machine.execAfeFrame p fcoOk words s
  | .freeRunTrigger p => Sys2Proof.Machine.execFreeRunTrigger p s
  | .encoderCount p onB => Sys2Proof.Machine.execEncoderCount p onB s
  | .lineProgramEnd p => Sys2Proof.Machine.execLineProgramEnd p s
  | .lineComplete p => Sys2Proof.Machine.execLineComplete p s
  | .pageOpen p => Sys2Proof.Machine.execPageOpen p s
  | .trailingEdgeConfirmed p => Sys2Proof.Machine.execTrailingEdgeConfirmed p s
  | .pageEnd p => Sys2Proof.Machine.execPageEnd p s
  | .pageCapReached p => Sys2Proof.Machine.execPageCapReached p s
  | .captureIdleEnd p => Sys2Proof.Machine.execCaptureIdleEnd p s
  | .geometryFitComplete p => Sys2Proof.Machine.execGeometryFitComplete p s
  | .lineStoreAccepted p => Sys2Proof.Machine.execLineStoreAccepted p s
  | .calibrationComplete p => Sys2Proof.Machine.execCalibrationComplete p s
  | .viewReadComplete item => Sys2Proof.Machine.execViewReadComplete item s
  | .headerPassComplete item view r => Sys2Proof.Machine.execHeaderPassComplete item view r s
  | .viewDecodeComplete item view r => Sys2Proof.Machine.execViewDecodeComplete item view r s
  | .decodeBudgetExpiry item => Sys2Proof.Machine.execDecodeBudgetExpiry item s
  | .livePictureDecoded stream r => Sys2Proof.Machine.execLivePictureDecoded stream r s
  | .primerItemComplete item => Sys2Proof.Machine.execPrimerItemComplete item s
  | .batchAgeTimeout ctx bucket => Sys2Proof.Machine.execBatchAgeTimeout ctx bucket s
  | .batchDispatch ctx bucket => Sys2Proof.Machine.execBatchDispatch ctx bucket s
  | .decoderStepStart ctx => Sys2Proof.Machine.execDecoderStepStart ctx s
  | .pageWalk ctx site seq page => Sys2Proof.Machine.execPageWalk ctx site seq page s
  | .fieldEndVerdict ctx seq => Sys2Proof.Machine.execFieldEndVerdict ctx seq s
  | .deadEndReport ctx seq => Sys2Proof.Machine.execDeadEndReport ctx seq s
  | .maskBuildComplete ctx => Sys2Proof.Machine.execMaskBuildComplete ctx s
  | .textJobComplete stream => Sys2Proof.Machine.execTextJobComplete stream s
  | .stretcherLinkTrainingComplete link peer => Sys2Proof.Machine.execStretcherLinkTrainingComplete link peer s
  | .ringDiscoveryFlit link f => Sys2Proof.Machine.execRingDiscoveryFlit link f s
  | .jobConfirmFlit link f => Sys2Proof.Machine.execJobConfirmFlit link f s
  | .ringJobConfirmTimeout ctx => Sys2Proof.Machine.execRingJobConfirmTimeout ctx s
  | .ringBlockArrival link chan data => Sys2Proof.Machine.execRingBlockArrival link chan data s
  | .creditReturn link chan => Sys2Proof.Machine.execCreditReturn link chan s
  | .ringBarrierToken link f => Sys2Proof.Machine.execRingBarrierToken link f s
  | .ringAbortNotice link job => Sys2Proof.Machine.execRingAbortNotice link job s
  | .linkRetrain link => Sys2Proof.Machine.execLinkRetrain link s
  | .linkRetrainComplete link ok => Sys2Proof.Machine.execLinkRetrainComplete link ok s
  | .heartbeatSend => Sys2Proof.Machine.execHeartbeatSend s
  | .heartbeat frozen => Sys2Proof.Machine.execHeartbeat frozen s
  | .heartbeatLoss => Sys2Proof.Machine.execHeartbeatLoss s
  | .identityChallenge link m => Sys2Proof.Machine.execIdentityChallenge link m s
  | .mirrorPairTimeout => Sys2Proof.Machine.execMirrorPairTimeout s
  | .mirrorMessage m => Sys2Proof.Machine.execMirrorMessage m s
  | .mirrorAck n => Sys2Proof.Machine.execMirrorAck n s
  | .debugPortAccess a => Sys2Proof.Machine.execDebugPortAccess a s
  | .wck2ckSyncLoss c repaired => Sys2Proof.Machine.execWck2ckSyncLoss c repaired s
  | .aonSupplyLoss => Sys2Proof.Machine.execAonSupplyLoss s
  | .resumeRestoreComplete ctx => Sys2Proof.Machine.execResumeRestoreComplete ctx s

end Sys2Proof.Machine
end

