-- ==== Sys2Proof/Machine/Tick.lean ====
section
/-! DEFINITION. Machine/Tick.lean: what the block does when no command waits: one cycle of the AON oscillator passes, and
firmware does what has no row of its own (R377, R475, R488, R489; log 4). -/

namespace Sys2Proof.Machine

/-- Device time over `n` units of 10^-12 ns. -/
def Clock.pass (k : Clock) (n : Nat) : Clock :=
  { k with time := (k.time + (k.frac + n) / 1000000000000) % 2 ^ 64, frac := (k.frac + n) % 1000000000000 }

/-- Device time over one cycle of the AON oscillator, 30,517.578125 ns, at the rate of R489: within 500 ppm until the error
is zero, or at half rate until it is 10 µs or less (log 4). -/
def Clock.tick (k : Clock) : Clock :=
  if k.half then
    let e := k.err - 15258
    let slew := e ≤ 10000
    { (k.pass 15258789062500000) with
      err := e, half := !slew, slewPpm := if slew then (if e = 0 then 0 else if 0 < e then -500 else 500) else 0 }
  else
    let d := min 15 k.err.natAbs
    let n := if 0 < k.err then 30517578125000000 - d * 1000000000000 else 30517578125000000 + d * 1000000000000
    let e := if 0 < k.err then k.err - d else k.err + d
    { (k.pass n) with err := e, slewPpm := if e = 0 then 0 else k.slewPpm }

/-- The clocks run on: the AON time counter while VDD_AON is present, device time while the control clock runs (R475,
R488). -/
def State.passTime (s : State) : State :=
  let s := if s.aon.powered then s.setAon { s.aon with ticks := (s.aon.ticks + 1) % 2 ^ 48 } else s
  if s.alive && !s.aonServes then s.setClk s.clk.tick else s

/-- The seal core has handed control to the image, and self-test begins (R343, R458, R459). -/
def State.beginTest (s : State) : State :=
  if s.alive && !s.aonServes && s.boot.stage == 2 then s.setBoot { s.boot with stage := 3 } else s

/-- Contexts whose work has ended settle: decoder steps whose last queue has run END (R311). -/
def State.settleCtxs (s : State) : State :=
  (s.ctxs.filter (fun c => c.2.busy)).foldl (fun (s : State) c => s.settle c.1) s

/-- One tick: time passes, and firmware looks round (log 4). -/
def tick (s : State) : State :=
  let s := s.passTime.beginTest
  let s := (List.range 40).foldl (fun (s : State) ch => s.takeStray ch) s
  if s.works then s.settleCtxs.checkDrains.decodeStart.feedHolds else s

end Sys2Proof.Machine
end

