-- ==== Sys2Proof/WellFormed.lean ====
section
/-! DEFINITION. WellFormed.lean: the operand ranges of the commands, as the spec numbers what they name. A command outside
them names nothing of the block. -/

namespace Sys2Proof

/-- Mailbox channels: MBOX_0 to MBOX_31 and SMBOX_0 to SMBOX_7 (R346). -/
def mboxOk (ch : Nat) : Bool := ch < 40

/-- Secure mailbox channels (R346, R384). -/
def smboxOk (ch : Nat) : Bool := 32 ≤ ch && ch < 40

/-- BAR0, BAR2 or BAR4 of a function (R340). -/
def barOk (bar : Nat) : Bool := bar == 0 || bar == 2 || bar == 4

/-- A register offset is a multiple of 4. -/
def offOk (off : Nat) : Bool := off % 4 == 0

/-- Channels of ring jobs: 2 to 15 (R416). -/
def ringChanOk (ch : Nat) : Bool := 2 ≤ ch && ch < 16

/-- Words of one AFE frame: at most eight lanes (R250). -/
def wordsOk (w : List W16) : Bool := 1 ≤ w.length && w.length ≤ 8

/-- Causes of a device freeze: 1 to 5 (R447). -/
def causeOk (c : Nat) : Bool := 1 ≤ c && c ≤ 5

/-- A result of self-test: 79 column groups and four spare rows (R438). -/
def macroOk (t : MacroTest) : Bool := t.badSpareRows ≤ 4 && t.rows.all (fun r => r.2.all (fun g => g < 79))

/-- A result of training: the failing rows lie in a bank (R394). -/
def trainOk (r : TrainResult) : Bool :=
  r.densityCode < 8 && r.ranksM1 < 2 && r.failing.all (fun x => x.1.chan < 16 && x.1.rank < 2 && x.1.bank < 16)

/-- A decoded picture: one or three planes that hold its pixels (R285). -/
def pictureOk (p : Picture) : Bool :=
  (p.planes.length == 1 || p.planes.length == 3) && p.planes.all (fun l => l.length == p.width * p.height)

/-- The pictures of a decode result. -/
def resultOk (r : DecodeResult) : Bool :=
  match r with
  | .decoded ps => ps.all pictureOk
  | .corrupt => true
  | .truncated ps => ps.all pictureOk

/-- A link peer: digests of 64 bytes (R415). -/
def peerOk (p : LinkPeer) : Bool := p.identity.length == 64 && p.owner.length == 64 && p.minVer ≤ p.maxVer

/-- A confirmation flit: two to eight devices (R420). -/
def confirmOk (f : ConfirmFlit) : Bool := 2 ≤ f.n && f.n ≤ 8 && f.index < f.n && f.hops < f.n

/-- A challenge message: a nonce of 32 bytes, a key of 1,793 and a signature of 1,280 (R424, R455). -/
def challengeOk (m : ChallengeMsg) : Bool :=
  match m with
  | .nonce n _ => n.length == 32
  | .signature k s => k.length == 1793 && s.length == 1280
  | .ends st => st < 256

/-- A command names what the block has. -/
def Instr.wf (i : Instr) : Bool :=
  match i with
  | .powerOnReset => true
  | .deviceReset _ => true
  | .releaseOfReset => true
  | .corePgRise bootSrc i3cAddr => bootSrc < 2 && i3cAddr < 128
  | .firmwareRestart => true
  | .sealCoreRestart => true
  | .thermalTrip => true
  | .thermalTripRelease => true
  | .comparatorTrip n => n < 4
  | .comparatorRearm n => n < 4
  | .aonTimerMature _ _ => true
  | .wakeSequenceComplete => true
  | .idleEntry => true
  | .sleepEntry => true
  | .thermalSample _ _ _ _ _ => true
  | .ptmDialogue _ => true
  | .deviceTimeLoRead => true
  | .wakeCauseClear v => v < 2 ^ 32
  | .eventStatusClear fn v => fn < 2 && v < 2 ^ 32
  | .dbErrorCountRead => true
  | .registerWrite fn bar off v => fn < 2 && barOk bar && offOk off && v < 2 ^ 32
  | .pcieLinkTraining _ _ => true
  | .flrPf0 => true
  | .flrPf1 => true
  | .busMasterEnableWrite fn _ => fn < 2
  | .pciPowerStateWrite fn _ _ => fn < 2
  | .msixUnmask fn vec => fn < 2 && vec < 2048
  | .hostReadError ctx => ctx < 256
  | .i3cTargetReset => true
  | .i3cPrivateWrite _ => true
  | .sqDoorbellWrite q v => q < 16384 && v < 2 ^ 32
  | .cqDoorbellWrite q v => q < 16384 && v < 2 ^ 32
  | .sample q => q < 16384
  | .text q => q < 16384
  | .streamData q => q < 16384
  | .marker q => q < 16384
  | .recordPost q => q < 16384
  | .msixCoalesceTimeout q => q < 16384
  | .mbDoorbellWrite path ch v => path < 2 && mboxOk ch && v < 2 ^ 32
  | .mbAckWrite path ch v => path < 2 && mboxOk ch && v < 2 ^ 32
  | .messageFragment ch => mboxOk ch
  | .d2hPost ch => mboxOk ch
  | .sessionOpen ch => mboxOk ch
  | .sessionClose ch => mboxOk ch
  | .contextCreate ch => mboxOk ch
  | .contextStart ch => mboxOk ch
  | .contextDestroyDrain ch => mboxOk ch
  | .contextDestroyAbort ch => mboxOk ch
  | .contextQuery ch => mboxOk ch
  | .windowRegister ch => mboxOk ch
  | .windowRelease ch => mboxOk ch
  | .regionAlloc ch => mboxOk ch
  | .memCopyToDevice ch => mboxOk ch
  | .memCopyToHost ch => mboxOk ch
  | .memCopyComplete ch _ => mboxOk ch
  | .bundleLoad ch => mboxOk ch
  | .lexiconLoad ch => mboxOk ch
  | .envelopeCheckComplete ch _ => mboxOk ch
  | .lexiconBind ch => mboxOk ch
  | .legacyRootSet ch => mboxOk ch
  | .queueBindSq ch => mboxOk ch
  | .queueBindCq ch => mboxOk ch
  | .queueUnbind ch => mboxOk ch
  | .textStreamOpen ch => mboxOk ch
  | .textStreamClose ch => mboxOk ch
  | .portBind ch => mboxOk ch
  | .portUnbind ch => mboxOk ch
  | .portConfig ch => mboxOk ch
  | .captureStart ch => mboxOk ch
  | .captureStop ch => mboxOk ch
  | .calibrateDark ch => mboxOk ch
  | .calibrateWhite ch => mboxOk ch
  | .calibTableLoadDark ch => mboxOk ch
  | .calibTableLoadGain ch => mboxOk ch
  | .streamBind ch => mboxOk ch
  | .streamUnbind ch => mboxOk ch
  | .primerProfileSet ch => mboxOk ch
  | .kvTlbInvalidateContext ch => mboxOk ch
  | .kvTlbInvalidateSite ch => mboxOk ch
  | .kvTlbInvalidateRange ch => mboxOk ch
  | .ringJobSetup ch => mboxOk ch
  | .counterQueryContext ch => mboxOk ch
  | .counterQueryPort ch => mboxOk ch
  | .outstandingReport ch => mboxOk ch
  | .mirrorPairActive ch => mboxOk ch
  | .mirrorPairStandby ch => mboxOk ch
  | .mirrorUnpair ch => mboxOk ch
  | .mirrorTakeover ch => mboxOk ch
  | .secureStatus ch => smboxOk ch
  | .identityCertGet ch => smboxOk ch
  | .attestQuote ch => smboxOk ch
  | .ownerKeyEnrol ch => smboxOk ch
  | .imagePush ch => smboxOk ch
  | .imageCommit ch => smboxOk ch
  | .flashWriteComplete _ => true
  | .easelDoorbell e q off => e < 64 && q < 16 && off % 64 == 0
  | .nop e q => e < 64 && q < 16
  | .matmul e q => e < 64 && q < 16
  | .accDrain e q => e < 64 && q < 16
  | .gessoExpand e q => e < 64 && q < 16
  | .poolMax e q => e < 64 && q < 16
  | .poolAvg e q => e < 64 && q < 16
  | .forward e q => e < 64 && q < 16
  | .finalise e q => e < 64 && q < 16
  | .merge e q => e < 64 && q < 16
  | .backwardPrep e q => e < 64 && q < 16
  | .backward e q => e < 64 && q < 16
  | .convertFirstPass e q => e < 64 && q < 16
  | .convertFallback e q => e < 64 && q < 16
  | .convertFixed e q => e < 64 && q < 16
  | .convertDecode e q => e < 64 && q < 16
  | .rotary e q => e < 64 && q < 16
  | .tallyAcquire e q => e < 64 && q < 16
  | .tallyWait e q => e < 64 && q < 16
  | .tallyRelease e q => e < 64 && q < 16
  | .tallyPost ctx tally n => ctx < 256 && tally < 16384 && n < 65536
  | .tallySet tally n => tally < 16384 && n < 65536
  | .tallyRead tally => tally < 16384
  | .barrierArrive e q => e < 64 && q < 16
  | .barrierComplete atelier chan => atelier < 8 && chan < 8
  | .deviceBarrierComplete chan => chan < 32
  | .dma e q => e < 64 && q < 16
  | .endCmd e q => e < 64 && q < 16
  | .vecBinaryAdd e q => e < 64 && q < 16
  | .vecBinarySub e q => e < 64 && q < 16
  | .vecBinaryMul e q => e < 64 && q < 16
  | .vecBinaryMax e q => e < 64 && q < 16
  | .vecBinaryMin e q => e < 64 && q < 16
  | .vecBinaryAddScalar e q => e < 64 && q < 16
  | .vecBinaryMulScalar e q => e < 64 && q < 16
  | .vecUnaryCopy e q => e < 64 && q < 16
  | .vecUnaryAbs e q => e < 64 && q < 16
  | .vecUnaryNeg e q => e < 64 && q < 16
  | .vecUnaryRelu e q => e < 64 && q < 16
  | .vecUnaryExp2 e q => e < 64 && q < 16
  | .vecUnaryExp e q => e < 64 && q < 16
  | .vecUnaryLog2 e q => e < 64 && q < 16
  | .vecUnaryRecip e q => e < 64 && q < 16
  | .vecUnaryRsqrt e q => e < 64 && q < 16
  | .vecUnarySqrt e q => e < 64 && q < 16
  | .vecUnaryTanh e q => e < 64 && q < 16
  | .vecUnarySigmoid e q => e < 64 && q < 16
  | .vecUnaryGeluTanh e q => e < 64 && q < 16
  | .vecUnarySilu e q => e < 64 && q < 16
  | .vecReduceMax e q => e < 64 && q < 16
  | .vecReduceMin e q => e < 64 && q < 16
  | .vecReduceSum e q => e < 64 && q < 16
  | .vecReduceMaxabs e q => e < 64 && q < 16
  | .vecReduceSumsq e q => e < 64 && q < 16
  | .vecNormLayer e q => e < 64 && q < 16
  | .vecNormRms e q => e < 64 && q < 16
  | .vecSoftmax e q => e < 64 && q < 16
  | .preemptStopSignal e => e < 64
  | .queueStopped e q => e < 64 && q < 16
  | .copy engine _ => engine < 9
  | .copy3d engine _ => engine < 9
  | .fill engine _ => engine < 9
  | .dmaDescriptorComplete engine _ => engine < 9
  | .tagReturn pool ctx => pool < 3 && ctx < 256
  | .preemptSaveComplete ctx => ctx < 256
  | .bestEffortPlacement => true
  | .errorTakeUp => true
  | .teardownScrubComplete ctx => ctx < 256
  | .contextFaultedEntry ctx => ctx < 256
  | .deviceFreeze cause => causeOk cause
  | .watchdogExpiry => true
  | .carryAreaWritten => true
  | .correctedWriteBack _ _ _ => true
  | .onchipScrub _ _ => true
  | .macroRetirement _ _ => true
  | .splitWindowEnd pct => pct ≤ 100
  | .lpddr5Read agent _ _ _ => agent < 256
  | .lpddr5Write agent _ _ _ => agent < 256
  | .lpddr5PartialWrite agent _ _ _ => agent < 256
  | .perBankRefresh c rank bank => c < 16 && rank < 2 && bank < 16
  | .mr4Poll c field => c < 16 && field < 32
  | .neighbourRefresh c rank bank _ => c < 16 && rank < 2 && bank < 16
  | .nrefreshAdaptWindow _ => true
  | .dqOscTrack c rank _ => c < 16 && rank < 2
  | .lpddr5Scrub c => c < 16
  | .bootImageLoaded => true
  | .selfTestComplete fails => fails.all macroOk
  | .trainingComplete r => trainOk r
  | .identityKeyReady => true
  | .afeLinkLock p => p < 4
  | .afeFrame p _ words => p < 4 && wordsOk words
  | .freeRunTrigger p => p < 4
  | .encoderCount p _ => p < 4
  | .lineProgramEnd p => p < 4
  | .lineComplete p => p < 4
  | .pageOpen p => p < 4
  | .trailingEdgeConfirmed p => p < 4
  | .pageEnd p => p < 4
  | .pageCapReached p => p < 4
  | .captureIdleEnd p => p < 4
  | .geometryFitComplete p => p < 4
  | .lineStoreAccepted p => p < 4
  | .calibrationComplete p => p < 4
  | .viewReadComplete _ => true
  | .headerPassComplete _ _ _ => true
  | .viewDecodeComplete _ _ r => resultOk r
  | .decodeBudgetExpiry _ => true
  | .livePictureDecoded stream r => stream < 64 && resultOk r
  | .primerItemComplete _ => true
  | .batchAgeTimeout ctx bucket => ctx < 256 && bucket < 8
  | .batchDispatch ctx bucket => ctx < 256 && bucket < 8
  | .decoderStepStart ctx => ctx < 256
  | .pageWalk ctx _ _ _ => ctx < 256
  | .fieldEndVerdict ctx _ => ctx < 256
  | .deadEndReport ctx _ => ctx < 256
  | .maskBuildComplete ctx => ctx < 256
  | .textJobComplete stream => stream < 256
  | .stretcherLinkTrainingComplete link peer => link < 2 && peerOk peer
  | .ringDiscoveryFlit link f => link < 2 && f.hops < 8
  | .jobConfirmFlit link f => link < 2 && confirmOk f
  | .ringJobConfirmTimeout ctx => ctx < 256
  | .ringBlockArrival link chan _ => link < 2 && ringChanOk chan
  | .creditReturn link chan => link < 2 && ringChanOk chan
  | .ringBarrierToken link _ => link < 2
  | .ringAbortNotice link _ => link < 2
  | .linkRetrain link => link < 2
  | .linkRetrainComplete link _ => link < 2
  | .heartbeatSend => true
  | .heartbeat _ => true
  | .heartbeatLoss => true
  | .identityChallenge link m => link < 2 && challengeOk m
  | .mirrorPairTimeout => true
  | .mirrorMessage _ => true
  | .mirrorAck _ => true
  | .debugPortAccess _ => true
  | .wck2ckSyncLoss c _ => c < 16
  | .aonSupplyLoss => true
  | .resumeRestoreComplete ctx => ctx < 256

end Sys2Proof
end

