-- ==== Sys2Proof/Safety.lean ====
section
/-! DEFINITION. Safety.lean: what counts as a safe step and a safe state, in the terms that claims use. -/

namespace Sys2Proof.Safety

open Sys2Proof.Machine

/-- A command completes: exec answers a next state. -/
def Completes (i : Instr) (s : State) : Prop := ∃ t, exec i s = .next t

/-- The command at the front of the queue completes, or the block idles. -/
def StepCompletes (s : State) : Prop := ∃ t, step s = .next t

/-- Every command that waits names what the block has. -/
def QueueWf (s : State) : Prop := ∀ i ∈ s.pending, i.wf = true

/-- Fuse bits only ever go from 0 to 1, and what Birintia writes at manufacture stays (R453). -/
def FusesGrow (a b : Fuses) : Prop :=
  b.uid = a.uid ∧ b.rootDigest = a.rootDigest ∧ b.identitySeed = a.identitySeed ∧ b.cert = a.cert ∧
  a.rollback ≤ b.rollback ∧ (∀ k, a.ownerDigest.testBit k = true → b.ownerDigest.testBit k = true) ∧
  (a.ownerLock = true → b.ownerLock = true) ∧ (a.debugLock = true → b.debugLock = true)

/-- An image that the rollback counter lets run: its rollback version is in range and no lower than the counter (R457,
R458, R459). -/
def Runnable (f : Fuses) (b : Bytes) : Prop := f.rollback ≤ fwRollback b ∧ fwRollback b ≤ 64

/-- No image older than the rollback counter is in the retained region, or on its way there (R457 to R462):
the counter is in its range; the image that runs, if there is one, is runnable; in stages ROM and RECOVERY there is none;
and while a committed image that will start is being written to flash, from control SRAM, none runs yet, and it is runnable. -/
def NoRollback (s : State) : Prop :=
  s.fuse.rollback ≤ 64 ∧
  (∀ b, s.boot.image = some b → Runnable s.fuse b) ∧
  (s.boot.stage ≤ 1 → s.boot.image = none) ∧
  (∀ ch seq, s.boot.flashBusy = some (ch, seq, true) → s.boot.stage ≠ 0 ∧ s.boot.image = none ∧ s.boot.stagingAt = none ∧
    Runnable s.fuse ((memBytes s.boot.staging 0 s.boot.stagingTotal).take
      (fwLen (memBytes s.boot.staging 0 s.boot.stagingTotal))))

/-! ### Requests (R370, R371, R375 to R377) -/

/-- A request waits in MB_H2D of channel `ch`, in one piece: opcode `op`, payload `p`, in session `x`. It passes checks
1 to 5 of R377 and the header's part of check 7. -/
def Asks (s : State) (ch op : Nat) (p : Bytes) (x : Session) : Prop :=
  s.takes ch = true ∧ (s.msg ch).2 = p ∧ hOp (s.msg ch).1 = op ∧ tabFind s.mbox.session ch = some x ∧
  hSeq (s.msg ch).1 = x.nextSeq ∧ hSession (s.msg ch).1 = handleOf ch ∧ s.opCheck ch x.minor op = stOK ∧
  hdrOk (s.msg ch).1 = true ∧ hMore (s.msg ch).1 = false ∧ hFrag (s.msg ch).1 = 0 ∧
  tabHas s.mbox.gather ch = false ∧ tabHas s.mbox.whole ch = false

/-- The state after a request is taken: its window is free again, its number is used, and an IDLE device is ACTIVE. -/
def asked (s : State) (ch : Nat) : State :=
  { s with
    mbox := { s.mbox with
      win := tabSet {} s.mbox.win ch { s.win ch with pending := false },
      session := tabUpd s.mbox.session ch (fun x => { x with nextSeq := (x.nextSeq + 1) % 65536 }) },
    pwr := if s.pwr.state = 1 then { s.pwr with state := 0 } else s.pwr }

/-- The state after a request is taken and its reply is ready, and nothing else has changed. -/
def replied (s : State) (ch seq op status : Nat) (payload : Bytes) : State :=
  { asked s ch with
    mbox := { (asked s ch).mbox with
      taken := s.mbox.taken.filter (fun r => !(r.ch == ch && r.seq == seq)),
      ready := tabMod [] s.mbox.ready ch (insertReady
        { opcode := op, reply := true, status := status, seq := seq, payload := payload, key := 0, frag := 0,
          ready := s.clk.time }) } }

/-- The state after a request that fails one of checks 2 to 7 of R377 is answered, and nothing else has changed; but an
OWNER_KEY_ENROL of a secure channel uses up its enrol nonce, whatever is answered (R466). -/
def refused (s : State) (ch seq op status : Nat) : State :=
  { asked s ch with
    boot := if 32 ≤ ch && op == 0x0103 then { s.boot with nonces := tabDel s.boot.nonces ch } else s.boot
    mbox := { (asked s ch).mbox with
      ready := tabMod [] s.mbox.ready ch (insertReady
        { opcode := op, reply := true, status := status, seq := seq, payload := [], key := 0, frag := 0,
          ready := s.clk.time }) } }

/-- The state after a request is taken and waits for its deferred reply, and nothing else has changed. -/
def deferred (s : State) (ch seq op : Nat) (payload : Bytes) (ctx : Option Nat) : State :=
  { asked s ch with
    mbox := { (asked s ch).mbox with
      taken := s.mbox.taken ++ [{ ch := ch, seq := seq, opcode := op, payload := payload, ctx := ctx }] } }

/-- External memory after accesses that met no error: the data, its owners and the errors it holds are as they were; the rows
that stand open, the counts of activates and the check caches have moved on (R399, R405). -/
def LpServed (a b : Lpddr) : Prop := b = { a with banks := b.banks, refreshed := b.refreshed, chan := b.chan }

/-! ### Commands of an easel (R60 to R66) -/

/-- What commands read and write, but for the queues, tallies and barriers that run them: the fabric's memories, the
registers and memories of every other part of the machine, and the flipped bits of on-chip words. -/
structure Store where
  palette : Mem
  canvas : Mem
  acc : Tab Nat
  accKind : Tab Nat
  flips : List (WordAt × Nat)
  hostMem : Mem
  lp : Lpddr
  hq : Tab HwQueue
  ports : Tab Port
  intake : Intake
  text : TextSt
  sten : StenSt
  read : ReadSt
  ring : Rings
  pair : Pair
  sched : Sched
  fuse : Fuses
  clk : Clock
  aon : Aon
  deriving DecidableEq, Repr

/-- The store of a state. -/
def store (s : State) : Store :=
  { palette := s.fab.palette, canvas := s.fab.canvas, acc := s.fab.acc, accKind := s.fab.accKind, flips := s.err.sram,
    hostMem := s.hostMem, lp := s.lp, hq := s.hq, ports := s.ports, intake := s.intake, text := s.text, sten := s.sten,
    read := s.read, ring := s.ring, pair := s.pair, sched := s.sched, fuse := s.fuse, clk := s.clk, aon := s.aon }

/-- Queue `q` of easel `e`, which context `c` has, is at the accepted command `w`, and may run it: its header acquire is
done, no stop signal has come, it is its turn for the units that it needs (R61), no vector register that it uses has wrong
parity, and no on-chip word has a flipped bit. -/
def Runs (s : State) (c e q w : Nat) : Prop :=
  s.works = true ∧ q < 16 ∧ s.easelCtx e = some c ∧ (s.queue e q).cmd = some w ∧ (s.queue e q).run = .running ∧
  (s.queue e q).wait = none ∧ (s.queue e q).bad = false ∧ (s.queue e q).acquired = true ∧
  s.fab.stop.contains e = false ∧ s.turn e q w = true ∧ s.vecBad e w = false ∧ s.err.sram = []

/-- Byte strings written one after another, at offsets from a base. -/
def putAll (m : Mem) (base : Nat) (l : List (Nat × Bytes)) : Mem := l.foldl (fun m x => memPut m (base + x.1) x.2) m

/-- The store after an easel wrote byte strings to its palette, or to its atelier's canvas. -/
def wroteAll (b : Store) (e : Nat) (canvas : Bool) (l : List (Nat × Bytes)) : Store :=
  if canvas then { b with canvas := putAll b.canvas (e / 8 * 2 ^ 22) l } else { b with palette := putAll b.palette (e * 2 ^ 20) l }

/-- The glaze operand that a command names, or none where it names none: `on` is its enable bit, `limit` the channels it may list;
its header and index list are in bounds and well-formed (R125, R126). -/
def GlazeAt (s : State) (c e : Nat) (on : Bool) (addr limit : Nat) : Option Glaze → Prop
  | none => on = false
  | some z =>
    let h := leNat (s.palBytes e addr 64)
    let l := s.palBytes e (addr + 64) (glazeListLen (glazeN h))
    on = true ∧ s.rangeOk c e ⟨false, addr, 64⟩ = true ∧ glazeHdrOk h limit = true ∧
    s.rangeOk c e ⟨false, addr + 64, glazeListLen (glazeN h)⟩ = true ∧ glazeListOk (glazeN h) limit l = true ∧
    z = { act := fld h 63 32, actStride := fld h 95 64, wt := fld h 127 96, wtStride := fld h 159 128,
          list := glazeList (glazeN h) l }

/-- Bytes of a palette outside a range are those of another memory. -/
def SameBut (m n : Mem) (lo len : Nat) : Prop := ∀ a, (a < lo ∨ lo + len ≤ a) → memRead m a = memRead n a

/-- The state in which the body of a command runs: the device has left IDLE, and the command's units note its queue (R61). -/
def onUnit (s : State) (e q w : Nat) : State := s.leaveIdle.serve e q w

end Sys2Proof.Safety
end

