-- ==== Sys2Proof/Certificates/Slice0/Obligations.lean ====
section
/-! DEFINITION. Certificates/Slice0/Obligations.lean: the statements for the provers, from the numbered rules of spec/. -/

open Sys2Proof Sys2Proof.Machine Sys2Proof.Safety

/-- A step takes the command at the front of the queue and runs it with the queue's rest; the queue is first in, first
out. With an empty queue the block's clock runs on (the model's choice, log 4). -/
def Obligations.StepRunsFront : Prop :=
  (∀ (s : State) (c : Instr) (r : List Instr), s.pending = c :: r → step s = exec c (s.setPending r)) ∧
  (∀ (s : State) (c : Instr) (r : List Instr), step (s.setPending (c :: r)) = exec c (s.setPending r)) ∧
  (∀ s : State, s.pending = [] → step s = .next (tick s))

/-- Every command answers a next state, in every state, and touches no command that waits: no fault, no refusal. -/
def Obligations.EveryCommandCompletesAndKeepsQueue : Prop :=
  ∀ (c : Instr) (s : State), ∃ t, exec c s = .next t ∧ t.pending = s.pending

/-- R453: Bits change only from 0 to 1. No command undoes a fuse, not even a power-on reset, and what Birintia writes at
manufacture stays. -/
def Obligations.FusesOnlyGrow : Prop :=
  ∀ (c : Instr) (s t : State), exec c s = .next t → FusesGrow s.fuse t.fuse

/-- No step puts an image into the retained region, or on its way there, that is older than the rollback counter, whatever
commands come (R457 to R462). -/
def Obligations.NoRollbackKept : Prop :=
  ∀ s t : State, NoRollback s → step s = .next t → NoRollback t

/-- The state after power-on reset meets the invariant of rollback. -/
def Obligations.NoRollbackAtReset : Prop := NoRollback State.reset

/-- After a power-on reset: the control SRAM and every unit are cleared, the device runs in stage ROM of boot with no
image, both functions' Bus Master Enable is 0, no interrupt is enabled or pending, no mailbox holds a message, no queue
is bound, no context exists, no port is bound, no error is recorded, device time is zero, and the cause is POWER_ON. -/
def Obligations.ResetLeaves : Prop :=
  State.reset.boot.stage = 0 ∧ State.reset.boot.image = none ∧ State.reset.pci.bme0 = false ∧
  State.reset.pci.bme1 = false ∧ State.reset.pci.evEnable0 = 0 ∧ State.reset.pci.evStatus0 = 0 ∧
  State.reset.pci.pend = [] ∧ State.reset.pci.dbErrorCount = 0 ∧ (∀ ch, State.reset.win ch = {}) ∧
  State.reset.mbox.session = [] ∧ State.reset.mbox.taken = [] ∧ State.reset.hq = [] ∧ State.reset.ctxs = [] ∧
  (∀ p, State.reset.port p = {}) ∧ (State.reset.port 0).st = .off ∧ State.reset.err = {} ∧ errSummary State.reset.err = 0 ∧
  State.reset.clk.time = 0 ∧ State.reset.aon.ticks = 0 ∧ State.reset.aon.wakeCause = 0 ∧ State.reset.pwr.cause = 0 ∧
  State.reset.pwr.coreEn = false ∧ Memory.wf State.reset.lp.mem = true ∧ State.reset.lp.mem = [] ∧
  State.reset.pending = []

/-- A power-on reset clears everything but the fuses; VDD_AON lost, the block is in the same state with nothing that runs
until the supply returns (R493, R506). What is outside the block stays: the commands that wait, host memory, the serial
flash unless it was being written, and the model's own records.

A device reset clears everything that the AON does not hold and ends a freeze. The fuses, the AON's counter,
comparators and WAKE_CAUSE, device time and the carry area stay; CORE_EN falls; RESET_CAUSE will read the reset's cause,
and after_freeze where the device was frozen. A thermal trip is such a reset, holds the device in it, and drives
THERMTRIP_N low. -/
def Obligations.ResetsClear : Prop :=
  (
  ∀ s : State,
    let flash := if s.boot.flashBusy.isSome then none else s.boot.flash
    exec .powerOnReset s = .next { State.reset with
      pending := s.pending, fuse := s.fuse, hostMem := s.hostMem, free := s.free, out := s.out, boot := { flash := flash } } ∧
    ∃ t, exec .aonSupplyLoss s = .next t ∧ t.fuse = s.fuse ∧ t.aon = { powered := false } ∧ t.alive = false ∧
      t = { State.reset with
        pending := s.pending, fuse := s.fuse, hostMem := s.hostMem, free := s.free, out := s.out,
        boot := { flash := flash }, aon := { powered := false } }) ∧
  (
  (∀ (s : State) (cause : ResetCause), s.aon.powered = true → s.alive = true →
    ∃ t, exec (.deviceReset cause) s = .next t ∧
      t = { State.reset with
        pending := s.pending, fuse := s.fuse, hostMem := s.hostMem, free := s.free, out := .coreEn false :: s.out,
        aon := t.aon, pwr := t.pwr, clk := { time := s.clk.time }, boot := t.boot,
        pci := { pmeEn0 := s.pci.pmeEn0 && !t.pwr.perstN } } ∧
      t.aon = { powered := true, ticks := s.aon.ticks, tripped := s.aon.tripped, wakeCause := s.aon.wakeCause,
                timerSet := s.aon.timerSet, entryTime := t.aon.entryTime, entryTicks := t.aon.entryTicks } ∧
      t.alive = false ∧ t.err.frozen = false ∧
      t.pwr.nextCause = resetCode cause ∧ t.pwr.nextAfter = s.err.frozen ∧
      t.pwr.resetN = (s.pwr.resetN && cause != .resetPin) ∧ t.pwr.perstN = (s.pwr.perstN && cause != .perst) ∧
      t.boot.stage = 0 ∧ t.boot.image = none ∧ t.boot.reportHeld = s.err.frozen ∧
      (s.err.frozen = true → s.boot.carryValid = true →
        t.boot.report = s.boot.carry ∧ t.boot.reportTotal = s.boot.carryTotal)) ∧
  (∀ s : State, s.aon.powered = true → s.pwr.tripHeld = false → s.alive = true →
    ∃ t, exec .thermalTrip s = .next t ∧ t.fuse = s.fuse ∧ t.clk.time = s.clk.time ∧ t.aon.ticks = s.aon.ticks ∧
      t.pwr.tripHeld = true ∧ t.pwr.nextCause = 4 ∧ t.pwr.nextAfter = s.err.frozen ∧ t.alive = false ∧
      t.err = {} ∧ t.ctxs = [] ∧ t.hq = [] ∧ t.mbox = {} ∧ t.ports = [] ∧ t.fab = {} ∧ t.lp = {} ∧ t.sched = {} ∧
      t.intake = {} ∧ t.text = {} ∧ t.sten = {} ∧ t.read = {} ∧ t.ring = {} ∧ t.pair = {} ∧
      t.out = .thermtrip true :: .coreEn false :: s.out))

/-- With RESET_N and PERST_N high the device asserts CORE_EN, unless a thermal trip still holds it; the trip's release
raises THERMTRIP_N, and CORE_EN if both are high; at the rise of CORE_PG boot begins in stage ROM, or RECOVERY where the
strap says HOST, with RESET_CAUSE written (R456, R485, R492, R494, R502, R503, R506). -/
def Obligations.ReleaseAndBootBegin : Prop :=
  (∀ s : State, s.aon.powered = true → s.pwr.tripHeld = false → s.pwr.coreEn = false → s.pwr.state ≠ 2 →
    exec .releaseOfReset s = .next { s with
      pwr := { s.pwr with resetN := true, perstN := true, coreEn := true }, out := .coreEn true :: s.out }) ∧
  (∀ s : State, s.aon.powered = true → s.pwr.tripHeld = true →
    exec .releaseOfReset s = .next { s with pwr := { s.pwr with resetN := true, perstN := true } }) ∧
  (∀ s : State, s.aon.powered = true → s.pwr.tripHeld = true → s.pwr.resetN = true → s.pwr.perstN = true →
    exec .thermalTripRelease s = .next { s with
      pwr := { s.pwr with tripHeld := false, coreEn := true }, out := .coreEn true :: .thermtrip false :: s.out }) ∧
  (∀ s : State, s.aon.powered = true → s.pwr.tripHeld = true → s.pwr.resetN = false →
    exec .thermalTripRelease s = .next { s with
      pwr := { s.pwr with tripHeld := false }, out := .thermtrip false :: s.out }) ∧
  (∀ (s : State) (bootSrc addr : Nat), s.aon.powered = true → s.pwr.coreEn = true → s.pwr.corePg = false →
    s.aon.waking = false → bootSrc < 2 → addr < 4 →
    ∃ t, exec (.corePgRise bootSrc addr) s = .next t ∧
      t.pwr = { s.pwr with
        corePg := true, bootSrc := bootSrc, i3cAddr := 0x58 + addr, cause := s.pwr.nextCause,
        afterFreeze := s.pwr.nextAfter, nextAfter := false } ∧
      t.boot = { s.boot with stage := bootSrc, failCode := 0, romTest := false, image := none, flashBusy := none } ∧
      (s.pwr.nextCause = 0 → t.clk.time = s.clk.time) ∧
      t = { s with pwr := t.pwr, boot := t.boot, clk := { time := t.clk.time }, pci := { s.pci with pmeEn0 := false } }) ∧
  (∀ (s : State) (bootSrc addr : Nat), s.aon.powered = true → s.pwr.coreEn = true → s.pwr.corePg = false →
    s.aon.waking = true →
    exec (.corePgRise bootSrc addr) s = .next { s with pwr := { s.pwr with corePg := true } })

/-- The resets of one receiver (R365, R372, R460, R493). A firmware restart and an FLR of PF0 leave no context, no bound
queue, no stream, and no message, session or request on a non-secure channel; PF0's Bus Master Enable and MSI-X state
return to reset; the verified image, the fuses and the secure channels' windows stay, and a firmware restart ends the freeze and holds
the report that the carry area has.

The resets of the secure channels (R365, R372, R460). An FLR of PF1 and an I3C target reset clear the channels that
that path owns and leave the other windows; a seal-core restart clears every secure channel, sets MB_STATUS.aborted where
a message had not been taken (a fragment in the window, fragments gathered, or a request that waits to run), and leaves the
non-secure channels, the contexts, the verified image and the fuses. External memory changes only by the staging area and
the copies of envelopes that no request waits for. -/
def Obligations.ChannelAndFunctionResets : Prop :=
  (
  (∀ s : State, s.alive = true → s.err.frozen = true →
    ∃ t, exec .firmwareRestart s = .next t ∧ exec .flrPf0 s = .next t ∧
      t.ctxs = [] ∧ t.hq = [] ∧ t.intake.streams = [] ∧ t.intake.items = [] ∧
      (∀ ch, ch < 32 → t.win ch = {} ∧ tabFind t.mbox.session ch = none ∧ tabGet [] t.mbox.ready ch = []) ∧
      (∀ r ∈ t.mbox.taken, 32 ≤ r.ch) ∧
      t.pci.bme0 = false ∧ t.err.frozen = false ∧ bit t.pci.evStatus0 6 = true ∧ bit t.pci.evStatus1 6 = true ∧
      t.fuse = s.fuse ∧ t.boot.image = s.boot.image ∧ t.boot.stage = 3 ∧ t.boot.reportHeld = true ∧
      (s.boot.carryValid = true → t.boot.report = s.boot.carry ∧ t.boot.reportTotal = s.boot.carryTotal)) ∧
  (∀ s : State, s.alive = true → s.err.frozen = false →
    ∃ t, exec .flrPf0 s = .next t ∧
      t.ctxs = [] ∧ t.hq = [] ∧ t.intake.streams = [] ∧ t.intake.items = [] ∧
      (∀ ch, ch < 32 → t.win ch = {} ∧ tabFind t.mbox.session ch = none ∧ tabGet [] t.mbox.ready ch = []) ∧
      (∀ r ∈ t.mbox.taken, 32 ≤ r.ch) ∧ t.pci.bme0 = false ∧ (∀ k ∈ t.pci.unmasked, 2048 ≤ k) ∧
      t.fuse = s.fuse ∧ t.boot.image = s.boot.image ∧ t.boot.stage = s.boot.stage)) ∧
  (
  (∀ s : State, s.linked = true →
    ∃ t, exec .flrPf1 s = .next t ∧
      (∀ ch, s.ownedBy 0 ch = true → t.win ch = {} ∧ tabFind t.mbox.session ch = none) ∧
      (∀ ch, s.ownedBy 0 ch = false → t.win ch = s.win ch ∧ tabFind t.mbox.session ch = tabFind s.mbox.session ch) ∧
      t.pci.bme1 = false ∧ t.pci.bme0 = s.pci.bme0 ∧ t.ctxs = s.ctxs ∧ t.hq = s.hq ∧ t.fuse = s.fuse ∧
      t.boot.image = s.boot.image ∧ (s.boot.stagingAt = none → s.mbox.copies = [] → t.lp = s.lp) ∧ t.fab = s.fab ∧
      t.ports = s.ports ∧ t.err = s.err) ∧
  (∀ s : State, s.linked = true →
    ∃ t, exec .i3cTargetReset s = .next t ∧
      (∀ ch, s.ownedBy 1 ch = true → t.win ch = {} ∧ tabFind t.mbox.session ch = none) ∧
      (∀ ch, s.ownedBy 1 ch = false → t.win ch = s.win ch ∧ tabFind t.mbox.session ch = tabFind s.mbox.session ch) ∧
      t.mbox.i3cPtr = 0 ∧ t.mbox.i3cPart = [] ∧
      t = { s with mbox := t.mbox, boot := t.boot, lp := t.lp, out := t.out,
                   pair := { s.pair with wanted := t.pair.wanted, sent := t.pair.sent, unsent := t.pair.unsent } } ∧
      (s.boot.stagingAt = none → s.mbox.copies = [] → t.lp = s.lp) ∧ t.boot.image = s.boot.image ∧
      t.boot.stage = s.boot.stage) ∧
  (∀ s : State, s.alive = true →
    ∃ t, exec .sealCoreRestart s = .next t ∧
      (∀ ch, 32 ≤ ch → ch < 40 → t.win ch = { aborted := s.untaken ch } ∧ tabFind t.mbox.session ch = none ∧
        tabGet [] t.mbox.ready ch = []) ∧
      (∀ ch, ch < 32 → t.win ch = s.win ch ∧ tabFind t.mbox.session ch = tabFind s.mbox.session ch) ∧
      (∀ r, r ∈ t.mbox.taken ↔ r ∈ s.mbox.taken ∧ r.ch < 32) ∧
      t.boot.image = s.boot.image ∧ t.boot.stage = s.boot.stage ∧ t.boot.identityReady = false ∧
      t.boot.stagingOwner = none ∧ t.boot.nonces = [] ∧
      (s.boot.stagingAt = none → s.mbox.copies = [] → t.lp = s.lp) ∧
      t = { s with mbox := t.mbox, boot := t.boot, lp := t.lp, out := t.out,
                   pair := { s.pair with wanted := t.pair.wanted, sent := t.pair.sent, unsent := t.pair.unsent } }))

/-- Comparators (R476 to R478): a trip sets its bit until the comparator rearms, and its bit of WAKE_CAUSE; in SLEEP the
first wake source asserts CORE_EN and POWER_STATE reads WAKING. A rearm clears the trip and leaves WAKE_CAUSE. A trip that
has not rearmed, and a comparator that has not tripped, change nothing.

THERMAL_SAMPLE and PTM_DIALOGUE (R489, R491). Above 100 °C the throttle goes one step down, to 3 at most; after 100
samples that are cool it goes one step up; otherwise it stays. The first dialogue fixes the offset; from then the device
time slews by at most 500 ppm towards the master, steps forward when it is more than 10 µs behind, and runs at half rate
when it is more than 10 µs ahead: it never goes back. -/
def Obligations.ComparatorsAndThrottle : Prop :=
  (
  (∀ (s : State) (n : Nat), n < 4 → s.aon.powered = true → bit s.aon.tripped n = false →
    ∃ t, exec (.comparatorTrip n) s = .next t ∧ t.aon.tripped = s.aon.tripped + 2 ^ n ∧ bit t.aon.wakeCause n = true ∧
      (∀ k, bit s.aon.wakeCause k = true → bit t.aon.wakeCause k = true) ∧
      (s.pwr.state = 2 → s.aon.waking = false → t.pwr.state = 3 ∧ t.pwr.coreEn = true ∧ t.aon.waking = true) ∧
      t.aon.ticks = s.aon.ticks ∧ t.fuse = s.fuse ∧ t.ctxs = s.ctxs ∧ t.mbox = s.mbox ∧ t.hq = s.hq ∧ t.boot = s.boot) ∧
  (∀ (s : State) (n : Nat), n < 4 → s.aon.powered = true → bit s.aon.tripped n = true →
    ∃ t, exec (.comparatorRearm n) s = .next t ∧ t.aon = { s.aon with tripped := s.aon.tripped - 2 ^ n } ∧
      t = { s with aon := t.aon, ports := t.ports, out := t.out }) ∧
  (∀ (s : State) (n : Nat), bit s.aon.tripped n = true → exec (.comparatorTrip n) s = .next s) ∧
  (∀ (s : State) (n : Nat), bit s.aon.tripped n = false → exec (.comparatorRearm n) s = .next s)) ∧
  (
  (∀ (s : State) (j : Int) (a b : Nat) (sustained hot : Bool), s.senses = true → 100 < j →
    ∃ t, exec (.thermalSample j a sustained b hot) s = .next t ∧ t.pwr.throttle = min 3 (s.pwr.throttle + 1) ∧
      t.pwr.coolMs = 0 ∧ t.fuse = s.fuse ∧ t.boot = s.boot ∧ t.clk = s.clk ∧ t.aon = s.aon ∧ t.fab = s.fab ∧ t.lp = s.lp) ∧
  (∀ (s : State) (j : Int) (a b : Nat), s.senses = true → j ≤ 95 → a ≤ 60000 → b < 50000 → s.pwr.coolMs + 1 < 100 →
    exec (.thermalSample j a false b false) s = .next { s with
      pwr := { s.pwr with over60 := false, over55 := false, mr4Hot := false, coolMs := s.pwr.coolMs + 1 } }) ∧
  (∀ (s : State) (j : Int) (a b : Nat), s.senses = true → j ≤ 95 → a ≤ 60000 → b < 50000 → 100 ≤ s.pwr.coolMs + 1 →
    ∃ t, exec (.thermalSample j a false b false) s = .next t ∧ t.pwr.throttle = s.pwr.throttle - 1 ∧ t.pwr.coolMs = 0 ∧
      t.fuse = s.fuse ∧ t.boot = s.boot ∧ t.clk = s.clk ∧ t.fab = s.fab ∧ t.lp = s.lp) ∧
  (∀ (s : State) (m : Nat), s.senses = true → s.clk.offset0 = none →
    exec (.ptmDialogue m) s = .next { s with clk := { s.clk with ptm := true, offset0 := some ((s.clk.time : Int) - m) } }) ∧
  (∀ (s : State) (m : Nat) (o : Int), s.senses = true → s.clk.offset0 = some o →
    ∃ t, exec (.ptmDialogue m) s = .next t ∧
      (let e := (s.clk.time : Int) - m - o
       if e < -10000 then (t.clk.time : Int) = m + o ∧ t.clk.err = 0 ∧ t.clk.half = false
       else if 10000 < e then t.clk.time = s.clk.time ∧ t.clk.err = e ∧ t.clk.half = true
       else t.clk.time = s.clk.time ∧ t.clk.err = e ∧ t.clk.half = false ∧ -500 ≤ t.clk.slewPpm ∧ t.clk.slewPpm ≤ 500) ∧
      s.clk.time ≤ t.clk.time ∧ t = { s with clk := t.clk }))

/-- IDLE and SLEEP (R479, R481 to R485, R488). With no work the device is IDLE and nothing else changes. SLEEP switches
the core off: CORE_EN falls, the AON holds device time and the AON timer is set, and what SRAM but control SRAM held is
gone; the fuses, the contexts' handles and the image stay, and where no context runs and no port has dark or gain tables to
keep, external memory stays as it is. The AON timer in SLEEP leaves the device in SLEEP, unless a
stored doorbell waits: then it starts the wake sequence, as every wake source does (R11; the model's reading, log 73). At
the end of the wake sequence POWER_STATE reads ACTIVE, stored doorbells and trips have been acted on, and device time goes on from the
AON's count. -/
def Obligations.SleepAndWake : Prop :=
  (∀ s : State, s.works = true → s.pwr.state = 0 → s.noWork = true → s.idleSlack = true →
    exec .idleEntry s = .next { s with pwr := { s.pwr with state := 1 } }) ∧
  (∀ s : State, s.maySleep = true → (∀ c ∈ s.ctxs, c.2.st ≠ .running) → (∀ q ∈ s.ports, q.2.tableBytes = []) →
    ∃ t, exec .sleepEntry s = .next t ∧ t.pwr = { s.pwr with state := 2, coreEn := false, corePg := false } ∧
      t.aon = { s.aon with timerSet := true, wakeTrips := 0, entryTime := s.clk.time, entryTicks := s.aon.ticks } ∧
      t.fab.palette = [] ∧ t.fab.canvas = [] ∧ t.fab.queue = [] ∧ t.read.tlb = [] ∧ t.fuse = s.fuse ∧ t.boot = s.boot ∧
      t.ctxs = s.ctxs ∧ t.lp.mem = s.lp.mem ∧ t.mbox = s.mbox ∧ t.hq = s.hq ∧ t.asleep = true ∧ t.alive = false) ∧
  (∀ (s : State) (junction : Int) (hot : Bool), s.asleep = true → s.aon.waking = false → s.aon.timerSet = true →
    s.aon.storedDb ≠ [] →
    ∃ t, exec (.aonTimerMature junction hot) s = .next t ∧ t.pwr.state = 3 ∧ t.pwr.coreEn = true ∧ t.aon.waking = true ∧
      bit t.aon.wakeCause 7 = true ∧ t.aon.timerSet = false ∧ t.aon.storedDb = s.aon.storedDb ∧ t.fuse = s.fuse ∧
      t.ctxs = s.ctxs ∧ t.mbox = s.mbox ∧ t.hq = s.hq ∧ t.boot = s.boot) ∧
  (∀ (s : State) (junction : Int), s.asleep = true → s.aon.waking = false → s.aon.timerSet = true → junction ≤ 100 →
    s.pci.d3pf0 = false → s.aon.storedDb = [] →
    exec (.aonTimerMature junction false) s = .next { s with
      aon := { s.aon with wakeCause := if bit s.aon.wakeCause 7 then s.aon.wakeCause else s.aon.wakeCause + 2 ^ 7 },
      pwr := { s.pwr with mr4Hot := false, coolMs := 0 }, out := .coreEn false :: .coreEn true :: s.out }) ∧
  (∀ s : State, s.aon.powered = true → s.aon.waking = true → s.pwr.corePg = true →
    (∀ c ∈ s.ctxs, c.2.st ≠ .running) → (∀ q ∈ s.ports, q.2.tables = none) → s.aon.storedDb = [] → s.aon.wakeTrips = 0 →
    ∃ t, exec .wakeSequenceComplete s = .next t ∧ t.pwr = { s.pwr with state := 0 } ∧
      t.aon = { s.aon with waking := false, timerSet := false, storedDb := [], wakeTrips := 0 } ∧
      t.clk.time = s.aon.entryTime + (s.aon.ticks - s.aon.entryTicks) * 10 ^ 9 / 32768 ∧
      t = { s with pwr := t.pwr, aon := t.aon, clk := { s.clk with time := t.clk.time, frac := 0, slewPpm := 0, half := false, err := 0 },
                   ports := t.ports, out := t.out })

/-- Reads with an effect and write-one-to-clear registers (R341, R344, R478): a read of DEVICE_TIME_LO latches the high
word, a read of DB_ERROR_COUNT clears it, or, in SLEEP, answers zero and leaves it (R347), and a write of ones clears
exactly the bits written; clearing db_error clears DB_ERROR.valid. A REGISTER_WRITE of such a register is that clear.

REGISTER_WRITE and MSIX_UNMASK (R340, R341, R344, R346, R348): EVENT_ENABLE and the MSI-X table store what is written,
a write to MB_H2D puts its 4 bytes in the window, a masked vector stays pending and is sent once when it is unmasked, and
a write to a read-only or reserved offset, or one that is not aligned, is ignored. -/
def Obligations.RegistersReadAndWritten : Prop :=
  (
  (∀ s : State, s.barOk 0 = true →
    exec .deviceTimeLoRead s = .next { s with
      clk := { s.clk with hiLatch := s.timeNow / 2 ^ 32 % 2 ^ 32 }, pci := { s.pci with readData := s.timeNow % 2 ^ 32 } }) ∧
  (∀ s : State, s.barOk 0 = true → s.aonServes = false →
    exec .dbErrorCountRead s = .next { s with pci := { s.pci with readData := s.pci.dbErrorCount, dbErrorCount := 0 } }) ∧
  (∀ s : State, s.barOk 0 = true → s.aonServes = true →
    exec .dbErrorCountRead s = .next { s with pci := { s.pci with readData := 0 } }) ∧
  (∀ (s : State) (v : Nat), s.barOk 0 = true → v < 2 ^ 32 →
    ∃ t, exec (.wakeCauseClear v) s = .next t ∧ t = { s with aon := { s.aon with wakeCause := t.aon.wakeCause } } ∧
      ∀ k, k < 32 → t.aon.wakeCause.testBit k = (s.aon.wakeCause.testBit k && !v.testBit k)) ∧
  (∀ (s : State) (v : Nat), s.barOk 0 = true → s.aonServes = false → v < 2 ^ 32 →
    ∃ t, exec (.eventStatusClear 0 v) s = .next t ∧
      t = { s with pci := { s.pci with evStatus0 := t.pci.evStatus0, dbError := t.pci.dbError } } ∧
      (∀ k, k < 32 → t.pci.evStatus0.testBit k = (s.pci.evStatus0.testBit k && !v.testBit k)) ∧
      (bit v 2 = true → bit t.pci.dbError 31 = false) ∧ (bit v 2 = false → t.pci.dbError = s.pci.dbError)) ∧
  (∀ (s : State) (v : Nat), s.barOk 1 = true → s.aonServes = false → v < 2 ^ 32 →
    ∃ t, exec (.eventStatusClear 1 v) s = .next t ∧ t = { s with pci := { s.pci with evStatus1 := t.pci.evStatus1 } } ∧
      ∀ k, k < 32 → t.pci.evStatus1.testBit k = (s.pci.evStatus1.testBit k && !v.testBit k))) ∧
  (
  (∀ (s : State) (v : Nat), s.barOk 0 = true → s.aonServes = false →
    exec (.registerWrite 0 0 0x84 v) s = .next { s with pci := { s.pci with evEnable0 := v % 256 } }) ∧
  (∀ (s : State) (v : Nat), s.barOk 1 = true → s.aonServes = false →
    exec (.registerWrite 1 0 0x84 v) s = .next { s with pci := { s.pci with evEnable1 := v % 256 } }) ∧
  (∀ (s : State) (ch off v : Nat), s.barOk 0 = true → ch < 32 → off % 4 = 0 → off < 0x110 →
    ∃ t, exec (.registerWrite 0 0 (0x10000 + 0x400 * ch + off) v) s = .next t ∧
      t = { s with mbox := { s.mbox with
        win := tabSet {} s.mbox.win ch { s.win ch with h2d := memPut (s.win ch).h2d off (toLe 4 v) } } }) ∧
  (∀ (s : State) (v : Nat), exec (.registerWrite 0 0 0x44 v) s = exec (.wakeCauseClear v) s) ∧
  (∀ (s : State) (fn v : Nat), fn < 2 → exec (.registerWrite fn 0 0x80 v) s = exec (.eventStatusClear fn v) s) ∧
  (∀ (s : State) (fn off v : Nat), s.barOk fn = true → fn < 2 → off % 4 = 0 → off < 0x10000 → off ≠ 0x80 → off ≠ 0x84 →
    (fn = 1 ∨ off ≠ 0x44) →
    exec (.registerWrite fn 0 off v) s = .next s) ∧
  (∀ (s : State) (fn bar off v : Nat), off % 4 ≠ 0 → exec (.registerWrite fn bar off v) s = .next s) ∧
  (∀ (s : State) (vec v : Nat), s.barOk 0 = true → vec < 2048 → v % 2 = 1 →
    exec (.registerWrite 0 4 (16 * vec + 12) v) s = .next { s with
      pci := { s.pci with unmasked := s.pci.unmasked.filter (fun k => k != vec) } }) ∧
  (∀ (s : State) (vec : Nat), s.barOk 0 = true → vec < 2048 → s.busMaster 0 = true → s.pci.pend = [vec] →
    ∃ t, exec (.msixUnmask 0 vec) s = .next t ∧ vec ∈ t.pci.unmasked ∧ t.pci.pend = [] ∧ t.out = .msix 0 vec :: s.out ∧
      t = { s with pci := { s.pci with unmasked := t.pci.unmasked, pend := [] }, out := t.out }) ∧
  (∀ (s : State) (vec : Nat), s.barOk 0 = true → vec < 2048 → s.pci.pend = [] →
    ∃ t, exec (.msixUnmask 0 vec) s = .next t ∧ vec ∈ t.pci.unmasked ∧ t.out = s.out ∧
      t = { s with pci := { s.pci with unmasked := t.pci.unmasked } }))

/-- The link and the functions (R336, R338, R341, R344, R365, R366): LINK_STATUS takes the trained rate and width, and a link
below 8 GT/s or ×4 raises EVENT_STATUS; with Bus Master Enable 0 nothing is sent, and a vector that became due meanwhile is sent once when it
is set again; a function in D3hot keeps its state; a failed read of host memory is an error of the context that read. -/
def Obligations.LinkAndFunctions : Prop :=
  (∀ (s : State) (rate width : Nat), s.alive = true → s.aon.waking = false → 3 ≤ rate → rate ≤ 5 →
    (width = 4 ∨ width = 8) →
    ∃ t, exec (.pcieLinkTraining rate width) s = .next t ∧ t.reg 0 0x50 = rate + 16 * width ∧
      t.pwr = (if s.pwr.state = 1 then { s.pwr with state := 0 } else s.pwr) ∧
      t = { s with pwr := t.pwr, pci := { s.pci with rate := rate, width := width, l2 := false } }) ∧
  (∀ (s : State) (rate width : Nat), s.alive = true → s.aon.waking = false → 1 ≤ rate → rate ≤ 5 →
    (width = 1 ∨ width = 2 ∨ width = 4 ∨ width = 8) → (rate < 3 ∨ width < 4) →
    ∃ t, exec (.pcieLinkTraining rate width) s = .next t ∧ t.reg 0 0x50 = rate + 16 * width ∧
      bit t.pci.evStatus0 5 = true ∧ bit t.pci.evStatus1 5 = true) ∧
  (∀ s : State, s.linked = true →
    ∃ t, exec (.busMasterEnableWrite 0 false) s = .next t ∧ t = { s with pci := { s.pci with bme0 := false } } ∧
      t.busMaster 0 = false) ∧
  (∀ (s : State) (vec : Nat), s.linked = true → s.pci.d3pf0 = false → vec < 2048 → s.pci.pend = [vec] → vec ∈ s.pci.unmasked →
    (∀ r ∈ s.mbox.taken, r.hostWait = false) →
    exec (.busMasterEnableWrite 0 true) s = .next { s with
      pci := { s.pci with bme0 := true, pend := [] }, out := .msix 0 vec :: s.out }) ∧
  (∀ (s : State) (pme l2 : Bool), s.linked = true → s.hostWaits = false →
    exec (.pciPowerStateWrite 0 (.d3hot l2) pme) s = .next { s with pci := { s.pci with d3pf0 := true, pmeEn0 := pme, l2 := l2 } }) ∧
  (∀ (s : State) (pme l2 : Bool), s.linked = true →
    exec (.pciPowerStateWrite 1 (.d3hot l2) pme) s = .next { s with pci := { s.pci with d3pf1 := true, pmeEn1 := pme } }) ∧
  (∀ (s : State) (pme l2 : Bool), s.linked = true → s.hostWaits = true → pme = true → s.pwr.wakeN = false →
    ∃ o, exec (.pciPowerStateWrite 0 (.d3hot l2) pme) s = .next { s with
      pci := { s.pci with d3pf0 := true, pmeEn0 := true, l2 := l2 }, pwr := { s.pwr with wakeN := true }, out := o :: s.out } ∧
      o = if l2 ∨ s.pci.width = 0 then .wakeN else .pme 0) ∧
  (∀ (s : State) (c : Nat) (x : Ctx), s.works = true → s.ctx? c = some x → x.st ≠ .faulted → s.err.active = none →
    ∃ t, exec (.hostReadError c) s = .next t ∧ t.err = { s.err with active := some (c, 0x08), takenUp := false } ∧
      bit t.pci.evStatus0 0 = true ∧ t.ctxs = s.ctxs ∧ t.hq = s.hq ∧ t.mbox = s.mbox ∧ t.fab = s.fab ∧ t.lp = s.lp)

/-- MB_DOORBELL and MB_ACK (R370, R371, R347, R368): a doorbell posts the message, and one while h2d_pending is 1 has no effect; in
SLEEP it wakes the device; an ack clears d2h_valid, and one while d2h_valid is 0 has no effect; on a secure channel, the
path that does not own it writes nothing.

I3C private writes (R369): two bytes set the pointer, of which bits [12:0] are used; data goes from it upward into the
secure windows; a doorbell takes effect when its four bytes are complete. -/
def Obligations.MailboxWindows : Prop :=
  (
  (∀ (s : State) (path ch v : Nat), s.reaches path ch = true → s.otherPath path ch = false → (s.win ch).pending = false →
    v % 2 = 1 → s.aonServes = false →
    exec (.mbDoorbellWrite path ch v) s = .next { s with
      mbox := { s.mbox with
        win := tabSet {} s.mbox.win ch { s.win ch with pending := true, aborted := false, via := path } },
      pwr := if s.pwr.state = 1 then { s.pwr with state := 0 } else s.pwr }) ∧
  (∀ (s : State) (path ch v : Nat), s.reaches path ch = true → s.otherPath path ch = false → (s.win ch).pending = false →
    v % 2 = 1 → s.pwr.state = 2 → s.aon.waking = false → s.aon.powered = true →
    ∃ t, exec (.mbDoorbellWrite path ch v) s = .next t ∧
      t.mbox = { s.mbox with
        win := tabSet {} s.mbox.win ch { s.win ch with pending := true, aborted := false, via := path } } ∧
      bit t.aon.wakeCause (if ch < 32 then 4 else 5) = true ∧ t.pwr.state = 3 ∧ t.pwr.coreEn = true ∧ t.fuse = s.fuse ∧
      t.ctxs = s.ctxs ∧ t.boot = s.boot ∧ t.hq = s.hq) ∧
  (∀ (s : State) (path ch v : Nat), (s.win ch).pending = true → exec (.mbDoorbellWrite path ch v) s = .next s) ∧
  (∀ (s : State) (path ch v : Nat), s.reaches path ch = true → s.otherPath path ch = false → (s.win ch).valid = true →
    v % 2 = 1 →
    exec (.mbAckWrite path ch v) s = .next { s with
      mbox := { s.mbox with win := tabSet {} s.mbox.win ch { s.win ch with valid := false } } }) ∧
  (∀ (s : State) (path ch v : Nat), (s.win ch).valid = false → exec (.mbAckWrite path ch v) s = .next s) ∧
  (∀ (s : State) (path ch v : Nat), s.otherPath path ch = true →
    exec (.mbDoorbellWrite path ch v) s = .next s ∧ exec (.mbAckWrite path ch v) s = .next s)) ∧
  (
  (∀ (s : State) (lo hi : Byte), s.linked = true →
    exec (.i3cPrivateWrite [lo, hi]) s = .next { s with
      mbox := { s.mbox with i3cPtr := (lo.toNat + 256 * hi.toNat) % 8192 } }) ∧
  (∀ (s : State) (lo hi b : Byte) (n o : Nat), s.linked = true → (lo.toNat + 256 * hi.toNat) % 8192 = 0x400 * n + o →
    o < 0x110 → s.otherPath 1 (32 + n) = false →
    exec (.i3cPrivateWrite [lo, hi, b]) s = .next { s with
      mbox := { s.mbox with
        i3cPtr := 0x400 * n + o,
        win := tabSet {} s.mbox.win (32 + n) { s.win (32 + n) with h2d := memWrite (s.win (32 + n)).h2d o b } } }) ∧
  (∀ (s : State) (lo hi b0 b1 b2 b3 : Byte) (n : Nat), s.linked = true → s.aonServes = false →
    (lo.toNat + 256 * hi.toNat) % 8192 = 0x400 * n + 0x3F0 → s.otherPath 1 (32 + n) = false → s.mbox.i3cPart = [] →
    (s.win (32 + n)).pending = false → b0.toNat % 2 = 1 →
    exec (.i3cPrivateWrite [lo, hi, b0, b1, b2, b3]) s = .next { s with
      mbox := { s.mbox with
        i3cPtr := 0x400 * n + 0x3F0,
        win := tabSet {} s.mbox.win (32 + n) { s.win (32 + n) with pending := true, aborted := false, via := 1 } },
      pwr := if s.pwr.state = 1 then { s.pwr with state := 0 } else s.pwr }))

/-- Fragments (R374): the first, and each that follows its predecessor, is taken and gathered; the last completes the message;
one whose frag_index does not follow ends the message, which is answered FORMAT; an OWNER_KEY_ENROL so answered has used up
its enrol nonce (R466).

D2H_POST (R370, R375, R376): the oldest ready message enters MB_D2H, d2h_valid is set, and the channel's interrupt is raised;
a reply carries its request's number; while d2h_valid is 1, or with nothing ready, nothing is posted. -/
def Obligations.MessagesInFragments : Prop :=
  (
  (∀ (s : State) (ch : Nat) (x : Session), 32 ≤ ch → s.takes ch = true → tabHas s.mbox.whole ch = false →
    tabFind s.mbox.gather ch = none → tabFind s.mbox.session ch = some x → hMore (s.msg ch).1 = true →
    0x100 ≤ hOp (s.msg ch).1 → hOp (s.msg ch).1 ≤ 0x105 → hSeq (s.msg ch).1 = x.nextSeq →
    hSession (s.msg ch).1 = handleOf ch → hFrag (s.msg ch).1 = 0 → hLen (s.msg ch).1 = 256 → hdrOk (s.msg ch).1 = true →
    exec (.messageFragment ch) s = .next { s with
      mbox := { s.mbox with
        win := tabSet {} s.mbox.win ch { s.win ch with pending := false },
        gather := tabPut s.mbox.gather ch
          { opcode := hOp (s.msg ch).1, seq := x.nextSeq, next := 1, payload := (s.msg ch).2 } },
      pwr := if s.pwr.state = 1 then { s.pwr with state := 0 } else s.pwr }) ∧
  (∀ (s : State) (ch : Nat) (g : Gather), 32 ≤ ch → s.takes ch = true → tabHas s.mbox.whole ch = false →
    tabFind s.mbox.gather ch = some g → hMore (s.msg ch).1 = false → hOp (s.msg ch).1 = g.opcode →
    hSeq (s.msg ch).1 = g.seq → hSession (s.msg ch).1 = handleOf ch → hFrag (s.msg ch).1 = g.next →
    hdrOk (s.msg ch).1 = true →
    exec (.messageFragment ch) s = .next { s with
      mbox := { s.mbox with
        win := tabSet {} s.mbox.win ch { s.win ch with pending := false },
        gather := tabDel s.mbox.gather ch,
        whole := tabPut s.mbox.whole ch (g.opcode, g.seq, g.payload ++ (s.msg ch).2),
        session := tabUpd s.mbox.session ch (fun x => { x with nextSeq := (x.nextSeq + 1) % 65536 }) },
      pwr := if s.pwr.state = 1 then { s.pwr with state := 0 } else s.pwr }) ∧
  (∀ (s : State) (ch : Nat) (g : Gather), 32 ≤ ch → s.takes ch = true → tabHas s.mbox.whole ch = false →
    tabFind s.mbox.gather ch = some g → hFrag (s.msg ch).1 ≠ g.next →
    exec (.messageFragment ch) s = .next { asked s ch with
      boot := if g.opcode = 0x0103 then { s.boot with nonces := tabDel s.boot.nonces ch } else s.boot,
      mbox := { (asked s ch).mbox with
        gather := tabDel s.mbox.gather ch,
        ready := tabMod [] s.mbox.ready ch (insertReady
          { opcode := g.opcode, reply := true, status := stFormat, seq := g.seq, payload := [], key := 0, frag := 0,
            ready := s.clk.time }) } })) ∧
  (
  (∀ (s : State) (ch : Nat) (m : OutMsg) (rest : List OutMsg), s.served ch = true → (s.win ch).valid = false →
    tabGet [] s.mbox.ready ch = m :: rest → m.reply = true → m.frag = 0 → m.payload.length ≤ 256 →
    ∃ t, exec (.d2hPost ch) s = .next t ∧
      t.mbox = { s.mbox with
        ready := tabSet [] s.mbox.ready ch rest,
        win := tabSet {} s.mbox.win ch { s.win ch with
          valid := true, d2h := memPut (s.win ch).d2h 0 (toLe 16 (outHeader m ch m.seq m.payload.length false) ++ m.payload) } } ∧
      t = { s with mbox := t.mbox, pci := { s.pci with pend := t.pci.pend }, out := t.out } ∧
      (ch < 32 → s.busMaster 0 = true → ch + 1 ∈ s.pci.unmasked → t.out = .msix 0 (ch + 1) :: s.out ∧ t.pci = s.pci)) ∧
  (∀ (s : State) (ch : Nat) (m : OutMsg) (rest : List OutMsg) (x : Session), s.served ch = true → (s.win ch).valid = false →
    tabGet [] s.mbox.ready ch = m :: rest → m.reply = false → m.frag = 0 → m.payload.length ≤ 256 → m.opcode ≠ 0x8002 →
    tabFind s.mbox.session ch = some x →
    ∃ t, exec (.d2hPost ch) s = .next t ∧
      t.mbox = { s.mbox with
        ready := tabSet [] s.mbox.ready ch rest,
        session := tabUpd s.mbox.session ch (fun x => { x with nextNotice := (x.nextNotice + 1) % 65536 }),
        win := tabSet {} s.mbox.win ch { s.win ch with
          valid := true,
          d2h := memPut (s.win ch).d2h 0 (toLe 16 (outHeader m ch x.nextNotice m.payload.length false) ++ m.payload) } } ∧
      t = { s with mbox := t.mbox, pci := { s.pci with pend := t.pci.pend }, out := t.out }) ∧
  (∀ (s : State) (ch : Nat), (s.win ch).valid = true ∨ tabGet [] s.mbox.ready ch = [] → exec (.d2hPost ch) s = .next s))

/-- Sessions (R378, R381, R383): SESSION_OPEN takes the highest minor version that is offered and served, or is answered VERSION,
or NO_RESOURCE where the channel has a session; SESSION_CLOSE ends a session that owns no context, with its nonce and its
notices, and is answered NO_RESOURCE otherwise. -/
def Obligations.Sessions : Prop :=
  let opens := fun (s : State) (ch lo hi : Nat) =>
    s.takes ch = true ∧ hOp (s.msg ch).1 = 0x0001 ∧ hSeq (s.msg ch).1 = 0 ∧ hSession (s.msg ch).1 = handleOf ch ∧
    hdrOk (s.msg ch).1 = true ∧ hMore (s.msg ch).1 = false ∧ hFrag (s.msg ch).1 = 0 ∧
    (s.msg ch).2 = [3, BitVec.ofNat 8 lo, BitVec.ofNat 8 hi, 0] ∧ lo < 256 ∧ hi < 256 ∧
    tabHas s.mbox.gather ch = false ∧ tabHas s.mbox.whole ch = false
  (∀ (s : State) (ch lo hi : Nat), opens s ch lo hi → tabFind s.mbox.session ch = none → lo ≤ min hi 2 →
    (∀ r ∈ s.mbox.taken, r.ch ≠ ch) →
    exec (.sessionOpen ch) s = .next { s with
      mbox := { s.mbox with
        win := tabSet {} s.mbox.win ch { s.win ch with pending := false },
        session := tabPut s.mbox.session ch { minor := min hi 2, nextSeq := 1, nextNotice := 0, path := (s.win ch).via },
        ready := tabMod [] s.mbox.ready ch (insertReady
          { opcode := 1, reply := true, status := stOK, seq := 0,
            payload := toLe 1 3 ++ toLe 1 (min hi 2) ++ toLe 1 (handleOf ch) ++
              toLe 1 (if s.reportPending then 1 else 0) ++ toLe 4 (s.reg 0 0x04),
            key := 0, frag := 0, ready := s.clk.time }) },
      pwr := if s.pwr.state = 1 then { s.pwr with state := 0 } else s.pwr }) ∧
  (∀ (s : State) (ch lo hi : Nat), opens s ch lo hi → tabFind s.mbox.session ch = none → min hi 2 < lo →
    ∃ t, exec (.sessionOpen ch) s = .next t ∧ t.mbox.session = s.mbox.session ∧
      t.mbox.ready = tabMod [] s.mbox.ready ch (insertReady
        { opcode := 1, reply := true, status := stVersion, seq := 0, payload := [], key := 0, frag := 0,
          ready := s.clk.time })) ∧
  (∀ (s : State) (ch lo hi : Nat) (x : Session), opens s ch lo hi → tabFind s.mbox.session ch = some x →
    ∃ t, exec (.sessionOpen ch) s = .next t ∧ t.mbox.session = s.mbox.session ∧
      t.mbox.ready = tabMod [] s.mbox.ready ch (insertReady
        { opcode := 1, reply := true, status := stNoResource, seq := 0, payload := [], key := 0, frag := 0,
          ready := s.clk.time })) ∧
  (∀ (s : State) (ch : Nat) (p : Bytes) (x : Session), Asks s ch 0x0002 p x → leNat p = 0 →
    (∀ c ∈ s.ctxs, c.2.session ≠ ch) →
    ∃ t, exec (.sessionClose ch) s = .next t ∧ t = { replied s ch x.nextSeq 0x0002 stOK [] with mbox := t.mbox, boot := t.boot } ∧
      t.mbox.session = tabDel (replied s ch x.nextSeq 0x0002 stOK []).mbox.session ch ∧
      t.mbox.ready = tabMod [] (replied s ch x.nextSeq 0x0002 stOK []).mbox.ready ch
        (fun l => l.filter (fun m => m.reply || m.frag != 0)) ∧
      t.boot = { s.boot with nonces := tabDel s.boot.nonces ch, stagingOwner := t.boot.stagingOwner }) ∧
  (∀ (s : State) (ch : Nat) (p : Bytes) (x : Session), Asks s ch 0x0002 p x → leNat p = 0 →
    (∃ c ∈ s.ctxs, c.2.session = ch) →
    exec (.sessionClose ch) s = .next (replied s ch x.nextSeq 0x0002 stNoResource []))

/-- Queue doorbells (R353, R358): a tail that moves forward by no more than the SQ has free submits the entries up to it, and
a head that does not pass the CQ's tail releases the entries before it with their body bytes; a write that is a doorbell
error has no effect on the queue: the first is latched in DB_ERROR, later ones are counted.

Fetch and acceptance (R354, R355, R359): an SQ of a best-effort context waits while one of a real-time context has an entry
to fetch; the entry at an SQ's head that passes its checks is accepted, with its capture
time or the time of the fetch, and its work begins: a SAMPLE becomes an item, which has its tiles and its bucket at once
where every view states its dimensions (R293), a TEXT a job of its text stream, a STREAM_DATA an access unit of its stream,
and a MARKER with nothing before it completes. An entry that fails a check
produces one completion record with the status of the failure and does nothing more. -/
def Obligations.SubmissionQueues : Prop :=
  (
  (∀ (s : State) (q v : Nat) (h : HwQueue), s.barOk 0 = true → q < 16384 → s.aonServes = false →
    tabFind s.hq q = some h → h.isCq = false → v < h.entries → h.tail < h.entries → v < 65536 →
    (v + h.entries - h.tail) % h.entries ≤ (h.head + h.entries - h.tail - 1 + h.entries) % h.entries →
    s.ctxState h.ctx ≠ .tearingDown → s.ctxState h.ctx ≠ .faulted →
    exec (.sqDoorbellWrite q v) s = .next { s with
      hq := tabPut s.hq q { h with tail := v, db := v },
      pwr := if s.pwr.state = 1 then { s.pwr with state := 0 } else s.pwr }) ∧
  (∀ (s : State) (q v : Nat) (h : HwQueue), s.barOk 0 = true → q < 16384 → s.aonServes = false →
    tabFind s.hq q = some h → h.isCq = true → v < h.entries → h.head < h.entries → v < 65536 →
    (v + h.entries - h.head) % h.entries ≤ (h.tail + h.entries - h.head) % h.entries →
    h.waitHead = false → s.mirroring = false →
    exec (.cqDoorbellWrite q v) s = .next { s with
      hq := tabPut s.hq q { h with
        head := v, db := v, bodyUse := h.bodyUse.drop ((v + h.entries - h.head) % h.entries) },
      pwr := if s.pwr.state = 1 then { s.pwr with state := 0 } else s.pwr }) ∧
  (∀ (s : State) (q v : Nat), s.barOk 0 = true → q < 16384 → s.aonServes = false → tabFind s.hq q = none →
    bit s.pci.dbError 31 = false →
    ∃ t, exec (.sqDoorbellWrite q v) s = .next t ∧ exec (.cqDoorbellWrite q v) s = .next t ∧
      t.pci.dbError = q + 2 * 2 ^ 16 + 2 ^ 31 ∧ bit t.pci.evStatus0 2 = true ∧ t.hq = s.hq ∧ t.ctxs = s.ctxs ∧
      t.mbox = s.mbox ∧ t.pwr = (if s.pwr.state = 1 then { s.pwr with state := 0 } else s.pwr)) ∧
  (∀ (s : State) (q v : Nat), s.barOk 0 = true → q < 16384 → s.aonServes = false → tabFind s.hq q = none →
    bit s.pci.dbError 31 = true →
    exec (.sqDoorbellWrite q v) s = .next { s with
      pwr := if s.pwr.state = 1 then { s.pwr with state := 0 } else s.pwr,
      pci := { s.pci with dbErrorCount := min (s.pci.dbErrorCount + 1) (2 ^ 32 - 1) } }) ∧
  (∀ (s : State) (q v : Nat), s.barOk 0 = true → q < 16384 → s.aonServes = true →
    exec (.sqDoorbellWrite q v) s = .next { s with aon := { s.aon with storedDb := s.aon.storedDb ++ [(q, v)] } })) ∧
  (
  let ready := fun (s : State) (q : Nat) (h : HwQueue) (w op : Nat) =>
    s.fetchable q = some (h, w) ∧ s.mirroring = false ∧ fld w 7 0 = op
  let head := fun (s : State) (h : HwQueue) (w : Nat) => { h with
    head := (h.head + 1) % h.entries, nextNo := h.nextNo + 1,
    outst := h.outst ++ [{ no := h.nextNo, acc := s.sched.accSeq, word := w,
                           time := if fld w 127 64 = 0 then s.clk.time else fld w 127 64 }] }
  let turn := fun (s : State) (q : Nat) (h : HwQueue) =>
    if s.isRt h.ctx then (q, s.sched.lastFetch.2) else (s.sched.lastFetch.1, q)
  (∀ (s : State) (q op : Nat) (h : HwQueue) (k : Nat × HwQueue), tabFind s.hq q = some h → s.isRt h.ctx = false →
    k ∈ s.hq → s.isRt k.2.ctx = true → (s.fetchOpen k.1).isSome = true → s.acceptWaits k.1 = false →
    op = 1 ∨ op = 2 ∨ op = 3 ∨ op = 4 →
    exec (if op = 1 then .sample q else if op = 2 then .text q else if op = 3 then .streamData q else .marker q) s = .next s) ∧
  (∀ (s : State) (q w : Nat) (h : HwQueue), ready s q h w 1 → s.descStatus h.ctx w = stOK →
    (∀ v ∈ s.viewList w, (s.newView v).dims = none) →
    ∃ t it, exec (.sample q) s = .next t ∧ tabFind t.hq q = some (head s h w) ∧
      tabFind t.intake.items s.intake.nextItem = some it ∧ t.intake.nextItem = s.intake.nextItem + 1 ∧
      it.kind = .sample q h.nextNo ∧ it.ctx = h.ctx ∧ it.cq = fld h.binding 29 16 ∧ it.itemId = fld w 63 32 ∧
      it.level = fld w 17 16 ∧ it.views = (s.viewList w).map s.newView ∧ it.train = bit w 12 ∧
      it.capture = (if fld w 127 64 = 0 then s.clk.time else fld w 127 64) ∧ it.ref = none ∧
      t.sched = { s.sched with accSeq := s.sched.accSeq + 1, lastFetch := turn s q h } ∧ t.mbox = s.mbox ∧
      t.hostMem = s.hostMem ∧ t.fab = s.fab ∧
      t.lp = s.lp ∧ t.text = s.text ∧ t.fuse = s.fuse ∧ t.boot = s.boot) ∧
  (∀ (s : State) (q w : Nat) (h : HwQueue) (p : Profile), ready s q h w 1 → s.descStatus h.ctx w = stOK →
    s.prof h.ctx = some p →
    (∀ v ∈ s.viewList w, ∃ d, (s.newView v).dims = some d ∧ ∀ y ∈ d, p.breaksCaps y.1 y.2.1 = false) →
    (∀ it : Item, it.ctx = h.ctx → it.views = (s.viewList w).map s.newView → it.level = fld w 17 16 →
      (p.bucketOf (it.tileTotal p)).isSome = true) →
    ∃ t it b, exec (.sample q) s = .next t ∧ tabFind t.hq q = some (head s h w) ∧
      tabFind t.intake.items s.intake.nextItem = some it ∧ it.kind = .sample q h.nextNo ∧ it.ctx = h.ctx ∧
      it.views = (s.viewList w).map s.newView ∧ it.tiles = some (it.tileTotal p) ∧ p.bucketOf (it.tileTotal p) = some b ∧
      it.bucket = some b ∧ it.limitUs = budgetUs (p.buckets[b]?.getD 0) ∧ t.mbox = s.mbox ∧ t.hostMem = s.hostMem ∧
      t.fuse = s.fuse ∧ t.boot = s.boot) ∧
  (∀ (s : State) (q w : Nat) (h : HwQueue), ready s q h w 2 → s.descStatus h.ctx w = stOK →
    ∃ t, exec (.text q) s = .next t ∧
      t.text.streams = tabUpd s.text.streams (fld w 239 224) (fun x => { x with
        jobs := x.jobs ++ [{ sq := q, desc := h.nextNo, no := s.text.nextJob }] }) ∧
      t.text.nextJob = s.text.nextJob + 1 ∧
      t = { s with
        hq := tabPut s.hq q (head s h w), sched := { s.sched with accSeq := s.sched.accSeq + 1, lastFetch := turn s q h },
        pwr := if s.pwr.state = 1 then { s.pwr with state := 0 } else s.pwr,
        text := { s.text with streams := t.text.streams, nextJob := t.text.nextJob, serving := t.text.serving } }) ∧
  (∀ (s : State) (q w : Nat) (h : HwQueue), ready s q h w 3 → s.descStatus h.ctx w = stOK →
    ∃ t, exec (.streamData q) s = .next t ∧
      t.intake.streams = tabUpd s.intake.streams (fld w 239 224) (fun x => { x with
        units := x.units ++ [{
          sq := q, desc := h.nextNo, capture := if fld w 127 64 = 0 then s.clk.time else fld w 127 64,
          data := memBytes s.hostMem (fld w 191 128) (fld w 223 192), order := s.intake.nextItem }] }) ∧
      t.intake.nextItem = s.intake.nextItem + 1 ∧
      t = { s with
        hq := tabPut s.hq q (head s h w), sched := { s.sched with accSeq := s.sched.accSeq + 1, lastFetch := turn s q h },
        pwr := if s.pwr.state = 1 then { s.pwr with state := 0 } else s.pwr, intake := t.intake }) ∧
  (∀ (s : State) (q w cq : Nat) (h c : HwQueue), ready s q h w 4 → s.descStatus h.ctx w = stOK → h.outst = [] →
    fld h.binding 29 16 = cq → cq ≠ q → tabFind s.hq cq = some c → (∀ r ∈ c.ready, r.sq ≠ some q ∨ r.descNo ≠ h.nextNo) →
    ∃ t g, exec (.marker q) s = .next t ∧ tabFind t.hq cq = some g ∧
      g.ready = c.ready ++ [{ kind := 0, status := stOK, sq := some q, descNo := h.nextNo, itemId := fld w 63 32, ctx := h.ctx }] ∧
      t.mbox = s.mbox ∧ t.intake = s.intake ∧ t.text = s.text ∧ t.hostMem = s.hostMem ∧ t.fuse = s.fuse) ∧
  (∀ (s : State) (q w cq : Nat) (h c : HwQueue), ready s q h w 1 → fld w 11 8 ≠ 2 →
    fld h.binding 29 16 = cq → cq ≠ q → tabFind s.hq cq = some c →
    ∃ t g, exec (.sample q) s = .next t ∧ tabFind t.hq cq = some g ∧
      g.ready = c.ready ++ [{ kind := 0, status := stVersion, sq := some q, descNo := h.nextNo, itemId := fld w 63 32, ctx := h.ctx }] ∧
      tabFind t.hq q = some { h with head := (h.head + 1) % h.entries, nextNo := h.nextNo + 1 } ∧
      t.intake = s.intake ∧ t.text = s.text ∧ t.mbox = s.mbox ∧ t.sched = { s.sched with lastFetch := turn s q h } ∧
      t.fuse = s.fuse))

/-- Records (R361, R362, R363, R19, R329): RECORD_POST writes the oldest finished record of a CQ that has a free slot and body
space: its body, and the completion record at the tail with the phase of this pass, in host memory; a record that finds the
ring full, no body space, or Bus Master Enable 0, is held and nothing is written; the records of a PREEMPTED context wait, and
those of other contexts pass them (the model's reading, log 152). A COMPLETION's body offset is free (log 51).
MSIX_COALESCE_TIMEOUT: the CQ's vector becomes due coalesce_us after the oldest unsignalled record, and is sent or pends. -/
def Obligations.RecordsWritten : Prop :=
  (∀ (s : State) (q off skip : Nat) (h : HwQueue) (r : Rec) (rest : List Rec), tabFind s.hq q = some h → h.ready = r :: rest →
    s.works = true → h.isCq = true → h.waitHead = false → s.busMaster 0 = true → s.mirroring = false → s.postable r = true →
    r.slot = none → r.sent = none → (h.tail + 1) % h.entries ≠ h.head → h.bodyPlace r.body.length = some (off, skip) →
    (∀ x, s.ctx? r.ctx = some x → x.draining = false) →
    ∃ t b, exec (.recordPost q) s = .next t ∧ (r.kind ≠ 0 → b = off) ∧
      (let (st, late) := s.finalStatus r
       let body := bodyWith r.body st
       t.hostMem = memPut (memPut s.hostMem (h.bodyBase + off) body) (h.ring + 64 * h.tail)
         (toLe 64 (s.recordWord h r st late b body.length))) ∧
      (∃ g, tabFind t.hq q = some g ∧
        g.ready = rest.filter s.postable ++ rest.filter (fun x => !s.postable x) ∧ g.head = h.head ∧
        g.tail = (if h.tail + 1 = h.entries then 0 else h.tail + 1) ∧
        g.passes = (if h.tail + 1 = h.entries then h.passes + 1 else h.passes)) ∧
      t.mbox = s.mbox ∧ t.fab = s.fab ∧ (r.page = none → t.lp = s.lp) ∧ t.fuse = s.fuse ∧ t.boot = s.boot ∧
      t.intake = s.intake) ∧
  (∀ (s : State) (q : Nat) (h : HwQueue) (r : Rec) (rest : List Rec), tabFind s.hq q = some h → h.ready = r :: rest →
    s.works = true → h.isCq = true → h.waitHead = false → (∀ x ∈ h.ready, s.postable x = true) →
    (s.busMaster 0 = false ∨
      (r.slot = none ∧ ((h.tail + 1) % h.entries = h.head ∨ h.bodyPlace r.body.length = none))) →
    ∃ t, exec (.recordPost q) s = .next t ∧ t.hostMem = s.hostMem ∧
      tabFind t.hq q = some { h with ready := { r with held := true } :: rest } ∧
      t.fab = s.fab ∧ t.lp = s.lp ∧ t.fuse = s.fuse ∧ t.boot = s.boot ∧ t.intake = s.intake) ∧
  (∀ (s : State) (q : Nat) (h : HwQueue), tabFind s.hq q = some h → (∀ x ∈ h.ready, s.postable x = false) →
    ∃ t, exec (.recordPost q) s = .next t ∧ t = { s with hq := t.hq } ∧ tabFind t.hq q = some h) ∧
  (∀ (s : State) (q : Nat) (h : HwQueue), tabFind s.hq q = some h → s.alive = true → h.unsignalled ≠ 0 →
    h.oldestAt + 1000 * fld h.binding 167 152 ≤ s.clk.time →
    ∃ t, exec (.msixCoalesceTimeout q) s = .next t ∧
      t = { s with hq := tabPut s.hq q { h with unsignalled := 0 }, pci := { s.pci with pend := t.pci.pend }, out := t.out } ∧
      (if s.busMaster 0 = true ∧ fld h.binding 138 128 ∈ s.pci.unmasked then
        t.pci.pend = s.pci.pend ∧ t.out = .msix 0 (fld h.binding 138 128) :: s.out
       else fld h.binding 138 128 ∈ t.pci.pend ∧ t.out = s.out)) ∧
  (∀ (s : State) (q : Nat) (h : HwQueue), tabFind s.hq q = some h → h.unsignalled = 0 →
    exec (.msixCoalesceTimeout q) s = .next s)

/-- The checks of R377, for the requests whose row takes every message of its opcode: no session, a session handle that is not the channel's, a version
that lacks the command, a frozen device, each with its status, and nothing else happens but that the message is taken. A reply that is put off until firmware may
read host memory is not among them. -/
def Obligations.RequestsChecked : Prop :=
  let rows := fun (ch : Nat) => [(Instr.contextCreate ch, 0x10), (.contextStart ch, 0x11), (.contextQuery ch, 0x13),
    (.windowRegister ch, 0x20), (.windowRelease ch, 0x21), (.regionAlloc ch, 0x22), (.lexiconBind ch, 0x32),
    (.legacyRootSet ch, 0x33), (.queueUnbind ch, 0x41), (.textStreamOpen ch, 0x42), (.textStreamClose ch, 0x43),
    (.captureStart ch, 0x52), (.captureStop ch, 0x53), (.streamBind ch, 0x56), (.streamUnbind ch, 0x57),
    (.primerProfileSet ch, 0x58), (.outstandingReport ch, 0x71), (.mirrorUnpair ch, 0x81), (.mirrorTakeover ch, 0x82)]
  let waits := fun (s : State) (ch op : Nat) => ch < 32 ∧ s.takes ch = true ∧ hOp (s.msg ch).1 = op ∧
    tabHas s.mbox.gather ch = false ∧ tabHas s.mbox.whole ch = false
  (∀ (s : State) (ch op : Nat) (i : Instr), (i, op) ∈ rows ch → waits s ch op → tabFind s.mbox.session ch = none →
    exec i s = .next (refused s ch (hSeq (s.msg ch).1) op stFormat)) ∧
  (∀ (s : State) (ch op : Nat) (i : Instr) (x : Session), (i, op) ∈ rows ch → waits s ch op →
    tabFind s.mbox.session ch = some x → hSeq (s.msg ch).1 = x.nextSeq → hSession (s.msg ch).1 ≠ handleOf ch →
    exec i s = .next (refused s ch x.nextSeq op stFormat)) ∧
  (∀ (s : State) (ch op : Nat) (i : Instr) (x : Session), (i, op) ∈ rows ch → waits s ch op →
    tabFind s.mbox.session ch = some x → hSeq (s.msg ch).1 = x.nextSeq → hSession (s.msg ch).1 = handleOf ch →
    (op = 0x81 ∨ op = 0x82) → x.minor = 0 →
    exec i s = .next (refused s ch x.nextSeq op stVersion)) ∧
  (∀ (s : State) (ch op : Nat) (i : Instr) (x : Session), (i, op) ∈ rows ch → waits s ch op →
    tabFind s.mbox.session ch = some x → hSeq (s.msg ch).1 = x.nextSeq → hSession (s.msg ch).1 = handleOf ch →
    s.err.frozen = true → op ≠ 0x13 → op ≠ 0x71 → (op < 0x80 ∨ 1 ≤ x.minor) →
    exec i s = .next (refused s ch x.nextSeq op stFrozen))

/-- CONTEXT_CREATE and CONTEXT_QUERY (R302, R303, R383): a correct parameter record makes a context in state EMPTY under
the lowest free handle, of the channel's session; with 256 contexts it is answered NO_RESOURCE; a query answers the state, the
certificate entry and the easels.

CONTEXT_START and CONTEXT_DESTROY (R313, R324, R331, R333, R383). A best-effort context in WAITING joins the queue for a place, once, and
is answered OK; a start in another state is FORMAT. A DRAIN of a RUNNING context that is busy keeps it, takes no new work, and its
reply waits; an ABORT of one begins its teardown: its state is TEARING_DOWN with cause 0, and its reply waits too. -/
def Obligations.ContextsComeAndGo : Prop :=
  (
  (∀ (s : State) (ch c : Nat) (p : Bytes) (x : Session), Asks s ch 0x10 p x → paramsOk (leNat p) = true →
    tabFree s.ctxs 256 = some c → s.mirroring = false →
    exec (.contextCreate ch) s = .next { replied s ch x.nextSeq 0x10 stOK [BitVec.ofNat 8 c] with
      ctxs := tabPut s.ctxs c { params := leNat p, st := .empty, session := ch, since := s.clk.time } }) ∧
  (∀ (s : State) (ch : Nat) (p : Bytes) (x : Session), Asks s ch 0x10 p x → paramsOk (leNat p) = true →
    tabFree s.ctxs 256 = none →
    exec (.contextCreate ch) s = .next (replied s ch x.nextSeq 0x10 stNoResource [])) ∧
  (∀ (s : State) (ch : Nat) (p : Bytes) (x : Session), Asks s ch 0x10 p x → paramsOk (leNat p) = false →
    exec (.contextCreate ch) s = .next (refused s ch x.nextSeq 0x10 stFormat)) ∧
  (∀ (s : State) (ch c : Nat) (p : Bytes) (x : Session) (k : Ctx), Asks s ch 0x13 p x → leNat p = c → c < 256 →
    s.ctx? c = some k → k.session = ch → k.tearMode ≠ 3 →
    exec (.contextQuery ch) s = .next (replied s ch x.nextSeq 0x13 stOK
      (match k.part with
       | some q => toLe 8 (k.st.code + 256 * q.variant) ++ toLe 8 (sumOf (q.easels.map (fun e => 2 ^ e)))
       | none => toLe 8 k.st.code ++ toLe 8 0))) ∧
  (∀ (s : State) (ch c : Nat) (p : Bytes) (x : Session) (k : Ctx), Asks s ch 0x13 p x → leNat p = c → c < 256 →
    s.ctx? c = some k → k.session ≠ ch →
    exec (.contextQuery ch) s = .next (refused s ch x.nextSeq 0x13 stFormat))) ∧
  (
  (∀ (s : State) (ch c : Nat) (p : Bytes) (x : Session) (k : Ctx), Asks s ch 0x11 p x → leNat p = c → c < 256 →
    s.ctx? c = some k → k.session = ch → k.tearMode ≠ 3 → k.st = .waiting → k.realTime = false → s.rootsSet c k = true →
    s.sched.waiting.contains c = false → s.mirroring = false →
    exec (.contextStart ch) s = .next { replied s ch x.nextSeq 0x11 stOK [] with
      sched := { s.sched with waiting := s.sched.waiting ++ [c] } }) ∧
  (∀ (s : State) (ch c : Nat) (p : Bytes) (x : Session) (k : Ctx), Asks s ch 0x11 p x → leNat p = c → c < 256 →
    s.ctx? c = some k → k.session = ch → k.tearMode ≠ 3 → k.st ≠ .waiting →
    exec (.contextStart ch) s = .next (replied s ch x.nextSeq 0x11 stFormat [])) ∧
  (∀ (s : State) (ch c : Nat) (p : Bytes) (x : Session) (k : Ctx) (q : Part), Asks s ch 0x12 p x → leNat p = c → c < 256 →
    s.ctx? c = some k → k.session = ch → k.tearMode ≠ 3 → k.st = .running → k.stopping = false → k.part = some q →
    k.busy = true → s.ports = [] →
    ∃ t, exec (.contextDestroyDrain ch) s = .next t ∧
      t = { deferred s ch x.nextSeq 0x12 p (some c) with
        ctxs := tabUpd s.ctxs c (fun k => { k with draining := true }), ports := t.ports, out := t.out }) ∧
  (∀ (s : State) (ch c : Nat) (p : Bytes) (x : Session) (k : Ctx), Asks s ch 0x12 p x → leNat p = 256 + c → c < 256 →
    s.ctx? c = some k → k.session = ch → k.tearMode = 0 → k.st = .running → k.stopping = false →
    ∃ t g, exec (.contextDestroyAbort ch) s = .next t ∧ t.ctx? c = some g ∧ g.st = .tearingDown ∧ g.tearMode = 2 ∧
      t.fuse = s.fuse ∧ t.boot = s.boot ∧
      (∃ r ∈ t.mbox.taken, r.ch = ch ∧ r.seq = x.nextSeq ∧ r.opcode = 0x12)))

/-- Windows and regions (R332, R383): a window of at least 4 KiB on 4 KiB boundaries takes the lowest free handle; one that
no ring, body area or outstanding descriptor uses is released; a region of whole 64 KiB units is the context's, zero, and
its address is answered.

MEM_COPY (R383, R425): a copy whose ranges lie in a window and in a region of the context waits for its completion;
then exactly its bytes have moved, to LPDDR5 or to host memory, and its reply is ready. Ranges outside are FORMAT. -/
def Obligations.WindowsRegionsAndCopies : Prop :=
  (
  (∀ (s : State) (ch c n : Nat) (p : Bytes) (x : Session) (k : Ctx), Asks s ch 0x20 p x → pf p 7 0 = c →
    s.ctx? c = some k → k.session = ch → k.tearMode ≠ 3 → onlyBits (leNat p) [(7, 0), (191, 64)] = true →
    pf p 127 64 % 4096 = 0 → pf p 191 128 % 4096 = 0 → 4096 ≤ pf p 191 128 → pf p 127 64 + pf p 191 128 ≤ 2 ^ 64 →
    tabFree k.windows 64 = some n → s.mirroring = false →
    exec (.windowRegister ch) s = .next { replied s ch x.nextSeq 0x20 stOK [BitVec.ofNat 8 n] with
      ctxs := tabUpd s.ctxs c (fun k => { k with
        windows := tabPut k.windows n { base := pf p 127 64, length := pf p 191 128, writable := true } }) }) ∧
  (∀ (s : State) (ch c n : Nat) (p : Bytes) (x : Session) (k : Ctx) (w : Window), Asks s ch 0x21 p x → pf p 7 0 = c →
    pf p 13 8 = n → onlyBits (leNat p) [(13, 0)] = true → s.ctx? c = some k → k.session = ch → k.tearMode ≠ 3 →
    tabFind k.windows n = some w → s.windowUsed c w = false → (∀ q ∈ s.ctxSqs c, q.2.outst = []) → s.mirroring = false →
    exec (.windowRelease ch) s = .next { replied s ch x.nextSeq 0x21 stOK [] with
      ctxs := tabUpd s.ctxs c (fun k => { k with windows := tabDel k.windows n }) }) ∧
  (∀ (s : State) (ch c n : Nat) (p : Bytes) (x : Session) (k : Ctx) (w : Window), Asks s ch 0x21 p x → pf p 7 0 = c →
    pf p 13 8 = n → onlyBits (leNat p) [(13, 0)] = true → s.ctx? c = some k → k.session = ch → k.tearMode ≠ 3 →
    tabFind k.windows n = some w → s.windowUsed c w = true →
    exec (.windowRelease ch) s = .next (replied s ch x.nextSeq 0x21 stNoResource [])) ∧
  (∀ (s : State) (ch c i n : Nat) (p : Bytes) (x : Session) (k : Ctx) (u : Nat), Asks s ch 0x22 p x → pf p 7 0 = c →
    pf p 63 32 = n → onlyBits (leNat p) [(7, 0), (63, 32)] = true → s.ctx? c = some k → k.session = ch → k.tearMode ≠ 3 →
    n % 65536 = 0 → n ≠ 0 → tabFree k.regions 16 = some i → lpFind s (n / 65536) = some u → s.mirroring = false →
    ∃ t, exec (.regionAlloc ch) s = .next t ∧
      t = { replied s ch x.nextSeq 0x22 stOK (toLe 8 (65536 * u)) with
        ctxs := tabUpd s.ctxs c (fun k => { k with regions := tabPut k.regions i (65536 * u, n) }), lp := t.lp } ∧
      (∀ a, 65536 * u ≤ a → a < 65536 * u + n → memRead t.lp.mem a = 0 ∧ tabGet 0 t.lp.owner (a / 65536) = c + 1) ∧
      (∀ a, (a < 65536 * u ∨ 65536 * u + n ≤ a) → memRead t.lp.mem a = memRead s.lp.mem a))) ∧
  (
  (∀ (s : State) (ch c : Nat) (p : Bytes) (x : Session) (k : Ctx), pf p 7 0 = c → s.ctx? c = some k → k.session = ch →
    k.tearMode ≠ 3 → onlyBits (leNat p) [(8, 0), (223, 64)] = true → 1 ≤ pf p 223 192 → Asks s ch 0x23 p x →
    (k.inWindow (pf p 127 64) (pf p 223 192) = true → (k.regionAt (pf p 191 128) (pf p 223 192)).isSome = true →
      k.st ≠ .tearingDown → k.st ≠ .faulted →
      (bit (leNat p) 8 = false → exec (.memCopyToDevice ch) s = .next (deferred s ch x.nextSeq 0x23 p (some c))) ∧
      (bit (leNat p) 8 = true → exec (.memCopyToHost ch) s = .next (deferred s ch x.nextSeq 0x23 p (some c)))) ∧
    (k.inWindow (pf p 127 64) (pf p 223 192) = false →
      (bit (leNat p) 8 = false → exec (.memCopyToDevice ch) s = .next (replied s ch x.nextSeq 0x23 stFormat [])) ∧
      (bit (leNat p) 8 = true → exec (.memCopyToHost ch) s = .next (replied s ch x.nextSeq 0x23 stFormat [])))) ∧
  (∀ (s : State) (ch seq : Nat) (r : Request),
    s.mbox.taken.find? (fun r => r.ch == ch && r.seq == seq && r.opcode == 0x23) = some r →
    s.works = true → s.busMaster 0 = true → s.replyWaits ch seq = false → s.mirroring = false → s.lp.err = [] →
    let host := pf r.payload 127 64
    let dev := pf r.payload 191 128
    let n := pf r.payload 223 192
    ∃ t, exec (.memCopyComplete ch seq) s = .next t ∧
      (if bit (leNat r.payload) 8 then
        memBytes t.hostMem host n = memBytes s.lp.mem dev n ∧ LpServed s.lp t.lp ∧
        (∀ a, (a < host ∨ host + n ≤ a) → memRead t.hostMem a = memRead s.hostMem a)
       else
        memBytes t.lp.mem dev n = memBytes s.hostMem host n ∧ t.hostMem = s.hostMem ∧
        (∀ a, (a < dev ∨ dev + n ≤ a) → memRead t.lp.mem a = memRead s.lp.mem a)) ∧
      (∃ m ∈ tabGet [] t.mbox.ready ch, m.reply = true ∧ m.seq = seq ∧ m.opcode = 0x23 ∧ m.status = stOK) ∧
      t = { s with mbox := t.mbox, hostMem := t.hostMem, lp := t.lp }))

/-- Loads and bindings of models (R186, R247, R365, R371, R383, R471): a load whose envelope lies in a window waits for its
check with firmware's copy of the envelope, in external memory that firmware owns, and where none is free it is answered
NO_RESOURCE; with Bus Master Enable 0 it waits; when the check fails, the load is answered with its status and nothing is bound;
a lexicon binding of a context that is not RUNNING takes effect at once, unless a walk uses the slot, and that of a RUNNING one
waits; a root table is set for a site of a legacy layout.

Queue bindings and text streams (R350, R351, R367, R383): a correct binding record binds a free queue number to the
context, empty, at index 0; a queue is unbound whose accepted descriptors have all completed, and the records of them that are
still to be written keep its last head; a text stream opens under a free number and closes when its jobs are done. -/
def Obligations.LoadsBindingsAndQueues : Prop :=
  (
  let names := fun (s : State) (ch c : Nat) (k : Ctx) => s.ctx? c = some k ∧ k.session = ch ∧ k.tearMode ≠ 3
  (∀ (s : State) (ch c op : Nat) (p : Bytes) (x : Session) (k : Ctx), Asks s ch op p x → (op = 0x30 ∨ op = 0x31) → pf p 7 0 = c →
    names s ch c k → onlyBits (leNat p) [(7, 0), (191, 64)] = true → s.busMaster 0 = true →
    k.inWindow (pf p 127 64) (pf p 191 128) = true → (op = 0x30 → k.st = .empty ∨ k.st = .waiting) →
    k.st ≠ .tearingDown → k.st ≠ .faulted →
    let load := if op = 0x30 then Instr.bundleLoad ch else Instr.lexiconLoad ch
    let d := deferred s ch x.nextSeq op p (some c)
    (∀ a u, s.lpAlloc 257 (pf p 191 128) = some (a, u) → s.lp.err = [] →
      ∃ t, exec load s = .next t ∧
        t = { d with lp := t.lp, mbox := { d.mbox with copies := (ch, x.nextSeq, a, pf p 191 128) :: s.mbox.copies } } ∧
        memBytes t.lp.mem a (pf p 191 128) = memBytes s.hostMem (pf p 127 64) (pf p 191 128) ∧ t.lp.owner = u.lp.owner) ∧
    (s.lpAlloc 257 (pf p 191 128) = none → exec load s = .next (replied s ch x.nextSeq op stNoResource []))) ∧
  (∀ (s : State) (ch c op : Nat) (p : Bytes) (x : Session) (k : Ctx), Asks s ch op p x → (op = 0x30 ∨ op = 0x31) → pf p 7 0 = c →
    names s ch c k → onlyBits (leNat p) [(7, 0), (191, 64)] = true → s.busMaster 0 = false →
    k.st ≠ .tearingDown → k.st ≠ .faulted → (∀ r ∈ s.mbox.taken, ¬(r.ch = ch ∧ r.seq = x.nextSeq)) →
    let d := deferred s ch x.nextSeq op p (some c)
    exec (if op = 0x30 then .bundleLoad ch else .lexiconLoad ch) s = .next { d with
      mbox := { d.mbox with taken := s.mbox.taken ++
        [{ ch := ch, seq := x.nextSeq, opcode := op, payload := p, ctx := some c, hostWait := true }] } }) ∧
  (∀ (s : State) (ch seq op c a n : Nat) (r : Request) (k : Ctx), (op = 0x30 ∨ op = 0x31) →
    s.mbox.taken.find? (fun r => r.ch == ch && r.seq == seq && (r.opcode == 0x30 || r.opcode == 0x31)) = some r →
    s.mbox.copies.find? (fun k => k.1 == ch && k.2.1 == seq) = some (ch, seq, a, n) → s.lp.err = [] →
    r.opcode = op → s.works = true → s.replyWaits ch seq = false → s.mirroring = false → pf r.payload 7 0 = c →
    s.ctx? c = some k → (∀ y ∈ s.sched.admitting, y.1 ≠ c) →
    let b := memBytes s.lp.mem a n
    let st := s.envelopeStatus b (op == 0x31)
    let u := (s.lpRead 8 0 none a n).1
    let bound := u.bindBundle c (ch, seq) b
    let kept := u.keepLexicon c (ch, seq) b
    let only := fun (t : State) (status : Nat) =>
      t = { s.reply ch seq op status [] with
        lp := t.lp, mbox := { (s.reply ch seq op status []).mbox with copies := t.mbox.copies } }
    ∃ t, exec (.envelopeCheckComplete ch seq) s = .next t ∧ (ch, seq, a, n) ∉ t.mbox.copies ∧
      (st ≠ stOK → only t st) ∧
      (st = stOK → op = 0x30 → bound.2 ≠ stOK → only t bound.2) ∧
      (st = stOK → op = 0x30 → bound.2 = stOK → k.st = .empty →
        ∃ g, t.ctx? c = some g ∧ g.st = .waiting ∧ g.image = ((secsOf b 1).head?).map (fun x => imageOf (secBytes b x)) ∧
          g.bundles = k.bundles ++ [b] ∧ g.params = k.params ∧ g.session = k.session ∧ g.windows = k.windows ∧
          g.regions = k.regions ∧ t.fuse = s.fuse ∧ t.boot = s.boot ∧ t.hq = s.hq ∧ t.fab = s.fab ∧ t.ports = s.ports) ∧
      (st = stOK → op = 0x31 → kept.2.1 ≠ stOK → only t kept.2.1) ∧
      (st = stOK → op = 0x31 → kept.2.1 = stOK →
        ∃ d, (t.lexicon d).isSome = true ∧ t.ctxs = tabUpd s.ctxs c (fun k => { k with
          loaded := k.loaded ++ [{ kind := 1, digest := digest32 (evCovered b), order := s.sched.loadSeq, name := d,
                                   req := (ch, seq) }] }) ∧ t.hq = s.hq ∧ t.boot = s.boot)) ∧
  (∀ (s : State) (ch c slot : Nat) (p : Bytes) (x : Session) (k : Ctx), Asks s ch 0x32 p x → pf p 7 0 = c →
    names s ch c k → onlyBits (leNat p) [(11, 0), (511, 256)] = true → pf p 11 8 = slot → 1 ≤ slot →
    s.lexSuits c (slice p 32 32) = true → (slice p 32 32).any (fun b => b != 0) = true →
    s.lexFits c slot (slice p 32 32) = true → k.st = .running → s.mirroring = false →
    exec (.lexiconBind ch) s = .next { replied s ch x.nextSeq 0x32 stOK [] with
      sten := { s.sten with
        waiting := s.sten.waiting.filter (fun w => !(w.1 == c && w.2.1 == slot)) ++ [(c, slot, some (slice p 32 32))] } }) ∧
  (∀ (s : State) (ch c slot : Nat) (p : Bytes) (x : Session) (k : Ctx), Asks s ch 0x32 p x → pf p 7 0 = c →
    names s ch c k → onlyBits (leNat p) [(11, 0), (511, 256)] = true → pf p 11 8 = slot → 1 ≤ slot →
    s.lexSuits c (slice p 32 32) = true → (slice p 32 32).any (fun b => b != 0) = true →
    s.lexFits c slot (slice p 32 32) = true → k.st ≠ .running → s.mirroring = false →
    (∀ q ∈ (s.reading c).seqs, q.lex = false) →
    ∃ t, exec (.lexiconBind ch) s = .next t ∧ tabFind t.sten.slots (c * 16 + slot) = some (slice p 32 32) ∧
      (∀ w ∈ t.sten.waiting, w.1 ≠ c) ∧ t.ctxs = s.ctxs ∧ t.hq = s.hq ∧ t.ports = s.ports ∧ t.boot = s.boot ∧ t.fuse = s.fuse) ∧
  (∀ (s : State) (ch c : Nat) (p : Bytes) (x : Session) (k : Ctx), Asks s ch 0x32 p x → pf p 7 0 = c →
    names s ch c k → onlyBits (leNat p) [(11, 0), (511, 256)] = true → 1 ≤ pf p 11 8 →
    s.lexSuits c (slice p 32 32) = false → (slice p 32 32).any (fun b => b != 0) = true →
    exec (.lexiconBind ch) s = .next (replied s ch x.nextSeq 0x32 stFormat [])) ∧
  (∀ (s : State) (ch c : Nat) (p : Bytes) (x : Session) (k : Ctx), Asks s ch 0x32 p x → pf p 7 0 = c →
    names s ch c k → onlyBits (leNat p) [(11, 0), (511, 256)] = true → 1 ≤ pf p 11 8 →
    s.lexSuits c (slice p 32 32) = true → (slice p 32 32).any (fun b => b != 0) = true →
    s.lexFits c (pf p 11 8) (slice p 32 32) = false →
    exec (.lexiconBind ch) s = .next (replied s ch x.nextSeq 0x32 stNoResource [])) ∧
  (∀ (s : State) (ch c site a kv : Nat) (p : Bytes) (x : Session) (k : Ctx), Asks s ch 0x33 p x → pf p 7 0 = c →
    names s ch c k → onlyBits (leNat p) [(7, 0), (13, 8), (127, 64)] = true → pf p 13 8 = site → pf p 127 64 = a →
    a % 8192 = 0 → k.kvRec = some kv → kvLegacy kv = true → site < kvSites kv → (k.regionAt a 8192).isSome = true →
    exec (.legacyRootSet ch) s = .next { replied s ch x.nextSeq 0x33 stOK [] with
      read := { s.read with
        ctx := (s.putReading c { s.reading c with sites := tabPut (s.reading c).sites site a }).read.ctx } })) ∧
  (
  let names := fun (s : State) (ch c : Nat) (k : Ctx) => s.ctx? c = some k ∧ k.session = ch ∧ k.tearMode ≠ 3
  (∀ (s : State) (ch c q w : Nat) (p : Bytes) (x : Session) (k : Ctx), Asks s ch 0x40 p x → pf p 23 16 = c → pf p 13 0 = q →
    pf p 1023 512 = w → names s ch c k → queueFmt p = true → bit w 0 = true → tabFind s.hq q = none →
    k.inWindow (fld w 127 64) (64 * 2 ^ fld w 12 8) = true → k.inWindow (fld w 255 192) (2 ^ fld w 260 256) = true →
    s.mirroring = false →
    exec (.queueBindCq ch) s = .next { replied s ch x.nextSeq 0x40 stOK [] with
      hq := tabPut s.hq q { isCq := true, binding := w, ctx := c } }) ∧
  (∀ (s : State) (ch c q w : Nat) (p : Bytes) (x : Session) (k : Ctx) (g : HwQueue), Asks s ch 0x40 p x → pf p 23 16 = c →
    pf p 13 0 = q → pf p 1023 512 = w → names s ch c k → queueFmt p = true → bit w 0 = false → fld w 39 32 = c →
    tabFind s.hq q = none → k.inWindow (fld w 127 64) (64 * 2 ^ fld w 12 8) = true →
    tabFind s.hq (fld w 29 16) = some g → g.isCq = true → s.inSession ch g.ctx = true →
    2 * k.largestBody ≤ g.bodySize → (s.ctxSqs c).length < 1024 → k.profile = none → s.mirroring = false →
    exec (.queueBindSq ch) s = .next { replied s ch x.nextSeq 0x40 stOK [] with
      hq := tabPut s.hq q { isCq := false, binding := w, ctx := c },
      intake := { s.intake with sources := tabPut s.intake.sources (64 + q) { ctx := c, level := 0 } } }) ∧
  (∀ (s : State) (ch c q w : Nat) (p : Bytes) (x : Session) (k : Ctx) (h : HwQueue), Asks s ch 0x40 p x → pf p 23 16 = c →
    pf p 13 0 = q → pf p 1023 512 = w → names s ch c k → queueFmt p = true → tabFind s.hq q = some h →
    exec (if bit w 0 then .queueBindCq ch else .queueBindSq ch) s = .next (replied s ch x.nextSeq 0x40 stFormat [])) ∧
  (∀ (s : State) (ch q : Nat) (p : Bytes) (x : Session) (h : HwQueue) (k : Ctx), Asks s ch 0x41 p x → pf p 13 0 = q →
    onlyBits (leNat p) [(13, 0)] = true → tabFind s.hq q = some h → names s ch h.ctx k → s.mayUnbind q h = true →
    s.mirroring = false →
    exec (.queueUnbind ch) s = .next { replied s ch x.nextSeq 0x41 stOK [] with
      hq := tabMap (tabDel s.hq q) (fun _ y => { y with
        ready := y.ready.map (fun r => if r.sq = some q ∧ r.sqHead = none then { r with sqHead := some h.head } else r) }),
      intake := { s.intake with sources := tabDel s.intake.sources (64 + q) } }) ∧
  (∀ (s : State) (ch q : Nat) (p : Bytes) (x : Session) (h : HwQueue) (k : Ctx) (d : Desc), Asks s ch 0x41 p x → pf p 13 0 = q →
    onlyBits (leNat p) [(13, 0)] = true → tabFind s.hq q = some h → names s ch h.ctx k → h.isCq = false → d ∈ h.outst →
    d.done = false → (∀ z ∈ s.hq, ∀ r ∈ z.2.ready, r.sq ≠ some q ∨ r.descNo ≠ d.no) →
    exec (.queueUnbind ch) s = .next (replied s ch x.nextSeq 0x41 stNoResource [])) ∧
  (∀ (s : State) (ch c n : Nat) (p : Bytes) (x : Session) (k : Ctx), Asks s ch 0x42 p x → pf p 7 0 = c → pf p 15 8 = n →
    onlyBits (leNat p) [(15, 0)] = true → names s ch c k → tabFind s.text.streams n = none → s.mirroring = false →
    exec (.textStreamOpen ch) s = .next { replied s ch x.nextSeq 0x42 stOK [] with
      text := { s.text with streams := tabPut s.text.streams n { ctx := c } } }) ∧
  (∀ (s : State) (ch n : Nat) (p : Bytes) (x : Session) (z : TextStream) (k : Ctx), Asks s ch 0x43 p x → pf p 15 8 = n →
    onlyBits (leNat p) [(15, 8)] = true → tabFind s.text.streams n = some z → names s ch z.ctx k → z.jobs ≠ [] →
    k.st ≠ .tearingDown → k.st ≠ .faulted →
    exec (.textStreamClose ch) s = .next { deferred s ch x.nextSeq 0x43 p (some z.ctx) with
      text := { s.text with
        streams := tabUpd s.text.streams n (fun z => { z with closing := some (ch, x.nextSeq) }) } }))

/-- Ports bound and unbound (R249, R272, R381, R383): an OFF port without a record takes a context and its CQ; a port bound
under the session is answered NO_RESOURCE, and one bound under another session FORMAT; an idle port is unbound and goes OFF, keeping its record and tables, and one with a page that has no
written record is not.

PORT_CONFIG (R255, R277, R383): a record that breaks a rule, or lies outside the windows, is FORMAT, and one whose quota
the intake buffers cannot give is NO_RESOURCE, and neither changes the port; one that fits is applied at once with no page
open, and otherwise waits for the page to end. -/
def Obligations.PortsBoundAndConfigured : Prop :=
  (
  let owns := fun (s : State) (ch c : Nat) (k : Ctx) => s.ctx? c = some k ∧ k.session = ch ∧ k.tearMode ≠ 3
  (∀ (s : State) (ch n c cq : Nat) (p : Bytes) (x : Session) (k : Ctx) (g : HwQueue), Asks s ch 0x50 p x → owns s ch c k →
    onlyBits (leNat p) [(1, 0), (15, 8), (45, 32), (48, 48)] = true → bit (leNat p) 48 = false → pf p 1 0 = n →
    pf p 15 8 = c → pf p 45 32 = cq → tabFind s.hq cq = some g → g.isCq = true → s.inSession ch g.ctx = true →
    2 * k.largestBody ≤ g.bodySize → (s.port n).ctx = none → (s.port n).page = none → (s.port n).cfg = none →
    ∃ t, exec (.portBind ch) s = .next t ∧ (t.port n).ctx = some c ∧ (t.port n).cq = cq ∧ (t.port n).st = .off ∧
      (t.port n).cfg = none ∧ (∀ m, m ≠ n → (t.port m).ctx = (s.port m).ctx ∧ (t.port m).st = (s.port m).st) ∧
      t = { replied s ch x.nextSeq 0x50 stOK [] with ports := t.ports, out := t.out }) ∧
  (∀ (s : State) (ch n c cq : Nat) (p : Bytes) (x : Session) (k : Ctx) (g : HwQueue) (d : Nat), Asks s ch 0x50 p x →
    owns s ch c k → onlyBits (leNat p) [(1, 0), (15, 8), (45, 32), (48, 48)] = true → bit (leNat p) 48 = false →
    pf p 1 0 = n → pf p 15 8 = c → pf p 45 32 = cq → tabFind s.hq cq = some g → g.isCq = true →
    s.inSession ch g.ctx = true → (s.port n).ctx = some d → (s.port n).cfg = none →
    ((∃ y, owns s ch d y) → exec (.portBind ch) s = .next (replied s ch x.nextSeq 0x50 stNoResource [])) ∧
    ((∀ y, s.ctx? d = some y → y.session ≠ ch) → exec (.portBind ch) s = .next (refused s ch x.nextSeq 0x50 stFormat))) ∧
  (∀ (s : State) (ch n c : Nat) (p : Bytes) (x : Session) (k : Ctx), Asks s ch 0x50 p x → owns s ch c k →
    onlyBits (leNat p) [(1, 0), (15, 8), (45, 32), (48, 48)] = true → bit (leNat p) 48 = true → pf p 1 0 = n →
    (s.port n).ctx = some c → (s.port n).page = none → (s.port n).pages = [] → (s.port n).st ≠ .calibrating →
    (∀ r ∈ s.mbox.taken, r.opcode ≠ 0x53) →
    ∃ t, exec (.portUnbind ch) s = .next t ∧ (t.port n).ctx = none ∧ (t.port n).st = .off ∧ (t.port n).quota = 0 ∧
      (t.port n).chunks = [] ∧ (t.port n).cfg = (s.port n).cfg ∧ (t.port n).dark = (s.port n).dark ∧
      (t.port n).gain = (s.port n).gain ∧
      t = { replied s ch x.nextSeq 0x50 stOK [] with ports := t.ports, lp := t.lp, out := t.out }) ∧
  (∀ (s : State) (ch n c : Nat) (p : Bytes) (x : Session) (k : Ctx), Asks s ch 0x50 p x → owns s ch c k →
    onlyBits (leNat p) [(1, 0), (15, 8), (45, 32), (48, 48)] = true → bit (leNat p) 48 = true → pf p 1 0 = n →
    (s.port n).ctx = some c → (s.port n).pages ≠ [] →
    exec (.portUnbind ch) s = .next (replied s ch x.nextSeq 0x50 stNoResource []))) ∧
  (
  let owns := fun (s : State) (ch c : Nat) (k : Ctx) => s.ctx? c = some k ∧ k.session = ch ∧ k.tearMode ≠ 3
  let asks := fun (s : State) (ch n c : Nat) (p : Bytes) (x : Session) (k : Ctx) => Asks s ch 0x51 p x ∧ owns s ch c k ∧
    onlyBits (leNat p) [(1, 0), (127, 64)] = true ∧ pf p 1 0 = n ∧ (s.port n).ctx = some c ∧ s.busMaster 0 = true
  let record := fun (s : State) (p : Bytes) => parsePortCfg (memBytes s.hostMem (pf p 127 64) 1024)
  (∀ (s : State) (ch n c : Nat) (p : Bytes) (x : Session) (k : Ctx), asks s ch n c p x k →
    (k.inWindow (pf p 127 64) 1024 = false ∨ (record s p).formatOk n = false) →
    exec (.portConfig ch) s = .next (replied s ch x.nextSeq 0x51 stFormat [])) ∧
  (∀ (s : State) (ch n c : Nat) (p : Bytes) (x : Session) (k : Ctx), asks s ch n c p x k →
    k.inWindow (pf p 127 64) 1024 = true → (record s p).formatOk n = true → k.profile = none → s.quotaFits n (record s p) = false →
    exec (.portConfig ch) s = .next (replied s ch x.nextSeq 0x51 stNoResource [])) ∧
  (∀ (s u : State) (l : List Nat) (ch n c : Nat) (p : Bytes) (x : Session) (k : Ctx), asks s ch n c p x k →
    k.inWindow (pf p 127 64) 1024 = true → (record s p).formatOk n = true → k.profile = none → s.quotaFits n (record s p) = true →
    k.realTime = false → (s.port n).page = none → s.reserveFor n c (record s p).storeMib = some (u, l) →
    ∃ t, exec (.portConfig ch) s = .next t ∧ (t.port n).cfg = some (record s p) ∧ (t.port n).quota = (record s p).quota ∧
      (t.port n).locked = false ∧ (t.port n).hist = [] ∧
      t = { replied s ch x.nextSeq 0x51 stOK [] with ports := t.ports, lp := t.lp, out := t.out }) ∧
  (∀ (s u : State) (l : List Nat) (ch n c : Nat) (p : Bytes) (x : Session) (k : Ctx) (g : Page), asks s ch n c p x k →
    k.inWindow (pf p 127 64) 1024 = true → (record s p).formatOk n = true → k.profile = none → s.quotaFits n (record s p) = true →
    k.realTime = false → (s.port n).page = some g → s.reserveFor n c (record s p).storeMib = some (u, l) →
    exec (.portConfig ch) s = .next { replied s ch x.nextSeq 0x51 stOK [] with
      lp := u.lp, ports := tabPut u.ports n { u.port n with newCfg := some (record s p, l) } }))

/-- Captures and calibrations (R13, R249, R261, R262, R267, R383): a start takes an ARMED port to CAPTURING and is answered
NO_RESOURCE for an OFF one; a stop of a port that captures, with no page open, ends the capture, and with one open waits for
its end; CALIBRATE of an ARMED port begins and waits; a calibration table is read from a window into the port. -/
def Obligations.CapturesAndCalibrations : Prop :=
  let owns := fun (s : State) (ch n : Nat) (k : Ctx) =>
    ∃ c, (s.port n).ctx = some c ∧ s.ctx? c = some k ∧ k.session = ch ∧ k.tearMode ≠ 3
  (∀ (s : State) (ch n : Nat) (p : Bytes) (x : Session) (k : Ctx), Asks s ch 0x52 p x → leNat p = n → n < 4 → owns s ch n k →
    (s.port n).st = .armed → k.draining = false →
    ∃ t, exec (.captureStart ch) s = .next t ∧ (t.port n).st = .capturing ∧ (t.port n).ctx = (s.port n).ctx ∧
      (t.port n).cfg = (s.port n).cfg ∧ t = { replied s ch x.nextSeq 0x52 stOK [] with ports := t.ports } ∧
      (∀ m, m ≠ n → t.port m = s.port m)) ∧
  (∀ (s : State) (ch n : Nat) (p : Bytes) (x : Session) (k : Ctx), Asks s ch 0x52 p x → leNat p = n → n < 4 → owns s ch n k →
    (s.port n).st = .off →
    exec (.captureStart ch) s = .next (replied s ch x.nextSeq 0x52 stNoResource [])) ∧
  (∀ (s : State) (ch n : Nat) (p : Bytes) (x : Session) (k : Ctx), Asks s ch 0x53 p x → leNat p = n → n < 4 → owns s ch n k →
    k.st = .running → (s.port n).st ≠ .capturing →
    exec (.captureStop ch) s = .next (replied s ch x.nextSeq 0x53 stOK [])) ∧
  (∀ (s : State) (ch n : Nat) (p : Bytes) (x : Session) (k : Ctx) (g : Page), Asks s ch 0x53 p x → leNat p = n → n < 4 →
    owns s ch n k → k.st = .running → (s.port n).st = .capturing → (s.port n).page = some g →
    exec (.captureStop ch) s = .next { deferred s ch x.nextSeq 0x53 p (s.port n).ctx with
      ports := tabPut s.ports n { s.port n with stopReq := some (ch, x.nextSeq) } }) ∧
  (∀ (s : State) (ch n : Nat) (p : Bytes) (x : Session) (k : Ctx), Asks s ch 0x53 p x → leNat p = n → n < 4 → owns s ch n k →
    k.st = .running → (s.port n).st = .capturing → (s.port n).page = none → (∀ r ∈ s.mbox.taken, r.opcode ≠ 0x53) →
    ∃ t, exec (.captureStop ch) s = .next t ∧ (t.port n).st = .armed ∧ (t.port n).tokens = 0 ∧
      t = { replied s ch x.nextSeq 0x53 stOK [] with ports := t.ports, out := t.out }) ∧
  (let begun := fun (s : State) (ch n kind : Nat) (p : Bytes) (x : Session) =>
    { deferred s ch x.nextSeq 0x54 p (s.port n).ctx with
        ports := tabPut s.ports n { s.port n with
          st := .calibrating,
          calib := some { kind := kind, lines := pf p 23 16 + 1, target := pf p 47 32, taken := 0, sums := [], ch := ch,
                          seq := x.nextSeq } } }
   ∀ (s : State) (ch n : Nat) (p : Bytes) (x : Session) (k : Ctx), Asks s ch 0x54 p x → pf p 1 0 = n →
    onlyBits (leNat p) [(1, 0), (8, 8), (23, 16), (47, 32)] = true → owns s ch n k →
    (k.st = .running → (s.port n).st = .armed →
      (bit (leNat p) 8 = false → exec (.calibrateDark ch) s = .next (begun s ch n 0 p x)) ∧
      (bit (leNat p) 8 = true → exec (.calibrateWhite ch) s = .next (begun s ch n 1 p x))) ∧
    ((s.port n).st ≠ .armed →
      (bit (leNat p) 8 = false → exec (.calibrateDark ch) s = .next (replied s ch x.nextSeq 0x54 stNoResource [])) ∧
      (bit (leNat p) 8 = true → exec (.calibrateWhite ch) s = .next (replied s ch x.nextSeq 0x54 stNoResource [])))) ∧
  (∀ (s : State) (ch n : Nat) (p : Bytes) (x : Session) (k : Ctx) (g : PortCfg), Asks s ch 0x55 p x → pf p 1 0 = n →
    onlyBits (leNat p) [(1, 0), (8, 8), (127, 64)] = true → owns s ch n k → (s.port n).cfg = some g → s.busMaster 0 = true →
    k.inWindow (pf p 127 64) (2 * g.colours * g.pixels) = true →
    (bit (leNat p) 8 = false → exec (.calibTableLoadDark ch) s = .next { replied s ch x.nextSeq 0x55 stOK [] with
      ports := tabPut s.ports n { s.port n with dark := s.tableOf g (pf p 127 64) 0 } }) ∧
    (bit (leNat p) 8 = true → exec (.calibTableLoadGain ch) s = .next { replied s ch x.nextSeq 0x55 stOK [] with
      ports := tabPut s.ports n { s.port n with gain := s.tableOf g (pf p 127 64) 0x4000 } }))

/-- STREAM_BIND, STREAM_UNBIND and PRIMER_PROFILE_SET (R279, R289, R297, R301, R383): a correct stream record takes the lowest
free number with picture memory of its own, and its source starts at split_min; an idle stream is unbound and its memory
goes back; a correct profile becomes the context's.

KV_TLB_INVALIDATE (R188, R383): between steps the entries that the scope names go from every atelier's TLB and the rest
stay, and the request is answered; while a decoder step runs, it waits for the next one. -/
def Obligations.StreamsProfilesAndTlb : Prop :=
  (
  let owns := fun (s : State) (ch c : Nat) (k : Ctx) => s.ctx? c = some k ∧ k.session = ch ∧ k.tearMode ≠ 3
  (∀ (s t : State) (ch c n w a : Nat) (p : Bytes) (x : Session) (k : Ctx), Asks s ch 0x56 p x → owns s ch c k → pf p 7 0 = c →
    pf p 1023 512 = w → onlyBits (leNat p) [(7, 0), (29, 16), (1023, 512)] = true → streamRecOk w = true → bit w 2 = false →
    pf p 29 16 = 0 → k.realTime = false → k.profile = none → s.mirroring = false → tabFree s.intake.streams 64 = some n →
    s.lpAlloc (c + 1) (streamBytes w) = some (a, t) →
    exec (.streamBind ch) s = .next { replied s ch x.nextSeq 0x56 stOK [BitVec.ofNat 8 n] with
      lp := t.lp,
      intake := { s.intake with
        streams := tabPut s.intake.streams n { record := w, ctx := c, cq := 0, lp := (a, streamBytes w) },
        sources := tabPut s.intake.sources n { ctx := c, level := 0 } } }) ∧
  (∀ (s : State) (ch n : Nat) (p : Bytes) (x : Session) (z : Stream) (k : Ctx), Asks s ch 0x57 p x → leNat p = n → n < 64 →
    tabFind s.intake.streams n = some z → owns s ch z.ctx k → z.waiting = [] → z.units = [] → s.mirroring = false →
    exec (.streamUnbind ch) s = .next { replied s ch x.nextSeq 0x57 stOK [] with
      lp := (s.lpFree z.lp.1 z.lp.2).lp,
      intake := { s.intake with
        streams := tabDel s.intake.streams n, sources := tabDel s.intake.sources n } }) ∧
  (∀ (s : State) (ch c : Nat) (p : Bytes) (x : Session) (k : Ctx), Asks s ch 0x58 p x → owns s ch c k → pf p 7 0 = c →
    onlyBits (leNat p) [(7, 0), (2047, 512)] = true → (parseProfile (slice p 64 192)).ok = true →
    profileTail (slice p 64 192) = true → k.image = none → k.realTime = false → s.ports = [] → s.intake.sources = [] →
    s.intake.buckets = [] → s.mirroring = false →
    ∃ t, exec (.primerProfileSet ch) s = .next t ∧
      t = { replied s ch x.nextSeq 0x58 stOK [] with
        ctxs := tabUpd s.ctxs c (fun k => { k with profile := some (slice p 64 192) }), ports := t.ports, out := t.out }) ∧
  (∀ (s : State) (ch c : Nat) (p : Bytes) (x : Session) (k : Ctx), Asks s ch 0x58 p x → owns s ch c k → pf p 7 0 = c →
    onlyBits (leNat p) [(7, 0), (2047, 512)] = true → (parseProfile (slice p 64 192)).ok = false →
    exec (.primerProfileSet ch) s = .next (refused s ch x.nextSeq 0x58 stFormat))) ∧
  (
  let asks := fun (s : State) (ch c scope : Nat) (p : Bytes) (x : Session) (k : Ctx) => Asks s ch 0x60 p x ∧ s.ctx? c = some k ∧
    k.session = ch ∧ k.tearMode ≠ 3 ∧ pf p 7 0 = c ∧ pf p 9 8 = scope ∧ invalFmt p = true ∧ k.st = .running ∧
    (scope = 0 ∨ ∃ kv, k.kvRec = some kv ∧ pf p 21 16 < kvSites kv) ∧ (scope ≠ 2 ∨ pf p 83 64 ≠ 0) ∧ scope < 3
  let answers := fun (s : State) (ch scope : Nat) (t : State) =>
    (scope = 0 → exec (.kvTlbInvalidateContext ch) s = .next t) ∧
    (scope = 1 → exec (.kvTlbInvalidateSite ch) s = .next t) ∧
    (scope = 2 → exec (.kvTlbInvalidateRange ch) s = .next t)
  let hit := fun (c scope : Nat) (p : Bytes) (e : TlbEntry) => e.ctx = c ∧ (scope = 0 ∨ (e.site = pf p 21 16 ∧
    (scope = 1 ∨ (pf p 51 32 ≤ e.lpn ∧ e.lpn < pf p 51 32 + pf p 83 64))))
  (∀ (s : State) (ch c scope : Nat) (p : Bytes) (x : Session) (k : Ctx), asks s ch c scope p x k →
    k.busy = false → (s.reading c).invals = [] →
    ∃ t, answers s ch scope t ∧ t = { replied s ch x.nextSeq 0x60 stOK [] with read := t.read } ∧
      (∀ a (e : TlbEntry), e ∈ tabGet [] t.read.tlb a ↔ e ∈ tabGet [] s.read.tlb a ∧ ¬ hit c scope p e)) ∧
  (∀ (s : State) (ch c scope : Nat) (p : Bytes) (x : Session) (k : Ctx), asks s ch c scope p x k →
    k.busy = true →
    ∃ t, answers s ch scope t ∧ t = { deferred s ch x.nextSeq 0x60 p (some c) with read := t.read } ∧
      t.read.tlb = s.read.tlb ∧
      (t.reading c).invals = (s.reading c).invals ++
        [{ scope := scope, site := pf p 21 16, first := pf p 51 32, count := pf p 83 64, ch := ch, seq := x.nextSeq }]))

/-- Counters and the outstanding report (R111, R276, R380, R388, R389, R495): COUNTER_QUERY answers the 8-byte value of each
code in order and clears nothing; OUTSTANDING_REPORT answers the report held, from an entry on, and during a freeze that of
the carry area, once firmware has written it: CARRY_AREA_WRITTEN puts the first 16,380 entries and the total there, and
answers a request that waits. -/
def Obligations.CountersAndReports : Prop :=
  (∀ (s : State) (ch c : Nat) (p : Bytes) (x : Session) (k : Ctx), Asks s ch 0x70 p x → pf p 1 0 = 0 → pf p 15 8 = c →
    s.ctx? c = some k → k.session = ch → k.tearMode ≠ 3 → counterFmt ctxCode p = true →
    exec (.counterQueryContext ch) s = .next (replied s ch x.nextSeq 0x70 stOK
      ((counterCodes p).flatMap (fun code => toLe 8 (tabGet 0 k.counters code))))) ∧
  (∀ (s : State) (ch n c : Nat) (p : Bytes) (x : Session) (k : Ctx), Asks s ch 0x70 p x → pf p 1 0 = 1 → pf p 15 8 = n →
    n < 4 → (s.port n).ctx = some c → s.ctx? c = some k → k.session = ch → k.tearMode ≠ 3 → counterFmt portCode p = true →
    exec (.counterQueryPort ch) s = .next (replied s ch x.nextSeq 0x70 stOK
      ((counterCodes p).flatMap (fun code => toLe 8 (tabGet 0 (s.port n).counters code))))) ∧
  (∀ (s : State) (ch : Nat) (p : Bytes) (x : Session), Asks s ch 0x71 p x → leNat p < 2 ^ 32 → s.err.frozen = false →
    exec (.outstandingReport ch) s = .next { replied s ch x.nextSeq 0x71 stOK
        (outReply s.boot.report s.boot.reportTotal (leNat p)) with
      boot := { s.boot with
        reportUnread := s.boot.reportUnread &&
          !(decide (leNat p < s.boot.report.length) && decide (s.boot.report.length ≤ leNat p + 1023)) } }) ∧
  (∀ (s : State) (ch : Nat) (p : Bytes) (x : Session), Asks s ch 0x71 p x → leNat p < 2 ^ 32 → s.err.frozen = true →
    s.boot.carryValid = true →
    exec (.outstandingReport ch) s = .next { replied s ch x.nextSeq 0x71 stOK
        (outReply s.boot.carry s.boot.carryTotal (leNat p)) with
      boot := { s.boot with
        carryUnread := s.boot.carryUnread &&
          !(decide (leNat p < s.boot.carry.length) && decide (s.boot.carry.length ≤ leNat p + 1023)) } }) ∧
  (∀ (s : State) (ch : Nat) (p : Bytes) (x : Session), Asks s ch 0x71 p x → leNat p < 2 ^ 32 → s.err.frozen = true →
    s.boot.carryValid = false →
    exec (.outstandingReport ch) s = .next (deferred s ch x.nextSeq 0x71 p none)) ∧
  (∀ s : State, s.alive = true → s.err.frozen = true → s.boot.carryValid = false →
    ∃ t, exec .carryAreaWritten s = .next t ∧
      t = { s with mbox := t.mbox, boot := { s.boot with
        carry := s.outEntries.take 16380, carryTotal := s.outEntries.length, carryValid := true,
        carryUnread := t.boot.carryUnread } } ∧
      ((∀ r ∈ s.mbox.taken, r.opcode ≠ 0x71) →
        t.mbox = s.mbox ∧ t.boot.carryUnread = !s.outEntries.isEmpty) ∧
      (∀ r : Request, s.mbox.taken = [r] → r.opcode = 0x71 →
        t.mbox.taken = [] ∧ tabGet [] t.mbox.ready r.ch = insertReady
          { opcode := 0x71, reply := true, status := stOK, seq := r.seq,
            payload := outReply (s.outEntries.take 16380) s.outEntries.length (pf r.payload 31 0), key := 0, frag := 0,
            ready := s.clk.time } (tabGet [] s.mbox.ready r.ch)))

/-- Links (R415, R419, R463): training brings a link up at the highest version both ends speak, sends the device's own
identity over it once the identity key is ready, and a discovery flit east if the EAST link is up; training without a common
version or with a lane that fails leaves it down. A retrain holds every flit that comes or goes meanwhile and counts one
LINK_RETRAINS for every context with a ring job on it; its end lets them go on in order. One that fails takes the link down. -/
def Obligations.LinksTrainAndRetrain : Prop :=
  let awake := fun (p : Power) => if p.state = 1 then { p with state := 0 } else p
  (∀ (s : State) (link : Nat) (peer : LinkPeer), s.alive = true → s.aonServes = false → link < 2 → (s.link link).up = false →
    peer.lanesOk = true → peer.minVer ≤ min peer.maxVer 1 → (s.ring.east.up = true → s.ring.east.retraining = false) →
    let hello : List Out := if s.boot.identityReady then [.identity link s.fuse.uid s.idDigest s.ownerBytes] else []
    let found : List Out :=
      if link = 0 ∨ s.ring.east.up = true then [.discovery { origin := s.fuse.uid, hops := 0 }] else []
    ∃ t, exec (.stretcherLinkTrainingComplete link peer) s = .next t ∧
      t = { s with ring := t.ring, out := found ++ hello ++ s.out, pwr := awake s.pwr } ∧
      t.link link = {
        up := true, version := min peer.maxVer 1, peerUid := peer.uid, peerIdentity := peer.identity,
        peerOwner := peer.owner, chans := (s.link link).chans } ∧
      t.link (1 - link) = s.link (1 - link) ∧ t.ring.size = s.ring.size ∧ t.ring.jobs = s.ring.jobs) ∧
  (∀ (s : State) (link : Nat) (peer : LinkPeer), (peer.lanesOk = false ∨ min peer.maxVer 1 < peer.minVer) →
    exec (.stretcherLinkTrainingComplete link peer) s = .next s) ∧
  (∀ (s : State) (link : Nat), s.alive = true → s.aonServes = false → link < 2 → (s.link link).up = true →
    (s.link link).retraining = false → s.mirroring = false →
    ∃ t, exec (.linkRetrain link) s = .next t ∧ t = { s with ring := t.ring, ctxs := t.ctxs, pwr := awake s.pwr } ∧
      t.link link = { s.link link with retraining := true } ∧ t.link (1 - link) = s.link (1 - link) ∧
      t.ring.jobs = s.ring.jobs ∧ t.carries link = false ∧
      (∀ c, (∀ j ∈ s.ring.jobs, j.ctx ≠ c) → t.ctx? c = s.ctx? c) ∧
      (∀ c k, s.ctx? c = some k → (∃ j ∈ s.ring.jobs, j.ctx = c) → countIf (fun z => z.1 == c) s.ctxs = 1 →
        t.ctx? c = some { k with counters := tabMod 0 k.counters 0x28 (fun v => min (v + 1) (2 ^ 48 - 1)) })) ∧
  (∀ (s : State) (link chan : Nat), s.alive = true → s.aonServes = false → link < 2 → (s.link link).up = true →
    (s.link link).retraining = true →
    exec (.creditReturn link chan) s = .next (s.setLink link { s.link link with
      came := (s.link link).came ++ [.creditReturn link chan] })) ∧
  (∀ (s : State) (link : Nat), s.alive = true → s.aonServes = false → link < 2 → (s.link link).retraining = true →
    (s.link link).came = [] →
    ∃ t, exec (.linkRetrainComplete link true) s = .next t ∧
      t = { s with ring := t.ring, out := (s.link link).leaves.reverse ++ s.out, pwr := awake s.pwr } ∧
      t.link link = { s.link link with retraining := false, leaves := [] } ∧ t.link (1 - link) = s.link (1 - link) ∧
      t.ring.jobs = s.ring.jobs ∧ t.ring.size = s.ring.size) ∧
  (∀ (s : State) (link chan : Nat), s.alive = true → s.aonServes = false → link < 2 → (s.link link).up = true →
    (s.link link).retraining = true → (s.link link).came = [.creditReturn link chan] →
    ∃ t, exec (.linkRetrainComplete link true) s = .next t ∧ t.ring.jobs = s.ring.jobs ∧
      t.link link = { s.link link with
        retraining := false, came := [], leaves := [], used := tabMod 0 (s.link link).used chan (· - 1) }) ∧
  (∀ (s : State) (link : Nat), s.alive = true → s.aonServes = false → link < 2 → (s.link link).retraining = true →
    s.ring.jobs = [] → s.pair.formed = false → s.pair.wanted = none → s.mirroring = false →
    ∃ t, exec (.linkRetrainComplete link false) s = .next t ∧ t = { s with ring := t.ring, pwr := awake s.pwr } ∧
      t.link link = { chans := (s.link link).chans } ∧ t.link (1 - link) = s.link (1 - link) ∧ t.ring.size = 0)

/-- Ring formation and job confirmation (R420): a discovery flit of another device goes on east with one more hop, and is
dropped at its eighth; a device's own closes the ring at 2 to 8 hops. A flit for a job that the device does not hold waits;
one that has come round with everything equal confirms the job, and one that differs ends it: AUTH for the owner key, else
FORMAT. A job that no flit confirms within 100 ms is answered FORMAT where a neighbour's flit shows another job_id in its
place, else NO_RESOURCE.

RING_JOB_SETUP (R200, R383, R416, R420): with a closed ring of N devices, both links up and a channel of 2 to 15 free on both,
a correct shard table of the context's window sets the job up under the lowest such channel, sends its confirmation flit
east, and its reply waits for the ring. -/
def Obligations.RingsAndRingJobsSetUp : Prop :=
  (
  let awake := fun (p : Power) => if p.state = 1 then { p with state := 0 } else p
  (∀ (s : State) (f : DiscFlit), s.carries 1 = true → f.origin = s.fuse.uid → 1 ≤ f.hops → f.hops ≤ 7 →
    exec (.ringDiscoveryFlit 1 f) s = .next { s with ring := { s.ring with size := f.hops + 1 }, pwr := awake s.pwr }) ∧
  (∀ (s : State) (f : DiscFlit), s.carries 1 = true → f.origin ≠ s.fuse.uid → f.hops + 1 < 8 → s.ring.east.up = true →
    s.ring.east.retraining = false →
    exec (.ringDiscoveryFlit 1 f) s = .next { s with
      out := .discovery { origin := f.origin, hops := f.hops + 1 } :: s.out, pwr := awake s.pwr }) ∧
  (∀ (s : State) (f : DiscFlit), s.ring.west.retraining = false → f.origin ≠ s.fuse.uid → 7 ≤ f.hops →
    exec (.ringDiscoveryFlit 1 f) s = .next s) ∧
  (∀ (s : State) (f : ConfirmFlit), s.carries 1 = true → s.works = true → f.origin ≠ s.fuse.uid →
    (∀ j ∈ s.ring.jobs, j.job ≠ f.job) →
    exec (.jobConfirmFlit 1 f) s = .next { s with
      ring := { s.ring with waiting := s.ring.waiting ++ [f] }, pwr := awake s.pwr }) ∧
  (∀ (s : State) (f : ConfirmFlit) (j : RingJob) (rest : List RingJob), s.carries 1 = true → s.works = true →
    f.origin = s.fuse.uid → s.ring.jobs = j :: rest → j.job = f.job → j.confirmed = false → j.dead = false →
    f.owner = s.ownerBytes → f.agree = true → f.n = j.n → j.index = (f.index + 1) % j.n → f.hops + 1 = j.n →
    ∀ (k : Ctx) (r : Request), s.ctx? j.ctx = some k → k.part = none → s.mbox.taken = [r] → r.opcode = 0x61 →
    r.ctx = some j.ctx → pf r.payload 63 32 = j.job →
    ∃ t, exec (.jobConfirmFlit 1 f) s = .next t ∧
      t = { s with
        ring := { s.ring with
          jobs := (j :: rest).map (fun z =>
            if z.ctx = j.ctx ∧ z.job = j.job then { z with confirmed := true, maxBlock := min z.maxBlock f.maxBlock }
            else z) },
        mbox := t.mbox, pwr := awake s.pwr } ∧
      t.mbox.taken = [] ∧
      (∃ m ∈ tabGet [] t.mbox.ready r.ch, m.reply = true ∧ m.seq = r.seq ∧ m.opcode = 0x61 ∧ m.status = stOK)) ∧
  (∀ (s : State) (f : ConfirmFlit) (j : RingJob) (rest : List RingJob) (r : Request), s.carries 1 = true → s.works = true →
    f.origin = s.fuse.uid → s.ring.jobs = j :: rest → j.job = f.job → j.confirmed = false → j.dead = false →
    (f.owner ≠ s.ownerBytes ∨ f.agree = false ∨ f.hops + 1 ≠ j.n) →
    s.mbox.taken = [r] → r.opcode = 0x61 → r.ctx = some j.ctx → pf r.payload 63 32 = j.job →
    ∃ t, exec (.jobConfirmFlit 1 f) s = .next t ∧
      t = { s with ring := t.ring, mbox := t.mbox, pwr := awake s.pwr } ∧
      t.ring.jobs = rest.filter (fun z => !(z.ctx == j.ctx && z.job == j.job)) ∧ t.mbox.taken = [] ∧
      (∃ m ∈ tabGet [] t.mbox.ready r.ch, m.reply = true ∧ m.seq = r.seq ∧ m.opcode = 0x61 ∧
        m.status = (if f.owner ≠ s.ownerBytes then stAuth else stFormat))) ∧
  (∀ (s : State) (j : RingJob) (r : Request), s.works = true → s.ring.jobs = [j] → j.confirmed = false → j.dead = false →
    s.mbox.taken = [r] → r.opcode = 0x61 → r.ctx = some j.ctx → pf r.payload 63 32 = j.job →
    ∃ t, exec (.ringJobConfirmTimeout j.ctx) s = .next t ∧ t = { s with ring := t.ring, mbox := t.mbox } ∧
      t.ring.jobs = [] ∧ t.mbox.taken = [] ∧ tabHas t.ring.east.chans j.chanEast = false ∧
      tabHas t.ring.west.chans j.chanWest = false ∧
      (∃ m ∈ tabGet [] t.mbox.ready r.ch, m.reply = true ∧ m.seq = r.seq ∧ m.opcode = 0x61 ∧
        m.status =
          (if s.ring.waiting.any (fun f => f.job != j.job && f.n == j.n && j.index == (f.index + 1) % j.n) = true
           then stFormat else stNoResource)))) ∧
  (
  ∀ (s : State) (ch c n a len job : Nat) (p : Bytes) (x : Session) (k : Ctx) (v : Variant) (g : RingEntry) (chn : Nat),
    Asks s ch 0x61 p x → pf p 7 0 = c → pf p 63 32 = job → pf p 67 64 = n → pf p 71 68 < n → 2 ≤ n → n ≤ 8 →
    pf p 191 128 = a → pf p 223 192 = len → onlyBits (leNat p) [(7, 0), (71, 32), (223, 128)] = true →
    s.busMaster 0 = true → s.ctx? c = some k → k.session = ch → k.tearMode ≠ 3 → k.ringVariant = some v →
    v.rings[0]? = some g → s.ring.jobs = [] → s.ring.waiting = [] → k.inWindow a len = true →
    shardsOk len n (shardTable (memBytes s.hostMem a len) n) = true →
    k.st ≠ .tearingDown → k.st ≠ .faulted → s.ring.size = n → s.ring.east.up = true → s.ring.west.up = true →
    s.ring.east.retraining = false →
    2 ≤ chn → chn < 16 → tabHas s.ring.east.chans chn = false → tabHas s.ring.west.chans chn = false →
    (∀ z, 2 ≤ z → z < chn → (tabHas s.ring.east.chans z = true ∨ tabHas s.ring.west.chans z = true)) →
    ∃ t j, exec (.ringJobSetup ch) s = .next t ∧
      t = { deferred s ch x.nextSeq 0x61 p (some c) with
        ring := t.ring,
        out := .confirm {
          origin := s.fuse.uid, hops := 0, job := job, n := n, index := pf p 71 68, cls := fld k.params 1 0,
          maxBlock := g.bufferBytes, shard := digest32 (memBytes s.hostMem a len), owner := s.ownerBytes,
          agree := true } :: s.out } ∧
      t.ring.jobs = [j] ∧ j.ctx = c ∧ j.job = job ∧ j.n = n ∧ j.index = pf p 71 68 ∧ j.chanEast = chn ∧ j.chanWest = chn ∧
      j.confirmed = false ∧ j.shards = shardTable (memBytes s.hostMem a len) n ∧ j.entry = 0 ∧
      tabFind t.ring.east.chans chn = some c ∧ tabFind t.ring.west.chans chn = some c)

/-- Blocks, credits, ring barriers and abort notices (R202 to R204, R418, R421, R422): a block for no job, or for one that is
torn down, is discarded and its credit returned; one for a job lands in the buffer that its credit reserved, in the saved
state where the context is pre-empted; one that no FORWARD reads and that goes no further gives its credit back at once, and
any other keeps its buffer; a
credit that returns frees one of the sender's two. A token goes on east once the local members have arrived, and is held until then; at device 0 it
comes back as the completion token. An abort notice for a job that is already torn down only counts. -/
def Obligations.RingTraffic : Prop :=
  let awake := fun (p : Power) => if p.state = 1 then { p with state := 0 } else p
  (∀ (s : State) (chan : Nat) (data : Bytes), s.carries 1 = true → s.works = true →
    (s.jobOn 1 chan = none ∨ ∃ j, s.jobOn 1 chan = some j ∧ j.dead = true) →
    exec (.ringBlockArrival 1 chan data) s = .next { s with out := .credit 1 chan :: s.out, pwr := awake s.pwr }) ∧
  (∀ (s : State) (chan : Nat) (data : Bytes) (j : RingJob) (k : Ctx) (b : Nat), s.carries 1 = true → s.works = true →
    s.ring.jobs = [j] → j.chanWest = chan → j.dead = false → j.confirmed = true → s.ctx? j.ctx = some k →
    data.length ≤ j.maxBlock → tabGet 0 s.ring.west.nextBuf chan = b → (chan, b) ∉ s.ring.west.full →
    let u := s.comesOver k j 1
    let lands := fun (t : State) => tabGet 0 t.ring.west.nextBuf chan = (b + 1) % 2 ∧
      (∃ g, t.ring.jobs = [g] ∧ g.place = j.place + 1 ∧
        if u.reads = 0 ∧ u.sends = 0 then (chan, b) ∉ t.ring.west.full ∧ .credit 1 chan ∈ t.out
        else (chan, b) ∈ t.ring.west.full ∧ tabFind g.bufs (2 + b) = some u)
    (∀ (sv : Saved) (im : Image) (v : Variant) (r : RingEntry), k.saved = some sv → k.part = none → k.image = some im →
      im.variants[sv.variant]? = some v → v.rings[j.entry]? = some r →
      tabGet 0 sv.tallies (r.tallyPos * 256 + r.tallyLocal) < 65535 →
      ∃ t, exec (.ringBlockArrival 1 chan data) s = .next t ∧ lands t ∧
        t = { s with ring := t.ring, ctxs := t.ctxs, out := t.out, pwr := awake s.pwr } ∧
        t.ctx? j.ctx = some { k with
          saved := some { sv with
            canvas := memPut sv.canvas (r.atelier * 2 ^ 22 + r.bufferOffset + b * r.bufferBytes) data,
            tallies := tabMod 0 sv.tallies (r.tallyPos * 256 + r.tallyLocal) (fun n => min 65535 (n + 1)) },
          counters := tabMod 0 k.counters 0x27 (fun n => min (n + 1) (2 ^ 48 - 1)) }) ∧
    (∀ (q : Part) (a off size tl : Nat) (r : RingEntry), k.saved = none → k.part = some q →
      s.ringBuf j b = some (a, off, size) →
      k.ringEntry j = some r → k.tallyAt r.tallyPos r.tallyLocal = some tl → tabGet 0 s.fab.tally tl < 65535 →
      s.fab.waiters = [] → s.fab.queue = [] →
      ∃ t, exec (.ringBlockArrival 1 chan data) s = .next t ∧ lands t ∧ t.canBytes a off data.length = data ∧
        tabGet 0 t.fab.tally tl = tabGet 0 s.fab.tally tl + 1 ∧
        (∀ z, (z < a * 2 ^ 22 + off ∨ a * 2 ^ 22 + off + data.length ≤ z) →
          memRead t.fab.canvas z = memRead s.fab.canvas z) ∧
        t.fab.acc = s.fab.acc ∧ t.fuse = s.fuse ∧
        ((s.reading j.ctx).started = [] → t.fab.palette = s.fab.palette ∧ t.mbox = s.mbox ∧ t.boot = s.boot)) ∧
    (k.saved = none → k.part = none →
      ∃ t g, exec (.ringBlockArrival 1 chan data) s = .next t ∧ lands t ∧ t.ring.jobs = [g] ∧
        tabFind g.landing (2 + b) = some data ∧ t.fab = s.fab ∧ t.mbox = s.mbox ∧ t.boot = s.boot)) ∧
  (∀ (s : State) (link chan : Nat), s.carries link = true →
    ∃ t, exec (.creditReturn link chan) s = .next t ∧ t = { s with ring := t.ring, pwr := awake s.pwr } ∧
      t.link link = { s.link link with used := tabMod 0 (s.link link).used chan (· - 1) } ∧
      t.link (1 - link) = s.link (1 - link) ∧ t.ring.jobs = s.ring.jobs) ∧
  (∀ (s : State) (f : TokenFlit) (j : RingJob), s.carries 1 = true → s.works = true → s.ring.jobs = [j] → j.job = f.job →
    j.confirmed = true → j.dead = false → f.complete = false → s.ring.east.up = true → s.ring.east.retraining = false →
    (j.index ≠ 0 → j.localDone = true →
      exec (.ringBarrierToken 1 f) s = .next { s with out := .token f :: s.out, pwr := awake s.pwr }) ∧
    (j.index ≠ 0 → j.localDone = false →
      exec (.ringBarrierToken 1 f) s = .next { s with
        ring := { s.ring with jobs := [{ j with token := true }] }, pwr := awake s.pwr }) ∧
    (j.index = 0 → j.localDone = true → s.ctx? j.ctx = none →
      exec (.ringBarrierToken 1 f) s = .next { s with
        ring := { s.ring with jobs := [{ j with localDone := false, token := false, passed := false }] },
        out := .token { job := f.job, complete := true } :: s.out, pwr := awake s.pwr })) ∧
  (∀ (s : State) (link : Nat) (j : RingJob), s.carries link = true → s.works = true → s.ring.jobs = [j] → j.dead = true →
    exec (.ringAbortNotice link j.job) s = .next { s with
      ctxs := tabUpd s.ctxs j.ctx (fun x => { x with
        counters := tabMod 0 x.counters 0x29 (fun v => min (v + 1) (2 ^ 48 - 1)) }),
      pwr := awake s.pwr }) ∧
  (∀ (s : State) (link : Nat) (j : RingJob) (k : Ctx), s.carries link = true → s.works = true → s.ring.jobs = [j] →
    j.dead = false → s.ctx? j.ctx = some k → k.tearMode = 0 → k.st = .running → k.part = none → s.err.active = none →
    s.err.queue = [] →
    ∃ t, exec (.ringAbortNotice link j.job) s = .next t ∧ (∃ g, t.ring.jobs = [g] ∧ g.dead = true) ∧
      ((s.link (1 - link)).up = true → (s.link (1 - link)).retraining = false → .abort (1 - link) j.job ∈ t.out) ∧
      t.err.active = some (j.ctx, 0x0B) ∧
      t.fuse = s.fuse ∧ t.boot = s.boot ∧ t.pair = s.pair)

/-- MIRROR_PAIR (R423, R424): with the link up at version 1.1, the peer of the same owner and enrolled or not yet known, and no
pair, the device takes its role, challenges its peer, and its reply waits; a link that is down is NO_RESOURCE, one of version 1.0
VERSION, another owner or identity AUTH. With no matching request within 100 ms the answer is NO_RESOURCE.

IDENTITY_CHALLENGE (R424, R454): a nonce of the peer in the other role is answered with a signature under label
MZ96-PAIR; one of the same role ends the pairing with NO_RESOURCE. A signature is accepted exactly if its key has the link's
identity digest and verifies; otherwise the request is answered AUTH. A standby whose peer is verified has its pair. -/
def Obligations.PairsFormed : Prop :=
  (
  let asks := fun (s : State) (ch role link : Nat) (p : Bytes) (x : Session) => Asks s ch 0x80 p x ∧ leNat p < 4 ∧
    (role = 1 ∨ role = 2) ∧ bit (leNat p) 1 = (role == 2) ∧ leNat p % 2 = link
  let answers := fun (s : State) (ch role : Nat) (t : State) =>
    (role = 1 → exec (.mirrorPairActive ch) s = .next t) ∧ (role = 2 → exec (.mirrorPairStandby ch) s = .next t)
  (∀ (s : State) (ch role link : Nat) (p : Bytes) (x : Session), asks s ch role link p x → (s.link link).up = true →
    (s.link link).retraining = false → (s.link link).version ≠ 0 → (s.link link).peerOwner = toLe 64 s.fuse.ownerDigest →
    (s.pair.enrolled = none ∨ s.pair.enrolled = some (s.link link).peerIdentity) → s.pair.formed = false →
    s.pair.wanted = none → s.ctxs.length ≤ 64 → s.pair.peer = none →
    answers s ch role { deferred s ch x.nextSeq 0x80 p none with
      pair := { s.pair with
        wanted := some (ch, x.nextSeq, role, link, s.clk.time), nonce := some (toLe 32 (Config.freeNat s.free)),
        verified := false },
      free := s.free + 1,
      out := .challenge (.nonce (toLe 32 (Config.freeNat s.free)) (role == 1)) :: s.out }) ∧
  (∀ (s : State) (ch role link : Nat) (p : Bytes) (x : Session), asks s ch role link p x →
    ((s.link link).up = false → answers s ch role (replied s ch x.nextSeq 0x80 stNoResource [])) ∧
    ((s.link link).up = true → (s.link link).version = 0 →
      answers s ch role (replied s ch x.nextSeq 0x80 stVersion [])) ∧
    ((s.link link).up = true → (s.link link).version ≠ 0 → (s.link link).peerOwner ≠ toLe 64 s.fuse.ownerDigest →
      answers s ch role (replied s ch x.nextSeq 0x80 stAuth []))) ∧
  (∀ (s : State) (ch seq role link at_ : Nat) (r : Request), s.works = true → s.pair.formed = false →
    s.pair.wanted = some (ch, seq, role, link, at_) → s.mbox.taken = [r] → r.ch = ch → r.seq = seq →
    ∃ t, exec .mirrorPairTimeout s = .next t ∧
      t = { s with
        pair := { s.pair with wanted := none, nonce := none, peer := none, verified := false }, mbox := t.mbox } ∧
      t.mbox.taken = [] ∧
      (∃ m ∈ tabGet [] t.mbox.ready ch, m.reply = true ∧ m.seq = seq ∧ m.opcode = 0x80 ∧ m.status = stNoResource))) ∧
  (
  let awake := fun (p : Power) => if p.state = 1 then { p with state := 0 } else p
  (∀ (s : State) (link ch seq role at_ : Nat) (n : Bytes) (active : Bool), s.carries link = true → s.works = true →
    s.pair.wanted = some (ch, seq, role, link, at_) → s.pair.formed = false → s.pair.verified = false →
    active = (role == 2) → (role = 1 ∨ role = 2) →
    exec (.identityChallenge link (.nonce n active)) s = .next (if s.boot.identityReady then { s with
      pair := { s.pair with peer := some (link, n, active) },
      out := .challenge (.signature s.idKey (s.idSign labelPair (n ++ toLe 8 s.fuse.uid ++ toLe 8 (s.link link).peerUid))) ::
        s.out,
      pwr := awake s.pwr }
    else { s with
      pair := { s.pair with peer := some (link, n, active), toSign := s.pair.toSign ++ [(link, n)] }, pwr := awake s.pwr })) ∧
  (∀ (s : State) (link ch seq role at_ : Nat) (n key sig : Bytes), s.carries link = true → s.works = true →
    s.pair.wanted = some (ch, seq, role, link, at_) → s.pair.formed = false → s.pair.nonce = some n → s.pair.peer = none →
    ∃ t, exec (.identityChallenge link (.signature key sig)) s = .next t ∧
      (if digest64 key = (s.link link).peerIdentity ∧
          falconVerify key (signedDigest labelPair (n ++ toLe 8 (s.link link).peerUid ++ toLe 8 s.fuse.uid)) sig = true then
        t = { s with pair := { s.pair with verified := true }, pwr := awake s.pwr }
       else
        t.pair = { enrolled := s.pair.enrolled } ∧ .challenge (.ends stAuth) ∈ t.out ∧
        t.mbox.taken = s.mbox.taken.filter (fun r => !(r.ch == ch && r.seq == seq)))) ∧
  (∀ (s : State) (link ch seq at_ : Nat) (n m key sig : Bytes) (active : Bool), s.carries link = true → s.works = true →
    s.pair.wanted = some (ch, seq, 2, link, at_) → s.pair.formed = false → s.pair.nonce = some n →
    s.pair.peer = some (link, m, active) →
    ∃ t, exec (.identityChallenge link (.signature key sig)) s = .next t ∧
      (if digest64 key = (s.link link).peerIdentity ∧
          falconVerify key (signedDigest labelPair (n ++ toLe 8 (s.link link).peerUid ++ toLe 8 s.fuse.uid)) sig = true then
        t.pair.formed = true ∧ t.pair.role = 2 ∧ t.pair.link = link ∧ t.boot.paired = true ∧
        t.pair.enrolled = some (s.pair.enrolled.getD (s.link link).peerIdentity) ∧ t.mbox = s.mbox
       else t.pair = { enrolled := s.pair.enrolled } ∧ t.boot = s.boot)) ∧
  (∀ (s : State) (link ch seq role at_ status : Nat), s.carries link = true → s.works = true → status ≠ stOK →
    s.pair.wanted = some (ch, seq, role, link, at_) → s.pair.formed = false →
    ∃ t, exec (.identityChallenge link (.ends status)) s = .next t ∧ t.pair.wanted = none ∧ t.pair.formed = false ∧
      t.mbox.taken = s.mbox.taken.filter (fun r => !(r.ch == ch && r.seq == seq)) ∧
      (∀ r ∈ s.mbox.taken, r.ch = ch → r.seq = seq →
        ∃ m ∈ tabGet [] t.mbox.ready ch, m.reply = true ∧ m.seq = seq ∧ m.opcode = 0x80 ∧ m.status = status)))

/-- Mirror messages (R416, R425): the standby holds each and acknowledges it, and puts together one that came in pieces of up
to 4 KiB; the active device makes a reply ready once its message is acknowledged, and not before, and has at most 16 messages
unacknowledged: the others wait.

Heartbeats and the end of a pair (R423, R426, R431): a heartbeat says whether the device is frozen; one that does not is noted;
one that does, or 1.5 ms without one, is heartbeat loss: partner_lost is set, the active device goes on alone, and the
standby keeps what it holds. MIRROR_UNPAIR dissolves the pair and ends the enrolment. MIRROR_TAKEOVER of a standby that has
lost its partner ends the pair and is answered OK: where it holds nothing, with no context (R427, R428); otherwise it is
NO_RESOURCE. -/
def Obligations.PairsAtWork : Prop :=
  (
  let awake := fun (p : Power) => if p.state = 1 then { p with state := 0 } else p
  (∀ (s : State) (c q no hd tm : Nat) (d v : Bytes), s.works = true → s.pair.formed = true → s.pair.role = 2 →
    s.pair.lost = false → s.carries s.pair.link = true → s.pair.pieces = [] →
    exec (.mirrorMessage (.submission c q no hd tm d v)) s = .next { s with
      pair := { s.pair with held := s.pair.held ++ [.submission c q no hd tm d v] },
      out := .mirrorAck 1 :: s.out, pwr := awake s.pwr }) ∧
  (∀ (s : State) (c q sl off : Nat) (a b r : Bytes), s.works = true → s.pair.formed = true → s.pair.role = 2 →
    s.pair.lost = false → s.carries s.pair.link = true →
    exec (.mirrorMessage (.data true a)) s = .next { s with
      pair := { s.pair with pieces := s.pair.pieces ++ [a] }, out := .mirrorAck 1 :: s.out, pwr := awake s.pwr } ∧
    (s.pair.pieces = [a] → s.pair.held = [] →
      (∃ t, exec (.mirrorMessage (.data false b)) s = .next t ∧ t.pair = { s.pair with pieces := [a ++ b] }) ∧
      (∃ t, exec (.mirrorMessage (.record c q sl off r [])) s = .next t ∧
        t.pair = { s.pair with pieces := [], held := [.record c q sl off r a] }))) ∧
  (∀ (s : State) (ch c : Nat) (p : Bytes) (x : Session), Asks s ch 0x10 p x → paramsOk (leNat p) = true →
    tabFree s.ctxs 256 = some c → s.mirroring = true → s.ctxs.length < 64 → s.pair.unsent = [] →
    (s.link s.pair.link).up = true → (s.link s.pair.link).retraining = false →
    ∃ t m, exec (.contextCreate ch) s = .next t ∧ t.out = (if s.pair.sent.length < 16 then .mirror m :: s.out else s.out) ∧
      t = { deferred s ch x.nextSeq 0x10 p none with
        ctxs := tabPut s.ctxs c { params := leNat p, st := .empty, session := ch, since := s.clk.time },
        pair :=
          (if s.pair.sent.length < 16
           then { s.pair with sent := s.pair.sent ++ [.reply ch x.nextSeq 0x10 stOK [BitVec.ofNat 8 c]] }
           else { s.pair with unsent := [(m, .reply ch x.nextSeq 0x10 stOK [BitVec.ofNat 8 c])] }),
        out := t.out }) ∧
  (∀ (s : State) (m : MirrorMsg) (w : MirrorWait) (rest : List MirrorWait), s.works = true → s.mirroring = true →
    s.carries s.pair.link = true → s.pair.sent = .none :: rest → rest.length = 15 → s.pair.unsent = [(m, w)] →
    exec (.mirrorAck 1) s = .next { s with
      pair := { s.pair with sent := rest ++ [w], unsent := [] }, out := .mirror m :: s.out, pwr := awake s.pwr }) ∧
  (∀ (s : State) (ch seq op status : Nat) (p : Bytes) (rest : List MirrorWait) (r : Request), s.works = true →
    s.mirroring = true → s.carries s.pair.link = true → op ≠ 0x80 → s.pair.unsent = [] →
    s.pair.sent = .reply ch seq op status p :: rest → s.mbox.taken = [r] → r.ch = ch → r.seq = seq →
    exec (.mirrorAck 1) s = .next { s with
      pair := { s.pair with sent := rest },
      mbox := { s.mbox with
        taken := [],
        ready := tabMod [] s.mbox.ready ch (insertReady
          { opcode := op, reply := true, status := status, seq := seq, payload := p, key := 0, frag := 0,
            ready := s.clk.time }) },
      pwr := awake s.pwr })) ∧
  (
  (∀ s : State, s.alive = true → s.aonServes = false → s.pair.formed = true → s.pair.lost = false →
    s.carries s.pair.link = true →
    exec .heartbeatSend s = .next { s with out := .heartbeat s.err.frozen :: s.out } ∧
    exec (.heartbeat false) s = .next { s with pair := { s.pair with lastBeat := s.clk.time } } ∧
    exec (.heartbeat true) s = exec .heartbeatLoss s) ∧
  (∀ s : State, s.alive = true → s.aonServes = false → s.pair.formed = true → s.pair.lost = false → s.pair.wanted = none →
    (s.pair.role = 2 → ∃ t, exec .heartbeatLoss s = .next t ∧ t.pair = { s.pair with lost := true } ∧
      bit t.pci.evStatus0 3 = true ∧ t.ctxs = s.ctxs ∧ t.hq = s.hq ∧ t.mbox = s.mbox ∧ t.fuse = s.fuse ∧ t.boot = s.boot) ∧
    (s.pair.role = 1 → s.pair.sent = [] → s.pair.unsent = [] →
      ∃ t, exec .heartbeatLoss s = .next t ∧ t.pair = { enrolled := s.pair.enrolled } ∧
        bit t.pci.evStatus0 3 = true ∧ t.hq = s.hq ∧ t.mbox = s.mbox ∧ t.fuse = s.fuse ∧ t.boot = s.boot ∧
        (∀ p ∈ t.ports, p.2.unacked = []) ∧ t.ctxs = s.ctxs)) ∧
  (∀ (s : State) (ch link : Nat) (p : Bytes) (x : Session), Asks s ch 0x81 p x → leNat p = link → link < 2 →
    s.pair.formed = true → s.pair.wanted = none → s.pair.link = link → s.pair.sent = [] → s.pair.unsent = [] →
    (s.link link).up = true → (s.link link).retraining = false →
    ∃ t, exec (.mirrorUnpair ch) s = .next t ∧
      t = { replied s ch x.nextSeq 0x81 stOK [] with pair := {}, out := t.out, ports := t.ports } ∧
      .challenge (.ends stOK) ∈ t.out ∧ (∀ q ∈ t.ports, q.2.unacked = [])) ∧
  (∀ (s : State) (ch link : Nat) (p : Bytes) (x : Session), Asks s ch 0x81 p x → leNat p = link → link < 2 →
    s.pair.formed = true → s.pair.wanted = none → s.pair.link ≠ link →
    exec (.mirrorUnpair ch) s = .next (replied s ch x.nextSeq 0x81 stNoResource [])) ∧
  (∀ (s : State) (ch link : Nat) (p : Bytes) (x : Session), Asks s ch 0x82 p x → leNat p = link → link < 2 →
    (s.pair.formed = true → s.pair.role = 2 → s.pair.lost = true → s.pair.link = link → s.pair.held = [] →
      exec (.mirrorTakeover ch) s = .next { replied s ch x.nextSeq 0x82 stOK (toLe 4 0) with
        pair := { enrolled := s.pair.enrolled } }) ∧
    ((s.pair.formed = false ∨ s.pair.role ≠ 2 ∨ s.pair.lost = false ∨ s.pair.link ≠ link) →
      exec (.mirrorTakeover ch) s = .next (replied s ch x.nextSeq 0x82 stNoResource []))))

/-- SECURE_STATUS, IDENTITY_CERT_GET and ATTEST_QUOTE (R463 to R467): the status is answered with a fresh nonce, which the
channel keeps; the certificate and the quote wait for the identity key, and go on when it is ready; the certificate is
answered only where it certifies this key.

OWNER_KEY_ENROL (R465, R468): at READY, the channel's nonce is used up, and exactly a signature that verifies under the
offered key, for a digest that the fuses can still take, blows the owner digest, OWNER_LOCK and, if asked, DEBUG_LOCK; otherwise
it is answered AUTH and no fuse changes. Before READY it is NO_RESOURCE, and of a wrong layout FORMAT; the nonce is gone then too.
-/
def Obligations.SealCoreAnswers : Prop :=
  (
  let certReply := fun (s : State) (ch seq : Nat) => if slice s.fuse.cert 128 1793 = s.idKey
    then replied s ch seq 0x101 stOK (padTo 3264 s.fuse.cert) else replied s ch seq 0x101 stAuth []
  (∀ (s : State) (ch : Nat) (p : Bytes) (x : Session), Asks s ch 0x100 p x → 32 ≤ ch → leNat p = 0 →
    exec (.secureStatus ch) s = .next { replied s ch x.nextSeq 0x100 stOK
        (toLe 1 s.boot.stage ++ toLe 1 s.boot.failCode ++ toLe 1 s.fuse.rollback ++
          toLe 1 ((if s.fuse.ownerLock then 1 else 0) + (if s.fuse.ownerDigest ≠ 0 ∧ s.fuse.ownerLock = false then 2 else 0) +
            (if s.fuse.debugLock then 4 else 0) + (if s.boot.debugAttached then 8 else 0) +
            (if s.boot.identityReady then 16 else 0)) ++
          toLe 4 (match s.boot.image with | some b => fwVer b | none => 0) ++ toLe 8 s.fuse.uid ++
          toLe 32 (Config.freeNat s.free) ++ toLe 64 s.fuse.rootDigest ++
          (if s.boot.identityReady then padTo 64 s.idDigest else zeros 64)) with
      boot := { s.boot with nonces := tabPut s.boot.nonces ch (toLe 32 (Config.freeNat s.free)) },
      free := s.free + 1 }) ∧
  (∀ (s : State) (ch : Nat) (p : Bytes) (x : Session), Asks s ch 0x101 p x → 32 ≤ ch → leNat p = 0 →
    exec (.identityCertGet ch) s = .next (if s.boot.identityReady then certReply s ch x.nextSeq
      else deferred s ch x.nextSeq 0x101 p none)) ∧
  (∀ (s : State) (ch : Nat) (p : Bytes) (x : Session), Asks s ch 0x102 p x → 32 ≤ ch → leNat p < 2 ^ 272 →
    exec (.attestQuote ch) s = .next (if s.boot.identityReady
      then replied s ch x.nextSeq 0x102 stOK (s.quote (slice p 0 32) (pf p 271 256))
      else deferred s ch x.nextSeq 0x102 p none) ∧
    slice (s.quote (slice p 0 32) (pf p 271 256)) 64 32 = slice p 0 32 ∧
    slice (s.quote (slice p 0 32) (pf p 271 256)) 288 64 = padTo 64 s.idDigest ∧
    (s.quote (slice p 0 32) (pf p 271 256)).length = 1664 + 48 * min 256 (s.quoteEntries.length - pf p 271 256)) ∧
  (∀ (s : State) (r : Request), s.alive = true → s.aonServes = false → s.boot.image.isSome = true →
    s.boot.identityReady = false → s.mbox.taken = [r] → 32 ≤ r.ch → r.opcode = 0x102 →
    s.ring.east.retraining = false → s.ring.west.retraining = false →
    ∃ t, exec .identityKeyReady s = .next t ∧
      t = { s with
        boot := { s.boot with identityReady := true }, pair := { s.pair with toSign := [] }, out := t.out, mbox := t.mbox } ∧
      (∀ l, l < 2 → (s.link l).up = true → .identity l s.fuse.uid s.idDigest s.ownerBytes ∈ t.out) ∧
      (∀ x ∈ s.pair.toSign, (s.link x.1).up = true → .challenge (.signature s.idKey
        (s.idSign labelPair (x.2 ++ toLe 8 s.fuse.uid ++ toLe 8 (s.link x.1).peerUid))) ∈ t.out) ∧
      t.mbox.taken = [] ∧
      (∃ m ∈ tabGet [] t.mbox.ready r.ch, m.reply = true ∧ m.seq = r.seq ∧ m.opcode = 0x102 ∧ m.status = stOK ∧
        m.payload = s.quote (slice r.payload 0 32) (pf r.payload 271 256)))) ∧
  (
  let came := fun (s : State) (ch seq : Nat) (p : Bytes) => 32 ≤ ch ∧ s.served ch = true ∧
    tabFind s.mbox.whole ch = some (0x103, seq, p) ∧ enrolFmt p = true
  let answered := fun (s : State) (ch seq status : Nat) (m : Mbox) => m = { s.mbox with
    whole := tabDel s.mbox.whole ch,
    taken := s.mbox.taken.filter (fun r => !(r.ch == ch && r.seq == seq)),
    ready := tabMod [] s.mbox.ready ch (insertReady
      { opcode := 0x103, reply := true, status := status, seq := seq, payload := [], key := 0, frag := 0,
        ready := s.clk.time }) }
  let digest := fun (p : Bytes) => leNat (digest64 (slice p 8 1793))
  (∀ (s : State) (ch seq : Nat) (p n : Bytes), came s ch seq p → s.boot.stage = 5 → tabFind s.boot.nonces ch = some n →
    ∃ t, exec (.ownerKeyEnrol ch) s = .next t ∧
      t = { s with boot := { s.boot with nonces := tabDel s.boot.nonces ch }, mbox := t.mbox, fuse := t.fuse } ∧
      (if falconVerify (slice p 8 1793)
            (signedDigest labelEnrol (toLe 8 s.fuse.uid ++ n ++ toLe 1 (leAt p 0 1))) (slice p 1856 1280) = true ∧
          Nat.lor s.fuse.ownerDigest (digest p) = digest p ∧
          (s.fuse.ownerLock = true → s.fuse.ownerDigest = digest p) then
        answered s ch seq stOK t.mbox ∧ t.fuse = { s.fuse with
          ownerDigest := digest p, ownerLock := true,
          debugLock := s.fuse.debugLock || leAt p 0 1 == 1 }
       else answered s ch seq stAuth t.mbox ∧ t.fuse = s.fuse)) ∧
  (∀ (s : State) (ch seq : Nat) (p : Bytes), came s ch seq p → s.boot.stage = 5 → tabFind s.boot.nonces ch = none →
    ∃ t, exec (.ownerKeyEnrol ch) s = .next t ∧ answered s ch seq stAuth t.mbox ∧ t.fuse = s.fuse) ∧
  (∀ (s : State) (ch seq : Nat) (p : Bytes), came s ch seq p → s.boot.stage ≠ 5 →
    ∃ t, exec (.ownerKeyEnrol ch) s = .next t ∧ answered s ch seq stNoResource t.mbox ∧
      t = { s with boot := { s.boot with nonces := tabDel s.boot.nonces ch }, mbox := t.mbox }) ∧
  (∀ (s : State) (ch seq : Nat) (p : Bytes), 32 ≤ ch → s.served ch = true →
    tabFind s.mbox.whole ch = some (0x103, seq, p) → enrolFmt p = false →
    ∃ t, exec (.ownerKeyEnrol ch) s = .next t ∧ tabGet [] t.mbox.ready ch = insertReady
        { opcode := 0x103, reply := true, status := stFormat, seq := seq, payload := [], key := 0, frag := 0,
          ready := s.clk.time } (tabGet [] s.mbox.ready ch) ∧
      t = { s with boot := { s.boot with nonces := tabDel s.boot.nonces ch }, mbox := t.mbox }))

/-- IMAGE_PUSH, IMAGE_COMMIT and the flash write (R461, R462): a push within the total stages its bytes for its channel; a
commit of a whole image is judged by R458: the first check that fails is the answer, and an image that passes starts, from RECOVERY
without persist, or is written to flash; its reply waits for the end of the write. -/
def Obligations.ImagesPushedAndCommitted : Prop :=
  let mine := fun (s : State) (ch : Nat) => (s.boot.stage = 1 ∨ s.boot.stage = 5) ∧ s.boot.flashBusy = none ∧
    (s.boot.stagingOwner = none ∨ s.boot.stagingOwner = some ch)
  (∀ (s : State) (ch off total : Nat) (p : Bytes) (x : Session), Asks s ch 0x104 p x → 32 ≤ ch → mine s ch →
    pf p 31 0 = off → off % 64 = 0 → pf p 63 32 = total → (s.boot.stagingOwner = some ch → total = s.boot.stagingTotal) →
    total ≤ 1572864 → off + (p.drop 8).length ≤ total →
    ((p.drop 8).length % 64 = 0 ∨ off + (p.drop 8).length = total) →
    (s.boot.stage = 1 → exec (.imagePush ch) s = .next { replied s ch x.nextSeq 0x104 stOK [] with
      boot := { s.boot with
        stagingOwner := some ch, stagingTotal := total, staging := memPut s.boot.staging off (p.drop 8),
        romTest := true, pushed := (off, (p.drop 8).length) :: s.boot.pushed } }) ∧
    (∀ a, s.boot.stage = 5 → s.boot.stagingAt = some a → a % 65536 = 0 → s.lp.err = [] →
      ∃ t, exec (.imagePush ch) s = .next t ∧
        t = { replied s ch x.nextSeq 0x104 stOK [] with
          lp := t.lp,
          boot := { s.boot with
            stagingOwner := some ch, stagingTotal := total, pushed := (off, (p.drop 8).length) :: s.boot.pushed } } ∧
        LpServed { s.lp with mem := memPut s.lp.mem (a + off) (p.drop 8) } t.lp) ∧
    (s.boot.stage = 5 → s.boot.stagingAt = none → s.lpAlloc 257 total = none →
      exec (.imagePush ch) s = .next (replied s ch x.nextSeq 0x104 stNoResource [])) ∧
    (∀ a s1, s.boot.stage = 5 → s.boot.stagingAt = none → s.lpAlloc 257 total = some (a, s1) → s.lp.err = [] →
      ∃ t, exec (.imagePush ch) s = .next t ∧
        t = { replied s ch x.nextSeq 0x104 stOK [] with
          lp := t.lp,
          boot := { s.boot with
            stagingOwner := some ch, stagingTotal := total, stagingAt := some a,
            pushed := (off, (p.drop 8).length) :: s.boot.pushed } } ∧
        LpServed { s1.lp with mem := memPut s1.lp.mem (a + off) (p.drop 8) } t.lp)) ∧
  (∀ (s : State) (ch o : Nat) (p : Bytes) (x : Session), Asks s ch 0x104 p x → 32 ≤ ch → pf p 31 0 % 64 = 0 →
    s.boot.stagingOwner = some o → o ≠ ch →
    exec (.imagePush ch) s = .next (replied s ch x.nextSeq 0x104 stNoResource [])) ∧
  (∀ (s : State) (ch : Nat) (p : Bytes) (x : Session), Asks s ch 0x105 p x → 32 ≤ ch → leNat p < 2 → mine s ch →
    s.boot.stagingAt = none →
    let img := memBytes s.boot.staging 0 s.boot.stagingTotal
    let st := if s.boot.stagingOwner = none ∨ s.boot.covered = false then stFormat else s.fwStatus img
    let empty := { s.boot with stagingOwner := none, stagingTotal := 0, staging := [], pushed := [] }
    exec (.imageCommit ch) s = .next (
      if st ≠ stOK then { replied s ch x.nextSeq 0x105 st [] with boot := empty }
      else if leNat p = 1 then
        { deferred s ch x.nextSeq 0x105 p none with
          boot := { s.boot with flashBusy := some (ch, x.nextSeq, s.boot.stage == 1) } }
      else if s.boot.stage = 5 then { replied s ch x.nextSeq 0x105 stFormat [] with boot := empty }
      else { replied s ch x.nextSeq 0x105 stOK [] with
        boot := { empty with image := some (img.take (fwLen img)), stage := 2, failCode := 0, identityReady := false } })) ∧
  (∀ (s : State) (ch a : Nat) (p : Bytes) (x : Session), Asks s ch 0x105 p x → 32 ≤ ch → leNat p < 2 → s.boot.stage = 5 →
    mine s ch → s.boot.stagingAt = some a → a % 65536 = 0 → s.lp.err = [] →
    let img := memBytes s.lp.mem a s.boot.stagingTotal
    let st := if s.boot.stagingOwner = none ∨ s.boot.covered = false then stFormat else s.fwStatus img
    ∃ t, exec (.imageCommit ch) s = .next t ∧
      (if st = stOK ∧ leNat p = 1 then
        t = { deferred s ch x.nextSeq 0x105 p none with
          lp := t.lp, boot := { s.boot with flashBusy := some (ch, x.nextSeq, false) } } ∧ LpServed s.lp t.lp
       else
        t = { replied s ch x.nextSeq 0x105 (if st ≠ stOK then st else stFormat) [] with
          lp := t.lp,
          boot := { s.boot with stagingOwner := none, stagingTotal := 0, staging := [], stagingAt := none, pushed := [] } } ∧
        (∀ u, a / 65536 ≤ u → u < a / 65536 + ceilDiv s.boot.stagingTotal 65536 → tabFind t.lp.owner u = none))) ∧
  (∀ (s : State) (ch seq : Nat) (start ok : Bool) (r : Request), s.alive = true → s.aonServes = false →
    s.boot.flashBusy = some (ch, seq, start) → s.mbox.taken = [r] → r.ch = ch → r.seq = seq →
    (s.boot.stage = 1 ∨ s.boot.stagingAt = none ∨ s.lp.err = []) →
    let img := match (if s.boot.stage = 1 then none else s.boot.stagingAt) with
      | some a => memBytes s.lp.mem a s.boot.stagingTotal
      | none => memBytes s.boot.staging 0 s.boot.stagingTotal
    ∃ t, exec (.flashWriteComplete ok) s = .next t ∧ t = { s with boot := t.boot, lp := t.lp, mbox := t.mbox } ∧
      t.mbox.taken = [] ∧
      t.boot.flash = (if ok then some img else none) ∧ t.boot.flashBusy = none ∧ t.boot.stagingOwner = none ∧
      t.boot.stage = (if ok ∧ start then 2 else s.boot.stage) ∧
      t.boot.image = (if ok ∧ start then some (img.take (fwLen img)) else s.boot.image) ∧
      (∃ m ∈ tabGet [] t.mbox.ready ch, m.reply = true ∧ m.seq = seq ∧ m.opcode = 0x105 ∧
        m.status = (if ok then stOK else stNoResource)))

/-- Boot (R395, R408, R409, R438 to R440, R456, R458, R459, R494): the flash's image starts if every check of R458 passes, else boot waits in
RECOVERY with the status of the first that fails; self-test passes, retires macros of palette or canvas, or stops at a memory that is never degraded;
training ends in READY, where the rollback counter advances as the image asks, or stops boot with FORMAT or NO_RESOURCE.

The debug port (R472): while DEBUG_LOCK is 0 it answers the identification code, reads and writes the memories, debugging is
noted once used, and the
fuse DEBUG_LOCK can be blown; once it is blown the port is ignored. -/
def Obligations.BootAndDebug : Prop :=
  (
  (∀ s : State, s.alive = true → s.aonServes = false → s.boot.stage = 0 → s.pwr.bootSrc = 0 →
    exec .bootImageLoaded s = .next { s with
      boot := match s.boot.flash with
        | none => { s.boot with romTest := true, stage := 1, failCode := stFormat }
        | some b => if s.fwStatus b = stOK
          then { s.boot with
            romTest := true, image := some (b.take (fwLen b)), stage := 2, failCode := 0, identityReady := false }
          else { s.boot with romTest := true, stage := 1, failCode := s.fwStatus b } }) ∧
  (∀ s : State, s.alive = true → s.aonServes = false → s.boot.stage = 3 →
    exec (.selfTestComplete []) s = .next { s with boot := { s.boot with stage := 4 } }) ∧
  (∀ s : State, s.alive = true → s.aonServes = false → s.boot.stage ≤ 1 → s.boot.romTest = false →
    exec (.selfTestComplete []) s = .next { s with boot := { s.boot with romTest := true } }) ∧
  (∀ (s : State) (u i : Nat) (rows : List (Nat × List Nat)), s.alive = true → s.aonServes = false →
    s.boot.stage = 3 → u < 64 → i < 32 →
    exec (.selfTestComplete [{
      mem := .palette, unit := u, index := i, rows := rows, badSpareRows := 0, spareGroupBad := false,
      retestFails := true }]) s = .next { s with
        boot := { s.boot with stage := 4, degraded := true },
        fab := { s.fab with palRetired := palAfter u ((u * 32 + i) :: s.fab.palRetired) } }) ∧
  (∀ (s : State) (mem : SramMem) (i : Nat) (rows : List (Nat × List Nat)), s.alive = true → s.aonServes = false →
    ((mem = .control ∧ s.boot.stage ≤ 1 ∧ s.boot.romTest = false) ∨
      (mem ≠ .control ∧ mem ≠ .palette ∧ mem ≠ .canvas ∧ s.boot.stage = 3)) → s.pwr.nextCause ≠ 6 →
    ∃ t, exec (.selfTestComplete [{
      mem := mem, unit := 0, index := i, rows := rows, badSpareRows := 0, spareGroupBad := false,
      retestFails := true }]) s = .next t ∧ t.boot = { s.boot with stage := 6, failCode := stDegraded } ∧
        bit t.pci.evStatus0 7 = true ∧ t.fuse = s.fuse ∧ t.fab = s.fab) ∧
  (∀ (s : State) (im : Bytes) (r : TrainResult), s.boot.image = some im → s.alive = true → s.aonServes = false →
    s.boot.stage = 4 →
    let m := leAt im (leAt im 40 4) 64
    let fits := memcfgOk m && fld m 6 4 == r.densityCode && fld m 3 3 == r.ranksM1 && r.hppr
    (fits = true → r.ok = true → r.failing = [] → s.mbox = {} → s.boot.stagingOwner = none → s.boot.nonces = [] →
      ∃ t, exec (.trainingComplete r) s = .next t ∧
        t.boot = { s.boot with stage := 5, failCode := 0, fwVersion := fwVer im, protoVersion := 0x02030002, memcfg := m } ∧
        t.pwr.state = 0 ∧ t.lp = {} ∧ bit t.pci.evStatus0 7 = true ∧
        t.fuse = { s.fuse with
          rollback := if fwAdvance im then max s.fuse.rollback (fwRollback im) else s.fuse.rollback } ∧
        t.mbox = {} ∧ t.ctxs = s.ctxs) ∧
    (fits = false → ∃ t, exec (.trainingComplete r) s = .next t ∧
      t.boot = { s.boot with stage := 6, failCode := stFormat, memcfg := m } ∧ bit t.pci.evStatus0 7 = true ∧
      t.fuse = s.fuse) ∧
    (fits = true → r.ok = false → ∃ t, exec (.trainingComplete r) s = .next t ∧
      t.boot = { s.boot with stage := 6, failCode := stNoResource, memcfg := m } ∧ bit t.pci.evStatus0 7 = true ∧
      t.fuse = s.fuse))) ∧
  (
  (∀ s : State, s.alive = true → s.fuse.debugLock = false →
    (∃ n, n < 2 ^ 32 ∧ exec (.debugPortAccess .idRead) s = .next { s with free := s.free + 1, out := .idcode n :: s.out }) ∧
    exec (.debugPortAccess .attach) s = .next { s with boot := { s.boot with debugAttached := true } } ∧
    exec (.debugPortAccess .detach) s = .next { s with boot := { s.boot with debugAttached := true } } ∧
    (∀ u a n, a + n ≤ 2 ^ 20 → exec (.debugPortAccess (.read .palette u a n)) s = .next { s with
      boot := { s.boot with debugAttached := true },
      out := .debug (s.palBytes u (a % 2 ^ 20) (min n (2 ^ 20 - a % 2 ^ 20))) :: s.out }) ∧
    (∀ a n, exec (.debugPortAccess (.read .external 0 a n)) s = .next { s with
      boot := { s.boot with debugAttached := true }, out := .debug (memBytes s.lp.mem a n) :: s.out }) ∧
    (∀ a b, a + b.length ≤ payloadBytes s.boot.memcfg → s.lp.err = [] →
      ∃ t, exec (.debugPortAccess (.write .external 0 a b)) s = .next t ∧
        t = { s with boot := { s.boot with debugAttached := true }, lp := t.lp } ∧
        LpServed { s.lp with mem := memPut s.lp.mem a b } t.lp) ∧
    exec (.debugPortAccess .fuseWrite) s = .next { s with
      boot := { s.boot with debugAttached := true }, fuse := { s.fuse with debugLock := true } }) ∧
  (∀ (s : State) (a : DebugAccess), s.fuse.debugLock = true → exec (.debugPortAccess a) s = .next s))

/-- VEC_BINARY and VEC_UNARY (R83, R84, R85, R104, R105): every element of an output row is the operation of the elements at its
place of the input rows as they were before the command, INT32 (clamped) where all inputs are integer and FP32 (rounded
after each step) where not; the row is stored as PLAIN elements of the output format; and nothing else in memory changes. -/
def Obligations.VectorElementCommands : Prop :=
  let add := fun x y => r32 (fadd x y)
  let rows := fun (s : State) (e w : Nat) (f : Nat → List (Lane × Sat)) =>
    wroteAll (store s) e (bit w 146) ((List.range (vRows w)).map (fun r =>
      (fld w 319 288 + fld w 415 384 * r, (encRow (vD w) ((f r).map Prod.fst)).1)))
  let mul := fun x y => r32 (fmul x y)
  let does := fun (s t : State) (e w : Nat) (fi : Int → Int → Int) (ff : FV → FV → FV) => store t = rows s e w (fun r =>
    List.zipWith (fun a b => match a, b with
      | .i x, .i y => satLane (fi x y)
      | _, _ => (.f (ff a.toFV b.toFV), {})) (s.vRowA e w r) (s.vRowB e w r))
  let doesScalar := fun (s t : State) (e w : Nat) (ff : FV → FV → FV) => store t = rows s e w (fun r =>
    (s.vRowA e w r).map (fun a => (.f (ff a.toFV (ofF32 (fld w 447 416))), {})))
  let maps := fun (s t : State) (e w : Nat) (f : Lane → Lane × Sat) => store t = rows s e w (fun r => (s.vRowA e w r).map f)
  (∀ (s : State) (c e q w : Nat), Runs s c e q w → cOp w = 0x20 →
    (vARanges w ++ vBRanges w ++ vDRanges w (vLen w)).all (s.rangeOk c e) = true →
    (fld w 131 128 = 0 → ∃ t, exec (.vecBinaryAdd e q) s = .next t ∧ does s t e w (· + ·) add) ∧
    (fld w 131 128 = 1 → ∃ t, exec (.vecBinarySub e q) s = .next t ∧ does s t e w (· - ·) (fun x y => r32 (fsub x y))) ∧
    (fld w 131 128 = 2 → ∃ t, exec (.vecBinaryMul e q) s = .next t ∧ does s t e w (· * ·) mul) ∧
    (fld w 131 128 = 3 → ∃ t, exec (.vecBinaryMax e q) s = .next t ∧ does s t e w max fmax) ∧
    (fld w 131 128 = 4 → ∃ t, exec (.vecBinaryMin e q) s = .next t ∧ does s t e w min fmin)) ∧
  (∀ (s : State) (c e q w : Nat), Runs s c e q w → cOp w = 0x20 →
    (vARanges w ++ vDRanges w (vLen w)).all (s.rangeOk c e) = true →
    (fld w 131 128 = 5 → ∃ t, exec (.vecBinaryAddScalar e q) s = .next t ∧ doesScalar s t e w add) ∧
    (fld w 131 128 = 6 → ∃ t, exec (.vecBinaryMulScalar e q) s = .next t ∧ doesScalar s t e w mul)) ∧
  (∀ (s : State) (c e q w : Nat), Runs s c e q w → cOp w = 0x21 →
    (vARanges w ++ vDRanges w (vLen w)).all (s.rangeOk c e) = true →
    (fld w 131 128 = 0 → ∃ t, exec (.vecUnaryCopy e q) s = .next t ∧ maps s t e w (fun a => (a, {}))) ∧
    (fld w 131 128 = 1 → ∃ t, exec (.vecUnaryAbs e q) s = .next t ∧ maps s t e w (lane1 (fun z => (z.natAbs : Int)) fabs)) ∧
    (fld w 131 128 = 2 → ∃ t, exec (.vecUnaryNeg e q) s = .next t ∧ maps s t e w (lane1 (fun z => -z) fneg)) ∧
    (fld w 131 128 = 3 → ∃ t, exec (.vecUnaryRelu e q) s = .next t ∧ maps s t e w (lane1 (fun z => max z 0) frelu)) ∧
    (fld w 131 128 = 4 → ∃ t, exec (.vecUnaryExp2 e q) s = .next t ∧ maps s t e w (laneSfu (sfu .exp2))) ∧
    (fld w 131 128 = 5 → ∃ t, exec (.vecUnaryExp e q) s = .next t ∧ maps s t e w (laneSfu sfuExp)) ∧
    (fld w 131 128 = 6 → ∃ t, exec (.vecUnaryLog2 e q) s = .next t ∧ maps s t e w (laneSfu (sfu .log2))) ∧
    (fld w 131 128 = 7 → ∃ t, exec (.vecUnaryRecip e q) s = .next t ∧ maps s t e w (laneSfu (sfu .recip))) ∧
    (fld w 131 128 = 8 → ∃ t, exec (.vecUnaryRsqrt e q) s = .next t ∧ maps s t e w (laneSfu (sfu .rsqrt))) ∧
    (fld w 131 128 = 9 → ∃ t, exec (.vecUnarySqrt e q) s = .next t ∧ maps s t e w (laneSfu (sfu .sqrt))) ∧
    (fld w 131 128 = 10 → ∃ t, exec (.vecUnaryTanh e q) s = .next t ∧ maps s t e w (laneSfu (sfu .tanh))) ∧
    (fld w 131 128 = 11 → ∃ t, exec (.vecUnarySigmoid e q) s = .next t ∧ maps s t e w (laneSfu (sfu .sigmoid))) ∧
    (fld w 131 128 = 12 → ∃ t, exec (.vecUnaryGeluTanh e q) s = .next t ∧ maps s t e w (laneSfu (sfu .gelu))) ∧
    (fld w 131 128 = 13 → ∃ t, exec (.vecUnarySilu e q) s = .next t ∧ maps s t e w (laneSfu (sfu .silu))))

/-- VEC_REDUCE, VEC_NORM and VEC_SOFTMAX (R86, R87, R88): each input row gives one value, in INT32 or FP32 as its format is; or a row
normalised by its mean and variance, or its mean square, with gamma and beta; or a row of softmax over its open elements. -/
def Obligations.VectorRowCommands : Prop :=
  let rows := fun (s : State) (e w : Nat) (f : Nat → List Lane) =>
    wroteAll (store s) e (bit w 146) ((List.range (vRows w)).map (fun r =>
      (fld w 319 288 + fld w 415 384 * r, (encRow (vD w) (f r)).1)))
  let ints := fun (l : List Lane) => l.map (fun x => match x with | .i z => z | .f _ => (0 : Int))
  let clamp := fun (z : Int) => Lane.i (clampInt Fmt.int32.lo Fmt.int32.hi z).1
  let best := fun (w : Nat) (fi : List Int → Int) (ff : List FV → FV) (l : List Lane) =>
    [if (vA w).isInt then clamp (fi (ints l)) else .f (ff (l.map Lane.toFV))]
  let gives := fun (s t : State) (e w : Nat) (f : List Lane → List Lane) => store t = rows s e w (fun r => f (s.vRowA e w r))
  let one := fun (x : FV) => [Lane.f x]
  (∀ (s : State) (c e q w : Nat), Runs s c e q w → cOp w = 0x22 → (vARanges w ++ vDRanges w 1).all (s.rangeOk c e) = true →
    (fld w 131 128 = 0 → ∃ t, exec (.vecReduceMax e q) s = .next t ∧ gives s t e w (best w (foldI max) (foldF fmax))) ∧
    (fld w 131 128 = 1 → ∃ t, exec (.vecReduceMin e q) s = .next t ∧ gives s t e w (best w (foldI min) (foldF fmin))) ∧
    (fld w 131 128 = 2 → ∃ t, exec (.vecReduceSum e q) s = .next t ∧
      gives s t e w (fun l => one (rowSum (l.map Lane.toFV)))) ∧
    (fld w 131 128 = 3 → ∃ t, exec (.vecReduceMaxabs e q) s = .next t ∧
      gives s t e w (best w (fun l => foldI max (l.map (fun z => (z.natAbs : Int)))) (fun l => foldF fmax (l.map fabs)))) ∧
    (fld w 131 128 = 4 → ∃ t, exec (.vecReduceSumsq e q) s = .next t ∧
      gives s t e w (fun l => one (rowSum (l.map (fun x => r32 (fmul x.toFV x.toFV))))))) ∧
  (∀ (s : State) (c e q w : Nat), Runs s c e q w → cOp w = 0x23 → fld w 131 128 = 0 →
    (vARanges w ++ [(⟨false, vAux w, 8 * vLen w⟩ : Machine.Range)] ++ vDRanges w (vLen w)).all (s.rangeOk c e) = true →
    ∃ t, exec (.vecNormLayer e q) s = .next t ∧ store t = rows s e w (fun r =>
      (normLayer (vParam w) (s.floatRow e false .fp32 (vAux w) (vLen w))
        (s.floatRow e false .fp32 (vAux w + 4 * vLen w) (vLen w)) ((s.vRowA e w r).map Lane.toFV)).map Lane.f)) ∧
  (∀ (s : State) (c e q w : Nat), Runs s c e q w → cOp w = 0x23 → fld w 131 128 = 1 →
    (vARanges w ++ [(⟨false, vAux w, 4 * vLen w⟩ : Machine.Range)] ++ vDRanges w (vLen w)).all (s.rangeOk c e) = true →
    ∃ t, exec (.vecNormRms e q) s = .next t ∧ store t = rows s e w (fun r =>
      (normRms (vParam w) (s.floatRow e false .fp32 (vAux w) (vLen w)) ((s.vRowA e w r).map Lane.toFV)).map Lane.f)) ∧
  (∀ (s : State) (c e q w : Nat), Runs s c e q w → cOp w = 0x24 → fld w 131 128 = 0 →
    let mk := 8 * ceilDiv (vLen w) 64
    (vARanges w ++ (if bit w 147 then [(⟨false, vAux w, mk * vRows w⟩ : Machine.Range)] else []) ++ vDRanges w (vLen w)).all
      (s.rangeOk c e) = true →
    ∃ t, exec (.vecSoftmax e q) s = .next t ∧ store t = rows s e w (fun r =>
      let xs := (s.vRowA e w r).map Lane.toFV
      let m := leNat (s.palBytes e (vAux w + mk * r) mk)
      (softmax (vParam w) ((List.range xs.length).map (fun i => (xs.getD i fzero, !bit w 147 || bit m i)))).map Lane.f))

/-- MATMUL (R74, R76 to R78, R127, R128): every entry of the block of accumulator rows becomes its old value, or zero with acc_init, plus
the products of its row and column, slice by slice; a row last written in the other type, and added to, is left open; the
other entries, and all other memory, stay. Between PLAIN integer operands the entry is the INT32 sum of the slices' exact dot products, held
at a bound once it is reached. -/
def Obligations.MatmulAccumulates : Prop :=
  ∀ (s : State) (c e q w : Nat) (z : Option Glaze), Runs s c e q w → cOp w = 0x01 → mmCols w ≤ 32 → mmRow0 w + mmRows w ≤ 256 →
    (mmReads w z).all (s.rangeOk c e) = true →
    GlazeAt s c e (bit w 140) (fld w 447 416) (32 * mmK w) z →
    (bit w 139 = true ∨ s.accBad e (mmBank w) (mmRow0 w) (mmRows w) (mmCols w) = false) →
    ∃ t, exec (.matmul e q) s = .next t ∧ store t = { store s with acc := t.fab.acc, accKind := t.fab.accKind } ∧
      (∀ r j, r < mmRows w → j < mmCols w →
        (bit w 139 = true ∨ s.rowKind e (mmBank w) (mmRow0 w + r) = 0 ∨
          s.rowKind e (mmBank w) (mmRow0 w + r) = (if accInt w then 1 else 2)) →
        t.accAt e (mmBank w) (mmRow0 w + r) j = (s.mmEntry e w z r j).1 ∧
        (accInt w = true → ∀ (a b : Nat → List Int),
          (∀ k, k < mmK w → s.plainRow e false (mmOpA w).fmt (mmA w r k) 32 = (a k).map Lane.i) →
          (∀ k, k < mmK w → s.plainRow e false (mmOpB w).fmt (mmB w j k) 32 = (b k).map Lane.i) →
          t.accAt e (mmBank w) (mmRow0 w + r) j = twos 32 (accInts
            (if bit w 139 then 0 else sext 32 (s.accAt e (mmBank w) (mmRow0 w + r) j))
            ((List.range (mmK w)).map (fun k => (List.zipWith (· * ·) (a k) (b k)).foldl (· + ·) 0))).1)) ∧
      (∀ r, r < mmRows w → t.rowKind e (mmBank w) (mmRow0 w + r) = if accInt w then 1 else 2) ∧
      (∀ k, (∀ r j, r < mmRows w → j < 32 → k ≠ accKey e (mmBank w) (mmRow0 w + r) j) →
        tabGet 0 t.fab.acc k = tabGet 0 s.fab.acc k)

/-- ACC_DRAIN (R81): each entry, as it is where accumulator and output are INT32, else times out_scale plus the bias in one rounding, then ReLU, is
converted to the output format and stored row by row; the drained entries are cleared if clear_after says so, and all
other entries and memory stay. -/
def Obligations.DrainStores : Prop :=
  ∀ (s : State) (c e q w : Nat), Runs s c e q w → cOp w = 0x02 → mmCols w ≤ 32 → mmRow0 w + mmRows w ≤ 256 →

    ((if bit w 133 then [(⟨false, fld w 287 256, 4 * mmCols w⟩ : Machine.Range)] else []) ++
      rowRanges (bit w 136) (fld w 223 192) (fld w 255 224) (drLen w) (mmRows w)).all (s.rangeOk c e) = true →
    s.accBad e (fld w 132 132) (mmRow0 w) (mmRows w) (mmCols w) = false →
    ((∃ r, r < mmRows w ∧ s.rowKind e (fld w 132 132) (mmRow0 w + r) = 1) → cFmt w 128 = some .int32 →
      bit w 133 = false ∧ fld w 319 288 = 0x3F800000) →
    (bit w 133 = true → bit w 136 = false → ∀ r, r < mmRows w →
      fld w 223 192 + fld w 255 224 * r + drLen w ≤ fld w 287 256 ∨
      fld w 287 256 + 4 * mmCols w ≤ fld w 223 192 + fld w 255 224 * r) →
    let entry := fun (r j : Nat) => s.accAt e (fld w 132 132) (mmRow0 w + r) j
    let isInt := fun (r : Nat) => s.rowKind e (fld w 132 132) (mmRow0 w + r) == 1
    let bias := fun (j : Nat) => if bit w 133 then s.palF32 e (fld w 287 256 + 4 * j) else fzero
    let value := fun (r j : Nat) =>
      if isInt r && cFmt w 128 == some .int32 then
        Lane.i (if bit w 134 && sext 32 (entry r j) < 0 then 0 else sext 32 (entry r j))
      else
        let v := if isInt r then r32 (ofInt (sext 32 (entry r j))) else ofF32 (entry r j)
        let y := r32 (fadd (fmul v (ofF32 (fld w 319 288))) (bias j))
        Lane.f (if bit w 134 then frelu y else y)
    ∃ t, exec (.accDrain e q) s = .next t ∧
      store t = { wroteAll (store s) e (bit w 136) ((List.range (mmRows w)).map (fun r =>
        (fld w 223 192 + fld w 255 224 * r,
          (encRow ((cFmt w 128).getD .fp32) ((List.range (mmCols w)).map (value r))).1))) with acc := t.fab.acc } ∧
      (bit w 135 = false → t.fab.acc = s.fab.acc) ∧
      (bit w 135 = true →
        (∀ r j, r < mmRows w → j < mmCols w → t.accAt e (fld w 132 132) (mmRow0 w + r) j = 0) ∧
        (∀ k, (∀ r j, r < mmRows w → j < mmCols w → k ≠ accKey e (fld w 132 132) (mmRow0 w + r) j) →
          tabGet 0 t.fab.acc k = tabGet 0 s.fab.acc k))

/-- GESSO_EXPAND and POOL (R136, R138, R139, R143, R144): every slot of every gesso slice takes its channel and tap of the
tile, the code that stands for zero, or the constant; the blocks of a BLOCK gesso take the one scale and zero point of their
sources, and sources that differ are a CONTAINED error of cause 0x07. Each element of POOL is the largest of its counted
taps, or their sum over their number rounded once, or zero where there is none. -/
def Obligations.ExpansionAndPooling : Prop :=
  (∀ (s : State) (c e q w g n : Nat) (f : Fmt), Runs s c e q w → cOp w = 0x03 → cFmt w 128 = some f →
    s.regionOf c e 1 = some (g, n) → bit w 132 = false → (gDest w g f false).off + (gDest w g f false).len ≤ g + n →
    ((gessoElems w).map (elemRange w f false) ++ [gDest w g f false]).all (s.rangeOk c e) = true →
    ∃ t, exec (.gessoExpand e q) s = .next t ∧
      store t = wroteAll (store s) e false ((List.range (gRows w)).flatMap (fun r => (List.range (gSlices w)).map (fun k =>
        (g + 64 * fld w 486 474 + (r * gSlices w + k) * 32 * (f.bits / 8),
          plainBytes f ((List.range 32).map (fun i =>
            match slotCT w k i with
            | none => 0
            | some (ch, tap) =>
              match tapSrc w r tap with
              | .zero => 0
              | .const => fld w 223 208
              | .tile y x => leNat (s.spBytes e (bit w 134) (gSrc w + elemIndex w ch y x * (f.bits / 8)) (f.bits / 8))))))))) ∧
  (∀ (s : State) (c e q w g n : Nat) (f : Fmt) (ref : Nat × Nat) (rest : List (Nat × Nat)), Runs s c e q w →
    cOp w = 0x03 → cFmt w 128 = some f → s.regionOf c e 1 = some (g, n) → bit w 132 = true →
    (gDest w g f true).off + (gDest w g f true).len ≤ g + n →
    ((gessoElems w).map (elemRange w f true) ++ [gDest w g f true]).all (s.rangeOk c e) = true →
    s.gessoScales e w f = ref :: rest →
    ((∀ x ∈ rest, x = ref) →
      ∃ t, exec (.gessoExpand e q) s = .next t ∧
        store t = { store s with palette := ((onUnit s e q w).gessoWrite c e w g f ref).fab.palette }) ∧
    ((∃ x ∈ rest, x ≠ ref) → s.err.frozen = false → s.err.active = none → s.ctxState c ≠ .faulted →
      ∃ t, exec (.gessoExpand e q) s = .next t ∧ t.err.active = some (c, 0x07) ∧ (t.queue e q).bad = true)) ∧
  (∀ (s : State) (c e q w g n : Nat) (f : Fmt), Runs s c e q w → cOp w = 0x03 → cFmt w 128 = some f →
    s.regionOf c e 1 = some (g, n) → bit w 132 = true → (gDest w g f true).off + (gDest w g f true).len ≤ g + n →
    ((gessoElems w).map (elemRange w f true) ++ [gDest w g f true]).all (s.rangeOk c e) = true →
    s.gessoScales e w f = [] →
    ∃ t scale zp, exec (.gessoExpand e q) s = .next t ∧ scale = (Config.gessoEmpty w).1 % 2 ^ 16 ∧
      store t = { store s with palette := ((onUnit s e q w).gessoWrite c e w g f (scale, zp)).fab.palette }) ∧
  (∀ (s : State) (c e q w : Nat) (f : Fmt), Runs s c e q w → cOp w = 0x04 → cFmt w 128 = some f →
    ((poolElems w).map (elemRange w f false) ++ [poolDest w f]).all (s.rangeOk c e) = true →
    let wrote := fun (t : State) (code : List FV → Nat) =>
      store t = wroteAll (store s) e (bit w 474) [(fld w 496 475, plainBytes f ((List.range (gRows w)).flatMap (fun r =>
        (List.range (gC w)).map (fun ch =>
          let values := (poolTaps w r).map (s.tapValue e w f r ch)
          if values = [] then (encPlain f (.f fzero)).1 else code values))))]
    (bit w 133 = false → ∃ t, exec (.poolMax e q) s = .next t ∧ wrote t (fun l => (encPlain f (.f (poolMaxOf l))).1)) ∧
    (bit w 133 = true → ∃ t, exec (.poolAvg e q) s = .next t ∧
      wrote t (fun l => (quotCode f (l.foldl (fun a v => r32 (fadd a v)) fzero) l.length).1)))

/-- CONVERT (R114 to R121, R129): decoding stores the value of every element in the destination's PLAIN format; encoding
stores every block under its own range's scale, under the history's, or under the fixed one, and the FALLBACK mode updates the history
in the palette; listed outliers go to the activation matrix of the glaze operand. -/
def Obligations.Conversions : Prop :=
  let reads := fun (w : Nat) => (List.range (cvRows w)).map (fun r =>
    (⟨bit w 138, cvSrcAt w r, plainLen (cvSrc w) (cvLen w)⟩ : Machine.Range))
  let writes := fun (w : Nat) (z : Option Glaze) => (List.range (cvRows w)).flatMap (fun r =>
      layoutRow true (bit w 139) (cvDst w) (cvDstAt w r) (cvLen w)) ++
    (match z with | some z => rowRanges false z.act z.actStride (2 * z.list.length) (cvRows w) | none => [])
  let encodes := fun (s : State) (c e q w : Nat) (z : Option Glaze) => Runs s c e q w ∧ cOp w = 0x06 ∧ cvEnc w = true ∧
    GlazeAt s c e (bit w 141) (fld w 479 448) (cvLen w) z ∧ (reads w ++ writes w z).all (s.rangeOk c e) = true
  let effect := fun (s u : State) => { store s with palette := u.fab.palette, canvas := u.fab.canvas }
  (∀ (s : State) (c e q w : Nat) (z : Option Glaze), encodes s c e q w z → cvMode w = 0 →
    cvDst w ≠ .int4 → cvDst w ≠ .uint4 →
    ∃ t, exec (.convertFirstPass e q) s = .next t ∧ store t = effect s ((onUnit s e q w).encodeRows c e w .block z)) ∧
  (∀ (s : State) (c e q w : Nat) (z : Option Glaze), encodes s c e q w z → cvMode w = 0 →
    (cvDst w = .int4 ∨ cvDst w = .uint4) →
    (reads w ++ (List.range (cvRows w)).flatMap (fun r =>
      layoutRow false (bit w 139) (cvDst w) (cvDstAt w r) (cvLen w))).all (s.rangeOk c e) = true →
    ∃ t, exec (.convertFirstPass e q) s = .next t ∧
      store t = effect s (if cvBlock w then (onUnit s e q w).encodeRows c e w .block z else (onUnit s e q w).encodePlain c e w)) ∧
  (∀ (s : State) (c e q w : Nat) (z : Option Glaze), encodes s c e q w z → cvMode w = 1 →
    s.rangeOk c e ⟨false, fld w 383 352, 256⟩ = true →
    let h := s.palBytes e (fld w 383 352) 256
    let listed := match z with | some z => z.list | none => []
    ∃ t, exec (.convertFallback e q) s = .next t ∧
      store t = effect s (((onUnit s e q w).encodeRows c e w (histScale (cvDst w) (fbN w) h) z).putHistory e (fld w 383 352) h
        (s.cvRange e w listed) (bit w 140))) ∧
  (∀ (s : State) (c e q w : Nat) (z : Option Glaze), encodes s c e q w z → cvMode w = 2 →
    ∃ t, exec (.convertFixed e q) s = .next t ∧
      store t = effect s ((onUnit s e q w).encodeRows c e w (.fixed (fixedScale w) (fld w 423 416)) z)) ∧
  (∀ (s : State) (c e q w : Nat), Runs s c e q w → cOp w = 0x06 → cvEnc w = false → cvSrc w ≠ .int4 → cvSrc w ≠ .uint4 →
    ((List.range (cvRows w)).flatMap (fun r => layoutRow true (bit w 138) (cvSrc w) (cvSrcAt w r) (cvLen w)) ++
      rowRanges (bit w 139) (fld w 287 256) (fld w 351 320) (plainLen (cvDst w) (cvLen w)) (cvRows w)).all
        (s.rangeOk c e) = true →
    ∃ t, exec (.convertDecode e q) s = .next t ∧
      store t = wroteAll (store s) e (bit w 139) ((List.range (cvRows w)).map (fun r => (cvDstAt w r,
        (encRow (cvDst w) ((s.decodeValues e w true r).map Lane.f)).1)))) ∧
  (∀ (f : Fmt) (scale zp : Nat) (l : List Slot), (∃ x ∈ l, ∃ v, x = Slot.val v ∧ fisFin v = false) →
    (encBlock f scale zp l).1 = Block.nan ∧ Block.isNan (encBlock f scale zp l).1 = true)

/-- ATTN_BLOCK and ROTARY (R149, R156, R159 to R161, R164, R171, R173): each phase works on every row of every head in turn, in the
running state, the statistics and the gradients in the palette, and leaves all else; after FORWARD and BACKWARD the score scratch is open; ROTARY
turns every pair of every row by its position's angle. A row whose state is NaN, or that no key is open to, keeps its
state in FORWARD, and FINALISE of an empty row stores zeros. -/
def Obligations.AttentionAndRotary : Prop :=
  let ok := fun (s : State) (c e : Nat) (l : List Machine.Range) => l.all (s.rangeOk c e) = true
  let q0 := fun (w : Nat) => (heads w).map (fun h => (⟨false, aQ w h 0 (aB w), aRows w * aDim w * aB w⟩ : Machine.Range))
  let phase := fun (s : State) (c e q w k : Nat) => Runs s c e q w ∧ cOp w = 0x05 ∧ fld w 131 128 = k
  let pal := fun (s : State) (m : Mem) => { store s with palette := m }
  (∀ (s : State) (c e q w : Nat), phase s c e q w 0 → ok s c e (maskRange w) →
    ok s c e (stateRanges w ++ if fld w 137 136 = 0 then [] else q0 w ++ kvRanges w (s.usedKeys e w)) →
    ∃ t, exec (.forward e q) s = .next t ∧ store t = { store s with palette := t.fab.palette, ring := t.ring } ∧
      (bit w 139 = false → t.ring = s.ring) ∧
      SameBut t.fab.palette ((onUnit s e q w).eachRow w (fun s h i => s.forwardRow c e w h i)).fab.palette
        (e * 2 ^ 20 + fld w 415 384) (1024 * aRows w)) ∧
  (∀ (s : State) (c e w h i : Nat), bit w 138 = false → ((s.statAt e (aStat w h i)).nan = true ∨ s.openKeys e w i = []) →
    s.forwardRow c e w h i = s) ∧
  (∀ (s : State) (c e q w : Nat), phase s c e q w 1 → ok s c e (stateRanges w) →
    ∃ t, exec (.finalise e q) s = .next t ∧
      store t = pal s ((onUnit s e q w).eachRow w (fun s h i => s.finaliseRow c e w h i)).fab.palette) ∧
  (∀ (s : State) (c e q w : Nat), phase s c e q w 2 →
    ok s c e (stateRanges w ++ ((heads w).map (fun h => (⟨false, bStat w h 0, 32 * aRows w⟩ : Machine.Range)) ++
      (heads w).map (fun h => ⟨false, bO w h 0, aRows w * aDim w * 4⟩))) →
    ∃ t, exec (.merge e q) s = .next t ∧ store t = pal s ((onUnit s e q w).eachRow w (fun s h i => s.mergeRow e w h i)).fab.palette) ∧
  (∀ (s : State) (c e q w : Nat), phase s c e q w 3 →
    ok s c e ((heads w).flatMap (fun h =>
      [(⟨false, aQ w h 0 ((aOut w).bits / 8), aRows w * aDim w * ((aOut w).bits / 8)⟩ : Machine.Range),
       ⟨false, fld w 255 224 + 64 * fld w 431 416 * h, aRows w * aDim w * aB w⟩, ⟨false, aStat w h 0, 32 * aRows w⟩])) →
    ∃ t, exec (.backwardPrep e q) s = .next t ∧ store t = pal s ((onUnit s e q w).eachRow w (fun s h i => s.prepRow e w h i)).fab.palette) ∧
  (∀ (s : State) (c e q w r : Nat), phase s c e q w 4 → ok s c e (⟨false, fld w 319 288, 64⟩ :: maskRange w) →
    leNat (s.palBytes e (fld w 319 288) 64) = r → recordOk (s.rangeOk c e) w r = true →
    (fld w 137 136 ≠ 0 → ok s c e ((heads w).flatMap (fun h =>
      [(⟨false, aQ w h 0 (aB w), aRows w * aDim w * aB w⟩ : Machine.Range), ⟨false, aStat w h 0, 32 * aRows w⟩]) ++
      kvRanges w (s.usedKeys e w) ++ (recordRanges w r).flatten)) →
    ∃ t, exec (.backward e q) s = .next t ∧ store t = pal s t.fab.palette ∧
      SameBut t.fab.palette (if fld w 137 136 = 0 then s
        else (heads w).foldl (fun s h => s.backHead c e w r h) (onUnit s e q w)).fab.palette
        (e * 2 ^ 20 + fld w 415 384) (2048 * aRows w)) ∧
  (∀ (s : State) (c e q w : Nat), Runs s c e q w → cOp w = 0x07 →
    ok s c e (⟨false, fld w 351 320, 2 * roDim w⟩ :: (List.range (fld w 175 160)).flatMap (fun h =>
      (List.range (fld w 159 144)).map (fun r =>
        (⟨false, roAddr w h r 0, roDim w * ((roFmt w).bits / 8)⟩ : Machine.Range)))) →
    (∀ k, k < roDim w / 2 → let f := s.palF32 e (fld w 351 320 + 4 * k); fisFin f = true ∧ fisZero f = false ∧ fsign f = false) →
    ∃ t, exec (.rotary e q) s = .next t ∧
      store t = pal s ((List.range (fld w 159 144)).foldl (fun s r => s.rotaryRow c e w r) (onUnit s e q w)).fab.palette)

/-- Doorbells and the command stream (R62, R65, R66, R92): the doorbell of an IDLE queue starts it at the offset, and it takes up the
word there if that is accepted, else its context is in error with cause FORMAT; a queue that runs ignores it and reports
it. A NOP ends with its release and the queue takes up the next word. END makes the queue IDLE and reports it. A command whose ranges leave
its memory is in error with cause 0x04. -/
def Obligations.CommandStreams : Prop :=
  let awake := fun (p : Power) => if p.state = 1 then { p with state := 0 } else p
  (∀ (s : State) (c e q off o n w : Nat), s.works = true → q < 16 → s.fab.stop.contains e = false → s.easelCtx e = some c →
    s.err.sram = [] → (s.queue e q).run = .idle → s.regionOf c e 0 = some (o, n) → off + 64 ≤ n →
    leNat (s.palBytes e (o + off) 64) = w →
    (cmdOk e (s.gessoStart c e) (s.tallyIn c) (s.rangeOk c e) w = true →
      ∃ t, exec (.easelDoorbell e q off) s = .next t ∧ t = { s with fab := t.fab, pwr := awake s.pwr } ∧ store t = store s ∧
        t.queue e q = { run := .running, next := off, cmd := some w, ahead := s.aheadOf c e off } ∧
        t.fab.tally = s.fab.tally ∧ t.fab.reports = s.fab.reports) ∧
    (cmdOk e (s.gessoStart c e) (s.tallyIn c) (s.rangeOk c e) w = false → s.err.frozen = false → s.err.active = none →
      s.ctxState c ≠ .faulted →
      ∃ t, exec (.easelDoorbell e q off) s = .next t ∧ store t = store s ∧ (t.queue e q).bad = true ∧
        t.err.active = some (c, 0x03))) ∧
  (∀ (s : State) (c e q off : Nat), s.works = true → q < 16 → s.fab.stop.contains e = false → s.easelCtx e = some c →
    (s.queue e q).run = .running →
    exec (.easelDoorbell e q off) s = .next { s with
      fab := { s.fab with reports := s.fab.reports ++ [.doorbellError e q] }, pwr := awake s.pwr }) ∧
  (∀ (s : State) (c e q w v o n : Nat), Runs s c e q w → cOp w = 0x00 → (∀ x ∈ s.fab.queue, x.2.granted = false) →
    s.regionOf c e 0 = some (o, n) → (s.queue e q).next + 128 ≤ n → leNat (s.palBytes e (o + ((s.queue e q).next + 64)) 64) = v →
    (s.queue e q).ahead = [] →
    cmdOk e (s.gessoStart c e) (s.tallyIn c) (s.rangeOk c e) v = true →
    (cRel w = true → s.fab.waiters = [] ∧
      tabGet 0 s.fab.tally (cRelTally w) + cRelN w ≤ 65535) →
    ∃ t, exec (.nop e q) s = .next t ∧ store t = store s ∧
      t.queue e q = { run := .running, next := (s.queue e q).next + 64, cmd := some v,
                      ahead := s.aheadOf c e ((s.queue e q).next + 64) } ∧
      (∀ k, tabGet 0 t.fab.tally k = tabGet 0 s.fab.tally k + if cRel w = true ∧ k = cRelTally w then cRelN w else 0)) ∧
  (∀ (s : State) (c e q w : Nat), Runs s c e q w → cOp w = 0x1F → cRel w = false → (s.reading c).seqs = [] →
    (s.reading c).stepping = false → s.ring.jobs = [] →
    ∃ t, exec (.endCmd e q) s = .next t ∧ t.queue e q = {} ∧ .ended e q ∈ t.fab.reports ∧
      t.fab.palette = s.fab.palette ∧ t.fab.canvas = s.fab.canvas ∧ t.fab.acc = s.fab.acc ∧ t.fuse = s.fuse) ∧
  (∀ (s : State) (c e q w : Nat), Runs s c e q w → cOp w = 0x01 → bit w 140 = false →
    (mmReads w none).all (s.rangeOk c e) = false → s.err.frozen = false → s.err.active = none → s.ctxState c ≠ .faulted →
    ∃ t, exec (.matmul e q) s = .next t ∧ store t = store s ∧ (t.queue e q).bad = true ∧ t.err.active = some (c, 0x04))

/-- Tallies (R32, R33, R35, R37): an acquire that the count meets takes its n and goes on, and a wait goes on; one that it does not
meet waits behind the others. A release, a post or a set changes the count, which stays at 65,535 with a CONTAINED error of
cause 0x05 if it would pass it, and serves the waiters in order. -/
def Obligations.Tallies : Prop :=
  let calm := fun (s : State) => (∀ x ∈ s.fab.queue, x.2.granted = false) ∧ s.fab.waiters = []
  (∀ (s : State) (c e q w : Nat), Runs s c e q w → cOp w = 0x10 → cRel w = false → calm s → 1 ≤ fld w 175 160 →
    (fld w 131 128 = 0 → fld w 175 160 ≤ tabGet 0 s.fab.tally (fld w 145 132) →
      ∃ t, exec (.tallyAcquire e q) s = .next t ∧ store t = store s ∧
        tabGet 0 t.fab.tally (fld w 145 132) = tabGet 0 s.fab.tally (fld w 145 132) - fld w 175 160 ∧ t.fab.waiters = []) ∧
    (fld w 131 128 = 0 → tabGet 0 s.fab.tally (fld w 145 132) < fld w 175 160 →
      ∃ t, exec (.tallyAcquire e q) s = .next t ∧ store t = store s ∧
        (∀ k, tabGet 0 t.fab.tally k = tabGet 0 s.fab.tally k) ∧
        t.queue e q = { s.queue e q with wait := some (.acquire (fld w 145 132) (fld w 175 160)) } ∧
        t.fab.waiters = [{ tally := fld w 145 132, e := e, q := q, acquire := true, n := fld w 175 160, since := s.clk.time }]) ∧
    (fld w 131 128 = 1 → fld w 175 160 ≤ tabGet 0 s.fab.tally (fld w 145 132) →
      ∃ t, exec (.tallyWait e q) s = .next t ∧ store t = store s ∧
        (∀ k, tabGet 0 t.fab.tally k = tabGet 0 s.fab.tally k) ∧ t.fab.waiters = []) ∧
    (fld w 131 128 = 1 → tabGet 0 s.fab.tally (fld w 145 132) < fld w 175 160 →
      ∃ t, exec (.tallyWait e q) s = .next t ∧ store t = store s ∧
        (∀ k, tabGet 0 t.fab.tally k = tabGet 0 s.fab.tally k) ∧
        t.queue e q = { s.queue e q with wait := some (.wait (fld w 145 132) (fld w 175 160)) }) ∧
    (fld w 131 128 = 2 → tabGet 0 s.fab.tally (fld w 145 132) + fld w 175 160 ≤ 65535 →
      ∃ t, exec (.tallyRelease e q) s = .next t ∧ store t = store s ∧
        tabGet 0 t.fab.tally (fld w 145 132) = tabGet 0 s.fab.tally (fld w 145 132) + fld w 175 160)) ∧
  (∀ (s : State) (c k n : Nat), s.works = true → s.tallyIn c k = true → n < 65536 → calm s →
    (tabGet 0 s.fab.tally k + n ≤ 65535 →
      ∃ t, exec (.tallyPost c k n) s = .next t ∧ t = { s with fab := { s.fab with tally := t.fab.tally } } ∧
        ∀ j, tabGet 0 t.fab.tally j = tabGet 0 s.fab.tally j + if j = k then n else 0) ∧
    (65535 < tabGet 0 s.fab.tally k + n → s.err.frozen = false → s.err.active = none →
      ∀ d, s.easelCtx (k / 256) = some d → s.ctxState d ≠ .faulted →
      ∃ t, exec (.tallyPost c k n) s = .next t ∧ tabGet 0 t.fab.tally k = 65535 ∧ t.err.active = some (d, 0x05))) ∧
  (∀ (s : State) (c k n e q m z : Nat), s.works = true → s.tallyIn c k = true → (∀ x ∈ s.fab.queue, x.2.granted = false) →
    s.fab.waiters = [{ tally := k, e := e, q := q, acquire := true, n := m, since := z }] →
    m ≤ tabGet 0 s.fab.tally k + n → tabGet 0 s.fab.tally k + n ≤ 65535 → (s.queue e q).acquired = false →
    ∃ t, exec (.tallyPost c k n) s = .next t ∧ tabGet 0 t.fab.tally k = tabGet 0 s.fab.tally k + n - m ∧
      t.fab.waiters = [] ∧ (t.queue e q).acquired = true ∧ (t.queue e q).wait = none ∧ store t = store s) ∧
  (∀ (s : State) (k n : Nat), s.works = true → k < 16384 →
    (calm s → n < 65536 → ∃ t, exec (.tallySet k n) s = .next t ∧ t = { s with fab := { s.fab with tally := t.fab.tally } } ∧
      ∀ j, tabGet 0 t.fab.tally j = if j = k then n else tabGet 0 s.fab.tally j) ∧
    exec (.tallyRead k) s = .next { s with
      fab := { s.fab with reports := s.fab.reports ++ [.tallyValue k (tabGet 0 s.fab.tally k)] } })

/-- Barriers and the stop signal (R40, R41, R42, R55, R60, R63): an arrival counts toward the generation under way, or the next one
after the easel's own, and its queue waits for it; once every member has arrived, the generation completes, each member's arrival
is used, and the queues that wait for it are freed. The stop signal stops the queues of an easel that wait, at once, and
lets the others end their command. -/
def Obligations.BarriersAndStops : Prop :=
  (∀ (s : State) (c e q w k : Nat) (x : Ctx) (dev : Bool) (b : Barrier), Runs s c e q w → cOp w = 0x11 → s.ctx? c = some x →
    x.barOf e = some (dev, k) → s.barrier dev k = some b →
    ∃ t, exec (.barrierArrive e q) s = .next t ∧ store t = store s ∧
      t.queue e q = { s.queue e q with wait := some (.barrier (b.gen + tabGet 0 b.arrivals e)) } ∧
      t.barrier dev k = some { b with
        arrivals := tabMod 0 b.arrivals e (· + 1), waiting := b.waiting ++ [(e, q, b.gen + tabGet 0 b.arrivals e)] }) ∧
  (∀ (s : State) (a ch : Nat) (dev : Bool) (b : Barrier), s.works = true → ch < 8 → (dev = true → a = 0) →
    s.barrier dev (a * 8 + ch) = some b → b.ringJobs = [] →
    let answers := fun (t : State) => (dev = true → exec (.deviceBarrierComplete ch) s = .next t) ∧
      (dev = false → exec (.barrierComplete a ch) s = .next t)
    (b.complete = true → s.err.sram = [] → ∃ t g, answers t ∧ store t = store s ∧
      t.barrier dev (a * 8 + ch) = some g ∧ g.gen = b.gen + 1 ∧ g.members = b.members ∧
      g.waiting = b.waiting.filter (fun z => z.2.2 != b.gen) ∧
      g.arrivals = b.members.foldl (fun t e => tabMod 0 t e (· - 1)) b.arrivals) ∧
    (b.complete = false → answers s)) ∧
  (∀ (s : State) (c e : Nat) (x : Ctx), s.works = true → s.easelCtx e = some c → s.ctx? c = some x → x.stopping = true →
    s.fab.stop.contains e = false →
    ∃ t, exec (.preemptStopSignal e) s = .next t ∧ t = { s with fab := t.fab } ∧ store t = store s ∧
      t.fab.stop = e :: s.fab.stop ∧ t.fab.tally = s.fab.tally ∧
      (∀ w ∈ t.fab.waiters, w.e ≠ e) ∧
      (∀ k z, tabFind s.fab.queue k = some z → tabFind t.fab.queue k = some
        (if k / 16 = e ∧ z.run = .running ∧ z.wait ≠ none then { z with run := .stopped } else z))) ∧
  (∀ (s : State) (e q : Nat), s.works = true → q < 16 → s.fab.stop.contains e = true → (s.queue e q).run = .running →
    ∃ t, exec (.queueStopped e q) s = .next t ∧ t = { s with fab := { s.fab with queue := t.fab.queue } } ∧
      t.queue e q = { s.queue e q with run := .stopped } ∧
      (∀ d p, d * 16 + p ≠ e * 16 + q → t.queue d p = s.queue d p))

/-- DMA takes a descriptor (R44, R46, R47, R67): one whose checks pass is accepted by the atelier's engine behind the earlier ones; one that is
ill-formed is in error with cause FORMAT, and one that leaves the context's memory with cause 0x04. A returned tag is
free again.

COPY, COPY_3D and FILL (R31, R45, R46, R49, R50, R418): a descriptor that may start holds its tags and is under way; at its completion, and not
before it is certain, every byte of every destination row is the byte at its place of the source row as it was at the start, or of
the fill pattern at its address, no other byte of that memory has changed, the engine forgets the descriptor, and it posts. A send over a
link takes a credit and the block leaves; without a credit it waits. One that needs host memory while Bus Master Enable is 0 waits (R365). -/
def Obligations.DmaTransfers : Prop :=
  (
  (∀ (s : State) (c e q w d : Nat), Runs s c e q w → cOp w = 0x12 → s.rangeOk c e ⟨false, fld w 159 128, 64⟩ = true →
    leNat (s.palBytes e (fld w 159 128) 64) = d →
    (descOk (s.tallyIn c) d = true → s.dmaRowsOk c d = true →
      ∃ t, exec (.dma e q) s = .next t ∧ store t = store s ∧
        t.jobs (e / 8) = s.jobs (e / 8) ++ [{ ctx := c, e := e, q := q, desc := d }]) ∧
    (s.err.frozen = false → s.err.active = none → s.ctxState c ≠ .faulted →
      (descOk (s.tallyIn c) d = false ∨ s.dmaRowsOk c d = false) →
      ∃ t, exec (.dma e q) s = .next t ∧ store t = store s ∧ t.jobs (e / 8) = s.jobs (e / 8) ∧
        t.err.active = some (c, if descOk (s.tallyIn c) d then 0x04 else 0x03))) ∧
  (∀ (s : State) (p c g : Nat) (j : DmaJob) (rest : List DmaJob), s.works = true → s.fab.dma = [(g, j :: rest)] → j.ctx = c →
    p < 3 → 0 < poolOf j.tags p →
    exec (.tagReturn p c) s = .next { s with
      fab := { s.fab with dma := [(g, { j with tags := setPool j.tags p (poolOf j.tags p - 1) } :: rest)] } })) ∧
  (
  let mem := fun (s : State) (sp : Nat) => if sp = 0 then s.fab.palette else if sp = 1 then s.fab.canvas
    else if sp = 2 then s.lp.mem else s.hostMem
  let goes := fun (s : State) (g i k : Nat) (j : DmaJob) => s.works = true ∧ (s.jobs g)[i]? = some j ∧ dOp j.desc = k ∧
    s.mayMove j.desc = true ∧ mayStart (s.jobs g) i j = true ∧ (∀ p ∈ dPools j.desc, poolOf (s.takeTags j.ctx j.desc) p ≠ 0)
  let answers := fun (s : State) (g i k : Nat) (t : State) => (k = 0 → exec (.copy g i) s = .next t) ∧
    (k = 1 → exec (.copy3d g i) s = .next t) ∧ (k = 2 → exec (.fill g i) s = .next t)
  (∀ (s : State) (g i k : Nat) (j : DmaJob), goes s g i k j → k ≤ 2 → dDstSp j.desc ≤ 3 → dSrcSp j.desc ≤ 3 →
    s.err.sram = [] → s.lp.err = [] →
    (∀ x ∈ dChunks j.desc, s.chunkOverlap j.desc x = false) →
    (∀ a ∈ dRows j.desc, ∀ b ∈ dRows j.desc, a.1 ≠ b.1 → a.2.2 + dLen j.desc ≤ b.2.2 ∨ b.2.2 + dLen j.desc ≤ a.2.2) →
    dPost j.desc = false → (∀ x ∈ s.fab.queue, x.2.granted = false) →
    ∃ t u y, answers s g i k t ∧ (t.jobs g)[i]? = some y ∧ y.started = true ∧ y.failed = false ∧
      y.tags = s.takeTags j.ctx j.desc ∧ y.desc = j.desc ∧ y.ctx = j.ctx ∧
      exec (.dmaDescriptorComplete g i) t = .next u ∧ u.jobs g = (s.jobs g).eraseIdx i ∧
      (∀ r ∈ dRows j.desc, memBytes (mem u (dDstSp j.desc)) r.2.2 (dLen j.desc) =
        if k = 2 then fillBytes j.desc r.2.2 (dLen j.desc)
        else memBytes (mem s (dSrcSp j.desc)) r.2.1 (dLen j.desc)) ∧
      (∀ a, (∀ r ∈ dRows j.desc, a < r.2.2 ∨ r.2.2 + dLen j.desc ≤ a) →
        memRead (mem u (dDstSp j.desc)) a = memRead (mem s (dDstSp j.desc)) a) ∧
      (∀ sp, sp ≤ 3 → sp ≠ dDstSp j.desc → mem u sp = mem s sp)) ∧
  (∀ (s : State) (g i k : Nat) (j : DmaJob), (s.jobs g)[i]? = some j → s.mayMove j.desc = false →
    answers s g i k s ∧ exec (.dmaDescriptorComplete g i) s = .next s) ∧
  (∀ (s : State) (g i : Nat) (j : DmaJob), s.works = true → (s.jobs g)[i]? = some j → j.started = true → j.failed = true →
    s.mayMove j.desc = true →
    ∃ t, exec (.dmaDescriptorComplete g i) s = .next t ∧ t = { s with fab := { s.fab with dma := t.fab.dma } } ∧
      t.jobs g = (s.jobs g).eraseIdx i) ∧
  (∀ (s : State) (g i : Nat) (j : DmaJob), s.works = true → (s.jobs g)[i]? = some j → j.started = true → j.failed = false →
    s.mayMove j.desc = true → isLink (dDstSp j.desc) = true → isLink (dSrcSp j.desc) = false → dPost j.desc = true →
    s.ctxState j.ctx = .running →
    s.tallyIn j.ctx (dTally j.desc) = true → s.fab.waiters = [] →
    (∀ x ∈ s.fab.queue, x.2.granted = false) → tabGet 0 s.fab.tally (dTally j.desc) + dCount j.desc ≤ 65535 →
    ∃ t, exec (.dmaDescriptorComplete g i) s = .next t ∧
      tabGet 0 t.fab.tally (dTally j.desc) = tabGet 0 s.fab.tally (dTally j.desc) + dCount j.desc ∧ store t = store s) ∧
  (∀ (s : State) (g i l ch : Nat) (j : DmaJob) (rj : RingJob), goes s g i 0 j → dDstSp j.desc = 4 + l → l < 2 →
    fld (dDst j.desc) 23 20 = ch → (s.link l).up = true → (s.link l).retraining = false → s.jobOn l ch = some rj →
    rj.confirmed = true → rj.dead = false → dLen j.desc ≤ rj.maxBlock → dSrcSp j.desc = 1 → s.err.sram = [] →
    (tabGet 0 (s.link l).used ch < 2 →
      ∃ t, exec (.copy g i) s = .next t ∧
        t = { s with ring := t.ring, fab := t.fab, out := .ringBlock l ch (memBytes s.fab.canvas (dSrc j.desc) (dLen j.desc)) :: s.out,
                     pwr := if s.pwr.state = 1 then { s.pwr with state := 0 } else s.pwr } ∧
        t.link l = { s.link l with used := tabMod 0 (s.link l).used ch (· + 1) } ∧ t.fab.canvas = s.fab.canvas ∧
        t.fab.palette = s.fab.palette) ∧
    (2 ≤ tabGet 0 (s.link l).used ch →
      exec (.copy g i) s = .next { s with pwr := if s.pwr.state = 1 then { s.pwr with state := 0 } else s.pwr })))

/-- The code of stored words (R432, R434): it corrects every error of one or two bits, at the positions that a word stores, and detects
every error of three; a word and its check bits have syndrome zero; and the check bits of the example words are those of the table. -/
def Obligations.CodeCorrectsAndDetects : Prop :=
  (∀ n p, (n = 79 ∨ n = 80) → p < n → bchDecode n (2 ^ p) = .corrected [p]) ∧
  (∀ n p q, (n = 79 ∨ n = 80) → p < q → q < n → bchDecode n (2 ^ p + 2 ^ q) = .corrected [p, q]) ∧
  (∀ n p q r, (n = 79 ∨ n = 80) → p < q → q < r → r < n → bchDecode n (2 ^ p + 2 ^ q + 2 ^ r) = .uncorrectable) ∧
  (∀ d, d < 2 ^ 64 → bchCheck d < 2 ^ 15 ∧ bchSyndrome (d * 2 ^ 15 + bchCheck d) = 0) ∧
  bchCheck 0 = 0 ∧ bchCheck 1 = 0x4599 ∧ bchCheck 2 = 0x4EAB ∧ bchCheck 3 = 0x0B32

/-- Freezes (R410, R411, R445, R447, R448): a device-fatal condition freezes the device with its cause, or with cause 3 while a CONTAINED
error is handled; device_frozen is set, every request of a non-secure channel is answered DEVICE_FROZEN, and no
memory or register of the machine's work changes. A watchdog that expires is cause 5; a parity error on a controller's command path is cause 1
with a snapshot.

On-chip words and macros (R434 to R436, R441, R442, R444): a word that was corrected is written back and clean again; a scrubber reads the next word and
corrects it; the marked macros of a palette that no context holds are retired, and its content with its resident
regions is gone; one that a context holds waits. -/
def Obligations.FreezesAndRepair : Prop :=
  (
  let froze := fun (s t : State) (cause : Nat) => t.err = { s.err with frozen := true, freezeCause := cause } ∧
    bit t.pci.evStatus0 1 = true ∧ t.boot = { s.boot with carryValid := false } ∧ t.ctxs = s.ctxs ∧ t.fab = s.fab ∧
    t.mbox.taken = s.mbox.taken.filter (fun r => decide (32 ≤ r.ch)) ∧
    (∀ r ∈ s.mbox.taken, r.ch < 32 →
      ∃ m ∈ tabGet [] t.mbox.ready r.ch, m.reply = true ∧ m.seq = r.seq ∧ m.status = stFrozen)
  (∀ (s : State) (cause : Nat), s.ready = true → s.aonServes = false → s.err.frozen = false →
    (cause = 2 ∨ cause = 4 ∨ cause = 5) →
    ∃ t, exec (.deviceFreeze cause) s = .next t ∧ store t = store s ∧
      froze s t (if s.err.active = none then cause else 3)) ∧
  (∀ s : State, s.ready = true → s.aonServes = false → s.err.frozen = false →
    ∃ t, exec .watchdogExpiry s = .next t ∧ store t = store s ∧ froze s t (if s.err.active = none then 5 else 3)) ∧
  (∀ s : State, s.ready = true → s.aonServes = false → s.err.frozen = false → s.err.active = none →
    exec (.deviceFreeze 3) s = .next s ∧
    ∃ t sn, exec (.deviceFreeze 1) s = .next t ∧ froze s t 1 ∧ t.lp = { s.lp with snap := some sn } ∧ sn.kind = 3 ∧
      sn.chan < 16) ∧
  (∀ s : State, s.ready = true → s.aonServes = false → s.err.frozen = false → s.err.active ≠ none →
    ∃ t, exec (.deviceFreeze 3) s = .next t ∧ store t = store s ∧ froze s t 3)) ∧
  (
  (∀ (s : State) (m : SramMem) (u w : Nat), s.alive = true → s.aonServes = false →
    s.err.writeBack.contains { mem := m, unit := u, word := w } = true →
    ∃ t, exec (.correctedWriteBack m u w) s = .next t ∧
      t = { s with err := { s.err with
        sram := s.err.sram.filter (fun x => x.1 != { mem := m, unit := u, word := w }),
        writeBack := s.err.writeBack.filter (fun x => x != { mem := m, unit := u, word := w }) } }) ∧
  (∀ (s : State) (m : SramMem) (u a : Nat), s.works = true → s.pwr.state = 0 → 0 < s.wordsIn m u → s.err.sram = [] →
    (∀ x ∈ s.err.scrubPos, x.mem = m → x.unit = u → x.word = a) → (∃ x ∈ s.err.scrubPos, x.mem = m ∧ x.unit = u) →
    exec (.onchipScrub m u) s = .next { s with err := { s.err with
      scrubPos := { mem := m, unit := u, word := (a % s.wordsIn m u + 1) % s.wordsIn m u } ::
        s.err.scrubPos.filter (fun x => !(x.mem == m && x.unit == u)) } }) ∧
  (∀ (s : State) (u p : Nat), s.works = true → s.pwr.state = 0 → u < 64 → p < 79 → 0 < s.wordsIn .palette u →
    s.err.scrubPos = [] → s.err.sram = [({ mem := .palette, unit := u, word := 0 }, 2 ^ p)] →
    ∃ t, exec (.onchipScrub .palette u) s = .next t ∧ { mem := .palette, unit := u, word := 0 } ∈ t.err.writeBack ∧
      t.err.correctedCount = min (s.err.correctedCount + 1) (2 ^ 32 - 1) ∧ t.err.correctedSeen = true ∧
      t.fab.palette = s.fab.palette) ∧
  (∀ (s : State) (u : Nat), s.works = true → pendingOf s.err .palette u ≠ [] →
    (s.easelCtx u = none →
      ∃ t, exec (.macroRetirement .palette u) s = .next t ∧
        t = { s with fab := { s.fab with palRetired := t.fab.palRetired, palette := t.fab.palette }, err := t.err,
                     sched := { s.sched with resident := s.sched.resident.filter (fun r => r.easel != u) } } ∧
        t.fab.palRetired = palAfter u ((pendingOf s.err .palette u).map (fun m => u * 32 + m) ++ s.fab.palRetired) ∧
        pendingOf t.err .palette u = [] ∧
        (∀ o, o < 2 ^ 20 → memRead t.fab.palette (u * 2 ^ 20 + o) = 0) ∧
        (∀ a, a / 2 ^ 20 ≠ u → memRead t.fab.palette a = memRead s.fab.palette a)) ∧
    (s.easelCtx u ≠ none → exec (.macroRetirement .palette u) s = .next s)))

/-- CONTAINED errors and teardown (R331, R447): firmware takes up the error that waits: its context enters TEARING_DOWN with the cause, its SQs stop,
and a CONTEXT_STATE notice says so; when its transfers have ended its partition is zeroed and left; and when nothing is owed it
is FAULTED, and its memory is free. -/
def Obligations.ErrorsAndTeardown : Prop :=
  (∀ (s : State) (c cause : Nat) (k : Ctx) (se : Session), s.works = true → s.err.active = some (c, cause) → s.err.takenUp = false →
    s.ctx? c = some k → k.st = .running → k.tearMode = 0 → k.tearStep = 0 → tabFind s.mbox.session k.session = some se →
    ∃ t g, exec .errorTakeUp s = .next t ∧ t.ctx? c = some g ∧ g.st = .tearingDown ∧ g.tearMode = 1 ∧ g.tearStep = 2 ∧
      g.cause = cause ∧ g.part = k.part ∧ t.err = { s.err with takenUp := true } ∧
      (∀ q h, tabFind t.hq q = some h → h.isCq = false → h.ctx = c → h.stopped = true) ∧
      (∃ m ∈ tabGet [] t.mbox.ready k.session, m.opcode = 0x8001 ∧ m.key = c ∧
        m.payload = toLe 1 c ++ toLe 1 CtxState.tearingDown.code ++ toLe 1 stContextFault ++ toLe 1 cause ++ zeros 12) ∧
      t.fab.palette = s.fab.palette ∧ t.fab.canvas = s.fab.canvas ∧ t.lp.mem = s.lp.mem ∧ t.hostMem = s.hostMem ∧
      t.fuse = s.fuse) ∧
  (∀ (s : State) (c cause : Nat), s.works = true → s.err.active = some (c, cause) → s.err.takenUp = false → s.ctx? c = none →
    ∃ t, exec .errorTakeUp s = .next t ∧ t.err.active = s.err.queue.head? ∧ t.err.queue = s.err.queue.tail ∧
      t.ctxs = s.ctxs) ∧
  (∀ (s : State) (c : Nat) (k : Ctx) (p : Part), s.works = true → s.ctx? c = some k → k.st = .tearingDown → k.tearStep = 2 →
    k.tearMode = 1 → k.part = some p → s.sched.admitting = [] → s.err.active = some (c, k.cause) → s.err.takenUp = true →
    (∀ g ∈ s.fab.dma, ∀ j ∈ g.2, j.ctx = c → j.started = true → j.failed = true) →
    ∃ t g, exec (.teardownScrubComplete c) s = .next t ∧ t.ctx? c = some g ∧ g.st = .tearingDown ∧ g.tearStep = 4 ∧
      g.part = none ∧ t.err.active = s.err.queue.head? ∧
      (∀ e ∈ p.easels, ∀ o, o < 2 ^ 20 → memRead t.fab.palette (e * 2 ^ 20 + o) = 0) ∧
      (∀ r ∈ p.canvas, ∀ o, r.2.1 ≤ o → o < r.2.1 + r.2.2 → memRead t.fab.canvas (r.1 * 2 ^ 22 + o) = 0) ∧
      (∀ x ∈ t.intake.items, x.2.ctx ≠ c)) ∧
  (∀ (s : State) (c : Nat) (k : Ctx) (se : Session), s.works = true → s.ctx? c = some k → k.st = .tearingDown → k.tearStep = 4 →
    k.tearMode = 1 → s.owesRecords c = false → s.destroying c = false → tabFind s.mbox.session k.session = some se →
    ∃ t g, exec (.contextFaultedEntry c) s = .next t ∧ t.ctx? c = some g ∧ g.st = .faulted ∧ g.regions = [] ∧ g.lpSize = 0 ∧
      g.cause = k.cause ∧ (∀ u, tabGet 0 t.lp.owner u ≠ c + 1) ∧ t.ring = s.ring ∧
      (∃ m ∈ tabGet [] t.mbox.ready k.session, m.opcode = 0x8001 ∧ m.key = c ∧
        m.payload.take 4 = toLe 1 c ++ toLe 1 CtxState.faulted.code ++ toLe 1 stContextFault ++ toLe 1 k.cause))

/-- Pre-emption, resume and best-effort placement (R324 to R329): once every queue of a stopped partition has stopped and its transfers have
ended, and no text job of the context is under way, its state is saved, its save area in LPDDR5 and nothing else of memory is
written, the context is PREEMPTED and waits for a place again; the first waiting context, by priority and then by order,
that fits takes its place and runs; a restored context runs on with the accumulators it had; and one that must leave while it
is restored keeps its saved state and waits again. -/
def Obligations.PreemptionAndPlacement : Prop :=
  (∀ (s : State) (c : Nat) (k : Ctx) (p : Part) (v : Variant) (e : CertEntry) (im : Image), s.works = true →
    s.ctx? c = some k → k.part = some p → k.variant = some v → k.cert = some e → k.image = some im → k.stopping = true →
    k.st = .running → s.textBusy c = false → s.lp.err = [] → s.err.frozen = false →
    (∀ x ∈ p.easels, s.fab.stop.contains x = true) →
    (∀ x ∈ s.fab.queue, p.easels.contains (x.1 / 16) = true → x.2.run ≠ .running) →
    (∀ g ∈ s.fab.dma, ∀ j ∈ g.2, j.ctx = c → j.failed = true) → (s.reading c).maskDue = none → (s.reading c).pairs = [] →
    s.err.sram = [] → s.inError c = false → s.destroying c = false → s.sched.admitting = [] →
    ∃ t g, exec (.preemptSaveComplete c) s = .next t ∧ t.ctx? c = some g ∧ g.st = .preempted ∧ g.part = none ∧
      g.stopping = false ∧ g.saved = some (s.savedOf v p e false) ∧
      tabGet 0 g.counters 0x79 = min (tabGet 0 k.counters 0x79 + 1) (2 ^ 48 - 1) ∧
      t.sched.waiting = s.sched.waiting ++ [c] ∧ t.hostMem = s.hostMem ∧
      (∀ a, (a < k.saveAt im ∨ k.saveAt im + e.saveBytes ≤ a) → memRead t.lp.mem a = memRead s.lp.mem a) ∧
      t.fuse = s.fuse) ∧
  (∀ (s : State) (c : Nat) (l : List Nat) (k : Ctx) (im : Image) (p : Part) (u : State), s.works = true → s.beOrder = c :: l →
    s.ctx? c = some k → k.image = some im → k.saved = none →
    s.choosePlace k im (List.range im.cert.length) = some (p, []) → s.bindPart c p = some u → u.mirroring = false →
    ∃ t g y, exec .bestEffortPlacement s = .next t ∧ t.ctx? c = some g ∧ g.st = .running ∧ g.part = some y ∧
      y.easels = p.easels ∧ y.variant = p.variant ∧ y.canvas = p.canvas ∧ c ∉ t.sched.waiting ∧ t.fab = u.fab ∧
      t.fuse = s.fuse) ∧
  (∀ s : State, s.works = true → (∀ c ∈ s.sched.waiting, s.placeBe c = none) →
    exec .bestEffortPlacement s = .next s) ∧
  (∀ (s u r : State) (c : Nat) (k : Ctx) (p : Part) (v : Variant) (e : CertEntry) (im : Image) (sv : Saved) (b : Bytes),
    s.works = true → s.ctx? c = some k → k.part = some p → k.variant = some v → k.cert = some e → k.image = some im →
    k.saved = some sv → k.restoring = true → k.stopping = false → p.easels.Nodup → s.err.sram = [] →
    s.lpRead 8 0 (some c) (k.saveAt im) e.saveBytes = (u, some b) → u.restorePal c k im v e p sv = some r →
    ∃ t g, exec (.resumeRestoreComplete c) s = .next t ∧ t.ctx? c = some g ∧ g.st = .running ∧ g.saved = none ∧
      g.restoring = false ∧ g.part = some p ∧
      (∀ i x j, p.easels[i]? = some x → j < 16384 →
        tabGet 0 t.fab.acc (x * 16384 + j) = tabGet 0 sv.acc (i * 16384 + j))) ∧
  (∀ (s : State) (c : Nat) (k : Ctx) (p : Part) (v : Variant) (e : CertEntry) (im : Image) (sv : Saved),
    s.works = true → s.ctx? c = some k → k.part = some p → k.variant = some v → k.cert = some e → k.image = some im →
    k.saved = some sv → k.restoring = true → k.stopping = true → s.sched.admitting = [] →
    ∃ t, exec (.resumeRestoreComplete c) s = .next t ∧
      t.ctx? c = some { k with part := none, stopping := false, restoring := false } ∧
      t.sched.waiting = s.sched.waiting ++ [c] ∧ t.lp = s.lp ∧ t.fuse = s.fuse)

/-- Requests of the channel controllers (R399, R400, R403, R410). With no error in memory, a read of 1 to 256 bytes delivers them, and a write of whole words, or of a
part of a word, puts its bytes and no others; the memory keeps its canonical form, and
nothing but the controllers' state changes. A word with one bad bit is delivered corrected, written back and counted once; one that cannot be
corrected freezes the device with a snapshot, is not delivered, and a partial write of it writes nothing. -/
def Obligations.MemoryRequests : Prop :=
  let only := fun (s t : State) => t = { s with lp := { s.lp with
    mem := t.lp.mem, readData := t.lp.readData, banks := t.lp.banks, refreshed := t.lp.refreshed, chan := t.lp.chan } }
  let wrote := fun (s t : State) (a : Nat) (b : Bytes) => only s t ∧ t.lp.readData = s.lp.readData ∧
    (Memory.wf s.lp.mem = true → Memory.wf t.lp.mem = true) ∧ memBytes t.lp.mem a b.length = b ∧
    ∀ i, (i < a ∨ a + b.length ≤ i) → memRead t.lp.mem i = memRead s.lp.mem i
  (∀ (s : State) (agent stream a n : Nat), s.lpReqOk a n = true → s.lp.err = [] →
    ∃ t, exec (.lpddr5Read agent stream a n) s = .next t ∧ only s t ∧ t.lp.mem = s.lp.mem ∧
      t.lp.readData = memBytes s.lp.mem a n) ∧
  (∀ (s : State) (agent stream a : Nat) (b : Bytes), s.lpReqOk a b.length = true → s.lp.err = [] →
    (a % 8 = 0 ∧ b.length % 8 = 0 → ∃ t, exec (.lpddr5Write agent stream a b) s = .next t ∧ wrote s t a b) ∧
    (¬(a % 8 = 0 ∧ b.length % 8 = 0) → ∃ t, exec (.lpddr5PartialWrite agent stream a b) s = .next t ∧ wrote s t a b)) ∧
  (∀ (s : State) (agent stream w p : Nat), s.lpReqOk (8 * w) 8 = true → p < 80 → s.lp.err = [(w, 2 ^ p)] → s.lp.cells = [] →
    ∃ t, exec (.lpddr5Read agent stream (8 * w) 8) s = .next t ∧ t.lp.readData = memBytes s.lp.mem (8 * w) 8 ∧
      t.lp.mem = s.lp.mem ∧ t.lp.err = [] ∧ t.err.correctedSeen = true ∧
      t.err.correctedCount = min (s.err.correctedCount + 1) (2 ^ 32 - 1) ∧ t.err.frozen = s.err.frozen) ∧
  (∀ (s : State) (agent stream w m : Nat) (b : Bytes), s.lpReqOk (8 * w) 8 = true → s.lp.err = [(w, m)] →
    bchDecode 80 m = .uncorrectable → s.err.active = none → 1 ≤ b.length → b.length ≤ 7 →
    (∃ t sn, exec (.lpddr5Read agent stream (8 * w) 8) s = .next t ∧ t.err.frozen = true ∧ t.err.freezeCause = 1 ∧
      t.lp.snap = some sn ∧ sn.addr = 8 * w ∧ sn.chan = (lpMap s.boot.memcfg (8 * w)).1 ∧ sn.agent = agent ∧ sn.rmw = false ∧
      t.lp.readData = s.lp.readData ∧ t.lp.mem = s.lp.mem) ∧
    (∃ t sn, exec (.lpddr5PartialWrite agent stream (8 * w) b) s = .next t ∧ t.err.frozen = true ∧ t.err.freezeCause = 1 ∧
      t.lp.snap = some sn ∧ sn.addr = 8 * w ∧ sn.rmw = true ∧ t.lp.mem = s.lp.mem ∧ t.lp.err = s.lp.err))

/-- Refresh and scrub (R397, R404 to R407, R410, R413). A bank is refreshed; MR4 sets the rate of its channel, and a throttle step falls when it leaves the range;
an activate opens its row and counts in its run and its window, and the chosen one of a run is due a refresh of the rows on either
side that exist, which comes before the bank's next activate; a refresh that is not due does nothing; k falls to the
target of a window at once, and rises by one after 16 windows above it; a DQ oscillator whose count is unchanged leaves the write
timing, and one that has drifted moves it; scrub takes the next group; and the loss of
synchronisation that is not repaired freezes the device. -/
def Obligations.RefreshAndScrub : Prop :=
  (∀ (s : State) (c rank bank : Nat), s.lpRefreshes = true → c < 16 → rank < ranks s.boot.memcfg → bank < 16 →
    ∃ t, exec (.perBankRefresh c rank bank) s = .next t ∧
      (tabGet {} t.lp.chan c) = { (tabGet {} s.lp.chan c) with refreshes := (tabGet {} s.lp.chan c).refreshes + 1 } ∧
      (∀ d, d ≠ c → tabGet {} t.lp.chan d = tabGet {} s.lp.chan d) ∧
      t = { s with lp := { s.lp with
        chan := t.lp.chan,
        banks := tabUpd s.lp.banks ((c * 2 + rank) * 16 + bank) (fun b => { b with row := none }) } }) ∧
  (∀ (s : State) (c f : Nat), s.lpServes = true → c < 16 →
    ∃ t, exec (.mr4Poll c f) s = .next t ∧ (tabGet {} t.lp.chan c).mr4 = f % 8 ∧ t.lp.mem = s.lp.mem ∧
      (∀ d, d ≠ c → tabGet {} t.lp.chan d = tabGet {} s.lp.chan d) ∧
      (f % 8 = 7 ∨ f % 8 = 0 → t.pwr.mr4Hot = true ∧
        (s.pwr.mr4Hot = false → t.pwr.throttle = min 3 (s.pwr.throttle + 1) ∧ t.pwr.coolMs = 0)) ∧
      (s.pwr.mr4Hot = true → t.pwr.throttle = s.pwr.throttle)) ∧
  (∀ (s : State) (c rank bank row : Nat), s.lpRefreshes = true → c < 16 → rank < ranks s.boot.memcfg → bank < 16 →
    let key := (c * 2 + rank) * 16 + bank
    let b := s.lp.bank key
    (b.due = some row →
      exec (.neighbourRefresh c rank bank row) s = .next { s with lp := { s.lp with
        banks := tabPut s.lp.banks key { b with due := none, row := none },
        refreshed := (if row + 1 < bankRows s.boot.memcfg then [(key, row + 1)] else []) ++
          (if 0 < row then [(key, row - 1)] else []) ++ s.lp.refreshed } }) ∧
    (b.due ≠ some row → exec (.neighbourRefresh c rank bank row) s = .next s)) ∧
  (∀ (l : Lpddr) (m c k b row : Nat),
    let key := (c * 2 + k) * 16 + b
    let x := l.bank key
    let y := (l.activate m c k b row).bank key
    (x.row = some row → l.activate m c k b row = l) ∧
    (x.row ≠ some row → y.row = some row ∧ y.window = x.window + 1 ∧
      y.due = (if Config.chosenActivate key x.run % 2 ^ x.k = x.count then some row else none) ∧
      (x.count + 1 ≠ 2 ^ x.k → y.count = x.count + 1 ∧ y.k = x.k ∧ y.run = x.run) ∧
      (x.count + 1 = 2 ^ x.k → y.count = 0 ∧ y.k = l.k ∧ y.run = x.run + 1) ∧
      (∀ r, x.due = some r → 0 < r → (key, r - 1) ∈ (l.activate m c k b row).refreshed) ∧
      (∀ r, x.due = some r → r + 1 < bankRows m → (key, r + 1) ∈ (l.activate m c k b row).refreshed))) ∧
  (∀ (s : State) (aMax h : Nat), s.works = true → h = (if fld s.boot.memcfg 31 16 = 0 then 4800 else fld s.boot.memcfg 31 16) →
    aMax = maxOf (s.lp.banks.map (fun b => b.2.window)) → 32 * aMax < 2 ^ 32 →
    ∃ t g, exec (.nrefreshAdaptWindow ()) s = .next t ∧
      (64 * aMax < h → g = 14) ∧
      (h ≤ 64 * aMax → ∃ f, (32 * aMax ≤ h → f = 0) ∧ (h < 32 * aMax → 32 * aMax ≤ h * 2 ^ f ∧ h * 2 ^ (f - 1) < 32 * aMax) ∧
        g = min 14 (max 6 (Nat.log2 (h / 4) - f))) ∧
      (g < s.lp.k → t.lp.k = g ∧ t.lp.kHigh = 0) ∧ (g = s.lp.k → t.lp.k = s.lp.k ∧ t.lp.kHigh = 0) ∧
      (s.lp.k < g → t.lp.kHigh = min 16 (s.lp.kHigh + 1) ∧ (15 ≤ s.lp.kHigh → t.lp.k = s.lp.k + 1) ∧
        (s.lp.kHigh < 15 → t.lp.k = s.lp.k)) ∧
      t.lp = { s.lp with
        k := t.lp.k, kHigh := t.lp.kHigh, banks := tabMap s.lp.banks (fun _ b => { b with window := 0 }) }) ∧
  (∀ (s : State) (c rank n : Nat), s.lpServes = true → c < 16 → rank < ranks s.boot.memcfg →
    let last := (tabFind (tabGet {} s.lp.chan c).osc rank).getD (Config.oscTrained c rank)
    (last = n ∨ Config.oscDrifted last n = false → exec (.dqOscTrack c rank n) s = .next s) ∧
    (last ≠ n → Config.oscDrifted last n = true →
      ∃ t, exec (.dqOscTrack c rank n) s = .next t ∧ t = { s with lp := { s.lp with chan := t.lp.chan } } ∧
        tabGet {} t.lp.chan c = { (tabGet {} s.lp.chan c) with
          adjusts := (tabGet {} s.lp.chan c).adjusts + 1, osc := tabPut (tabGet {} s.lp.chan c).osc rank n } ∧
        (∀ d, d ≠ c → tabGet {} t.lp.chan d = tabGet {} s.lp.chan d))) ∧
  (∀ (s : State) (c : Nat), s.lpServes = true → c < 16 → s.lp.err = [] →
    ∃ t, exec (.lpddr5Scrub c) s = .next t ∧ t.lp.mem = s.lp.mem ∧ LpServed s.lp t.lp ∧ t = { s with lp := t.lp } ∧
      (tabGet {} t.lp.chan c).scrubAt = ((tabGet {} s.lp.chan c).scrubAt + 1) % max 1 (payloadBytes s.boot.memcfg / 4096)) ∧
  (∀ (s : State) (c : Nat), s.ready = true → c < 16 →
    exec (.wck2ckSyncLoss c true) s = .next s ∧
    (s.err.frozen = false → ∃ t sn, exec (.wck2ckSyncLoss c false) s = .next t ∧ t.err.frozen = true ∧
      t.err.freezeCause = (if s.err.active = none then 1 else 3) ∧ t.lp = { s.lp with snap := some sn } ∧ sn.chan = c ∧ sn.kind = 3))

/-- Frames, triggers and lines (R248, R250 to R253, R257 to R260): a port locks after 16 frames with the frame clock's pattern; a
frame of a line in progress puts each lane's word, cut to afe_bits, at its pixel, and the last frame ends the line; the frames that
an unlocked port misses in a line count, and put the line in error (the model's choice, log 149); a lost
frame clock is a link error, within a line and between lines, and ends a line in error; a trigger starts the next line, with
its first timing levels, is held while the line program runs, and is dropped while one is held; an edge of ENC_A or ENC_B
makes a count by the encoder's mode (that ENC_A leads in forward travel is the model's choice, log 135), which moves p by 1.0
and triggers at q; and at the end of the line program the timing outputs hold and the held line starts. Only that port
changes. -/
def Obligations.FramesAndTriggers : Prop :=
  let only := fun (s t : State) (n : Nat) => t = { s with ports := t.ports } ∧ ∀ m, m ≠ n → t.port m = s.port m
  let starts := fun (s t : State) (n : Nat) => (t.port n).lineNo = (s.port n).lineNo + 1 ∧ (t.port n).running = true ∧
    (t.port n).frame = 0 ∧ (t.port n).held = false ∧ (t.port n).lineStart = s.clk.time ∧
    (∀ c, (s.port n).cfg = some c → (t.port n).tg = c.tgAt 0) ∧
    (t.port n).cur = some { no := (s.port n).lineNo + 1, start := s.clk.time, fin := 0, samples := [], err := false } ∧
    (match (s.port n).cur with
      | none => (t.port n).done = (s.port n).done ∧ (t.port n).counters = (s.port n).counters
      | some l => (t.port n).done = (s.port n).done ++ [{ l with err := true, fin := s.clk.time }] ∧
        tabGet 0 (t.port n).counters 0x57 = min (tabGet 0 (s.port n).counters 0x57 + 1) (2 ^ 48 - 1))
  (∀ (s : State) (n : Nat) (c : PortCfg), s.portLive n = true → (s.port n).cfg = some c →
    ((s.port n).fcoRun = 16 →
      ∃ t, exec (.afeLinkLock n) s = .next t ∧ only s t n ∧ t.port n = { s.port n with locked := true, fcoRun := 0 }) ∧
    ((s.port n).fcoRun ≠ 16 → exec (.afeLinkLock n) s = .next s) ∧
    (∀ (ok : Bool) (w : List W16), (s.port n).locked = false →
      let run := if ok then min 16 ((s.port n).fcoRun + 1) else 0
      ∃ t, exec (.afeFrame n ok w) s = .next t ∧ only s t n ∧
        ((s.port n).cur = none → t.port n = { s.port n with fcoRun := run }) ∧
        (∀ l, (s.port n).cur = some l → (s.port n).frame + 1 < c.offset + c.groups * c.mux →
          t.port n = { s.port n with
            fcoRun := run, frame := (s.port n).frame + 1,
            cur := some (if (s.port n).frame < c.offset then l else { l with err := true }) })) ∧
    (∀ w : List W16, (s.port n).locked = true → (s.port n).cur = none →
      ∃ t, exec (.afeFrame n false w) s = .next t ∧ only s t n ∧ (t.port n).locked = false ∧ (t.port n).fcoRun = 0 ∧
        (t.port n).done = (s.port n).done ∧
        tabGet 0 (t.port n).counters 0x56 = min (tabGet 0 (s.port n).counters 0x56 + 1) (2 ^ 48 - 1))) ∧
  (∀ (s : State) (n f : Nat) (w : List W16) (c : PortCfg) (l : RawLine), s.portLive n = true → (s.port n).locked = true →
    (s.port n).cfg = some c → (s.port n).cur = some l → (s.port n).frame = f →
    ∃ t r, exec (.afeFrame n true w) s = .next t ∧ only s t n ∧ (t.port n).frame = f + 1 ∧
      r.no = l.no ∧ r.start = l.start ∧ r.err = l.err ∧
      (if c.offset + c.groups * c.mux ≤ f + 1 then
        (t.port n).cur = none ∧ (t.port n).done = (s.port n).done ++ [r] ∧ r.fin = s.clk.time
       else (t.port n).cur = some r ∧ (t.port n).done = (s.port n).done) ∧
      (f < c.offset → r.samples = l.samples) ∧
      (c.offset ≤ f → ∀ (col x j : Nat), x < 2 ^ 14 → j < c.lanes →
        mapPixel (c.entry ((f - c.offset) % c.mux) j) ((f - c.offset) / c.mux) = some (col, (x : Int)) →
        (∀ i, i < c.lanes → i ≠ j → ∀ d y, mapPixel (c.entry ((f - c.offset) % c.mux) i) ((f - c.offset) / c.mux) = some (d, y) →
          d * 2 ^ 14 + y.toNat ≠ col * 2 ^ 14 + x) →
        tabGet 0 l.samples (col * 2 ^ 14 + x) = 0 →
        tabGet 0 r.samples (col * 2 ^ 14 + x) =
          (w[j]?.getD 0).toNat / 2 ^ (16 - c.afeBits) * 2 ^ (16 - c.afeBits))) ∧
  (∀ (s : State) (n : Nat) (w : List W16) (c : PortCfg) (l : RawLine), s.portLive n = true → (s.port n).locked = true →
    (s.port n).cfg = some c → (s.port n).cur = some l →
    ∃ t, exec (.afeFrame n false w) s = .next t ∧ only s t n ∧ (t.port n).locked = false ∧ (t.port n).cur = none ∧
      (t.port n).done = (s.port n).done ++ [{ l with err := true, fin := s.clk.time }] ∧
      tabGet 0 (t.port n).counters 0x56 = min (tabGet 0 (s.port n).counters 0x56 + 1) (2 ^ 48 - 1)) ∧
  (∀ (s : State) (n : Nat) (c : PortCfg), s.portLive n = true → (s.port n).cfg = some c → c.mode = 0 →
    (s.port n).st ≠ .off →
    ∃ t, exec (.freeRunTrigger n) s = .next t ∧ only s t n ∧
      ((s.port n).running = false → (s.port n).held = false → starts s t n) ∧
      ((s.port n).running = true → (s.port n).held = false → t.port n = { s.port n with held := true }) ∧
      ((s.port n).running = true → (s.port n).held = true → (t.port n).cur = (s.port n).cur ∧ (t.port n).held = true ∧
        (t.port n).lineNo = (s.port n).lineNo ∧ (s.port n).lineNo ∈ (t.port n).overLines ∧
        tabGet 0 (t.port n).counters 0x54 = min (tabGet 0 (s.port n).counters 0x54 + 1) (2 ^ 48 - 1))) ∧
  (∀ (s : State) (n : Nat) (onB a b : Bool) (c : PortCfg), s.portLive n = true → (s.port n).cfg = some c →
    (s.port n).st ≠ .off → a = ((s.port n).encA != !onB) → b = ((s.port n).encB != onB) →
    let counts := c.mode = 1 ∨ (c.mode = 2 ∧ onB = false ∧ a = true)
    let fwd := if c.mode = 1 then (if onB then a == b else a != b) else !b
    ∃ t, exec (.encoderCount n onB) s = .next t ∧ only s t n ∧ (t.port n).encA = a ∧ (t.port n).encB = b ∧
      (¬ counts → t.port n = { s.port n with encA := a, encB := b }) ∧
      (counts → fwd = bit c.hdr 18 → (t.port n).p = (s.port n).p - 65536 ∧ (t.port n).q = (s.port n).q ∧
        (t.port n).lineNo = (s.port n).lineNo ∧ (s.port n).lineNo ∈ (t.port n).revLines ∧
        tabGet 0 (t.port n).counters 0x55 = min (tabGet 0 (s.port n).counters 0x55 + 1) (2 ^ 48 - 1)) ∧
      (counts → fwd ≠ bit c.hdr 18 → (t.port n).p = (s.port n).p + 65536 ∧
        ((s.port n).p + 65536 < (s.port n).q → (t.port n).q = (s.port n).q ∧ (t.port n).lineNo = (s.port n).lineNo) ∧
        ((s.port n).q ≤ (s.port n).p + 65536 → (t.port n).q = (s.port n).q + c.encStep ∧
          ((s.port n).running = false → (s.port n).held = false → starts s t n)))) ∧
  (∀ (s : State) (n : Nat) (c : PortCfg), s.portLive n = true → (s.port n).running = true → (s.port n).cfg = some c →
    ∃ t, exec (.lineProgramEnd n) s = .next t ∧ only s t n ∧ ((s.port n).held = true → starts s t n) ∧
      ((s.port n).held = false → t.port n = { s.port n with running := false, tg := c.tgAt c.lineTicks }))

/-- Lines and pages (R261 to R267, R271 to R274, R277): the oldest received line is corrected and, while CALIBRATING, added to the
sums; a page opens at the leading edge found first, under the record of its port, and takes the lines from its lead margin
on; its trailing edge, its end, its cap and the idle count; a stored line is written to the page store, and its tokens return; a calibration ends with
the mean, rounded to even, as its dark table, and its request is answered. -/
def Obligations.LinesAndPages : Prop :=
  (∀ (s : State) (n : Nat) (c : PortCfg) (raw : RawLine) (rest : List RawLine), s.portLive n = true → (s.port n).cfg = some c →
    (s.port n).done = raw :: rest → s.err.sram = [] →
    ∃ t, exec (.lineComplete n) s = .next t ∧ (t.port n).done = rest ∧ (t.port n).lastNo = raw.no ∧
      t.hostMem = s.hostMem ∧ t.lp = s.lp ∧ t.hq = s.hq ∧ (∀ m, m ≠ n → (t.port m).page = (s.port m).page) ∧
      ((s.port n).st ≠ .capturing → t = { s with ports := t.ports } ∧ (t.port n).page = (s.port n).page ∧
        (t.port n).buf = (s.port n).buf) ∧
      (∃ h, (t.port n).hist.head? = some h ∧ ∀ k x, k < c.colours → x < c.pixels →
        (h[k]?.bind (fun l => l[x]?)) = some (correctSample (tabGet 0 raw.samples (k * 2 ^ 14 + x))
          (tabGet 0 (s.port n).dark (k * 2 ^ 14 + x)) (tabGet 0x4000 (s.port n).gain (k * 2 ^ 14 + x)))) ∧
      (∀ k, (s.port n).st = .calibrating → (s.port n).calib = some k → k.taken < k.lines → raw.samples = [] →
        (t.port n).calib = some { k with taken := k.taken + 1 }) ∧
      ((s.port n).st = .capturing → (s.port n).page = none → (s.port n).capping = false →
        (t.port n).page = none ∧ (t.port n).store = (s.port n).store)) ∧
  (∀ (s : State) (n ctx lead sheet : Nat) (un : Bool) (c : PortCfg) (es : List Edge), s.portLive n = true → (s.port n).cfg = some c →
    (s.port n).ctx = some ctx → (s.port n).st = .capturing → (s.port n).page = none → (s.port n).capping = false →
    (s.port n).edges = .lead lead sheet un :: es →
    ∃ t g, exec (.pageOpen n) s = .next t ∧ (t.port n).page = some g ∧ g.seq = (s.port n).pageSeq ∧ g.ctx = ctx ∧
      g.cq = (s.port n).cq ∧ g.lead = lead ∧ g.sheet = sheet ∧ g.unpaired = un ∧ g.lead - c.lead ≤ g.first ∧ g.cfg = some c ∧ (t.port n).edges = es ∧
      (s.port n).capFirst ≤ g.first ∧ (s.port n).afterPage ≤ g.first ∧ (t.port n).pageSeq = (s.port n).pageSeq + 1 ∧
      (∀ l ∈ (t.port n).buf, l ∈ (s.port n).buf) ∧ t.sched.accSeq = s.sched.accSeq + 1 ∧ t.lp = s.lp ∧ t.hq = s.hq ∧
      t.ctxs = s.ctxs) ∧
  (∀ (s : State) (n tr : Nat) (c : PortCfg) (es : List Edge), s.portLive n = true → (s.port n).cfg = some c →
    (s.port n).st = .capturing → (s.port n).edges = .trail tr :: es →
    (∀ g, (s.port n).page = some g → (s.port n).capping = false → g.trail = none →
      exec (.trailingEdgeConfirmed n) s = .next (s.putPort n { s.port n with
        edges := es, page := some { g with trail := some (tr - 1, tr - 1 + c.trail) } })) ∧
    ((s.port n).capping = true →
      exec (.trailingEdgeConfirmed n) s = .next (s.putPort n { s.port n with
        edges := es, capping := false, afterPage := max (s.port n).afterPage (tr + c.edgeLines) }))) ∧
  (∀ (s : State) (n e l z m : Nat) (g : Page) (k : Ctx), s.portLive n = true →
    (s.port n).page = some g → (s.port n).ctx = some l → s.ctx? l = some k → k.st = .running → (s.port n).newCfg = none →
    (s.port n).stopReq = none →
    (g.trail = some (e, z) → z ≤ (s.port n).lastNo → g.capLine = none →
      ∃ t, exec (.pageEnd n) s = .next t ∧ (t.port n).page = none ∧ (t.port n).st = (s.port n).st ∧
        (t.port n).pages = (s.port n).pages ++ [{ g with ended := some z }] ∧
        (t.port n).afterPage = z + 1 ∧ t = { s with ports := t.ports, out := t.out }) ∧
    (g.capLine = some m →
      ∃ t, exec (.pageCapReached n) s = .next t ∧ (t.port n).page = none ∧ (t.port n).capping = g.trail.isNone ∧
        (t.port n).pages = (s.port n).pages ++ [{ g with ended := some g.lastNo, capped := true, fin := g.finStored }] ∧
        (t.port n).afterPage = m + 1 ∧ t = { s with ports := t.ports, out := t.out })) ∧
  (∀ (s : State) (n : Nat) (c : PortCfg), s.portLive n = true → (s.port n).cfg = some c → (s.port n).st = .capturing →
    (s.port n).page = none → (s.port n).stopReq = none →
    (c.idle ≤ (s.port n).idle → (s.port n).edges.any Edge.isLead = false →
      ∃ t, exec (.captureIdleEnd n) s = .next t ∧ (t.port n).st = .armed ∧ (t.port n).buf = [] ∧ (t.port n).tokens = 0 ∧
        (t.port n).pages = (s.port n).pages ∧ t = { s with ports := t.ports }) ∧
    ((s.port n).idle < c.idle ∨ (s.port n).edges.any Edge.isLead = true → exec (.captureIdleEnd n) s = .next s)) ∧
  (∀ (s : State) (n a : Nat) (c : PortCfg) (x : StoreLine) (rest : List StoreLine) (g : Page), s.portLive n = true →
    (s.port n).cfg = some c → (s.port n).store = x :: rest → (s.port n).page = some g → (s.port n).pages = [] →
    g.seq = x.page → g.chunks = [a] → (x.row + 1) * x.data.length ≤ 2 ^ 20 → x.data ≠ [] →
    s.lp.err = [] → s.err.sram = [] → s.mirroring = false →
    ∃ t, exec (.lineStoreAccepted n) s = .next t ∧
      memBytes t.lp.mem (a + x.row * x.data.length) x.data.length = x.data ∧ (Memory.wf s.lp.mem = true → Memory.wf t.lp.mem = true) ∧
      (∀ i, (i < a + x.row * x.data.length ∨ a + (x.row + 1) * x.data.length ≤ i) → memRead t.lp.mem i = memRead s.lp.mem i) ∧
      (t.port n).store = rest ∧ (t.port n).tokens = (s.port n).tokens - x.tokens ∧
      t = { s with ports := t.ports, lp := t.lp } ∧ LpServed { s.lp with mem := t.lp.mem } t.lp) ∧
  (∀ (s : State) (n : Nat) (c : PortCfg) (k : Calib), s.portLive n = true → (s.port n).cfg = some c →
    (s.port n).st = .calibrating → (s.port n).calib = some k → k.taken = k.lines → k.kind = 0 →
    s.mbox.taken.any (fun r => r.ch == k.ch && r.seq == k.seq) = true →
    ∃ t, exec (.calibrationComplete n) s = .next t ∧ (t.port n).st = .armed ∧ (t.port n).calib = none ∧
      (∀ x y, x < c.colours → y < c.pixels →
        tabGet 0 (t.port n).dark (x * 2 ^ 14 + y) = rneDiv (tabGet 0 k.sums (x * 2 ^ 14 + y)) k.lines) ∧
      (∃ m ∈ tabGet [] t.mbox.ready k.ch, m.reply = true ∧ m.seq = k.seq ∧ m.opcode = 0x54 ∧ m.status = stOK) ∧
      (∀ r ∈ t.mbox.taken, ¬(r.ch = k.ch ∧ r.seq = k.seq)) ∧
      t = { s with ports := t.ports, mbox := { s.mbox with taken := t.mbox.taken, ready := t.mbox.ready } })

/-- Items before the primer (R21, R268, R277, R278, R280, R283, R286, R287, R293): the read of a view copies its bytes into the
context's LPDDR5 (it waits where that has no room, the model's choice, log 150), and the last fixes the reference instant; the dimensions that it declares, or that a header pass finds, give the tile count, the bucket and
a slot; a view that breaks a cap, a segment that is corrupt, begins at no IDR picture or breaks a limit of its stream, and a
spent decode budget end the sample with its status; a picture of a live stream that is the next of the decode array is queued,
or dropped with its stream marked broken; and the geometry block of an ended page, under the record it was captured with,
makes it an item. -/
def Obligations.ItemsArrive : Prop :=
  let placed := fun (t : State) (n b : Nat) (p : Profile) (it : Item) => ∃ bt y, tabFind t.intake.items n = some y ∧
    y = { it with bucket := some b, limitUs := budgetUs (p.buckets[b]?.getD 0), slotted := true, budget := y.budget } ∧
    (tabGet {} t.intake.buckets (it.ctx * 8 + b)).batch = some bt ∧ some n ∈ bt.slots
  let ends := fun (s t : State) (n cq st id : Nat) => tabFind t.intake.items n = none ∧ t.hostMem = s.hostMem ∧ t.fab = s.fab ∧
    ∃ h, tabFind t.hq cq = some h ∧ ∃ r ∈ h.ready, r.kind = 1 ∧ r.status = st ∧ r.itemId = id
  let sample := fun (s : State) (n : Nat) (it : Item) (p : Profile) => s.works = true ∧ tabFind s.intake.items n = some it ∧
    s.prof it.ctx = some p ∧ (∃ q d, it.kind = .sample q d) ∧
    (∃ h, tabFind s.hq it.cq = some h) ∧ it.replayed = false
  let room := fun (s : State) (it : Item) (p : Profile) (b tiles : Nat) => p.bucketOf tiles = some b ∧
    (tabGet {} s.intake.buckets (it.ctx * 8 + b)).batch = none ∧ 0 < batchSize (p.buckets[b]?.getD 0)
  let hostData := fun (s : State) (v : View) => memBytes s.hostMem (fld v.entry 191 128) (fld v.entry 223 192)
  let got := fun (s : State) (v : View) (a : Nat) => { v with
    read := true, copy := some (a, (hostData s v).length),
    strips := if v.format = 3 then (match tiffTags (hostData s v) (fld v.entry 15 8) with | some (_, _, c) => c | none => 0) else 0 }
  (∀ (s r : State) (n a : Nat) (it : Item) (p : Profile) (v : View) (d : Nat × Nat × Nat), sample s n it p → s.busMaster 0 = true →
    it.views = [v] → v.read = false → v.outcome = none → v.isVideo = false → v.dims = none → it.bucket = none →
    s.lp.err = [] → s.mirroring = false → hostData s v ≠ [] →
    s.lpAlloc (it.ctx + 1) (hostData s v).length = some (a, r) → v.declared (hostData s v) = some d →
    (p.breaksCaps d.1 d.2.1 = true → ∃ t, exec (.viewReadComplete n) s = .next t ∧ ends s t n it.cq stCorrupt it.itemId) ∧
    (∀ b, p.breaksCaps d.1 d.2.1 = false → room s it p b (tileCount p it.level v.skew v.aspect d.1 d.2.1) →
      ∃ t, exec (.viewReadComplete n) s = .next t ∧ t = { s with intake := t.intake, lp := t.lp } ∧
        memBytes t.lp.mem a (hostData s v).length = hostData s v ∧ t.lp.owner = r.lp.owner ∧
        placed t n b p { it with
          views := [{ got s v a with dims := some [d] }], ref := some s.clk.time,
          tiles := some (tileCount p it.level v.skew v.aspect d.1 d.2.1) })) ∧
  (∀ (s : State) (n : Nat) (it : Item) (p : Profile) (v : View), sample s n it p → it.views = [v] → v.read = false →
    hostData s v ≠ [] → (s.busMaster 0 = false ∨ s.lpAlloc (it.ctx + 1) (hostData s v).length = none) →
    exec (.viewReadComplete n) s = .next s) ∧
  (∀ (s r : State) (n b a : Nat) (it : Item) (p : Profile) (v : View) (ds : List (Nat × Nat × Nat)), sample s n it p →
    s.busMaster 0 = true → it.views = [v] → v.read = false → v.outcome = none → v.dims = some ds → it.bucket = some b →
    (∀ d ∈ ds, p.breaksCaps d.1 d.2.1 = false) → s.lp.err = [] → s.mirroring = false → hostData s v ≠ [] →
    s.lpAlloc (it.ctx + 1) (hostData s v).length = some (a, r) →
    ∃ t y, exec (.viewReadComplete n) s = .next t ∧ t = { s with intake := t.intake, lp := t.lp } ∧
      memBytes t.lp.mem a (hostData s v).length = hostData s v ∧
      tabFind t.intake.items n = some y ∧ y = { it with
        views := [got s v a], ref := some s.clk.time, budget := y.budget }) ∧
  (∀ (s : State) (n : Nat) (it : Item) (p : Profile) (v : View) (h : PicHeader), sample s n it p →
    it.views = [v] → v.read = true → v.outcome = none → v.isVideo = true → v.dims = none → it.bucket = none → s.lp.err = [] →
    let fits := h.idr && videoOk v.binding h.width h.height h.colours h.depth h.dpb h.opts
    (∃ t, exec (.headerPassComplete n 0 .corrupt) s = .next t ∧ ends s t n it.cq stCorrupt it.itemId) ∧
    (fits = false →
      ∃ t, exec (.headerPassComplete n 0 (.ok [h])) s = .next t ∧ ends s t n it.cq stCorrupt it.itemId) ∧
    (∀ b, fits = true → p.breaksCaps h.width h.height = false →
      room s it p b (tileCount p it.level v.skew v.aspect h.width h.height) →
      ∃ t, exec (.headerPassComplete n 0 (.ok [h])) s = .next t ∧ t = { s with intake := t.intake, lp := t.lp } ∧
        LpServed s.lp t.lp ∧ placed t n b p { it with
        views := [{ v with dims := some [(h.width, h.height, h.colours)] }],
        tiles := some (tileCount p it.level v.skew v.aspect h.width h.height) })) ∧
  (∀ (s : State) (n b : Nat) (it : Item) (p : Profile) (v : View), sample s n it p → it.views = [v] → v.outcome = none →
    it.bucket = some b → it.budget.isSome = true → (tabGet {} s.intake.buckets (it.ctx * 8 + b)).queued = [] →
    ∃ t, exec (.decodeBudgetExpiry n) s = .next t ∧ ends s t n it.cq stSlow it.itemId) ∧
  (∀ (s : State) (n b : Nat) (a : AccessUnit) (rest : List AccessUnit) (st : Stream) (p : Profile) (q : Picture),
    s.works = true → tabFind s.intake.streams n = some st → st.units = a :: rest → s.prof st.ctx = some p →
    s.servedDecode 0 = some (.access n a.order) →
    (st.takes q = false ∨ (q.refsLost = true ∧ q.idr = false) →
      ∃ t x, exec (.livePictureDecoded n (.decoded [q])) s = .next t ∧ tabFind t.intake.streams n = some x ∧
        x.broken = true ∧ x.units = rest ∧ t.intake.items.map Prod.fst = s.intake.items.map Prod.fst) ∧
    (q.refsLost = false → st.takes q = true → pictureBytes q ≠ [] →
      s.lpAlloc (st.ctx + 1) (pictureBytes q).length = none →
      ∃ t x, exec (.livePictureDecoded n (.decoded [q])) s = .next t ∧ tabFind t.intake.streams n = some x ∧
        x.broken = true ∧ x.units = rest) ∧
    (∀ c r, q.refsLost = false → st.takes q = true → st.waiting = [] → pictureBytes q ≠ [] → s.lp.err = [] →
      s.lpAlloc (st.ctx + 1) (pictureBytes q).length = some (c, r) →
      p.bucketOf (tileCount p 0 0 0 q.width q.height) = some b → (tabGet {} s.intake.buckets (st.ctx * 8 + b)).batch = none →
      ∃ t it v, exec (.livePictureDecoded n (.decoded [q])) s = .next t ∧ tabFind t.intake.items s.intake.nextItem = some it ∧
        it.kind = .live n ∧ it.ctx = st.ctx ∧ it.ref = some a.capture ∧ it.bucket = some b ∧ it.views = [v] ∧
        v.buf = some (c, (pictureBytes q).length) ∧ t.lp.owner = r.lp.owner ∧
        t.intake.nextItem = s.intake.nextItem + 1)) ∧
  (∀ (s : State) (n w l : Nat) (c : PortCfg) (g : Page) (k : Ctx) (pr : Profile), s.portLive n = true →
    (s.port n).cfgOf g = some c → (s.port n).pages = [g] → g.geometry = none → s.ctx? g.ctx = some k → k.st = .running → s.prof g.ctx = some pr →
    s.mirroring = false → w = geometryOf c (s.port n) g → l = s.intake.nextItem →
    (let box := cropBox pr w
     ∀ b, pr.bucketOf (tileCount pr 0 (pageSkew w) c.aspect
        ((min (box.2.1 + 1) c.outPx).toNat - (max box.1 0).toNat) ((min (box.2.2.2 + 1) g.stored).toNat - (max box.2.2.1 0).toNat)) = some b →
      (tabGet {} s.intake.buckets (g.ctx * 8 + b)).batch = none →
      ∃ t it, exec (.geometryFitComplete n) s = .next t ∧ (t.port n).pages = [{ g with geometry := some w }] ∧
        tabFind t.intake.items l = some it ∧ it.kind = .page n g.seq ∧ it.itemId = 2 ^ 62 + n * 2 ^ 48 + g.seq % 2 ^ 48 ∧
        it.capture = g.start0 ∧ it.ref = some g.fin ∧ it.bucket = some b ∧ t.intake.nextItem = l + 1 ∧
        t = { s with ports := t.ports, intake := t.intake }))

/-- Items in the primer (R278, R281, R283, R285, R290 to R292): a RAW view whose data is whole becomes a picture of its
samples, by planes; one that is short ends its sample TRUNCATED, with every declared row that the data did not give filled; a
view that is the next of its decode unit keeps its pictures, which suit what it declared, and their samples are in the context's
LPDDR5; a result that its data cannot give changes nothing; a view after the budget ends it SLOW; and stage 4 reads the pictures
there, and fills the item with one tile for each entry of its tile table.

Batches and split levels (R294, R295, R297): a batch that has aged closes; a closed batch whose slots are filled goes to its idle, running context: the
context is busy, one sequence stands for each slot, and the items are its items; the bucket is free again. A window's end keeps the last four
occupancies and clears the latencies; two above split_hi raise the source of the largest mean by one level. -/
def Obligations.ItemsDecodedAndBatched : Prop :=
  (
  let sample := fun (s : State) (n b : Nat) (it : Item) (p : Profile) (v : View) => s.works = true ∧ tabFind s.intake.items n = some it ∧
    s.prof it.ctx = some p ∧ (∃ q d, it.kind = .sample q d) ∧ it.views = [v] ∧ v.read = true ∧
    v.outcome = none ∧ it.bucket = some b ∧ (∃ h, tabFind s.hq it.cq = some h) ∧
    (tabGet {} s.intake.buckets (it.ctx * 8 + b)).queued = []
  let ends := fun (s t : State) (n cq st : Nat) => tabFind t.intake.items n = none ∧ t.hostMem = s.hostMem ∧ t.fab = s.fab ∧
    ∃ h, tabFind t.hq cq = some h ∧ ∃ r ∈ h.ready, r.kind = 1 ∧ r.status = st
  let need := fun (v : View) => fld v.entry 47 32 * fld v.entry 63 48 * v.rawColours * v.rawBytes
  let data := fun (s : State) (v : View) => match v.copy with | some (a, k) => memBytes s.lp.mem a k | none => []
  let room := fun (s : State) (it : Item) (v : View) (k a : Nat) => s.lp.err = [] ∧ 0 < k ∧
    ∃ r, (s.bufFree v.copy).lpAlloc (it.ctx + 1) k = some (a, r)
  let kept := fun (v : View) (ps : List Picture) (a k : Nat) => { v with
    pics := ps.map pictureBare, buf := some (a, k), copy := none, outcome := some 0 }
  (∀ (s : State) (n b a : Nat) (it : Item) (p : Profile) (v : View) (r : DecodeResult), sample s n b it p v → v.isRaw = true →
    s.overBudget it = false → room s it v (need v) a →
    (need v ≤ (data s v).length → ∃ t pic, exec (.viewDecodeComplete n 0 r) s = .next t ∧
      t = { s with intake := t.intake, lp := t.lp } ∧
      tabFind t.intake.items n = some { it with views := [kept v [pic] a (need v)] } ∧
      pic.width = fld v.entry 47 32 ∧ pic.height = fld v.entry 63 48 ∧ pic.depth = 8 * v.rawBytes ∧
      pic.planes.length = v.rawColours ∧ memBytes t.lp.mem a (need v) = (data s v).take (need v)) ∧
    ((data s v).length < need v → ∃ t, exec (.viewDecodeComplete n 0 r) s = .next t ∧ ends s t n it.cq stTruncated)) ∧
  (∀ (s : State) (n b a : Nat) (it : Item) (p : Profile) (v : View) (ps : List Picture), sample s n b it p v → v.isRaw = false →
    s.servedDecode v.unit = some (.view n 0) → s.lp.err = [] →
    let bytes := ps.flatMap pictureBytes
    (s.overBudget it = false → v.allSuit (data s v) ps = true → room s it v bytes.length a →
      ∃ t, exec (.viewDecodeComplete n 0 (.decoded ps)) s = .next t ∧
        (v.isVideo = false → t = { s with intake := t.intake, lp := t.lp } ∧ memBytes t.lp.mem a bytes.length = bytes) ∧
        tabFind t.intake.items n = some { it with views := [kept v ps a bytes.length] }) ∧
    (s.overBudget it = false → v.canGive (data s v) .corrupt = true →
      ∃ t, exec (.viewDecodeComplete n 0 .corrupt) s = .next t ∧ ends s t n it.cq stCorrupt) ∧
    (s.overBudget it = false → v.canGive (data s v) (.truncated ps) = true → v.isVideo = false →
      room s it v ((v.filled p (data s v) ps).flatMap pictureBytes).length a →
      ∃ t, exec (.viewDecodeComplete n 0 (.truncated ps)) s = .next t ∧ ends s t n it.cq stTruncated) ∧
    (s.overBudget it = true → v.allSuit (data s v) ps = true → v.isVideo = false →
      ∃ t, exec (.viewDecodeComplete n 0 (.decoded ps)) s = .next t ∧ ends s t n it.cq stSlow) ∧
    (∀ r, v.canGive (data s v) r = false →
      ∃ t, exec (.viewDecodeComplete n 0 r) s = .next t ∧ t = { s with lp := t.lp } ∧ LpServed s.lp t.lp)) ∧
  (∀ (p : Profile) (q : Picture) (d : Nat × Nat × Nat) (k i : Nat), k < d.2.2 → i < d.1 * d.2.1 →
    ((filledPicture q p d).planes[k]?.bind (fun l => l[i]?)) = some
      (let pl := q.planes[k]?.getD []
       if i < min d.2.1 (pl.length / max 1 d.1) * d.1 then pl.getD i 0 else p.fillPlane q.ycc q.limited q.depth k)) ∧
  (∀ (s : State) (n : Nat) (it : Item) (p : Profile), s.works = true → tabFind s.intake.items n = some it →
    s.prof it.ctx = some p → it.slotted = true → it.filled = false → (∀ v ∈ it.views, v.outcome = some 0) → s.lp.err = [] →
    (∃ u tiles, s.itemTiles it p = (u, some tiles) ∧ u = { s with lp := u.lp } ∧ LpServed s.lp u.lp ∧
      (∀ q d v pic a k, it.kind = .sample q d → it.views = [v] → v.pics = [pic] → v.buf = some (a, k) →
        tiles = (fillPictures [pic] (memBytes s.lp.mem a k)).flatMap (fun x => primePicture p it.level v.skew v.aspect 0 x))) ∧
    (∀ u r tiles a, s.itemTiles it p = (u, some tiles) →
      let bytes := tiles.flatMap Prod.fst
      bytes ≠ [] → u.lpAlloc (it.ctx + 1) bytes.length = some (a, r) →
      (∀ v ∈ it.views, ∀ b k, v.buf = some (b, k) → ∀ j, b / 65536 ≤ j → j < b / 65536 + ceilDiv k 65536 →
        tabHas s.lp.owner j = true) →
      ∃ t x, exec (.primerItemComplete n) s = .next t ∧ tabFind t.intake.items n = some x ∧
        x = { it with
          filled := true, tilesAt := some (a, bytes.length), tileTable := tiles.map Prod.snd,
          views := it.views.map (fun v => { v with buf := none }) } ∧
        memBytes t.lp.mem a bytes.length = bytes ∧ t = { s with intake := t.intake, ctxs := t.ctxs, lp := t.lp }))) ∧
  (
  (∀ (s : State) (c b : Nat) (x : Bucket) (bt : Batch), s.works = true → tabFind s.intake.buckets (c * 8 + b) = some x →
    x.batch = some bt →
    exec (.batchAgeTimeout c b) s = .next { s with intake := { s.intake with
      buckets := tabPut s.intake.buckets (c * 8 + b) { x with batch := some { bt with closed := true } } } }) ∧
  (∀ (s : State) (c b n : Nat) (k : Ctx) (x : Bucket) (bt : Batch) (it : Item), s.works = true → s.ctx? c = some k →
    k.st = .running → k.busy = false → k.stopping = false → k.restoring = false → tabFind s.intake.buckets (c * 8 + b) = some x →
    x.batch = some bt → x.queued = [] → bt.closed = true → some n ∈ bt.slots → tabFind s.intake.items n = some it →
    (∀ m y, some m ∈ bt.slots → tabFind s.intake.items m = some y → y.filled = true ∧ s.stale y = false) →
    (∀ m, some m ∈ bt.slots → tabHas s.intake.items m = true) → s.sten.waiting = [] →
    ∃ t g, exec (.batchDispatch c b) s = .next t ∧ t.ctx? c = some g ∧ g.busy = true ∧
      (t.reading c).items = bt.slots.filterMap id ∧ (t.reading c).seqs.length = bt.slots.length ∧
      (∀ (j m : Nat), bt.slots[j]? = some (some m) → ∃ q, (t.reading c).seqs[j]? = some q ∧ q.item = some m ∧ q.finished = false) ∧
      (∀ (j : Nat), bt.slots[j]? = some none → ∃ q, (t.reading c).seqs[j]? = some q ∧ q.finished = true) ∧
      (tabGet {} t.intake.buckets (c * 8 + b)).batch = none ∧
      (∃ y, tabFind t.intake.items n = some y ∧ y.dispatched = true ∧ y.ctx = it.ctx) ∧ t.fuse = s.fuse ∧ t.hostMem = s.hostMem) ∧
  (∀ (s : State) (pct o c src : Nat) (k : Ctx) (p : Profile) (x : Source), s.works = true → s.ctxs = [(c, k)] → s.prof c = some p →
    s.intake.occupancy.head? = some o → p.splitHi < pct → p.splitHi < o → s.intake.sources = [(src, x)] → x.ctx = c → x.lat ≠ [] →
    x.level < p.splitMax → s.splitPending k.session < 64 →
    ∃ t y, exec (.splitWindowEnd pct) s = .next t ∧ t.intake.occupancy = (pct :: s.intake.occupancy).take 4 ∧
      tabFind t.intake.sources src = some y ∧ y.level = x.level + 1 ∧ y.ctx = c ∧ y.lat = [] ∧ t.intake.items = s.intake.items) ∧
  (∀ (s : State) (pct : Nat), s.works = true → s.ctxs = [] →
    exec (.splitWindowEnd pct) s = .next { s with intake := { s.intake with
      occupancy := (pct :: s.intake.occupancy).take 4, sources := tabMap s.intake.sources (fun _ x => { x with lat := [] }) } }))

/-- Decoder steps and KV pages (R167, R169, R177, R182, R187, R188, R197, R200, R318): a step of a busy context gives every live
sequence its query rows, those of its own shard in a ring, and its key count, applies the invalidations, and makes the context
step; the walk of a head group's next block brings one page of a head from its frame in LPDDR5, which the page list or the
legacy walk names, to the K and V buffers of its turn; a page that the walk does not find is the context's error. -/
def Obligations.StepsAndPages : Prop :=
  let native := fun (s : State) (c site r : Nat) (q : Seq) (page f : Nat) => kvLegacy r = false ∧
    ∃ sl, slotOf (s.reading c) (q.firstPage + page) = some sl ∧ f = tabGet 0 (s.reading c).sites site + sl * kvFrame r
  let pde := fun (s : State) (c site lpn : Nat) => memNat s.lp.mem (tabGet 0 (s.reading c).sites site + 8 * (lpn / 1024)) 8
  let legacy := fun (s : State) (c a site r : Nat) (q : Seq) (page f : Nat) => kvLegacy r = true ∧ tabFind s.read.tlb a = none ∧
    let w := pde s c site (q.firstPage + page)
    let v := memNat s.lp.mem (4096 * fld w 35 12 + 8 * ((q.firstPage + page) % 1024)) 8
    bit w 0 = true ∧ onlyBits w [(0, 0), (35, 12)] = true ∧ 4096 * fld w 35 12 % 8192 = 0 ∧
    s.lpOwned c (4096 * fld w 35 12) 8192 = true ∧ bit v 0 = true ∧ onlyBits v [(1, 0), (35, 12)] = true ∧
    f = 4096 * fld v 35 12 ∧ s.lpOwned c f (kvFrame r) = true
  let walks := fun (s : State) (c j page r : Nat) (k : Ctx) (q : Seq) (st : AttnSite) (e gi at0 : Nat) (g : AttnGroup) (m : Emitted) =>
    let ms := s.groupEmits c k st gi
    let n := tabGet 0 (s.reading c).walked gi
    s.works = true ∧ s.ctx? c = some k ∧ k.st = .running ∧ k.kvRec = some r ∧ (s.reading c).stepping = true ∧
    k.groupsAt = [(gi, st, e, g)] ∧ st.kvSite ≠ 0x3F ∧ (walkList st ms)[n]? = some (at0, m) ∧ m.seq = j ∧ m.page = page ∧
    m.summary ≠ 2 ∧ mayWalk (walkList st ms) r n page (s.groupDone c e g ms.length) = true ∧
    ((s.reading c).seqsAt st)[j]? = some q ∧ (s.queue e g.queue).wait = none ∧ s.lp.err = [] ∧ s.err.sram = [] ∧
    (∀ x ∈ s.fab.queue, x.2.granted = false)
  (∀ (s : State) (c : Nat) (k : Ctx), s.works = true → s.ctx? c = some k → k.st = .running → k.busy = true → k.stopping = false →
    (s.reading c).started = [] → (∃ q ∈ (s.reading c).seqs, q.idle = false) →
    (∀ (j : Nat) (q : Seq), (s.reading c).seqs[j]? = some q → q.idle = false → q.ending = none ∧
      ownKeys (s.ringJob? c) j q.extent.1 ≤ maxTokensOf k.var ∧ q.extent.1 ≤ keyLimit (s.ringJob? c) k.kvRec ∧
      (ownRows (s.ringJob? c) j q.extent.2.1 q.extent.2.2).1 ≤ maxQueriesOf k.var) →
    ∃ t, exec (.decoderStepStart c) s = .next t ∧ (t.reading c).stepping = true ∧ (t.reading c).invals = [] ∧
      (t.reading c).seqs.length = (s.reading c).seqs.length ∧
      (∀ (j : Nat) (q : Seq), (s.reading c).seqs[j]? = some q → q.idle = false → ∃ y, (t.reading c).seqs[j]? = some y ∧
        y.tokens = (if q.tokens < q.ids.length then q.ids.length else q.tokens) ∧
        (y.queries, y.pos0) = ownRows (s.ringJob? c) j (if q.tokens < q.ids.length then q.ids.length - q.tokens else 1)
          (if q.tokens < q.ids.length then q.tokens else q.tokens - 1) ∧ y.ids = q.ids ∧ y.item = q.item ∧
        y.fields = q.fields ∧ y.text = q.text) ∧ t.hostMem = s.hostMem ∧ t.fuse = s.fuse) ∧
  (∀ (s : State) (c j page r f site e gi at1 : Nat) (k : Ctx) (q : Seq) (st : AttnSite) (g : AttnGroup) (m : Emitted),
    walks s c j page r k q st e gi at1 g m → st.kvSite = site → g.hCount = 1 → kvUnits r = 0 → (s.reading c).pairs = [] →
    (native s c site r q page f ∨ legacy s c (e / 8) site r q page f) →
    let fw := leNat (memBytes s.fab.palette (e * 2 ^ 20 + g.fwdTemplate) 64)
    let at0 := e * 2 ^ 20 + (if page % 2 = 0 then fld fw 255 224 else g.kAlt)
    bit fw 139 = false → cAcq fw = false →
    ∃ t, exec (.pageWalk c site j page) s = .next t ∧
      memBytes t.fab.palette at0 (2 * kvPlane r) = memBytes s.lp.mem (f + g.headFirst * (2 * kvPlane r)) (2 * kvPlane r) ∧
      (∀ i, (i < at0 ∨ at0 + 2 * kvPlane r ≤ i) → memRead t.fab.palette i = memRead s.fab.palette i) ∧
      t.fab.canvas = s.fab.canvas ∧ t.lp.mem = s.lp.mem ∧ t.hostMem = s.hostMem ∧ (t.reading c).seqs = (s.reading c).seqs ∧
      tabGet 0 (t.reading c).walked gi = tabGet 0 (s.reading c).walked gi + 1) ∧
  (∀ (s : State) (c j page r e gi at1 : Nat) (k : Ctx) (q : Seq) (st : AttnSite) (g : AttnGroup) (m : Emitted),
    walks s c j page r k q st e gi at1 g m → kvLegacy r = true → tabFind s.read.tlb (e / 8) = none →
    bit (pde s c st.kvSite (q.firstPage + page)) 0 = false → s.err.active = none →
    ∃ t, exec (.pageWalk c st.kvSite j page) s = .next t ∧ t.err.active = some (c, 6) ∧ t.err.takenUp = false ∧
      t.fab = s.fab ∧ t.lp.mem = s.lp.mem)

/-- Fields, dead ends and masks (R223, R226, R239 to R245): a field that has ended is closed with its text, its tokens and how it ended, and the
next one starts in its own state; after the last field, or END_SEQUENCE, the sequence is over and its item has its record, and
the context is free once no mask record is due; a dead end is retried once where the field allows it, with what is left of an
earlier retry's budget (the model's reading, log 117), and otherwise ends the sequence with code 4, and its DEAD record is in the
ring; and the mask record of a
step is written into the ring with the kind that the sequence's state gives, STOPPED from the step after a dead end on, and the
mask tally is posted; a best-effort context's masks wait while those of a real-time one can be built.

Text jobs (R212 to R219, R383): the buffer whose turn it is, is read from host memory after what the stream held back; its
decided tokens, with their byte offsets where the descriptor asks for them, are written to host memory as far as their entries
fit, and nothing else there changes; the descriptor completes with OK, or FORMAT when they do not all fit; and the stream
keeps what is undecided. -/
def Obligations.FieldsMasksAndText : Prop :=
  (
  let done := fun (s t : State) (c n cq : Nat) => tabFind t.intake.items n = none ∧ (∀ q ∈ (t.reading c).seqs, q.idle = true) ∧
    ((s.reading c).maskDue = none → (t.reading c).seqs = [] ∧ ∃ g, t.ctx? c = some g ∧ g.busy = false) ∧
    t.hostMem = s.hostMem ∧ ∃ h, tabFind t.hq cq = some h ∧ ∃ r ∈ h.ready, r.kind = 1 ∧ r.status = stOK
  let last := fun (s : State) (c n : Nat) (q : Seq) (it : Item) => (s.reading c).seqs = [q] ∧ (s.reading c).started = [] ∧
    q.item = some n ∧ tabFind s.intake.items n = some it ∧ (∃ x d, it.kind = .sample x d) ∧ (∃ h, tabFind s.hq it.cq = some h)
  (∀ (s : State) (c j code : Nat) (k : Ctx) (q : Seq) (p : TextProfile) (g : Grammar), s.works = true → s.ctx? c = some k →
    (s.reading c).seqs[j]? = some q → q.ending = some code → q.finished = false → s.profileOf c = some p → s.grammarOf c = some g →
    (code = 0 ∨ code = 1) → q.field + 1 ≠ p.fieldCount → k.atLimit q = false → s.sten.waiting = [] → q.held = [] →
    q.pending = [] →
    ∃ t y f, exec (.fieldEndVerdict c j) s = .next t ∧ (t.reading c).seqs[j]? = some y ∧ y.field = q.field + 1 ∧
      y.fields = q.fields ++ [f] ∧ f.text = q.text ∧ f.endedBy = code ∧ f.tokens = q.fieldTokens ∧ f.overflow = q.overflow ∧
      y.text = [] ∧ y.fieldTokens = 0 ∧ y.ending = none ∧ y.s = fld (gField g.image (q.field + 1)) 15 0 ∧
      (∀ i, i ≠ j → (t.reading c).seqs[i]? = (s.reading c).seqs[i]?) ∧ t = { s with read := t.read, ctxs := t.ctxs }) ∧
  (∀ (s : State) (c n code : Nat) (k : Ctx) (q : Seq) (p : TextProfile) (it : Item), s.works = true → s.ctx? c = some k →
    last s c n q it → q.ending = some code → q.finished = false → s.profileOf c = some p →
    (s.grammarOf c).isSome = true → (code = 2 ∨ code = 3 ∨ q.field + 1 = p.fieldCount) →
    ∃ t, exec (.fieldEndVerdict c 0) s = .next t ∧ done s t c n it.cq) ∧
  (∀ (s : State) (c j : Nat) (k : Ctx) (q : Seq) (p : TextProfile) (g : Grammar), s.works = true → s.ctx? c = some k → k.st = .running →
    (s.reading c).seqs[j]? = some q → q.idle = false → q.ending = none → q.dead = false → (s.reading c).maskDue.isSome = true →
    s.profileOf c = some p → s.grammarOf c = some g → (∀ x, x < gVocab g.image → s.admits g.image q x = false) →
    bit (gField g.image q.field) 48 = true → q.retried = false → k.realTime = false → s.err.sram = [] → s.lp.err = [] →
    ∃ t y, exec (.deadEndReport c j) s = .next t ∧ (t.reading c).seqs[j]? = some y ∧ y.retried = true ∧
      (∀ st, k.var.stencil = [st] →
        memBytes t.lp.mem (k.lpBase + st.maskRing + ((s.reading c).step % 2 * st.maxSeq + j) * 1088) 64 =
          s.maskRecord g q (s.reading c).step .dead) ∧
      y.retryUsed = some (0, match q.retryUsed with
        | some u => min (fld (gField g.image q.field) 47 32) (u.2 - u.1)
        | none => fld (gField g.image q.field) 47 32) ∧ y.tokens = min q.tokens q.fieldPos ∧
      y.ids = q.ids.take q.fieldPos ∧ y.text = [] ∧ y.fieldTokens = 0 ∧ y.field = q.field ∧ y.fields = q.fields ∧
      y.s = fld (gField g.image q.field) 31 16 ∧ t.hostMem = s.hostMem) ∧
  (∀ (s : State) (c n : Nat) (k : Ctx) (q : Seq) (p : TextProfile) (g : Grammar) (it : Item), s.works = true → s.ctx? c = some k →
    k.st = .running → last s c n q it → q.finished = false → q.ending = none → q.dead = false → (s.reading c).maskDue.isSome = true →
    s.profileOf c = some p → s.grammarOf c = some g → (∀ x, x < gVocab g.image → s.admits g.image q x = false) →
    bit (gField g.image q.field) 48 = false → s.err.sram = [] → s.lp.err = [] →
    ∃ t y, exec (.deadEndReport c 0) s = .next t ∧
      (∀ st, k.var.stencil = [st] →
        memBytes t.lp.mem (k.lpBase + st.maskRing + (s.reading c).step % 2 * st.maxSeq * 1088) 64 =
          s.maskRecord g q (s.reading c).step .dead) ∧ done s t c n it.cq ∧ (t.reading c).seqs = [y] ∧ y.dead = true ∧
      y.finished = true ∧ (∃ f ∈ y.fields, f.endedBy = 4 ∧ f.dead = true)) ∧
  (∀ (s : State) (c m at0 : Nat) (k : Ctx) (q : Seq) (g : Grammar) (st : StencilSite) (kind : MaskKind), s.works = true →
    s.ctx? c = some k → k.st = .running → s.grammarOf c = some g → (s.reading c).maskDue.isSome = true →
    (s.reading c).seqs = [q] → (q.idle = false → q.ending = none ∧ (q.dead = false → s.noToken g.image q = false)) →
    k.var.stencil = [st] → k.tallyAt st.tallyPos st.tallyLocal = some m → s.fab.waiters = [] →
    (∀ x ∈ s.fab.queue, x.2.granted = false) → tabGet 0 s.fab.tally m < 65535 → s.lp.err = [] → s.err.sram = [] →
    s.inError c = false → (k.realTime = true ∨ ∀ y ∈ s.ctxs, y.2.realTime = true → s.maskReady y.1 = false) →
    kind = (if q.dead then .dead else if q.idle then .stopped else if q.lex then .lexicon else .classes) →
    at0 = k.lpBase + st.maskRing + (s.reading c).step % 2 * st.maxSeq * 1088 →
    let b := s.maskRecord g q (s.reading c).step kind
    ∃ t, exec (.maskBuildComplete c) s = .next t ∧ (q.dead = false → memBytes t.lp.mem at0 b.length = b) ∧
      (q.dead = true → t.lp = s.lp) ∧ (t.reading c).maskDue = none ∧
      (q.idle = false → (t.reading c).seqs = [{ q with mask := kind, dead := false }]) ∧
      (q.idle = true → (s.reading c).started = [] → (t.reading c).seqs = [] ∧ ∃ g, t.ctx? c = some g ∧ g.busy = false) ∧
      tabGet 0 t.fab.tally m = tabGet 0 s.fab.tally m + 1 ∧
      (∀ i, (i < at0 ∨ at0 + max 1088 b.length ≤ i) → memRead t.lp.mem i = memRead s.lp.mem i) ∧
      t.fab.palette = s.fab.palette ∧ t.hostMem = s.hostMem) ∧
  (∀ (s : State) (c d : Nat) (k y : Ctx), s.ctx? c = some k → k.realTime = false → (d, y) ∈ s.ctxs → y.realTime = true →
    s.maskReady d = true → exec (.maskBuildComplete c) s = .next s)) ∧
  (
  ∀ (s : State) (n : Nat) (x : TextStream) (j : TextJob) (rest : List TextJob) (q h : HwQueue) (v : Vocab) (d : Desc),
    s.works = true → s.busMaster 0 = true → tabFind s.text.streams n = some x → x.jobs = j :: rest →
    s.servedText = some (n, j.no) → tabFind s.hq j.sq = some q → s.vocabRec x.ctx = some v → s.err.sram = [] →
    q.outst.find? (fun d => d.no == j.desc) = some d → x.closing = none → q.isCq = false →
    fld q.binding 29 16 ≠ j.sq → tabFind s.hq (fld q.binding 29 16) = some h →
    let made := textBuffer v.image (bit d.word 13) x (memBytes s.hostMem (fld d.word 191 128) (fld d.word 223 192))
    let each := if bit d.word 352 then 8 else 4
    let fit := fld d.word 351 320 / 4
    let room := fit / (each / 4)
    let out := fld d.word 319 256
    ∃ t y g, exec (.textJobComplete n) s = .next t ∧
      (∀ i tk o, i < room → made.1[i]? = some (tk, o) → memBytes t.hostMem (out + each * i) 4 = toLe 4 tk ∧
        (bit d.word 352 = true → memBytes t.hostMem (out + each * i + 4) 4 = toLe 4 o)) ∧
      (∀ tk o, bit d.word 352 = true → fit % 2 = 1 → made.1[room]? = some (tk, o) →
        memBytes t.hostMem (out + 8 * room) 4 = toLe 4 tk) ∧
      (∀ a, (a < out ∨ out + 4 * min fit (each / 4 * made.1.length) ≤ a) → memRead t.hostMem a = memRead s.hostMem a) ∧
      tabFind t.text.streams n = some y ∧ y = { made.2.2.2 with jobs := rest } ∧
      tabFind t.hq (fld q.binding 29 16) = some g ∧
      (∃ r ∈ g.ready, r.kind = 0 ∧ r.sq = some j.sq ∧ r.descNo = j.desc ∧ r.detail = min room made.1.length ∧
        r.status = (if made.1.length ≤ room then stOK else stFormat)) ∧
      t.fab = s.fab ∧ t.lp = s.lp ∧ t.fuse = s.fuse)

/-- R34: An operation with n = 0 completes at once. TALLY_ACQUIRE and TALLY_WAIT with n = 0 never block: whoever waits
already, the queue goes on to its next word, no waiter is added and no count changes. A release of 0 goes on too and
changes no count, a post of 0 changes nothing, and with nobody waiting a set to 0 makes the count 0. -/
def Obligations.ZeroOperationsCompleteAtOnce : Prop :=
  let goesOn := fun (s t : State) (e q : Nat) => store t = store s ∧ t.fab.waiters = s.fab.waiters ∧
    (∀ k, tabGet 0 t.fab.tally k = tabGet 0 s.fab.tally k) ∧ (t.queue e q).wait = none ∧
    (t.queue e q).next = (s.queue e q).next + 64
  (∀ (s : State) (c e q w : Nat), Runs s c e q w → cOp w = 0x10 → fld w 175 160 = 0 → cRel w = false →
    (∀ x ∈ s.fab.queue, x.2.granted = false) →
    (fld w 131 128 = 0 → ∃ t, exec (.tallyAcquire e q) s = .next t ∧ goesOn s t e q) ∧
    (fld w 131 128 = 1 → ∃ t, exec (.tallyWait e q) s = .next t ∧ goesOn s t e q) ∧
    (fld w 131 128 = 2 → ∃ t, exec (.tallyRelease e q) s = .next t ∧ goesOn s t e q)) ∧
  (∀ (s : State) (c k : Nat), s.works = true → s.tallyIn c k = true → (∀ x ∈ s.fab.queue, x.2.granted = false) →
    exec (.tallyPost c k 0) s = .next s) ∧
  (∀ (s : State) (k : Nat), s.works = true → k < 16384 → s.fab.waiters = [] → (∀ x ∈ s.fab.queue, x.2.granted = false) →
    ∃ t, exec (.tallySet k 0) s = .next t ∧ t = { s with fab := { s.fab with tally := t.fab.tally } } ∧
      ∀ j, tabGet 0 t.fab.tally j = if j = k then 0 else tabGet 0 s.fab.tally j)

/-- R251: Of each word, the port takes bits [15:16 − afe_bits] as the sample. It stores the sample left-justified, with zero in the bits below; and corrected
samples stay on the 16-bit scale. One lane whose map entry names a pixel of one colour. -/
def Obligations.SamplesAreLeftJustified : Prop :=
  (∀ (s : State) (n f x col : Nat) (w : W16) (ws : List W16) (c : PortCfg) (l : RawLine), s.portLive n = true →
    (s.port n).locked = true → (s.port n).cfg = some c → (s.port n).cur = some l → (s.port n).frame = f → c.offset ≤ f →
    c.lanes = 1 → c.afeBits ≤ 16 → mapPixel (c.entry ((f - c.offset) % c.mux) 0) ((f - c.offset) / c.mux) = some (col, (x : Int)) →
    l.samples = [] →
    ∃ t r v, exec (.afeFrame n true (w :: ws)) s = .next t ∧ t = { s with ports := t.ports } ∧
      ((t.port n).cur = some r ∨ (t.port n).done = (s.port n).done ++ [r]) ∧
      v = tabGet 0 r.samples (col * 2 ^ 14 + x) ∧ v < 2 ^ 16 ∧
      (∀ i, 16 - c.afeBits ≤ i → v.testBit i = w.toNat.testBit i) ∧ (∀ i, i < 16 - c.afeBits → v.testBit i = false)) ∧
  (∀ x d g, correctSample x d g < 2 ^ 16)

/-- R267: A capture ends, and the port returns to ARMED, when idle_lines consecutive non-paper lines pass with no page open. The host's stop command ends it at
once with no page open, and otherwise when the open page ends; its request is answered then. -/
def Obligations.CapturesEnd : Prop :=
  let owns := fun (s : State) (ch n : Nat) (k : Ctx) =>
    ∃ c, (s.port n).ctx = some c ∧ s.ctx? c = some k ∧ k.session = ch ∧ k.tearMode ≠ 3
  (∀ (s : State) (n : Nat) (c : PortCfg), s.portLive n = true → (s.port n).cfg = some c → (s.port n).st = .capturing →
    (s.port n).page = none → (s.port n).stopReq = none →
    (c.idle ≤ (s.port n).idle → (s.port n).edges.any Edge.isLead = false →
      ∃ t, exec (.captureIdleEnd n) s = .next t ∧ (t.port n).st = .armed ∧ t = { s with ports := t.ports } ∧
        (∀ m, m ≠ n → t.port m = s.port m)) ∧
    ((s.port n).idle < c.idle → exec (.captureIdleEnd n) s = .next s)) ∧
  (∀ (s : State) (ch n : Nat) (p : Bytes) (x : Session) (k : Ctx), Asks s ch 0x53 p x → leNat p = n → n < 4 → owns s ch n k →
    k.st = .running → (s.port n).st = .capturing →
    ((s.port n).page = none → (∀ r ∈ s.mbox.taken, r.opcode ≠ 0x53) →
      ∃ t, exec (.captureStop ch) s = .next t ∧ (t.port n).st = .armed ∧
        t = { replied s ch x.nextSeq 0x53 stOK [] with ports := t.ports, out := t.out }) ∧
    (∀ g, (s.port n).page = some g → exec (.captureStop ch) s = .next { deferred s ch x.nextSeq 0x53 p (s.port n).ctx with
      ports := tabPut s.ports n { s.port n with stopReq := some (ch, x.nextSeq) } })) ∧
  (∀ (s : State) (n l e z : Nat) (g : Page) (k : Ctx) (r : Request), s.portLive n = true → (s.port n).page = some g →
    g.trail = some (e, z) → z ≤ (s.port n).lastNo → g.capLine = none → (s.port n).ctx = some l → s.ctx? l = some k → k.st = .running →
    (s.port n).newCfg = none → s.mbox.taken = [r] → r.opcode = 0x53 → fld (leNat r.payload) 1 0 = n →
    (s.port n).stopReq = some (r.ch, r.seq) →
    ∃ t, exec (.pageEnd n) s = .next t ∧ (t.port n).st = .armed ∧ (t.port n).page = none ∧ t.mbox.taken = [] ∧
      ∃ m ∈ tabGet [] t.mbox.ready r.ch, m.reply = true ∧ m.seq = r.seq ∧ m.opcode = 0x53 ∧ m.status = stOK)
end

