-- ==== Sys2Proof/Laws/Mem.lean ====
section
/-! SUPPORT. Laws/Mem.lean: tables and memories: what a read gives after a write, and that every operation keeps the
canonical form. -/

namespace Sys2Proof.Machine

variable {α : Type}

/-! ### Order of keys -/

/-- Every key of `t` lies above `k`. -/
def Above (k : Nat) (t : Tab α) : Prop := ∀ p ∈ t, k < p.1

/-- A table is sorted when its first key lies below all others and the rest is sorted. -/
theorem tabSorted_cons (j : Nat) (w : α) (r : Tab α) : tabSorted ((j, w) :: r) = true ↔ Above j r ∧ tabSorted r = true := by
  induction r generalizing j w with
  | nil => simp [tabSorted, Above]
  | cons x r ih =>
    obtain ⟨k, v⟩ := x
    simp only [tabSorted, Bool.and_eq_true, decide_eq_true_eq]
    constructor
    · rintro ⟨h1, h2⟩
      refine ⟨fun p hp => ?_, h2⟩
      rcases List.mem_cons.mp hp with rfl | hp
      · exact h1
      · exact Nat.lt_trans h1 (((ih k v).mp h2).1 p hp)
    · rintro ⟨h1, h2⟩
      exact ⟨h1 (k, v) (List.mem_cons_self ..), h2⟩

theorem Above.tabPut {j k : Nat} {v : α} {t : Tab α} (h : Above j t) (hk : j < k) : Above j (tabPut t k v) := by
  induction t with
  | nil => intro p hp; simp [Machine.tabPut] at hp; subst hp; exact hk
  | cons x r ih =>
    obtain ⟨i, w⟩ := x
    have hi : j < i := h (i, w) (List.mem_cons_self ..)
    have hr : Above j r := fun p hp => h p (List.mem_cons_of_mem _ hp)
    unfold Machine.tabPut
    split
    · intro p hp
      rcases List.mem_cons.mp hp with rfl | hp
      · exact hk
      · exact h p hp
    · split
      · intro p hp
        rcases List.mem_cons.mp hp with rfl | hp
        · exact hk
        · exact hr p hp
      · intro p hp
        rcases List.mem_cons.mp hp with rfl | hp
        · exact hi
        · exact ih hr p hp

theorem tabSorted_tabPut {t : Tab α} (h : tabSorted t = true) (k : Nat) (v : α) : tabSorted (tabPut t k v) = true := by
  induction t with
  | nil => rfl
  | cons x r ih =>
    obtain ⟨j, w⟩ := x
    obtain ⟨h1, h2⟩ := (tabSorted_cons ..).mp h
    unfold tabPut
    split
    · rename_i hkj
      refine (tabSorted_cons ..).mpr ⟨fun p hp => ?_, h⟩
      rcases List.mem_cons.mp hp with rfl | hp
      · exact hkj
      · exact Nat.lt_trans hkj (h1 p hp)
    · split
      · rename_i hk
        subst hk
        exact (tabSorted_cons ..).mpr ⟨h1, h2⟩
      · exact (tabSorted_cons ..).mpr ⟨h1.tabPut (by omega), ih h2⟩

theorem tabSorted_filter {t : Tab α} (h : tabSorted t = true) (q : Nat × α → Bool) : tabSorted (t.filter q) = true := by
  induction t with
  | nil => rfl
  | cons x r ih =>
    obtain ⟨j, w⟩ := x
    obtain ⟨h1, h2⟩ := (tabSorted_cons ..).mp h
    rw [List.filter_cons]
    split
    · exact (tabSorted_cons ..).mpr ⟨fun p hp => h1 p ((List.mem_filter.mp hp).1), ih h2⟩
    · exact ih h2

/-! ### Reads after writes -/

theorem tabFind_above {t : Tab α} {k : Nat} (h : Above k t) : tabFind t k = none := by
  induction t with
  | nil => rfl
  | cons x r ih =>
    obtain ⟨j, w⟩ := x
    have hj : k < j := h (j, w) (List.mem_cons_self ..)
    unfold tabFind
    rw [if_neg (by omega)]
    exact ih (fun p hp => h p (List.mem_cons_of_mem _ hp))

@[simp] theorem tabFind_tabPut_same (t : Tab α) (k : Nat) (v : α) : tabFind (tabPut t k v) k = some v := by
  induction t with
  | nil => simp [tabPut, tabFind]
  | cons x r ih =>
    obtain ⟨j, w⟩ := x
    unfold tabPut
    split
    · simp [tabFind]
    · split
      · simp [tabFind]
      · unfold tabFind
        rw [if_neg (by omega)]
        exact ih

theorem tabFind_tabPut_other (t : Tab α) {k i : Nat} (v : α) (h : i ≠ k) : tabFind (tabPut t k v) i = tabFind t i := by
  induction t with
  | nil => simp [tabPut, tabFind, Ne.symm h]
  | cons x r ih =>
    obtain ⟨j, w⟩ := x
    unfold tabPut
    split
    · show (if k = i then _ else _) = _
      rw [if_neg (Ne.symm h)]
    · split
      · rename_i hk
        subst hk
        show (if k = i then _ else _) = (if k = i then _ else _)
        rw [if_neg (Ne.symm h), if_neg (Ne.symm h)]
      · show (if j = i then _ else _) = (if j = i then _ else _)
        split
        · rfl
        · exact ih

theorem mem_tabDel {t : Tab α} {k : Nat} {p : Nat × α} (h : p ∈ tabDel t k) : p ∈ t := (List.mem_filter.mp h).1

theorem tabSorted_tabDel {t : Tab α} (h : tabSorted t = true) (k : Nat) : tabSorted (tabDel t k) = true :=
  tabSorted_filter h _

theorem tabFind_tabDel_other (t : Tab α) {k i : Nat} (h : i ≠ k) : tabFind (tabDel t k) i = tabFind t i := by
  induction t with
  | nil => rfl
  | cons x r ih =>
    obtain ⟨j, w⟩ := x
    unfold tabDel at ih ⊢
    rw [List.filter_cons]
    by_cases hj : j = k
    · subst hj
      rw [if_neg (by simp), ih]
      show _ = (if j = i then _ else _)
      rw [if_neg (Ne.symm h)]
    · rw [if_pos (by simpa using hj)]
      show (if j = i then _ else _) = (if j = i then _ else _)
      rw [ih]

@[simp] theorem tabFind_tabDel_same (t : Tab α) (k : Nat) : tabFind (tabDel t k) k = none := by
  induction t with
  | nil => rfl
  | cons x r ih =>
    obtain ⟨j, w⟩ := x
    unfold tabDel at ih ⊢
    rw [List.filter_cons]
    by_cases hj : j = k
    · rw [if_neg (by simp [hj]), ih]
    · rw [if_pos (by simpa using hj)]
      show (if j = k then _ else _) = _
      rw [if_neg hj, ih]

theorem mem_tabPut {t : Tab α} {k : Nat} {v : α} {p : Nat × α} (h : p ∈ tabPut t k v) : p = (k, v) ∨ p ∈ t := by
  induction t with
  | nil => exact .inl (List.mem_singleton.mp h)
  | cons x r ih =>
    obtain ⟨j, w⟩ := x
    unfold tabPut at h
    split at h
    · rcases List.mem_cons.mp h with h | h
      · exact .inl h
      · exact .inr h
    · split at h
      · rcases List.mem_cons.mp h with h | h
        · exact .inl h
        · exact .inr (List.mem_cons_of_mem _ h)
      · rcases List.mem_cons.mp h with h | h
        · exact .inr (h ▸ List.mem_cons_self ..)
        · rcases ih h with h | h
          · exact .inl h
          · exact .inr (List.mem_cons_of_mem _ h)

variable [DecidableEq α]

@[simp] theorem tabGet_tabSet_same (d : α) (t : Tab α) (k : Nat) (v : α) : tabGet d (tabSet d t k v) k = v := by
  unfold tabSet tabGet
  split
  · rename_i h
    rw [tabFind_tabDel_same, h]
    rfl
  · rw [tabFind_tabPut_same]
    rfl

theorem tabGet_tabSet_other (d : α) (t : Tab α) {k i : Nat} (v : α) (h : i ≠ k) :
    tabGet d (tabSet d t k v) i = tabGet d t i := by
  unfold tabSet tabGet
  split
  · rw [tabFind_tabDel_other t h]
  · rw [tabFind_tabPut_other t v h]

/-- Setting a value keeps the canonical form. -/
theorem tabWf_tabSet {d : α} {t : Tab α} (h : tabWf d t = true) (k : Nat) (v : α) : tabWf d (tabSet d t k v) = true := by
  unfold tabWf at h ⊢
  simp only [Bool.and_eq_true, List.all_eq_true, decide_eq_true_eq] at h ⊢
  obtain ⟨h1, h2⟩ := h
  unfold tabSet
  split
  · exact ⟨tabSorted_tabDel h1 k, fun p hp => h2 p (mem_tabDel hp)⟩
  · rename_i hv
    refine ⟨tabSorted_tabPut h1 k v, fun p hp => ?_⟩
    rcases mem_tabPut hp with rfl | hp
    · exact hv
    · exact h2 p hp

/-! ### Memories -/

theorem memory_wf_tabWf (m : Mem) : Memory.wf m = tabWf memDefault m := by
  unfold Memory.wf tabWf
  congr 1
  refine List.all_congr rfl (fun p => ?_)
  simp [bne, BEq.beq]

/-- Writing a byte keeps the canonical form. -/
theorem memWrite_wf {m : Mem} (h : Memory.wf m = true) (a : Nat) (v : Byte) : Memory.wf (memWrite m a v) = true := by
  rw [memory_wf_tabWf] at h ⊢
  exact tabWf_tabSet h a v

/-- Writing a byte string keeps the canonical form. -/
theorem memPut_wf {m : Mem} (h : Memory.wf m = true) (a : Nat) (b : Bytes) : Memory.wf (memPut m a b) = true := by
  induction b generalizing m a with
  | nil => exact h
  | cons x r ih => exact ih (memWrite_wf h a x) (a + 1)

/-- Zeroing a range keeps the canonical form. -/
theorem memZero_wf {m : Mem} (h : Memory.wf m = true) (a n : Nat) : Memory.wf (memZero m a n) = true := by
  unfold Memory.wf at h ⊢
  simp only [Bool.and_eq_true, List.all_eq_true] at h ⊢
  exact ⟨tabSorted_filter h.1 _, fun p hp => h.2 p ((List.mem_filter.mp hp).1)⟩

@[simp] theorem memRead_memWrite_same (m : Mem) (a : Nat) (v : Byte) : memRead (memWrite m a v) a = v :=
  tabGet_tabSet_same memDefault m a v

theorem memRead_memWrite_other (m : Mem) {a i : Nat} (v : Byte) (h : i ≠ a) : memRead (memWrite m a v) i = memRead m i :=
  tabGet_tabSet_other memDefault m v h

/-- A byte outside a written string reads as before. -/
theorem memRead_memPut_other (m : Mem) (a : Nat) (b : Bytes) {i : Nat} (h : i < a ∨ a + b.length ≤ i) :
    memRead (memPut m a b) i = memRead m i := by
  induction b generalizing m a with
  | nil => rfl
  | cons x r ih =>
    have hl : (x :: r).length = r.length + 1 := rfl
    rw [memPut, ih _ _ (by omega), memRead_memWrite_other m x (by omega)]

/-- A written string reads back. -/
@[simp] theorem memBytes_memPut (m : Mem) (a : Nat) (b : Bytes) : memBytes (memPut m a b) a b.length = b := by
  induction b generalizing m a with
  | nil => rfl
  | cons x r ih =>
    show memRead (memPut (memWrite m a x) (a + 1) r) a :: memBytes (memPut (memWrite m a x) (a + 1) r) (a + 1) r.length = _
    rw [memRead_memPut_other _ _ _ (.inl (Nat.lt_succ_self a)), memRead_memWrite_same, ih]

end Sys2Proof.Machine
end

