-- ==== Sys2Proof/Laws/State.lean ====
section
/-! SUPPORT. Laws/State.lean: what each update of State leaves, field by field. -/

namespace Sys2Proof.Machine

@[simp] theorem State.setPending_pending (s : State) (v : List Instr) : (s.setPending v).pending = v := rfl
@[simp] theorem State.setPending_frame_aon (s : State) (v : List Instr) : (s.setPending v).aon = s.aon := rfl
@[simp] theorem State.setPending_frame_pwr (s : State) (v : List Instr) : (s.setPending v).pwr = s.pwr := rfl
@[simp] theorem State.setPending_frame_clk (s : State) (v : List Instr) : (s.setPending v).clk = s.clk := rfl
@[simp] theorem State.setPending_frame_fuse (s : State) (v : List Instr) : (s.setPending v).fuse = s.fuse := rfl
@[simp] theorem State.setPending_frame_boot (s : State) (v : List Instr) : (s.setPending v).boot = s.boot := rfl
@[simp] theorem State.setPending_frame_pci (s : State) (v : List Instr) : (s.setPending v).pci = s.pci := rfl
@[simp] theorem State.setPending_frame_mbox (s : State) (v : List Instr) : (s.setPending v).mbox = s.mbox := rfl
@[simp] theorem State.setPending_frame_hq (s : State) (v : List Instr) : (s.setPending v).hq = s.hq := rfl
@[simp] theorem State.setPending_frame_hostMem (s : State) (v : List Instr) : (s.setPending v).hostMem = s.hostMem := rfl
@[simp] theorem State.setPending_frame_ctxs (s : State) (v : List Instr) : (s.setPending v).ctxs = s.ctxs := rfl
@[simp] theorem State.setPending_frame_sched (s : State) (v : List Instr) : (s.setPending v).sched = s.sched := rfl
@[simp] theorem State.setPending_frame_fab (s : State) (v : List Instr) : (s.setPending v).fab = s.fab := rfl
@[simp] theorem State.setPending_frame_lp (s : State) (v : List Instr) : (s.setPending v).lp = s.lp := rfl
@[simp] theorem State.setPending_frame_err (s : State) (v : List Instr) : (s.setPending v).err = s.err := rfl
@[simp] theorem State.setPending_frame_ports (s : State) (v : List Instr) : (s.setPending v).ports = s.ports := rfl
@[simp] theorem State.setPending_frame_intake (s : State) (v : List Instr) : (s.setPending v).intake = s.intake := rfl
@[simp] theorem State.setPending_frame_text (s : State) (v : List Instr) : (s.setPending v).text = s.text := rfl
@[simp] theorem State.setPending_frame_sten (s : State) (v : List Instr) : (s.setPending v).sten = s.sten := rfl
@[simp] theorem State.setPending_frame_read (s : State) (v : List Instr) : (s.setPending v).read = s.read := rfl
@[simp] theorem State.setPending_frame_ring (s : State) (v : List Instr) : (s.setPending v).ring = s.ring := rfl
@[simp] theorem State.setPending_frame_pair (s : State) (v : List Instr) : (s.setPending v).pair = s.pair := rfl
@[simp] theorem State.setPending_frame_free (s : State) (v : List Instr) : (s.setPending v).free = s.free := rfl
@[simp] theorem State.setPending_frame_out (s : State) (v : List Instr) : (s.setPending v).out = s.out := rfl
@[simp] theorem State.setAon_aon (s : State) (v : Aon) : (s.setAon v).aon = v := rfl
@[simp] theorem State.setAon_frame_pending (s : State) (v : Aon) : (s.setAon v).pending = s.pending := rfl
@[simp] theorem State.setAon_frame_pwr (s : State) (v : Aon) : (s.setAon v).pwr = s.pwr := rfl
@[simp] theorem State.setAon_frame_clk (s : State) (v : Aon) : (s.setAon v).clk = s.clk := rfl
@[simp] theorem State.setAon_frame_fuse (s : State) (v : Aon) : (s.setAon v).fuse = s.fuse := rfl
@[simp] theorem State.setAon_frame_boot (s : State) (v : Aon) : (s.setAon v).boot = s.boot := rfl
@[simp] theorem State.setAon_frame_pci (s : State) (v : Aon) : (s.setAon v).pci = s.pci := rfl
@[simp] theorem State.setAon_frame_mbox (s : State) (v : Aon) : (s.setAon v).mbox = s.mbox := rfl
@[simp] theorem State.setAon_frame_hq (s : State) (v : Aon) : (s.setAon v).hq = s.hq := rfl
@[simp] theorem State.setAon_frame_hostMem (s : State) (v : Aon) : (s.setAon v).hostMem = s.hostMem := rfl
@[simp] theorem State.setAon_frame_ctxs (s : State) (v : Aon) : (s.setAon v).ctxs = s.ctxs := rfl
@[simp] theorem State.setAon_frame_sched (s : State) (v : Aon) : (s.setAon v).sched = s.sched := rfl
@[simp] theorem State.setAon_frame_fab (s : State) (v : Aon) : (s.setAon v).fab = s.fab := rfl
@[simp] theorem State.setAon_frame_lp (s : State) (v : Aon) : (s.setAon v).lp = s.lp := rfl
@[simp] theorem State.setAon_frame_err (s : State) (v : Aon) : (s.setAon v).err = s.err := rfl
@[simp] theorem State.setAon_frame_ports (s : State) (v : Aon) : (s.setAon v).ports = s.ports := rfl
@[simp] theorem State.setAon_frame_intake (s : State) (v : Aon) : (s.setAon v).intake = s.intake := rfl
@[simp] theorem State.setAon_frame_text (s : State) (v : Aon) : (s.setAon v).text = s.text := rfl
@[simp] theorem State.setAon_frame_sten (s : State) (v : Aon) : (s.setAon v).sten = s.sten := rfl
@[simp] theorem State.setAon_frame_read (s : State) (v : Aon) : (s.setAon v).read = s.read := rfl
@[simp] theorem State.setAon_frame_ring (s : State) (v : Aon) : (s.setAon v).ring = s.ring := rfl
@[simp] theorem State.setAon_frame_pair (s : State) (v : Aon) : (s.setAon v).pair = s.pair := rfl
@[simp] theorem State.setAon_frame_free (s : State) (v : Aon) : (s.setAon v).free = s.free := rfl
@[simp] theorem State.setAon_frame_out (s : State) (v : Aon) : (s.setAon v).out = s.out := rfl
@[simp] theorem State.setPwr_pwr (s : State) (v : Power) : (s.setPwr v).pwr = v := rfl
@[simp] theorem State.setPwr_frame_pending (s : State) (v : Power) : (s.setPwr v).pending = s.pending := rfl
@[simp] theorem State.setPwr_frame_aon (s : State) (v : Power) : (s.setPwr v).aon = s.aon := rfl
@[simp] theorem State.setPwr_frame_clk (s : State) (v : Power) : (s.setPwr v).clk = s.clk := rfl
@[simp] theorem State.setPwr_frame_fuse (s : State) (v : Power) : (s.setPwr v).fuse = s.fuse := rfl
@[simp] theorem State.setPwr_frame_boot (s : State) (v : Power) : (s.setPwr v).boot = s.boot := rfl
@[simp] theorem State.setPwr_frame_pci (s : State) (v : Power) : (s.setPwr v).pci = s.pci := rfl
@[simp] theorem State.setPwr_frame_mbox (s : State) (v : Power) : (s.setPwr v).mbox = s.mbox := rfl
@[simp] theorem State.setPwr_frame_hq (s : State) (v : Power) : (s.setPwr v).hq = s.hq := rfl
@[simp] theorem State.setPwr_frame_hostMem (s : State) (v : Power) : (s.setPwr v).hostMem = s.hostMem := rfl
@[simp] theorem State.setPwr_frame_ctxs (s : State) (v : Power) : (s.setPwr v).ctxs = s.ctxs := rfl
@[simp] theorem State.setPwr_frame_sched (s : State) (v : Power) : (s.setPwr v).sched = s.sched := rfl
@[simp] theorem State.setPwr_frame_fab (s : State) (v : Power) : (s.setPwr v).fab = s.fab := rfl
@[simp] theorem State.setPwr_frame_lp (s : State) (v : Power) : (s.setPwr v).lp = s.lp := rfl
@[simp] theorem State.setPwr_frame_err (s : State) (v : Power) : (s.setPwr v).err = s.err := rfl
@[simp] theorem State.setPwr_frame_ports (s : State) (v : Power) : (s.setPwr v).ports = s.ports := rfl
@[simp] theorem State.setPwr_frame_intake (s : State) (v : Power) : (s.setPwr v).intake = s.intake := rfl
@[simp] theorem State.setPwr_frame_text (s : State) (v : Power) : (s.setPwr v).text = s.text := rfl
@[simp] theorem State.setPwr_frame_sten (s : State) (v : Power) : (s.setPwr v).sten = s.sten := rfl
@[simp] theorem State.setPwr_frame_read (s : State) (v : Power) : (s.setPwr v).read = s.read := rfl
@[simp] theorem State.setPwr_frame_ring (s : State) (v : Power) : (s.setPwr v).ring = s.ring := rfl
@[simp] theorem State.setPwr_frame_pair (s : State) (v : Power) : (s.setPwr v).pair = s.pair := rfl
@[simp] theorem State.setPwr_frame_free (s : State) (v : Power) : (s.setPwr v).free = s.free := rfl
@[simp] theorem State.setPwr_frame_out (s : State) (v : Power) : (s.setPwr v).out = s.out := rfl
@[simp] theorem State.setClk_clk (s : State) (v : Clock) : (s.setClk v).clk = v := rfl
@[simp] theorem State.setClk_frame_pending (s : State) (v : Clock) : (s.setClk v).pending = s.pending := rfl
@[simp] theorem State.setClk_frame_aon (s : State) (v : Clock) : (s.setClk v).aon = s.aon := rfl
@[simp] theorem State.setClk_frame_pwr (s : State) (v : Clock) : (s.setClk v).pwr = s.pwr := rfl
@[simp] theorem State.setClk_frame_fuse (s : State) (v : Clock) : (s.setClk v).fuse = s.fuse := rfl
@[simp] theorem State.setClk_frame_boot (s : State) (v : Clock) : (s.setClk v).boot = s.boot := rfl
@[simp] theorem State.setClk_frame_pci (s : State) (v : Clock) : (s.setClk v).pci = s.pci := rfl
@[simp] theorem State.setClk_frame_mbox (s : State) (v : Clock) : (s.setClk v).mbox = s.mbox := rfl
@[simp] theorem State.setClk_frame_hq (s : State) (v : Clock) : (s.setClk v).hq = s.hq := rfl
@[simp] theorem State.setClk_frame_hostMem (s : State) (v : Clock) : (s.setClk v).hostMem = s.hostMem := rfl
@[simp] theorem State.setClk_frame_ctxs (s : State) (v : Clock) : (s.setClk v).ctxs = s.ctxs := rfl
@[simp] theorem State.setClk_frame_sched (s : State) (v : Clock) : (s.setClk v).sched = s.sched := rfl
@[simp] theorem State.setClk_frame_fab (s : State) (v : Clock) : (s.setClk v).fab = s.fab := rfl
@[simp] theorem State.setClk_frame_lp (s : State) (v : Clock) : (s.setClk v).lp = s.lp := rfl
@[simp] theorem State.setClk_frame_err (s : State) (v : Clock) : (s.setClk v).err = s.err := rfl
@[simp] theorem State.setClk_frame_ports (s : State) (v : Clock) : (s.setClk v).ports = s.ports := rfl
@[simp] theorem State.setClk_frame_intake (s : State) (v : Clock) : (s.setClk v).intake = s.intake := rfl
@[simp] theorem State.setClk_frame_text (s : State) (v : Clock) : (s.setClk v).text = s.text := rfl
@[simp] theorem State.setClk_frame_sten (s : State) (v : Clock) : (s.setClk v).sten = s.sten := rfl
@[simp] theorem State.setClk_frame_read (s : State) (v : Clock) : (s.setClk v).read = s.read := rfl
@[simp] theorem State.setClk_frame_ring (s : State) (v : Clock) : (s.setClk v).ring = s.ring := rfl
@[simp] theorem State.setClk_frame_pair (s : State) (v : Clock) : (s.setClk v).pair = s.pair := rfl
@[simp] theorem State.setClk_frame_free (s : State) (v : Clock) : (s.setClk v).free = s.free := rfl
@[simp] theorem State.setClk_frame_out (s : State) (v : Clock) : (s.setClk v).out = s.out := rfl
@[simp] theorem State.setFuse_fuse (s : State) (v : Fuses) : (s.setFuse v).fuse = v := rfl
@[simp] theorem State.setFuse_frame_pending (s : State) (v : Fuses) : (s.setFuse v).pending = s.pending := rfl
@[simp] theorem State.setFuse_frame_aon (s : State) (v : Fuses) : (s.setFuse v).aon = s.aon := rfl
@[simp] theorem State.setFuse_frame_pwr (s : State) (v : Fuses) : (s.setFuse v).pwr = s.pwr := rfl
@[simp] theorem State.setFuse_frame_clk (s : State) (v : Fuses) : (s.setFuse v).clk = s.clk := rfl
@[simp] theorem State.setFuse_frame_boot (s : State) (v : Fuses) : (s.setFuse v).boot = s.boot := rfl
@[simp] theorem State.setFuse_frame_pci (s : State) (v : Fuses) : (s.setFuse v).pci = s.pci := rfl
@[simp] theorem State.setFuse_frame_mbox (s : State) (v : Fuses) : (s.setFuse v).mbox = s.mbox := rfl
@[simp] theorem State.setFuse_frame_hq (s : State) (v : Fuses) : (s.setFuse v).hq = s.hq := rfl
@[simp] theorem State.setFuse_frame_hostMem (s : State) (v : Fuses) : (s.setFuse v).hostMem = s.hostMem := rfl
@[simp] theorem State.setFuse_frame_ctxs (s : State) (v : Fuses) : (s.setFuse v).ctxs = s.ctxs := rfl
@[simp] theorem State.setFuse_frame_sched (s : State) (v : Fuses) : (s.setFuse v).sched = s.sched := rfl
@[simp] theorem State.setFuse_frame_fab (s : State) (v : Fuses) : (s.setFuse v).fab = s.fab := rfl
@[simp] theorem State.setFuse_frame_lp (s : State) (v : Fuses) : (s.setFuse v).lp = s.lp := rfl
@[simp] theorem State.setFuse_frame_err (s : State) (v : Fuses) : (s.setFuse v).err = s.err := rfl
@[simp] theorem State.setFuse_frame_ports (s : State) (v : Fuses) : (s.setFuse v).ports = s.ports := rfl
@[simp] theorem State.setFuse_frame_intake (s : State) (v : Fuses) : (s.setFuse v).intake = s.intake := rfl
@[simp] theorem State.setFuse_frame_text (s : State) (v : Fuses) : (s.setFuse v).text = s.text := rfl
@[simp] theorem State.setFuse_frame_sten (s : State) (v : Fuses) : (s.setFuse v).sten = s.sten := rfl
@[simp] theorem State.setFuse_frame_read (s : State) (v : Fuses) : (s.setFuse v).read = s.read := rfl
@[simp] theorem State.setFuse_frame_ring (s : State) (v : Fuses) : (s.setFuse v).ring = s.ring := rfl
@[simp] theorem State.setFuse_frame_pair (s : State) (v : Fuses) : (s.setFuse v).pair = s.pair := rfl
@[simp] theorem State.setFuse_frame_free (s : State) (v : Fuses) : (s.setFuse v).free = s.free := rfl
@[simp] theorem State.setFuse_frame_out (s : State) (v : Fuses) : (s.setFuse v).out = s.out := rfl
@[simp] theorem State.setBoot_boot (s : State) (v : Boot) : (s.setBoot v).boot = v := rfl
@[simp] theorem State.setBoot_frame_pending (s : State) (v : Boot) : (s.setBoot v).pending = s.pending := rfl
@[simp] theorem State.setBoot_frame_aon (s : State) (v : Boot) : (s.setBoot v).aon = s.aon := rfl
@[simp] theorem State.setBoot_frame_pwr (s : State) (v : Boot) : (s.setBoot v).pwr = s.pwr := rfl
@[simp] theorem State.setBoot_frame_clk (s : State) (v : Boot) : (s.setBoot v).clk = s.clk := rfl
@[simp] theorem State.setBoot_frame_fuse (s : State) (v : Boot) : (s.setBoot v).fuse = s.fuse := rfl
@[simp] theorem State.setBoot_frame_pci (s : State) (v : Boot) : (s.setBoot v).pci = s.pci := rfl
@[simp] theorem State.setBoot_frame_mbox (s : State) (v : Boot) : (s.setBoot v).mbox = s.mbox := rfl
@[simp] theorem State.setBoot_frame_hq (s : State) (v : Boot) : (s.setBoot v).hq = s.hq := rfl
@[simp] theorem State.setBoot_frame_hostMem (s : State) (v : Boot) : (s.setBoot v).hostMem = s.hostMem := rfl
@[simp] theorem State.setBoot_frame_ctxs (s : State) (v : Boot) : (s.setBoot v).ctxs = s.ctxs := rfl
@[simp] theorem State.setBoot_frame_sched (s : State) (v : Boot) : (s.setBoot v).sched = s.sched := rfl
@[simp] theorem State.setBoot_frame_fab (s : State) (v : Boot) : (s.setBoot v).fab = s.fab := rfl
@[simp] theorem State.setBoot_frame_lp (s : State) (v : Boot) : (s.setBoot v).lp = s.lp := rfl
@[simp] theorem State.setBoot_frame_err (s : State) (v : Boot) : (s.setBoot v).err = s.err := rfl
@[simp] theorem State.setBoot_frame_ports (s : State) (v : Boot) : (s.setBoot v).ports = s.ports := rfl
@[simp] theorem State.setBoot_frame_intake (s : State) (v : Boot) : (s.setBoot v).intake = s.intake := rfl
@[simp] theorem State.setBoot_frame_text (s : State) (v : Boot) : (s.setBoot v).text = s.text := rfl
@[simp] theorem State.setBoot_frame_sten (s : State) (v : Boot) : (s.setBoot v).sten = s.sten := rfl
@[simp] theorem State.setBoot_frame_read (s : State) (v : Boot) : (s.setBoot v).read = s.read := rfl
@[simp] theorem State.setBoot_frame_ring (s : State) (v : Boot) : (s.setBoot v).ring = s.ring := rfl
@[simp] theorem State.setBoot_frame_pair (s : State) (v : Boot) : (s.setBoot v).pair = s.pair := rfl
@[simp] theorem State.setBoot_frame_free (s : State) (v : Boot) : (s.setBoot v).free = s.free := rfl
@[simp] theorem State.setBoot_frame_out (s : State) (v : Boot) : (s.setBoot v).out = s.out := rfl
@[simp] theorem State.setPci_pci (s : State) (v : Pci) : (s.setPci v).pci = v := rfl
@[simp] theorem State.setPci_frame_pending (s : State) (v : Pci) : (s.setPci v).pending = s.pending := rfl
@[simp] theorem State.setPci_frame_aon (s : State) (v : Pci) : (s.setPci v).aon = s.aon := rfl
@[simp] theorem State.setPci_frame_pwr (s : State) (v : Pci) : (s.setPci v).pwr = s.pwr := rfl
@[simp] theorem State.setPci_frame_clk (s : State) (v : Pci) : (s.setPci v).clk = s.clk := rfl
@[simp] theorem State.setPci_frame_fuse (s : State) (v : Pci) : (s.setPci v).fuse = s.fuse := rfl
@[simp] theorem State.setPci_frame_boot (s : State) (v : Pci) : (s.setPci v).boot = s.boot := rfl
@[simp] theorem State.setPci_frame_mbox (s : State) (v : Pci) : (s.setPci v).mbox = s.mbox := rfl
@[simp] theorem State.setPci_frame_hq (s : State) (v : Pci) : (s.setPci v).hq = s.hq := rfl
@[simp] theorem State.setPci_frame_hostMem (s : State) (v : Pci) : (s.setPci v).hostMem = s.hostMem := rfl
@[simp] theorem State.setPci_frame_ctxs (s : State) (v : Pci) : (s.setPci v).ctxs = s.ctxs := rfl
@[simp] theorem State.setPci_frame_sched (s : State) (v : Pci) : (s.setPci v).sched = s.sched := rfl
@[simp] theorem State.setPci_frame_fab (s : State) (v : Pci) : (s.setPci v).fab = s.fab := rfl
@[simp] theorem State.setPci_frame_lp (s : State) (v : Pci) : (s.setPci v).lp = s.lp := rfl
@[simp] theorem State.setPci_frame_err (s : State) (v : Pci) : (s.setPci v).err = s.err := rfl
@[simp] theorem State.setPci_frame_ports (s : State) (v : Pci) : (s.setPci v).ports = s.ports := rfl
@[simp] theorem State.setPci_frame_intake (s : State) (v : Pci) : (s.setPci v).intake = s.intake := rfl
@[simp] theorem State.setPci_frame_text (s : State) (v : Pci) : (s.setPci v).text = s.text := rfl
@[simp] theorem State.setPci_frame_sten (s : State) (v : Pci) : (s.setPci v).sten = s.sten := rfl
@[simp] theorem State.setPci_frame_read (s : State) (v : Pci) : (s.setPci v).read = s.read := rfl
@[simp] theorem State.setPci_frame_ring (s : State) (v : Pci) : (s.setPci v).ring = s.ring := rfl
@[simp] theorem State.setPci_frame_pair (s : State) (v : Pci) : (s.setPci v).pair = s.pair := rfl
@[simp] theorem State.setPci_frame_free (s : State) (v : Pci) : (s.setPci v).free = s.free := rfl
@[simp] theorem State.setPci_frame_out (s : State) (v : Pci) : (s.setPci v).out = s.out := rfl
@[simp] theorem State.setMbox_mbox (s : State) (v : Mbox) : (s.setMbox v).mbox = v := rfl
@[simp] theorem State.setMbox_frame_pending (s : State) (v : Mbox) : (s.setMbox v).pending = s.pending := rfl
@[simp] theorem State.setMbox_frame_aon (s : State) (v : Mbox) : (s.setMbox v).aon = s.aon := rfl
@[simp] theorem State.setMbox_frame_pwr (s : State) (v : Mbox) : (s.setMbox v).pwr = s.pwr := rfl
@[simp] theorem State.setMbox_frame_clk (s : State) (v : Mbox) : (s.setMbox v).clk = s.clk := rfl
@[simp] theorem State.setMbox_frame_fuse (s : State) (v : Mbox) : (s.setMbox v).fuse = s.fuse := rfl
@[simp] theorem State.setMbox_frame_boot (s : State) (v : Mbox) : (s.setMbox v).boot = s.boot := rfl
@[simp] theorem State.setMbox_frame_pci (s : State) (v : Mbox) : (s.setMbox v).pci = s.pci := rfl
@[simp] theorem State.setMbox_frame_hq (s : State) (v : Mbox) : (s.setMbox v).hq = s.hq := rfl
@[simp] theorem State.setMbox_frame_hostMem (s : State) (v : Mbox) : (s.setMbox v).hostMem = s.hostMem := rfl
@[simp] theorem State.setMbox_frame_ctxs (s : State) (v : Mbox) : (s.setMbox v).ctxs = s.ctxs := rfl
@[simp] theorem State.setMbox_frame_sched (s : State) (v : Mbox) : (s.setMbox v).sched = s.sched := rfl
@[simp] theorem State.setMbox_frame_fab (s : State) (v : Mbox) : (s.setMbox v).fab = s.fab := rfl
@[simp] theorem State.setMbox_frame_lp (s : State) (v : Mbox) : (s.setMbox v).lp = s.lp := rfl
@[simp] theorem State.setMbox_frame_err (s : State) (v : Mbox) : (s.setMbox v).err = s.err := rfl
@[simp] theorem State.setMbox_frame_ports (s : State) (v : Mbox) : (s.setMbox v).ports = s.ports := rfl
@[simp] theorem State.setMbox_frame_intake (s : State) (v : Mbox) : (s.setMbox v).intake = s.intake := rfl
@[simp] theorem State.setMbox_frame_text (s : State) (v : Mbox) : (s.setMbox v).text = s.text := rfl
@[simp] theorem State.setMbox_frame_sten (s : State) (v : Mbox) : (s.setMbox v).sten = s.sten := rfl
@[simp] theorem State.setMbox_frame_read (s : State) (v : Mbox) : (s.setMbox v).read = s.read := rfl
@[simp] theorem State.setMbox_frame_ring (s : State) (v : Mbox) : (s.setMbox v).ring = s.ring := rfl
@[simp] theorem State.setMbox_frame_pair (s : State) (v : Mbox) : (s.setMbox v).pair = s.pair := rfl
@[simp] theorem State.setMbox_frame_free (s : State) (v : Mbox) : (s.setMbox v).free = s.free := rfl
@[simp] theorem State.setMbox_frame_out (s : State) (v : Mbox) : (s.setMbox v).out = s.out := rfl
@[simp] theorem State.setHq_hq (s : State) (v : Tab HwQueue) : (s.setHq v).hq = v := rfl
@[simp] theorem State.setHq_frame_pending (s : State) (v : Tab HwQueue) : (s.setHq v).pending = s.pending := rfl
@[simp] theorem State.setHq_frame_aon (s : State) (v : Tab HwQueue) : (s.setHq v).aon = s.aon := rfl
@[simp] theorem State.setHq_frame_pwr (s : State) (v : Tab HwQueue) : (s.setHq v).pwr = s.pwr := rfl
@[simp] theorem State.setHq_frame_clk (s : State) (v : Tab HwQueue) : (s.setHq v).clk = s.clk := rfl
@[simp] theorem State.setHq_frame_fuse (s : State) (v : Tab HwQueue) : (s.setHq v).fuse = s.fuse := rfl
@[simp] theorem State.setHq_frame_boot (s : State) (v : Tab HwQueue) : (s.setHq v).boot = s.boot := rfl
@[simp] theorem State.setHq_frame_pci (s : State) (v : Tab HwQueue) : (s.setHq v).pci = s.pci := rfl
@[simp] theorem State.setHq_frame_mbox (s : State) (v : Tab HwQueue) : (s.setHq v).mbox = s.mbox := rfl
@[simp] theorem State.setHq_frame_hostMem (s : State) (v : Tab HwQueue) : (s.setHq v).hostMem = s.hostMem := rfl
@[simp] theorem State.setHq_frame_ctxs (s : State) (v : Tab HwQueue) : (s.setHq v).ctxs = s.ctxs := rfl
@[simp] theorem State.setHq_frame_sched (s : State) (v : Tab HwQueue) : (s.setHq v).sched = s.sched := rfl
@[simp] theorem State.setHq_frame_fab (s : State) (v : Tab HwQueue) : (s.setHq v).fab = s.fab := rfl
@[simp] theorem State.setHq_frame_lp (s : State) (v : Tab HwQueue) : (s.setHq v).lp = s.lp := rfl
@[simp] theorem State.setHq_frame_err (s : State) (v : Tab HwQueue) : (s.setHq v).err = s.err := rfl
@[simp] theorem State.setHq_frame_ports (s : State) (v : Tab HwQueue) : (s.setHq v).ports = s.ports := rfl
@[simp] theorem State.setHq_frame_intake (s : State) (v : Tab HwQueue) : (s.setHq v).intake = s.intake := rfl
@[simp] theorem State.setHq_frame_text (s : State) (v : Tab HwQueue) : (s.setHq v).text = s.text := rfl
@[simp] theorem State.setHq_frame_sten (s : State) (v : Tab HwQueue) : (s.setHq v).sten = s.sten := rfl
@[simp] theorem State.setHq_frame_read (s : State) (v : Tab HwQueue) : (s.setHq v).read = s.read := rfl
@[simp] theorem State.setHq_frame_ring (s : State) (v : Tab HwQueue) : (s.setHq v).ring = s.ring := rfl
@[simp] theorem State.setHq_frame_pair (s : State) (v : Tab HwQueue) : (s.setHq v).pair = s.pair := rfl
@[simp] theorem State.setHq_frame_free (s : State) (v : Tab HwQueue) : (s.setHq v).free = s.free := rfl
@[simp] theorem State.setHq_frame_out (s : State) (v : Tab HwQueue) : (s.setHq v).out = s.out := rfl
@[simp] theorem State.setHostMem_hostMem (s : State) (v : Mem) : (s.setHostMem v).hostMem = v := rfl
@[simp] theorem State.setHostMem_frame_pending (s : State) (v : Mem) : (s.setHostMem v).pending = s.pending := rfl
@[simp] theorem State.setHostMem_frame_aon (s : State) (v : Mem) : (s.setHostMem v).aon = s.aon := rfl
@[simp] theorem State.setHostMem_frame_pwr (s : State) (v : Mem) : (s.setHostMem v).pwr = s.pwr := rfl
@[simp] theorem State.setHostMem_frame_clk (s : State) (v : Mem) : (s.setHostMem v).clk = s.clk := rfl
@[simp] theorem State.setHostMem_frame_fuse (s : State) (v : Mem) : (s.setHostMem v).fuse = s.fuse := rfl
@[simp] theorem State.setHostMem_frame_boot (s : State) (v : Mem) : (s.setHostMem v).boot = s.boot := rfl
@[simp] theorem State.setHostMem_frame_pci (s : State) (v : Mem) : (s.setHostMem v).pci = s.pci := rfl
@[simp] theorem State.setHostMem_frame_mbox (s : State) (v : Mem) : (s.setHostMem v).mbox = s.mbox := rfl
@[simp] theorem State.setHostMem_frame_hq (s : State) (v : Mem) : (s.setHostMem v).hq = s.hq := rfl
@[simp] theorem State.setHostMem_frame_ctxs (s : State) (v : Mem) : (s.setHostMem v).ctxs = s.ctxs := rfl
@[simp] theorem State.setHostMem_frame_sched (s : State) (v : Mem) : (s.setHostMem v).sched = s.sched := rfl
@[simp] theorem State.setHostMem_frame_fab (s : State) (v : Mem) : (s.setHostMem v).fab = s.fab := rfl
@[simp] theorem State.setHostMem_frame_lp (s : State) (v : Mem) : (s.setHostMem v).lp = s.lp := rfl
@[simp] theorem State.setHostMem_frame_err (s : State) (v : Mem) : (s.setHostMem v).err = s.err := rfl
@[simp] theorem State.setHostMem_frame_ports (s : State) (v : Mem) : (s.setHostMem v).ports = s.ports := rfl
@[simp] theorem State.setHostMem_frame_intake (s : State) (v : Mem) : (s.setHostMem v).intake = s.intake := rfl
@[simp] theorem State.setHostMem_frame_text (s : State) (v : Mem) : (s.setHostMem v).text = s.text := rfl
@[simp] theorem State.setHostMem_frame_sten (s : State) (v : Mem) : (s.setHostMem v).sten = s.sten := rfl
@[simp] theorem State.setHostMem_frame_read (s : State) (v : Mem) : (s.setHostMem v).read = s.read := rfl
@[simp] theorem State.setHostMem_frame_ring (s : State) (v : Mem) : (s.setHostMem v).ring = s.ring := rfl
@[simp] theorem State.setHostMem_frame_pair (s : State) (v : Mem) : (s.setHostMem v).pair = s.pair := rfl
@[simp] theorem State.setHostMem_frame_free (s : State) (v : Mem) : (s.setHostMem v).free = s.free := rfl
@[simp] theorem State.setHostMem_frame_out (s : State) (v : Mem) : (s.setHostMem v).out = s.out := rfl
@[simp] theorem State.setCtxs_ctxs (s : State) (v : Tab Ctx) : (s.setCtxs v).ctxs = v := rfl
@[simp] theorem State.setCtxs_frame_pending (s : State) (v : Tab Ctx) : (s.setCtxs v).pending = s.pending := rfl
@[simp] theorem State.setCtxs_frame_aon (s : State) (v : Tab Ctx) : (s.setCtxs v).aon = s.aon := rfl
@[simp] theorem State.setCtxs_frame_pwr (s : State) (v : Tab Ctx) : (s.setCtxs v).pwr = s.pwr := rfl
@[simp] theorem State.setCtxs_frame_clk (s : State) (v : Tab Ctx) : (s.setCtxs v).clk = s.clk := rfl
@[simp] theorem State.setCtxs_frame_fuse (s : State) (v : Tab Ctx) : (s.setCtxs v).fuse = s.fuse := rfl
@[simp] theorem State.setCtxs_frame_boot (s : State) (v : Tab Ctx) : (s.setCtxs v).boot = s.boot := rfl
@[simp] theorem State.setCtxs_frame_pci (s : State) (v : Tab Ctx) : (s.setCtxs v).pci = s.pci := rfl
@[simp] theorem State.setCtxs_frame_mbox (s : State) (v : Tab Ctx) : (s.setCtxs v).mbox = s.mbox := rfl
@[simp] theorem State.setCtxs_frame_hq (s : State) (v : Tab Ctx) : (s.setCtxs v).hq = s.hq := rfl
@[simp] theorem State.setCtxs_frame_hostMem (s : State) (v : Tab Ctx) : (s.setCtxs v).hostMem = s.hostMem := rfl
@[simp] theorem State.setCtxs_frame_sched (s : State) (v : Tab Ctx) : (s.setCtxs v).sched = s.sched := rfl
@[simp] theorem State.setCtxs_frame_fab (s : State) (v : Tab Ctx) : (s.setCtxs v).fab = s.fab := rfl
@[simp] theorem State.setCtxs_frame_lp (s : State) (v : Tab Ctx) : (s.setCtxs v).lp = s.lp := rfl
@[simp] theorem State.setCtxs_frame_err (s : State) (v : Tab Ctx) : (s.setCtxs v).err = s.err := rfl
@[simp] theorem State.setCtxs_frame_ports (s : State) (v : Tab Ctx) : (s.setCtxs v).ports = s.ports := rfl
@[simp] theorem State.setCtxs_frame_intake (s : State) (v : Tab Ctx) : (s.setCtxs v).intake = s.intake := rfl
@[simp] theorem State.setCtxs_frame_text (s : State) (v : Tab Ctx) : (s.setCtxs v).text = s.text := rfl
@[simp] theorem State.setCtxs_frame_sten (s : State) (v : Tab Ctx) : (s.setCtxs v).sten = s.sten := rfl
@[simp] theorem State.setCtxs_frame_read (s : State) (v : Tab Ctx) : (s.setCtxs v).read = s.read := rfl
@[simp] theorem State.setCtxs_frame_ring (s : State) (v : Tab Ctx) : (s.setCtxs v).ring = s.ring := rfl
@[simp] theorem State.setCtxs_frame_pair (s : State) (v : Tab Ctx) : (s.setCtxs v).pair = s.pair := rfl
@[simp] theorem State.setCtxs_frame_free (s : State) (v : Tab Ctx) : (s.setCtxs v).free = s.free := rfl
@[simp] theorem State.setCtxs_frame_out (s : State) (v : Tab Ctx) : (s.setCtxs v).out = s.out := rfl
@[simp] theorem State.setSched_sched (s : State) (v : Sched) : (s.setSched v).sched = v := rfl
@[simp] theorem State.setSched_frame_pending (s : State) (v : Sched) : (s.setSched v).pending = s.pending := rfl
@[simp] theorem State.setSched_frame_aon (s : State) (v : Sched) : (s.setSched v).aon = s.aon := rfl
@[simp] theorem State.setSched_frame_pwr (s : State) (v : Sched) : (s.setSched v).pwr = s.pwr := rfl
@[simp] theorem State.setSched_frame_clk (s : State) (v : Sched) : (s.setSched v).clk = s.clk := rfl
@[simp] theorem State.setSched_frame_fuse (s : State) (v : Sched) : (s.setSched v).fuse = s.fuse := rfl
@[simp] theorem State.setSched_frame_boot (s : State) (v : Sched) : (s.setSched v).boot = s.boot := rfl
@[simp] theorem State.setSched_frame_pci (s : State) (v : Sched) : (s.setSched v).pci = s.pci := rfl
@[simp] theorem State.setSched_frame_mbox (s : State) (v : Sched) : (s.setSched v).mbox = s.mbox := rfl
@[simp] theorem State.setSched_frame_hq (s : State) (v : Sched) : (s.setSched v).hq = s.hq := rfl
@[simp] theorem State.setSched_frame_hostMem (s : State) (v : Sched) : (s.setSched v).hostMem = s.hostMem := rfl
@[simp] theorem State.setSched_frame_ctxs (s : State) (v : Sched) : (s.setSched v).ctxs = s.ctxs := rfl
@[simp] theorem State.setSched_frame_fab (s : State) (v : Sched) : (s.setSched v).fab = s.fab := rfl
@[simp] theorem State.setSched_frame_lp (s : State) (v : Sched) : (s.setSched v).lp = s.lp := rfl
@[simp] theorem State.setSched_frame_err (s : State) (v : Sched) : (s.setSched v).err = s.err := rfl
@[simp] theorem State.setSched_frame_ports (s : State) (v : Sched) : (s.setSched v).ports = s.ports := rfl
@[simp] theorem State.setSched_frame_intake (s : State) (v : Sched) : (s.setSched v).intake = s.intake := rfl
@[simp] theorem State.setSched_frame_text (s : State) (v : Sched) : (s.setSched v).text = s.text := rfl
@[simp] theorem State.setSched_frame_sten (s : State) (v : Sched) : (s.setSched v).sten = s.sten := rfl
@[simp] theorem State.setSched_frame_read (s : State) (v : Sched) : (s.setSched v).read = s.read := rfl
@[simp] theorem State.setSched_frame_ring (s : State) (v : Sched) : (s.setSched v).ring = s.ring := rfl
@[simp] theorem State.setSched_frame_pair (s : State) (v : Sched) : (s.setSched v).pair = s.pair := rfl
@[simp] theorem State.setSched_frame_free (s : State) (v : Sched) : (s.setSched v).free = s.free := rfl
@[simp] theorem State.setSched_frame_out (s : State) (v : Sched) : (s.setSched v).out = s.out := rfl
@[simp] theorem State.setFab_fab (s : State) (v : Fabric) : (s.setFab v).fab = v := rfl
@[simp] theorem State.setFab_frame_pending (s : State) (v : Fabric) : (s.setFab v).pending = s.pending := rfl
@[simp] theorem State.setFab_frame_aon (s : State) (v : Fabric) : (s.setFab v).aon = s.aon := rfl
@[simp] theorem State.setFab_frame_pwr (s : State) (v : Fabric) : (s.setFab v).pwr = s.pwr := rfl
@[simp] theorem State.setFab_frame_clk (s : State) (v : Fabric) : (s.setFab v).clk = s.clk := rfl
@[simp] theorem State.setFab_frame_fuse (s : State) (v : Fabric) : (s.setFab v).fuse = s.fuse := rfl
@[simp] theorem State.setFab_frame_boot (s : State) (v : Fabric) : (s.setFab v).boot = s.boot := rfl
@[simp] theorem State.setFab_frame_pci (s : State) (v : Fabric) : (s.setFab v).pci = s.pci := rfl
@[simp] theorem State.setFab_frame_mbox (s : State) (v : Fabric) : (s.setFab v).mbox = s.mbox := rfl
@[simp] theorem State.setFab_frame_hq (s : State) (v : Fabric) : (s.setFab v).hq = s.hq := rfl
@[simp] theorem State.setFab_frame_hostMem (s : State) (v : Fabric) : (s.setFab v).hostMem = s.hostMem := rfl
@[simp] theorem State.setFab_frame_ctxs (s : State) (v : Fabric) : (s.setFab v).ctxs = s.ctxs := rfl
@[simp] theorem State.setFab_frame_sched (s : State) (v : Fabric) : (s.setFab v).sched = s.sched := rfl
@[simp] theorem State.setFab_frame_lp (s : State) (v : Fabric) : (s.setFab v).lp = s.lp := rfl
@[simp] theorem State.setFab_frame_err (s : State) (v : Fabric) : (s.setFab v).err = s.err := rfl
@[simp] theorem State.setFab_frame_ports (s : State) (v : Fabric) : (s.setFab v).ports = s.ports := rfl
@[simp] theorem State.setFab_frame_intake (s : State) (v : Fabric) : (s.setFab v).intake = s.intake := rfl
@[simp] theorem State.setFab_frame_text (s : State) (v : Fabric) : (s.setFab v).text = s.text := rfl
@[simp] theorem State.setFab_frame_sten (s : State) (v : Fabric) : (s.setFab v).sten = s.sten := rfl
@[simp] theorem State.setFab_frame_read (s : State) (v : Fabric) : (s.setFab v).read = s.read := rfl
@[simp] theorem State.setFab_frame_ring (s : State) (v : Fabric) : (s.setFab v).ring = s.ring := rfl
@[simp] theorem State.setFab_frame_pair (s : State) (v : Fabric) : (s.setFab v).pair = s.pair := rfl
@[simp] theorem State.setFab_frame_free (s : State) (v : Fabric) : (s.setFab v).free = s.free := rfl
@[simp] theorem State.setFab_frame_out (s : State) (v : Fabric) : (s.setFab v).out = s.out := rfl
@[simp] theorem State.setLp_lp (s : State) (v : Lpddr) : (s.setLp v).lp = v := rfl
@[simp] theorem State.setLp_frame_pending (s : State) (v : Lpddr) : (s.setLp v).pending = s.pending := rfl
@[simp] theorem State.setLp_frame_aon (s : State) (v : Lpddr) : (s.setLp v).aon = s.aon := rfl
@[simp] theorem State.setLp_frame_pwr (s : State) (v : Lpddr) : (s.setLp v).pwr = s.pwr := rfl
@[simp] theorem State.setLp_frame_clk (s : State) (v : Lpddr) : (s.setLp v).clk = s.clk := rfl
@[simp] theorem State.setLp_frame_fuse (s : State) (v : Lpddr) : (s.setLp v).fuse = s.fuse := rfl
@[simp] theorem State.setLp_frame_boot (s : State) (v : Lpddr) : (s.setLp v).boot = s.boot := rfl
@[simp] theorem State.setLp_frame_pci (s : State) (v : Lpddr) : (s.setLp v).pci = s.pci := rfl
@[simp] theorem State.setLp_frame_mbox (s : State) (v : Lpddr) : (s.setLp v).mbox = s.mbox := rfl
@[simp] theorem State.setLp_frame_hq (s : State) (v : Lpddr) : (s.setLp v).hq = s.hq := rfl
@[simp] theorem State.setLp_frame_hostMem (s : State) (v : Lpddr) : (s.setLp v).hostMem = s.hostMem := rfl
@[simp] theorem State.setLp_frame_ctxs (s : State) (v : Lpddr) : (s.setLp v).ctxs = s.ctxs := rfl
@[simp] theorem State.setLp_frame_sched (s : State) (v : Lpddr) : (s.setLp v).sched = s.sched := rfl
@[simp] theorem State.setLp_frame_fab (s : State) (v : Lpddr) : (s.setLp v).fab = s.fab := rfl
@[simp] theorem State.setLp_frame_err (s : State) (v : Lpddr) : (s.setLp v).err = s.err := rfl
@[simp] theorem State.setLp_frame_ports (s : State) (v : Lpddr) : (s.setLp v).ports = s.ports := rfl
@[simp] theorem State.setLp_frame_intake (s : State) (v : Lpddr) : (s.setLp v).intake = s.intake := rfl
@[simp] theorem State.setLp_frame_text (s : State) (v : Lpddr) : (s.setLp v).text = s.text := rfl
@[simp] theorem State.setLp_frame_sten (s : State) (v : Lpddr) : (s.setLp v).sten = s.sten := rfl
@[simp] theorem State.setLp_frame_read (s : State) (v : Lpddr) : (s.setLp v).read = s.read := rfl
@[simp] theorem State.setLp_frame_ring (s : State) (v : Lpddr) : (s.setLp v).ring = s.ring := rfl
@[simp] theorem State.setLp_frame_pair (s : State) (v : Lpddr) : (s.setLp v).pair = s.pair := rfl
@[simp] theorem State.setLp_frame_free (s : State) (v : Lpddr) : (s.setLp v).free = s.free := rfl
@[simp] theorem State.setLp_frame_out (s : State) (v : Lpddr) : (s.setLp v).out = s.out := rfl
@[simp] theorem State.setErr_err (s : State) (v : Errors) : (s.setErr v).err = v := rfl
@[simp] theorem State.setErr_frame_pending (s : State) (v : Errors) : (s.setErr v).pending = s.pending := rfl
@[simp] theorem State.setErr_frame_aon (s : State) (v : Errors) : (s.setErr v).aon = s.aon := rfl
@[simp] theorem State.setErr_frame_pwr (s : State) (v : Errors) : (s.setErr v).pwr = s.pwr := rfl
@[simp] theorem State.setErr_frame_clk (s : State) (v : Errors) : (s.setErr v).clk = s.clk := rfl
@[simp] theorem State.setErr_frame_fuse (s : State) (v : Errors) : (s.setErr v).fuse = s.fuse := rfl
@[simp] theorem State.setErr_frame_boot (s : State) (v : Errors) : (s.setErr v).boot = s.boot := rfl
@[simp] theorem State.setErr_frame_pci (s : State) (v : Errors) : (s.setErr v).pci = s.pci := rfl
@[simp] theorem State.setErr_frame_mbox (s : State) (v : Errors) : (s.setErr v).mbox = s.mbox := rfl
@[simp] theorem State.setErr_frame_hq (s : State) (v : Errors) : (s.setErr v).hq = s.hq := rfl
@[simp] theorem State.setErr_frame_hostMem (s : State) (v : Errors) : (s.setErr v).hostMem = s.hostMem := rfl
@[simp] theorem State.setErr_frame_ctxs (s : State) (v : Errors) : (s.setErr v).ctxs = s.ctxs := rfl
@[simp] theorem State.setErr_frame_sched (s : State) (v : Errors) : (s.setErr v).sched = s.sched := rfl
@[simp] theorem State.setErr_frame_fab (s : State) (v : Errors) : (s.setErr v).fab = s.fab := rfl
@[simp] theorem State.setErr_frame_lp (s : State) (v : Errors) : (s.setErr v).lp = s.lp := rfl
@[simp] theorem State.setErr_frame_ports (s : State) (v : Errors) : (s.setErr v).ports = s.ports := rfl
@[simp] theorem State.setErr_frame_intake (s : State) (v : Errors) : (s.setErr v).intake = s.intake := rfl
@[simp] theorem State.setErr_frame_text (s : State) (v : Errors) : (s.setErr v).text = s.text := rfl
@[simp] theorem State.setErr_frame_sten (s : State) (v : Errors) : (s.setErr v).sten = s.sten := rfl
@[simp] theorem State.setErr_frame_read (s : State) (v : Errors) : (s.setErr v).read = s.read := rfl
@[simp] theorem State.setErr_frame_ring (s : State) (v : Errors) : (s.setErr v).ring = s.ring := rfl
@[simp] theorem State.setErr_frame_pair (s : State) (v : Errors) : (s.setErr v).pair = s.pair := rfl
@[simp] theorem State.setErr_frame_free (s : State) (v : Errors) : (s.setErr v).free = s.free := rfl
@[simp] theorem State.setErr_frame_out (s : State) (v : Errors) : (s.setErr v).out = s.out := rfl
@[simp] theorem State.setPorts_ports (s : State) (v : Tab Port) : (s.setPorts v).ports = v := rfl
@[simp] theorem State.setPorts_frame_pending (s : State) (v : Tab Port) : (s.setPorts v).pending = s.pending := rfl
@[simp] theorem State.setPorts_frame_aon (s : State) (v : Tab Port) : (s.setPorts v).aon = s.aon := rfl
@[simp] theorem State.setPorts_frame_pwr (s : State) (v : Tab Port) : (s.setPorts v).pwr = s.pwr := rfl
@[simp] theorem State.setPorts_frame_clk (s : State) (v : Tab Port) : (s.setPorts v).clk = s.clk := rfl
@[simp] theorem State.setPorts_frame_fuse (s : State) (v : Tab Port) : (s.setPorts v).fuse = s.fuse := rfl
@[simp] theorem State.setPorts_frame_boot (s : State) (v : Tab Port) : (s.setPorts v).boot = s.boot := rfl
@[simp] theorem State.setPorts_frame_pci (s : State) (v : Tab Port) : (s.setPorts v).pci = s.pci := rfl
@[simp] theorem State.setPorts_frame_mbox (s : State) (v : Tab Port) : (s.setPorts v).mbox = s.mbox := rfl
@[simp] theorem State.setPorts_frame_hq (s : State) (v : Tab Port) : (s.setPorts v).hq = s.hq := rfl
@[simp] theorem State.setPorts_frame_hostMem (s : State) (v : Tab Port) : (s.setPorts v).hostMem = s.hostMem := rfl
@[simp] theorem State.setPorts_frame_ctxs (s : State) (v : Tab Port) : (s.setPorts v).ctxs = s.ctxs := rfl
@[simp] theorem State.setPorts_frame_sched (s : State) (v : Tab Port) : (s.setPorts v).sched = s.sched := rfl
@[simp] theorem State.setPorts_frame_fab (s : State) (v : Tab Port) : (s.setPorts v).fab = s.fab := rfl
@[simp] theorem State.setPorts_frame_lp (s : State) (v : Tab Port) : (s.setPorts v).lp = s.lp := rfl
@[simp] theorem State.setPorts_frame_err (s : State) (v : Tab Port) : (s.setPorts v).err = s.err := rfl
@[simp] theorem State.setPorts_frame_intake (s : State) (v : Tab Port) : (s.setPorts v).intake = s.intake := rfl
@[simp] theorem State.setPorts_frame_text (s : State) (v : Tab Port) : (s.setPorts v).text = s.text := rfl
@[simp] theorem State.setPorts_frame_sten (s : State) (v : Tab Port) : (s.setPorts v).sten = s.sten := rfl
@[simp] theorem State.setPorts_frame_read (s : State) (v : Tab Port) : (s.setPorts v).read = s.read := rfl
@[simp] theorem State.setPorts_frame_ring (s : State) (v : Tab Port) : (s.setPorts v).ring = s.ring := rfl
@[simp] theorem State.setPorts_frame_pair (s : State) (v : Tab Port) : (s.setPorts v).pair = s.pair := rfl
@[simp] theorem State.setPorts_frame_free (s : State) (v : Tab Port) : (s.setPorts v).free = s.free := rfl
@[simp] theorem State.setPorts_frame_out (s : State) (v : Tab Port) : (s.setPorts v).out = s.out := rfl
@[simp] theorem State.setIntake_intake (s : State) (v : Intake) : (s.setIntake v).intake = v := rfl
@[simp] theorem State.setIntake_frame_pending (s : State) (v : Intake) : (s.setIntake v).pending = s.pending := rfl
@[simp] theorem State.setIntake_frame_aon (s : State) (v : Intake) : (s.setIntake v).aon = s.aon := rfl
@[simp] theorem State.setIntake_frame_pwr (s : State) (v : Intake) : (s.setIntake v).pwr = s.pwr := rfl
@[simp] theorem State.setIntake_frame_clk (s : State) (v : Intake) : (s.setIntake v).clk = s.clk := rfl
@[simp] theorem State.setIntake_frame_fuse (s : State) (v : Intake) : (s.setIntake v).fuse = s.fuse := rfl
@[simp] theorem State.setIntake_frame_boot (s : State) (v : Intake) : (s.setIntake v).boot = s.boot := rfl
@[simp] theorem State.setIntake_frame_pci (s : State) (v : Intake) : (s.setIntake v).pci = s.pci := rfl
@[simp] theorem State.setIntake_frame_mbox (s : State) (v : Intake) : (s.setIntake v).mbox = s.mbox := rfl
@[simp] theorem State.setIntake_frame_hq (s : State) (v : Intake) : (s.setIntake v).hq = s.hq := rfl
@[simp] theorem State.setIntake_frame_hostMem (s : State) (v : Intake) : (s.setIntake v).hostMem = s.hostMem := rfl
@[simp] theorem State.setIntake_frame_ctxs (s : State) (v : Intake) : (s.setIntake v).ctxs = s.ctxs := rfl
@[simp] theorem State.setIntake_frame_sched (s : State) (v : Intake) : (s.setIntake v).sched = s.sched := rfl
@[simp] theorem State.setIntake_frame_fab (s : State) (v : Intake) : (s.setIntake v).fab = s.fab := rfl
@[simp] theorem State.setIntake_frame_lp (s : State) (v : Intake) : (s.setIntake v).lp = s.lp := rfl
@[simp] theorem State.setIntake_frame_err (s : State) (v : Intake) : (s.setIntake v).err = s.err := rfl
@[simp] theorem State.setIntake_frame_ports (s : State) (v : Intake) : (s.setIntake v).ports = s.ports := rfl
@[simp] theorem State.setIntake_frame_text (s : State) (v : Intake) : (s.setIntake v).text = s.text := rfl
@[simp] theorem State.setIntake_frame_sten (s : State) (v : Intake) : (s.setIntake v).sten = s.sten := rfl
@[simp] theorem State.setIntake_frame_read (s : State) (v : Intake) : (s.setIntake v).read = s.read := rfl
@[simp] theorem State.setIntake_frame_ring (s : State) (v : Intake) : (s.setIntake v).ring = s.ring := rfl
@[simp] theorem State.setIntake_frame_pair (s : State) (v : Intake) : (s.setIntake v).pair = s.pair := rfl
@[simp] theorem State.setIntake_frame_free (s : State) (v : Intake) : (s.setIntake v).free = s.free := rfl
@[simp] theorem State.setIntake_frame_out (s : State) (v : Intake) : (s.setIntake v).out = s.out := rfl
@[simp] theorem State.setText_text (s : State) (v : TextSt) : (s.setText v).text = v := rfl
@[simp] theorem State.setText_frame_pending (s : State) (v : TextSt) : (s.setText v).pending = s.pending := rfl
@[simp] theorem State.setText_frame_aon (s : State) (v : TextSt) : (s.setText v).aon = s.aon := rfl
@[simp] theorem State.setText_frame_pwr (s : State) (v : TextSt) : (s.setText v).pwr = s.pwr := rfl
@[simp] theorem State.setText_frame_clk (s : State) (v : TextSt) : (s.setText v).clk = s.clk := rfl
@[simp] theorem State.setText_frame_fuse (s : State) (v : TextSt) : (s.setText v).fuse = s.fuse := rfl
@[simp] theorem State.setText_frame_boot (s : State) (v : TextSt) : (s.setText v).boot = s.boot := rfl
@[simp] theorem State.setText_frame_pci (s : State) (v : TextSt) : (s.setText v).pci = s.pci := rfl
@[simp] theorem State.setText_frame_mbox (s : State) (v : TextSt) : (s.setText v).mbox = s.mbox := rfl
@[simp] theorem State.setText_frame_hq (s : State) (v : TextSt) : (s.setText v).hq = s.hq := rfl
@[simp] theorem State.setText_frame_hostMem (s : State) (v : TextSt) : (s.setText v).hostMem = s.hostMem := rfl
@[simp] theorem State.setText_frame_ctxs (s : State) (v : TextSt) : (s.setText v).ctxs = s.ctxs := rfl
@[simp] theorem State.setText_frame_sched (s : State) (v : TextSt) : (s.setText v).sched = s.sched := rfl
@[simp] theorem State.setText_frame_fab (s : State) (v : TextSt) : (s.setText v).fab = s.fab := rfl
@[simp] theorem State.setText_frame_lp (s : State) (v : TextSt) : (s.setText v).lp = s.lp := rfl
@[simp] theorem State.setText_frame_err (s : State) (v : TextSt) : (s.setText v).err = s.err := rfl
@[simp] theorem State.setText_frame_ports (s : State) (v : TextSt) : (s.setText v).ports = s.ports := rfl
@[simp] theorem State.setText_frame_intake (s : State) (v : TextSt) : (s.setText v).intake = s.intake := rfl
@[simp] theorem State.setText_frame_sten (s : State) (v : TextSt) : (s.setText v).sten = s.sten := rfl
@[simp] theorem State.setText_frame_read (s : State) (v : TextSt) : (s.setText v).read = s.read := rfl
@[simp] theorem State.setText_frame_ring (s : State) (v : TextSt) : (s.setText v).ring = s.ring := rfl
@[simp] theorem State.setText_frame_pair (s : State) (v : TextSt) : (s.setText v).pair = s.pair := rfl
@[simp] theorem State.setText_frame_free (s : State) (v : TextSt) : (s.setText v).free = s.free := rfl
@[simp] theorem State.setText_frame_out (s : State) (v : TextSt) : (s.setText v).out = s.out := rfl
@[simp] theorem State.setSten_sten (s : State) (v : StenSt) : (s.setSten v).sten = v := rfl
@[simp] theorem State.setSten_frame_pending (s : State) (v : StenSt) : (s.setSten v).pending = s.pending := rfl
@[simp] theorem State.setSten_frame_aon (s : State) (v : StenSt) : (s.setSten v).aon = s.aon := rfl
@[simp] theorem State.setSten_frame_pwr (s : State) (v : StenSt) : (s.setSten v).pwr = s.pwr := rfl
@[simp] theorem State.setSten_frame_clk (s : State) (v : StenSt) : (s.setSten v).clk = s.clk := rfl
@[simp] theorem State.setSten_frame_fuse (s : State) (v : StenSt) : (s.setSten v).fuse = s.fuse := rfl
@[simp] theorem State.setSten_frame_boot (s : State) (v : StenSt) : (s.setSten v).boot = s.boot := rfl
@[simp] theorem State.setSten_frame_pci (s : State) (v : StenSt) : (s.setSten v).pci = s.pci := rfl
@[simp] theorem State.setSten_frame_mbox (s : State) (v : StenSt) : (s.setSten v).mbox = s.mbox := rfl
@[simp] theorem State.setSten_frame_hq (s : State) (v : StenSt) : (s.setSten v).hq = s.hq := rfl
@[simp] theorem State.setSten_frame_hostMem (s : State) (v : StenSt) : (s.setSten v).hostMem = s.hostMem := rfl
@[simp] theorem State.setSten_frame_ctxs (s : State) (v : StenSt) : (s.setSten v).ctxs = s.ctxs := rfl
@[simp] theorem State.setSten_frame_sched (s : State) (v : StenSt) : (s.setSten v).sched = s.sched := rfl
@[simp] theorem State.setSten_frame_fab (s : State) (v : StenSt) : (s.setSten v).fab = s.fab := rfl
@[simp] theorem State.setSten_frame_lp (s : State) (v : StenSt) : (s.setSten v).lp = s.lp := rfl
@[simp] theorem State.setSten_frame_err (s : State) (v : StenSt) : (s.setSten v).err = s.err := rfl
@[simp] theorem State.setSten_frame_ports (s : State) (v : StenSt) : (s.setSten v).ports = s.ports := rfl
@[simp] theorem State.setSten_frame_intake (s : State) (v : StenSt) : (s.setSten v).intake = s.intake := rfl
@[simp] theorem State.setSten_frame_text (s : State) (v : StenSt) : (s.setSten v).text = s.text := rfl
@[simp] theorem State.setSten_frame_read (s : State) (v : StenSt) : (s.setSten v).read = s.read := rfl
@[simp] theorem State.setSten_frame_ring (s : State) (v : StenSt) : (s.setSten v).ring = s.ring := rfl
@[simp] theorem State.setSten_frame_pair (s : State) (v : StenSt) : (s.setSten v).pair = s.pair := rfl
@[simp] theorem State.setSten_frame_free (s : State) (v : StenSt) : (s.setSten v).free = s.free := rfl
@[simp] theorem State.setSten_frame_out (s : State) (v : StenSt) : (s.setSten v).out = s.out := rfl
@[simp] theorem State.setRead_read (s : State) (v : ReadSt) : (s.setRead v).read = v := rfl
@[simp] theorem State.setRead_frame_pending (s : State) (v : ReadSt) : (s.setRead v).pending = s.pending := rfl
@[simp] theorem State.setRead_frame_aon (s : State) (v : ReadSt) : (s.setRead v).aon = s.aon := rfl
@[simp] theorem State.setRead_frame_pwr (s : State) (v : ReadSt) : (s.setRead v).pwr = s.pwr := rfl
@[simp] theorem State.setRead_frame_clk (s : State) (v : ReadSt) : (s.setRead v).clk = s.clk := rfl
@[simp] theorem State.setRead_frame_fuse (s : State) (v : ReadSt) : (s.setRead v).fuse = s.fuse := rfl
@[simp] theorem State.setRead_frame_boot (s : State) (v : ReadSt) : (s.setRead v).boot = s.boot := rfl
@[simp] theorem State.setRead_frame_pci (s : State) (v : ReadSt) : (s.setRead v).pci = s.pci := rfl
@[simp] theorem State.setRead_frame_mbox (s : State) (v : ReadSt) : (s.setRead v).mbox = s.mbox := rfl
@[simp] theorem State.setRead_frame_hq (s : State) (v : ReadSt) : (s.setRead v).hq = s.hq := rfl
@[simp] theorem State.setRead_frame_hostMem (s : State) (v : ReadSt) : (s.setRead v).hostMem = s.hostMem := rfl
@[simp] theorem State.setRead_frame_ctxs (s : State) (v : ReadSt) : (s.setRead v).ctxs = s.ctxs := rfl
@[simp] theorem State.setRead_frame_sched (s : State) (v : ReadSt) : (s.setRead v).sched = s.sched := rfl
@[simp] theorem State.setRead_frame_fab (s : State) (v : ReadSt) : (s.setRead v).fab = s.fab := rfl
@[simp] theorem State.setRead_frame_lp (s : State) (v : ReadSt) : (s.setRead v).lp = s.lp := rfl
@[simp] theorem State.setRead_frame_err (s : State) (v : ReadSt) : (s.setRead v).err = s.err := rfl
@[simp] theorem State.setRead_frame_ports (s : State) (v : ReadSt) : (s.setRead v).ports = s.ports := rfl
@[simp] theorem State.setRead_frame_intake (s : State) (v : ReadSt) : (s.setRead v).intake = s.intake := rfl
@[simp] theorem State.setRead_frame_text (s : State) (v : ReadSt) : (s.setRead v).text = s.text := rfl
@[simp] theorem State.setRead_frame_sten (s : State) (v : ReadSt) : (s.setRead v).sten = s.sten := rfl
@[simp] theorem State.setRead_frame_ring (s : State) (v : ReadSt) : (s.setRead v).ring = s.ring := rfl
@[simp] theorem State.setRead_frame_pair (s : State) (v : ReadSt) : (s.setRead v).pair = s.pair := rfl
@[simp] theorem State.setRead_frame_free (s : State) (v : ReadSt) : (s.setRead v).free = s.free := rfl
@[simp] theorem State.setRead_frame_out (s : State) (v : ReadSt) : (s.setRead v).out = s.out := rfl
@[simp] theorem State.setRing_ring (s : State) (v : Rings) : (s.setRing v).ring = v := rfl
@[simp] theorem State.setRing_frame_pending (s : State) (v : Rings) : (s.setRing v).pending = s.pending := rfl
@[simp] theorem State.setRing_frame_aon (s : State) (v : Rings) : (s.setRing v).aon = s.aon := rfl
@[simp] theorem State.setRing_frame_pwr (s : State) (v : Rings) : (s.setRing v).pwr = s.pwr := rfl
@[simp] theorem State.setRing_frame_clk (s : State) (v : Rings) : (s.setRing v).clk = s.clk := rfl
@[simp] theorem State.setRing_frame_fuse (s : State) (v : Rings) : (s.setRing v).fuse = s.fuse := rfl
@[simp] theorem State.setRing_frame_boot (s : State) (v : Rings) : (s.setRing v).boot = s.boot := rfl
@[simp] theorem State.setRing_frame_pci (s : State) (v : Rings) : (s.setRing v).pci = s.pci := rfl
@[simp] theorem State.setRing_frame_mbox (s : State) (v : Rings) : (s.setRing v).mbox = s.mbox := rfl
@[simp] theorem State.setRing_frame_hq (s : State) (v : Rings) : (s.setRing v).hq = s.hq := rfl
@[simp] theorem State.setRing_frame_hostMem (s : State) (v : Rings) : (s.setRing v).hostMem = s.hostMem := rfl
@[simp] theorem State.setRing_frame_ctxs (s : State) (v : Rings) : (s.setRing v).ctxs = s.ctxs := rfl
@[simp] theorem State.setRing_frame_sched (s : State) (v : Rings) : (s.setRing v).sched = s.sched := rfl
@[simp] theorem State.setRing_frame_fab (s : State) (v : Rings) : (s.setRing v).fab = s.fab := rfl
@[simp] theorem State.setRing_frame_lp (s : State) (v : Rings) : (s.setRing v).lp = s.lp := rfl
@[simp] theorem State.setRing_frame_err (s : State) (v : Rings) : (s.setRing v).err = s.err := rfl
@[simp] theorem State.setRing_frame_ports (s : State) (v : Rings) : (s.setRing v).ports = s.ports := rfl
@[simp] theorem State.setRing_frame_intake (s : State) (v : Rings) : (s.setRing v).intake = s.intake := rfl
@[simp] theorem State.setRing_frame_text (s : State) (v : Rings) : (s.setRing v).text = s.text := rfl
@[simp] theorem State.setRing_frame_sten (s : State) (v : Rings) : (s.setRing v).sten = s.sten := rfl
@[simp] theorem State.setRing_frame_read (s : State) (v : Rings) : (s.setRing v).read = s.read := rfl
@[simp] theorem State.setRing_frame_pair (s : State) (v : Rings) : (s.setRing v).pair = s.pair := rfl
@[simp] theorem State.setRing_frame_free (s : State) (v : Rings) : (s.setRing v).free = s.free := rfl
@[simp] theorem State.setRing_frame_out (s : State) (v : Rings) : (s.setRing v).out = s.out := rfl
@[simp] theorem State.setPair_pair (s : State) (v : Pair) : (s.setPair v).pair = v := rfl
@[simp] theorem State.setPair_frame_pending (s : State) (v : Pair) : (s.setPair v).pending = s.pending := rfl
@[simp] theorem State.setPair_frame_aon (s : State) (v : Pair) : (s.setPair v).aon = s.aon := rfl
@[simp] theorem State.setPair_frame_pwr (s : State) (v : Pair) : (s.setPair v).pwr = s.pwr := rfl
@[simp] theorem State.setPair_frame_clk (s : State) (v : Pair) : (s.setPair v).clk = s.clk := rfl
@[simp] theorem State.setPair_frame_fuse (s : State) (v : Pair) : (s.setPair v).fuse = s.fuse := rfl
@[simp] theorem State.setPair_frame_boot (s : State) (v : Pair) : (s.setPair v).boot = s.boot := rfl
@[simp] theorem State.setPair_frame_pci (s : State) (v : Pair) : (s.setPair v).pci = s.pci := rfl
@[simp] theorem State.setPair_frame_mbox (s : State) (v : Pair) : (s.setPair v).mbox = s.mbox := rfl
@[simp] theorem State.setPair_frame_hq (s : State) (v : Pair) : (s.setPair v).hq = s.hq := rfl
@[simp] theorem State.setPair_frame_hostMem (s : State) (v : Pair) : (s.setPair v).hostMem = s.hostMem := rfl
@[simp] theorem State.setPair_frame_ctxs (s : State) (v : Pair) : (s.setPair v).ctxs = s.ctxs := rfl
@[simp] theorem State.setPair_frame_sched (s : State) (v : Pair) : (s.setPair v).sched = s.sched := rfl
@[simp] theorem State.setPair_frame_fab (s : State) (v : Pair) : (s.setPair v).fab = s.fab := rfl
@[simp] theorem State.setPair_frame_lp (s : State) (v : Pair) : (s.setPair v).lp = s.lp := rfl
@[simp] theorem State.setPair_frame_err (s : State) (v : Pair) : (s.setPair v).err = s.err := rfl
@[simp] theorem State.setPair_frame_ports (s : State) (v : Pair) : (s.setPair v).ports = s.ports := rfl
@[simp] theorem State.setPair_frame_intake (s : State) (v : Pair) : (s.setPair v).intake = s.intake := rfl
@[simp] theorem State.setPair_frame_text (s : State) (v : Pair) : (s.setPair v).text = s.text := rfl
@[simp] theorem State.setPair_frame_sten (s : State) (v : Pair) : (s.setPair v).sten = s.sten := rfl
@[simp] theorem State.setPair_frame_read (s : State) (v : Pair) : (s.setPair v).read = s.read := rfl
@[simp] theorem State.setPair_frame_ring (s : State) (v : Pair) : (s.setPair v).ring = s.ring := rfl
@[simp] theorem State.setPair_frame_free (s : State) (v : Pair) : (s.setPair v).free = s.free := rfl
@[simp] theorem State.setPair_frame_out (s : State) (v : Pair) : (s.setPair v).out = s.out := rfl
@[simp] theorem State.setFree_free (s : State) (v : Nat) : (s.setFree v).free = v := rfl
@[simp] theorem State.setFree_frame_pending (s : State) (v : Nat) : (s.setFree v).pending = s.pending := rfl
@[simp] theorem State.setFree_frame_aon (s : State) (v : Nat) : (s.setFree v).aon = s.aon := rfl
@[simp] theorem State.setFree_frame_pwr (s : State) (v : Nat) : (s.setFree v).pwr = s.pwr := rfl
@[simp] theorem State.setFree_frame_clk (s : State) (v : Nat) : (s.setFree v).clk = s.clk := rfl
@[simp] theorem State.setFree_frame_fuse (s : State) (v : Nat) : (s.setFree v).fuse = s.fuse := rfl
@[simp] theorem State.setFree_frame_boot (s : State) (v : Nat) : (s.setFree v).boot = s.boot := rfl
@[simp] theorem State.setFree_frame_pci (s : State) (v : Nat) : (s.setFree v).pci = s.pci := rfl
@[simp] theorem State.setFree_frame_mbox (s : State) (v : Nat) : (s.setFree v).mbox = s.mbox := rfl
@[simp] theorem State.setFree_frame_hq (s : State) (v : Nat) : (s.setFree v).hq = s.hq := rfl
@[simp] theorem State.setFree_frame_hostMem (s : State) (v : Nat) : (s.setFree v).hostMem = s.hostMem := rfl
@[simp] theorem State.setFree_frame_ctxs (s : State) (v : Nat) : (s.setFree v).ctxs = s.ctxs := rfl
@[simp] theorem State.setFree_frame_sched (s : State) (v : Nat) : (s.setFree v).sched = s.sched := rfl
@[simp] theorem State.setFree_frame_fab (s : State) (v : Nat) : (s.setFree v).fab = s.fab := rfl
@[simp] theorem State.setFree_frame_lp (s : State) (v : Nat) : (s.setFree v).lp = s.lp := rfl
@[simp] theorem State.setFree_frame_err (s : State) (v : Nat) : (s.setFree v).err = s.err := rfl
@[simp] theorem State.setFree_frame_ports (s : State) (v : Nat) : (s.setFree v).ports = s.ports := rfl
@[simp] theorem State.setFree_frame_intake (s : State) (v : Nat) : (s.setFree v).intake = s.intake := rfl
@[simp] theorem State.setFree_frame_text (s : State) (v : Nat) : (s.setFree v).text = s.text := rfl
@[simp] theorem State.setFree_frame_sten (s : State) (v : Nat) : (s.setFree v).sten = s.sten := rfl
@[simp] theorem State.setFree_frame_read (s : State) (v : Nat) : (s.setFree v).read = s.read := rfl
@[simp] theorem State.setFree_frame_ring (s : State) (v : Nat) : (s.setFree v).ring = s.ring := rfl
@[simp] theorem State.setFree_frame_pair (s : State) (v : Nat) : (s.setFree v).pair = s.pair := rfl
@[simp] theorem State.setFree_frame_out (s : State) (v : Nat) : (s.setFree v).out = s.out := rfl
@[simp] theorem State.setOut_out (s : State) (v : List Out) : (s.setOut v).out = v := rfl
@[simp] theorem State.setOut_frame_pending (s : State) (v : List Out) : (s.setOut v).pending = s.pending := rfl
@[simp] theorem State.setOut_frame_aon (s : State) (v : List Out) : (s.setOut v).aon = s.aon := rfl
@[simp] theorem State.setOut_frame_pwr (s : State) (v : List Out) : (s.setOut v).pwr = s.pwr := rfl
@[simp] theorem State.setOut_frame_clk (s : State) (v : List Out) : (s.setOut v).clk = s.clk := rfl
@[simp] theorem State.setOut_frame_fuse (s : State) (v : List Out) : (s.setOut v).fuse = s.fuse := rfl
@[simp] theorem State.setOut_frame_boot (s : State) (v : List Out) : (s.setOut v).boot = s.boot := rfl
@[simp] theorem State.setOut_frame_pci (s : State) (v : List Out) : (s.setOut v).pci = s.pci := rfl
@[simp] theorem State.setOut_frame_mbox (s : State) (v : List Out) : (s.setOut v).mbox = s.mbox := rfl
@[simp] theorem State.setOut_frame_hq (s : State) (v : List Out) : (s.setOut v).hq = s.hq := rfl
@[simp] theorem State.setOut_frame_hostMem (s : State) (v : List Out) : (s.setOut v).hostMem = s.hostMem := rfl
@[simp] theorem State.setOut_frame_ctxs (s : State) (v : List Out) : (s.setOut v).ctxs = s.ctxs := rfl
@[simp] theorem State.setOut_frame_sched (s : State) (v : List Out) : (s.setOut v).sched = s.sched := rfl
@[simp] theorem State.setOut_frame_fab (s : State) (v : List Out) : (s.setOut v).fab = s.fab := rfl
@[simp] theorem State.setOut_frame_lp (s : State) (v : List Out) : (s.setOut v).lp = s.lp := rfl
@[simp] theorem State.setOut_frame_err (s : State) (v : List Out) : (s.setOut v).err = s.err := rfl
@[simp] theorem State.setOut_frame_ports (s : State) (v : List Out) : (s.setOut v).ports = s.ports := rfl
@[simp] theorem State.setOut_frame_intake (s : State) (v : List Out) : (s.setOut v).intake = s.intake := rfl
@[simp] theorem State.setOut_frame_text (s : State) (v : List Out) : (s.setOut v).text = s.text := rfl
@[simp] theorem State.setOut_frame_sten (s : State) (v : List Out) : (s.setOut v).sten = s.sten := rfl
@[simp] theorem State.setOut_frame_read (s : State) (v : List Out) : (s.setOut v).read = s.read := rfl
@[simp] theorem State.setOut_frame_ring (s : State) (v : List Out) : (s.setOut v).ring = s.ring := rfl
@[simp] theorem State.setOut_frame_pair (s : State) (v : List Out) : (s.setOut v).pair = s.pair := rfl
@[simp] theorem State.setOut_frame_free (s : State) (v : List Out) : (s.setOut v).free = s.free := rfl

end Sys2Proof.Machine
end

