-- ==== Sys2Proof/Laws/Shape.lean ====
section
/-! SUPPORT. Laws/Shape.lean: what the shared operations can change, as one record update each, and the bits that the
status operations set. -/

namespace Sys2Proof.Machine

/-! ### Bits -/

theorem bit_add_pow (w n : Nat) (h : bit w n = false) : bit (w + 2 ^ n) n = true := by
  simp only [bit, Nat.shiftRight_eq_div_pow, Nat.add_div_right w (Nat.two_pow_pos n)] at h ⊢
  simp at h ⊢
  omega

theorem bit_eq_testBit (w n : Nat) : bit w n = w.testBit n := by
  simp [bit, Nat.testBit, Nat.and_comm, Nat.and_one_is_mod]

/-- Setting a bit that is clear keeps every other bit. -/
theorem bit_add_pow_other (w n k : Nat) (h : bit w n = false) (hk : k ≠ n) : bit (w + 2 ^ n) k = bit w k := by
  rw [bit_eq_testBit, bit_eq_testBit]
  rcases Nat.lt_or_gt_of_ne hk with hlt | hgt
  · rw [Nat.add_comm]; exact Nat.testBit_two_pow_add_gt hlt w
  · have hd : (w + 2 ^ n) / 2 ^ (n + 1) = w / 2 ^ (n + 1) := by
      have h1 : w / 2 ^ n % 2 = 0 := by
        simp only [bit, Nat.shiftRight_eq_div_pow] at h
        simp at h; omega
      rw [Nat.pow_succ, ← Nat.div_div_eq_div_mul, ← Nat.div_div_eq_div_mul, Nat.add_div_right w (Nat.two_pow_pos n)]
      omega
    have e : ∀ x : Nat, x.testBit k = (x / 2 ^ (n + 1)).testBit (k - (n + 1)) := by
      intro x
      rw [Nat.testBit_div_two_pow]
      congr 1; omega
    rw [e, e w, hd]

/-- Setting a bit keeps the bits that are set. -/
theorem bit_set_keeps (w n k : Nat) (h : bit w k = true) : bit (if bit w n then w else w + 2 ^ n) k = true := by
  by_cases hn : bit w n = true
  · simp [hn, h]
  · have hn : bit w n = false := by simpa using hn
    have : k ≠ n := by intro e; subst e; simp [h] at hn
    simp [hn, bit_add_pow_other w n k hn this, h]

theorem bit_set (w n : Nat) : bit (if bit w n then w else w + 2 ^ n) n = true := by
  by_cases hn : bit w n = true
  · simp [hn]
  · have hn : bit w n = false := by simpa using hn
    simp [hn, bit_add_pow w n hn]

/-! ### Vectors and events -/

/-- A vector that becomes due is sent or pending; nothing else changes. -/
theorem State.raiseVec_shape (s : State) (fn vec : Nat) :
    ∃ p o, s.raiseVec fn vec = { s with pci := { s.pci with pend := p }, out := o } := by
  unfold State.raiseVec
  dsimp only
  (repeat' split) <;> exact ⟨_, _, rfl⟩

/-- An event bit of a function rises; nothing else changes but the vector that it makes due. -/
theorem State.eventBit_shape (s : State) (fn b : Nat) :
    ∃ p o, s.eventBit fn b = { s with
      pci := { s.pci with
        evStatus0 := if fn = 0 then (if bit s.pci.evStatus0 b then s.pci.evStatus0 else s.pci.evStatus0 + 2 ^ b) else s.pci.evStatus0,
        evStatus1 := if fn = 0 then s.pci.evStatus1 else (if bit s.pci.evStatus1 b then s.pci.evStatus1 else s.pci.evStatus1 + 2 ^ b),
        pend := p }, out := o } := by
  unfold State.eventBit
  dsimp only
  by_cases hf : fn = 0
  · subst hf
    cases hb : bit s.pci.evStatus0 b
    · simp only [reduceIte, hb, Bool.false_eq_true]
      split
      · obtain ⟨p, o, e⟩ := State.raiseVec_shape (s.setPci { s.pci with evStatus0 := s.pci.evStatus0 + 2 ^ b }) 0 0
        exact ⟨p, o, e⟩
      · exact ⟨_, _, rfl⟩
    · simp only [reduceIte, hb]; exact ⟨_, _, rfl⟩
  · cases hb : bit s.pci.evStatus1 b
    · simp only [hf, reduceIte, hb, Bool.false_eq_true]
      split
      · obtain ⟨p, o, e⟩ := State.raiseVec_shape (s.setPci { s.pci with evStatus1 := s.pci.evStatus1 + 2 ^ b }) fn 0
        exact ⟨p, o, e⟩
      · exact ⟨_, _, rfl⟩
    · simp only [hf, reduceIte, hb]; exact ⟨_, _, rfl⟩

/-- An event bit rises on both functions. -/
theorem State.event_shape (s : State) (b : Nat) :
    ∃ p o, s.event b = { s with
      pci := { s.pci with
        evStatus0 := if bit s.pci.evStatus0 b then s.pci.evStatus0 else s.pci.evStatus0 + 2 ^ b,
        evStatus1 := if bit s.pci.evStatus1 b then s.pci.evStatus1 else s.pci.evStatus1 + 2 ^ b,
        pend := p }, out := o } := by
  unfold State.event
  obtain ⟨p, o, e⟩ := State.eventBit_shape s 0 b
  rw [e]
  obtain ⟨p', o', e'⟩ := State.eventBit_shape { s with
      pci := { s.pci with
        evStatus0 := if bit s.pci.evStatus0 b then s.pci.evStatus0 else s.pci.evStatus0 + 2 ^ b,
        pend := p }, out := o } 1 b
  exact ⟨p', o', e'⟩

/-- Both functions' bits are set after an event. -/
theorem State.event_bits (s : State) (b : Nat) :
    bit (s.event b).pci.evStatus0 b = true ∧ bit (s.event b).pci.evStatus1 b = true := by
  obtain ⟨p, o, e⟩ := State.event_shape s b
  rw [e]
  exact ⟨bit_set _ _, bit_set _ _⟩

/-- Replacing the error state raises at most EVENT_STATUS.error. -/
theorem State.putErr_shape (s : State) (e : Errors) :
    ∃ a b p o, s.putErr e = { s with err := e, pci := { s.pci with evStatus0 := a, evStatus1 := b, pend := p }, out := o } := by
  unfold State.putErr
  dsimp only
  split
  · exact ⟨_, _, _, _, rfl⟩
  · obtain ⟨p, o, h⟩ := State.event_shape (s.setErr e) 0
    exact ⟨_, _, p, o, h⟩

/-- PME. -/
theorem State.pme_shape (s : State) : ∃ w o, s.pme = { s with pwr := { s.pwr with wakeN := w }, out := o } := by
  unfold State.pme
  dsimp only
  (repeat' split) <;> exact ⟨_, _, rfl⟩

/-- Leaving IDLE. -/
theorem State.leaveIdle_eq (s : State) :
    s.leaveIdle = { s with pwr := if s.pwr.state = 1 then { s.pwr with state := 0 } else s.pwr } := by
  unfold State.leaveIdle
  split <;> rfl

/-- A wake source sets its bit of WAKE_CAUSE; in SLEEP the first starts the wake sequence. -/
theorem State.wake_shape (s : State) (b : Nat) :
    ∃ w n o, s.wake b = { s with
      aon := { s.aon with
        wakeCause := if bit s.aon.wakeCause b then s.aon.wakeCause else s.aon.wakeCause + 2 ^ b,
        waking := s.aon.waking || s.asleep },
      pwr := { s.pwr with
        state := if s.asleep && !s.aon.waking then 3 else s.pwr.state,
        coreEn := (s.asleep && !s.aon.waking) || s.pwr.coreEn, wakeN := w }, free := n, out := o } := by
  unfold State.wake
  dsimp only
  by_cases h : (s.asleep && !s.aon.waking) = true
  · simp only [h, if_true]
    obtain ⟨w, o, e⟩ := State.pme_shape (((s.setAon { s.aon with
      wakeCause := if bit s.aon.wakeCause b then s.aon.wakeCause else s.aon.wakeCause + 2 ^ b, waking := true }).setPwr
        { s.pwr with state := 3, coreEn := true }).emit (.coreEn true))
    refine ⟨w, s.free, o, ?_⟩
    have h1 : s.asleep = true := by simp at h; exact h.1
    have h2 : s.aon.waking = false := by simp at h; exact h.2
    simp only [h1, h2]
    exact e
  · have hw : (s.aon.waking || s.asleep) = s.aon.waking := by
      cases h1 : s.asleep <;> cases h2 : s.aon.waking <;> simp_all
    have hf : (s.asleep && !s.aon.waking) = false := by simpa using h
    simp only [hf, hw, Bool.false_or, if_false, Bool.false_eq_true]
    split
    · exact ⟨_, _, _, rfl⟩
    · obtain ⟨w, o, e⟩ := State.pme_shape (s.setAon { s.aon with
        wakeCause := if bit s.aon.wakeCause b then s.aon.wakeCause else s.aon.wakeCause + 2 ^ b })
      exact ⟨w, s.free, o, e⟩

/-- FEED_HOLD changes ports alone. -/
theorem State.feedHolds_shape (s : State) : ∃ p o, s.feedHolds = { s with ports := p, out := o } := by
  unfold State.feedHolds
  split
  · exact ⟨_, _, rfl⟩
  · generalize List.range 4 = l
    suffices ∀ r : State, (∃ p o, r = { s with ports := p, out := o }) →
        ∃ p o, l.foldl _ r = { s with ports := p, out := o } from this s ⟨_, _, rfl⟩
    induction l with
    | nil => intro r h; exact h
    | cons n l ih =>
      intro r ⟨p, o, h⟩
      apply ih
      subst h
      dsimp only
      (repeat' split) <;> exact ⟨_, _, rfl⟩

/-! ### Tables -/

/-- What a filter by key leaves at a key. -/
theorem tabFind_filter {α : Type} (t : Tab α) (p : Nat → Bool) (k : Nat) :
    tabFind (t.filter (fun x => p x.1)) k = if p k then tabFind t k else none := by
  induction t with
  | nil => simp [tabFind]
  | cons x r ih =>
    obtain ⟨j, v⟩ := x
    by_cases hj : p j <;> by_cases h : j = k
    · subst h; simp [hj, tabFind]
    · simp [hj, h, ih, tabFind]
    · subst h; simp [hj, ih]
    · simp [hj, h, ih, tabFind]

/-- What a filter by key leaves at a key, read with a default. -/
theorem tabGet_filter {α : Type} (d : α) (t : Tab α) (p : Nat → Bool) (k : Nat) :
    tabGet d (t.filter (fun x => p x.1)) k = if p k then tabGet d t k else d := by
  simp only [tabGet, tabFind_filter]
  split <;> simp

/-! ### Receiver resets -/

/-- Emitting a list changes only the record of what was emitted. -/
theorem emits_shape {α : Type} (l : List α) (f : α → Out) (s : State) :
    ∃ o, l.foldl (fun (s : State) a => s.emit (f a)) s = { s with out := o } := by
  induction l generalizing s with
  | nil => exact ⟨_, rfl⟩
  | cons a l ih =>
    obtain ⟨o, e⟩ := ih (s.emit (f a))
    exact ⟨o, e⟩

/-- Freeing memory changes external memory alone. -/
theorem lpFrees_shape {α : Type} (l : List α) (a n : α → Nat) (s : State) :
    ∃ m, l.foldl (fun (s : State) k => s.lpFree (a k) (n k)) s = { s with lp := m } := by
  induction l generalizing s with
  | nil => exact ⟨_, rfl⟩
  | cons x l ih =>
    obtain ⟨m, e⟩ := ih (s.lpFree (a x) (n x))
    exact ⟨m, e⟩

/-- Clearing the staging area changes its own fields, and the external memory that it held. -/
theorem State.clearStaging_shape (s : State) :
    ∃ m, s.clearStaging = { s with
      boot := { s.boot with stagingOwner := none, stagingTotal := 0, staging := [], stagingAt := none, pushed := [] }, lp := m } := by
  unfold State.clearStaging
  split <;> exact ⟨_, rfl⟩

/-- Freeing the copies of requests that are answered. -/
theorem State.freeCopies_shape (s : State) :
    ∃ cp m, s.freeCopies = { s with mbox := { s.mbox with copies := cp }, lp := m } := by
  unfold State.freeCopies
  extract_lets live
  obtain ⟨m, e⟩ := lpFrees_shape (s.mbox.copies.filter (fun k => !live k)) (fun k => k.2.2.1) (fun k => k.2.2.2)
    (s.setMbox { s.mbox with copies := s.mbox.copies.filter live })
  exact ⟨_, m, e⟩

/-- What clearing the channels that meet `p` leaves: mailboxes, nonces and staged images of those channels, and the replies
that they still wait for, alone. -/
theorem State.clearChans_shape (s : State) (p : Nat → Bool) (mark tally : Bool) :
    ∃ d cp fb so st sg sa pu m wa se un o, s.clearChans p mark tally = { s with
      mbox := { s.mbox with
        win := (if mark then (List.range 40).filter (fun ch => p ch && s.untaken ch) else []).foldl
          (fun t ch => tabPut t ch { aborted := true }) (s.mbox.win.filter (fun w => !p w.1)),
        session := s.mbox.session.filter (fun x => !p x.1), gather := s.mbox.gather.filter (fun x => !p x.1),
        whole := s.mbox.whole.filter (fun x => !p x.1), ready := s.mbox.ready.filter (fun x => !p x.1),
        taken := s.mbox.taken.filter (fun r => !p r.ch), discarded := d, copies := cp },
      boot := { s.boot with
        nonces := s.boot.nonces.filter (fun x => !p x.1), flashBusy := fb, stagingOwner := so, stagingTotal := st,
        staging := sg, stagingAt := sa, pushed := pu },
      lp := m, pair := { s.pair with wanted := wa, sent := se, unsent := un }, out := o } := by
  have hc : ∀ (c : Bool) (u : State), ∃ so st sg sa pu m, (if c = true then u.clearStaging else u) = { u with
      boot := { u.boot with stagingOwner := so, stagingTotal := st, staging := sg, stagingAt := sa, pushed := pu }, lp := m } := by
    intro c u
    cases c
    · exact ⟨_, _, _, _, _, _, rfl⟩
    · obtain ⟨m, e⟩ := u.clearStaging_shape
      exact ⟨_, _, _, _, _, m, e⟩
  unfold State.clearChans
  extract_lets mb lost marked ibis win s1 staged s2 src s3
  obtain ⟨so, st, sg, sa, pu, m, e2⟩ := hc staged s1
  obtain ⟨cp, m2, e4⟩ := (s3.forgetReplies p).freeCopies_shape
  obtain ⟨o, e⟩ := emits_shape ibis (fun ch => .ibi (ch - 32)) (s3.forgetReplies p).freeCopies
  rw [e, e4]
  have e2 : s2 = _ := e2
  clear e e4 hc
  clear_value s2 staged ibis
  subst e2
  exact ⟨_, _, _, _, _, _, _, _, _, _, _, _, _, rfl⟩

/-! ### What the shared operations leave alone -/

@[simp] theorem State.emit_frame_pending (s : State) (o : Out) : (s.emit o).pending = s.pending := rfl
@[simp] theorem State.emit_frame_aon (s : State) (o : Out) : (s.emit o).aon = s.aon := rfl
@[simp] theorem State.emit_frame_pwr (s : State) (o : Out) : (s.emit o).pwr = s.pwr := rfl
@[simp] theorem State.emit_frame_clk (s : State) (o : Out) : (s.emit o).clk = s.clk := rfl
@[simp] theorem State.emit_frame_fuse (s : State) (o : Out) : (s.emit o).fuse = s.fuse := rfl
@[simp] theorem State.emit_frame_boot (s : State) (o : Out) : (s.emit o).boot = s.boot := rfl
@[simp] theorem State.emit_frame_pci (s : State) (o : Out) : (s.emit o).pci = s.pci := rfl
@[simp] theorem State.emit_frame_mbox (s : State) (o : Out) : (s.emit o).mbox = s.mbox := rfl
@[simp] theorem State.emit_frame_hq (s : State) (o : Out) : (s.emit o).hq = s.hq := rfl
@[simp] theorem State.emit_frame_hostMem (s : State) (o : Out) : (s.emit o).hostMem = s.hostMem := rfl
@[simp] theorem State.emit_frame_ctxs (s : State) (o : Out) : (s.emit o).ctxs = s.ctxs := rfl
@[simp] theorem State.emit_frame_sched (s : State) (o : Out) : (s.emit o).sched = s.sched := rfl
@[simp] theorem State.emit_frame_fab (s : State) (o : Out) : (s.emit o).fab = s.fab := rfl
@[simp] theorem State.emit_frame_lp (s : State) (o : Out) : (s.emit o).lp = s.lp := rfl
@[simp] theorem State.emit_frame_err (s : State) (o : Out) : (s.emit o).err = s.err := rfl
@[simp] theorem State.emit_frame_ports (s : State) (o : Out) : (s.emit o).ports = s.ports := rfl
@[simp] theorem State.emit_frame_intake (s : State) (o : Out) : (s.emit o).intake = s.intake := rfl
@[simp] theorem State.emit_frame_text (s : State) (o : Out) : (s.emit o).text = s.text := rfl
@[simp] theorem State.emit_frame_sten (s : State) (o : Out) : (s.emit o).sten = s.sten := rfl
@[simp] theorem State.emit_frame_read (s : State) (o : Out) : (s.emit o).read = s.read := rfl
@[simp] theorem State.emit_frame_ring (s : State) (o : Out) : (s.emit o).ring = s.ring := rfl
@[simp] theorem State.emit_frame_pair (s : State) (o : Out) : (s.emit o).pair = s.pair := rfl
@[simp] theorem State.emit_frame_free (s : State) (o : Out) : (s.emit o).free = s.free := rfl
@[simp] theorem State.raiseVec_frame_pending (s : State) (fn vec : Nat) : (s.raiseVec fn vec).pending = s.pending := by obtain ⟨_, _, e⟩ := State.raiseVec_shape s fn vec; rw [e]
@[simp] theorem State.raiseVec_frame_aon (s : State) (fn vec : Nat) : (s.raiseVec fn vec).aon = s.aon := by obtain ⟨_, _, e⟩ := State.raiseVec_shape s fn vec; rw [e]
@[simp] theorem State.raiseVec_frame_pwr (s : State) (fn vec : Nat) : (s.raiseVec fn vec).pwr = s.pwr := by obtain ⟨_, _, e⟩ := State.raiseVec_shape s fn vec; rw [e]
@[simp] theorem State.raiseVec_frame_clk (s : State) (fn vec : Nat) : (s.raiseVec fn vec).clk = s.clk := by obtain ⟨_, _, e⟩ := State.raiseVec_shape s fn vec; rw [e]
@[simp] theorem State.raiseVec_frame_fuse (s : State) (fn vec : Nat) : (s.raiseVec fn vec).fuse = s.fuse := by obtain ⟨_, _, e⟩ := State.raiseVec_shape s fn vec; rw [e]
@[simp] theorem State.raiseVec_frame_boot (s : State) (fn vec : Nat) : (s.raiseVec fn vec).boot = s.boot := by obtain ⟨_, _, e⟩ := State.raiseVec_shape s fn vec; rw [e]
@[simp] theorem State.raiseVec_frame_mbox (s : State) (fn vec : Nat) : (s.raiseVec fn vec).mbox = s.mbox := by obtain ⟨_, _, e⟩ := State.raiseVec_shape s fn vec; rw [e]
@[simp] theorem State.raiseVec_frame_hq (s : State) (fn vec : Nat) : (s.raiseVec fn vec).hq = s.hq := by obtain ⟨_, _, e⟩ := State.raiseVec_shape s fn vec; rw [e]
@[simp] theorem State.raiseVec_frame_hostMem (s : State) (fn vec : Nat) : (s.raiseVec fn vec).hostMem = s.hostMem := by obtain ⟨_, _, e⟩ := State.raiseVec_shape s fn vec; rw [e]
@[simp] theorem State.raiseVec_frame_ctxs (s : State) (fn vec : Nat) : (s.raiseVec fn vec).ctxs = s.ctxs := by obtain ⟨_, _, e⟩ := State.raiseVec_shape s fn vec; rw [e]
@[simp] theorem State.raiseVec_frame_sched (s : State) (fn vec : Nat) : (s.raiseVec fn vec).sched = s.sched := by obtain ⟨_, _, e⟩ := State.raiseVec_shape s fn vec; rw [e]
@[simp] theorem State.raiseVec_frame_fab (s : State) (fn vec : Nat) : (s.raiseVec fn vec).fab = s.fab := by obtain ⟨_, _, e⟩ := State.raiseVec_shape s fn vec; rw [e]
@[simp] theorem State.raiseVec_frame_lp (s : State) (fn vec : Nat) : (s.raiseVec fn vec).lp = s.lp := by obtain ⟨_, _, e⟩ := State.raiseVec_shape s fn vec; rw [e]
@[simp] theorem State.raiseVec_frame_err (s : State) (fn vec : Nat) : (s.raiseVec fn vec).err = s.err := by obtain ⟨_, _, e⟩ := State.raiseVec_shape s fn vec; rw [e]
@[simp] theorem State.raiseVec_frame_ports (s : State) (fn vec : Nat) : (s.raiseVec fn vec).ports = s.ports := by obtain ⟨_, _, e⟩ := State.raiseVec_shape s fn vec; rw [e]
@[simp] theorem State.raiseVec_frame_intake (s : State) (fn vec : Nat) : (s.raiseVec fn vec).intake = s.intake := by obtain ⟨_, _, e⟩ := State.raiseVec_shape s fn vec; rw [e]
@[simp] theorem State.raiseVec_frame_text (s : State) (fn vec : Nat) : (s.raiseVec fn vec).text = s.text := by obtain ⟨_, _, e⟩ := State.raiseVec_shape s fn vec; rw [e]
@[simp] theorem State.raiseVec_frame_sten (s : State) (fn vec : Nat) : (s.raiseVec fn vec).sten = s.sten := by obtain ⟨_, _, e⟩ := State.raiseVec_shape s fn vec; rw [e]
@[simp] theorem State.raiseVec_frame_read (s : State) (fn vec : Nat) : (s.raiseVec fn vec).read = s.read := by obtain ⟨_, _, e⟩ := State.raiseVec_shape s fn vec; rw [e]
@[simp] theorem State.raiseVec_frame_ring (s : State) (fn vec : Nat) : (s.raiseVec fn vec).ring = s.ring := by obtain ⟨_, _, e⟩ := State.raiseVec_shape s fn vec; rw [e]
@[simp] theorem State.raiseVec_frame_pair (s : State) (fn vec : Nat) : (s.raiseVec fn vec).pair = s.pair := by obtain ⟨_, _, e⟩ := State.raiseVec_shape s fn vec; rw [e]
@[simp] theorem State.raiseVec_frame_free (s : State) (fn vec : Nat) : (s.raiseVec fn vec).free = s.free := by obtain ⟨_, _, e⟩ := State.raiseVec_shape s fn vec; rw [e]
@[simp] theorem State.eventBit_frame_pending (s : State) (fn b : Nat) : (s.eventBit fn b).pending = s.pending := by obtain ⟨_, _, e⟩ := State.eventBit_shape s fn b; rw [e]
@[simp] theorem State.eventBit_frame_aon (s : State) (fn b : Nat) : (s.eventBit fn b).aon = s.aon := by obtain ⟨_, _, e⟩ := State.eventBit_shape s fn b; rw [e]
@[simp] theorem State.eventBit_frame_pwr (s : State) (fn b : Nat) : (s.eventBit fn b).pwr = s.pwr := by obtain ⟨_, _, e⟩ := State.eventBit_shape s fn b; rw [e]
@[simp] theorem State.eventBit_frame_clk (s : State) (fn b : Nat) : (s.eventBit fn b).clk = s.clk := by obtain ⟨_, _, e⟩ := State.eventBit_shape s fn b; rw [e]
@[simp] theorem State.eventBit_frame_fuse (s : State) (fn b : Nat) : (s.eventBit fn b).fuse = s.fuse := by obtain ⟨_, _, e⟩ := State.eventBit_shape s fn b; rw [e]
@[simp] theorem State.eventBit_frame_boot (s : State) (fn b : Nat) : (s.eventBit fn b).boot = s.boot := by obtain ⟨_, _, e⟩ := State.eventBit_shape s fn b; rw [e]
@[simp] theorem State.eventBit_frame_mbox (s : State) (fn b : Nat) : (s.eventBit fn b).mbox = s.mbox := by obtain ⟨_, _, e⟩ := State.eventBit_shape s fn b; rw [e]
@[simp] theorem State.eventBit_frame_hq (s : State) (fn b : Nat) : (s.eventBit fn b).hq = s.hq := by obtain ⟨_, _, e⟩ := State.eventBit_shape s fn b; rw [e]
@[simp] theorem State.eventBit_frame_hostMem (s : State) (fn b : Nat) : (s.eventBit fn b).hostMem = s.hostMem := by obtain ⟨_, _, e⟩ := State.eventBit_shape s fn b; rw [e]
@[simp] theorem State.eventBit_frame_ctxs (s : State) (fn b : Nat) : (s.eventBit fn b).ctxs = s.ctxs := by obtain ⟨_, _, e⟩ := State.eventBit_shape s fn b; rw [e]
@[simp] theorem State.eventBit_frame_sched (s : State) (fn b : Nat) : (s.eventBit fn b).sched = s.sched := by obtain ⟨_, _, e⟩ := State.eventBit_shape s fn b; rw [e]
@[simp] theorem State.eventBit_frame_fab (s : State) (fn b : Nat) : (s.eventBit fn b).fab = s.fab := by obtain ⟨_, _, e⟩ := State.eventBit_shape s fn b; rw [e]
@[simp] theorem State.eventBit_frame_lp (s : State) (fn b : Nat) : (s.eventBit fn b).lp = s.lp := by obtain ⟨_, _, e⟩ := State.eventBit_shape s fn b; rw [e]
@[simp] theorem State.eventBit_frame_err (s : State) (fn b : Nat) : (s.eventBit fn b).err = s.err := by obtain ⟨_, _, e⟩ := State.eventBit_shape s fn b; rw [e]
@[simp] theorem State.eventBit_frame_ports (s : State) (fn b : Nat) : (s.eventBit fn b).ports = s.ports := by obtain ⟨_, _, e⟩ := State.eventBit_shape s fn b; rw [e]
@[simp] theorem State.eventBit_frame_intake (s : State) (fn b : Nat) : (s.eventBit fn b).intake = s.intake := by obtain ⟨_, _, e⟩ := State.eventBit_shape s fn b; rw [e]
@[simp] theorem State.eventBit_frame_text (s : State) (fn b : Nat) : (s.eventBit fn b).text = s.text := by obtain ⟨_, _, e⟩ := State.eventBit_shape s fn b; rw [e]
@[simp] theorem State.eventBit_frame_sten (s : State) (fn b : Nat) : (s.eventBit fn b).sten = s.sten := by obtain ⟨_, _, e⟩ := State.eventBit_shape s fn b; rw [e]
@[simp] theorem State.eventBit_frame_read (s : State) (fn b : Nat) : (s.eventBit fn b).read = s.read := by obtain ⟨_, _, e⟩ := State.eventBit_shape s fn b; rw [e]
@[simp] theorem State.eventBit_frame_ring (s : State) (fn b : Nat) : (s.eventBit fn b).ring = s.ring := by obtain ⟨_, _, e⟩ := State.eventBit_shape s fn b; rw [e]
@[simp] theorem State.eventBit_frame_pair (s : State) (fn b : Nat) : (s.eventBit fn b).pair = s.pair := by obtain ⟨_, _, e⟩ := State.eventBit_shape s fn b; rw [e]
@[simp] theorem State.eventBit_frame_free (s : State) (fn b : Nat) : (s.eventBit fn b).free = s.free := by obtain ⟨_, _, e⟩ := State.eventBit_shape s fn b; rw [e]
@[simp] theorem State.event_frame_pending (s : State) (b : Nat) : (s.event b).pending = s.pending := by obtain ⟨_, _, e⟩ := State.event_shape s b; rw [e]
@[simp] theorem State.event_frame_aon (s : State) (b : Nat) : (s.event b).aon = s.aon := by obtain ⟨_, _, e⟩ := State.event_shape s b; rw [e]
@[simp] theorem State.event_frame_pwr (s : State) (b : Nat) : (s.event b).pwr = s.pwr := by obtain ⟨_, _, e⟩ := State.event_shape s b; rw [e]
@[simp] theorem State.event_frame_clk (s : State) (b : Nat) : (s.event b).clk = s.clk := by obtain ⟨_, _, e⟩ := State.event_shape s b; rw [e]
@[simp] theorem State.event_frame_fuse (s : State) (b : Nat) : (s.event b).fuse = s.fuse := by obtain ⟨_, _, e⟩ := State.event_shape s b; rw [e]
@[simp] theorem State.event_frame_boot (s : State) (b : Nat) : (s.event b).boot = s.boot := by obtain ⟨_, _, e⟩ := State.event_shape s b; rw [e]
@[simp] theorem State.event_frame_mbox (s : State) (b : Nat) : (s.event b).mbox = s.mbox := by obtain ⟨_, _, e⟩ := State.event_shape s b; rw [e]
@[simp] theorem State.event_frame_hq (s : State) (b : Nat) : (s.event b).hq = s.hq := by obtain ⟨_, _, e⟩ := State.event_shape s b; rw [e]
@[simp] theorem State.event_frame_hostMem (s : State) (b : Nat) : (s.event b).hostMem = s.hostMem := by obtain ⟨_, _, e⟩ := State.event_shape s b; rw [e]
@[simp] theorem State.event_frame_ctxs (s : State) (b : Nat) : (s.event b).ctxs = s.ctxs := by obtain ⟨_, _, e⟩ := State.event_shape s b; rw [e]
@[simp] theorem State.event_frame_sched (s : State) (b : Nat) : (s.event b).sched = s.sched := by obtain ⟨_, _, e⟩ := State.event_shape s b; rw [e]
@[simp] theorem State.event_frame_fab (s : State) (b : Nat) : (s.event b).fab = s.fab := by obtain ⟨_, _, e⟩ := State.event_shape s b; rw [e]
@[simp] theorem State.event_frame_lp (s : State) (b : Nat) : (s.event b).lp = s.lp := by obtain ⟨_, _, e⟩ := State.event_shape s b; rw [e]
@[simp] theorem State.event_frame_err (s : State) (b : Nat) : (s.event b).err = s.err := by obtain ⟨_, _, e⟩ := State.event_shape s b; rw [e]
@[simp] theorem State.event_frame_ports (s : State) (b : Nat) : (s.event b).ports = s.ports := by obtain ⟨_, _, e⟩ := State.event_shape s b; rw [e]
@[simp] theorem State.event_frame_intake (s : State) (b : Nat) : (s.event b).intake = s.intake := by obtain ⟨_, _, e⟩ := State.event_shape s b; rw [e]
@[simp] theorem State.event_frame_text (s : State) (b : Nat) : (s.event b).text = s.text := by obtain ⟨_, _, e⟩ := State.event_shape s b; rw [e]
@[simp] theorem State.event_frame_sten (s : State) (b : Nat) : (s.event b).sten = s.sten := by obtain ⟨_, _, e⟩ := State.event_shape s b; rw [e]
@[simp] theorem State.event_frame_read (s : State) (b : Nat) : (s.event b).read = s.read := by obtain ⟨_, _, e⟩ := State.event_shape s b; rw [e]
@[simp] theorem State.event_frame_ring (s : State) (b : Nat) : (s.event b).ring = s.ring := by obtain ⟨_, _, e⟩ := State.event_shape s b; rw [e]
@[simp] theorem State.event_frame_pair (s : State) (b : Nat) : (s.event b).pair = s.pair := by obtain ⟨_, _, e⟩ := State.event_shape s b; rw [e]
@[simp] theorem State.event_frame_free (s : State) (b : Nat) : (s.event b).free = s.free := by obtain ⟨_, _, e⟩ := State.event_shape s b; rw [e]
@[simp] theorem State.putErr_frame_pending (s : State) (x : Errors) : (s.putErr x).pending = s.pending := by obtain ⟨_, _, _, _, e⟩ := State.putErr_shape s x; rw [e]
@[simp] theorem State.putErr_frame_aon (s : State) (x : Errors) : (s.putErr x).aon = s.aon := by obtain ⟨_, _, _, _, e⟩ := State.putErr_shape s x; rw [e]
@[simp] theorem State.putErr_frame_pwr (s : State) (x : Errors) : (s.putErr x).pwr = s.pwr := by obtain ⟨_, _, _, _, e⟩ := State.putErr_shape s x; rw [e]
@[simp] theorem State.putErr_frame_clk (s : State) (x : Errors) : (s.putErr x).clk = s.clk := by obtain ⟨_, _, _, _, e⟩ := State.putErr_shape s x; rw [e]
@[simp] theorem State.putErr_frame_fuse (s : State) (x : Errors) : (s.putErr x).fuse = s.fuse := by obtain ⟨_, _, _, _, e⟩ := State.putErr_shape s x; rw [e]
@[simp] theorem State.putErr_frame_boot (s : State) (x : Errors) : (s.putErr x).boot = s.boot := by obtain ⟨_, _, _, _, e⟩ := State.putErr_shape s x; rw [e]
@[simp] theorem State.putErr_frame_mbox (s : State) (x : Errors) : (s.putErr x).mbox = s.mbox := by obtain ⟨_, _, _, _, e⟩ := State.putErr_shape s x; rw [e]
@[simp] theorem State.putErr_frame_hq (s : State) (x : Errors) : (s.putErr x).hq = s.hq := by obtain ⟨_, _, _, _, e⟩ := State.putErr_shape s x; rw [e]
@[simp] theorem State.putErr_frame_hostMem (s : State) (x : Errors) : (s.putErr x).hostMem = s.hostMem := by obtain ⟨_, _, _, _, e⟩ := State.putErr_shape s x; rw [e]
@[simp] theorem State.putErr_frame_ctxs (s : State) (x : Errors) : (s.putErr x).ctxs = s.ctxs := by obtain ⟨_, _, _, _, e⟩ := State.putErr_shape s x; rw [e]
@[simp] theorem State.putErr_frame_sched (s : State) (x : Errors) : (s.putErr x).sched = s.sched := by obtain ⟨_, _, _, _, e⟩ := State.putErr_shape s x; rw [e]
@[simp] theorem State.putErr_frame_fab (s : State) (x : Errors) : (s.putErr x).fab = s.fab := by obtain ⟨_, _, _, _, e⟩ := State.putErr_shape s x; rw [e]
@[simp] theorem State.putErr_frame_lp (s : State) (x : Errors) : (s.putErr x).lp = s.lp := by obtain ⟨_, _, _, _, e⟩ := State.putErr_shape s x; rw [e]
@[simp] theorem State.putErr_frame_ports (s : State) (x : Errors) : (s.putErr x).ports = s.ports := by obtain ⟨_, _, _, _, e⟩ := State.putErr_shape s x; rw [e]
@[simp] theorem State.putErr_frame_intake (s : State) (x : Errors) : (s.putErr x).intake = s.intake := by obtain ⟨_, _, _, _, e⟩ := State.putErr_shape s x; rw [e]
@[simp] theorem State.putErr_frame_text (s : State) (x : Errors) : (s.putErr x).text = s.text := by obtain ⟨_, _, _, _, e⟩ := State.putErr_shape s x; rw [e]
@[simp] theorem State.putErr_frame_sten (s : State) (x : Errors) : (s.putErr x).sten = s.sten := by obtain ⟨_, _, _, _, e⟩ := State.putErr_shape s x; rw [e]
@[simp] theorem State.putErr_frame_read (s : State) (x : Errors) : (s.putErr x).read = s.read := by obtain ⟨_, _, _, _, e⟩ := State.putErr_shape s x; rw [e]
@[simp] theorem State.putErr_frame_ring (s : State) (x : Errors) : (s.putErr x).ring = s.ring := by obtain ⟨_, _, _, _, e⟩ := State.putErr_shape s x; rw [e]
@[simp] theorem State.putErr_frame_pair (s : State) (x : Errors) : (s.putErr x).pair = s.pair := by obtain ⟨_, _, _, _, e⟩ := State.putErr_shape s x; rw [e]
@[simp] theorem State.putErr_frame_free (s : State) (x : Errors) : (s.putErr x).free = s.free := by obtain ⟨_, _, _, _, e⟩ := State.putErr_shape s x; rw [e]
@[simp] theorem State.pme_frame_pending (s : State) : s.pme.pending = s.pending := by obtain ⟨_, _, e⟩ := State.pme_shape s; rw [e]
@[simp] theorem State.pme_frame_aon (s : State) : s.pme.aon = s.aon := by obtain ⟨_, _, e⟩ := State.pme_shape s; rw [e]
@[simp] theorem State.pme_frame_clk (s : State) : s.pme.clk = s.clk := by obtain ⟨_, _, e⟩ := State.pme_shape s; rw [e]
@[simp] theorem State.pme_frame_fuse (s : State) : s.pme.fuse = s.fuse := by obtain ⟨_, _, e⟩ := State.pme_shape s; rw [e]
@[simp] theorem State.pme_frame_boot (s : State) : s.pme.boot = s.boot := by obtain ⟨_, _, e⟩ := State.pme_shape s; rw [e]
@[simp] theorem State.pme_frame_pci (s : State) : s.pme.pci = s.pci := by obtain ⟨_, _, e⟩ := State.pme_shape s; rw [e]
@[simp] theorem State.pme_frame_mbox (s : State) : s.pme.mbox = s.mbox := by obtain ⟨_, _, e⟩ := State.pme_shape s; rw [e]
@[simp] theorem State.pme_frame_hq (s : State) : s.pme.hq = s.hq := by obtain ⟨_, _, e⟩ := State.pme_shape s; rw [e]
@[simp] theorem State.pme_frame_hostMem (s : State) : s.pme.hostMem = s.hostMem := by obtain ⟨_, _, e⟩ := State.pme_shape s; rw [e]
@[simp] theorem State.pme_frame_ctxs (s : State) : s.pme.ctxs = s.ctxs := by obtain ⟨_, _, e⟩ := State.pme_shape s; rw [e]
@[simp] theorem State.pme_frame_sched (s : State) : s.pme.sched = s.sched := by obtain ⟨_, _, e⟩ := State.pme_shape s; rw [e]
@[simp] theorem State.pme_frame_fab (s : State) : s.pme.fab = s.fab := by obtain ⟨_, _, e⟩ := State.pme_shape s; rw [e]
@[simp] theorem State.pme_frame_lp (s : State) : s.pme.lp = s.lp := by obtain ⟨_, _, e⟩ := State.pme_shape s; rw [e]
@[simp] theorem State.pme_frame_err (s : State) : s.pme.err = s.err := by obtain ⟨_, _, e⟩ := State.pme_shape s; rw [e]
@[simp] theorem State.pme_frame_ports (s : State) : s.pme.ports = s.ports := by obtain ⟨_, _, e⟩ := State.pme_shape s; rw [e]
@[simp] theorem State.pme_frame_intake (s : State) : s.pme.intake = s.intake := by obtain ⟨_, _, e⟩ := State.pme_shape s; rw [e]
@[simp] theorem State.pme_frame_text (s : State) : s.pme.text = s.text := by obtain ⟨_, _, e⟩ := State.pme_shape s; rw [e]
@[simp] theorem State.pme_frame_sten (s : State) : s.pme.sten = s.sten := by obtain ⟨_, _, e⟩ := State.pme_shape s; rw [e]
@[simp] theorem State.pme_frame_read (s : State) : s.pme.read = s.read := by obtain ⟨_, _, e⟩ := State.pme_shape s; rw [e]
@[simp] theorem State.pme_frame_ring (s : State) : s.pme.ring = s.ring := by obtain ⟨_, _, e⟩ := State.pme_shape s; rw [e]
@[simp] theorem State.pme_frame_pair (s : State) : s.pme.pair = s.pair := by obtain ⟨_, _, e⟩ := State.pme_shape s; rw [e]
@[simp] theorem State.pme_frame_free (s : State) : s.pme.free = s.free := by obtain ⟨_, _, e⟩ := State.pme_shape s; rw [e]
@[simp] theorem State.leaveIdle_frame_pending (s : State) : s.leaveIdle.pending = s.pending := by rw [State.leaveIdle_eq]
@[simp] theorem State.leaveIdle_frame_aon (s : State) : s.leaveIdle.aon = s.aon := by rw [State.leaveIdle_eq]
@[simp] theorem State.leaveIdle_frame_clk (s : State) : s.leaveIdle.clk = s.clk := by rw [State.leaveIdle_eq]
@[simp] theorem State.leaveIdle_frame_fuse (s : State) : s.leaveIdle.fuse = s.fuse := by rw [State.leaveIdle_eq]
@[simp] theorem State.leaveIdle_frame_boot (s : State) : s.leaveIdle.boot = s.boot := by rw [State.leaveIdle_eq]
@[simp] theorem State.leaveIdle_frame_pci (s : State) : s.leaveIdle.pci = s.pci := by rw [State.leaveIdle_eq]
@[simp] theorem State.leaveIdle_frame_mbox (s : State) : s.leaveIdle.mbox = s.mbox := by rw [State.leaveIdle_eq]
@[simp] theorem State.leaveIdle_frame_hq (s : State) : s.leaveIdle.hq = s.hq := by rw [State.leaveIdle_eq]
@[simp] theorem State.leaveIdle_frame_hostMem (s : State) : s.leaveIdle.hostMem = s.hostMem := by rw [State.leaveIdle_eq]
@[simp] theorem State.leaveIdle_frame_ctxs (s : State) : s.leaveIdle.ctxs = s.ctxs := by rw [State.leaveIdle_eq]
@[simp] theorem State.leaveIdle_frame_sched (s : State) : s.leaveIdle.sched = s.sched := by rw [State.leaveIdle_eq]
@[simp] theorem State.leaveIdle_frame_fab (s : State) : s.leaveIdle.fab = s.fab := by rw [State.leaveIdle_eq]
@[simp] theorem State.leaveIdle_frame_lp (s : State) : s.leaveIdle.lp = s.lp := by rw [State.leaveIdle_eq]
@[simp] theorem State.leaveIdle_frame_err (s : State) : s.leaveIdle.err = s.err := by rw [State.leaveIdle_eq]
@[simp] theorem State.leaveIdle_frame_ports (s : State) : s.leaveIdle.ports = s.ports := by rw [State.leaveIdle_eq]
@[simp] theorem State.leaveIdle_frame_intake (s : State) : s.leaveIdle.intake = s.intake := by rw [State.leaveIdle_eq]
@[simp] theorem State.leaveIdle_frame_text (s : State) : s.leaveIdle.text = s.text := by rw [State.leaveIdle_eq]
@[simp] theorem State.leaveIdle_frame_sten (s : State) : s.leaveIdle.sten = s.sten := by rw [State.leaveIdle_eq]
@[simp] theorem State.leaveIdle_frame_read (s : State) : s.leaveIdle.read = s.read := by rw [State.leaveIdle_eq]
@[simp] theorem State.leaveIdle_frame_ring (s : State) : s.leaveIdle.ring = s.ring := by rw [State.leaveIdle_eq]
@[simp] theorem State.leaveIdle_frame_pair (s : State) : s.leaveIdle.pair = s.pair := by rw [State.leaveIdle_eq]
@[simp] theorem State.leaveIdle_frame_free (s : State) : s.leaveIdle.free = s.free := by rw [State.leaveIdle_eq]
@[simp] theorem State.leaveIdle_frame_out (s : State) : s.leaveIdle.out = s.out := by rw [State.leaveIdle_eq]
@[simp] theorem State.wake_frame_pending (s : State) (b : Nat) : (s.wake b).pending = s.pending := by obtain ⟨_, _, _, e⟩ := State.wake_shape s b; rw [e]
@[simp] theorem State.wake_frame_clk (s : State) (b : Nat) : (s.wake b).clk = s.clk := by obtain ⟨_, _, _, e⟩ := State.wake_shape s b; rw [e]
@[simp] theorem State.wake_frame_fuse (s : State) (b : Nat) : (s.wake b).fuse = s.fuse := by obtain ⟨_, _, _, e⟩ := State.wake_shape s b; rw [e]
@[simp] theorem State.wake_frame_boot (s : State) (b : Nat) : (s.wake b).boot = s.boot := by obtain ⟨_, _, _, e⟩ := State.wake_shape s b; rw [e]
@[simp] theorem State.wake_frame_pci (s : State) (b : Nat) : (s.wake b).pci = s.pci := by obtain ⟨_, _, _, e⟩ := State.wake_shape s b; rw [e]
@[simp] theorem State.wake_frame_mbox (s : State) (b : Nat) : (s.wake b).mbox = s.mbox := by obtain ⟨_, _, _, e⟩ := State.wake_shape s b; rw [e]
@[simp] theorem State.wake_frame_hq (s : State) (b : Nat) : (s.wake b).hq = s.hq := by obtain ⟨_, _, _, e⟩ := State.wake_shape s b; rw [e]
@[simp] theorem State.wake_frame_hostMem (s : State) (b : Nat) : (s.wake b).hostMem = s.hostMem := by obtain ⟨_, _, _, e⟩ := State.wake_shape s b; rw [e]
@[simp] theorem State.wake_frame_ctxs (s : State) (b : Nat) : (s.wake b).ctxs = s.ctxs := by obtain ⟨_, _, _, e⟩ := State.wake_shape s b; rw [e]
@[simp] theorem State.wake_frame_sched (s : State) (b : Nat) : (s.wake b).sched = s.sched := by obtain ⟨_, _, _, e⟩ := State.wake_shape s b; rw [e]
@[simp] theorem State.wake_frame_fab (s : State) (b : Nat) : (s.wake b).fab = s.fab := by obtain ⟨_, _, _, e⟩ := State.wake_shape s b; rw [e]
@[simp] theorem State.wake_frame_lp (s : State) (b : Nat) : (s.wake b).lp = s.lp := by obtain ⟨_, _, _, e⟩ := State.wake_shape s b; rw [e]
@[simp] theorem State.wake_frame_err (s : State) (b : Nat) : (s.wake b).err = s.err := by obtain ⟨_, _, _, e⟩ := State.wake_shape s b; rw [e]
@[simp] theorem State.wake_frame_ports (s : State) (b : Nat) : (s.wake b).ports = s.ports := by obtain ⟨_, _, _, e⟩ := State.wake_shape s b; rw [e]
@[simp] theorem State.wake_frame_intake (s : State) (b : Nat) : (s.wake b).intake = s.intake := by obtain ⟨_, _, _, e⟩ := State.wake_shape s b; rw [e]
@[simp] theorem State.wake_frame_text (s : State) (b : Nat) : (s.wake b).text = s.text := by obtain ⟨_, _, _, e⟩ := State.wake_shape s b; rw [e]
@[simp] theorem State.wake_frame_sten (s : State) (b : Nat) : (s.wake b).sten = s.sten := by obtain ⟨_, _, _, e⟩ := State.wake_shape s b; rw [e]
@[simp] theorem State.wake_frame_read (s : State) (b : Nat) : (s.wake b).read = s.read := by obtain ⟨_, _, _, e⟩ := State.wake_shape s b; rw [e]
@[simp] theorem State.wake_frame_ring (s : State) (b : Nat) : (s.wake b).ring = s.ring := by obtain ⟨_, _, _, e⟩ := State.wake_shape s b; rw [e]
@[simp] theorem State.wake_frame_pair (s : State) (b : Nat) : (s.wake b).pair = s.pair := by obtain ⟨_, _, _, e⟩ := State.wake_shape s b; rw [e]
@[simp] theorem State.feedHolds_frame_pending (s : State) : s.feedHolds.pending = s.pending := by obtain ⟨_, _, e⟩ := State.feedHolds_shape s; rw [e]
@[simp] theorem State.feedHolds_frame_aon (s : State) : s.feedHolds.aon = s.aon := by obtain ⟨_, _, e⟩ := State.feedHolds_shape s; rw [e]
@[simp] theorem State.feedHolds_frame_pwr (s : State) : s.feedHolds.pwr = s.pwr := by obtain ⟨_, _, e⟩ := State.feedHolds_shape s; rw [e]
@[simp] theorem State.feedHolds_frame_clk (s : State) : s.feedHolds.clk = s.clk := by obtain ⟨_, _, e⟩ := State.feedHolds_shape s; rw [e]
@[simp] theorem State.feedHolds_frame_fuse (s : State) : s.feedHolds.fuse = s.fuse := by obtain ⟨_, _, e⟩ := State.feedHolds_shape s; rw [e]
@[simp] theorem State.feedHolds_frame_boot (s : State) : s.feedHolds.boot = s.boot := by obtain ⟨_, _, e⟩ := State.feedHolds_shape s; rw [e]
@[simp] theorem State.feedHolds_frame_pci (s : State) : s.feedHolds.pci = s.pci := by obtain ⟨_, _, e⟩ := State.feedHolds_shape s; rw [e]
@[simp] theorem State.feedHolds_frame_mbox (s : State) : s.feedHolds.mbox = s.mbox := by obtain ⟨_, _, e⟩ := State.feedHolds_shape s; rw [e]
@[simp] theorem State.feedHolds_frame_hq (s : State) : s.feedHolds.hq = s.hq := by obtain ⟨_, _, e⟩ := State.feedHolds_shape s; rw [e]
@[simp] theorem State.feedHolds_frame_hostMem (s : State) : s.feedHolds.hostMem = s.hostMem := by obtain ⟨_, _, e⟩ := State.feedHolds_shape s; rw [e]
@[simp] theorem State.feedHolds_frame_ctxs (s : State) : s.feedHolds.ctxs = s.ctxs := by obtain ⟨_, _, e⟩ := State.feedHolds_shape s; rw [e]
@[simp] theorem State.feedHolds_frame_sched (s : State) : s.feedHolds.sched = s.sched := by obtain ⟨_, _, e⟩ := State.feedHolds_shape s; rw [e]
@[simp] theorem State.feedHolds_frame_fab (s : State) : s.feedHolds.fab = s.fab := by obtain ⟨_, _, e⟩ := State.feedHolds_shape s; rw [e]
@[simp] theorem State.feedHolds_frame_lp (s : State) : s.feedHolds.lp = s.lp := by obtain ⟨_, _, e⟩ := State.feedHolds_shape s; rw [e]
@[simp] theorem State.feedHolds_frame_err (s : State) : s.feedHolds.err = s.err := by obtain ⟨_, _, e⟩ := State.feedHolds_shape s; rw [e]
@[simp] theorem State.feedHolds_frame_intake (s : State) : s.feedHolds.intake = s.intake := by obtain ⟨_, _, e⟩ := State.feedHolds_shape s; rw [e]
@[simp] theorem State.feedHolds_frame_text (s : State) : s.feedHolds.text = s.text := by obtain ⟨_, _, e⟩ := State.feedHolds_shape s; rw [e]
@[simp] theorem State.feedHolds_frame_sten (s : State) : s.feedHolds.sten = s.sten := by obtain ⟨_, _, e⟩ := State.feedHolds_shape s; rw [e]
@[simp] theorem State.feedHolds_frame_read (s : State) : s.feedHolds.read = s.read := by obtain ⟨_, _, e⟩ := State.feedHolds_shape s; rw [e]
@[simp] theorem State.feedHolds_frame_ring (s : State) : s.feedHolds.ring = s.ring := by obtain ⟨_, _, e⟩ := State.feedHolds_shape s; rw [e]
@[simp] theorem State.feedHolds_frame_pair (s : State) : s.feedHolds.pair = s.pair := by obtain ⟨_, _, e⟩ := State.feedHolds_shape s; rw [e]
@[simp] theorem State.feedHolds_frame_free (s : State) : s.feedHolds.free = s.free := by obtain ⟨_, _, e⟩ := State.feedHolds_shape s; rw [e]
@[simp] theorem State.clearChans_frame_pending (s : State) (p : Nat → Bool) (mark tally : Bool) : (s.clearChans p mark tally).pending = s.pending := by obtain ⟨_, _, _, _, _, _, _, _, _, _, _, _, _, e⟩ := State.clearChans_shape s p mark tally; rw [e]
@[simp] theorem State.clearChans_frame_aon (s : State) (p : Nat → Bool) (mark tally : Bool) : (s.clearChans p mark tally).aon = s.aon := by obtain ⟨_, _, _, _, _, _, _, _, _, _, _, _, _, e⟩ := State.clearChans_shape s p mark tally; rw [e]
@[simp] theorem State.clearChans_frame_pwr (s : State) (p : Nat → Bool) (mark tally : Bool) : (s.clearChans p mark tally).pwr = s.pwr := by obtain ⟨_, _, _, _, _, _, _, _, _, _, _, _, _, e⟩ := State.clearChans_shape s p mark tally; rw [e]
@[simp] theorem State.clearChans_frame_clk (s : State) (p : Nat → Bool) (mark tally : Bool) : (s.clearChans p mark tally).clk = s.clk := by obtain ⟨_, _, _, _, _, _, _, _, _, _, _, _, _, e⟩ := State.clearChans_shape s p mark tally; rw [e]
@[simp] theorem State.clearChans_frame_fuse (s : State) (p : Nat → Bool) (mark tally : Bool) : (s.clearChans p mark tally).fuse = s.fuse := by obtain ⟨_, _, _, _, _, _, _, _, _, _, _, _, _, e⟩ := State.clearChans_shape s p mark tally; rw [e]
@[simp] theorem State.clearChans_frame_pci (s : State) (p : Nat → Bool) (mark tally : Bool) : (s.clearChans p mark tally).pci = s.pci := by obtain ⟨_, _, _, _, _, _, _, _, _, _, _, _, _, e⟩ := State.clearChans_shape s p mark tally; rw [e]
@[simp] theorem State.clearChans_frame_hq (s : State) (p : Nat → Bool) (mark tally : Bool) : (s.clearChans p mark tally).hq = s.hq := by obtain ⟨_, _, _, _, _, _, _, _, _, _, _, _, _, e⟩ := State.clearChans_shape s p mark tally; rw [e]
@[simp] theorem State.clearChans_frame_hostMem (s : State) (p : Nat → Bool) (mark tally : Bool) : (s.clearChans p mark tally).hostMem = s.hostMem := by obtain ⟨_, _, _, _, _, _, _, _, _, _, _, _, _, e⟩ := State.clearChans_shape s p mark tally; rw [e]
@[simp] theorem State.clearChans_frame_ctxs (s : State) (p : Nat → Bool) (mark tally : Bool) : (s.clearChans p mark tally).ctxs = s.ctxs := by obtain ⟨_, _, _, _, _, _, _, _, _, _, _, _, _, e⟩ := State.clearChans_shape s p mark tally; rw [e]
@[simp] theorem State.clearChans_frame_sched (s : State) (p : Nat → Bool) (mark tally : Bool) : (s.clearChans p mark tally).sched = s.sched := by obtain ⟨_, _, _, _, _, _, _, _, _, _, _, _, _, e⟩ := State.clearChans_shape s p mark tally; rw [e]
@[simp] theorem State.clearChans_frame_fab (s : State) (p : Nat → Bool) (mark tally : Bool) : (s.clearChans p mark tally).fab = s.fab := by obtain ⟨_, _, _, _, _, _, _, _, _, _, _, _, _, e⟩ := State.clearChans_shape s p mark tally; rw [e]
@[simp] theorem State.clearChans_frame_err (s : State) (p : Nat → Bool) (mark tally : Bool) : (s.clearChans p mark tally).err = s.err := by obtain ⟨_, _, _, _, _, _, _, _, _, _, _, _, _, e⟩ := State.clearChans_shape s p mark tally; rw [e]
@[simp] theorem State.clearChans_frame_ports (s : State) (p : Nat → Bool) (mark tally : Bool) : (s.clearChans p mark tally).ports = s.ports := by obtain ⟨_, _, _, _, _, _, _, _, _, _, _, _, _, e⟩ := State.clearChans_shape s p mark tally; rw [e]
@[simp] theorem State.clearChans_frame_intake (s : State) (p : Nat → Bool) (mark tally : Bool) : (s.clearChans p mark tally).intake = s.intake := by obtain ⟨_, _, _, _, _, _, _, _, _, _, _, _, _, e⟩ := State.clearChans_shape s p mark tally; rw [e]
@[simp] theorem State.clearChans_frame_text (s : State) (p : Nat → Bool) (mark tally : Bool) : (s.clearChans p mark tally).text = s.text := by obtain ⟨_, _, _, _, _, _, _, _, _, _, _, _, _, e⟩ := State.clearChans_shape s p mark tally; rw [e]
@[simp] theorem State.clearChans_frame_sten (s : State) (p : Nat → Bool) (mark tally : Bool) : (s.clearChans p mark tally).sten = s.sten := by obtain ⟨_, _, _, _, _, _, _, _, _, _, _, _, _, e⟩ := State.clearChans_shape s p mark tally; rw [e]
@[simp] theorem State.clearChans_frame_read (s : State) (p : Nat → Bool) (mark tally : Bool) : (s.clearChans p mark tally).read = s.read := by obtain ⟨_, _, _, _, _, _, _, _, _, _, _, _, _, e⟩ := State.clearChans_shape s p mark tally; rw [e]
@[simp] theorem State.clearChans_frame_ring (s : State) (p : Nat → Bool) (mark tally : Bool) : (s.clearChans p mark tally).ring = s.ring := by obtain ⟨_, _, _, _, _, _, _, _, _, _, _, _, _, e⟩ := State.clearChans_shape s p mark tally; rw [e]
@[simp] theorem State.clearChans_frame_free (s : State) (p : Nat → Bool) (mark tally : Bool) : (s.clearChans p mark tally).free = s.free := by obtain ⟨_, _, _, _, _, _, _, _, _, _, _, _, _, e⟩ := State.clearChans_shape s p mark tally; rw [e]

@[simp] theorem State.putErr_err (s : State) (x : Errors) : (s.putErr x).err = x := by
  obtain ⟨_, _, _, _, e⟩ := State.putErr_shape s x; rw [e]

/-- Fields of the function registers that an event leaves. -/
theorem State.event_pci (s : State) (b : Nat) : ∃ x y p, (s.event b).pci = { s.pci with evStatus0 := x, evStatus1 := y, pend := p } := by
  obtain ⟨_, _, e⟩ := State.event_shape s b; rw [e]; exact ⟨_, _, _, rfl⟩

/-- Fields of the function registers that a change of the error state leaves. -/
theorem State.putErr_pci (s : State) (e : Errors) : ∃ x y p, (s.putErr e).pci = { s.pci with evStatus0 := x, evStatus1 := y, pend := p } := by
  obtain ⟨_, _, _, _, h⟩ := State.putErr_shape s e; rw [h]; exact ⟨_, _, _, rfl⟩

/-- What a receiver reset leaves of the mailboxes. -/
theorem State.clearChans_mbox (s : State) (p : Nat → Bool) (mark tally : Bool) : ∃ d cp, (s.clearChans p mark tally).mbox =
    { s.mbox with
        win := (if mark then (List.range 40).filter (fun ch => p ch && s.untaken ch) else []).foldl
          (fun t ch => tabPut t ch { aborted := true }) (s.mbox.win.filter (fun w => !p w.1)),
        session := s.mbox.session.filter (fun x => !p x.1), gather := s.mbox.gather.filter (fun x => !p x.1),
        whole := s.mbox.whole.filter (fun x => !p x.1), ready := s.mbox.ready.filter (fun x => !p x.1),
        taken := s.mbox.taken.filter (fun r => !p r.ch), discarded := d, copies := cp } := by
  obtain ⟨_, _, _, _, _, _, _, _, _, _, _, _, _, e⟩ := State.clearChans_shape s p mark tally; rw [e]; exact ⟨_, _, rfl⟩

/-- What a receiver reset leaves of boot and trust. -/
theorem State.clearChans_boot (s : State) (p : Nat → Bool) (mark tally : Bool) : ∃ fb so st sg sa pu, (s.clearChans p mark tally).boot =
    { s.boot with
        nonces := s.boot.nonces.filter (fun x => !p x.1), flashBusy := fb, stagingOwner := so, stagingTotal := st,
        staging := sg, stagingAt := sa, pushed := pu } := by
  obtain ⟨_, _, _, _, _, _, _, _, _, _, _, _, _, e⟩ := State.clearChans_shape s p mark tally; rw [e]; exact ⟨_, _, _, _, _, _, rfl⟩

end Sys2Proof.Machine
end

