-- ==== Sys2Proof/Laws/Requests.lean ====
section
/-! SUPPORT. Laws/Requests.lean: what the shared path of every MHP request does with a request that passes the checks of
R377, and what a reply leaves. -/

namespace Sys2Proof.Machine

open Sys2Proof.Safety

/-- Taking a message and using its number, as one record update. -/
theorem asked_eq (s : State) (ch : Nat) : (s.takeMsg ch).nextReq ch = asked s ch := by
  simp only [State.takeMsg, State.leaveIdle_eq, State.nextReq, asked]
  rfl

/-- A request that passes the checks reaches its handler. -/
theorem State.onMsg_asks {s : State} {ch op : Nat} {p : Bytes} {x : Session} (h : Asks s ch op p x) (sel : Bytes → Bool)
    (ctxOf : State → Bytes → Option Nat) (named : State → Nat → Bytes → Bool) (fmt : Bytes → Bool)
    (run : State → Request → State) (h1 : sel p = true) (h2 : named (asked s ch) ch p = true) (h3 : fmt p = true) :
    s.onMsg ch op sel ctxOf named fmt run =
      (asked s ch).begin { ch := ch, seq := x.nextSeq, opcode := op, payload := p, ctx := ctxOf (asked s ch) p } run := by
  obtain ⟨a1, a2, a3, a4, a5, a6, a7, a8, a9, a10, a11, a12⟩ := h
  have hm : s.msg ch = ((s.msg ch).1, p) := by rw [← a2]
  have ho : (asked s ch).opCheck ch x.minor op = stOK := a7
  have hs : tabFind (s.takeMsg ch).mbox.session ch = some x := by
    simp only [State.takeMsg, State.leaveIdle_eq, State.putWin, State.setMbox]; exact a4
  unfold State.onMsg
  rw [hm]
  simp only [a1, a3, h1, a11, a12, hs, a5, a6, asked_eq, ho, h2, a8, a9, a10, h3]
  simp

/-- A request that names what is not the session's, or whose payload is out of range, is answered FORMAT. -/
theorem State.onMsg_refused {s : State} {ch op : Nat} {p : Bytes} {x : Session} (h : Asks s ch op p x) (sel : Bytes → Bool)
    (ctxOf : State → Bytes → Option Nat) (named : State → Nat → Bytes → Bool) (fmt : Bytes → Bool)
    (run : State → Request → State) (h1 : sel p = true) (h2 : named (asked s ch) ch p = false ∨ fmt p = false) :
    s.onMsg ch op sel ctxOf named fmt run = refused s ch x.nextSeq op stFormat := by
  obtain ⟨a1, a2, a3, a4, a5, a6, a7, a8, a9, a10, a11, a12⟩ := h
  have hm : s.msg ch = ((s.msg ch).1, p) := by rw [← a2]
  have ho : (asked s ch).opCheck ch x.minor op = stOK := a7
  have hs : tabFind (s.takeMsg ch).mbox.session ch = some x := by
    simp only [State.takeMsg, State.leaveIdle_eq, State.putWin, State.setMbox]; exact a4
  unfold State.onMsg
  rw [hm]
  simp only [a1, a3, h1, a11, a12, hs, a5, a6, asked_eq, ho, a8, a9, a10]
  have key : (asked s ch).refuse ch x.nextSeq op stFormat = refused s ch x.nextSeq op stFormat := by
    unfold State.refuse refused
    dsimp only
    split <;> rfl
  rcases h2 with h2 | h2 <;> simp [h2, key]

/-- A secure request that came in one piece reaches its handler. -/
theorem State.onSecure_asks {s : State} {ch op : Nat} {p : Bytes} {x : Session} (h : Asks s ch op p x) (hc : 32 ≤ ch)
    (fmt : Bytes → Bool) (run : State → Request → State) (h3 : fmt p = true) :
    s.onSecure ch op fmt run =
      (asked s ch).begin { ch := ch, seq := x.nextSeq, opcode := op, payload := p, ctx := none } run := by
  have h' := h
  obtain ⟨a1, a2, a3, a4, a5, a6, a7, a8, a9, a10, a11, a12⟩ := h'
  have hw : tabFind s.mbox.whole ch = none := by
    simpa [tabHas] using a12
  have : ¬ ch < 32 := by omega
  simp only [State.onSecure, this, hw, a9, if_false, Bool.false_eq_true]
  exact State.onMsg_asks h _ _ _ _ _ rfl rfl h3

/-- The reply of a request that has just been taken. -/
theorem reply_begun (t : State) (r : Request) (status : Nat) (payload : Bytes) :
    (t.setMbox { t.mbox with taken := t.mbox.taken ++ [r] }).answer r status payload =
      { t with mbox := { t.mbox with
          taken := t.mbox.taken.filter (fun q => !(q.ch == r.ch && q.seq == r.seq)),
          ready := tabMod [] t.mbox.ready r.ch (insertReady
            { opcode := r.opcode, reply := true, status := status, seq := r.seq, payload := payload, key := 0, frag := 0,
              ready := t.clk.time }) } } := by
  simp [State.answer, State.reply, State.setMbox, List.filter_append]

/-- A request that is answered at once. -/
theorem begin_answer (s : State) (ch seq op : Nat) (p : Bytes) (ctx : Option Nat) (status : Nat) (payload : Bytes) :
    (asked s ch).begin { ch := ch, seq := seq, opcode := op, payload := p, ctx := ctx } (fun s r => s.answer r status payload) =
      replied s ch seq op status payload := by
  simp only [State.begin, reply_begun]
  rfl

/-- While the device does not mirror, a reply about a context is an ordinary reply. -/
theorem State.answerCtx_eq (s : State) (r : Request) (c st : Nat) (pl : Bytes) (h : s.mirroring = false) :
    s.answerCtx r c st pl = s.answer r st pl := by
  unfold State.answerCtx State.replyMirrored
  split
  · simp [h, State.answer]
  · rfl

/-- While the device does not mirror, a reply that mirrors is an ordinary reply. -/
theorem State.replyMirrored_eq (s : State) (ch seq op st : Nat) (pl : Bytes) (ms : List MirrorMsg) (h : s.mirroring = false) :
    s.replyMirrored ch seq op st pl ms = s.reply ch seq op st pl := by
  unfold State.replyMirrored
  simp [h]

end Sys2Proof.Machine
end

