-- ==== Sys2Proof/Laws/RootIntake.lean ====
section
/-! SUPPORT. Laws/RootIntake.lean: of the shared operations, ports, items, text and stencil: what only the seal core, boot and resets change stays as it was. -/

namespace Sys2Proof.Machine

/-- What only the commands of the seal core, boot and reset change: the queue, the fuses, the boot stage, the image in the
retained region, and the staged image. -/
structure Root where
  pending : List Instr
  fuse : Fuses
  stage : Nat
  image : Option Bytes
  write : Option (Bool × Mem × Nat × Option Nat)
/-- That part of a state. -/
def State.root (s : State) : Root :=
  { pending := s.pending, fuse := s.fuse, stage := s.boot.stage, image := s.boot.image,
    write := s.boot.flashBusy.map (fun f => (f.2.2, s.boot.staging, s.boot.stagingTotal, s.boot.stagingAt)) }
/-- The boot record's share of it. -/
def Boot.root (b : Boot) : Nat × Option Bytes × Option (Bool × Mem × Nat × Option Nat) :=
  (b.stage, b.image, b.flashBusy.map (fun f => (f.2.2, b.staging, b.stagingTotal, b.stagingAt)))
theorem State.setAon_root (s : State) v : (s.setAon v).root = s.root := rfl
theorem State.setPwr_root (s : State) v : (s.setPwr v).root = s.root := rfl
theorem State.setClk_root (s : State) v : (s.setClk v).root = s.root := rfl
theorem State.setPci_root (s : State) v : (s.setPci v).root = s.root := rfl
theorem State.setMbox_root (s : State) v : (s.setMbox v).root = s.root := rfl
theorem State.setHq_root (s : State) v : (s.setHq v).root = s.root := rfl
theorem State.setHostMem_root (s : State) v : (s.setHostMem v).root = s.root := rfl
theorem State.setCtxs_root (s : State) v : (s.setCtxs v).root = s.root := rfl
theorem State.setSched_root (s : State) v : (s.setSched v).root = s.root := rfl
theorem State.setFab_root (s : State) v : (s.setFab v).root = s.root := rfl
theorem State.setLp_root (s : State) v : (s.setLp v).root = s.root := rfl
theorem State.setErr_root (s : State) v : (s.setErr v).root = s.root := rfl
theorem State.setPorts_root (s : State) v : (s.setPorts v).root = s.root := rfl
theorem State.setIntake_root (s : State) v : (s.setIntake v).root = s.root := rfl
theorem State.setText_root (s : State) v : (s.setText v).root = s.root := rfl
theorem State.setSten_root (s : State) v : (s.setSten v).root = s.root := rfl
theorem State.setRead_root (s : State) v : (s.setRead v).root = s.root := rfl
theorem State.setRing_root (s : State) v : (s.setRing v).root = s.root := rfl
theorem State.setPair_root (s : State) v : (s.setPair v).root = s.root := rfl
theorem State.setFree_root (s : State) v : (s.setFree v).root = s.root := rfl
theorem State.setOut_root (s : State) v : (s.setOut v).root = s.root := rfl
theorem State.setBoot_root {s : State} {v : Boot} (h : v.root = s.boot.root) : (s.setBoot v).root = s.root := by
  unfold Boot.root at h
  injection h with h1 h
  injection h with h2 h3
  unfold State.root State.setBoot
  dsimp only
  rw [h1, h2, h3]
theorem ite_root {c : Prop} [Decidable c] {a b : State} {r : Root} (ha : a.root = r) (hb : b.root = r) :
    (if c then a else b).root = r := by split <;> assumption
theorem ite_root1 {β : Type} {c : Prop} [Decidable c] {a b : State × β} {r : Root} (ha : a.1.root = r) (hb : b.1.root = r) :
    (if c then a else b).1.root = r := by split <;> assumption
theorem getD_root {o : Option State} {s : State} (h : ∀ t, o = some t → t.root = s.root) : (o.getD s).root = s.root := by
  cases o with
  | none => rfl
  | some t => exact h t rfl
theorem pair_root3 {β γ : Type} {p : β × γ × State} {t : State} {b : β} {c : γ} {r : Root}
    (h : p = (b, c, t)) (hp : p.2.2.root = r) : t.root = r := by rw [h] at hp; exact hp
theorem foldl_root {α : Type} {g : State → α → State} (h : ∀ s x, (g s x).root = s.root) (l : List α) (s : State) :
    (l.foldl g s).root = s.root := by
  induction l generalizing s with
  | nil => rfl
  | cons x r ih => exact (ih _).trans (h s x)
theorem foldl_root1 {α β : Type} {g : State × β → α → State × β} (h : ∀ p x, (g p x).1.root = p.1.root) (l : List α)
    (p : State × β) : (l.foldl g p).1.root = p.1.root := by
  induction l generalizing p with
  | nil => rfl
  | cons x r ih => exact (ih _).trans (h p x)
theorem optFold_root {α : Type} {f : State → α → Option State} {r : Root}
    (h : ∀ s x t, f s x = some t → t.root = s.root) (l : List α) (o : Option State) (ho : ∀ t, o = some t → t.root = r) :
    ∀ t, l.foldl (fun (o : Option State) x => o.bind (fun s => f s x)) o = some t → t.root = r := by
  induction l generalizing o with
  | nil => exact ho
  | cons x l ih =>
    intro t ht
    refine ih _ ?_ t ht
    intro u hu
    cases o with
    | none => cases hu
    | some s => exact (h s x u hu).trans (ho s rfl)
theorem pair_root {β : Type} {p : State × β} {t : State} {b : β} {r : Root}
    (h : p = (t, b)) (hp : p.1.root = r) : t.root = r := by rw [h] at hp; exact hp
theorem pair_root2 {β : Type} {p : β × State} {t : State} {b : β} {r : Root}
    (h : p = (b, t)) (hp : p.2.root = r) : t.root = r := by rw [h] at hp; exact hp

/-! ### Flags -/

theorem State.emit_root (s : State) (o : Out) : (State.emit s o).root = s.root := by
  unfold State.emit
  rfl
theorem State.setLink_root (s : State) (l : Nat) (x : Link) : (State.setLink s l x).root = s.root := by
  unfold State.setLink
  rfl
theorem State.sendOn_root (s : State) (l : Nat) (o : Out) : (State.sendOn s l o).root = s.root := by
  unfold State.sendOn
  repeat' (first | with_reducible rfl | simp only [↓State.emit_root, ↓State.setLink_root] | split)
theorem State.freeBit_root (s : State) : (State.freeBit s).2.root = s.root := by
  unfold State.freeBit
  rfl
theorem State.freeNat_root (s : State) : (State.freeNat s).2.root = s.root := by
  unfold State.freeNat
  rfl
theorem State.raiseVec_root (s : State) (fn vec : Nat) : (State.raiseVec s fn vec).root = s.root := by
  unfold State.raiseVec
  repeat' (first | with_reducible rfl | simp only [↓State.emit_root, ↓State.setPci_root] | split)
theorem State.eventBit_root (s : State) (fn b : Nat) : (State.eventBit s fn b).root = s.root := by
  unfold State.eventBit
  repeat' (first | with_reducible rfl | simp only [↓State.raiseVec_root, ↓State.setPci_root] | split)
theorem State.event_root (s : State) (b : Nat) : (State.event s b).root = s.root := by
  unfold State.event
  repeat' (first | with_reducible rfl | simp only [↓State.eventBit_root])
theorem State.putErr_root (s : State) (e : Errors) : (State.putErr s e).root = s.root := by
  unfold State.putErr
  repeat' (first | with_reducible rfl | simp only [↓State.event_root, ↓State.setErr_root] | split)
theorem State.leaveIdle_root (s : State) : (State.leaveIdle s).root = s.root := by
  unfold State.leaveIdle
  repeat' (first | with_reducible rfl | simp only [↓State.setPwr_root] | split)
theorem State.pme_root (s : State) : (State.pme s).root = s.root := by
  unfold State.pme
  repeat' (first | with_reducible rfl | simp only [↓State.emit_root, ↓State.setPwr_root] | split)
theorem State.wake_root (s : State) (b : Nat) : (State.wake s b).root = s.root := by
  unfold State.wake
  repeat' (first | with_reducible rfl | simp only [↓State.emit_root, ↓State.pme_root, ↓State.setAon_root, ↓State.setPwr_root] | split)

/-! ### Ops -/

theorem State.modCtx_root (s : State) (c : Nat) (f : Ctx → Ctx) : (State.modCtx s c f).root = s.root := by
  unfold State.modCtx
  rfl
theorem State.count_root (s : State) (c code n : Nat) : (State.count s c code n).root = s.root := by
  unfold State.count
  rfl
theorem State.countPort_root (s : State) (p code n : Nat) : (State.countPort s p code n).root = s.root := by
  unfold State.countPort
  rfl
theorem State.reply_root (s : State) (ch seq opcode status : Nat) (payload : Bytes) : (State.reply s ch seq opcode status payload).root = s.root := by
  unfold State.reply
  repeat' (first | with_reducible rfl | simp only [↓State.setMbox_root] | split)
theorem State.answer_root (s : State) (r : Request) (status : Nat) (payload : Bytes) : (State.answer s r status payload).root = s.root := by
  unfold State.answer
  repeat' (first | with_reducible rfl | simp only [↓State.reply_root])
theorem State.answerAll_root (s : State) (p : Request → Bool) (status : Nat) : (State.answerAll s p status).root = s.root := by
  unfold State.answerAll
  repeat' (first | with_reducible rfl | simp only [↓State.answer_root] | refine (foldl_root ?_ _ _).trans ?_ | intro)
theorem State.notice_root (s : State) (ch opcode key : Nat) (payload : Bytes) : (State.notice s ch opcode key payload).root = s.root := by
  unfold State.notice
  repeat' (first | with_reducible rfl | simp only [↓State.pme_root, ↓State.setMbox_root] | split)
theorem State.enter_root (s : State) (c : Nat) (st : CtxState) (status cause : Nat) : (State.enter s c st status cause).root = s.root := by
  unfold State.enter
  repeat' (first | with_reducible rfl | simp only [↓State.modCtx_root, ↓State.notice_root] | split)
theorem State.risk_root (s : State) (c i : Nat) : (State.risk s c i).root = s.root := by
  unfold State.risk
  repeat' (first | with_reducible rfl | simp only [↓State.count_root, ↓State.modCtx_root, ↓State.notice_root] | split)
theorem State.riskAll_root (s : State) (i : Nat) (p : Ctx → Bool) : (State.riskAll s i p).root = s.root := by
  unfold State.riskAll
  repeat' (first | with_reducible rfl | simp only [↓State.risk_root] | refine (foldl_root ?_ _ _).trans ?_ | intro)
theorem State.freeze_root (s : State) (cause : Nat) : (State.freeze s cause).root = s.root := by
  unfold State.freeze
  split
  · rfl
  · refine (State.answerAll_root ..).trans ((State.setBoot_root rfl).trans ?_)
    exact (State.leaveIdle_root ..).trans ((State.event_root ..).trans (State.putErr_root ..))
theorem State.fatal_root (s : State) (cause : Nat) : (State.fatal s cause).root = s.root := by
  unfold State.fatal
  repeat' (first | with_reducible rfl | simp only [↓State.freeze_root] | split)
theorem State.contained_root (s : State) (c cause : Nat) : (State.contained s c cause).root = s.root := by
  unfold State.contained
  repeat' (first | with_reducible rfl | simp only [↓State.putErr_root, ↓State.freeze_root] | split)
theorem State.corrected_root (s : State) (owner : Option Nat) : (State.corrected s owner).root = s.root := by
  unfold State.corrected
  repeat' (first | with_reducible rfl | simp only [↓State.count_root, ↓State.setErr_root] | split)
theorem State.stall_root (s : State) (c : Option Nat) : (State.stall s c).root = s.root := by
  unfold State.stall
  repeat' (first | with_reducible rfl | simp only [↓State.count_root, ↓State.modCtx_root, ↓State.risk_root] | split)
theorem State.excludeRow_root (s : State) (row : Nat × Nat × Nat × Nat) : (State.excludeRow s row).root = s.root := by
  unfold State.excludeRow
  rfl
theorem State.modChan_root (s : State) (c : Nat) (f : Chan → Chan) : (State.modChan s c f).root = s.root := by
  unfold State.modChan
  rfl
theorem State.memoryFreeze_root (s : State) (sn : Snap) : (State.memoryFreeze s sn).root = s.root := by
  unfold State.memoryFreeze
  repeat' (first | with_reducible rfl | simp only [↓State.modChan_root, ↓State.fatal_root, ↓State.setLp_root] | split)
theorem State.lpWord_root (s : State) (agent stream : Nat) (scrub rmw : Bool) (reader : Option Nat) (w : Nat) : (State.lpWord s agent stream scrub rmw reader w).1.root = s.root := by
  unfold State.lpWord
  repeat' (first | with_reducible rfl | simp only [↓State.memoryFreeze_root, ↓State.corrected_root, ↓State.modChan_root, ↓State.stall_root, ↓State.excludeRow_root, ↓State.setLp_root] | refine (foldl_root ?_ _ _).trans ?_ | split | intro)
theorem State.lpTouch_root (s : State) (write : Bool) (a n : Nat) : (State.lpTouch s write a n).root = s.root := by
  unfold State.lpTouch
  repeat' (first | with_reducible rfl | simp only [↓State.setLp_root] | refine (foldl_root ?_ _ _).trans ?_ | (intro _) | split)
theorem State.lpCheck_root (s : State) (agent stream : Nat) (reader : Option Nat) (rmw : Bool) (ws : List Nat) : (State.lpCheck s agent stream reader rmw ws).1.root = s.root := by
  unfold State.lpCheck
  repeat' (first | with_reducible rfl | simp only [↓State.lpWord_root] | refine (pair_root (by assumption) (State.lpWord_root ..)).trans ?_ | refine (foldl_root1 ?_ _ _).trans ?_ | split | intro)
theorem State.lpRead_root (s : State) (agent stream : Nat) (reader : Option Nat) (a n : Nat) : (State.lpRead s agent stream reader a n).1.root = s.root := by
  unfold State.lpRead
  repeat' (first | with_reducible rfl | simp only [↓State.lpTouch_root, ↓State.lpCheck_root] | refine (pair_root (by assumption) (State.lpCheck_root ..)).trans ?_ | split)
theorem State.lpWrite_root (s : State) (agent stream : Nat) (writer : Option Nat) (a : Nat) (b : Bytes) : (State.lpWrite s agent stream writer a b).1.root = s.root := by
  unfold State.lpWrite
  repeat' (first | with_reducible rfl | simp only [↓State.setLp_root, ↓State.lpTouch_root, ↓State.lpCheck_root] | refine (pair_root (by assumption) (State.lpCheck_root ..)).trans ?_ | split)
theorem State.lpAlloc_root {s : State} {owner bytes u : Nat} {t : State} (h : State.lpAlloc s owner bytes = some (u, t)) :
    t.root = s.root := by
  unfold State.lpAlloc at h
  dsimp only at h
  split at h
  · cases h
  · cases h; rfl
theorem State.lpFreeUnits_root (s : State) (p : Nat → Nat → Bool) : (State.lpFreeUnits s p).root = s.root := by
  unfold State.lpFreeUnits
  rfl
theorem State.lpFree_root (s : State) (a bytes : Nat) : (State.lpFree s a bytes).root = s.root := by
  unfold State.lpFree
  rfl
theorem State.freeCopies_root (s : State) : (State.freeCopies s).root = s.root := by
  unfold State.freeCopies
  repeat' (first | with_reducible rfl | simp only [↓State.setMbox_root, ↓State.lpFree_root] | refine (foldl_root ?_ _ _).trans ?_ | (intro _) | split)
theorem State.hostPut_root (s : State) (a : Nat) (b : Bytes) : (State.hostPut s a b).root = s.root := by
  unfold State.hostPut
  rfl
theorem State.pushRec_root (s : State) (cq : Nat) (r : Rec) : (State.pushRec s cq r).root = s.root := by
  unfold State.pushRec
  rfl
theorem State.feedHolds_root (s : State) : (State.feedHolds s).root = s.root := by
  unfold State.feedHolds
  repeat' (first | with_reducible rfl | simp only [↓State.emit_root, ↓State.countPort_root, ↓State.setPorts_root] | refine (foldl_root ?_ _ _).trans ?_ | split | intro)
theorem State.mirrorOne_root (s : State) (m : MirrorMsg) (w : MirrorWait) : (State.mirrorOne s m w).root = s.root := by
  unfold State.mirrorOne
  split
  · exact (State.sendOn_root ..).trans (State.setPair_root ..)
  · exact State.setPair_root ..

/-! ### Mirror -/

theorem State.mirror_root (s : State) (m : MirrorMsg) (w : MirrorWait) : (State.mirror s m w).root = s.root := by
  unfold State.mirror
  repeat' (first | with_reducible rfl | simp only [↓State.mirrorOne_root] | refine (foldl_root ?_ _ _).trans ?_ | (intro _) | split)
theorem State.mirrorMore_root (s : State) : (State.mirrorMore s).root = s.root := by
  unfold State.mirrorMore
  repeat' (first | with_reducible rfl | simp only [↓State.setPair_root, ↓State.mirrorOne_root] | refine (foldl_root ?_ _ _).trans ?_ | (intro _) | split)
theorem State.replyMirrored_root (s : State) (ch seq opcode status : Nat) (payload : Bytes) (ms : List MirrorMsg) : (State.replyMirrored s ch seq opcode status payload ms).root = s.root := by
  unfold State.replyMirrored
  repeat' (first | with_reducible rfl | simp only [↓State.mirror_root, ↓State.reply_root] | refine (foldl_root ?_ _ _).trans ?_ | split | intro)
theorem State.mirrorCtx_root (s : State) (c : Nat) : (State.mirrorCtx s c).root = s.root := by
  unfold State.mirrorCtx
  repeat' (first | with_reducible rfl | simp only [↓State.mirror_root] | split)
theorem State.answerCtx_root (s : State) (r : Request) (c status : Nat) (payload : Bytes) : (State.answerCtx s r c status payload).root = s.root := by
  unfold State.answerCtx
  repeat' (first | with_reducible rfl | simp only [↓State.replyMirrored_root, ↓State.answer_root] | split)

/-! ### Sram -/

theorem State.xorWord_root (s : State) (w : WordAt) (m : Nat) : (State.xorWord s w m).root = s.root := by
  unfold State.xorWord
  repeat' (first | with_reducible rfl | simp only [↓State.setFab_root] | split)
theorem State.startPreempt_root (s : State) (c : Nat) : (State.startPreempt s c).root = s.root := by
  unfold State.startPreempt
  rfl
theorem State.shrinkCanvas_root (s : State) (room n : Nat) (l : List (Nat × Ctx × Nat)) :
    (State.shrinkCanvas s room n l).root = s.root := by
  induction n generalizing s l with
  | zero => rfl
  | succ n ih =>
    unfold State.shrinkCanvas
    repeat' (first | with_reducible rfl | (refine (ih ..).trans ?_) | simp only [↓State.contained_root, ↓State.startPreempt_root] | split)
theorem State.judgeRetire_root (s : State) (mem : SramMem) (u : Nat) : (State.judgeRetire s mem u).root = s.root := by
  unfold State.judgeRetire
  repeat' (first | with_reducible rfl | simp only [↓State.contained_root, ↓State.startPreempt_root, ↓State.shrinkCanvas_root] | split)
theorem State.failingRow_root (s : State) (w : WordAt) : (State.failingRow s w).root = s.root := by
  unfold State.failingRow
  repeat' (first | with_reducible rfl | simp only [↓State.judgeRetire_root, ↓State.setErr_root] | split)
theorem State.readWord_root (s : State) (w : WordAt) (reader : Option Nat) : (State.readWord s w reader).1.root = s.root := by
  unfold State.readWord
  repeat' (first | with_reducible rfl | simp only [↓State.xorWord_root, ↓State.corrected_root, ↓State.stall_root, ↓State.failingRow_root, ↓State.contained_root, ↓State.fatal_root, ↓State.setErr_root] | split)
theorem State.readRanges_root (s : State) (mem : SramMem) (u : Nat) (reader : Option Nat) (rs : List (Nat × Nat)) : (State.readRanges s mem u reader rs).1.root = s.root := by
  unfold State.readRanges
  repeat' (first | with_reducible rfl | simp only [↓State.readWord_root] | refine (pair_root (by assumption) (State.readWord_root ..)).trans ?_ | refine (foldl_root1 ?_ _ _).trans ?_ | split | intro)
theorem State.someReads_root (s : State) (mem : SramMem) (u : Nat) (reader : Option Nat) (rs : List (Nat × Nat)) : (State.someReads s mem u reader rs).1.root = s.root := by
  unfold State.someReads
  repeat' (first | with_reducible rfl | simp only [↓State.freeNat_root, ↓State.readRanges_root] | refine (pair_root2 (by assumption) (State.freeNat_root ..)).trans ?_ | refine (pair_root (by assumption) (State.readRanges_root ..)).trans ?_ | split)
theorem State.wrote_root (s : State) (mem : SramMem) (u off n : Nat) : (State.wrote s mem u off n).root = s.root := by
  unfold State.wrote
  repeat' (first | with_reducible rfl | simp only [↓State.setErr_root] | split)
theorem State.someWrites_root (s : State) (mem : SramMem) (u : Nat) (rs : List (Nat × Nat)) : (State.someWrites s mem u rs).root = s.root := by
  unfold State.someWrites
  repeat' (first | with_reducible rfl | simp only [↓State.freeNat_root, ↓State.wrote_root] | refine (pair_root2 (by assumption) (State.freeNat_root ..)).trans ?_ | refine (foldl_root ?_ _ _).trans ?_ | (intro _) | split)
theorem State.palPut_root (s : State) (e off : Nat) (b : Bytes) : (State.palPut s e off b).root = s.root := by
  unfold State.palPut
  repeat' (first | with_reducible rfl | simp only [↓State.wrote_root, ↓State.setFab_root])
theorem State.canPut_root (s : State) (a off : Nat) (b : Bytes) : (State.canPut s a off b).root = s.root := by
  unfold State.canPut
  repeat' (first | with_reducible rfl | simp only [↓State.wrote_root, ↓State.setFab_root])
theorem State.palZero_root (s : State) (e off n : Nat) : (State.palZero s e off n).root = s.root := by
  unfold State.palZero
  repeat' (first | with_reducible rfl | simp only [↓State.wrote_root, ↓State.setFab_root])
theorem State.canZero_root (s : State) (a off n : Nat) : (State.canZero s a off n).root = s.root := by
  unfold State.canZero
  repeat' (first | with_reducible rfl | simp only [↓State.wrote_root, ↓State.setFab_root])
theorem State.retireNow_root (s : State) (mem : SramMem) (u : Nat) : (State.retireNow s mem u).root = s.root := by
  unfold State.retireNow
  repeat' (first | with_reducible rfl | simp only [↓State.setSched_root, ↓State.setFab_root, ↓State.setErr_root] | split)

/-! ### Tally -/

theorem State.modQueue_root (s : State) (e q : Nat) (f : CmdQueue → CmdQueue) : (State.modQueue s e q f).root = s.root := by
  unfold State.modQueue
  rfl
theorem State.serveTally_root (s : State) (t : Nat) : (State.serveTally s t).root = s.root := by
  unfold State.serveTally
  repeat' (first | with_reducible rfl | simp only [↓State.modQueue_root, ↓State.setFab_root] | refine (foldl_root ?_ _ _).trans ?_ | intro)
theorem State.tallyAdd_root (s : State) (t n : Nat) : (State.tallyAdd s t n).root = s.root := by
  unfold State.tallyAdd
  repeat' (first | with_reducible rfl | simp only [↓State.serveTally_root, ↓State.contained_root, ↓State.setFab_root] | split)
theorem State.waitTally_root (s : State) (e q t n : Nat) (acquire : Bool) : (State.waitTally s e q t n acquire).root = s.root := by
  unfold State.waitTally
  repeat' (first | with_reducible rfl | simp only [↓State.modQueue_root, ↓State.serveTally_root, ↓State.setFab_root] | split)
theorem State.dropWaits_root (s : State) (es : List Nat) (keep : Bool) : (State.dropWaits s es keep).root = s.root := by
  unfold State.dropWaits
  rfl

/-! ### Capture -/

theorem State.putPort_root (s : State) (p : Nat) (q : Port) : (State.putPort s p q).root = s.root := by
  unfold State.putPort
  rfl
theorem State.armPort_root (s : State) (p : Nat) : (State.armPort s p).root = s.root := by
  unfold State.armPort
  repeat' (first | with_reducible rfl | simp only [↓State.putPort_root] | split)
theorem State.startEvent_root (s : State) (p : Nat) : (State.startEvent s p).root = s.root := by
  unfold State.startEvent
  repeat' (first | with_reducible rfl | simp only [↓State.putPort_root, ↓State.countPort_root] | split)
theorem State.endCapture_root (s : State) (p : Nat) : (State.endCapture s p).root = s.root := by
  unfold State.endCapture
  repeat' (first | with_reducible rfl | simp only [↓State.putPort_root, ↓State.answerAll_root] | split)
theorem State.takeChunks_root {s t : State} {ctx n : Nat} {l : List Nat} (h : State.takeChunks s ctx n = some (t, l)) :
    t.root = s.root := by
  induction n generalizing s t l with
  | zero => cases h; rfl
  | succ n ih =>
    unfold State.takeChunks at h
    cases ha : s.lpAlloc (ctx + 1) (2 ^ 20) with
    | none => rw [ha] at h; cases h
    | some y =>
      rw [ha] at h
      cases hb : y.2.takeChunks ctx n with
      | none => simp [hb] at h
      | some z =>
        simp only [Option.bind_some, hb, Option.map_some, Option.some.injEq] at h
        cases h
        exact (ih (l := z.2) hb).trans (State.lpAlloc_root (u := y.1) ha)
theorem State.trimPool_root (s : State) (p n : Nat) : (State.trimPool s p n).root = s.root := by
  unfold State.trimPool
  repeat' (first | with_reducible rfl | simp only [↓State.putPort_root, ↓State.lpFree_root] | refine (foldl_root ?_ _ _).trans ?_ | (intro _) | split)
theorem State.dropReserve_root (s : State) (p : Nat) : (State.dropReserve s p).root = s.root := by
  unfold State.dropReserve
  repeat' (first | with_reducible rfl | simp only [↓State.putPort_root, ↓State.lpFree_root] | refine (foldl_root ?_ _ _).trans ?_ | (intro _) | split)
theorem State.reserveFor_root {s t : State} {p ctx n : Nat} {l : List Nat} (h : State.reserveFor s p ctx n = some (t, l)) :
    t.root = s.root := (State.takeChunks_root h).trans (State.dropReserve_root ..)
theorem State.joinPool_root (s : State) (p n : Nat) (l : List Nat) : (State.joinPool s p n l).root = s.root := by
  unfold State.joinPool
  exact (State.trimPool_root ..).trans (State.putPort_root ..)
theorem State.poolFor_root {s : State} {p ctx n : Nat} {t : State} (h : State.poolFor s p ctx n = some t) :
    t.root = s.root := by
  unfold State.poolFor at h
  cases hr : s.reserveFor p ctx n with
  | none => rw [hr] at h; cases h
  | some y =>
    rw [hr] at h
    cases h
    exact (State.joinPool_root ..).trans (State.reserveFor_root (l := y.2) hr)
theorem State.applyCfg_root (s : State) (p : Nat) (c : PortCfg) : (State.applyCfg s p c).root = s.root := by
  unfold State.applyCfg
  repeat' (first | with_reducible rfl | simp only [↓State.putPort_root, ↓State.armPort_root, ↓State.feedHolds_root])
theorem execAfeLinkLock_root (p : Nat) (s : State) : ∃ t, execAfeLinkLock p s = .next t ∧ t.root = s.root := by
  refine ⟨_, rfl, ?_⟩
  repeat' (first | with_reducible rfl | simp only [↓State.putPort_root] | split)
theorem State.linkError_root (s : State) (p : Nat) : (State.linkError s p).root = s.root := by
  unfold State.linkError
  repeat' (first | with_reducible rfl | simp only [↓State.countPort_root, ↓State.putPort_root] | split)
theorem execAfeFrame_root (p : Nat) (fcoOk : Bool) (words : List W16) (s : State) : ∃ t, execAfeFrame p fcoOk words s = .next t ∧ t.root = s.root := by
  refine ⟨_, rfl, ?_⟩
  repeat' (first | with_reducible rfl | simp only [↓State.putPort_root, ↓State.linkError_root] | split)
theorem State.startLine_root (s : State) (p : Nat) : (State.startLine s p).root = s.root := by
  unfold State.startLine
  repeat' (first | with_reducible rfl | simp only [↓State.countPort_root, ↓State.putPort_root] | split)
theorem State.trigger_root (s : State) (p : Nat) : (State.trigger s p).root = s.root := by
  unfold State.trigger
  repeat' (first | with_reducible rfl | simp only [↓State.startLine_root, ↓State.countPort_root, ↓State.putPort_root] | split)
theorem execFreeRunTrigger_root (p : Nat) (s : State) : ∃ t, execFreeRunTrigger p s = .next t ∧ t.root = s.root := by
  refine ⟨_, rfl, ?_⟩
  repeat' (first | with_reducible rfl | simp only [↓State.trigger_root] | split)
theorem execEncoderCount_root (p : Nat) (fwd : Bool) (s : State) : ∃ t, execEncoderCount p fwd s = .next t ∧ t.root = s.root := by
  refine ⟨_, rfl, ?_⟩
  repeat' (first | with_reducible rfl | simp only [↓State.putPort_root, ↓State.trigger_root, ↓State.countPort_root] | split)
theorem execLineProgramEnd_root (p : Nat) (s : State) : ∃ t, execLineProgramEnd p s = .next t ∧ t.root = s.root := by
  refine ⟨_, rfl, ?_⟩
  repeat' (first | with_reducible rfl | simp only [↓State.putPort_root, ↓State.startLine_root] | split)
theorem State.storeLine_root (s : State) (p : Nat) (c : PortCfg) (l : Line) : (State.storeLine s p c l).root = s.root := by
  unfold State.storeLine
  repeat' (first | with_reducible rfl | simp only [↓State.countPort_root, ↓State.putPort_root] | split)
theorem State.capLine_root (s : State) (p : Nat) (l : Line) : (State.capLine s p l).root = s.root := by
  unfold State.capLine
  repeat' (first | with_reducible rfl | simp only [↓State.countPort_root, ↓State.putPort_root] | split)
theorem State.sheetFor_root (s : State) (p : Nat) (c : PortCfg) (seq : Nat) : (State.sheetFor s p c seq).2.2.root = s.root := by
  unfold State.sheetFor
  repeat' (first | with_reducible rfl | simp only [↓State.putPort_root] | split)
theorem State.searchEdge_root (s : State) (p : Nat) (c : PortCfg) : (State.searchEdge s p c).root = s.root := by
  unfold State.searchEdge
  repeat' (first | with_reducible rfl | simp only [↓State.putPort_root, ↓State.sheetFor_root] | refine (pair_root3 (by assumption) (State.sheetFor_root ..)).trans ?_ | split)
theorem State.captureLine_root (s : State) (p : Nat) (c : PortCfg) (raw : RawLine) : (State.captureLine s p c raw).root = s.root := by
  unfold State.captureLine
  repeat' (first | with_reducible rfl | simp only [↓State.countPort_root, ↓State.someWrites_root, ↓State.putPort_root, ↓State.storeLine_root, ↓State.capLine_root, ↓State.searchEdge_root] | split)
theorem execLineComplete_root (p : Nat) (s : State) : ∃ t, execLineComplete p s = .next t ∧ t.root = s.root := by
  refine ⟨_, rfl, ?_⟩
  repeat' (first | with_reducible rfl | simp only [↓State.feedHolds_root, ↓State.putPort_root, ↓State.captureLine_root] | refine (pair_root (by assumption) (State.someReads_root ..)).trans ?_ | refine (foldl_root ?_ _ _).trans ?_ | (intro _) | split)
theorem State.takeLines_root (s : State) (p : Nat) (c : PortCfg) (lines : List Line) : (State.takeLines s p c lines).root = s.root := by
  unfold State.takeLines
  repeat' (first | with_reducible rfl | simp only [↓State.putPort_root, ↓State.storeLine_root, ↓State.capLine_root] | refine (foldl_root ?_ _ _).trans ?_ | intro _ _ | split)
theorem execPageOpen_root (p : Nat) (s : State) : ∃ t, execPageOpen p s = .next t ∧ t.root = s.root := by
  refine ⟨_, rfl, ?_⟩
  repeat' (first | with_reducible rfl | simp only [↓State.setSched_root, ↓State.countPort_root, ↓State.feedHolds_root, ↓State.putPort_root, ↓State.takeLines_root] | refine (pair_root3 (by assumption) (State.sheetFor_root ..)).trans ?_ | split)
theorem execTrailingEdgeConfirmed_root (p : Nat) (s : State) : ∃ t, execTrailingEdgeConfirmed p s = .next t ∧ t.root = s.root := by
  refine ⟨_, rfl, ?_⟩
  repeat' (first | with_reducible rfl | simp only [↓State.putPort_root] | split)
theorem State.clearPort_root (s : State) (p : Nat) : (State.clearPort s p).root = s.root := by
  unfold State.clearPort
  repeat' (first | with_reducible rfl | simp only [↓State.lpFree_root, ↓State.putPort_root, ↓State.dropReserve_root] | refine (foldl_root ?_ _ _).trans ?_ | (intro _) | split)
theorem State.afterPageEnd_root (s : State) (p : Nat) : (State.afterPageEnd s p).root = s.root := by
  unfold State.afterPageEnd
  repeat' (first | with_reducible rfl | simp only [↓State.feedHolds_root, ↓State.putPort_root, ↓State.endCapture_root, ↓State.joinPool_root, ↓State.applyCfg_root, ↓State.clearPort_root] | split)
theorem execPageEnd_root (p : Nat) (s : State) : ∃ t, execPageEnd p s = .next t ∧ t.root = s.root := by
  refine ⟨_, rfl, ?_⟩
  repeat' (first | with_reducible rfl | simp only [↓State.putPort_root, ↓State.afterPageEnd_root] | split)
theorem execPageCapReached_root (p : Nat) (s : State) : ∃ t, execPageCapReached p s = .next t ∧ t.root = s.root := by
  refine ⟨_, rfl, ?_⟩
  repeat' (first | with_reducible rfl | simp only [↓State.putPort_root, ↓State.afterPageEnd_root] | split)
theorem execCaptureIdleEnd_root (p : Nat) (s : State) : ∃ t, execCaptureIdleEnd p s = .next t ∧ t.root = s.root := by
  refine ⟨_, rfl, ?_⟩
  repeat' (first | with_reducible rfl | simp only [↓State.endCapture_root] | split)
theorem execCalibrationComplete_root (p : Nat) (s : State) : ∃ t, execCalibrationComplete p s = .next t ∧ t.root = s.root := by
  refine ⟨_, rfl, ?_⟩
  repeat' (first | with_reducible rfl | simp only [↓State.putPort_root, ↓State.countPort_root, ↓State.reply_root] | split)
theorem execLineStoreAccepted_root (p : Nat) (s : State) : ∃ t, execLineStoreAccepted p s = .next t ∧ t.root = s.root := by
  refine ⟨_, rfl, ?_⟩
  repeat' (first | with_reducible rfl | simp only [↓State.countPort_root, ↓State.lpWrite_root, ↓State.mirror_root, ↓State.someReads_root, ↓State.putPort_root] | refine (pair_root (by assumption) (State.lpWrite_root ..)).trans ?_ | refine (pair_root (by assumption) (State.someReads_root ..)).trans ?_ | refine (foldl_root ?_ _ _).trans ?_ | (intro _) | split)

/-! ### Primer -/

/-! ### Records -/

theorem State.confidences_root (s : State) (n : Nat) : (State.confidences s n).1.root = s.root := by
  induction n generalizing s with
  | zero => rfl
  | succ n ih =>
    unfold State.confidences
    exact (ih _).trans (State.freeNat_root s)
theorem State.readyDesc_root (s : State) (q no status detail : Nat) : (State.readyDesc s q no status detail).root = s.root := by
  unfold State.readyDesc
  repeat' (first | with_reducible rfl | simp only [↓State.pushRec_root, ↓State.setHq_root] | split)
theorem State.settleMarkers_root (s : State) (q : Nat) : (State.settleMarkers s q).root = s.root := by
  unfold State.settleMarkers
  repeat' (first | with_reducible rfl | simp only [↓State.readyDesc_root] | refine (foldl_root ?_ _ _).trans ?_ | split | intro)
theorem State.bufFree_root (s : State) (b : Option (Nat × Nat)) : (State.bufFree s b).root = s.root := by
  unfold State.bufFree
  repeat' (first | with_reducible rfl | simp only [↓State.lpFree_root] | split)
theorem State.bufGet_root (s : State) (agent ctx : Nat) (b : Option (Nat × Nat)) : (State.bufGet s agent ctx b).1.root = s.root := by
  unfold State.bufGet
  repeat' (first | with_reducible rfl | simp only [↓State.lpRead_root] | refine (pair_root (by assumption) (State.lpRead_root ..)).trans ?_ | split)
theorem State.bufPut_root {s t : State} {agent ctx : Nat} {b : Bytes} {x : Option (Nat × Nat)}
    (h : State.bufPut s agent ctx b = some (x, t)) : t.root = s.root := by
  unfold State.bufPut at h
  split at h
  · cases h; rfl
  · cases ha : s.lpAlloc (ctx + 1) b.length with
    | none => rw [ha] at h; cases h
    | some y =>
      rw [ha] at h
      cases h
      exact (State.lpWrite_root ..).trans (State.lpAlloc_root (u := y.1) ha)
theorem State.freeItemBufs_root (s : State) (it : Item) : (State.freeItemBufs s it).root = s.root := by
  unfold State.freeItemBufs
  repeat' (first | with_reducible rfl | simp only [↓State.bufFree_root] | refine (foldl_root ?_ _ _).trans ?_ | (intro _) | split)
theorem State.finishItem_root (s : State) (n : Nat) (status : Nat) (fields : List FieldOut) (read : Bool) : (State.finishItem s n status fields read).root = s.root := by
  unfold State.finishItem
  repeat' (first | with_reducible rfl | simp only [↓State.setIntake_root, ↓State.pushRec_root, ↓State.confidences_root, ↓State.settleMarkers_root, ↓State.freeItemBufs_root] | refine (pair_root (by assumption) (State.confidences_root ..)).trans ?_ | split)
theorem State.completeDesc_root (s : State) (q no status detail : Nat) : (State.completeDesc s q no status detail).root = s.root := by
  unfold State.completeDesc
  repeat' (first | with_reducible rfl | simp only [↓State.readyDesc_root, ↓State.settleMarkers_root])

/-! ### Intake -/

theorem State.modItem_root (s : State) (n : Nat) (f : Item → Item) : (State.modItem s n f).root = s.root := by
  unfold State.modItem
  rfl
theorem State.modBucket_root (s : State) (k : Nat) (f : Bucket → Bucket) : (State.modBucket s k f).root = s.root := by
  unfold State.modBucket
  rfl
theorem State.unqueueLive_root (s : State) (n : Nat) : (State.unqueueLive s n).root = s.root := by
  unfold State.unqueueLive
  repeat' (first | with_reducible rfl | simp only [↓State.setIntake_root] | split)
theorem State.takeSlot_root (s : State) (n : Nat) : (State.takeSlot s n).root = s.root := by
  unfold State.takeSlot
  repeat' (first | with_reducible rfl | simp only [↓State.modBucket_root, ↓State.modItem_root, ↓State.unqueueLive_root] | split)
theorem State.freeSlot_root (s : State) (n : Nat) : (State.freeSlot s n).root = s.root := by
  unfold State.freeSlot
  repeat' (first | with_reducible rfl | simp only [↓State.modBucket_root, ↓State.unqueueLive_root, ↓State.modItem_root, ↓State.takeSlot_root] | split)
theorem State.refillBucket_root (s : State) (k : Nat) : (State.refillBucket s k).root = s.root := by
  unfold State.refillBucket
  repeat' (first | with_reducible rfl | simp only [↓State.takeSlot_root, ↓State.modBucket_root] | refine (foldl_root ?_ _ _).trans ?_ | intro)
theorem State.failItem_root (s : State) (n status code : Nat) : (State.failItem s n status code).root = s.root := by
  unfold State.failItem
  repeat' (first | with_reducible rfl | simp only [↓State.setIntake_root, ↓State.count_root, ↓State.freeItemBufs_root, ↓State.finishItem_root, ↓State.freeSlot_root] | split)
theorem State.checkDims_root (s : State) (n : Nat) : (State.checkDims s n).root = s.root := by
  unfold State.checkDims
  repeat' (first | with_reducible rfl | simp only [↓State.failItem_root, ↓State.modItem_root, ↓State.takeSlot_root] | split)
theorem State.startBudget_root (s : State) (n : Nat) : (State.startBudget s n).root = s.root := by
  unfold State.startBudget
  repeat' (first | with_reducible rfl | simp only [↓State.modItem_root] | split)
theorem State.decodeStart_root (s : State) : (State.decodeStart s).root = s.root := by
  unfold State.decodeStart
  repeat' (first | with_reducible rfl | simp only [↓State.setIntake_root, ↓State.startBudget_root] | refine (foldl_root ?_ _ _).trans ?_ | intro _ _ | split)
theorem State.viewArrives_root (s : State) (item : Nat) (it : Item) (i : Nat) (v : View) (copy : Option (Nat × Nat)) (b : Bytes) : (State.viewArrives s item it i v copy b).root = s.root := by
  unfold State.viewArrives
  repeat' (first | with_reducible rfl | simp only [↓State.mirror_root, ↓State.modItem_root, ↓State.checkDims_root, ↓State.decodeStart_root] | split)
theorem execViewReadComplete_root (item : Nat) (s : State) : ∃ t, execViewReadComplete item s = .next t ∧ t.root = s.root := by
  refine ⟨_, rfl, ?_⟩
  repeat' (first | with_reducible rfl | simp only [↓State.viewArrives_root] | refine (pair_root (by assumption) (State.bufGet_root ..)).trans ?_ | refine (State.bufPut_root (by assumption)).trans ?_ | split)
theorem execHeaderPassComplete_root (item : Nat) (view : Nat) (r : HeaderResult) (s : State) : ∃ t, execHeaderPassComplete item view r s = .next t ∧ t.root = s.root := by
  refine ⟨_, rfl, ?_⟩
  repeat' (first | with_reducible rfl | simp only [↓State.modItem_root, ↓State.checkDims_root, ↓State.decodeStart_root] | refine (pair_root (by assumption) (State.bufGet_root ..)).trans ?_ | split)
theorem State.viewsDone_root (s : State) (n : Nat) : (State.viewsDone s n).root = s.root := by
  unfold State.viewsDone
  repeat' (first | with_reducible rfl | simp only [↓State.failItem_root] | split)
theorem State.storePictures_root (s : State) (ctx : Nat) (lp : Nat × Nat) (ps : List Picture) : (State.storePictures s ctx lp ps).root = s.root := by
  unfold State.storePictures
  repeat' (first | with_reducible rfl | simp only [↓State.freeNat_root, ↓State.lpWrite_root] | refine (pair_root2 (by assumption) (State.freeNat_root ..)).trans ?_ | refine (pair_root (by assumption) (State.lpWrite_root ..)).trans ?_ | refine (foldl_root ?_ _ _).trans ?_ | intro _ _ | split)
theorem execViewDecodeComplete_root (item : Nat) (view : Nat) (r : DecodeResult) (s : State) : ∃ t, execViewDecodeComplete item view r s = .next t ∧ t.root = s.root := by
  refine ⟨_, rfl, ?_⟩
  repeat' (first | with_reducible rfl | simp only [↓State.bufFree_root, ↓State.modItem_root, ↓State.decodeStart_root, ↓State.viewsDone_root, ↓State.storePictures_root] | refine (pair_root (by assumption) (State.bufGet_root ..)).trans ?_ | refine (State.bufPut_root (by assumption)).trans ?_ | split)
theorem execDecodeBudgetExpiry_root (item : Nat) (s : State) : ∃ t, execDecodeBudgetExpiry item s = .next t ∧ t.root = s.root := by
  refine ⟨_, rfl, ?_⟩
  repeat' (first | with_reducible rfl | simp only [↓State.modItem_root, ↓State.decodeStart_root, ↓State.viewsDone_root] | split)
theorem State.pageLines_root (s : State) (c : PortCfg) (g : Page) : (State.pageLines s c g).1.root = s.root := by
  unfold State.pageLines
  repeat' (first | with_reducible rfl | refine (pair_root (by assumption) (State.lpRead_root ..)).trans ?_ | refine (foldl_root ?_ _ _).trans ?_ | refine (foldl_root1 ?_ _ _).trans ?_ | intro _ _ | split)
theorem State.readPictures_root (s : State) (ctx : Nat) (l : List View) : (State.readPictures s ctx l).1.root = s.root := by
  induction l generalizing s with
  | nil => rfl
  | cons v r ih =>
    unfold State.readPictures
    split
    · rename_i h
      exact pair_root h (State.bufGet_root ..)
    · rename_i s1 b h
      have hs : s1.root = s.root := pair_root h (State.bufGet_root ..)
      split
      · rename_i h2
        exact (pair_root h2 (ih _)).trans hs
      · rename_i h2
        exact (pair_root h2 (ih _)).trans hs
theorem State.itemTiles_root (s : State) (it : Item) (p : Profile) : (State.itemTiles s it p).1.root = s.root := by
  unfold State.itemTiles
  repeat' (first | with_reducible rfl | simp only [↓State.pageLines_root, ↓State.readPictures_root] | refine (pair_root (by assumption) (State.pageLines_root ..)).trans ?_ | refine (pair_root (by assumption) (State.readPictures_root ..)).trans ?_ | split)
theorem execPrimerItemComplete_root (item : Nat) (s : State) : ∃ t, execPrimerItemComplete item s = .next t ∧ t.root = s.root := by
  refine ⟨_, rfl, ?_⟩
  repeat' (first | with_reducible rfl | simp only [↓State.count_root, ↓State.bufFree_root, ↓State.modItem_root] | refine (State.bufPut_root (by assumption)).trans ?_ | refine (pair_root (by assumption) (State.itemTiles_root ..)).trans ?_ | refine (foldl_root ?_ _ _).trans ?_ | (intro _) | split)
theorem State.placePage_root (s : State) (n : Nat) (pr : Profile) (geo aspect width lines : Nat) : (State.placePage s n pr geo aspect width lines).root = s.root := by
  unfold State.placePage
  repeat' (first | with_reducible rfl | simp only [↓State.failItem_root, ↓State.modItem_root, ↓State.takeSlot_root] | split)
theorem State.rebucketItem_root (s : State) (n : Nat) (p : Profile) : (State.rebucketItem s n p).root = s.root := by
  unfold State.rebucketItem
  repeat' (first | with_reducible rfl | simp only [↓State.modItem_root, ↓State.takeSlot_root, ↓State.failItem_root, ↓State.placePage_root] | split)
theorem State.rebucket_root (s : State) (c : Nat) : (State.rebucket s c).root = s.root := by
  unfold State.rebucket
  repeat' (first | with_reducible rfl | simp only [↓State.modBucket_root, ↓State.rebucketItem_root] | refine (foldl_root ?_ _ _).trans ?_ | intro _ _ | split)
theorem execGeometryFitComplete_root (p : Nat) (s : State) : ∃ t, execGeometryFitComplete p s = .next t ∧ t.root = s.root := by
  refine ⟨_, rfl, ?_⟩
  repeat' (first | with_reducible rfl | simp only [↓State.putPort_root, ↓State.mirror_root, ↓State.finishItem_root, ↓State.placePage_root, ↓State.setIntake_root] | split)
theorem execLivePictureDecoded_root (stream : Nat) (r : DecodeResult) (s : State) : ∃ t, execLivePictureDecoded stream r s = .next t ∧ t.root = s.root := by
  refine ⟨_, rfl, ?_⟩
  repeat' (first | with_reducible rfl | simp only [↓State.setIntake_root, ↓State.count_root, ↓State.bufFree_root, ↓State.completeDesc_root, ↓State.takeSlot_root, ↓State.failItem_root, ↓State.decodeStart_root, ↓State.storePictures_root] | refine (State.bufPut_root (by assumption)).trans ?_ | split)
theorem execBatchAgeTimeout_root (ctx : Nat) (bucket : Nat) (s : State) : ∃ t, execBatchAgeTimeout ctx bucket s = .next t ∧ t.root = s.root := by
  refine ⟨_, rfl, ?_⟩
  repeat' (first | with_reducible rfl | simp only [↓State.modBucket_root] | split)
theorem State.splitNotice_root (s : State) (c src old new : Nat) : (State.splitNotice s c src old new).root = s.root := by
  unfold State.splitNotice
  repeat' (first | with_reducible rfl | simp only [↓State.notice_root] | split)
theorem State.moveLevel_root (s : State) (src : Nat) (x : Source) (new : Nat) : (State.moveLevel s src x new).root = s.root := by
  unfold State.moveLevel
  repeat' (first | with_reducible rfl | simp only [↓State.count_root, ↓State.splitNotice_root, ↓State.setIntake_root])
theorem State.splitCtx_root (s : State) (c : Nat) : (State.splitCtx s c).root = s.root := by
  unfold State.splitCtx
  repeat' (first | with_reducible rfl | simp only [↓State.moveLevel_root] | split)
theorem execSplitWindowEnd_root (pct : Nat) (s : State) : ∃ t, execSplitWindowEnd pct s = .next t ∧ t.root = s.root := by
  refine ⟨_, rfl, ?_⟩
  repeat' (first | with_reducible rfl | simp only [↓State.splitCtx_root, ↓State.setIntake_root] | refine (foldl_root ?_ _ _).trans ?_ | split | intro)
theorem State.jobReads_root (s : State) (c : Nat) (v : Vocab) : (State.jobReads s c v).1.root = s.root := by
  unfold State.jobReads
  repeat' (first | with_reducible rfl | simp only [↓State.someReads_root] | refine (pair_root (by assumption) (State.someReads_root ..)).trans ?_ | split)
theorem State.countText_root (s : State) (c bytes rep cgj toks : Nat) : (State.countText s c bytes rep cgj toks).root = s.root := by
  unfold State.countText
  repeat' (first | with_reducible rfl | simp only [↓State.count_root] | split)
theorem State.serveText_root (s : State) : (State.serveText s).root = s.root := by
  unfold State.serveText
  repeat' (first | with_reducible rfl | simp only [↓State.setText_root] | split)
theorem State.queueText_root (s : State) (n sq desc : Nat) : (State.queueText s n sq desc).root = s.root := by
  unfold State.queueText
  repeat' (first | with_reducible rfl | simp only [↓State.setText_root, ↓State.serveText_root] | split)

/-! ### Text -/

theorem State.putStream_root (s : State) (n : Nat) (x : TextStream) : (State.putStream s n x).root = s.root := by
  unfold State.putStream
  rfl
theorem State.closeStream_root (s : State) (n : Nat) : (State.closeStream s n).root = s.root := by
  unfold State.closeStream
  repeat' (first | with_reducible rfl | simp only [↓State.replyMirrored_root, ↓State.setText_root] | refine (foldl_root ?_ _ _).trans ?_ | split | intro)
theorem execTextJobComplete_root (stream : Nat) (s : State) : ∃ t, execTextJobComplete stream s = .next t ∧ t.root = s.root := by
  refine ⟨_, rfl, ?_⟩
  repeat' (first | with_reducible rfl | simp only [↓State.hostPut_root, ↓State.completeDesc_root, ↓State.countText_root, ↓State.serveText_root, ↓State.putStream_root, ↓State.closeStream_root] | refine (pair_root (by assumption) (State.jobReads_root ..)).trans ?_ | split)

/-! ### Stencil -/

theorem State.putReading_root (s : State) (c : Nat) (r : Reading) : (State.putReading s c r).root = s.root := by
  unfold State.putReading
  rfl
theorem State.modSeq_root (s : State) (c j : Nat) (f : Seq → Seq) : (State.modSeq s c j f).root = s.root := by
  unfold State.modSeq
  rfl
theorem State.sweepLexicons_root (s : State) : (State.sweepLexicons s).root = s.root := by
  unfold State.sweepLexicons
  repeat' (first | with_reducible rfl | simp only [↓State.lpFree_root, ↓State.setSten_root] | refine (foldl_root ?_ _ _).trans ?_ | intro)
theorem State.applyLexicons_root (s : State) (c : Nat) : (State.applyLexicons s c).root = s.root := by
  unfold State.applyLexicons
  repeat' (first | with_reducible rfl | simp only [↓State.setSten_root, ↓State.someWrites_root, ↓State.sweepLexicons_root] | refine (foldl_root ?_ _ _).trans ?_ | (intro _) | split)
theorem State.fetchLines_root (s : State) (c : Nat) (g : Grammar) (l : List Nat) : (State.fetchLines s c g l).root = s.root := by
  induction l generalizing s with
  | nil => rfl
  | cons n r ih =>
    unfold State.fetchLines
    dsimp only
    split
    · exact (ih ..).trans ((State.setSten_root ..).trans (State.someReads_root ..))
    · exact (ih ..).trans ((State.setSten_root ..).trans ((State.count_root ..).trans
        ((State.lpRead_root ..).trans (State.someWrites_root ..))))
theorem State.fetchNode_root (s : State) (c j : Nat) (d : Bytes) (v : Nat) : (State.fetchNode s c j d v).root = s.root := by
  unfold State.fetchNode
  repeat' (first | with_reducible rfl | simp only [↓State.wrote_root, ↓State.fetchLines_root] | split)
theorem State.walkRead_root (s : State) (c j : Nat) (q : Seq) : (State.walkRead s c j q).1.root = s.root := by
  unfold State.walkRead
  repeat' (first | with_reducible rfl | simp only [↓State.readRanges_root] | refine (pair_root (by assumption) (State.readRanges_root ..)).trans ?_ | refine (pair_root (by assumption) (State.someReads_root ..)).trans ?_ | split)
theorem State.countDetok_root (s : State) (c : Nat) (d : DetokCount) : (State.countDetok s c d).root = s.root := by
  unfold State.countDetok
  rfl

end Sys2Proof.Machine
end

