-- ==== Sys2Proof/Laws/RootReading.lean ====
section
/-! SUPPORT. Laws/RootReading.lean: of queue running, rings and reading: what only the seal core, boot and resets change stays as it was. -/

namespace Sys2Proof.Machine

/-! ### Operands -/

theorem State.spPut_root (s : State) (e : Nat) (canvas : Bool) (off : Nat) (b : Bytes) : (State.spPut s e canvas off b).root = s.root := by
  unfold State.spPut
  repeat' (first | with_reducible rfl | simp only [↓State.canPut_root, ↓State.palPut_root] | split)
theorem State.readOk_root (s : State) (c e : Nat) (rs : List Range) : (State.readOk s c e rs).1.root = s.root := by
  unfold State.readOk
  repeat' (first | with_reducible rfl | simp only [↓State.readRanges_root] | refine (pair_root (by assumption) (State.readRanges_root ..)).trans ?_ | split)
theorem State.withRanges_root {k : State → State × BodyEnd} (hk : ∀ s, (k s).1.root = s.root) (s : State) (c e : Nat)
    (reads writes : List Range) : (State.withRanges s c e reads writes k).1.root = s.root := by
  unfold State.withRanges
  repeat' (first | with_reducible rfl | (refine (hk _).trans ?_) | (refine (pair_root (by assumption) (State.readOk_root ..)).trans ?_) | split)
theorem State.countSat_root (s : State) (c : Nat) (t : Sat) : (State.countSat s c t).root = s.root := by
  unfold State.countSat
  repeat' (first | with_reducible rfl | simp only [↓State.count_root] | split)
theorem State.putBlock_root (s : State) (e : Nat) (canvas : Bool) (f : Fmt) (h : Nat) (b : Block) : (State.putBlock s e canvas f h b).root = s.root := by
  unfold State.putBlock
  repeat' (first | with_reducible rfl | simp only [↓State.spPut_root] | split)
theorem State.zeroTail_root (s : State) (e : Nat) (canvas : Bool) (f : Fmt) (h : Nat) : (State.zeroTail s e canvas f h).root = s.root := by
  unfold State.zeroTail
  repeat' (first | with_reducible rfl | simp only [↓State.putBlock_root] | refine (foldl_root ?_ _ _).trans ?_ | split | intro)

/-! ### Check -/

/-! ### Fetch -/

theorem State.staleOr_root (s : State) (old : Option Nat) (now : Nat) : (State.staleOr s old now).1.root = s.root := by
  unfold State.staleOr
  repeat' (first | with_reducible rfl | refine (pair_root2 (by assumption) (State.freeBit_root ..)).trans ?_ | split)
theorem State.badQueue_root (s : State) (c e q cause : Nat) : (State.badQueue s c e q cause).root = s.root := by
  unfold State.badQueue
  repeat' (first | with_reducible rfl | simp only [↓State.modQueue_root, ↓State.contained_root])
theorem State.takeUp_root (s : State) (c e q : Nat) (old : Option Nat) : (State.takeUp s c e q old).root = s.root := by
  unfold State.takeUp
  repeat' (first | with_reducible rfl | simp only [↓State.modQueue_root, ↓State.staleOr_root, ↓State.badQueue_root] | refine (pair_root (by assumption) (State.readOk_root ..)).trans ?_ | refine (pair_root (by assumption) (State.staleOr_root ..)).trans ?_ | split)
theorem State.advance_root (s : State) (c e q : Nat) : (State.advance s c e q).root = s.root := by
  unfold State.advance
  repeat' (first | with_reducible rfl | simp only [↓State.modQueue_root, ↓State.takeUp_root])
theorem State.ring1_root (s : State) (e q off : Nat) : (State.ring1 s e q off).root = s.root := by
  unfold State.ring1
  repeat' (first | with_reducible rfl | simp only [↓State.modQueue_root, ↓State.takeUp_root, ↓State.setFab_root] | split)
theorem State.ringEvent_root (s : State) (c ev : Nat) : (State.ringEvent s c ev).1.root = s.root := by
  unfold State.ringEvent
  repeat' (first | with_reducible rfl | simp only [↓State.ring1_root] | refine (foldl_root1 ?_ _ _).trans ?_ | split | intro)
theorem State.serve_root (s : State) (e q w : Nat) : (State.serve s e q w).root = s.root := by
  unfold State.serve
  repeat' (first | with_reducible rfl | simp only [↓State.setFab_root] | refine (foldl_root ?_ _ _).trans ?_ | intro _ _ | split)
theorem State.settleWaits_root (s : State) (n : Nat) : (State.settleWaits s n).root = s.root := by
  induction n generalizing s with
  | zero => rfl
  | succ n ih =>
    unfold State.settleWaits
    repeat' (first | with_reducible rfl | (refine (ih ..).trans ?_) | simp only [↓State.modQueue_root, ↓State.tallyAdd_root, ↓State.advance_root] | split)
theorem State.settleAll_root (s : State) : (State.settleAll s).root = s.root := by
  unfold State.settleAll
  repeat' (first | with_reducible rfl | simp only [↓State.settleWaits_root])
theorem State.runCommand_root {body : Nat → Nat → State → State × BodyEnd} (hk : ∀ c w s, (body c w s).1.root = s.root) (s : State)
    (e q : Nat) (sel : Nat → Bool) : (State.runCommand s e q sel body).root = s.root := by
  unfold State.runCommand
  repeat' (first | with_reducible rfl | simp only [↓State.leaveIdle_root, ↓State.waitTally_root, ↓State.modQueue_root, ↓State.serve_root, ↓State.tallyAdd_root, ↓State.advance_root, ↓State.settleAll_root, ↓State.badQueue_root] | (refine (pair_root (by assumption) (hk ..)).trans ?_) | split)

/-! ### Ring -/

theorem State.mapJobs_root (s : State) (f : RingJob → RingJob) : (State.mapJobs s f).root = s.root := by
  unfold State.mapJobs
  rfl
theorem State.modJob_root (s : State) (c job : Nat) (f : RingJob → RingJob) : (State.modJob s c job f).root = s.root := by
  unfold State.modJob
  rfl
theorem State.freeBuf_root (s : State) (l ch b : Nat) : (State.freeBuf s l ch b).root = s.root := by
  unfold State.freeBuf
  repeat' (first | with_reducible rfl | simp only [↓State.setLink_root, ↓State.sendOn_root] | split)
theorem State.freeJob_root (s : State) (j : RingJob) : (State.freeJob s j).root = s.root := by
  unfold State.freeJob
  repeat' (first | with_reducible rfl | simp only [↓State.modJob_root, ↓State.freeBuf_root] | split)
theorem State.freeBufs_root (s : State) (c : Nat) : (State.freeBufs s c).root = s.root := by
  unfold State.freeBufs
  repeat' (first | with_reducible rfl | simp only [↓State.freeJob_root] | refine (foldl_root ?_ _ _).trans ?_ | (intro _) | split)
theorem State.usedBuf_root (s : State) (j : RingJob) (l b : Nat) (f : HeldBlock → HeldBlock) : (State.usedBuf s j l b f).root = s.root := by
  unfold State.usedBuf
  repeat' (first | with_reducible rfl | simp only [↓State.modJob_root, ↓State.freeBuf_root] | split)
theorem State.eachBuf_root (s : State) (c : Nat) (f : RingJob → Nat → HeldBlock → HeldBlock) : (State.eachBuf s c f).root = s.root := by
  unfold State.eachBuf
  repeat' (first | with_reducible rfl | simp only [↓State.usedBuf_root] | refine (foldl_root ?_ _ _).trans ?_ | (intro _) | split)
theorem State.readBufs_root (s : State) (c : Nat) : (State.readBufs s c).root = s.root := by
  unfold State.readBufs
  repeat' (first | with_reducible rfl | simp only [↓State.eachBuf_root] | split)
theorem State.ringRead_root (s : State) (c a off : Nat) : (State.ringRead s c a off).root = s.root := by
  unfold State.ringRead
  repeat' (first | with_reducible rfl | simp only [↓State.eachBuf_root] | split)
theorem State.ringSent_root (s : State) (l ch b : Nat) (east : Bool) : (State.ringSent s l ch b east).root = s.root := by
  unfold State.ringSent
  repeat' (first | with_reducible rfl | simp only [↓State.usedBuf_root] | split)
theorem State.setBarrier_root (s : State) (dev : Bool) (k : Nat) (b : Barrier) : (State.setBarrier s dev k b).root = s.root := by
  unfold State.setBarrier
  rfl
theorem State.finishBarrier_root (s : State) (dev : Bool) (k : Nat) : (State.finishBarrier s dev k).root = s.root := by
  unfold State.finishBarrier
  repeat' (first | with_reducible rfl | simp only [↓State.modQueue_root, ↓State.setBarrier_root, ↓State.settleAll_root] | refine (foldl_root ?_ _ _).trans ?_ | split | intro)
theorem State.ringBarrier_root (s : State) (c : Nat) : (State.ringBarrier s c).root = s.root := by
  unfold State.ringBarrier
  repeat' (first | with_reducible rfl | simp only [↓State.setBarrier_root] | refine (foldl_root ?_ _ _).trans ?_ | (intro _) | split)
theorem State.ringLocal_root (s : State) (c job : Nat) : (State.ringLocal s c job).root = s.root := by
  unfold State.ringLocal
  repeat' (first | with_reducible rfl | simp only [↓State.sendOn_root, ↓State.modJob_root] | split)
theorem State.barrierDone_root (s : State) (dev : Bool) (k : Nat) : (State.barrierDone s dev k).root = s.root := by
  unfold State.barrierDone
  repeat' (first | with_reducible rfl | simp only [↓State.finishBarrier_root, ↓State.ringLocal_root] | refine (foldl_root ?_ _ _).trans ?_ | (intro _) | split)
theorem State.ringLate_root (s : State) (j : RingJob) (x : Ctx) (t : Nat) : (State.ringLate s j x t).root = s.root := by
  unfold State.ringLate
  repeat' (first | with_reducible rfl | simp only [↓State.risk_root] | split)
theorem State.landCanvas_root (s : State) (j : RingJob) (x : Ctx) (b : Nat) (data : Bytes) : (State.landCanvas s j x b data).root = s.root := by
  unfold State.landCanvas
  repeat' (first | with_reducible rfl | simp only [↓State.canPut_root, ↓State.tallyAdd_root, ↓State.ringLate_root, ↓State.settleAll_root] | split)
theorem State.ringPlaced_root (s : State) (c : Nat) : (State.ringPlaced s c).root = s.root := by
  unfold State.ringPlaced
  repeat' (first | with_reducible rfl | simp only [↓State.ringBarrier_root, ↓State.modJob_root, ↓State.landCanvas_root] | refine (foldl_root ?_ _ _).trans ?_ | (intro _) | split)

/-! ### Kv -/

theorem State.lpCopy_root (s : State) (c src dst n : Nat) : (State.lpCopy s c src dst n).root = s.root := by
  unfold State.lpCopy
  repeat' (first | with_reducible rfl | simp only [↓State.lpWrite_root] | refine (pair_root (by assumption) (State.lpRead_root ..)).trans ?_ | refine (pair_root (by assumption) (State.lpWrite_root ..)).trans ?_ | split)
theorem State.dropTlb_root (s : State) (p : TlbEntry → Bool) : (State.dropTlb s p).root = s.root := by
  unfold State.dropTlb
  rfl
theorem State.lpwFrame_root (s : State) (c a site lpn : Nat) (r : Nat) : (State.lpwFrame s c a site lpn r).1.root = s.root := by
  unfold State.lpwFrame
  repeat' (first | with_reducible rfl | simp only [↓State.count_root, ↓State.contained_root, ↓State.setRead_root] | refine (pair_root (by assumption) (State.lpRead_root ..)).trans ?_ | split)
theorem State.homeFrame_root (s : State) (c a site : Nat) (r : Nat) (q : Seq) (p : Nat) (write : Bool) : (State.homeFrame s c a site r q p write).1.root = s.root := by
  unfold State.homeFrame
  repeat' (first | with_reducible rfl | simp only [↓State.contained_root] | refine (pair_root (by assumption) (State.lpwFrame_root ..)).trans ?_ | split)
theorem State.copyHome_root (s : State) (c : Nat) (x : Ctx) (r : Nat) (home : Nat) (pr : Pair2) : (State.copyHome s c x r home pr).root = s.root := by
  unfold State.copyHome
  repeat' (first | with_reducible rfl | simp only [↓State.lpWrite_root, ↓State.putReading_root] | refine (pair_root (by assumption) (State.readRanges_root ..)).trans ?_ | refine (pair_root (by assumption) (State.lpWrite_root ..)).trans ?_ | split)
theorem State.pairHome_root (s : State) (c r : Nat) (pr : Pair2) : (State.pairHome s c r pr).1.root = s.root := by
  unfold State.pairHome
  repeat' (first | with_reducible rfl | refine (pair_root (by assumption) (State.lpwFrame_root ..)).trans ?_ | split)
theorem State.sendHome_root (s : State) (c : Nat) (x : Ctx) (r : Nat) (pr : Pair2) : (State.sendHome s c x r pr).root = s.root := by
  unfold State.sendHome
  repeat' (first | with_reducible rfl | simp only [↓State.copyHome_root] | refine (pair_root (by assumption) (State.pairHome_root ..)).trans ?_ | split)
theorem State.copyHomes_root (s : State) (c : Nat) (p : Pair2 → Bool) : (State.copyHomes s c p).root = s.root := by
  unfold State.copyHomes
  repeat' (first | with_reducible rfl | simp only [↓State.sendHome_root] | refine (foldl_root ?_ _ _).trans ?_ | split | intro)
theorem State.cow_root (s : State) (c : Nat) (r : Nat) (p t : Nat) (q : Seq) : (State.cow s c r p t q).root = s.root := by
  unfold State.cow
  repeat' (first | with_reducible rfl | simp only [↓State.copyHomes_root, ↓State.putReading_root, ↓State.count_root, ↓State.lpCopy_root, ↓State.risk_root] | refine (foldl_root ?_ _ _).trans ?_ | split | intro)
theorem State.tailRow_root (s : State) (c : Nat) (x : Ctx) (r : Nat) (site head name home off : Nat) : (State.tailRow s c x r site head name home off).root = s.root := by
  unfold State.tailRow
  repeat' (first | with_reducible rfl | simp only [↓State.freeNat_root, ↓State.canPut_root, ↓State.putReading_root, ↓State.lpWrite_root] | refine (pair_root2 (by assumption) (State.freeNat_root ..)).trans ?_ | refine (pair_root (by assumption) (State.lpWrite_root ..)).trans ?_ | split)
theorem State.writePos_root (s : State) (c : Nat) (x : Ctx) (r : Nat) (n : Nat) (q : Seq) (groups : List (Nat × Nat × Nat × Nat)) : (State.writePos s c x r n q groups).root = s.root := by
  unfold State.writePos
  repeat' (first | with_reducible rfl | simp only [↓State.cow_root, ↓State.putReading_root, ↓State.tailRow_root] | refine (pair_root (by assumption) (State.homeFrame_root ..)).trans ?_ | refine (foldl_root ?_ _ _).trans ?_ | split | intro)
theorem State.releasePages_root (s : State) (c : Nat) (q : Seq) (from0 : Nat) : (State.releasePages s c q from0).root = s.root := by
  unfold State.releasePages
  repeat' (first | with_reducible rfl | simp only [↓State.copyHomes_root, ↓State.putReading_root] | split)
theorem State.moveBitmap_root (s : State) (c : Nat) (x : Ctx) (st : AttnSite) (e : Nat) (g : AttnGroup) (q : Seq) (b p : Nat) : (State.moveBitmap s c x st e g q b p).1.root = s.root := by
  unfold State.moveBitmap
  repeat' (first | with_reducible rfl | simp only [↓State.palPut_root] | refine (pair_root (by assumption) (State.lpRead_root ..)).trans ?_ | split)
theorem State.poolPlace_root (s : State) (c : Nat) (x : Ctx) (r a : Nat) : (State.poolPlace s c x r a).1.root = s.root := by
  unfold State.poolPlace
  repeat' (first | with_reducible rfl | simp only [↓State.sendHome_root, ↓State.count_root, ↓State.putReading_root] | split)
theorem State.dropPair_root (s : State) (c : Nat) (x : Ctx) (r : Nat) (pr : Pair2) : (State.dropPair s c x r pr).root = s.root := by
  unfold State.dropPair
  repeat' (first | with_reducible rfl | simp only [↓State.putReading_root, ↓State.sendHome_root] | split)
theorem State.pairFromHome_root {put : State → Bytes → State} (hk : ∀ s b, (put s b).root = s.root) (s : State) (c : Nat)
    (x : Ctx) (r a site head name home : Nat) (keep : Bool) :
    (State.pairFromHome s c x r a site head name home keep put).1.root = s.root := by
  unfold State.pairFromHome
  repeat' (first | with_reducible rfl | (refine (hk ..).trans ?_) | simp only [↓State.putReading_root, ↓State.canPut_root] | (refine (pair_root (by assumption) (State.lpRead_root ..)).trans ?_) | (refine (pair_root (by assumption) (State.poolPlace_root ..)).trans ?_) | split)
theorem State.movePair_root {put : State → Bytes → State} (hk : ∀ s b, (put s b).root = s.root) (s : State) (c : Nat) (x : Ctx)
    (r a site head : Nat) (mode : WalkMode) (name home : Nat) :
    (State.movePair s c x r a site head mode name home put).1.root = s.root := by
  unfold State.movePair
  repeat' (first | with_reducible rfl | (refine (hk ..).trans ?_) | (refine (State.pairFromHome_root hk ..).trans ?_) | simp only [↓State.putReading_root, ↓State.dropPair_root, ↓State.sendHome_root] | (refine (pair_root (by assumption) (State.readRanges_root ..)).trans ?_) | split)
theorem State.movePairs_root {put : Nat → State → Bytes → State} (hk : ∀ i s b, (put i s b).root = s.root) (s : State)
    (c : Nat) (x : Ctx) (r a site : Nat) (g : AttnGroup) (mode : WalkMode) (name home : Nat) :
    (State.movePairs s c x r a site g mode name home put).1.root = s.root := by
  unfold State.movePairs
  refine (foldl_root1 (fun w i => ?_) _ _).trans rfl
  split
  · exact State.movePair_root (hk i) ..
  · rfl
theorem State.walkPairs_root (s : State) (c : Nat) (x : Ctx) (r : Nat) (st : AttnSite) (e : Nat) (g : AttnGroup) (q : Seq) (m : Emitted) (fw : Nat) (late : Bool) : (State.walkPairs s c x r st e g q m fw late).1.root = s.root := by
  unfold State.walkPairs
  repeat' (first | with_reducible rfl | simp only [↓State.count_root, ↓State.spPut_root] | refine (pair_root (by assumption) (State.homeFrame_root ..)).trans ?_ | refine (State.movePairs_root ?_ ..).trans ?_ | (intro _) | split)
theorem State.walkBlock_root (s : State) (c : Nat) (x : Ctx) (r : Nat) (st : AttnSite) (e : Nat) (g : AttnGroup) (m : Emitted) (late : Bool) : (State.walkBlock s c x r st e g m late).root = s.root := by
  unfold State.walkBlock
  repeat' (first | with_reducible rfl | simp only [↓State.readRanges_root, ↓State.tallyAdd_root, ↓State.moveBitmap_root, ↓State.walkPairs_root] | refine (pair_root (by assumption) (State.readRanges_root ..)).trans ?_ | refine (pair_root (by assumption) (State.moveBitmap_root ..)).trans ?_ | refine (pair_root (by assumption) (State.walkPairs_root ..)).trans ?_ | split)
theorem State.walkGroup_root (s : State) (c : Nat) (x : Ctx) (r seq page gi : Nat) (st : AttnSite) (e : Nat) (g : AttnGroup) : (State.walkGroup s c x r seq page gi st e g).root = s.root := by
  unfold State.walkGroup
  repeat' (first | with_reducible rfl | simp only [↓State.putReading_root, ↓State.walkBlock_root] | split)
theorem execPageWalk_root (ctx : Nat) (site : Nat) (seq : Nat) (page : Nat) (s : State) : ∃ t, execPageWalk ctx site seq page s = .next t ∧ t.root = s.root := by
  refine ⟨_, rfl, ?_⟩
  repeat' (first | with_reducible rfl | simp only [↓State.settleAll_root, ↓State.walkGroup_root] | refine (foldl_root ?_ _ _).trans ?_ | intro _ _ | split)
theorem State.nextMask_root (s : State) (c : Nat) (x : Ctx) (gi : Nat) (st : AttnSite) (e : Nat) (g : AttnGroup) (done : Nat) : (State.nextMask s c x gi st e g done).root = s.root := by
  unfold State.nextMask
  repeat' (first | with_reducible rfl | simp only [↓State.putReading_root, ↓State.moveBitmap_root] | refine (pair_root (by assumption) (State.moveBitmap_root ..)).trans ?_ | split)
theorem State.nextMasks_root (s : State) (c : Nat) (runs : Option (Nat × Nat)) : (State.nextMasks s c runs).root = s.root := by
  unfold State.nextMasks
  repeat' (first | with_reducible rfl | simp only [↓State.nextMask_root] | refine (foldl_root ?_ _ _).trans ?_ | (intro _) | split)
theorem State.forwardRead_root (s : State) (c e q : Nat) (off : Option Nat) : (State.forwardRead s c e q off).root = s.root := by
  unfold State.forwardRead
  repeat' (first | with_reducible rfl | simp only [↓State.ringRead_root, ↓State.nextMasks_root] | split)
theorem State.ringBegin_root (s : State) (c : Nat) : (State.ringBegin s c).root = s.root := by
  unfold State.ringBegin
  repeat' (first | with_reducible rfl | simp only [↓State.modJob_root] | split)

/-! ### Reading -/

theorem State.applyInvals_root (s : State) (c : Nat) : (State.applyInvals s c).root = s.root := by
  unfold State.applyInvals
  repeat' (first | with_reducible rfl | simp only [↓State.dropTlb_root, ↓State.reply_root, ↓State.putReading_root] | refine (foldl_root ?_ _ _).trans ?_ | intro)
theorem State.settle_root (s : State) (c : Nat) : (State.settle s c).root = s.root := by
  unfold State.settle
  repeat' (first | with_reducible rfl | simp only [↓State.modCtx_root, ↓State.putReading_root, ↓State.applyInvals_root] | split)
theorem State.endSeq_root (s : State) (c j : Nat) : (State.endSeq s c j).root = s.root := by
  unfold State.endSeq
  repeat' (first | with_reducible rfl | simp only [↓State.releasePages_root, ↓State.modSeq_root, ↓State.finishItem_root, ↓State.sweepLexicons_root, ↓State.settle_root] | split)
theorem State.shutField_root (s : State) (c : Nat) (q : Seq) (code : Nat) : (State.shutField s c q code).1.root = s.root := by
  unfold State.shutField
  repeat' (first | with_reducible rfl | simp only [↓State.count_root] | split)
theorem State.flushSeq_root (s : State) (c : Nat) (p : TextProfile) (q : Seq) : (State.flushSeq s c p q).1.root = s.root := by
  unfold State.flushSeq
  repeat' (first | with_reducible rfl | simp only [↓State.countDetok_root] | split)
theorem State.nextField_root (s : State) (c : Nat) (p : TextProfile) (g : Bytes) (q : Seq) : (State.nextField s c p g q).1.root = s.root := by
  unfold State.nextField
  repeat' (first | with_reducible rfl | simp only [↓State.countDetok_root] | split)
theorem State.closeSeqField_root (s : State) (c j code : Nat) : (State.closeSeqField s c j code).root = s.root := by
  unfold State.closeSeqField
  repeat' (first | with_reducible rfl | simp only [↓State.modSeq_root, ↓State.applyLexicons_root, ↓State.endSeq_root, ↓State.shutField_root, ↓State.flushSeq_root, ↓State.nextField_root] | refine (pair_root (by assumption) (State.shutField_root ..)).trans ?_ | refine (pair_root (by assumption) (State.flushSeq_root ..)).trans ?_ | refine (pair_root (by assumption) (State.nextField_root ..)).trans ?_ | split)
theorem State.tearFields_root (s : State) (c : Nat) (p : TextProfile) (g : Bytes) (f : Nat) (q : Seq) :
    (State.tearFields s c p g f q).1.root = s.root := by
  induction f generalizing s q with
  | zero => rfl
  | succ f ih =>
    unfold State.tearFields
    repeat' (first | with_reducible rfl | (refine (ih ..).trans ?_) | simp only [↓State.shutField_root, ↓State.flushSeq_root, ↓State.nextField_root] | split)
theorem State.tornFields_root (s : State) (c : Nat) (q : Seq) : (State.tornFields s c q).1.root = s.root := by
  unfold State.tornFields
  repeat' (first | with_reducible rfl | simp only [↓State.tearFields_root] | split)
theorem execFieldEndVerdict_root (ctx : Nat) (seq : Nat) (s : State) : ∃ t, execFieldEndVerdict ctx seq s = .next t ∧ t.root = s.root := by
  refine ⟨_, rfl, ?_⟩
  repeat' (first | with_reducible rfl | simp only [↓State.closeSeqField_root] | split)
theorem State.slotTiles_root (s : State) (c bucket : Nat) (o : Option Nat) : (State.slotTiles s c bucket o).1.root = s.root := by
  unfold State.slotTiles
  repeat' (first | with_reducible rfl | simp only [↓State.bufGet_root] | refine (pair_root (by assumption) (State.bufGet_root ..)).trans ?_ | split)
theorem State.targetTokens_root (s : State) (c : Nat) (b : Bytes) : (State.targetTokens s c b).1.root = s.root := by
  unfold State.targetTokens
  repeat' (first | with_reducible rfl | simp only [↓State.countText_root] | refine (pair_root (by assumption) (State.jobReads_root ..)).trans ?_ | split)
theorem State.newSeq_root (s : State) (c j : Nat) (o : Option Nat) : (State.newSeq s c j o).1.root = s.root := by
  unfold State.newSeq
  repeat' (first | with_reducible rfl | simp only [↓State.setRead_root, ↓State.freeNat_root, ↓State.count_root, ↓State.putReading_root, ↓State.targetTokens_root] | refine (pair_root2 (by assumption) (State.freeNat_root ..)).trans ?_ | refine (pair_root (by assumption) (State.targetTokens_root ..)).trans ?_ | split)
theorem State.newSeqs_root (s : State) (c : Nat) (l : List (Option Nat)) (j : Nat) : (State.newSeqs s c l j).1.root = s.root := by
  induction l generalizing s j with
  | nil => rfl
  | cons o r ih =>
    unfold State.newSeqs
    exact (ih ..).trans (State.newSeq_root ..)
theorem State.handOver_root (s : State) (c : Nat) (n : Nat) : (State.handOver s c n).root = s.root := by
  unfold State.handOver
  repeat' (first | with_reducible rfl | simp only [↓State.risk_root, ↓State.modCtx_root, ↓State.modItem_root, ↓State.setIntake_root] | split)
theorem State.maskNow_root (s : State) (c : Nat) : (State.maskNow s c).root = s.root := by
  unfold State.maskNow
  repeat' (first | with_reducible rfl | simp only [↓State.putReading_root] | split)
theorem State.standing_root (s : State) (c : Nat) : (State.standing s c).root = s.root := by
  unfold State.standing
  repeat' (first | with_reducible rfl | simp only [↓State.risk_root] | split)
theorem State.batchTiles_root (s : State) (c bucket : Nat) (l : List (Option Nat)) : (State.batchTiles s c bucket l).1.root = s.root := by
  induction l generalizing s with
  | nil => rfl
  | cons o r ih => exact (ih _).trans (State.slotTiles_root ..)
theorem execBatchDispatch_root (ctx : Nat) (bucket : Nat) (s : State) : ∃ t, execBatchDispatch ctx bucket s = .next t ∧ t.root = s.root := by
  refine ⟨_, rfl, ?_⟩
  repeat' (first | with_reducible rfl | simp only [↓State.leaveIdle_root, ↓State.modCtx_root, ↓State.count_root, ↓State.refillBucket_root, ↓State.failItem_root, ↓State.putReading_root, ↓State.applyLexicons_root, ↓State.ringEvent_root, ↓State.newSeqs_root, ↓State.handOver_root, ↓State.maskNow_root, ↓State.standing_root, ↓State.batchTiles_root] | refine (pair_root (by assumption) (State.ringEvent_root ..)).trans ?_ | refine (pair_root (by assumption) (State.newSeqs_root ..)).trans ?_ | refine (pair_root (by assumption) (State.batchTiles_root ..)).trans ?_ | refine (foldl_root ?_ _ _).trans ?_ | (intro _) | split)
theorem State.notePages_root (s : State) (c r : Nat) (q : Seq) (n : Nat) (full : List Nat) : (State.notePages s c r q n full).root = s.root := by
  unfold State.notePages
  repeat' (first | with_reducible rfl | simp only [↓State.setRead_root, ↓State.putReading_root] | refine (foldl_root ?_ _ _).trans ?_ | intro _ _ | split)
theorem State.growSeq_root (s : State) (c : Nat) (x : Ctx) (j : Nat) (q : Seq) (n r : Nat) : (State.growSeq s c x j q n r).root = s.root := by
  unfold State.growSeq
  repeat' (first | with_reducible rfl | simp only [↓State.copyHomes_root, ↓State.writePos_root, ↓State.notePages_root] | refine (foldl_root ?_ _ _).trans ?_ | intro _ _ | split)
theorem State.stepSeq_root (s : State) (c : Nat) (x : Ctx) (j : Nat) : (State.stepSeq s c x j).root = s.root := by
  unfold State.stepSeq
  repeat' (first | with_reducible rfl | simp only [↓State.modSeq_root, ↓State.endSeq_root, ↓State.flushSeq_root, ↓State.closeSeqField_root, ↓State.growSeq_root] | refine (pair_root (by assumption) (State.flushSeq_root ..)).trans ?_ | split)
theorem State.emitGroup_root (s : State) (c : Nat) (x : Ctx) (st : AttnSite) (e gi : Nat) (g : AttnGroup) : (State.emitGroup s c x st e gi g).1.root = s.root := by
  unfold State.emitGroup
  repeat' (first | with_reducible rfl | simp only [↓State.palPut_root, ↓State.ring1_root] | refine (pair_root (by assumption) (State.readRanges_root ..)).trans ?_ | split)
theorem State.ringStep_root (s : State) (c : Nat) : (State.ringStep s c).root = s.root := by
  unfold State.ringStep
  repeat' (first | with_reducible rfl | simp only [↓State.usedBuf_root] | refine (foldl_root ?_ _ _).trans ?_ | (intro _) | split)
theorem State.streamPools_root (s : State) (c : Nat) (x : Ctx) : (State.streamPools s c x).root = s.root := by
  unfold State.streamPools
  repeat' (first | with_reducible rfl | simp only [↓State.dropPair_root] | refine (foldl_root ?_ _ _).trans ?_ | (intro _) | split)
theorem State.siteCounts_root (s : State) (c : Nat) (x : Ctx) : (State.siteCounts s c x).root = s.root := by
  unfold State.siteCounts
  repeat' (first | with_reducible rfl | simp only [↓State.freeNat_root, ↓State.putReading_root] | refine (pair_root2 (by assumption) (State.freeNat_root ..)).trans ?_ | refine (foldl_root ?_ _ _).trans ?_ | intro _ _ | split)
theorem State.lengthTables_root (s : State) (c : Nat) (x : Ctx) : (State.lengthTables s c x).root = s.root := by
  unfold State.lengthTables
  repeat' (first | with_reducible rfl | simp only [↓State.lpWrite_root] | refine (pair_root2 (by assumption) (State.freeNat_root ..)).trans ?_ | refine (pair_root (by assumption) (State.lpWrite_root ..)).trans ?_ | refine (foldl_root ?_ _ _).trans ?_ | intro)
theorem State.readSummaries_root (s : State) (c : Nat) (x : Ctx) : (State.readSummaries s c x).root = s.root := by
  unfold State.readSummaries
  repeat' (first | with_reducible rfl | simp only [↓State.lpRead_root] | refine (pair_root (by assumption) (State.lpRead_root ..)).trans ?_ | refine (foldl_root ?_ _ _).trans ?_ | (intro _) | split)
theorem State.startStep_root (s : State) (c : Nat) (x : Ctx) : (State.startStep s c x).root = s.root := by
  unfold State.startStep
  refine (State.putReading_root ..).trans ?_
  refine (foldl_root1 (fun p g => ?_) _ _).trans (State.ringEvent_root ..)
  exact State.emitGroup_root ..
theorem execDecoderStepStart_root (ctx : Nat) (s : State) : ∃ t, execDecoderStepStart ctx s = .next t ∧ t.root = s.root := by
  refine ⟨_, rfl, ?_⟩
  split
  · rfl
  · dsimp only
    split
    · rfl
    · split
      · refine (foldl_root (fun _ _ => State.stepSeq_root ..) _ _).trans ?_
        rw [State.putReading_root, State.standing_root, State.modCtx_root, State.applyInvals_root]
      · rw [apply_ite State.root, State.nextMasks_root, State.ringStep_root, State.startStep_root, State.ringBegin_root, ite_self,
          State.streamPools_root, State.readSummaries_root, State.lengthTables_root, State.siteCounts_root, State.putReading_root]
        refine (foldl_root (fun _ _ => State.stepSeq_root ..) _ _).trans ?_
        rw [State.putReading_root, State.standing_root, State.modCtx_root, State.applyInvals_root]
theorem State.readToken_root (s : State) (c t : Nat) : (State.readToken s c t).1.root = s.root := by
  unfold State.readToken
  repeat' (first | with_reducible rfl | simp only [↓State.readRanges_root] | split)
theorem State.commitText_root (s : State) (c : Nat) (x : Ctx) (p : TextProfile) (q : Seq) (t : Nat) : (State.commitText s c x p q t).1.root = s.root := by
  unfold State.commitText
  repeat' (first | with_reducible rfl | simp only [↓State.countDetok_root, ↓State.flushSeq_root] | refine (pair_root (by assumption) (State.flushSeq_root ..)).trans ?_ | split)
theorem State.commitSeq_root (s : State) (c : Nat) (x : Ctx) (list : Nat) (j : Nat) : (State.commitSeq s c x list j).root = s.root := by
  unfold State.commitSeq
  repeat' (first | with_reducible rfl | simp only [↓State.count_root, ↓State.contained_root, ↓State.lpRead_root, ↓State.modSeq_root, ↓State.fetchNode_root, ↓State.commitText_root] | refine (pair_root (by assumption) (State.lpRead_root ..)).trans ?_ | refine (pair_root (by assumption) (State.walkRead_root ..)).trans ?_ | refine (pair_root (by assumption) (State.readToken_root ..)).trans ?_ | refine (pair_root (by assumption) (State.commitText_root ..)).trans ?_ | split)
theorem State.commitStep_root (s : State) (c : Nat) (x : Ctx) (st : StencilSite) : (State.commitStep s c x st).root = s.root := by
  unfold State.commitStep
  repeat' (first | with_reducible rfl | simp only [↓State.commitSeq_root, ↓State.putReading_root, ↓State.maskNow_root] | refine (foldl_root ?_ _ _).trans ?_ | intro)
theorem State.queueEnded_root (s : State) (c e q : Nat) : (State.queueEnded s c e q).root = s.root := by
  unfold State.queueEnded
  repeat' (first | with_reducible rfl | simp only [↓State.putReading_root, ↓State.commitStep_root, ↓State.endSeq_root, ↓State.settle_root] | refine (foldl_root ?_ _ _).trans ?_ | split | intro)
theorem State.writeMask_root (s : State) (c : Nat) (x : Ctx) (g : Grammar) (j : Nat) (q : Seq) (k : MaskKind) : (State.writeMask s c x g j q k).root = s.root := by
  unfold State.writeMask
  repeat' (first | with_reducible rfl | simp only [↓State.freeNat_root, ↓State.count_root, ↓State.lpWrite_root] | refine (pair_root2 (by assumption) (State.freeNat_root ..)).trans ?_ | refine (pair_root (by assumption) (State.lpWrite_root ..)).trans ?_ | refine (foldl_root ?_ _ _).trans ?_ | (intro _) | split)
theorem State.writeMasks_root (s : State) (c : Nat) (x : Ctx) (g : Grammar) (j : Nat) (l : List Seq) :
    (State.writeMasks s c x g j l).1.root = s.root := by
  induction l generalizing s j with
  | nil => rfl
  | cons q r ih =>
    unfold State.writeMasks
    split
    · exact (ih _ _).trans (State.modSeq_root ..)
    · split
      · rename_i h
        exact pair_root h (State.walkRead_root ..)
      · rename_i h
        exact (ih _ _).trans ((State.modSeq_root ..).trans ((State.writeMask_root ..).trans (pair_root h (State.walkRead_root ..))))
theorem execMaskBuildComplete_root (ctx : Nat) (s : State) : ∃ t, execMaskBuildComplete ctx s = .next t ∧ t.root = s.root := by
  refine ⟨_, rfl, ?_⟩
  repeat' (first | with_reducible rfl | simp only [↓State.risk_root, ↓State.tallyAdd_root, ↓State.putReading_root, ↓State.settleAll_root, ↓State.settle_root] | refine (pair_root (by assumption) (State.writeMasks_root ..)).trans ?_ | refine (foldl_root ?_ _ _).trans ?_ | (intro _) | split)
theorem execDeadEndReport_root (ctx : Nat) (seq : Nat) (s : State) : ∃ t, execDeadEndReport ctx seq s = .next t ∧ t.root = s.root := by
  refine ⟨_, rfl, ?_⟩
  repeat' (first | with_reducible rfl | simp only [↓State.count_root, ↓State.modSeq_root, ↓State.releasePages_root, ↓State.endSeq_root, ↓State.shutField_root, ↓State.flushSeq_root, ↓State.writeMask_root] | refine (pair_root (by assumption) (State.walkRead_root ..)).trans ?_ | refine (pair_root (by assumption) (State.shutField_root ..)).trans ?_ | refine (pair_root (by assumption) (State.flushSeq_root ..)).trans ?_ | split)

end Sys2Proof.Machine
end

