-- ==== Sys2Proof/Laws/RootEasel.lean ====
section
/-! SUPPORT. Laws/RootEasel.lean: of easel commands and DMA: what only the seal core, boot and resets change stays as it was. -/

namespace Sys2Proof.Machine

/-! ### Matrix -/

theorem State.withRanges_rootOf {k : State → State × BodyEnd} (hk : ∀ s t, k s = t → t.1.root = s.root) (s : State) (c e : Nat)
    (reads writes : List Range) : (State.withRanges s c e reads writes k).1.root = s.root :=
  State.withRanges_root (fun s => hk s _ rfl) ..
theorem State.withGlaze_eq (k : Glaze → State → State × BodyEnd) (s : State) (c e addr limit : Nat) :
    State.withGlaze s c e addr limit k = s.withRanges c e [⟨false, addr, 64⟩] [] (fun s =>
      if glazeHdrOk (leNat (s.palBytes e addr 64)) limit then
        s.withRanges c e [⟨false, addr + 64, glazeListLen (glazeN (leNat (s.palBytes e addr 64)))⟩] [] (fun t =>
          if glazeListOk (glazeN (leNat (s.palBytes e addr 64))) limit
              (t.palBytes e (addr + 64) (glazeListLen (glazeN (leNat (s.palBytes e addr 64))))) then
            k { act := fld (leNat (s.palBytes e addr 64)) 63 32, actStride := fld (leNat (s.palBytes e addr 64)) 95 64,
                wt := fld (leNat (s.palBytes e addr 64)) 127 96, wtStride := fld (leNat (s.palBytes e addr 64)) 159 128,
                list := glazeList (glazeN (leNat (s.palBytes e addr 64)))
                  (t.palBytes e (addr + 64) (glazeListLen (glazeN (leNat (s.palBytes e addr 64))))) } t
          else (t, .format))
      else (s, .format)) := rfl
theorem State.withGlaze_root {k : Glaze → State → State × BodyEnd} (hk : ∀ z s, (k z s).1.root = s.root) (s : State)
    (c e addr limit : Nat) : (State.withGlaze s c e addr limit k).1.root = s.root := by
  rw [State.withGlaze_eq]
  refine State.withRanges_rootOf (fun s t h => ?_) ..
  split at h
  · rw [← h]
    refine State.withRanges_rootOf (fun s t h => ?_) ..
    split at h
    · rw [← h]; exact hk ..
    · rw [← h]
  · rw [← h]
theorem State.accPut_root (s : State) (e bank row j v : Nat) : (State.accPut s e bank row j v).root = s.root := by
  unfold State.accPut
  rfl
theorem State.setRowKind_root (s : State) (e bank row k : Nat) : (State.setRowKind s e bank row k).root = s.root := by
  unfold State.setRowKind
  rfl
theorem State.freeAccRow_root (s : State) (e bank row : Nat) : (State.freeAccRow s e bank row).root = s.root := by
  unfold State.freeAccRow
  repeat' (first | with_reducible rfl | simp only [↓State.freeNat_root, ↓State.accPut_root] | refine (pair_root2 (by assumption) (State.freeNat_root ..)).trans ?_ | refine (foldl_root ?_ _ _).trans ?_ | intro)
theorem State.mmRow_root (s0 : State) (c e w : Nat) (z : Option Glaze) (s : State) (r : Nat) : (State.mmRow s0 c e w z s r).root = s.root := by
  unfold State.mmRow
  repeat' (first | with_reducible rfl | simp only [↓State.freeAccRow_root, ↓State.accPut_root, ↓State.count_root, ↓State.setRowKind_root] | refine (foldl_root ?_ _ _).trans ?_ | split | intro)
theorem State.mmRun_root (s : State) (c e w : Nat) (z : Option Glaze) : (State.mmRun s c e w z).1.root = s.root := by
  unfold State.mmRun
  refine State.withRanges_root (fun s => ?_) ..
  split
  · rfl
  · exact foldl_root (fun s1 r => State.mmRow_root ..) _ _
theorem State.matmul_root (s : State) (c e w : Nat) : (State.matmul s c e w).1.root = s.root := by
  unfold State.matmul
  repeat' (first | with_reducible rfl | simp only [↓State.mmRun_root] | refine (State.withGlaze_root ?_ ..).trans ?_ | refine (pair_root (by assumption) (State.mmRun_root ..)).trans ?_ | split | intro)
theorem execMatmul_root (e q : Nat) (s : State) : ∃ t, execMatmul e q s = .next t ∧ t.root = s.root := by
  refine ⟨_, rfl, ?_⟩
  repeat' (first | with_reducible rfl | simp only [↓State.matmul_root] | refine (State.runCommand_root ?_ ..).trans ?_ | refine (pair_root (by assumption) (State.matmul_root ..)).trans ?_ | intro)
theorem State.drainRow_root (s : State) (c e w r : Nat) : (State.drainRow s c e w r).root = s.root := by
  unfold State.drainRow
  repeat' (first | with_reducible rfl | simp only [↓State.spPut_root, ↓State.countSat_root, ↓State.accPut_root] | refine (foldl_root ?_ _ _).trans ?_ | split | intro)
theorem State.drain_root (s : State) (c e w : Nat) : (State.drain s c e w).1.root = s.root := by
  unfold State.drain
  repeat' (first | with_reducible rfl | simp only [↓State.drainRow_root] | refine (State.withRanges_root ?_ ..).trans ?_ | refine (foldl_root ?_ _ _).trans ?_ | split | intro)
theorem execAccDrain_root (e q : Nat) (s : State) : ∃ t, execAccDrain e q s = .next t ∧ t.root = s.root := by
  refine ⟨_, rfl, ?_⟩
  repeat' (first | with_reducible rfl | simp only [↓State.drain_root] | refine (State.runCommand_root ?_ ..).trans ?_ | refine (pair_root (by assumption) (State.drain_root ..)).trans ?_ | intro)

/-! ### Conv -/

theorem State.gessoSlice_root (s0 : State) (c e w g : Nat) (f : Fmt) (ref : Nat × Nat) (s : State) (r q : Nat) : (State.gessoSlice s0 c e w g f ref s r q).root = s.root := by
  unfold State.gessoSlice
  repeat' (first | with_reducible rfl | simp only [↓State.putBlock_root, ↓State.count_root, ↓State.palPut_root] | split)
theorem State.gessoWrite_root (s : State) (c e w g : Nat) (f : Fmt) (ref : Nat × Nat) : (State.gessoWrite s c e w g f ref).root = s.root := by
  unfold State.gessoWrite
  have key : ∀ (n m : Nat) (s1 : State), ((List.range n).foldl (fun s1 r =>
      (List.range m).foldl (fun s1 q => s.gessoSlice c e w g f ref s1 r q) s1) s1).root = s1.root :=
    fun n m s1 => foldl_root (fun s1 r => foldl_root (fun s1 q => State.gessoSlice_root ..) _ _) _ _
  dsimp only
  split
  · exact (State.zeroTail_root ..).trans (key ..)
  · exact key ..
theorem State.freeGesso_root (s : State) (c e : Nat) : (State.freeGesso s c e).root = s.root := by
  unfold State.freeGesso
  repeat' (first | with_reducible rfl | simp only [↓State.freeNat_root, ↓State.palPut_root] | refine (pair_root2 (by assumption) (State.freeNat_root ..)).trans ?_ | split)
theorem State.gesso_root (s : State) (c e w : Nat) : (State.gesso s c e w).1.root = s.root := by
  unfold State.gesso
  repeat' (first | with_reducible rfl | simp only [↓State.gessoWrite_root, ↓State.freeGesso_root] | refine (State.withRanges_root ?_ ..).trans ?_ | refine (pair_root2 (by assumption) (State.freeNat_root ..)).trans ?_ | split | intro)
theorem execGessoExpand_root (e q : Nat) (s : State) : ∃ t, execGessoExpand e q s = .next t ∧ t.root = s.root := by
  refine ⟨_, rfl, ?_⟩
  repeat' (first | with_reducible rfl | simp only [↓State.gesso_root] | refine (State.runCommand_root ?_ ..).trans ?_ | refine (pair_root (by assumption) (State.gesso_root ..)).trans ?_ | intro)
theorem State.pool_root (s : State) (c e w : Nat) : (State.pool s c e w).1.root = s.root := by
  unfold State.pool
  repeat' (first | with_reducible rfl | simp only [↓State.spPut_root, ↓State.countSat_root] | refine (State.withRanges_root ?_ ..).trans ?_ | split | intro)
theorem execPoolMax_root (e q : Nat) (s : State) : ∃ t, execPoolMax e q s = .next t ∧ t.root = s.root := by
  refine ⟨_, rfl, ?_⟩
  repeat' (first | with_reducible rfl | simp only [↓State.pool_root] | refine (State.runCommand_root ?_ ..).trans ?_ | refine (pair_root (by assumption) (State.pool_root ..)).trans ?_ | intro)
theorem execPoolAvg_root (e q : Nat) (s : State) : ∃ t, execPoolAvg e q s = .next t ∧ t.root = s.root := by
  refine ⟨_, rfl, ?_⟩
  repeat' (first | with_reducible rfl | simp only [↓State.pool_root] | refine (State.runCommand_root ?_ ..).trans ?_ | refine (pair_root (by assumption) (State.pool_root ..)).trans ?_ | intro)

/-! ### Attn -/

theorem State.putStat_root (s : State) (e off : Nat) (t : Stat) : (State.putStat s e off t).root = s.root := by
  unfold State.putStat
  repeat' (first | with_reducible rfl | simp only [↓State.palPut_root])
theorem State.poison_root (s : State) (e w h i : Nat) (t : Stat) : (State.poison s e w h i t).root = s.root := by
  unfold State.poison
  repeat' (first | with_reducible rfl | simp only [↓State.palPut_root, ↓State.putStat_root])
theorem State.forwardRow_root (s : State) (c e w h i : Nat) : (State.forwardRow s c e w h i).root = s.root := by
  unfold State.forwardRow
  repeat' (first | with_reducible rfl | simp only [↓State.putStat_root, ↓State.poison_root, ↓State.palPut_root, ↓State.countSat_root] | split)
theorem State.freeScratch_root (s : State) (e w n : Nat) : (State.freeScratch s e w n).root = s.root := by
  unfold State.freeScratch
  repeat' (first | with_reducible rfl | simp only [↓State.freeNat_root, ↓State.palPut_root] | refine (pair_root2 (by assumption) (State.freeNat_root ..)).trans ?_)
theorem State.eachRow_root {f : State → Nat → Nat → State} (hk : ∀ s h i, (f s h i).root = s.root) (s : State) (w : Nat) :
    (State.eachRow s w f).root = s.root := by
  unfold State.eachRow
  exact foldl_root (fun s h => foldl_root (fun s i => hk s h i) _ _) _ _
theorem State.forward_root (s : State) (c e q0 w : Nat) : (State.forward s c e q0 w).1.root = s.root := by
  unfold State.forward
  repeat' (first | with_reducible rfl | simp only [↓State.forwardRow_root, ↓State.freeScratch_root, ↓State.forwardRead_root] | refine (State.eachRow_root ?_ ..).trans ?_ | refine (State.withRanges_root ?_ ..).trans ?_ | (intro _) | split)
theorem execForward_root (e q : Nat) (s : State) : ∃ t, execForward e q s = .next t ∧ t.root = s.root := by
  refine ⟨_, rfl, ?_⟩
  repeat' (first | with_reducible rfl | simp only [↓State.forward_root] | refine (pair_root (by assumption) (State.forward_root ..)).trans ?_ | refine (State.runCommand_root ?_ ..).trans ?_ | (intro _) | split)
theorem State.finaliseRow_root (s : State) (c e w h i : Nat) : (State.finaliseRow s c e w h i).root = s.root := by
  unfold State.finaliseRow
  repeat' (first | with_reducible rfl | simp only [↓State.palPut_root, ↓State.countSat_root, ↓State.putStat_root] | split)
theorem execFinalise_root (e q : Nat) (s : State) : ∃ t, execFinalise e q s = .next t ∧ t.root = s.root := by
  refine ⟨_, rfl, ?_⟩
  repeat' (first | with_reducible rfl | simp only [↓State.finaliseRow_root] | refine (State.runCommand_root ?_ ..).trans ?_ | refine (State.withRanges_root ?_ ..).trans ?_ | refine (State.eachRow_root ?_ ..).trans ?_ | intro)
theorem State.mergeRow_root (s : State) (e w h i : Nat) : (State.mergeRow s e w h i).root = s.root := by
  unfold State.mergeRow
  repeat' (first | with_reducible rfl | simp only [↓State.poison_root, ↓State.palPut_root, ↓State.putStat_root] | split)
theorem execMerge_root (e q : Nat) (s : State) : ∃ t, execMerge e q s = .next t ∧ t.root = s.root := by
  refine ⟨_, rfl, ?_⟩
  repeat' (first | with_reducible rfl | simp only [↓State.mergeRow_root] | refine (State.runCommand_root ?_ ..).trans ?_ | refine (State.withRanges_root ?_ ..).trans ?_ | refine (State.eachRow_root ?_ ..).trans ?_ | intro)
theorem State.prepRow_root (s : State) (e w h i : Nat) : (State.prepRow s e w h i).root = s.root := by
  unfold State.prepRow
  repeat' (first | with_reducible rfl | simp only [↓State.putStat_root])
theorem execBackwardPrep_root (e q : Nat) (s : State) : ∃ t, execBackwardPrep e q s = .next t ∧ t.root = s.root := by
  refine ⟨_, rfl, ?_⟩
  repeat' (first | with_reducible rfl | simp only [↓State.prepRow_root] | refine (State.runCommand_root ?_ ..).trans ?_ | refine (State.withRanges_root ?_ ..).trans ?_ | refine (State.eachRow_root ?_ ..).trans ?_ | intro)
theorem State.addRow_root (s : State) (e off d : Nat) (l : List FV) : (State.addRow s e off d l).root = s.root := by
  unfold State.addRow
  repeat' (first | with_reducible rfl | simp only [↓State.palPut_root])
theorem State.backHead_root (s : State) (c e w r h : Nat) : (State.backHead s c e w r h).root = s.root := by
  unfold State.backHead
  repeat' (first | with_reducible rfl | simp only [↓State.countSat_root, ↓State.palPut_root, ↓State.addRow_root] | refine (foldl_root ?_ _ _).trans ?_ | split | intro)
theorem State.backward_root (s : State) (c e w : Nat) : (State.backward s c e w).1.root = s.root := by
  unfold State.backward
  refine State.withRanges_root (fun s => ite_root1 rfl (State.withRanges_root (fun s => ?_) ..)) ..
  exact (State.freeScratch_root ..).trans (ite_root rfl (foldl_root (fun s h => State.backHead_root ..) _ _))
theorem execBackward_root (e q : Nat) (s : State) : ∃ t, execBackward e q s = .next t ∧ t.root = s.root := by
  refine ⟨_, rfl, ?_⟩
  repeat' (first | with_reducible rfl | simp only [↓State.backward_root] | refine (State.runCommand_root ?_ ..).trans ?_ | refine (pair_root (by assumption) (State.backward_root ..)).trans ?_ | intro)
theorem State.rotate_root (s : State) (c e w h r k : Nat) (co si : FV) : (State.rotate s c e w h r k co si).root = s.root := by
  unfold State.rotate
  repeat' (first | with_reducible rfl | simp only [↓State.palPut_root, ↓State.countSat_root])
theorem State.rotaryRow_root (s : State) (c e w r : Nat) : (State.rotaryRow s c e w r).root = s.root := by
  unfold State.rotaryRow
  repeat' (first | with_reducible rfl | simp only [↓State.rotate_root] | refine (foldl_root ?_ _ _).trans ?_ | intro)
theorem State.rotaryRun_root (s : State) (c e w : Nat) : (State.rotaryRun s c e w).1.root = s.root := by
  unfold State.rotaryRun
  repeat' (first | with_reducible rfl | simp only [↓State.rotaryRow_root] | refine (State.withRanges_root ?_ ..).trans ?_ | refine (foldl_root ?_ _ _).trans ?_ | split | intro)
theorem execRotary_root (e q : Nat) (s : State) : ∃ t, execRotary e q s = .next t ∧ t.root = s.root := by
  refine ⟨_, rfl, ?_⟩
  repeat' (first | with_reducible rfl | simp only [↓State.rotaryRun_root] | refine (State.runCommand_root ?_ ..).trans ?_ | refine (pair_root (by assumption) (State.rotaryRun_root ..)).trans ?_ | intro)

/-! ### Convert -/

theorem State.putOutliers_root (s : State) (c e r : Nat) (z : Glaze) (xs : List FV) : (State.putOutliers s c e r z xs).root = s.root := by
  unfold State.putOutliers
  repeat' (first | with_reducible rfl | simp only [↓State.palPut_root, ↓State.countSat_root] | refine (foldl_root ?_ _ _).trans ?_ | intro)
theorem State.encodeRow_root (s0 : State) (c e w : Nat) (by0 : ScaleBy) (z : Option Glaze) (s : State) (r : Nat) : (State.encodeRow s0 c e w by0 z s r).root = s.root := by
  unfold State.encodeRow
  repeat' (first | with_reducible rfl | simp only [↓State.putBlock_root, ↓State.countSat_root, ↓State.putOutliers_root] | refine (foldl_root ?_ _ _).trans ?_ | split | intro)
theorem State.encodeRows_root (s : State) (c e w : Nat) (by0 : ScaleBy) (z : Option Glaze) : (State.encodeRows s c e w by0 z).root = s.root := by
  unfold State.encodeRows
  exact (State.zeroTail_root ..).trans (foldl_root (fun s1 r => State.encodeRow_root ..) _ _)
theorem State.encodePlain_root (s : State) (c e w : Nat) : (State.encodePlain s c e w).root = s.root := by
  unfold State.encodePlain
  repeat' (first | with_reducible rfl | simp only [↓State.spPut_root, ↓State.countSat_root] | refine (foldl_root ?_ _ _).trans ?_ | intro)
theorem State.withEncode_root {k : Option Glaze → State → State × BodyEnd} (hk : ∀ z s, (k z s).1.root = s.root) (s : State)
    (c e w : Nat) (block : Bool) (more : List Range) : (State.withEncode s c e w block more k).1.root = s.root := by
  unfold State.withEncode
  dsimp only
  split
  · exact State.withGlaze_root (fun z s => State.withRanges_root (hk _) ..) ..
  · exact State.withRanges_root (hk _) ..
theorem State.convertFirst_root (s : State) (c e w : Nat) : (State.convertFirst s c e w).1.root = s.root := by
  unfold State.convertFirst
  repeat' (first | with_reducible rfl | simp only [↓State.encodeRows_root, ↓State.encodePlain_root] | refine (State.withEncode_root ?_ ..).trans ?_ | (intro _) | split)
theorem execConvertFirstPass_root (e q : Nat) (s : State) : ∃ t, execConvertFirstPass e q s = .next t ∧ t.root = s.root := by
  refine ⟨_, rfl, ?_⟩
  repeat' (first | with_reducible rfl | simp only [↓State.convertFirst_root] | refine (State.runCommand_root ?_ ..).trans ?_ | refine (pair_root (by assumption) (State.convertFirst_root ..)).trans ?_ | intro)
theorem State.putHistory_root (s : State) (e at0 : Nat) (b : Bytes) (xs : List FV) (stepEnd : Bool) : (State.putHistory s e at0 b xs stepEnd).root = s.root := by
  unfold State.putHistory
  repeat' (first | with_reducible rfl | simp only [↓State.palPut_root] | split)
theorem State.convertFallback_root (s : State) (c e w : Nat) : (State.convertFallback s c e w).1.root = s.root := by
  unfold State.convertFallback
  repeat' (first | with_reducible rfl | simp only [↓State.encodeRows_root, ↓State.putHistory_root] | refine (State.withEncode_root ?_ ..).trans ?_ | intro)
theorem execConvertFallback_root (e q : Nat) (s : State) : ∃ t, execConvertFallback e q s = .next t ∧ t.root = s.root := by
  refine ⟨_, rfl, ?_⟩
  repeat' (first | with_reducible rfl | simp only [↓State.convertFallback_root] | refine (State.runCommand_root ?_ ..).trans ?_ | refine (pair_root (by assumption) (State.convertFallback_root ..)).trans ?_ | intro)
theorem execConvertFixed_root (e q : Nat) (s : State) : ∃ t, execConvertFixed e q s = .next t ∧ t.root = s.root := by
  refine ⟨_, rfl, ?_⟩
  repeat' (first | with_reducible rfl | simp only [↓State.encodeRows_root] | refine (State.runCommand_root ?_ ..).trans ?_ | refine (State.withEncode_root ?_ ..).trans ?_ | intro)
theorem State.convertDecode_root (s : State) (c e w : Nat) : (State.convertDecode s c e w).1.root = s.root := by
  unfold State.convertDecode
  repeat' (first | with_reducible rfl | simp only [↓State.spPut_root, ↓State.countSat_root] | refine (State.withRanges_root ?_ ..).trans ?_ | refine (foldl_root ?_ _ _).trans ?_ | refine (foldl_root1 ?_ _ _).trans ?_ | (intro _) | split)
theorem execConvertDecode_root (e q : Nat) (s : State) : ∃ t, execConvertDecode e q s = .next t ∧ t.root = s.root := by
  refine ⟨_, rfl, ?_⟩
  repeat' (first | with_reducible rfl | simp only [↓State.convertDecode_root] | refine (State.runCommand_root ?_ ..).trans ?_ | refine (pair_root (by assumption) (State.convertDecode_root ..)).trans ?_ | intro)

/-! ### Vector -/

theorem State.vPut_root (s : State) (c e w r : Nat) (l : List (Lane × Sat)) : (State.vPut s c e w r l).root = s.root := by
  unfold State.vPut
  repeat' (first | with_reducible rfl | simp only [↓State.spPut_root, ↓State.countSat_root])
theorem State.vecRun_root (s : State) (c e w : Nat) (reads : List Range) (n : Nat) (f : State → Nat → List (Lane × Sat)) :
    (State.vecRun s c e w reads n f).1.root = s.root := by
  unfold State.vecRun
  exact State.withRanges_root (fun s => foldl_root (fun s1 r => State.vPut_root ..) _ _) ..
theorem State.vecTwo_root (s : State) (c e w : Nat) (fi : Int → Int → Int) (ff : FV → FV → FV) : (State.vecTwo s c e w fi ff).1.root = s.root := by
  unfold State.vecTwo
  repeat' (first | with_reducible rfl | simp only [↓State.vecRun_root] | refine (pair_root (by assumption) (State.vecRun_root ..)).trans ?_)
theorem State.vecMap_root (s : State) (c e w : Nat) (f : Lane → Lane × Sat) : (State.vecMap s c e w f).1.root = s.root := by
  unfold State.vecMap
  repeat' (first | with_reducible rfl | simp only [↓State.vecRun_root] | refine (pair_root (by assumption) (State.vecRun_root ..)).trans ?_)
theorem execVecBinaryAdd_root (e q : Nat) (s : State) : ∃ t, execVecBinaryAdd e q s = .next t ∧ t.root = s.root := by
  refine ⟨_, rfl, ?_⟩
  repeat' (first | with_reducible rfl | simp only [↓State.vecTwo_root] | refine (State.runCommand_root ?_ ..).trans ?_ | refine (pair_root (by assumption) (State.vecTwo_root ..)).trans ?_ | intro)
theorem execVecBinarySub_root (e q : Nat) (s : State) : ∃ t, execVecBinarySub e q s = .next t ∧ t.root = s.root := by
  refine ⟨_, rfl, ?_⟩
  repeat' (first | with_reducible rfl | simp only [↓State.vecTwo_root] | refine (State.runCommand_root ?_ ..).trans ?_ | refine (pair_root (by assumption) (State.vecTwo_root ..)).trans ?_ | intro)
theorem execVecBinaryMul_root (e q : Nat) (s : State) : ∃ t, execVecBinaryMul e q s = .next t ∧ t.root = s.root := by
  refine ⟨_, rfl, ?_⟩
  repeat' (first | with_reducible rfl | simp only [↓State.vecTwo_root] | refine (State.runCommand_root ?_ ..).trans ?_ | refine (pair_root (by assumption) (State.vecTwo_root ..)).trans ?_ | intro)
theorem execVecBinaryMax_root (e q : Nat) (s : State) : ∃ t, execVecBinaryMax e q s = .next t ∧ t.root = s.root := by
  refine ⟨_, rfl, ?_⟩
  repeat' (first | with_reducible rfl | simp only [↓State.vecTwo_root] | refine (State.runCommand_root ?_ ..).trans ?_ | refine (pair_root (by assumption) (State.vecTwo_root ..)).trans ?_ | intro)
theorem execVecBinaryMin_root (e q : Nat) (s : State) : ∃ t, execVecBinaryMin e q s = .next t ∧ t.root = s.root := by
  refine ⟨_, rfl, ?_⟩
  repeat' (first | with_reducible rfl | simp only [↓State.vecTwo_root] | refine (State.runCommand_root ?_ ..).trans ?_ | refine (pair_root (by assumption) (State.vecTwo_root ..)).trans ?_ | intro)
theorem execVecBinaryAddScalar_root (e q : Nat) (s : State) : ∃ t, execVecBinaryAddScalar e q s = .next t ∧ t.root = s.root := by
  refine ⟨_, rfl, ?_⟩
  repeat' (first | with_reducible rfl | simp only [↓State.vecMap_root] | refine (State.runCommand_root ?_ ..).trans ?_ | refine (pair_root (by assumption) (State.vecMap_root ..)).trans ?_ | intro)
theorem execVecBinaryMulScalar_root (e q : Nat) (s : State) : ∃ t, execVecBinaryMulScalar e q s = .next t ∧ t.root = s.root := by
  refine ⟨_, rfl, ?_⟩
  repeat' (first | with_reducible rfl | simp only [↓State.vecMap_root] | refine (State.runCommand_root ?_ ..).trans ?_ | refine (pair_root (by assumption) (State.vecMap_root ..)).trans ?_ | intro)
theorem execVecUnaryCopy_root (e q : Nat) (s : State) : ∃ t, execVecUnaryCopy e q s = .next t ∧ t.root = s.root := by
  refine ⟨_, rfl, ?_⟩
  repeat' (first | with_reducible rfl | simp only [↓State.vecMap_root] | refine (State.runCommand_root ?_ ..).trans ?_ | refine (pair_root (by assumption) (State.vecMap_root ..)).trans ?_ | intro)
theorem execVecUnaryAbs_root (e q : Nat) (s : State) : ∃ t, execVecUnaryAbs e q s = .next t ∧ t.root = s.root := by
  refine ⟨_, rfl, ?_⟩
  repeat' (first | with_reducible rfl | simp only [↓State.vecMap_root] | refine (State.runCommand_root ?_ ..).trans ?_ | refine (pair_root (by assumption) (State.vecMap_root ..)).trans ?_ | intro)
theorem execVecUnaryNeg_root (e q : Nat) (s : State) : ∃ t, execVecUnaryNeg e q s = .next t ∧ t.root = s.root := by
  refine ⟨_, rfl, ?_⟩
  repeat' (first | with_reducible rfl | simp only [↓State.vecMap_root] | refine (State.runCommand_root ?_ ..).trans ?_ | refine (pair_root (by assumption) (State.vecMap_root ..)).trans ?_ | intro)
theorem execVecUnaryRelu_root (e q : Nat) (s : State) : ∃ t, execVecUnaryRelu e q s = .next t ∧ t.root = s.root := by
  refine ⟨_, rfl, ?_⟩
  repeat' (first | with_reducible rfl | simp only [↓State.vecMap_root] | refine (State.runCommand_root ?_ ..).trans ?_ | refine (pair_root (by assumption) (State.vecMap_root ..)).trans ?_ | intro)
theorem execVecUnaryExp2_root (e q : Nat) (s : State) : ∃ t, execVecUnaryExp2 e q s = .next t ∧ t.root = s.root := by
  refine ⟨_, rfl, ?_⟩
  repeat' (first | with_reducible rfl | simp only [↓State.vecMap_root] | refine (State.runCommand_root ?_ ..).trans ?_ | refine (pair_root (by assumption) (State.vecMap_root ..)).trans ?_ | intro)
theorem execVecUnaryExp_root (e q : Nat) (s : State) : ∃ t, execVecUnaryExp e q s = .next t ∧ t.root = s.root := by
  refine ⟨_, rfl, ?_⟩
  repeat' (first | with_reducible rfl | simp only [↓State.vecMap_root] | refine (State.runCommand_root ?_ ..).trans ?_ | refine (pair_root (by assumption) (State.vecMap_root ..)).trans ?_ | intro)
theorem execVecUnaryLog2_root (e q : Nat) (s : State) : ∃ t, execVecUnaryLog2 e q s = .next t ∧ t.root = s.root := by
  refine ⟨_, rfl, ?_⟩
  repeat' (first | with_reducible rfl | simp only [↓State.vecMap_root] | refine (State.runCommand_root ?_ ..).trans ?_ | refine (pair_root (by assumption) (State.vecMap_root ..)).trans ?_ | intro)
theorem execVecUnaryRecip_root (e q : Nat) (s : State) : ∃ t, execVecUnaryRecip e q s = .next t ∧ t.root = s.root := by
  refine ⟨_, rfl, ?_⟩
  repeat' (first | with_reducible rfl | simp only [↓State.vecMap_root] | refine (State.runCommand_root ?_ ..).trans ?_ | refine (pair_root (by assumption) (State.vecMap_root ..)).trans ?_ | intro)
theorem execVecUnaryRsqrt_root (e q : Nat) (s : State) : ∃ t, execVecUnaryRsqrt e q s = .next t ∧ t.root = s.root := by
  refine ⟨_, rfl, ?_⟩
  repeat' (first | with_reducible rfl | simp only [↓State.vecMap_root] | refine (State.runCommand_root ?_ ..).trans ?_ | refine (pair_root (by assumption) (State.vecMap_root ..)).trans ?_ | intro)
theorem execVecUnarySqrt_root (e q : Nat) (s : State) : ∃ t, execVecUnarySqrt e q s = .next t ∧ t.root = s.root := by
  refine ⟨_, rfl, ?_⟩
  repeat' (first | with_reducible rfl | simp only [↓State.vecMap_root] | refine (State.runCommand_root ?_ ..).trans ?_ | refine (pair_root (by assumption) (State.vecMap_root ..)).trans ?_ | intro)
theorem execVecUnaryTanh_root (e q : Nat) (s : State) : ∃ t, execVecUnaryTanh e q s = .next t ∧ t.root = s.root := by
  refine ⟨_, rfl, ?_⟩
  repeat' (first | with_reducible rfl | simp only [↓State.vecMap_root] | refine (State.runCommand_root ?_ ..).trans ?_ | refine (pair_root (by assumption) (State.vecMap_root ..)).trans ?_ | intro)
theorem execVecUnarySigmoid_root (e q : Nat) (s : State) : ∃ t, execVecUnarySigmoid e q s = .next t ∧ t.root = s.root := by
  refine ⟨_, rfl, ?_⟩
  repeat' (first | with_reducible rfl | simp only [↓State.vecMap_root] | refine (State.runCommand_root ?_ ..).trans ?_ | refine (pair_root (by assumption) (State.vecMap_root ..)).trans ?_ | intro)
theorem execVecUnaryGeluTanh_root (e q : Nat) (s : State) : ∃ t, execVecUnaryGeluTanh e q s = .next t ∧ t.root = s.root := by
  refine ⟨_, rfl, ?_⟩
  repeat' (first | with_reducible rfl | simp only [↓State.vecMap_root] | refine (State.runCommand_root ?_ ..).trans ?_ | refine (pair_root (by assumption) (State.vecMap_root ..)).trans ?_ | intro)
theorem execVecUnarySilu_root (e q : Nat) (s : State) : ∃ t, execVecUnarySilu e q s = .next t ∧ t.root = s.root := by
  refine ⟨_, rfl, ?_⟩
  repeat' (first | with_reducible rfl | simp only [↓State.vecMap_root] | refine (State.runCommand_root ?_ ..).trans ?_ | refine (pair_root (by assumption) (State.vecMap_root ..)).trans ?_ | intro)
theorem State.vecReduce_root (s : State) (c e w : Nat) (f : List Lane → List (Lane × Sat)) : (State.vecReduce s c e w f).1.root = s.root := by
  unfold State.vecReduce
  repeat' (first | with_reducible rfl | simp only [↓State.vecRun_root] | refine (pair_root (by assumption) (State.vecRun_root ..)).trans ?_)
theorem execVecReduceMax_root (e q : Nat) (s : State) : ∃ t, execVecReduceMax e q s = .next t ∧ t.root = s.root := by
  refine ⟨_, rfl, ?_⟩
  repeat' (first | with_reducible rfl | simp only [↓State.vecReduce_root] | refine (State.runCommand_root ?_ ..).trans ?_ | refine (pair_root (by assumption) (State.vecReduce_root ..)).trans ?_ | intro)
theorem execVecReduceMin_root (e q : Nat) (s : State) : ∃ t, execVecReduceMin e q s = .next t ∧ t.root = s.root := by
  refine ⟨_, rfl, ?_⟩
  repeat' (first | with_reducible rfl | simp only [↓State.vecReduce_root] | refine (State.runCommand_root ?_ ..).trans ?_ | refine (pair_root (by assumption) (State.vecReduce_root ..)).trans ?_ | intro)
theorem execVecReduceSum_root (e q : Nat) (s : State) : ∃ t, execVecReduceSum e q s = .next t ∧ t.root = s.root := by
  refine ⟨_, rfl, ?_⟩
  repeat' (first | with_reducible rfl | simp only [↓State.vecReduce_root] | refine (State.runCommand_root ?_ ..).trans ?_ | refine (pair_root (by assumption) (State.vecReduce_root ..)).trans ?_ | intro)
theorem execVecReduceMaxabs_root (e q : Nat) (s : State) : ∃ t, execVecReduceMaxabs e q s = .next t ∧ t.root = s.root := by
  refine ⟨_, rfl, ?_⟩
  repeat' (first | with_reducible rfl | simp only [↓State.vecReduce_root] | refine (State.runCommand_root ?_ ..).trans ?_ | refine (pair_root (by assumption) (State.vecReduce_root ..)).trans ?_ | intro)
theorem execVecReduceSumsq_root (e q : Nat) (s : State) : ∃ t, execVecReduceSumsq e q s = .next t ∧ t.root = s.root := by
  refine ⟨_, rfl, ?_⟩
  repeat' (first | with_reducible rfl | simp only [↓State.vecReduce_root] | refine (State.runCommand_root ?_ ..).trans ?_ | refine (pair_root (by assumption) (State.vecReduce_root ..)).trans ?_ | intro)
theorem execVecNormLayer_root (e q : Nat) (s : State) : ∃ t, execVecNormLayer e q s = .next t ∧ t.root = s.root := by
  refine ⟨_, rfl, ?_⟩
  repeat' (first | with_reducible rfl | simp only [↓State.vecRun_root] | refine (State.runCommand_root ?_ ..).trans ?_ | refine (pair_root (by assumption) (State.vecRun_root ..)).trans ?_ | intro)
theorem execVecNormRms_root (e q : Nat) (s : State) : ∃ t, execVecNormRms e q s = .next t ∧ t.root = s.root := by
  refine ⟨_, rfl, ?_⟩
  repeat' (first | with_reducible rfl | simp only [↓State.vecRun_root] | refine (State.runCommand_root ?_ ..).trans ?_ | refine (pair_root (by assumption) (State.vecRun_root ..)).trans ?_ | intro)
theorem execVecSoftmax_root (e q : Nat) (s : State) : ∃ t, execVecSoftmax e q s = .next t ∧ t.root = s.root := by
  refine ⟨_, rfl, ?_⟩
  repeat' (first | with_reducible rfl | simp only [↓State.vecRun_root] | refine (State.runCommand_root ?_ ..).trans ?_ | refine (pair_root (by assumption) (State.vecRun_root ..)).trans ?_ | intro)

/-! ### Control -/

theorem execEaselDoorbell_root (e q off : Nat) (s : State) : ∃ t, execEaselDoorbell e q off s = .next t ∧ t.root = s.root := by
  refine ⟨_, rfl, ?_⟩
  repeat' (first | with_reducible rfl | simp only [↓State.leaveIdle_root, ↓State.ring1_root] | split)
theorem execNop_root (e q : Nat) (s : State) : ∃ t, execNop e q s = .next t ∧ t.root = s.root := by
  refine ⟨_, rfl, ?_⟩
  repeat' (first | with_reducible rfl | refine (State.runCommand_root ?_ ..).trans ?_ | intro)
theorem State.tallyBody_root (s : State) (e q w : Nat) (acquire : Bool) : (State.tallyBody s e q w acquire).1.root = s.root := by
  unfold State.tallyBody
  repeat' (first | with_reducible rfl | simp only [↓State.waitTally_root, ↓State.modQueue_root] | split)
theorem execTallyAcquire_root (e q : Nat) (s : State) : ∃ t, execTallyAcquire e q s = .next t ∧ t.root = s.root := by
  refine ⟨_, rfl, ?_⟩
  repeat' (first | with_reducible rfl | simp only [↓State.tallyBody_root] | refine (State.runCommand_root ?_ ..).trans ?_ | refine (pair_root (by assumption) (State.tallyBody_root ..)).trans ?_ | intro)
theorem execTallyWait_root (e q : Nat) (s : State) : ∃ t, execTallyWait e q s = .next t ∧ t.root = s.root := by
  refine ⟨_, rfl, ?_⟩
  repeat' (first | with_reducible rfl | simp only [↓State.tallyBody_root] | refine (State.runCommand_root ?_ ..).trans ?_ | refine (pair_root (by assumption) (State.tallyBody_root ..)).trans ?_ | intro)
theorem execTallyRelease_root (e q : Nat) (s : State) : ∃ t, execTallyRelease e q s = .next t ∧ t.root = s.root := by
  refine ⟨_, rfl, ?_⟩
  repeat' (first | with_reducible rfl | simp only [↓State.tallyAdd_root] | refine (State.runCommand_root ?_ ..).trans ?_ | intro)
theorem execTallyPost_root (ctx tally n : Nat) (s : State) : ∃ t, execTallyPost ctx tally n s = .next t ∧ t.root = s.root := by
  refine ⟨_, rfl, ?_⟩
  repeat' (first | with_reducible rfl | simp only [↓State.tallyAdd_root, ↓State.settleAll_root] | split)
theorem execTallySet_root (tally n : Nat) (s : State) : ∃ t, execTallySet tally n s = .next t ∧ t.root = s.root := by
  refine ⟨_, rfl, ?_⟩
  repeat' (first | with_reducible rfl | simp only [↓State.serveTally_root, ↓State.settleAll_root, ↓State.setFab_root] | split)
theorem execTallyRead_root (tally : Nat) (s : State) : ∃ t, execTallyRead tally s = .next t ∧ t.root = s.root := by
  refine ⟨_, rfl, ?_⟩
  repeat' (first | with_reducible rfl | simp only [↓State.setFab_root] | split)
theorem State.arriveBody_root (s : State) (c e q : Nat) : (State.arriveBody s c e q).1.root = s.root := by
  unfold State.arriveBody
  repeat' (first | with_reducible rfl | simp only [↓State.setBarrier_root, ↓State.modQueue_root] | split)
theorem execBarrierArrive_root (e q : Nat) (s : State) : ∃ t, execBarrierArrive e q s = .next t ∧ t.root = s.root := by
  refine ⟨_, rfl, ?_⟩
  repeat' (first | with_reducible rfl | simp only [↓State.arriveBody_root] | refine (State.runCommand_root ?_ ..).trans ?_ | refine (pair_root (by assumption) (State.arriveBody_root ..)).trans ?_ | intro)
theorem execBarrierComplete_root (atelier chan : Nat) (s : State) : ∃ t, execBarrierComplete atelier chan s = .next t ∧ t.root = s.root := by
  refine ⟨_, rfl, ?_⟩
  repeat' (first | with_reducible rfl | simp only [↓State.barrierDone_root] | split)
theorem execDeviceBarrierComplete_root (chan : Nat) (s : State) : ∃ t, execDeviceBarrierComplete chan s = .next t ∧ t.root = s.root := by
  refine ⟨_, rfl, ?_⟩
  repeat' (first | with_reducible rfl | simp only [↓State.barrierDone_root])
theorem execEndCmd_root (e q : Nat) (s : State) : ∃ t, execEndCmd e q s = .next t ∧ t.root = s.root := by
  refine ⟨_, rfl, ?_⟩
  repeat' (first | with_reducible rfl | simp only [↓State.setFab_root, ↓State.modQueue_root, ↓State.readBufs_root, ↓State.queueEnded_root] | refine (State.runCommand_root ?_ ..).trans ?_ | (intro _) | split)
theorem execPreemptStopSignal_root (e : Nat) (s : State) : ∃ t, execPreemptStopSignal e s = .next t ∧ t.root = s.root := by
  refine ⟨_, rfl, ?_⟩
  repeat' (first | with_reducible rfl | simp only [↓State.dropWaits_root, ↓State.setFab_root] | split)
theorem execQueueStopped_root (e q : Nat) (s : State) : ∃ t, execQueueStopped e q s = .next t ∧ t.root = s.root := by
  refine ⟨_, rfl, ?_⟩
  repeat' (first | with_reducible rfl | simp only [↓State.modQueue_root] | split)

/-! ### Dma -/

theorem State.dmaRead_root (s : State) (c agent stream sp a n : Nat) : (State.dmaRead s c agent stream sp a n).1.root = s.root := by
  unfold State.dmaRead
  repeat' (first | with_reducible rfl | simp only [↓State.readRanges_root, ↓State.lpRead_root] | refine (pair_root (by assumption) (State.readRanges_root ..)).trans ?_ | refine (pair_root (by assumption) (State.lpRead_root ..)).trans ?_ | split)
theorem State.dmaWrite_root (s : State) (c agent stream sp a : Nat) (b : Bytes) : (State.dmaWrite s c agent stream sp a b).root = s.root := by
  unfold State.dmaWrite
  repeat' (first | with_reducible rfl | simp only [↓State.palPut_root, ↓State.canPut_root, ↓State.lpWrite_root, ↓State.hostPut_root] | refine (pair_root (by assumption) (State.lpWrite_root ..)).trans ?_ | split)
theorem State.moveChunk_root (s : State) (c agent d : Nat) (k : Chunk) : (State.moveChunk s c agent d k).1.root = s.root := by
  unfold State.moveChunk
  repeat' (first | with_reducible rfl | simp only [↓State.dmaWrite_root] | refine (pair_root (by assumption) (State.dmaRead_root ..)).trans ?_ | split)
theorem State.moveFree_root (s : State) (c agent d : Nat) (k : Chunk) : (State.moveFree s c agent d k).1.root = s.root := by
  unfold State.moveFree
  repeat' (first | with_reducible rfl | simp only [↓State.freeNat_root, ↓State.dmaWrite_root] | refine (pair_root2 (by assumption) (State.freeNat_root ..)).trans ?_ | refine (pair_root (by assumption) (State.dmaRead_root ..)).trans ?_ | split)
theorem State.moveWords_root (s : State) (c agent d free0 : Nat) (early : Bool) : (State.moveWords s c agent d free0 early).1.root = s.root := by
  unfold State.moveWords
  repeat' (first | with_reducible rfl | simp only [↓State.moveChunk_root, ↓State.moveFree_root] | refine (pair_root2 (by assumption) (State.freeBit_root ..)).trans ?_ | refine (pair_root (by assumption) (State.moveChunk_root ..)).trans ?_ | refine (pair_root (by assumption) (State.moveFree_root ..)).trans ?_ | refine (foldl_root ?_ _ _).trans ?_ | refine (foldl_root1 ?_ _ _).trans ?_ | (intro _) | split)
theorem State.setJobs_root (s : State) (g : Nat) (l : List DmaJob) : (State.setJobs s g l).root = s.root := by
  unfold State.setJobs
  rfl
theorem State.dmaBody_eq (s : State) (c e q w : Nat) :
    State.dmaBody s c e q w = s.withRanges c e [⟨false, fld w 159 128, 64⟩] [] (fun s =>
      if !Sys2Proof.Machine.descOk (s.tallyIn c) (leNat (s.palBytes e (fld w 159 128) 64)) then (s, .format)
      else if !s.dmaRowsOk c (leNat (s.palBytes e (fld w 159 128) 64)) then (s, .fault 0x04)
      else (s.setJobs (e / 8) (s.jobs (e / 8) ++
        [{ ctx := c, e := e, q := q, desc := leNat (s.palBytes e (fld w 159 128) 64) }]), .done)) := rfl
theorem State.dmaBody_root (s : State) (c e q w : Nat) : (State.dmaBody s c e q w).1.root = s.root := by
  rw [State.dmaBody_eq]
  refine State.withRanges_rootOf (fun s t h => ?_) ..
  split at h
  · rw [← h]
  · split at h
    · rw [← h]
    · rw [← h]; exact State.setJobs_root ..
theorem execDma_root (e q : Nat) (s : State) : ∃ t, execDma e q s = .next t ∧ t.root = s.root := by
  refine ⟨_, rfl, ?_⟩
  repeat' (first | with_reducible rfl | simp only [↓State.dmaBody_root] | refine (State.runCommand_root ?_ ..).trans ?_ | refine (pair_root (by assumption) (State.dmaBody_root ..)).trans ?_ | intro)
theorem execTagReturn_root (pool ctx : Nat) (s : State) : ∃ t, execTagReturn pool ctx s = .next t ∧ t.root = s.root := by
  refine ⟨_, rfl, ?_⟩
  repeat' (first | with_reducible rfl | simp only [↓State.setJobs_root] | refine (pair_root (by assumption) (State.pool_root ..)).trans ?_ | split)
theorem State.startLink_root (s : State) (g i : Nat) (j : DmaJob) (t : Nat × Nat × Nat) : (State.startLink s g i j t).root = s.root := by
  unfold State.startLink
  repeat' (first | with_reducible rfl | simp only [↓State.setJobs_root, ↓State.contained_root, ↓State.setLink_root, ↓State.emit_root] | refine (pair_root (by assumption) (State.dmaRead_root ..)).trans ?_ | split)
theorem State.startJob_root (s : State) (g i op : Nat) : (State.startJob s g i op).root = s.root := by
  unfold State.startJob
  repeat' (first | with_reducible rfl | simp only [↓State.leaveIdle_root, ↓State.startLink_root, ↓State.moveWords_root, ↓State.setJobs_root, ↓State.setFree_root] | refine (pair_root (by assumption) (State.moveWords_root ..)).trans ?_ | split)
theorem execCopy_root (engine i : Nat) (s : State) : ∃ t, execCopy engine i s = .next t ∧ t.root = s.root := by
  refine ⟨_, rfl, ?_⟩
  repeat' (first | with_reducible rfl | simp only [↓State.startJob_root])
theorem execCopy3d_root (engine i : Nat) (s : State) : ∃ t, execCopy3d engine i s = .next t ∧ t.root = s.root := by
  refine ⟨_, rfl, ?_⟩
  repeat' (first | with_reducible rfl | simp only [↓State.startJob_root])
theorem execFill_root (engine i : Nat) (s : State) : ∃ t, execFill engine i s = .next t ∧ t.root = s.root := by
  refine ⟨_, rfl, ?_⟩
  repeat' (first | with_reducible rfl | simp only [↓State.startJob_root])
theorem State.dmaPost_root (s : State) (c d : Nat) : (State.dmaPost s c d).root = s.root := by
  unfold State.dmaPost
  repeat' (first | with_reducible rfl | simp only [↓State.tallyAdd_root] | split)
theorem State.linkRead_root (s : State) (d : Nat) : (State.linkRead s d).root = s.root := by
  unfold State.linkRead
  repeat' (first | with_reducible rfl | simp only [↓State.ringSent_root] | split)
theorem execDmaDescriptorComplete_root (engine i : Nat) (s : State) : ∃ t, execDmaDescriptorComplete engine i s = .next t ∧ t.root = s.root := by
  refine ⟨_, rfl, ?_⟩
  repeat' (first | with_reducible rfl | simp only [↓State.moveWords_root, ↓State.setJobs_root, ↓State.linkRead_root, ↓State.dmaPost_root, ↓State.settleAll_root] | refine (pair_root (by assumption) (State.moveWords_root ..)).trans ?_ | split)

end Sys2Proof.Machine
end

