-- ==== Sys2Proof/Laws/RootHost.lean ====
section
/-! SUPPORT. Laws/RootHost.lean: of placement, teardown, resets, memory, registers, queues and mailboxes: what only the seal core, boot and resets change stays as it was. -/

namespace Sys2Proof.Machine

/-! ### Image -/

/-! ### Place -/

theorem State.relocate_root {s : State} {c : Nat} {x : Ctx} {p : Part} {e : CertEntry} {v : Variant} {src : State → Nat → Nat → Nat}
    {r : Reloc} {t : State} (h : State.relocate s c x p e v src r = some t) : t.root = s.root := by
  unfold State.relocate at h
  dsimp only at h
  repeat' (first | (cases h; done) | (cases h; first | rfl | exact State.palPut_root ..) | split at h)
theorem State.relocateAll_root {s : State} {c : Nat} {x : Ctx} {p : Part} {e : CertEntry} {v : Variant} {src : State → Nat → Nat → Nat}
    {sel : Reloc → Bool} {t : State} (h : State.relocateAll s c x p e v src sel = some t) : t.root = s.root := by
  unfold State.relocateAll at h
  refine optFold_root (r := s.root) (fun s x t h => State.relocate_root h) _ _ ?_ t h
  intro t ht
  cases ht; rfl
theorem State.loadPos_root (s : State) (x : Ctx) (im : Image) (v : Variant) (pos e : Nat) : (State.loadPos s x im v pos e).root = s.root := by
  unfold State.loadPos
  repeat' (first | with_reducible rfl | simp only [↓State.palZero_root, ↓State.palPut_root, ↓State.setSched_root] | refine (foldl_root ?_ _ _).trans ?_ | split | intro)
theorem State.bindPart_root {s : State} {c : Nat} {p : Part} {t : State} (h : State.bindPart s c p = some t) : t.root = s.root := by
  unfold State.bindPart at h
  dsimp only at h
  split at h
  · cases h
  · split at h
    · cases h
    · split at h
      · split at h
        · cases h
        · rename_i hr
          cases h
          refine (State.ringPlaced_root ..).trans ((State.modCtx_root ..).trans ?_)
          refine (foldl_root (fun s x => State.palPut_root ..) _ _).trans ((State.setFab_root ..).trans ?_)
          refine (State.relocateAll_root hr).trans ?_
          refine (foldl_root (fun s x => State.loadPos_root ..) _ _).trans ?_
          refine (foldl_root (fun s x => State.retireNow_root ..) _ _).trans ?_
          exact foldl_root (fun s x => State.retireNow_root ..) _ _
      · cases h
theorem State.scrubPal_root (s : State) (e : Nat) (keep : List Resident) : (State.scrubPal s e keep).root = s.root := by
  unfold State.scrubPal
  repeat' (first | with_reducible rfl | simp only [↓State.setFab_root, ↓State.setErr_root] | split)
theorem State.leavePart_root (s : State) (c : Nat) (keep : Bool) : (State.leavePart s c keep).root = s.root := by
  unfold State.leavePart
  repeat' (first | with_reducible rfl | simp only [↓State.setSched_root, ↓State.setFab_root, ↓State.modCtx_root, ↓State.canZero_root, ↓State.dropWaits_root, ↓State.putReading_root, ↓State.scrubPal_root] | refine (foldl_root ?_ _ _).trans ?_ | (intro _) | split)
theorem State.answerStart_root (s : State) (c status : Nat) : (State.answerStart s c status).root = s.root := by
  unfold State.answerStart
  repeat' (first | with_reducible rfl | simp only [↓State.answerCtx_root] | refine (foldl_root ?_ _ _).trans ?_ | intro)
theorem State.unwait_root (s : State) (c : Nat) : (State.unwait s c).root = s.root := by
  unfold State.unwait
  rfl
theorem State.dropRestore_root (s : State) (c : Nat) : (State.dropRestore s c).root = s.root := by
  unfold State.dropRestore
  repeat' (first | with_reducible rfl | simp only [↓State.leavePart_root, ↓State.setSched_root] | split)
theorem State.giveWay_root (s : State) (cs : List Nat) : (State.giveWay s cs).root = s.root := by
  unfold State.giveWay
  repeat' (first | with_reducible rfl | simp only [↓State.dropRestore_root, ↓State.startPreempt_root] | refine (foldl_root ?_ _ _).trans ?_ | split | intro)
theorem State.placeAdmit_root (s : State) (c : Nat) (p : Part) : (State.placeAdmit s c p).root = s.root := by
  unfold State.placeAdmit
  repeat' (first | with_reducible rfl | simp only [↓State.setSched_root, ↓State.enter_root, ↓State.answerStart_root] | refine (State.bindPart_root (by assumption)).trans ?_ | split)
theorem State.completeAdmits_root (s : State) : (State.completeAdmits s).root = s.root := by
  unfold State.completeAdmits
  repeat' (first | with_reducible rfl | simp only [↓State.setSched_root, ↓State.answerStart_root, ↓State.giveWay_root, ↓State.placeAdmit_root] | refine (foldl_root ?_ _ _).trans ?_ | (intro _) | split)
theorem State.admitRt_root (s : State) (c ch : Nat) : (State.admitRt s c ch).1.root = s.root := by
  unfold State.admitRt
  repeat' (first | with_reducible rfl | simp only [↓State.giveWay_root, ↓State.completeAdmits_root, ↓State.setSched_root] | split)
theorem State.placeBe_root {s : State} {c : Nat} {t : State} (h : State.placeBe s c = some t) : t.root = s.root := by
  unfold State.placeBe at h
  dsimp only at h
  repeat' (first | (cases h; done) | (cases h; (repeat' (first | with_reducible rfl | (refine (State.bindPart_root (by assumption)).trans ?_) | simp only [↓State.giveWay_root, ↓State.unwait_root, ↓State.modCtx_root, ↓State.enter_root, ↓State.mirrorCtx_root] | split)); done) | split at h)
theorem execBestEffortPlacement_root (s : State) : ∃ t, execBestEffortPlacement s = .next t ∧ t.root = s.root := by
  refine ⟨_, rfl, ?_⟩
  split
  · refine getD_root (fun t h => ?_)
    cases hf : s.beOrder.findSome? s.placeBe with
    | none => rw [hf] at h; cases h
    | some u =>
      rw [hf] at h; cases h
      obtain ⟨c, _, hc⟩ := List.exists_of_findSome?_eq_some hf
      exact (State.leaveIdle_root ..).trans (State.placeBe_root hc)
  · rfl
theorem State.saveReads_root (s : State) (c : Nat) (v : Variant) (p : Part) (e : CertEntry) (whole : Bool) : (State.saveReads s c v p e whole).1.root = s.root := by
  unfold State.saveReads
  repeat' (first | with_reducible rfl | simp only [↓State.readRanges_root] | refine (pair_root (by assumption) (State.readRanges_root ..)).trans ?_ | refine (foldl_root1 ?_ _ _).trans ?_ | split | intro)
theorem State.resumeQueue_root (s : State) (c e q : Nat) (x : CmdQueue) : (State.resumeQueue s c e q x).root = s.root := by
  unfold State.resumeQueue
  repeat' (first | with_reducible rfl | simp only [↓State.modQueue_root, ↓State.takeUp_root, ↓State.setBarrier_root, ↓State.waitTally_root] | split)
theorem State.restore_root (s : State) (c : Nat) (v : Variant) (e : CertEntry) (p : Part) (sv : Saved) : (State.restore s c v e p sv).root = s.root := by
  unfold State.restore
  repeat' (first | with_reducible rfl | simp only [↓State.setFab_root, ↓State.wrote_root, ↓State.canPut_root, ↓State.putReading_root, ↓State.resumeQueue_root, ↓State.settleAll_root] | refine (foldl_root ?_ _ _).trans ?_ | (intro _) | split)
theorem State.writeSave_root (s : State) (c : Nat) (x : Ctx) (e : CertEntry) : (State.writeSave s c x e).1.root = s.root := by
  unfold State.writeSave
  repeat' (first | with_reducible rfl | simp only [↓State.freeNat_root, ↓State.lpWrite_root] | refine (pair_root2 (by assumption) (State.freeNat_root ..)).trans ?_ | refine (pair_root (by assumption) (State.lpWrite_root ..)).trans ?_ | split)
theorem State.restorePal_root {s : State} {c : Nat} {x : Ctx} {im : Image} {v : Variant} {e : CertEntry} {p : Part} {sv : Saved}
    {t : State} (h : State.restorePal s c x im v e p sv = some t) : t.root = s.root := by
  unfold State.restorePal at h
  exact (State.relocateAll_root h).trans (foldl_root (fun s y => foldl_root (fun s g => State.palPut_root ..) _ _) _ _)
theorem execResumeRestoreComplete_root (ctx : Nat) (s : State) : ∃ t, execResumeRestoreComplete ctx s = .next t ∧ t.root = s.root := by
  refine ⟨_, rfl, ?_⟩
  repeat' (first | with_reducible rfl | simp only [↓State.modCtx_root, ↓State.count_root, ↓State.enter_root, ↓State.dropRestore_root, ↓State.completeAdmits_root, ↓State.restore_root, ↓State.nextMasks_root] | refine (pair_root (by assumption) (State.lpRead_root ..)).trans ?_ | refine (State.restorePal_root (by assumption)).trans ?_ | split)

/-! ### Teardown -/

theorem State.cutRequests_root (s : State) (c status : Nat) : (State.cutRequests s c status).root = s.root := by
  unfold State.cutRequests
  repeat' (first | with_reducible rfl | simp only [↓State.setPorts_root, ↓State.setText_root, ↓State.answerAll_root, ↓State.freeCopies_root, ↓State.putReading_root] | split)
theorem State.stopJobs_root (s : State) (c : Nat) : (State.stopJobs s c).root = s.root := by
  unfold State.stopJobs
  repeat' (first | with_reducible rfl | simp only [↓State.modJob_root, ↓State.freeJob_root] | refine (foldl_root ?_ _ _).trans ?_ | (intro _) | split)
theorem State.abortJobs_root (s : State) (c : Nat) : (State.abortJobs s c).root = s.root := by
  unfold State.abortJobs
  repeat' (first | with_reducible rfl | simp only [↓State.sendOn_root, ↓State.stopJobs_root] | refine (foldl_root ?_ _ _).trans ?_ | (intro _) | split)
theorem State.stopPorts_root (s : State) (c : Nat) : (State.stopPorts s c).root = s.root := by
  unfold State.stopPorts
  repeat' (first | with_reducible rfl | simp only [↓State.feedHolds_root, ↓State.setPorts_root])
theorem State.startTeardown_root (s : State) (c mode cause : Nat) : (State.startTeardown s c mode cause).root = s.root := by
  unfold State.startTeardown
  repeat' (first | with_reducible rfl | simp only [↓State.dropWaits_root, ↓State.modCtx_root, ↓State.enter_root, ↓State.cutRequests_root, ↓State.abortJobs_root, ↓State.stopPorts_root, ↓State.setHq_root, ↓State.setSched_root, ↓State.setFab_root] | split)
theorem State.nextError_root (s : State) : (State.nextError s).root = s.root := by
  unfold State.nextError
  repeat' (first | with_reducible rfl | simp only [↓State.putErr_root] | split)
theorem execErrorTakeUp_root (s : State) : ∃ t, execErrorTakeUp s = .next t ∧ t.root = s.root := by
  refine ⟨_, rfl, ?_⟩
  repeat' (first | with_reducible rfl | simp only [↓State.nextError_root, ↓State.leaveIdle_root, ↓State.startTeardown_root, ↓State.setErr_root] | split)
theorem State.faultRecords_root (s : State) (c : Nat) : (State.faultRecords s c).root = s.root := by
  unfold State.faultRecords
  repeat' (first | with_reducible rfl | simp only [↓State.finishItem_root, ↓State.completeDesc_root, ↓State.tornFields_root] | refine (pair_root (by assumption) (State.tornFields_root ..)).trans ?_ | refine (foldl_root ?_ _ _).trans ?_ | (intro _) | split)
theorem State.dropEngines_root (s : State) (c : Nat) : (State.dropEngines s c).root = s.root := by
  unfold State.dropEngines
  repeat' (first | with_reducible rfl | simp only [↓State.modCtx_root, ↓State.sweepLexicons_root, ↓State.setFab_root, ↓State.setIntake_root, ↓State.setText_root, ↓State.setSten_root, ↓State.setRead_root])
theorem State.scrubCtx_root (s : State) (c : Nat) (keep : Bool) : (State.scrubCtx s c keep).root = s.root := by
  unfold State.scrubCtx
  repeat' (first | with_reducible rfl | simp only [↓State.faultRecords_root, ↓State.leavePart_root, ↓State.dropEngines_root, ↓State.modCtx_root, ↓State.nextError_root, ↓State.completeAdmits_root] | split)
theorem execTeardownScrubComplete_root (ctx : Nat) (s : State) : ∃ t, execTeardownScrubComplete ctx s = .next t ∧ t.root = s.root := by
  refine ⟨_, rfl, ?_⟩
  repeat' (first | with_reducible rfl | simp only [↓State.scrubCtx_root] | split)
theorem State.dropVocab_root (s : State) (c : Nat) : (State.dropVocab s c).root = s.root := by
  unfold State.dropVocab
  repeat' (first | with_reducible rfl | simp only [↓State.setText_root] | split)
theorem State.dropUser_root (s : State) (c : Nat) : (State.dropUser s c).root = s.root := by
  unfold State.dropUser
  repeat' (first | with_reducible rfl | simp only [↓State.lpFree_root, ↓State.sweepLexicons_root, ↓State.setSten_root] | refine (foldl_root ?_ _ _).trans ?_ | intro)
theorem State.freeMemory_root (s : State) (c : Nat) : (State.freeMemory s c).root = s.root := by
  unfold State.freeMemory
  repeat' (first | with_reducible rfl | simp only [↓State.lpFreeUnits_root, ↓State.modCtx_root, ↓State.feedHolds_root, ↓State.setPorts_root])
theorem State.endJobs_root (s : State) (c : Nat) : (State.endJobs s c).root = s.root := by
  unfold State.endJobs
  rfl
theorem State.releaseHandle_root (s : State) (c : Nat) : (State.releaseHandle s c).root = s.root := by
  unfold State.releaseHandle
  repeat' (first | with_reducible rfl | simp only [↓State.setCtxs_root] | split)
theorem State.finishDestroy_root (s : State) (c : Nat) : (State.finishDestroy s c).root = s.root := by
  unfold State.finishDestroy
  repeat' (first | with_reducible rfl | simp only [↓State.setHq_root, ↓State.setPorts_root, ↓State.modCtx_root, ↓State.answerAll_root, ↓State.feedHolds_root, ↓State.mirror_root, ↓State.dropEngines_root, ↓State.dropVocab_root, ↓State.dropUser_root, ↓State.freeMemory_root, ↓State.endJobs_root, ↓State.releaseHandle_root] | split)
theorem execContextFaultedEntry_root (ctx : Nat) (s : State) : ∃ t, execContextFaultedEntry ctx s = .next t ∧ t.root = s.root := by
  refine ⟨_, rfl, ?_⟩
  repeat' (first | with_reducible rfl | simp only [↓State.freeMemory_root, ↓State.dropUser_root, ↓State.enter_root, ↓State.finishDestroy_root] | split)
theorem State.checkDrain_root (s : State) (c : Nat) : (State.checkDrain s c).root = s.root := by
  unfold State.checkDrain
  repeat' (first | with_reducible rfl | simp only [↓State.leavePart_root, ↓State.completeAdmits_root, ↓State.stopJobs_root, ↓State.finishDestroy_root] | split)
theorem State.checkDrains_root (s : State) : (State.checkDrains s).root = s.root := by
  unfold State.checkDrains
  repeat' (first | with_reducible rfl | simp only [↓State.checkDrain_root] | refine (foldl_root ?_ _ _).trans ?_ | intro)
theorem State.abortCtx_root (s : State) (c : Nat) : (State.abortCtx s c).root = s.root := by
  unfold State.abortCtx
  repeat' (first | with_reducible rfl | simp only [↓State.finishDestroy_root, ↓State.answerStart_root, ↓State.modCtx_root, ↓State.startTeardown_root] | split)
theorem execPreemptSaveComplete_root (ctx : Nat) (s : State) : ∃ t, execPreemptSaveComplete ctx s = .next t ∧ t.root = s.root := by
  refine ⟨_, rfl, ?_⟩
  repeat' (first | with_reducible rfl | simp only [↓State.setSched_root, ↓State.modCtx_root, ↓State.count_root, ↓State.enter_root, ↓State.putReading_root, ↓State.leavePart_root, ↓State.completeAdmits_root, ↓State.startTeardown_root, ↓State.copyHomes_root, ↓State.applyInvals_root] | refine (pair_root (by assumption) (State.saveReads_root ..)).trans ?_ | refine (pair_root (by assumption) (State.writeSave_root ..)).trans ?_ | split)

/-! ### Reset -/

theorem flashBusy_root {s t : State} (h : t.root = s.root) (hs : s.boot.flashBusy = none) : t.boot.flashBusy = none := by
  have hw : t.boot.flashBusy.map _ = s.boot.flashBusy.map _ := congrArg Root.write h
  rw [hs] at hw
  exact Option.map_eq_none_iff.mp hw
theorem State.clearStaging_root {s : State} (h : s.boot.flashBusy = none) : (State.clearStaging s).root = s.root := by
  unfold State.clearStaging
  have e : ∀ t : State, t.boot.flashBusy = none → (t.setBoot { t.boot with
      stagingOwner := none, stagingTotal := 0, staging := [], stagingAt := none, pushed := [] }).root = t.root := by
    intro t ht
    refine State.setBoot_root ?_
    unfold Boot.root
    simp only [ht, Option.map_none]
  dsimp only
  split
  · exact (e _ (flashBusy_root (State.lpFree_root ..) h)).trans (State.lpFree_root ..)
  · exact e _ h
theorem State.forgetReplies_root (s : State) (p : Nat → Bool) : (State.forgetReplies s p).root = s.root := by
  unfold State.forgetReplies
  refine (State.setPair_root ..).trans (State.setBoot_root ?_)
  unfold Boot.root
  cases s.boot.flashBusy with
  | none => rfl
  | some f => simp only [Option.map_some]; split <;> rfl
theorem State.clearStagingIf_root (t : State) (c : Bool) (h : c = true → t.boot.flashBusy = none) :
    (if c = true then State.clearStaging t else t).root = t.root := by
  split
  · rename_i hc
    exact State.clearStaging_root (h hc)
  · rfl
theorem State.clearChans_root (s : State) (p : Nat → Bool) (mark tally : Bool) : (State.clearChans s p mark tally).root = s.root := by
  unfold State.clearChans
  dsimp only
  refine (foldl_root (fun _ _ => State.emit_root ..) _ _).trans ?_
  refine (State.freeCopies_root ..).trans ((State.forgetReplies_root ..).trans ((State.setBoot_root rfl).trans ?_))
  refine (State.clearStagingIf_root _ _ ?_).trans (State.setMbox_root ..)
  intro h
  simp only [Bool.and_eq_true, Option.isNone_iff_eq_none] at h
  exact h.1
theorem State.loosePorts_root (s : State) : (State.loosePorts s).root = s.root := by
  unfold State.loosePorts
  repeat' (first | with_reducible rfl | simp only [↓State.putPort_root, ↓State.clearPort_root, ↓State.setLp_root] | refine (foldl_root ?_ _ _).trans ?_ | split | intro)
theorem State.wipeContexts_root (s : State) : (State.wipeContexts s).root = s.root := by
  unfold State.wipeContexts
  repeat' (first | with_reducible rfl | simp only [↓State.putErr_root, ↓State.lpFreeUnits_root, ↓State.leavePart_root, ↓State.abortJobs_root, ↓State.dropEngines_root, ↓State.dropVocab_root, ↓State.dropUser_root, ↓State.endJobs_root, ↓State.loosePorts_root] | refine (foldl_root ?_ _ _).trans ?_ | (intro _) | split)
theorem State.resetPf0_root (s : State) : (State.resetPf0 s).root = s.root := by
  unfold State.resetPf0
  rfl
theorem State.restoreCounts_root (s : State) : (State.restoreCounts s).root = s.root := rfl
theorem execFlrPf1_root (s : State) : ∃ t, execFlrPf1 s = .next t ∧ t.root = s.root := by
  refine ⟨_, rfl, ?_⟩
  repeat' (first | with_reducible rfl | simp only [↓State.clearChans_root, ↓State.wake_root, ↓State.leaveIdle_root, ↓State.setPci_root] | split)
theorem execI3cTargetReset_root (s : State) : ∃ t, execI3cTargetReset s = .next t ∧ t.root = s.root := by
  refine ⟨_, rfl, ?_⟩
  repeat' (first | with_reducible rfl | simp only [↓State.clearChans_root, ↓State.setMbox_root] | split)
theorem execReleaseOfReset_root (s : State) : ∃ t, execReleaseOfReset s = .next t ∧ t.root = s.root := by
  refine ⟨_, rfl, ?_⟩
  repeat' (first | with_reducible rfl | simp only [↓State.emit_root, ↓State.setPwr_root] | split)
theorem execThermalTripRelease_root (s : State) : ∃ t, execThermalTripRelease s = .next t ∧ t.root = s.root := by
  refine ⟨_, rfl, ?_⟩
  repeat' (first | with_reducible rfl | simp only [↓State.emit_root, ↓State.setPwr_root] | split)

/-! ### Lpddr -/

theorem State.setThrottle_root (s : State) (n : Nat) : (State.setThrottle s n).root = s.root := by
  unfold State.setThrottle
  repeat' (first | with_reducible rfl | simp only [↓State.event_root, ↓State.riskAll_root, ↓State.setPwr_root] | split)
theorem State.stepDown_root (s : State) : (State.stepDown s).root = s.root := by
  unfold State.stepDown
  repeat' (first | with_reducible rfl | simp only [↓State.setThrottle_root])
theorem State.mr4Report_root (s : State) (beyond : Bool) : (State.mr4Report s beyond).root = s.root := by
  unfold State.mr4Report
  repeat' (first | with_reducible rfl | simp only [↓State.stepDown_root, ↓State.setPwr_root] | split)
theorem execLpddr5Read_root (agent stream addr len : Nat) (s : State) : ∃ t, execLpddr5Read agent stream addr len s = .next t ∧ t.root = s.root := by
  refine ⟨_, rfl, ?_⟩
  repeat' (first | with_reducible rfl | simp only [↓State.setLp_root] | refine (pair_root (by assumption) (State.lpRead_root ..)).trans ?_ | split)
theorem execLpddr5Write_root (agent stream addr : Nat) (bytes : Bytes) (s : State) : ∃ t, execLpddr5Write agent stream addr bytes s = .next t ∧ t.root = s.root := by
  refine ⟨_, rfl, ?_⟩
  repeat' (first | with_reducible rfl | simp only [↓State.lpWrite_root] | refine (pair_root (by assumption) (State.lpWrite_root ..)).trans ?_ | split)
theorem execLpddr5PartialWrite_root (agent stream addr : Nat) (bytes : Bytes) (s : State) : ∃ t, execLpddr5PartialWrite agent stream addr bytes s = .next t ∧ t.root = s.root := by
  refine ⟨_, rfl, ?_⟩
  repeat' (first | with_reducible rfl | simp only [↓State.lpWrite_root] | refine (pair_root (by assumption) (State.lpWrite_root ..)).trans ?_ | split)
theorem execPerBankRefresh_root (c rank bank : Nat) (s : State) : ∃ t, execPerBankRefresh c rank bank s = .next t ∧ t.root = s.root := by
  refine ⟨_, rfl, ?_⟩
  repeat' (first | with_reducible rfl | simp only [↓State.setLp_root, ↓State.modChan_root] | split)
theorem execMr4Poll_root (c field : Nat) (s : State) : ∃ t, execMr4Poll c field s = .next t ∧ t.root = s.root := by
  refine ⟨_, rfl, ?_⟩
  repeat' (first | with_reducible rfl | simp only [↓State.modChan_root, ↓State.riskAll_root, ↓State.mr4Report_root] | split)
theorem execNeighbourRefresh_root (c rank bank row : Nat) (s : State) : ∃ t, execNeighbourRefresh c rank bank row s = .next t ∧ t.root = s.root := by
  refine ⟨_, rfl, ?_⟩
  repeat' (first | with_reducible rfl | simp only [↓State.setLp_root] | split)
theorem execNrefreshAdaptWindow_root (u : Unit) (s : State) : ∃ t, execNrefreshAdaptWindow u s = .next t ∧ t.root = s.root := by
  refine ⟨_, rfl, ?_⟩
  repeat' (first | with_reducible rfl | simp only [↓State.setLp_root, ↓State.riskAll_root] | split)
theorem execDqOscTrack_root (c rank _count : Nat) (s : State) : ∃ t, execDqOscTrack c rank _count s = .next t ∧ t.root = s.root := by
  refine ⟨_, rfl, ?_⟩
  repeat' (first | with_reducible rfl | simp only [↓State.modChan_root] | refine (pair_root2 (by assumption) (State.freeBit_root ..)).trans ?_ | split)
theorem execLpddr5Scrub_root (c : Nat) (s : State) : ∃ t, execLpddr5Scrub c s = .next t ∧ t.root = s.root := by
  refine ⟨_, rfl, ?_⟩
  repeat' (first | with_reducible rfl | simp only [↓State.setLp_root, ↓State.modChan_root, ↓State.lpWord_root] | refine (pair_root (by assumption) (State.lpWord_root ..)).trans ?_ | refine (foldl_root ?_ _ _).trans ?_ | refine (foldl_root1 ?_ _ _).trans ?_ | (intro _) | split)
theorem execWck2ckSyncLoss_root (c : Nat) (repaired : Bool) (s : State) : ∃ t, execWck2ckSyncLoss c repaired s = .next t ∧ t.root = s.root := by
  refine ⟨_, rfl, ?_⟩
  repeat' (first | with_reducible rfl | simp only [↓State.memoryFreeze_root] | split)

/-! ### Regs -/

theorem State.putWin_root (s : State) (ch : Nat) (w : Window40) : (State.putWin s ch w).root = s.root := by
  unfold State.putWin
  rfl
theorem execDeviceTimeLoRead_root (s : State) : ∃ t, execDeviceTimeLoRead s = .next t ∧ t.root = s.root := by
  refine ⟨_, rfl, ?_⟩
  repeat' (first | with_reducible rfl | simp only [↓State.setClk_root, ↓State.setPci_root] | split)
theorem execDbErrorCountRead_root (s : State) : ∃ t, execDbErrorCountRead s = .next t ∧ t.root = s.root := by
  refine ⟨_, rfl, ?_⟩
  repeat' (first | with_reducible rfl | simp only [↓State.setPci_root] | split)
theorem State.flushVecs_root (s : State) (fn : Nat) : (State.flushVecs s fn).root = s.root := by
  unfold State.flushVecs
  repeat' (first | with_reducible rfl | simp only [↓State.emit_root, ↓State.setPci_root] | refine (foldl_root ?_ _ _).trans ?_ | split | intro)
theorem State.unmask_root (s : State) (fn vec : Nat) : (State.unmask s fn vec).root = s.root := by
  unfold State.unmask
  repeat' (first | with_reducible rfl | simp only [↓State.flushVecs_root, ↓State.setPci_root] | split)
theorem execMsixUnmask_root (fn vec : Nat) (s : State) : ∃ t, execMsixUnmask fn vec s = .next t ∧ t.root = s.root := by
  refine ⟨_, rfl, ?_⟩
  repeat' (first | with_reducible rfl | simp only [↓State.unmask_root] | split)
theorem State.mbDoorbell_root (s : State) (path ch v : Nat) : (State.mbDoorbell s path ch v).root = s.root := by
  unfold State.mbDoorbell
  repeat' (first | with_reducible rfl | simp only [↓State.putWin_root, ↓State.wake_root, ↓State.leaveIdle_root] | split)
theorem State.mbAck_root (s : State) (path ch v : Nat) : (State.mbAck s path ch v).root = s.root := by
  unfold State.mbAck
  repeat' (first | with_reducible rfl | simp only [↓State.putWin_root] | split)
theorem State.mbWrite_root (s : State) (path ch off : Nat) (b : Bytes) : (State.mbWrite s path ch off b).root = s.root := by
  unfold State.mbWrite
  repeat' (first | with_reducible rfl | simp only [↓State.putWin_root] | split)
theorem execMbDoorbellWrite_root (path ch v : Nat) (s : State) : ∃ t, execMbDoorbellWrite path ch v s = .next t ∧ t.root = s.root := by
  refine ⟨_, rfl, ?_⟩
  repeat' (first | with_reducible rfl | simp only [↓State.mbDoorbell_root] | split)
theorem execMbAckWrite_root (path ch v : Nat) (s : State) : ∃ t, execMbAckWrite path ch v s = .next t ∧ t.root = s.root := by
  refine ⟨_, rfl, ?_⟩
  repeat' (first | with_reducible rfl | simp only [↓State.mbAck_root] | split)
theorem State.i3cByte_root (s : State) (a : Nat) (b : Byte) : (State.i3cByte s a b).root = s.root := by
  unfold State.i3cByte
  repeat' (first | with_reducible rfl | simp only [↓State.mbWrite_root, ↓State.mbDoorbell_root, ↓State.mbAck_root, ↓State.setMbox_root] | split)
theorem execI3cPrivateWrite_root (bytes : Bytes) (s : State) : ∃ t, execI3cPrivateWrite bytes s = .next t ∧ t.root = s.root := by
  refine ⟨_, rfl, ?_⟩
  repeat' (first | with_reducible rfl | simp only [↓State.i3cByte_root, ↓State.setMbox_root] | refine (foldl_root ?_ _ _).trans ?_ | split | intro)
theorem State.wakeCauseWrite_root (s : State) (v : Nat) : (State.wakeCauseWrite s v).root = s.root := by
  unfold State.wakeCauseWrite
  repeat' (first | with_reducible rfl | simp only [↓State.setAon_root] | split)
theorem State.eventStatusWrite_root (s : State) (fn v : Nat) : (State.eventStatusWrite s fn v).root = s.root := by
  unfold State.eventStatusWrite
  repeat' (first | with_reducible rfl | simp only [↓State.setPci_root] | split)
theorem execWakeCauseClear_root (v : Nat) (s : State) : ∃ t, execWakeCauseClear v s = .next t ∧ t.root = s.root := by
  refine ⟨_, rfl, ?_⟩
  repeat' (first | with_reducible rfl | simp only [↓State.wakeCauseWrite_root] | split)
theorem execEventStatusClear_root (fn v : Nat) (s : State) : ∃ t, execEventStatusClear fn v s = .next t ∧ t.root = s.root := by
  refine ⟨_, rfl, ?_⟩
  repeat' (first | with_reducible rfl | simp only [↓State.eventStatusWrite_root] | split)
theorem State.winWrite_root (s : State) (fn off v : Nat) : (State.winWrite s fn off v).root = s.root := by
  unfold State.winWrite
  repeat' (first | with_reducible rfl | simp only [↓State.mbDoorbell_root, ↓State.mbAck_root, ↓State.mbWrite_root] | split)
theorem State.bar0Write_root (s : State) (fn off v : Nat) : (State.bar0Write s fn off v).root = s.root := by
  unfold State.bar0Write
  repeat' (first | with_reducible rfl | simp only [↓State.setPci_root, ↓State.wakeCauseWrite_root, ↓State.eventStatusWrite_root, ↓State.winWrite_root] | split)
theorem State.bar4Write_root (s : State) (fn off v : Nat) : (State.bar4Write s fn off v).root = s.root := by
  unfold State.bar4Write
  repeat' (first | with_reducible rfl | simp only [↓State.setPci_root, ↓State.unmask_root] | split)
theorem execPcieLinkTraining_root (rate width : Nat) (s : State) : ∃ t, execPcieLinkTraining rate width s = .next t ∧ t.root = s.root := by
  refine ⟨_, rfl, ?_⟩
  repeat' (first | with_reducible rfl | simp only [↓State.event_root, ↓State.leaveIdle_root, ↓State.setPci_root] | split)
theorem execHostReadError_root (ctx : Nat) (s : State) : ∃ t, execHostReadError ctx s = .next t ∧ t.root = s.root := by
  refine ⟨_, rfl, ?_⟩
  repeat' (first | with_reducible rfl | simp only [↓State.contained_root] | split)

/-! ### Queues -/

theorem State.dbFail_root (s : State) (q status : Nat) : (State.dbFail s q status).root = s.root := by
  unfold State.dbFail
  repeat' (first | with_reducible rfl | simp only [↓State.event_root, ↓State.setPci_root] | split)
theorem State.ringDb_root (s : State) (q v : Nat) : (State.ringDb s q v).root = s.root := by
  unfold State.ringDb
  repeat' (first | with_reducible rfl | simp only [↓State.dbFail_root, ↓State.leaveIdle_root, ↓State.mirror_root, ↓State.setHq_root] | split)
theorem State.queueDb_root (s : State) (q v : Nat) : (State.queueDb s q v).root = s.root := by
  unfold State.queueDb
  repeat' (first | with_reducible rfl | simp only [↓State.ringDb_root, ↓State.setAon_root] | split)
theorem execRegisterWrite_root (fn bar off v : Nat) (s : State) : ∃ t, execRegisterWrite fn bar off v s = .next t ∧ t.root = s.root := by
  refine ⟨_, rfl, ?_⟩
  repeat' (first | with_reducible rfl | simp only [↓State.bar0Write_root, ↓State.bar4Write_root, ↓State.queueDb_root] | split)
theorem State.sqServed_root (s : State) (q c : Nat) : (State.sqServed s q c).root = s.root := by
  unfold State.sqServed
  repeat' (first | with_reducible rfl | simp only [↓State.setSched_root] | split)
theorem execSqDoorbellWrite_root (q v : Nat) (s : State) : ∃ t, execSqDoorbellWrite q v s = .next t ∧ t.root = s.root := by
  refine ⟨_, rfl, ?_⟩
  repeat' (first | with_reducible rfl | simp only [↓State.queueDb_root])
theorem execCqDoorbellWrite_root (q v : Nat) (s : State) : ∃ t, execCqDoorbellWrite q v s = .next t ∧ t.root = s.root := by
  refine ⟨_, rfl, ?_⟩
  repeat' (first | with_reducible rfl | simp only [↓State.queueDb_root])
theorem State.takeHead_root (s : State) (q : Nat) (h : HwQueue) (ds : List Desc) : (State.takeHead s q h ds).root = s.root := by
  unfold State.takeHead
  repeat' (first | with_reducible rfl | simp only [↓State.setHq_root, ↓State.leaveIdle_root, ↓State.sqServed_root] | split)
theorem State.rejectDesc_root (s : State) (q : Nat) (h : HwQueue) (w status : Nat) : (State.rejectDesc s q h w status).root = s.root := by
  unfold State.rejectDesc
  repeat' (first | with_reducible rfl | simp only [↓State.takeHead_root, ↓State.pushRec_root])
theorem State.startDesc_root (s : State) (q : Nat) (h : HwQueue) (d : Desc) (views : List Nat) : (State.startDesc s q h d views).root = s.root := by
  unfold State.startDesc
  repeat' (first | with_reducible rfl | simp only [↓State.setIntake_root, ↓State.count_root, ↓State.settleMarkers_root, ↓State.checkDims_root, ↓State.decodeStart_root, ↓State.queueText_root] | split)
theorem State.acceptDesc_root (s : State) (q : Nat) (h : HwQueue) (w t : Nat) (vs : List Nat) : (State.acceptDesc s q h w t vs).root = s.root := by
  unfold State.acceptDesc
  repeat' (first | with_reducible rfl | simp only [↓State.setSched_root, ↓State.takeHead_root, ↓State.startDesc_root] | split)
theorem State.takeDesc_root (s : State) (q : Nat) (h : HwQueue) (w t : Nat) (vs : List Nat) : (State.takeDesc s q h w t vs).root = s.root := by
  unfold State.takeDesc
  repeat' (first | with_reducible rfl | simp only [↓State.rejectDesc_root, ↓State.acceptDesc_root] | split)
theorem State.fetchDesc_root (s : State) (op q : Nat) : (State.fetchDesc s op q).root = s.root := by
  unfold State.fetchDesc
  repeat' (first | with_reducible rfl | simp only [↓State.mirror_root, ↓State.sqServed_root, ↓State.takeDesc_root] | split)
theorem State.acceptHead_root (s : State) (q w t : Nat) (vs : List Nat) : (State.acceptHead s q w t vs).root = s.root := by
  unfold State.acceptHead
  repeat' (first | with_reducible rfl | simp only [↓State.takeDesc_root] | split)
theorem execSample_root (q : Nat) (s : State) : ∃ t, execSample q s = .next t ∧ t.root = s.root := by
  refine ⟨_, rfl, ?_⟩
  repeat' (first | with_reducible rfl | simp only [↓State.fetchDesc_root])
theorem execText_root (q : Nat) (s : State) : ∃ t, execText q s = .next t ∧ t.root = s.root := by
  refine ⟨_, rfl, ?_⟩
  repeat' (first | with_reducible rfl | simp only [↓State.fetchDesc_root])
theorem execStreamData_root (q : Nat) (s : State) : ∃ t, execStreamData q s = .next t ∧ t.root = s.root := by
  refine ⟨_, rfl, ?_⟩
  repeat' (first | with_reducible rfl | simp only [↓State.fetchDesc_root])
theorem execMarker_root (q : Nat) (s : State) : ∃ t, execMarker q s = .next t ∧ t.root = s.root := by
  refine ⟨_, rfl, ?_⟩
  repeat' (first | with_reducible rfl | simp only [↓State.fetchDesc_root])
theorem State.holdRec_root (s : State) (q : Nat) (r : Rec) : (State.holdRec s q r).root = s.root := by
  unfold State.holdRec
  repeat' (first | with_reducible rfl | simp only [↓State.risk_root, ↓State.pme_root, ↓State.setHq_root] | split)
theorem State.recordDone_root (s : State) (r : Rec) : (State.recordDone s r).root = s.root := by
  unfold State.recordDone
  repeat' (first | with_reducible rfl | simp only [↓State.setHq_root, ↓State.feedHolds_root, ↓State.putPort_root, ↓State.trimPool_root, ↓State.checkDrain_root] | split)
theorem State.signal_root (s : State) (q : Nat) : (State.signal s q).root = s.root := by
  unfold State.signal
  repeat' (first | with_reducible rfl | simp only [↓State.raiseVec_root, ↓State.setHq_root] | split)
theorem State.composeRec_root (s : State) (h : HwQueue) (r : Rec) (off : Nat) : (State.composeRec s h r off).1.root = s.root := by
  unfold State.composeRec
  repeat' (first | with_reducible rfl | simp only [↓State.freeNat_root] | refine (pair_root2 (by assumption) (State.freeNat_root ..)).trans ?_ | split)
theorem State.putRec_root (s : State) (q : Nat) (h : HwQueue) (r : Rec) (word : Nat) (body : Bytes) (off skip : Nat) : (State.putRec s q h r word body off skip).root = s.root := by
  unfold State.putRec
  repeat' (first | with_reducible rfl | simp only [↓State.setHq_root, ↓State.leaveIdle_root, ↓State.count_root, ↓State.hostPut_root, ↓State.recordDone_root, ↓State.signal_root] | split)
theorem State.writeRec_root (s : State) (q : Nat) (h : HwQueue) (r : Rec) (off skip : Nat) : (State.writeRec s q h r off skip).root = s.root := by
  unfold State.writeRec
  repeat' (first | with_reducible rfl | simp only [↓State.composeRec_root, ↓State.putRec_root] | refine (pair_root (by assumption) (State.composeRec_root ..)).trans ?_ | split)
theorem State.mirrorRec_root (s : State) (q : Nat) (h : HwQueue) (r : Rec) (off skip : Nat) : (State.mirrorRec s q h r off skip).root = s.root := by
  unfold State.mirrorRec
  repeat' (first | with_reducible rfl | simp only [↓State.setHq_root, ↓State.mirror_root, ↓State.composeRec_root] | refine (pair_root (by assumption) (State.composeRec_root ..)).trans ?_ | split)
theorem State.rewriteRec_root (s : State) (q : Nat) (h : HwQueue) (r : Rec) (slot off : Nat) (old : Bytes) : (State.rewriteRec s q h r slot off old).root = s.root := by
  unfold State.rewriteRec
  repeat' (first | with_reducible rfl | simp only [↓State.hostPut_root, ↓State.count_root, ↓State.leaveIdle_root, ↓State.signal_root, ↓State.recordDone_root, ↓State.setHq_root])
theorem State.passHeld_root (s : State) (q : Nat) : (State.passHeld s q).root = s.root := by
  unfold State.passHeld
  repeat' (first | with_reducible rfl | simp only [↓State.setHq_root] | split)
theorem execRecordPost_root (q : Nat) (s : State) : ∃ t, execRecordPost q s = .next t ∧ t.root = s.root := by
  refine ⟨_, rfl, ?_⟩
  repeat' (first | with_reducible rfl | simp only [↓State.holdRec_root, ↓State.writeRec_root, ↓State.mirrorRec_root, ↓State.rewriteRec_root, ↓State.passHeld_root] | split)
theorem execMsixCoalesceTimeout_root (q : Nat) (s : State) : ∃ t, execMsixCoalesceTimeout q s = .next t ∧ t.root = s.root := by
  refine ⟨_, rfl, ?_⟩
  repeat' (first | with_reducible rfl | simp only [↓State.raiseVec_root, ↓State.setHq_root] | split)

/-! ### Mbox -/

theorem State.takeMsg_root (s : State) (ch : Nat) : (State.takeMsg s ch).root = s.root := by
  unfold State.takeMsg
  repeat' (first | with_reducible rfl | simp only [↓State.putWin_root, ↓State.leaveIdle_root])
theorem State.refuse_root (s : State) (ch seq op status : Nat) : (State.refuse s ch seq op status).root = s.root := by
  unfold State.refuse
  refine (State.setMbox_root ..).trans ?_
  split
  · exact State.setBoot_root rfl
  · rfl
theorem State.nextReq_root (s : State) (ch : Nat) : (State.nextReq s ch).root = s.root := by
  unfold State.nextReq
  rfl
theorem State.begin_root {run : State → Request → State} (hk : ∀ s r, (run s r).root = s.root) (s : State) (r : Request) :
    (State.begin s r run).root = s.root := (hk ..).trans rfl
theorem State.onMsg_root {run : State → Request → State} (hk : ∀ s r, (run s r).root = s.root) (s : State) (ch op : Nat)
    (sel : Bytes → Bool) (ctxOf : State → Bytes → Option Nat) (named : State → Nat → Bytes → Bool) (fmt : Bytes → Bool) :
    (State.onMsg s ch op sel ctxOf named fmt run).root = s.root := by
  unfold State.onMsg
  repeat' (first | with_reducible rfl | simp only [↓State.takeMsg_root, ↓State.refuse_root, ↓State.nextReq_root] | (refine (State.begin_root hk ..).trans ?_) | split)
theorem State.onSecure_root {run : State → Request → State} (hk : ∀ s r, (run s r).root = s.root) (s : State) (ch op : Nat)
    (fmt : Bytes → Bool) : (State.onSecure s ch op fmt run).root = s.root := by
  unfold State.onSecure
  repeat' (first | with_reducible rfl | simp only [↓State.setMbox_root, ↓State.refuse_root] | (refine (State.begin_root hk ..).trans ?_) | (refine (State.onMsg_root hk ..).trans ?_) | split)
theorem State.takeStray_root (s : State) (ch : Nat) : (State.takeStray s ch).root = s.root := by
  unfold State.takeStray
  repeat' (first | with_reducible rfl | simp only [↓State.takeMsg_root, ↓State.nextReq_root, ↓State.refuse_root] | split)
theorem execMessageFragment_root (ch : Nat) (s : State) : ∃ t, execMessageFragment ch s = .next t ∧ t.root = s.root := by
  refine ⟨_, rfl, ?_⟩
  repeat' (first | with_reducible rfl | simp only [↓State.takeMsg_root, ↓State.nextReq_root, ↓State.refuse_root, ↓State.setMbox_root] | split)
theorem State.stampSplit_root (s : State) (m : OutMsg) : (State.stampSplit s m).1.root = s.root := by
  unfold State.stampSplit
  repeat' (first | with_reducible rfl | simp only [↓State.setIntake_root] | split)
theorem State.chanInterrupt_root (s : State) (ch : Nat) : (State.chanInterrupt s ch).root = s.root := by
  unfold State.chanInterrupt
  repeat' (first | with_reducible rfl | simp only [↓State.raiseVec_root, ↓State.emit_root] | split)
theorem execD2hPost_root (ch : Nat) (s : State) : ∃ t, execD2hPost ch s = .next t ∧ t.root = s.root := by
  refine ⟨_, rfl, ?_⟩
  repeat' (first | with_reducible rfl | simp only [↓State.stampSplit_root, ↓State.putWin_root, ↓State.chanInterrupt_root, ↓State.setMbox_root] | refine (pair_root (by assumption) (State.stampSplit_root ..)).trans ?_ | split)
theorem execSessionOpen_root (ch : Nat) (s : State) : ∃ t, execSessionOpen ch s = .next t ∧ t.root = s.root := by
  refine ⟨_, rfl, ?_⟩
  repeat' (first | with_reducible rfl | simp only [↓State.takeMsg_root, ↓State.refuse_root, ↓State.answer_root, ↓State.setMbox_root] | refine (State.begin_root ?_ ..).trans ?_ | split | intro)
theorem State.endSession_root (s : State) (ch : Nat) : (State.endSession s ch).root = s.root := by
  unfold State.endSession
  repeat' (first | with_reducible rfl | refine (State.setBoot_root rfl).trans ?_)
theorem execSessionClose_root (ch : Nat) (s : State) : ∃ t, execSessionClose ch s = .next t ∧ t.root = s.root := by
  refine ⟨_, rfl, ?_⟩
  repeat' (first | with_reducible rfl | simp only [↓State.answer_root, ↓State.endSession_root] | refine (State.onMsg_root ?_ ..).trans ?_ | split | intro)
theorem State.defer_root (s : State) (r : Request) : (State.defer s r).root = s.root := by
  unfold State.defer
  repeat' (first | with_reducible rfl | simp only [↓State.answer_root] | split)
theorem State.onHost_root {run : State → Request → State} (h : ∀ s r, (run s r).root = s.root) (s : State) (r : Request) :
    (State.onHost s r run).root = s.root := by
  unfold State.onHost
  split
  · exact h s r
  · exact (State.defer_root ..).trans (State.setMbox_root ..)

end Sys2Proof.Machine
end

