-- ==== Sys2Proof/Laws/RootMhp.lean ====
section
/-! SUPPORT. Laws/RootMhp.lean: of host-protocol commands, envelopes, the seal core, boot, power and faults: what only the seal core, boot and resets change stays as it was. -/

namespace Sys2Proof.Machine

/-! ### MhpCtx -/

theorem execContextCreate_root (ch : Nat) (s : State) : ∃ t, execContextCreate ch s = .next t ∧ t.root = s.root := by
  refine ⟨_, rfl, ?_⟩
  repeat' (first | with_reducible rfl | simp only [↓State.answer_root, ↓State.answerCtx_root, ↓State.setCtxs_root] | refine (State.onMsg_root ?_ ..).trans ?_ | split | intro)
theorem execContextStart_root (ch : Nat) (s : State) : ∃ t, execContextStart ch s = .next t ∧ t.root = s.root := by
  refine ⟨_, rfl, ?_⟩
  repeat' (first | with_reducible rfl | simp only [↓State.answer_root, ↓State.answerCtx_root, ↓State.setSched_root] | refine (State.onMsg_root ?_ ..).trans ?_ | refine (pair_root (by assumption) (State.admitRt_root ..)).trans ?_ | split | intro)
theorem State.drainPorts_root (s : State) (c : Nat) : (State.drainPorts s c).root = s.root := by
  unfold State.drainPorts
  repeat' (first | with_reducible rfl | simp only [↓State.feedHolds_root, ↓State.setPorts_root])
theorem State.destroyCtx_root (s : State) (r : Request) (drain : Bool) : (State.destroyCtx s r drain).root = s.root := by
  unfold State.destroyCtx
  repeat' (first | with_reducible rfl | simp only [↓State.answer_root, ↓State.modCtx_root, ↓State.drainPorts_root, ↓State.checkDrain_root, ↓State.abortCtx_root] | refine (pair_root (by assumption) (State.drain_root ..)).trans ?_ | refine (foldl_root ?_ _ _).trans ?_ | split | intro)
theorem execContextDestroyDrain_root (ch : Nat) (s : State) : ∃ t, execContextDestroyDrain ch s = .next t ∧ t.root = s.root := by
  refine ⟨_, rfl, ?_⟩
  repeat' (first | with_reducible rfl | simp only [↓State.destroyCtx_root] | refine (State.onMsg_root ?_ ..).trans ?_ | intro)
theorem execContextDestroyAbort_root (ch : Nat) (s : State) : ∃ t, execContextDestroyAbort ch s = .next t ∧ t.root = s.root := by
  refine ⟨_, rfl, ?_⟩
  repeat' (first | with_reducible rfl | simp only [↓State.destroyCtx_root] | refine (State.onMsg_root ?_ ..).trans ?_ | intro)
theorem execContextQuery_root (ch : Nat) (s : State) : ∃ t, execContextQuery ch s = .next t ∧ t.root = s.root := by
  refine ⟨_, rfl, ?_⟩
  repeat' (first | with_reducible rfl | simp only [↓State.answer_root] | refine (State.onMsg_root ?_ ..).trans ?_ | split | intro)
theorem execWindowRegister_root (ch : Nat) (s : State) : ∃ t, execWindowRegister ch s = .next t ∧ t.root = s.root := by
  refine ⟨_, rfl, ?_⟩
  repeat' (first | with_reducible rfl | simp only [↓State.answer_root, ↓State.modCtx_root, ↓State.answerCtx_root] | refine (State.onMsg_root ?_ ..).trans ?_ | split | intro)
theorem execWindowRelease_root (ch : Nat) (s : State) : ∃ t, execWindowRelease ch s = .next t ∧ t.root = s.root := by
  refine ⟨_, rfl, ?_⟩
  repeat' (first | with_reducible rfl | simp only [↓State.answer_root, ↓State.modCtx_root, ↓State.answerCtx_root] | refine (State.onMsg_root ?_ ..).trans ?_ | split | intro)
theorem execRegionAlloc_root (ch : Nat) (s : State) : ∃ t, execRegionAlloc ch s = .next t ∧ t.root = s.root := by
  refine ⟨_, rfl, ?_⟩
  repeat' (first | with_reducible rfl | simp only [↓State.answer_root, ↓State.modCtx_root, ↓State.answerCtx_root] | refine (State.onMsg_root ?_ ..).trans ?_ | refine (State.lpAlloc_root (by assumption)).trans ?_ | split | intro)
theorem State.startCopy_root (s : State) (r : Request) : (State.startCopy s r).root = s.root := by
  unfold State.startCopy
  repeat' (first | with_reducible rfl | simp only [↓State.answer_root, ↓State.defer_root] | split)
theorem execMemCopyToDevice_root (ch : Nat) (s : State) : ∃ t, execMemCopyToDevice ch s = .next t ∧ t.root = s.root := by
  refine ⟨_, rfl, ?_⟩
  repeat' (first | with_reducible rfl | simp only [↓State.startCopy_root] | refine (State.onMsg_root ?_ ..).trans ?_ | intro)
theorem execMemCopyToHost_root (ch : Nat) (s : State) : ∃ t, execMemCopyToHost ch s = .next t ∧ t.root = s.root := by
  refine ⟨_, rfl, ?_⟩
  repeat' (first | with_reducible rfl | simp only [↓State.startCopy_root] | refine (State.onMsg_root ?_ ..).trans ?_ | intro)
theorem execMemCopyComplete_root (ch seq : Nat) (s : State) : ∃ t, execMemCopyComplete ch seq s = .next t ∧ t.root = s.root := by
  refine ⟨_, rfl, ?_⟩
  repeat' (first | with_reducible rfl | simp only [↓State.hostPut_root, ↓State.answer_root, ↓State.replyMirrored_root] | refine (pair_root (by assumption) (State.lpRead_root ..)).trans ?_ | refine (pair_root (by assumption) (State.lpWrite_root ..)).trans ?_ | split)
theorem execQueueBindSq_root (ch : Nat) (s : State) : ∃ t, execQueueBindSq ch s = .next t ∧ t.root = s.root := by
  refine ⟨_, rfl, ?_⟩
  repeat' (first | with_reducible rfl | simp only [↓State.answer_root, ↓State.replyMirrored_root, ↓State.setHq_root, ↓State.setIntake_root] | refine (State.onMsg_root ?_ ..).trans ?_ | split | intro)
theorem execQueueBindCq_root (ch : Nat) (s : State) : ∃ t, execQueueBindCq ch s = .next t ∧ t.root = s.root := by
  refine ⟨_, rfl, ?_⟩
  repeat' (first | with_reducible rfl | simp only [↓State.answer_root, ↓State.replyMirrored_root, ↓State.setHq_root] | refine (State.onMsg_root ?_ ..).trans ?_ | split | intro)
theorem execQueueUnbind_root (ch : Nat) (s : State) : ∃ t, execQueueUnbind ch s = .next t ∧ t.root = s.root := by
  refine ⟨_, rfl, ?_⟩
  repeat' (first | with_reducible rfl | simp only [↓State.answer_root, ↓State.replyMirrored_root, ↓State.releaseHandle_root, ↓State.setHq_root, ↓State.setIntake_root] | refine (State.onMsg_root ?_ ..).trans ?_ | split | intro)
theorem execTextStreamOpen_root (ch : Nat) (s : State) : ∃ t, execTextStreamOpen ch s = .next t ∧ t.root = s.root := by
  refine ⟨_, rfl, ?_⟩
  repeat' (first | with_reducible rfl | simp only [↓State.answer_root, ↓State.putStream_root, ↓State.replyMirrored_root] | refine (State.onMsg_root ?_ ..).trans ?_ | split | intro)
theorem execTextStreamClose_root (ch : Nat) (s : State) : ∃ t, execTextStreamClose ch s = .next t ∧ t.root = s.root := by
  refine ⟨_, rfl, ?_⟩
  repeat' (first | with_reducible rfl | simp only [↓State.closeStream_root, ↓State.defer_root, ↓State.setText_root] | refine (State.onMsg_root ?_ ..).trans ?_ | split | intro)

/-! ### MhpDev -/

theorem execPortBind_root (ch : Nat) (s : State) : ∃ t, execPortBind ch s = .next t ∧ t.root = s.root := by
  refine ⟨_, rfl, ?_⟩
  repeat' (first | with_reducible rfl | simp only [↓State.answer_root, ↓State.putPort_root, ↓State.armPort_root, ↓State.feedHolds_root] | refine (State.onMsg_root ?_ ..).trans ?_ | refine (State.poolFor_root (by assumption)).trans ?_ | split | intro)
theorem execPortUnbind_root (ch : Nat) (s : State) : ∃ t, execPortUnbind ch s = .next t ∧ t.root = s.root := by
  refine ⟨_, rfl, ?_⟩
  repeat' (first | with_reducible rfl | simp only [↓State.answer_root, ↓State.answerAll_root, ↓State.clearPort_root, ↓State.feedHolds_root] | refine (State.onMsg_root ?_ ..).trans ?_ | split | intro)
theorem State.configPort_root (s : State) (r : Request) : (State.configPort s r).root = s.root := by
  unfold State.configPort
  repeat' (first | with_reducible rfl | simp only [↓State.answer_root, ↓State.putPort_root, ↓State.joinPool_root, ↓State.applyCfg_root] | refine (State.reserveFor_root (by assumption)).trans ?_ | split)
theorem execPortConfig_root (ch : Nat) (s : State) : ∃ t, execPortConfig ch s = .next t ∧ t.root = s.root := by
  refine ⟨_, rfl, ?_⟩
  repeat' (first | with_reducible rfl | simp only [↓State.configPort_root] | refine (State.onMsg_root ?_ ..).trans ?_ | refine (State.onHost_root ?_ ..).trans ?_ | (intro _) | split)
theorem execCaptureStart_root (ch : Nat) (s : State) : ∃ t, execCaptureStart ch s = .next t ∧ t.root = s.root := by
  refine ⟨_, rfl, ?_⟩
  repeat' (first | with_reducible rfl | simp only [↓State.answer_root, ↓State.startEvent_root] | refine (State.onMsg_root ?_ ..).trans ?_ | split | intro)
theorem execCaptureStop_root (ch : Nat) (s : State) : ∃ t, execCaptureStop ch s = .next t ∧ t.root = s.root := by
  refine ⟨_, rfl, ?_⟩
  repeat' (first | with_reducible rfl | simp only [↓State.defer_root, ↓State.answer_root, ↓State.putPort_root, ↓State.endCapture_root, ↓State.feedHolds_root] | refine (State.onMsg_root ?_ ..).trans ?_ | split | intro)
theorem State.calibrate_root (s : State) (r : Request) (kind : Nat) : (State.calibrate s r kind).root = s.root := by
  unfold State.calibrate
  repeat' (first | with_reducible rfl | simp only [↓State.answer_root, ↓State.defer_root, ↓State.putPort_root] | split)
theorem execCalibrateDark_root (ch : Nat) (s : State) : ∃ t, execCalibrateDark ch s = .next t ∧ t.root = s.root := by
  refine ⟨_, rfl, ?_⟩
  repeat' (first | with_reducible rfl | simp only [↓State.calibrate_root] | refine (State.onMsg_root ?_ ..).trans ?_ | intro)
theorem execCalibrateWhite_root (ch : Nat) (s : State) : ∃ t, execCalibrateWhite ch s = .next t ∧ t.root = s.root := by
  refine ⟨_, rfl, ?_⟩
  repeat' (first | with_reducible rfl | simp only [↓State.calibrate_root] | refine (State.onMsg_root ?_ ..).trans ?_ | intro)
theorem State.loadTable_root (s : State) (r : Request) : (State.loadTable s r).root = s.root := by
  unfold State.loadTable
  repeat' (first | with_reducible rfl | simp only [↓State.answer_root, ↓State.putPort_root] | split)
theorem execCalibTableLoadDark_root (ch : Nat) (s : State) : ∃ t, execCalibTableLoadDark ch s = .next t ∧ t.root = s.root := by
  refine ⟨_, rfl, ?_⟩
  repeat' (first | with_reducible rfl | simp only [↓State.loadTable_root] | refine (State.onMsg_root ?_ ..).trans ?_ | refine (State.onHost_root ?_ ..).trans ?_ | (intro _) | split)
theorem execCalibTableLoadGain_root (ch : Nat) (s : State) : ∃ t, execCalibTableLoadGain ch s = .next t ∧ t.root = s.root := by
  refine ⟨_, rfl, ?_⟩
  repeat' (first | with_reducible rfl | simp only [↓State.loadTable_root] | refine (State.onMsg_root ?_ ..).trans ?_ | refine (State.onHost_root ?_ ..).trans ?_ | (intro _) | split)
theorem execStreamBind_root (ch : Nat) (s : State) : ∃ t, execStreamBind ch s = .next t ∧ t.root = s.root := by
  refine ⟨_, rfl, ?_⟩
  repeat' (first | with_reducible rfl | simp only [↓State.answer_root, ↓State.replyMirrored_root, ↓State.setIntake_root] | refine (State.onMsg_root ?_ ..).trans ?_ | refine (State.lpAlloc_root (by assumption)).trans ?_ | split | intro)
theorem execStreamUnbind_root (ch : Nat) (s : State) : ∃ t, execStreamUnbind ch s = .next t ∧ t.root = s.root := by
  refine ⟨_, rfl, ?_⟩
  repeat' (first | with_reducible rfl | simp only [↓State.answer_root, ↓State.failItem_root, ↓State.completeDesc_root, ↓State.lpFree_root, ↓State.replyMirrored_root, ↓State.setIntake_root] | refine (State.onMsg_root ?_ ..).trans ?_ | refine (foldl_root ?_ _ _).trans ?_ | split | intro)
theorem State.resetLevels_root (s : State) (c : Nat) (lv : Nat) : (State.resetLevels s c lv).root = s.root := by
  unfold State.resetLevels
  repeat' (first | with_reducible rfl | simp only [↓State.moveLevel_root] | refine (foldl_root ?_ _ _).trans ?_ | (intro _) | split)
theorem execPrimerProfileSet_root (ch : Nat) (s : State) : ∃ t, execPrimerProfileSet ch s = .next t ∧ t.root = s.root := by
  refine ⟨_, rfl, ?_⟩
  repeat' (first | with_reducible rfl | simp only [↓State.modCtx_root, ↓State.answer_root, ↓State.feedHolds_root, ↓State.answerCtx_root, ↓State.armPort_root, ↓State.rebucket_root, ↓State.resetLevels_root] | refine (State.onMsg_root ?_ ..).trans ?_ | refine (foldl_root ?_ _ _).trans ?_ | (intro _) | split)
theorem execLegacyRootSet_root (ch : Nat) (s : State) : ∃ t, execLegacyRootSet ch s = .next t ∧ t.root = s.root := by
  refine ⟨_, rfl, ?_⟩
  repeat' (first | with_reducible rfl | simp only [↓State.answer_root, ↓State.putReading_root] | refine (State.onMsg_root ?_ ..).trans ?_ | split | intro)
theorem State.invalidate_root (s : State) (r : Request) : (State.invalidate s r).root = s.root := by
  unfold State.invalidate
  repeat' (first | with_reducible rfl | simp only [↓State.answer_root, ↓State.defer_root, ↓State.putReading_root, ↓State.applyInvals_root] | split)
theorem execKvTlbInvalidateContext_root (ch : Nat) (s : State) : ∃ t, execKvTlbInvalidateContext ch s = .next t ∧ t.root = s.root := by
  refine ⟨_, rfl, ?_⟩
  repeat' (first | with_reducible rfl | simp only [↓State.invalidate_root] | refine (State.onMsg_root ?_ ..).trans ?_ | intro)
theorem execKvTlbInvalidateSite_root (ch : Nat) (s : State) : ∃ t, execKvTlbInvalidateSite ch s = .next t ∧ t.root = s.root := by
  refine ⟨_, rfl, ?_⟩
  repeat' (first | with_reducible rfl | simp only [↓State.invalidate_root] | refine (State.onMsg_root ?_ ..).trans ?_ | intro)
theorem execKvTlbInvalidateRange_root (ch : Nat) (s : State) : ∃ t, execKvTlbInvalidateRange ch s = .next t ∧ t.root = s.root := by
  refine ⟨_, rfl, ?_⟩
  repeat' (first | with_reducible rfl | simp only [↓State.invalidate_root] | refine (State.onMsg_root ?_ ..).trans ?_ | intro)
theorem State.bindLexicon_root (s : State) (c slot : Nat) (d : Option Bytes) : (State.bindLexicon s c slot d).root = s.root := by
  unfold State.bindLexicon
  repeat' (first | with_reducible rfl | simp only [↓State.setSten_root, ↓State.applyLexicons_root] | split)
theorem execLexiconBind_root (ch : Nat) (s : State) : ∃ t, execLexiconBind ch s = .next t ∧ t.root = s.root := by
  refine ⟨_, rfl, ?_⟩
  repeat' (first | with_reducible rfl | simp only [↓State.answer_root, ↓State.answerCtx_root, ↓State.bindLexicon_root] | refine (State.onMsg_root ?_ ..).trans ?_ | (intro _) | split)
theorem execCounterQueryContext_root (ch : Nat) (s : State) : ∃ t, execCounterQueryContext ch s = .next t ∧ t.root = s.root := by
  refine ⟨_, rfl, ?_⟩
  repeat' (first | with_reducible rfl | simp only [↓State.answer_root] | refine (State.onMsg_root ?_ ..).trans ?_ | intro)
theorem execCounterQueryPort_root (ch : Nat) (s : State) : ∃ t, execCounterQueryPort ch s = .next t ∧ t.root = s.root := by
  refine ⟨_, rfl, ?_⟩
  repeat' (first | with_reducible rfl | simp only [↓State.answer_root] | refine (State.onMsg_root ?_ ..).trans ?_ | intro)
theorem State.answerReport_root (s : State) (r : Request) : (State.answerReport s r).root = s.root := by
  unfold State.answerReport
  extract_lets start
  split
  · exact State.answer_root ..
  · exact (State.answer_root ..).trans (State.setBoot_root rfl)
theorem execOutstandingReport_root (ch : Nat) (s : State) : ∃ t, execOutstandingReport ch s = .next t ∧ t.root = s.root := by
  refine ⟨_, rfl, ?_⟩
  repeat' (first | with_reducible rfl | simp only [↓State.answerReport_root] | refine (State.onMsg_root ?_ ..).trans ?_ | split | intro)
theorem execCarryAreaWritten_root (s : State) : ∃ t, execCarryAreaWritten s = .next t ∧ t.root = s.root := by
  refine ⟨_, rfl, ?_⟩
  split
  · rfl
  · exact (foldl_root (fun s r => State.answerReport_root ..) _ _).trans (State.setBoot_root rfl)

/-! ### Envelope -/

theorem State.loadVocab_root {s : State} {c : Nat} {d img : Bytes} {t : State} (h : State.loadVocab s c d img = some t) : t.root = s.root := by
  unfold State.loadVocab at h
  dsimp only at h
  split at h
  · cases h; rfl
  · split at h
    · cases h
      exact (foldl_root (fun _ _ => State.wrote_root ..) _ _).trans (State.setText_root ..)
    · cases h
theorem State.loadGrammar_root {s : State} {c : Nat} {d img : Bytes} {t : State} (h : State.loadGrammar s c d img = some t) : t.root = s.root := by
  unfold State.loadGrammar at h
  dsimp only at h
  split at h
  · cases h; rfl
  · split at h
    · cases h
    · cases h
      exact (State.someWrites_root ..).trans ((State.setSten_root ..).trans (State.lpAlloc_root (by assumption)))
theorem State.keepOnly_root (s : State) (c : Nat) (g : Bytes) : (State.keepOnly s c g).root = s.root := by
  unfold State.keepOnly
  repeat' (first | with_reducible rfl | simp only [↓State.setSten_root, ↓State.lpFree_root] | refine (foldl_root ?_ _ _).trans ?_ | (intro _) | split)
theorem State.kvAlloc_root {s : State} {c r n : Nat} {t : State} {x : Tab Nat} (h : State.kvAlloc s c r n = some (t, x)) :
    t.root = s.root := by
  induction n generalizing t x with
  | zero => cases h; rfl
  | succ n ih =>
    unfold State.kvAlloc at h
    split at h
    · cases h
    · rename_i s1 t1 h1
      cases ha : s1.lpAlloc (c + 1) (kvSlots r * kvFrame r) with
      | none => rw [ha] at h; cases h
      | some y => rw [ha] at h; cases h; exact (State.lpAlloc_root (u := y.1) ha).trans (ih h1)
theorem State.dropBundle_root (s : State) (c : Nat) (x : Ctx) : (State.dropBundle s c x).root = s.root := by
  unfold State.dropBundle
  repeat' (first | with_reducible rfl | simp only [↓State.lpFree_root] | refine (foldl_root ?_ _ _).trans ?_ | split | intro)
theorem bind_root {α β : Type} {g : β → State} {o : Option α} {f : α → Option β} {u : β} {r : Root} (h : o.bind f = some u)
    (hf : ∀ x v, o = some x → f x = some v → (g v).root = r) : (g u).root = r := by
  obtain ⟨x, hx, hu⟩ := Option.bind_eq_some_iff.mp h
  exact hf x u hx hu
theorem iteOpt_root {β : Type} {g : β → State} {c : Prop} [Decidable c] {a b : Option β} {u : β} {r : Root}
    (h : (if c then a else b) = some u) (ha : ∀ v, a = some v → (g v).root = r) (hb : ∀ v, b = some v → (g v).root = r) :
    (g u).root = r := by
  split at h
  · exact ha u h
  · exact hb u h
theorem someOpt_root {β : Type} {g : β → State} {a u : β} {r : Root} (h : some a = some u) (ha : (g a).root = r) :
    (g u).root = r := by injection h with h; rw [← h]; exact ha
theorem State.bundleMem_root {s t u : State} {c : Nat} {b : Bytes} {im : Image} {base : Nat} {sites : Tab Nat}
    (h : State.bundleMem s t c b im = some (base, u, sites)) : u.root = t.root := by
  unfold State.bundleMem at h
  extract_lets vs gs withV withG withK at h
  have hv : ∀ u, withV = some u → u.root = t.root := fun u hu =>
    iteOpt_root (g := id) hu (fun v hv => someOpt_root (g := id) hv rfl)
      (fun v hv => bind_root (g := id) hv (fun _ _ _ hx => State.loadVocab_root hx))
  have hg : ∀ u, withG = some u → u.root = t.root := fun u hu =>
    iteOpt_root (g := id) hu (fun v h => hv v h)
      (fun v h => bind_root (g := id) h (fun x w hx hw => bind_root (g := id) hw
        (fun _ _ _ hy => (State.loadGrammar_root hy).trans (hv x hx))))
  have hk : ∀ k, withK = some k → k.1.root = t.root := by
    intro k hu
    refine bind_root (g := Prod.fst) hu (fun x w hx hw => ?_)
    split at hw
    · exact iteOpt_root (g := Prod.fst) hw (fun v hv => someOpt_root (g := Prod.fst) hv (hg _ hx))
        (fun v hv => (State.kvAlloc_root (x := v.2) hv).trans (hg _ hx))
    · exact someOpt_root (g := Prod.fst) hw (hg _ hx)
  refine bind_root (g := fun a => a.2.1) h (fun x w hx hw => ?_)
  obtain ⟨y, hy, hz⟩ := Option.map_eq_some_iff.mp hw
  rw [← hz]
  exact (State.lpAlloc_root (u := y.1) hy).trans (hk x hx)
theorem State.commitBundle_root (t : State) (c : Nat) (req : Nat × Nat) (x : Ctx) (b digest : Bytes) (im : Image) (base : Nat) (sites : Tab Nat) : (State.commitBundle t c req x b digest im base sites).root = t.root := by
  unfold State.commitBundle
  repeat' (first | with_reducible rfl | simp only [↓State.setSched_root, ↓State.modCtx_root, ↓State.enter_root, ↓State.putReading_root] | split)
theorem State.bindImage_root (s : State) (c : Nat) (req : Nat × Nat) (b : Bytes) (x : Ctx) (digest : Bytes) (im : Image) (st : Nat) : (State.bindImage s c req b x digest im st).1.root = s.root := by
  unfold State.bindImage
  repeat' (first | with_reducible rfl | simp only [↓State.keepOnly_root, ↓State.commitBundle_root] | exact (State.bundleMem_root (by assumption)).trans (State.dropBundle_root ..) | split)
theorem State.bindBundle_root (s : State) (c : Nat) (req : Nat × Nat) (b : Bytes) : (State.bindBundle s c req b).1.root = s.root := by
  unfold State.bindBundle
  repeat' (first | with_reducible rfl | simp only [↓State.bindImage_root] | refine (pair_root (by assumption) (State.bindImage_root ..)).trans ?_ | split)
theorem keptLexicon_root {s t : State} {g : Bool} {n : Nat} {f : Nat → State → State} (hf : ∀ a s, (f a s).root = s.root)
    (h : (if g = true then some s else (s.lpAlloc 257 n).map (fun r => f r.1 r.2)) = some t) : t.root = s.root := by
  split at h
  · cases h; rfl
  · cases ha : s.lpAlloc 257 n with
    | none => rw [ha] at h; cases h
    | some r => rw [ha] at h; cases h; exact (hf ..).trans (State.lpAlloc_root (u := r.1) ha)
theorem State.keepLexicon_root (s : State) (c : Nat) (req : Nat × Nat) (b : Bytes) : (State.keepLexicon s c req b).1.root = s.root := by
  unfold State.keepLexicon
  split
  · rfl
  · extract_lets l d kept
    refine ite_root1 rfl ?_
    generalize hk : kept = k
    cases k with
    | none => rfl
    | some t =>
      refine (State.modCtx_root ..).trans ((State.setSched_root ..).trans ?_)
      exact keptLexicon_root (f := fun a s => s.setSten { s.sten with
          lexicons := s.sten.lexicons ++ [{ digest := d, image := l, addr := a, users := [] }] }) (fun a s => rfl) hk
theorem State.holdEnvelope_root (s : State) (r : Request) : (State.holdEnvelope s r).root = s.root := by
  unfold State.holdEnvelope
  repeat' (first | with_reducible rfl | simp only [↓State.setMbox_root, ↓State.answer_root, ↓State.lpWrite_root, ↓State.defer_root] | exact State.lpAlloc_root (by assumption) | split)
theorem execBundleLoad_root (ch : Nat) (s : State) : ∃ t, execBundleLoad ch s = .next t ∧ t.root = s.root := by
  refine ⟨_, rfl, ?_⟩
  repeat' (first | with_reducible rfl | simp only [↓State.holdEnvelope_root] | refine (State.onMsg_root ?_ ..).trans ?_ | refine (State.onHost_root ?_ ..).trans ?_ | (intro _) | split)
theorem execLexiconLoad_root (ch : Nat) (s : State) : ∃ t, execLexiconLoad ch s = .next t ∧ t.root = s.root := by
  refine ⟨_, rfl, ?_⟩
  repeat' (first | with_reducible rfl | simp only [↓State.holdEnvelope_root] | refine (State.onMsg_root ?_ ..).trans ?_ | refine (State.onHost_root ?_ ..).trans ?_ | (intro _) | split)
theorem State.readmit_root (s : State) (c : Nat) : (State.readmit s c).root = s.root := by
  unfold State.readmit
  repeat' (first | with_reducible rfl | simp only [↓State.setSched_root, ↓State.answerStart_root] | refine (pair_root (by assumption) (State.admitRt_root ..)).trans ?_ | split)
theorem State.answerLoad_root (s : State) (r : Request) (b : Bytes) : (State.answerLoad s r b).root = s.root := by
  unfold State.answerLoad
  repeat' (first | with_reducible rfl | simp only [↓State.answer_root, ↓State.answerCtx_root, ↓State.bindBundle_root, ↓State.keepLexicon_root, ↓State.readmit_root] | refine (pair_root (by assumption) (State.bindBundle_root ..)).trans ?_ | refine (pair_root (by assumption) (State.keepLexicon_root ..)).trans ?_ | split)
theorem execEnvelopeCheckComplete_root (ch seq : Nat) (s : State) : ∃ t, execEnvelopeCheckComplete ch seq s = .next t ∧ t.root = s.root := by
  refine ⟨_, rfl, ?_⟩
  repeat' (first | with_reducible rfl | simp only [↓State.freeCopies_root, ↓State.answerLoad_root] | refine (pair_root (by assumption) (State.lpRead_root ..)).trans ?_ | split)

/-! ### Seal -/

theorem State.certReply_root (s : State) (r : Request) : (State.certReply s r).root = s.root := by
  unfold State.certReply
  repeat' (first | with_reducible rfl | simp only [↓State.answer_root] | split)
theorem State.quoteReply_root (s : State) (r : Request) : (State.quoteReply s r).root = s.root := by
  unfold State.quoteReply
  repeat' (first | with_reducible rfl | simp only [↓State.answer_root])
theorem execSecureStatus_root (ch : Nat) (s : State) : ∃ t, execSecureStatus ch s = .next t ∧ t.root = s.root := by
  refine ⟨_, rfl, ?_⟩
  repeat' (first | with_reducible rfl | simp only [↓State.freeNat_root, ↓State.answer_root] | refine (State.onSecure_root ?_ ..).trans ?_ | refine (pair_root2 (by assumption) (State.freeNat_root ..)).trans ?_ | refine (State.setBoot_root rfl).trans ?_ | intro)
theorem execIdentityCertGet_root (ch : Nat) (s : State) : ∃ t, execIdentityCertGet ch s = .next t ∧ t.root = s.root := by
  refine ⟨_, rfl, ?_⟩
  repeat' (first | with_reducible rfl | simp only [↓State.certReply_root] | refine (State.onSecure_root ?_ ..).trans ?_ | split | intro)
theorem execAttestQuote_root (ch : Nat) (s : State) : ∃ t, execAttestQuote ch s = .next t ∧ t.root = s.root := by
  refine ⟨_, rfl, ?_⟩
  repeat' (first | with_reducible rfl | simp only [↓State.quoteReply_root] | refine (State.onSecure_root ?_ ..).trans ?_ | split | intro)

/-! ### Boot -/

theorem State.testMacro_root (s : State) (t : MacroTest) : (State.testMacro s t).root = s.root := by
  unfold State.testMacro
  exact ite_root ((State.setBoot_root rfl).trans (State.setFab_root ..)) (ite_root rfl (State.setErr_root ..))
theorem State.repairRow_root (s : State) (x : RowAt × Bool × Bool) : (State.repairRow s x).root = s.root := by
  unfold State.repairRow
  dsimp only
  have h : ∀ (b : Bool) (s : State), (if b = true then s.setLp { s.lp with hppr := s.lp.hppr + 1 } else s).root = s.root :=
    fun b s => ite_root (State.setLp_root ..) rfl
  exact ite_root (h ..) ((State.setBoot_root rfl).trans (ite_root ((State.excludeRow_root ..).trans (h ..)) (h ..)))

/-! ### Power -/

theorem State.paperStarts_root (s : State) (mask : Nat) : (State.paperStarts s mask).root = s.root := by
  unfold State.paperStarts
  repeat' (first | with_reducible rfl | simp only [↓State.startEvent_root] | refine (foldl_root ?_ _ _).trans ?_ | split | intro)
theorem execComparatorTrip_root (n : Nat) (s : State) : ∃ t, execComparatorTrip n s = .next t ∧ t.root = s.root := by
  refine ⟨_, rfl, ?_⟩
  repeat' (first | with_reducible rfl | simp only [↓State.wake_root, ↓State.leaveIdle_root, ↓State.paperStarts_root, ↓State.feedHolds_root, ↓State.setAon_root] | split)
theorem execComparatorRearm_root (n : Nat) (s : State) : ∃ t, execComparatorRearm n s = .next t ∧ t.root = s.root := by
  refine ⟨_, rfl, ?_⟩
  repeat' (first | with_reducible rfl | simp only [↓State.feedHolds_root, ↓State.setAon_root] | split)
theorem execThermalSample_root (junction : Int) (p100us : Nat) (over55 : Bool) (p10ms : Nat) (mr4Hot : Bool) (s : State) : ∃ t, execThermalSample junction p100us over55 p10ms mr4Hot s = .next t ∧ t.root = s.root := by
  refine ⟨_, rfl, ?_⟩
  repeat' (first | with_reducible rfl | simp only [↓State.stepDown_root, ↓State.setThrottle_root, ↓State.setPwr_root] | split)
theorem execAonTimerMature_root (junction : Int) (mr4Hot : Bool) (s : State) : ∃ t, execAonTimerMature junction mr4Hot s = .next t ∧ t.root = s.root := by
  refine ⟨_, rfl, ?_⟩
  repeat' (first | with_reducible rfl | simp only [↓State.emit_root, ↓State.pme_root, ↓State.stepDown_root, ↓State.wake_root, ↓State.setAon_root, ↓State.setPwr_root] | split)
theorem execIdleEntry_root (s : State) : ∃ t, execIdleEntry s = .next t ∧ t.root = s.root := by
  refine ⟨_, rfl, ?_⟩
  repeat' (first | with_reducible rfl | simp only [↓State.setPwr_root] | split)
theorem State.putSleep_root (c : Nat) (p : Part) (sv : Saved) (a : Nat) (s : State) :
    (State.putSleep c p sv a s).1.root = s.root :=
  (State.modCtx_root ..).trans ((State.lpWrite_root ..).trans (State.freeNat_root ..))
theorem State.writeSleep_root (s : State) (c : Nat) (p : Part) (sv : Saved) : (State.writeSleep s c p sv).1.root = s.root := by
  unfold State.writeSleep
  cases h : s.lpAlloc (c + 1) p.sleepBytes with
  | none => rfl
  | some r => exact (State.putSleep_root ..).trans (State.lpAlloc_root h)
theorem State.saveOne_root (s : State) (c : Nat) (v : Variant) (p : Part) (e : CertEntry) :
    (State.saveOne s c v p e).1.root = s.root :=
  ite_root1 ((State.writeSleep_root ..).trans (State.saveReads_root ..)) (State.saveReads_root ..)
theorem State.saveRunning_root (s : State) : (State.saveRunning s).1.root = s.root := by
  unfold State.saveRunning
  refine foldl_root1 (fun r c => ?_) _ _
  split
  · exact State.saveOne_root ..
  · rfl
theorem State.saveTables_root (s : State) : (State.saveTables s).1.root = s.root := by
  unfold State.saveTables
  refine foldl_root1 (fun r q => ?_) _ _
  dsimp only
  split
  · rfl
  · split
    · rfl
    · rename_i a t h
      exact (State.putPort_root ..).trans ((State.lpWrite_root ..).trans (State.lpAlloc_root h))
theorem State.dropSaves_root (s : State) : (State.dropSaves s).root = s.root := by
  unfold State.dropSaves
  repeat' (first | with_reducible rfl | simp only [↓State.modCtx_root, ↓State.lpFree_root, ↓State.putPort_root] | refine (foldl_root ?_ _ _).trans ?_ | (intro _) | split)
theorem State.restoreTables_root (s : State) : (State.restoreTables s).root = s.root := by
  unfold State.restoreTables
  repeat' (first | with_reducible rfl | simp only [↓State.lpFree_root, ↓State.putPort_root] | refine (pair_root (by assumption) (State.lpRead_root ..)).trans ?_ | refine (foldl_root ?_ _ _).trans ?_ | (intro _) | split)
theorem State.dropSram_root (s : State) : (State.dropSram s).root = s.root := by
  unfold State.dropSram
  repeat' (first | with_reducible rfl | simp only [↓State.setSched_root, ↓State.setFab_root, ↓State.setLp_root, ↓State.setErr_root, ↓State.setPorts_root, ↓State.setSten_root, ↓State.setRead_root])
theorem State.sleepSaved_root (s : State) :
    (if s.feedHolds.saveTables.2 = true then s.feedHolds.saveTables.1.saveRunning else s.feedHolds.saveTables).1.root = s.root :=
  ite_root1 ((State.saveRunning_root ..).trans ((State.saveTables_root ..).trans (State.feedHolds_root ..)))
    ((State.saveTables_root ..).trans (State.feedHolds_root ..))
theorem execSleepEntry_root (s : State) : ∃ t, execSleepEntry s = .next t ∧ t.root = s.root := by
  refine ⟨_, rfl, ?_⟩
  split
  · rfl
  · have h := State.sleepSaved_root s
    dsimp only
    split
    · rename_i t heq
      rw [heq] at h
      exact (State.dropSaves_root ..).trans h
    · rename_i t heq
      rw [heq] at h
      exact (State.emit_root ..).trans ((State.setPwr_root ..).trans ((State.setAon_root ..).trans ((State.dropSram_root ..).trans h)))
theorem State.wakeCtx_root (s : State) (c : Nat) : (State.wakeCtx s c).root = s.root := by
  unfold State.wakeCtx
  repeat' (first | with_reducible rfl | simp only [↓State.setFab_root, ↓State.modCtx_root, ↓State.lpRead_root, ↓State.lpFree_root, ↓State.loadPos_root, ↓State.ringBarrier_root] | refine (getD_root (fun _ h => State.relocateAll_root h)).trans ?_ | refine (pair_root (by assumption) (State.lpRead_root ..)).trans ?_ | refine (foldl_root ?_ _ _).trans ?_ | (intro _) | split)
theorem execWakeSequenceComplete_root (s : State) : ∃ t, execWakeSequenceComplete s = .next t ∧ t.root = s.root := by
  refine ⟨_, rfl, ?_⟩
  repeat' (first | with_reducible rfl | simp only [↓State.setAon_root, ↓State.setPwr_root, ↓State.setClk_root, ↓State.feedHolds_root, ↓State.paperStarts_root, ↓State.restoreTables_root, ↓State.wakeCtx_root, ↓State.ringDb_root] | refine (foldl_root ?_ _ _).trans ?_ | (intro _) | split)
theorem execPtmDialogue_root (master : Nat) (s : State) : ∃ t, execPtmDialogue master s = .next t ∧ t.root = s.root := by
  refine ⟨_, rfl, ?_⟩
  repeat' (first | with_reducible rfl | simp only [↓State.setClk_root] | split)

/-! ### Faults -/

theorem execDeviceFreeze_root (cause : Nat) (s : State) : ∃ t, execDeviceFreeze cause s = .next t ∧ t.root = s.root := by
  refine ⟨_, rfl, ?_⟩
  repeat' (first | with_reducible rfl | simp only [↓State.freeNat_root, ↓State.memoryFreeze_root, ↓State.freeze_root, ↓State.fatal_root] | refine (pair_root2 (by assumption) (State.freeNat_root ..)).trans ?_ | split)
theorem execWatchdogExpiry_root (s : State) : ∃ t, execWatchdogExpiry s = .next t ∧ t.root = s.root := by
  refine ⟨_, rfl, ?_⟩
  repeat' (first | with_reducible rfl | simp only [↓State.fatal_root] | split)
theorem execCorrectedWriteBack_root (mem : SramMem) (unit word : Nat) (s : State) : ∃ t, execCorrectedWriteBack mem unit word s = .next t ∧ t.root = s.root := by
  refine ⟨_, rfl, ?_⟩
  repeat' (first | with_reducible rfl | simp only [↓State.setErr_root] | split)
theorem execOnchipScrub_root (mem : SramMem) (unit : Nat) (s : State) : ∃ t, execOnchipScrub mem unit s = .next t ∧ t.root = s.root := by
  refine ⟨_, rfl, ?_⟩
  repeat' (first | with_reducible rfl | simp only [↓State.readWord_root, ↓State.setErr_root] | refine (pair_root (by assumption) (State.readWord_root ..)).trans ?_ | split)
theorem execMacroRetirement_root (mem : SramMem) (unit : Nat) (s : State) : ∃ t, execMacroRetirement mem unit s = .next t ∧ t.root = s.root := by
  refine ⟨_, rfl, ?_⟩
  repeat' (first | with_reducible rfl | simp only [↓State.retireNow_root] | split)

end Sys2Proof.Machine
end

