-- ==== Sys2Proof/Laws/RootLinks.lean ====
section
/-! SUPPORT. Laws/RootLinks.lean: of links, the mirrored pair and the clock: what only the seal core, boot and resets change stays as it was. -/

namespace Sys2Proof.Machine

/-! ### Links -/

theorem State.viaLink_root {go : State → State} (h : ∀ s, (go s).root = s.root) (s : State) (link : Nat) (i : Instr) :
    (State.viaLink s link i go).root = s.root := by
  unfold State.viaLink
  exact ite_root rfl (ite_root (State.setLink_root ..) (h s))
theorem State.pairAnswer_root (s : State) (status : Nat) (payload : Bytes) : (State.pairAnswer s status payload).root = s.root := by
  unfold State.pairAnswer
  repeat' (first | with_reducible rfl | simp only [↓State.reply_root, ↓State.setPair_root] | split)
theorem State.afterMirror_root (s : State) (w : MirrorWait) : (State.afterMirror s w).root = s.root := by
  unfold State.afterMirror
  split
  · rfl
  · extract_lets s1
    have h1 : s1.root = s.root := State.reply_root ..
    split
    · exact (State.setPair_root ..).trans h1
    · exact h1
  · exact State.acceptHead_root ..
  · extract_lets s1
    have h1 : s1.root = s.root := State.setHq_root ..
    obtain ⟨t, ht, hr⟩ := execRecordPost_root _ s1
    rw [ht]
    exact hr.trans h1
  · exact (State.feedHolds_root ..).trans (State.setPorts_root ..)
theorem State.flushWaits_root (s : State) : (State.flushWaits s).root = s.root := by
  unfold State.flushWaits
  repeat' (first | with_reducible rfl | simp only [↓State.setPorts_root, ↓State.setPair_root, ↓State.feedHolds_root, ↓State.afterMirror_root] | refine (foldl_root ?_ _ _).trans ?_ | (intro _) | split)
theorem State.heartbeatLost_root (s : State) : (State.heartbeatLost s).root = s.root := by
  unfold State.heartbeatLost
  repeat' (first | with_reducible rfl | simp only [↓State.setPair_root, ↓State.event_root, ↓State.pairAnswer_root, ↓State.flushWaits_root] | split)
theorem State.discover_root (s : State) : (State.discover s).root = s.root := by
  unfold State.discover
  repeat' (first | with_reducible rfl | simp only [↓State.sendOn_root] | split)
theorem State.sendIdentity_root (s : State) (link : Nat) : (State.sendIdentity s link).root = s.root := by
  unfold State.sendIdentity
  exact ite_root (State.sendOn_root ..) rfl
theorem execStretcherLinkTrainingComplete_root (link : Nat) (peer : LinkPeer) (s : State) : ∃ t, execStretcherLinkTrainingComplete link peer s = .next t ∧ t.root = s.root := by
  refine ⟨_, rfl, ?_⟩
  repeat' (first | with_reducible rfl | simp only [↓State.setLink_root, ↓State.leaveIdle_root, ↓State.discover_root, ↓State.sendIdentity_root] | split)
theorem State.countRetrain_root (s : State) (link : Nat) : (State.countRetrain s link).root = s.root := by
  unfold State.countRetrain
  repeat' (first | with_reducible rfl | simp only [↓State.count_root] | refine (foldl_root ?_ _ _).trans ?_ | intro)
theorem execLinkRetrain_root (link : Nat) (s : State) : ∃ t, execLinkRetrain link s = .next t ∧ t.root = s.root := by
  refine ⟨_, rfl, ?_⟩
  repeat' (first | with_reducible rfl | simp only [↓State.setLink_root, ↓State.leaveIdle_root, ↓State.countRetrain_root] | split)
theorem State.linkDown_root (s : State) (link : Nat) : (State.linkDown s link).root = s.root := by
  unfold State.linkDown
  repeat' (first | with_reducible rfl | simp only [↓State.setRing_root, ↓State.setLink_root, ↓State.sendOn_root, ↓State.contained_root, ↓State.heartbeatLost_root, ↓State.modJob_root, ↓State.freeJob_root] | refine (foldl_root ?_ _ _).trans ?_ | (intro _) | split)
theorem execRingDiscoveryFlit_root (link : Nat) (f : DiscFlit) (s : State) : ∃ t, execRingDiscoveryFlit link f s = .next t ∧ t.root = s.root := by
  refine ⟨_, rfl, ?_⟩
  repeat' (first | with_reducible rfl | simp only [↓State.setRing_root, ↓State.sendOn_root, ↓State.leaveIdle_root] | refine (State.viaLink_root ?_ ..).trans ?_ | (intro _) | split)
theorem State.passFlit_root (s : State) (j : RingJob) (f : ConfirmFlit) : (State.passFlit s j f).root = s.root := by
  unfold State.passFlit
  repeat' (first | with_reducible rfl | simp only [↓State.sendOn_root] | split)
theorem State.dropJob_root (s : State) (c job : Nat) : (State.dropJob s c job).root = s.root := by
  unfold State.dropJob
  rfl
theorem State.answerJob_root (s : State) (j : RingJob) (status : Nat) : (State.answerJob s j status).root = s.root := by
  unfold State.answerJob
  repeat' (first | with_reducible rfl | simp only [↓State.answerAll_root])
theorem State.relocateRing_root {s : State} {c : Nat} {t : State} (h : State.relocateRing s c = some t) : t.root = s.root := by
  unfold State.relocateRing at h
  split at h
  · split at h
    · obtain ⟨u, hu, rfl⟩ := Option.map_eq_some_iff.mp h
      exact (State.ringBarrier_root ..).trans (State.relocateAll_root hu)
    · cases h; rfl
  · cases h; rfl
theorem State.confirmJob_root (s : State) (j : RingJob) (maxBlock : Nat) : (State.confirmJob s j maxBlock).root = s.root := by
  unfold State.confirmJob
  repeat' (first | with_reducible rfl | simp only [↓State.modJob_root, ↓State.answerJob_root, ↓State.dropJob_root] | refine (State.relocateRing_root (by assumption)).trans ?_ | split)
theorem State.judgeFlit_root (s : State) (f : ConfirmFlit) : (State.judgeFlit s f).root = s.root := by
  unfold State.judgeFlit
  repeat' (first | with_reducible rfl | simp only [↓State.answerJob_root, ↓State.dropJob_root, ↓State.confirmJob_root] | split)
theorem execJobConfirmFlit_root (link : Nat) (f : ConfirmFlit) (s : State) : ∃ t, execJobConfirmFlit link f s = .next t ∧ t.root = s.root := by
  refine ⟨_, rfl, ?_⟩
  repeat' (first | with_reducible rfl | simp only [↓State.setRing_root, ↓State.leaveIdle_root, ↓State.passFlit_root, ↓State.judgeFlit_root] | refine (State.viaLink_root ?_ ..).trans ?_ | (intro _) | split)
theorem State.setupJob_root (s : State) (r : Request) : (State.setupJob s r).root = s.root := by
  unfold State.setupJob
  repeat' (first | with_reducible rfl | simp only [↓State.setRing_root, ↓State.setLink_root, ↓State.sendOn_root, ↓State.answer_root, ↓State.passFlit_root, ↓State.defer_root] | refine (foldl_root ?_ _ _).trans ?_ | (intro _) | split)
theorem execRingJobSetup_root (ch : Nat) (s : State) : ∃ t, execRingJobSetup ch s = .next t ∧ t.root = s.root := by
  refine ⟨_, rfl, ?_⟩
  repeat' (first | with_reducible rfl | simp only [↓State.setupJob_root] | refine (State.onMsg_root ?_ ..).trans ?_ | refine (State.onHost_root ?_ ..).trans ?_ | (intro _) | split)
theorem execRingJobConfirmTimeout_root (ctx : Nat) (s : State) : ∃ t, execRingJobConfirmTimeout ctx s = .next t ∧ t.root = s.root := by
  refine ⟨_, rfl, ?_⟩
  repeat' (first | with_reducible rfl | simp only [↓State.answerJob_root, ↓State.dropJob_root] | refine (foldl_root ?_ _ _).trans ?_ | split | intro)
theorem State.landSaved_root (s : State) (j : RingJob) (x : Ctx) (sv : Saved) (b : Nat) (data : Bytes) : (State.landSaved s j x sv b data).root = s.root := by
  unfold State.landSaved
  repeat' (first | with_reducible rfl | simp only [↓State.modCtx_root, ↓State.contained_root] | split)
theorem State.land_root (s : State) (j : RingJob) (x : Ctx) (key : Nat) (data : Bytes) : (State.land s j x key data).root = s.root := by
  unfold State.land
  repeat' (first | with_reducible rfl | simp only [↓State.landSaved_root, ↓State.modJob_root, ↓State.landCanvas_root] | split)
theorem execRingBlockArrival_root (link chan : Nat) (data : Bytes) (s : State) : ∃ t, execRingBlockArrival link chan data s = .next t ∧ t.root = s.root := by
  refine ⟨_, rfl, ?_⟩
  repeat' (first | with_reducible rfl | simp only [↓State.setLink_root, ↓State.sendOn_root, ↓State.leaveIdle_root, ↓State.count_root, ↓State.land_root, ↓State.modJob_root, ↓State.usedBuf_root, ↓State.nextMasks_root] | refine (State.viaLink_root ?_ ..).trans ?_ | (intro _) | split)
theorem execCreditReturn_root (link chan : Nat) (s : State) : ∃ t, execCreditReturn link chan s = .next t ∧ t.root = s.root := by
  refine ⟨_, rfl, ?_⟩
  repeat' (first | with_reducible rfl | simp only [↓State.setLink_root, ↓State.leaveIdle_root] | refine (State.viaLink_root ?_ ..).trans ?_ | (intro _) | split)
theorem State.finishRing_root (s : State) (c : Nat) : (State.finishRing s c).root = s.root := by
  unfold State.finishRing
  repeat' (first | with_reducible rfl | simp only [↓State.modCtx_root, ↓State.finishBarrier_root] | refine (foldl_root ?_ _ _).trans ?_ | (intro _) | split)
theorem State.ringPassed_root (s : State) (j : RingJob) : (State.ringPassed s j).root = s.root := by
  unfold State.ringPassed
  repeat' (first | with_reducible rfl | simp only [↓State.finishRing_root, ↓State.mapJobs_root, ↓State.modJob_root] | split)
theorem execRingBarrierToken_root (link : Nat) (f : TokenFlit) (s : State) : ∃ t, execRingBarrierToken link f s = .next t ∧ t.root = s.root := by
  refine ⟨_, rfl, ?_⟩
  repeat' (first | with_reducible rfl | simp only [↓State.sendOn_root, ↓State.leaveIdle_root, ↓State.ringPassed_root, ↓State.modJob_root] | refine (State.viaLink_root ?_ ..).trans ?_ | (intro _) | split)
theorem execRingAbortNotice_root (link job : Nat) (s : State) : ∃ t, execRingAbortNotice link job s = .next t ∧ t.root = s.root := by
  refine ⟨_, rfl, ?_⟩
  repeat' (first | with_reducible rfl | simp only [↓State.sendOn_root, ↓State.leaveIdle_root, ↓State.count_root, ↓State.contained_root, ↓State.modJob_root, ↓State.freeJob_root] | refine (State.viaLink_root ?_ ..).trans ?_ | (intro _) | split)
theorem State.runWaiting_root (s : State) (r : Request) : (State.runWaiting s r).root = s.root := by
  unfold State.runWaiting
  repeat' (first | with_reducible rfl | simp only [↓State.configPort_root, ↓State.loadTable_root, ↓State.holdEnvelope_root, ↓State.setupJob_root] | split)
theorem State.serveHost_root (s : State) : (State.serveHost s).root = s.root := by
  unfold State.serveHost
  repeat' (first | with_reducible rfl | simp only [↓State.setMbox_root, ↓State.runWaiting_root] | refine (foldl_root ?_ _ _).trans ?_ | (intro _) | split)
theorem execBusMasterEnableWrite_root (fn : Nat) (v : Bool) (s : State) : ∃ t, execBusMasterEnableWrite fn v s = .next t ∧ t.root = s.root := by
  refine ⟨_, rfl, ?_⟩
  repeat' (first | with_reducible rfl | simp only [↓State.setPci_root, ↓State.flushVecs_root, ↓State.serveHost_root] | split)
theorem execPciPowerStateWrite_root (fn : Nat) (power : PciPower) (pmeEn : Bool) (s : State) : ∃ t, execPciPowerStateWrite fn power pmeEn s = .next t ∧ t.root = s.root := by
  refine ⟨_, rfl, ?_⟩
  repeat' (first | with_reducible rfl | simp only [↓State.setPwr_root, ↓State.setPci_root, ↓State.pme_root, ↓State.wake_root, ↓State.flushVecs_root, ↓State.serveHost_root] | split)

/-! ### Pair -/

theorem State.readMirrored_root (s : State) (c a n : Nat) : (State.readMirrored s c a n).1.root = s.root := by
  unfold State.readMirrored
  repeat' (first | with_reducible rfl | refine (pair_root (by assumption) (State.lpRead_root ..)).trans ?_ | split)
theorem State.mirrorRegions_root (s : State) (c : Nat) (x : Ctx) : (State.mirrorRegions s c x).root = s.root := by
  unfold State.mirrorRegions
  repeat' (first | with_reducible rfl | simp only [↓State.readMirrored_root, ↓State.mirror_root] | refine (pair_root (by assumption) (State.readMirrored_root ..)).trans ?_ | refine (foldl_root ?_ _ _).trans ?_ | intro)
theorem State.mirrorQueue_root (s : State) (q : Nat) (h : HwQueue) : (State.mirrorQueue s q h).root = s.root := by
  unfold State.mirrorQueue
  repeat' (first | with_reducible rfl | simp only [↓State.mirror_root] | refine (foldl_root ?_ _ _).trans ?_ | (intro _) | split)
theorem State.mirrorPage_root (s : State) (p : Nat) (g : Page) : (State.mirrorPage s p g).root = s.root := by
  unfold State.mirrorPage
  repeat' (first | with_reducible rfl | simp only [↓State.readMirrored_root, ↓State.mirror_root] | refine (pair_root (by assumption) (State.readMirrored_root ..)).trans ?_ | refine (foldl_root ?_ _ _).trans ?_ | refine (foldl_root1 ?_ _ _).trans ?_ | split | intro)
theorem State.mirrorAll_root (s : State) (w : MirrorWait) : (State.mirrorAll s w).root = s.root := by
  unfold State.mirrorAll
  repeat' (first | with_reducible rfl | simp only [↓State.mirror_root, ↓State.mirrorRegions_root, ↓State.mirrorQueue_root, ↓State.mirrorPage_root] | refine (foldl_root ?_ _ _).trans ?_ | split | intro)
theorem State.pairOver_root (s : State) (link status : Nat) : (State.pairOver s link status).root = s.root := by
  unfold State.pairOver
  repeat' (first | with_reducible rfl | simp only [↓State.setPair_root, ↓State.sendOn_root, ↓State.pairAnswer_root] | split)
theorem State.signNonce_root (s : State) (link : Nat) (nonce : Bytes) : (State.signNonce s link nonce).root = s.root := by
  unfold State.signNonce
  repeat' (first | with_reducible rfl | simp only [↓State.setPair_root, ↓State.sendOn_root] | split)
theorem State.formPair_root (s : State) : (State.formPair s).root = s.root := by
  unfold State.formPair
  split
  · refine ite_root rfl (ite_root ((State.mirrorAll_root ..).trans ?_) ?_) <;>
      exact (State.setPair_root ..).trans (State.setBoot_root rfl)
  · rfl
theorem State.askPair_root (s : State) (r : Request) (role : Nat) : (State.askPair s r role).root = s.root := by
  unfold State.askPair
  repeat' (first | with_reducible rfl | simp only [↓State.setPair_root, ↓State.sendOn_root, ↓State.freeNat_root, ↓State.answer_root, ↓State.pairOver_root, ↓State.signNonce_root] | refine (pair_root2 (by assumption) (State.freeNat_root ..)).trans ?_ | split)
theorem execMirrorPairActive_root (ch : Nat) (s : State) : ∃ t, execMirrorPairActive ch s = .next t ∧ t.root = s.root := by
  refine ⟨_, rfl, ?_⟩
  repeat' (first | with_reducible rfl | simp only [↓State.askPair_root] | refine (State.onMsg_root ?_ ..).trans ?_ | intro)
theorem execMirrorPairStandby_root (ch : Nat) (s : State) : ∃ t, execMirrorPairStandby ch s = .next t ∧ t.root = s.root := by
  refine ⟨_, rfl, ?_⟩
  repeat' (first | with_reducible rfl | simp only [↓State.askPair_root] | refine (State.onMsg_root ?_ ..).trans ?_ | intro)
theorem State.takeNonce_root (s : State) (link : Nat) (n : Bytes) (active : Bool) : (State.takeNonce s link n active).root = s.root := by
  unfold State.takeNonce
  repeat' (first | with_reducible rfl | simp only [↓State.setPair_root, ↓State.sendOn_root, ↓State.pairOver_root, ↓State.signNonce_root, ↓State.formPair_root] | split)
theorem State.takeSignature_root (s : State) (link : Nat) (key sig : Bytes) : (State.takeSignature s link key sig).root = s.root := by
  unfold State.takeSignature
  repeat' (first | with_reducible rfl | simp only [↓State.formPair_root, ↓State.pairOver_root, ↓State.setPair_root] | split)
theorem State.takeOver_root (s : State) (link status : Nat) : (State.takeOver s link status).root = s.root := by
  unfold State.takeOver
  repeat' (first | with_reducible rfl | simp only [↓State.pairAnswer_root, ↓State.flushWaits_root, ↓State.setPair_root] | split)
theorem execIdentityChallenge_root (link : Nat) (m : ChallengeMsg) (s : State) : ∃ t, execIdentityChallenge link m s = .next t ∧ t.root = s.root := by
  refine ⟨_, rfl, ?_⟩
  repeat' (first | with_reducible rfl | simp only [↓State.leaveIdle_root, ↓State.takeNonce_root, ↓State.takeSignature_root, ↓State.takeOver_root] | refine (State.viaLink_root ?_ ..).trans ?_ | (intro _) | split)
theorem execMirrorPairTimeout_root (s : State) : ∃ t, execMirrorPairTimeout s = .next t ∧ t.root = s.root := by
  refine ⟨_, rfl, ?_⟩
  repeat' (first | with_reducible rfl | simp only [↓State.pairAnswer_root] | split)
theorem execMirrorUnpair_root (ch : Nat) (s : State) : ∃ t, execMirrorUnpair ch s = .next t ∧ t.root = s.root := by
  refine ⟨_, rfl, ?_⟩
  repeat' (first | with_reducible rfl | simp only [↓State.setPair_root, ↓State.sendOn_root, ↓State.answer_root, ↓State.pairAnswer_root, ↓State.flushWaits_root] | refine (State.onMsg_root ?_ ..).trans ?_ | (intro _) | split)
theorem State.standbyDone_root (s : State) : (State.standbyDone s).root = s.root := by
  unfold State.standbyDone
  repeat' (first | with_reducible rfl | simp only [↓State.sendOn_root, ↓State.pairAnswer_root, ↓State.pairOver_root] | split)
theorem State.keepMirror_root (s : State) (m : MirrorMsg) : (State.keepMirror s m).root = s.root := by
  unfold State.keepMirror
  repeat' (first | with_reducible rfl | simp only [↓State.setPair_root] | split)
theorem execMirrorMessage_root (m : MirrorMsg) (s : State) : ∃ t, execMirrorMessage m s = .next t ∧ t.root = s.root := by
  refine ⟨_, rfl, ?_⟩
  repeat' (first | with_reducible rfl | simp only [↓State.sendOn_root, ↓State.leaveIdle_root, ↓State.standbyDone_root, ↓State.keepMirror_root] | refine (State.viaLink_root ?_ ..).trans ?_ | (intro _) | split)
theorem execMirrorAck_root (n : Nat) (s : State) : ∃ t, execMirrorAck n s = .next t ∧ t.root = s.root := by
  refine ⟨_, rfl, ?_⟩
  repeat' (first | with_reducible rfl | simp only [↓State.setPair_root, ↓State.leaveIdle_root, ↓State.mirrorMore_root, ↓State.afterMirror_root] | refine (State.viaLink_root ?_ ..).trans ?_ | refine (foldl_root ?_ _ _).trans ?_ | (intro _) | split)
theorem execHeartbeatSend_root (s : State) : ∃ t, execHeartbeatSend s = .next t ∧ t.root = s.root := by
  refine ⟨_, rfl, ?_⟩
  repeat' (first | with_reducible rfl | simp only [↓State.sendOn_root] | split)
theorem execHeartbeat_root (frozen : Bool) (s : State) : ∃ t, execHeartbeat frozen s = .next t ∧ t.root = s.root := by
  refine ⟨_, rfl, ?_⟩
  repeat' (first | with_reducible rfl | simp only [↓State.setPair_root, ↓State.heartbeatLost_root] | refine (State.viaLink_root ?_ ..).trans ?_ | (intro _) | split)
theorem execHeartbeatLoss_root (s : State) : ∃ t, execHeartbeatLoss s = .next t ∧ t.root = s.root := by
  refine ⟨_, rfl, ?_⟩
  repeat' (first | with_reducible rfl | simp only [↓State.heartbeatLost_root] | split)
theorem Result.root_of {r : Result} {s : State} (h : ∃ t, r = .next t ∧ t.root = s.root) :
    (match r with | .next t => t | _ => s).root = s.root := by
  obtain ⟨t, rfl, ht⟩ := h
  exact ht
theorem State.deliver_root (s : State) (i : Instr) : (State.deliver s i).root = s.root := by
  unfold State.deliver
  refine Result.root_of (r := ?_) (s := s) ?_
  repeat' (first
    | exact execRingDiscoveryFlit_root .. | exact execJobConfirmFlit_root .. | exact execRingBlockArrival_root ..
    | exact execCreditReturn_root .. | exact execRingBarrierToken_root .. | exact execRingAbortNotice_root ..
    | exact execIdentityChallenge_root .. | exact execMirrorMessage_root .. | exact execMirrorAck_root ..
    | exact execHeartbeat_root .. | exact ⟨s, rfl, rfl⟩ | split)
theorem State.resumeLink_root (s : State) (link : Nat) : (State.resumeLink s link).root = s.root := by
  unfold State.resumeLink
  repeat' (first | with_reducible rfl | simp only [↓State.emit_root, ↓State.setLink_root, ↓State.deliver_root] | refine (foldl_root ?_ _ _).trans ?_ | (intro _) | split)
theorem execLinkRetrainComplete_root (link : Nat) (ok : Bool) (s : State) : ∃ t, execLinkRetrainComplete link ok s = .next t ∧ t.root = s.root := by
  refine ⟨_, rfl, ?_⟩
  repeat' (first | with_reducible rfl | simp only [↓State.leaveIdle_root, ↓State.countRetrain_root, ↓State.linkDown_root, ↓State.resumeLink_root] | split)
theorem State.signWaiting_root (s : State) : (State.signWaiting s).root = s.root := by
  unfold State.signWaiting
  exact (foldl_root (fun _ _ => State.signNonce_root ..) _ _).trans (State.setPair_root ..)
theorem execIdentityKeyReady_root (s : State) : ∃ t, execIdentityKeyReady s = .next t ∧ t.root = s.root := by
  refine ⟨_, rfl, ite_root rfl ?_⟩
  refine (foldl_root (fun s r => ite_root (State.certReply_root ..) (State.quoteReply_root ..)) _ _).trans ?_
  exact (State.signWaiting_root ..).trans ((State.sendIdentity_root ..).trans ((State.sendIdentity_root ..).trans (State.setBoot_root rfl)))

/-! ### Takeover -/

theorem State.createHeld_root (s : State) (ch : Nat) (l : List MirrorMsg) (m : MirrorMsg) : (State.createHeld s ch l m).1.root = s.root := by
  unfold State.createHeld
  repeat' (first | with_reducible rfl | simp only [↓State.setCtxs_root] | split)
theorem State.takeLexicon_root (s : State) (c slot : Nat) (b : Bytes) : (State.takeLexicon s c slot b).1.root = s.root := by
  unfold State.takeLexicon
  extract_lets d kept
  generalize hk : kept = k
  cases k with
  | none => rfl
  | some t =>
    refine ite_root1 rfl ?_
    refine (State.applyLexicons_root ..).trans ((State.setSten_root ..).trans ((State.modCtx_root ..).trans ((State.setSched_root ..).trans ?_)))
    exact keptLexicon_root (f := fun a s => s.setSten { s.sten with
        lexicons := s.sten.lexicons ++ [{ digest := d, image := b, addr := a, users := [] }] }) (fun a s => rfl) hk
theorem State.takeBundle_root (s : State) (c : Nat) (b : Bytes) : (State.takeBundle s c b).1.root = s.root := by
  unfold State.takeBundle
  repeat' (first | with_reducible rfl | refine (pair_root (by assumption) (State.bindBundle_root ..)).trans ?_ | split)
theorem State.takeRegion_root (s : State) (c i size off : Nat) (b : Bytes) : (State.takeRegion s c i size off b).1.root = s.root := by
  unfold State.takeRegion
  extract_lets got
  generalize hk : got = k
  cases k with
  | none => rfl
  | some y =>
    refine (State.lpWrite_root ..).trans ?_
    unfold got at hk
    split at hk
    · cases hk; rfl
    · cases ha : s.lpAlloc (c + 1) size with
      | none => rw [ha] at hk; cases hk
      | some r => rw [ha] at hk; cases hk; exact (State.modCtx_root ..).trans (State.lpAlloc_root (u := r.1) ha)
theorem State.allWell_root {α : Type} {f : State → α → State × Bool} (hk : ∀ s x, (f s x).1.root = s.root) (s : State) (l : List α) :
    (State.allWell s l f).1.root = s.root := by
  unfold State.allWell
  refine foldl_root1 (fun p x => ?_) _ _
  split
  · exact hk ..
  · rfl
theorem State.takeParts_root (s : State) (l : List MirrorMsg) (old c : Nat) : (State.takeParts s l old c).1.root = s.root := by
  unfold State.takeParts
  repeat' (first | with_reducible rfl | simp only [↓State.takeLexicon_root, ↓State.takeBundle_root, ↓State.modCtx_root, ↓State.takeRegion_root, ↓State.putStream_root, ↓State.setIntake_root] | refine (State.allWell_root ?_ ..).trans ?_ | refine (pair_root (by assumption) (State.takeLexicon_root ..)).trans ?_ | refine (pair_root (by assumption) (State.takeBundle_root ..)).trans ?_ | refine (pair_root (by assumption) (State.takeRegion_root ..)).trans ?_ | refine (State.lpAlloc_root (by assumption)).trans ?_ | split | intro)
theorem State.takeQueues_root (s : State) (hs : List (Nat × Option Nat)) (l : List MirrorMsg) (old c : Nat) : (State.takeQueues s hs l old c).1.root = s.root := by
  unfold State.takeQueues
  repeat' (first | with_reducible rfl | simp only [↓State.setHq_root, ↓State.setIntake_root] | refine (foldl_root1 ?_ _ _).trans ?_ | split | intro)
theorem State.pushOwn_root (s : State) (c cq : Nat) (r : Rec) : (State.pushOwn s c cq r).root = s.root := by
  unfold State.pushOwn
  repeat' (first | with_reducible rfl | simp only [↓State.pushRec_root] | split)
theorem State.faultQueues_root (s : State) (taken : List Nat) (l : List MirrorMsg) (old c : Nat) : (State.faultQueues s taken l old c).root = s.root := by
  unfold State.faultQueues
  repeat' (first | with_reducible rfl | simp only [↓State.pushOwn_root] | refine (foldl_root ?_ _ _).trans ?_ | (intro _) | split)
theorem State.rerunDescs_root (s : State) (l : List MirrorMsg) (c : Nat) : (State.rerunDescs s l c).root = s.root := by
  unfold State.rerunDescs
  repeat' (first | with_reducible rfl | simp only [↓State.startDesc_root, ↓State.setHq_root, ↓State.setSched_root] | refine (foldl_root ?_ _ _).trans ?_ | intro)
theorem State.faultPage_root (s : State) (l : List MirrorMsg) (pg : Nat × Nat) : (State.faultPage s l pg).root = s.root := by
  unfold State.faultPage
  repeat' (first | with_reducible rfl | simp only [↓State.pushOwn_root] | refine (foldl_root ?_ _ _).trans ?_ | (intro _) | split)
theorem State.rerunPage_root (s : State) (l : List MirrorMsg) (c : Nat) (pg : Nat × Nat) : (State.rerunPage s l c pg).root = s.root := by
  unfold State.rerunPage
  repeat' (first | with_reducible rfl | simp only [↓State.placePage_root, ↓State.setIntake_root] | split)
theorem State.takeCtx_root (s : State) (hs : List (Nat × Option Nat)) (l : List MirrorMsg) (old c : Nat) : (State.takeCtx s hs l old c).1.root = s.root := by
  unfold State.takeCtx
  repeat' (first | with_reducible rfl | simp only [↓State.takeQueues_root, ↓State.takeParts_root] | refine (pair_root (by assumption) (State.takeQueues_root ..)).trans ?_ | refine (pair_root (by assumption) (State.takeParts_root ..)).trans ?_ | split)
theorem State.enterHeld_root (s : State) (ch : Nat) (l : List MirrorMsg) (old c : Nat) : (State.enterHeld s ch l old c).1.root = s.root := by
  unfold State.enterHeld
  repeat' (first | with_reducible rfl | simp only [↓State.setSched_root] | refine (pair_root (by assumption) (State.admitRt_root ..)).trans ?_ | split)
theorem State.faultOrphan_root (s : State) (hs : List (Nat × Option Nat)) (l : List MirrorMsg) (old : Nat) : (State.faultOrphan s hs l old).root = s.root := by
  unfold State.faultOrphan
  repeat' (first | with_reducible rfl | simp only [↓State.takeQueues_root, ↓State.faultQueues_root, ↓State.faultPage_root] | refine (pair_root (by assumption) (State.takeQueues_root ..)).trans ?_ | refine (foldl_root ?_ _ _).trans ?_ | (intro _) | split)
theorem State.faultTaken_root (s : State) (l : List MirrorMsg) (old c : Nat) : (State.faultTaken s l old c).root = s.root := by
  unfold State.faultTaken
  repeat' (first | with_reducible rfl | simp only [↓State.faultQueues_root] | split)
theorem State.takeAll_root (s : State) (ch : Nat) (l : List MirrorMsg) : (State.takeAll s ch l).1.root = s.root := by
  unfold State.takeAll
  repeat' (first | with_reducible rfl | simp only [↓State.contained_root, ↓State.createHeld_root, ↓State.rerunDescs_root, ↓State.rerunPage_root, ↓State.takeCtx_root, ↓State.faultOrphan_root, ↓State.faultTaken_root] | refine (pair_root (by assumption) (State.createHeld_root ..)).trans ?_ | refine (pair_root (by assumption) (State.takeCtx_root ..)).trans ?_ | refine (pair_root (by assumption) (State.enterHeld_root ..)).trans ?_ | refine (foldl_root ?_ _ _).trans ?_ | refine (foldl_root1 ?_ _ _).trans ?_ | (intro _) | split)
theorem execMirrorTakeover_root (ch : Nat) (s : State) : ∃ t, execMirrorTakeover ch s = .next t ∧ t.root = s.root := by
  refine ⟨_, rfl, ?_⟩
  repeat' (first | with_reducible rfl | simp only [↓State.answer_root, ↓State.takeAll_root, ↓State.setPair_root] | refine (State.onMsg_root ?_ ..).trans ?_ | refine (pair_root (by assumption) (State.takeAll_root ..)).trans ?_ | split | intro)

/-! ### Tick -/

theorem State.passTime_root (s : State) : (State.passTime s).root = s.root := by
  unfold State.passTime
  repeat' (first | with_reducible rfl | simp only [↓State.setAon_root, ↓State.setClk_root] | split)
theorem State.settleCtxs_root (s : State) : (State.settleCtxs s).root = s.root := by
  unfold State.settleCtxs
  repeat' (first | with_reducible rfl | simp only [↓State.settle_root] | refine (foldl_root ?_ _ _).trans ?_ | intro)

end Sys2Proof.Machine
end

