-- ==== Sys2Proof/Laws/RootBoot.lean ====
section
/-! SUPPORT. Laws/RootBoot.lean: what the commands of the seal core, boot and resets keep: the queue, the fuses that are
blown, and the rule of the rollback counter. -/

namespace Sys2Proof.Machine

open Sys2Proof.Safety

/-- A state whose queue is `p`, whose fuses have grown from `f`, and which keeps the rollback rule. -/
def State.Kept (p : List Instr) (f : Fuses) (s : State) : Prop :=
  s.pending = p ∧ FusesGrow f s.fuse ∧ NoRollback s

theorem fusesGrow_refl (f : Fuses) : FusesGrow f f :=
  ⟨rfl, rfl, rfl, rfl, Nat.le_refl _, fun _ h => h, fun h => h, fun h => h⟩

theorem fusesGrow_trans {a b c : Fuses} (h : FusesGrow a b) (k : FusesGrow b c) : FusesGrow a c := by
  obtain ⟨h1, h2, h3, h4, h5, h6, h7, h8⟩ := h
  obtain ⟨k1, k2, k3, k4, k5, k6, k7, k8⟩ := k
  exact ⟨k1.trans h1, k2.trans h2, k3.trans h3, k4.trans h4, Nat.le_trans h5 k5, fun i x => k6 i (h6 i x),
    fun x => k7 (h7 x), fun x => k8 (h8 x)⟩

theorem noRollback_root {s t : State} (h : t.root = s.root) (hs : NoRollback s) : NoRollback t := by
  obtain ⟨h1, h2, h3, h4⟩ := hs
  injection h with _ hf hst him hw
  refine ⟨hf ▸ h1, fun b hb => hf ▸ h2 b (him ▸ hb), fun hl => him ▸ h3 (hst ▸ hl), fun ch seq hb => ?_⟩
  rw [hb] at hw
  cases hx : s.boot.flashBusy with
  | none => rw [hx] at hw; cases hw
  | some g =>
    rw [hx] at hw
    injection hw with hw
    injection hw with hg hw
    injection hw with hm hw
    injection hw with ht ha
    obtain ⟨c, q, b⟩ := g
    have hg : true = b := hg
    subst hg
    obtain ⟨k1, k2, k3, k4⟩ := h4 c q hx
    exact ⟨hst ▸ k1, him ▸ k2, ha.trans k3, by rw [hf, hm, ht]; exact k4⟩

theorem kept_root {p : List Instr} {f : Fuses} {s t : State} (h : t.root = s.root) (hs : s.Kept p f) : t.Kept p f := by
  obtain ⟨h1, h2, h3⟩ := hs
  have hf : t.fuse = s.fuse := congrArg Root.fuse h
  exact ⟨(congrArg Root.pending h).trans h1, hf ▸ h2, noRollback_root h h3⟩

/-- A command that leaves the root as it is keeps all of it. -/
theorem kept_next {p : List Instr} {f : Fuses} {s : State} {r : Result} (h : ∃ t, r = .next t ∧ t.root = s.root)
    (hs : s.Kept p f) : ∃ t, r = .next t ∧ t.Kept p f := by
  obtain ⟨t, ht, hr⟩ := h
  exact ⟨t, ht, kept_root hr hs⟩

theorem ite_kept {p : List Instr} {f : Fuses} {c : Prop} [Decidable c] {a b : State} (ha : c → a.Kept p f)
    (hb : ¬c → b.Kept p f) : (if c then a else b).Kept p f := by
  split
  · exact ha ‹_›
  · exact hb ‹_›

theorem foldl_kept {p : List Instr} {f : Fuses} {α : Type} {g : State → α → State}
    (hg : ∀ s x, s.Kept p f → (g s x).Kept p f) (l : List α) (s : State) (hs : s.Kept p f) : (l.foldl g s).Kept p f := by
  induction l generalizing s with
  | nil => exact hs
  | cons x r ih => exact ih _ (hg s x hs)

/-- A change of the boot record that keeps the image and any flash write, and does not go back to stages ROM and
RECOVERY with an image. -/
theorem setBoot_kept {p : List Instr} {f : Fuses} {s : State} {b : Boot} (hs : s.Kept p f)
    (hi : b.image = s.boot.image) (hw : b.flashBusy = s.boot.flashBusy)
    (hm : b.flashBusy ≠ none → b.staging = s.boot.staging ∧ b.stagingTotal = s.boot.stagingTotal ∧ b.stagingAt = s.boot.stagingAt)
    (hst : b.stage = s.boot.stage ∨ 1 < b.stage ∨ (b.stage = 1 ∧ s.boot.stage ≤ 1)) : (s.setBoot b).Kept p f := by
  obtain ⟨h1, h2, h3, h4, h5, h6⟩ := hs
  refine ⟨h1, h2, h3, fun x hx => h4 x (hi ▸ hx), fun hl => ?_, fun ch seq hb => ?_⟩
  · have hl : b.stage ≤ 1 := hl
    show b.image = none
    rw [hi]
    rcases hst with h | h | h
    · exact h5 (h ▸ hl)
    · exact absurd h (Nat.not_lt.mpr hl)
    · exact h5 h.2
  · have hb : b.flashBusy = some (ch, seq, true) := hb
    obtain ⟨k1, k2, k3, k4⟩ := h6 ch seq (hw ▸ hb)
    obtain ⟨m1, m2, m3⟩ := hm (by rw [hb]; exact Option.some_ne_none _)
    refine ⟨?_, hi.trans k2, m3.trans k3, ?_⟩
    · show b.stage ≠ 0
      rcases hst with h | h | h
      · exact h ▸ k1
      · omega
      · omega
    · show Runnable s.fuse _
      have e1 : (s.setBoot b).boot.staging = s.boot.staging := m1
      have e2 : (s.setBoot b).boot.stagingTotal = s.boot.stagingTotal := m2
      rw [e1, e2]
      exact k4

/-- No flash write is under way, and nothing else of the root has changed. -/
theorem idle_kept {p : List Instr} {f : Fuses} {s t : State} (hs : s.Kept p f) (hp : t.pending = s.pending)
    (hf : t.fuse = s.fuse) (hst : t.boot.stage = s.boot.stage) (hi : t.boot.image = s.boot.image) (hw : t.boot.flashBusy = none) :
    t.Kept p f := by
  obtain ⟨h1, h2, h3, h4, h5, _⟩ := hs
  refine ⟨hp.trans h1, hf ▸ h2, hf ▸ h3, fun b hb => ?_, fun hl => ?_, fun ch seq hb => ?_⟩
  · rw [hi] at hb; rw [hf]; exact h4 b hb
  · rw [hst] at hl; rw [hi]; exact h5 hl
  · rw [hw] at hb; cases hb

/-- Clearing the staging area keeps all of the root but a flash write's share. -/
theorem clearStaging_parts (s : State) : s.clearStaging.pending = s.pending ∧ s.clearStaging.fuse = s.fuse ∧
    s.clearStaging.boot.stage = s.boot.stage ∧ s.clearStaging.boot.image = s.boot.image ∧
    s.clearStaging.boot.flashBusy = s.boot.flashBusy := by
  unfold State.clearStaging
  split
  · rename_i a _
    have h := State.lpFree_root s a s.boot.stagingTotal
    exact ⟨congrArg Root.pending h, congrArg Root.fuse h, congrArg Root.stage h, congrArg Root.image h, rfl⟩
  · exact ⟨rfl, rfl, rfl, rfl, rfl⟩

/-- The boot record of a cold start keeps the rule, whatever it was before. -/
theorem cold_kept {p : List Instr} {f : Fuses} {s t : State} (hs : s.Kept p f) (hp : t.pending = s.pending)
    (hf : t.fuse = s.fuse) (hi : t.boot.image = none) (hw : t.boot.flashBusy = none) : t.Kept p f := by
  obtain ⟨h1, h2, h3, _⟩ := hs
  refine ⟨hp.trans h1, hf ▸ h2, hf ▸ h3, fun b hb => ?_, fun _ => hi, fun ch seq hb => ?_⟩
  · rw [hi] at hb; cases hb
  · rw [hw] at hb; cases hb

/-- Blowing further fuses, with the rollback counter as it was. -/
theorem setFuse_kept {p : List Instr} {f : Fuses} {s : State} {g : Fuses} (hs : s.Kept p f) (hg : FusesGrow s.fuse g)
    (hr : g.rollback = s.fuse.rollback) : (s.setFuse g).Kept p f := by
  obtain ⟨h1, h2, h3, h4, h5, h6⟩ := hs
  refine ⟨h1, fusesGrow_trans h2 hg, ?_, fun b hb => ?_, h5, fun ch seq hb => ?_⟩
  · show g.rollback ≤ 64
    rw [hr]; exact h3
  · have := h4 b hb
    exact ⟨by show g.rollback ≤ _; rw [hr]; exact this.1, this.2⟩
  · obtain ⟨k1, k2, k3⟩ := h6 ch seq hb
    exact ⟨k1, k2, k3.1, by show g.rollback ≤ _; rw [hr]; exact k3.2.1, k3.2.2⟩

/-- Starting an image that the counter lets run. -/
theorem startImage_kept {p : List Instr} {f : Fuses} {s : State} {b : Bytes} (hs : s.Kept p f)
    (hw : ∀ ch seq, s.boot.flashBusy ≠ some (ch, seq, true)) (hr : Runnable s.fuse (b.take (fwLen b))) : (s.startImage b).Kept p f := by
  obtain ⟨h1, h2, h3, h4, h5, h6⟩ := hs
  refine ⟨h1, h2, h3, fun x hx => ?_, fun hl => absurd hl (by show ¬(2 ≤ 1); omega), fun ch seq hb => ?_⟩
  · have hx : some (b.take (fwLen b)) = some x := hx
    injection hx with hx
    exact hx ▸ hr
  · exact absurd hb (hw ch seq)

/-- A field that lies within the first `n` bytes. -/
theorem leAt_take (b : Bytes) (o k n : Nat) (h : o + k ≤ n) : leAt (b.take n) o k = leAt b o k := by
  unfold leAt slice
  rw [List.drop_take, List.take_take, Nat.min_eq_left (by omega)]

theorem ite_or {α : Type} {c : Prop} [Decidable c] {a b t : α} (h : (if c then a else b) = t) : c ∧ a = t ∨ ¬c ∧ b = t := by
  split at h
  · exact .inl ⟨‹_›, h⟩
  · exact .inr ⟨‹_›, h⟩

/-- Check 1 of R458 bounds the length and the rollback version. -/
theorem fwFormatOk_bounds {b : Bytes} (h : fwFormatOk b = true) : 65536 ≤ fwLen b ∧ fwRollback b ≤ 64 := by
  unfold fwFormatOk at h
  simp only [Bool.and_eq_true, decide_eq_true_eq] at h
  obtain ⟨⟨⟨⟨⟨⟨⟨⟨⟨⟨⟨⟨⟨⟨⟨⟨⟨_, _⟩, _⟩, _⟩, hl⟩, _⟩, hr⟩, _⟩, _⟩, _⟩, _⟩, _⟩, _⟩, _⟩, _⟩, _⟩, _⟩, _⟩ := h
  exact ⟨hl, hr⟩

/-- An image that passes the checks of R458 is one that the counter lets run, also when it is cut to its length. -/
theorem fwStatus_runnable {s : State} {b : Bytes} (h : s.fwStatus b = stOK) : Runnable s.fuse (b.take (fwLen b)) := by
  unfold State.fwStatus at h
  rcases ite_or h with ⟨_, h⟩ | ⟨hf, h⟩
  · cases h
  rcases ite_or h with ⟨_, h⟩ | ⟨_, h⟩
  · cases h
  rcases ite_or h with ⟨_, h⟩ | ⟨_, h⟩
  · cases h
  rcases ite_or h with ⟨_, h⟩ | ⟨_, h⟩
  · cases h
  rcases ite_or h with ⟨_, h⟩ | ⟨hr, _⟩
  · cases h
  obtain ⟨hl, h64⟩ := fwFormatOk_bounds (by simpa using hf)
  have e : fwRollback (b.take (fwLen b)) = fwRollback b := leAt_take b 16 1 _ (by omega)
  exact ⟨by rw [e]; omega, by rw [e]; exact h64⟩

/-! ### Resets -/

variable {p : List Instr} {f : Fuses} {s : State}

theorem bare_kept (hs : s.Kept p f) : s.bare.Kept p f := cold_kept hs rfl rfl rfl rfl

theorem execPowerOnReset_kept (hs : s.Kept p f) : ∃ t, execPowerOnReset s = .next t ∧ t.Kept p f :=
  ⟨_, rfl, bare_kept hs⟩

theorem execAonSupplyLoss_kept (hs : s.Kept p f) : ∃ t, execAonSupplyLoss s = .next t ∧ t.Kept p f :=
  ⟨_, rfl, kept_root (State.setAon_root ..) (bare_kept hs)⟩

theorem deviceReset_kept (cause : Nat) (a b c : Bool) (hs : s.Kept p f) : (s.deviceReset cause a b c).Kept p f := by
  have key : ∀ r : State, r.pending = s.pending → r.fuse = s.fuse → (r.boot = s.boot ∨ r.boot = s.reportOf) → r.Kept p f := by
    intro r hp hf hb
    rcases hb with hb | hb
    · exact kept_root (by unfold State.root; rw [hp, hf, hb]) hs
    · exact cold_kept hs hp hf (by rw [hb]; rfl) (by rw [hb]; rfl)
  unfold State.deviceReset
  refine ite_kept (fun _ => kept_root (State.emit_root ..) (key _ rfl rfl ?_)) (fun _ => key _ rfl rfl ?_) <;>
    · dsimp only
      split
      · exact .inl rfl
      · exact .inr rfl

theorem execDeviceReset_kept (cause : ResetCause) (hs : s.Kept p f) :
    ∃ t, execDeviceReset cause s = .next t ∧ t.Kept p f :=
  ⟨_, rfl, ite_kept (fun _ => hs) (fun _ => deviceReset_kept _ _ _ _ hs)⟩

theorem execThermalTrip_kept (hs : s.Kept p f) : ∃ t, execThermalTrip s = .next t ∧ t.Kept p f :=
  ⟨_, rfl, ite_kept (fun _ => hs) (fun _ => kept_root (State.emit_root ..) (deviceReset_kept _ _ _ _ hs))⟩

theorem execCorePgRise_kept (src addr : Nat) (hs : s.Kept p f) : ∃ t, execCorePgRise src addr s = .next t ∧ t.Kept p f :=
  ⟨_, rfl, ite_kept (fun _ => hs) (fun _ => ite_kept (fun _ => kept_root (State.setPwr_root ..) hs)
    (fun _ => cold_kept hs rfl rfl rfl rfl))⟩

theorem clearStaging_kept (hs : s.Kept p f) (hn : s.boot.flashBusy = none) : s.clearStaging.Kept p f := by
  obtain ⟨h1, h2, h3, h4, h5⟩ := clearStaging_parts s
  exact idle_kept hs h1 h2 h3 h4 (h5.trans hn)

/-- What a restart of the processing domain keeps of the staging area: a flash write that starts its image has none in
LPDDR5. -/
theorem keepStaging_kept (hs : s.Kept p f) : s.keepStaging.Kept p f := by
  unfold State.keepStaging
  split
  · exact hs
  · rename_i a ha
    refine ite_kept (fun _ => ?_) (fun hn => clearStaging_kept hs ?_)
    · obtain ⟨h1, h2, h3, h4, h5, h6⟩ := hs
      refine ⟨h1, h2, h3, h4, h5, fun ch seq hb => ?_⟩
      have k := (h6 ch seq hb).2.2.1
      rw [ha] at k; cases k
    · simpa using hn

theorem firmwareRestart_kept (hs : s.Kept p f) : s.firmwareRestart.Kept p f := by
  unfold State.firmwareRestart
  refine kept_root (State.event_root ..) ?_
  have hu : (((s.keepStaging.wipeContexts.restoreCounts.clearChans (· < 32) false true).resetPf0).putErr
      { sram := s.err.sram.filter (fun x => x.1.mem != .palette && x.1.mem != .canvas) }).Kept p f :=
    kept_root ((State.putErr_root ..).trans ((State.resetPf0_root ..).trans
      ((State.clearChans_root ..).trans ((State.restoreCounts_root ..).trans (State.wipeContexts_root ..)))))
      (keepStaging_kept hs)
  generalize (State.putErr _ _ : State) = u at hu
  exact kept_root (s := u.setBoot { u.boot with
    stage := 3, failCode := 0, degraded := false, report := s.reportOf.report, reportTotal := s.reportOf.reportTotal,
    reportHeld := true, reportUnread := s.reportOf.reportUnread, paired := false }) rfl
    (setBoot_kept hu rfl rfl (fun _ => ⟨rfl, rfl, rfl⟩) (.inr (.inl (by decide : 1 < 3))))

theorem execFirmwareRestart_kept (hs : s.Kept p f) : ∃ t, execFirmwareRestart s = .next t ∧ t.Kept p f :=
  ⟨_, rfl, ite_kept (fun _ => firmwareRestart_kept hs) (fun _ => hs)⟩

theorem execFlrPf0_kept (hs : s.Kept p f) : ∃ t, execFlrPf0 s = .next t ∧ t.Kept p f := by
  refine ⟨_, rfl, ite_kept (fun _ => hs) (fun _ => ite_kept (fun _ => firmwareRestart_kept hs) (fun _ => ?_))⟩
  refine kept_root (ite_root (State.wake_root ..) (State.leaveIdle_root ..)) ?_
  exact kept_root ((State.feedHolds_root ..).trans ((State.resetPf0_root ..).trans
    ((State.clearChans_root ..).trans (State.wipeContexts_root ..)))) hs

theorem execSealCoreRestart_kept (hs : s.Kept p f) : ∃ t, execSealCoreRestart s = .next t ∧ t.Kept p f := by
  refine ⟨_, rfl, ite_kept (fun _ => hs) (fun _ => ?_)⟩
  obtain ⟨h1, h2, h3, h4, _⟩ := clearStaging_parts (s.clearChans (32 ≤ ·) true false)
  exact idle_kept (kept_root (State.clearChans_root ..) hs) h1 h2 h3 h4 rfl

/-! ### Boot -/

theorem bootFail_kept (code : Nat) (hs : s.Kept p f) : (s.bootFail code).Kept p f := by
  unfold State.bootFail
  exact kept_root (State.event_root ..) (setBoot_kept hs rfl rfl (fun _ => ⟨rfl, rfl, rfl⟩) (.inr (.inl (by decide : 1 < 6))))

theorem execBootImageLoaded_kept (hs : s.Kept p f) : ∃ t, execBootImageLoaded s = .next t ∧ t.Kept p f := by
  refine ⟨_, rfl, ?_⟩
  by_cases hc : (!s.alive || s.boot.stage != 0 || s.pwr.bootSrc != 0 || s.aonServes) = true
  · rw [if_pos hc]; exact hs
  · rw [if_neg hc]
    have h0 : s.boot.stage = 0 := by
      simp only [Bool.or_eq_true, not_or, bne_iff_ne, ne_eq, Bool.not_eq_true, Decidable.not_not] at hc
      exact hc.1.1.2
    have ht : (s.setBoot { s.boot with romTest := true }).Kept p f :=
      setBoot_kept hs rfl rfl (fun _ => ⟨rfl, rfl, rfl⟩) (.inl rfl)
    have h0' : (s.setBoot { s.boot with romTest := true }).boot.stage = 0 := h0
    dsimp only
    generalize s.setBoot { s.boot with romTest := true } = s at ht h0'
    have hs := ht
    have h0 := h0'
    have cold : ∀ code, (s.setBoot { s.boot with stage := 1, failCode := code }).Kept p f := fun code =>
      setBoot_kept hs rfl rfl (fun _ => ⟨rfl, rfl, rfl⟩) (.inr (.inr ⟨rfl, by omega⟩))
    split
    · exact cold _
    · refine ite_kept (fun hok => startImage_kept hs ?_ (fwStatus_runnable hok)) (fun _ => cold _)
      exact fun ch seq hw => (hs.2.2.2.2.2 ch seq hw).1 h0

theorem execSelfTestComplete_kept (fails : List MacroTest) (hs : s.Kept p f) :
    ∃ t, execSelfTestComplete fails s = .next t ∧ t.Kept p f := by
  refine ⟨_, rfl, ite_kept (fun _ => hs) (fun _ => ?_)⟩
  extract_lets ts u
  refine ite_kept (fun _ => bootFail_kept _ hs) (fun _ => ?_)
  have hu : u.Kept p f := foldl_kept (fun s x h => kept_root (State.testMacro_root ..) h) _ _ hs
  split
  · exact setBoot_kept hu rfl rfl (fun _ => ⟨rfl, rfl, rfl⟩) (.inl rfl)
  · exact setBoot_kept hu rfl rfl (fun _ => ⟨rfl, rfl, rfl⟩) (.inr (.inl (by decide : 1 < 4)))

/-- READY is reached with the image of the retained region: the rollback counter takes its version, if the image asks. -/
theorem becomeReady_kept {im : Bytes} (hs : s.Kept p f) (hi : s.boot.image = some im) : (s.becomeReady im).Kept p f := by
  unfold State.becomeReady
  refine kept_root (State.feedHolds_root ..) ?_
  have k1 : (s.setBoot { s.boot with
      stage := 5, failCode := 0, fwVersion := fwVer im, protoVersion := 0x02030002 }).Kept p f :=
    setBoot_kept hs rfl rfl (fun _ => ⟨rfl, rfl, rfl⟩) (.inr (.inl (by decide : 1 < 5)))
  have i1 : (s.setBoot { s.boot with
      stage := 5, failCode := 0, fwVersion := fwVer im, protoVersion := 0x02030002 }).boot.image = some im := hi
  generalize s.setBoot { s.boot with
      stage := 5, failCode := 0, fwVersion := fwVer im, protoVersion := 0x02030002 } = u1 at k1 i1 ⊢
  have e4 : ∀ (b : Power) (u : State), (((if b.nextCause = 6 then u.setPwr { b with
      cause := 6, afterFreeze := b.nextAfter, nextCause := 0, nextAfter := false } else u).event 7).clearChans
      (· < 32) true false).root = u.root :=
    fun b u => (State.clearChans_root ..).trans ((State.event_root ..).trans (ite_root (State.setPwr_root ..) rfl))
  have e : ((((if (u1.setPwr { u1.pwr with state := 0 }).pwr.nextCause = 6 then (u1.setPwr { u1.pwr with state := 0 }).setPwr
      { (u1.setPwr { u1.pwr with state := 0 }).pwr with
        cause := 6, afterFreeze := (u1.setPwr { u1.pwr with state := 0 }).pwr.nextAfter, nextCause := 0, nextAfter := false }
      else u1.setPwr { u1.pwr with state := 0 }).event 7).clearChans (· < 32) true false)).root = u1.root :=
    (e4 _ _).trans (State.setPwr_root ..)
  dsimp only
  generalize State.clearChans _ _ true false = u4 at e ⊢
  have k4 : u4.Kept p f := kept_root e k1
  have i4 : u4.boot.image = some im := (congrArg Root.image e).trans i1
  refine ite_kept (fun hc => ?_) (fun _ => k4)
  obtain ⟨h1, h2, h3, h4, h5, h6⟩ := k4
  have hlt : u4.fuse.rollback < fwRollback im := by
    simp only [Bool.and_eq_true, decide_eq_true_eq] at hc
    exact hc.2
  refine ⟨h1, fusesGrow_trans h2 ⟨rfl, rfl, rfl, rfl, Nat.le_of_lt hlt, fun _ h => h, fun h => h, fun h => h⟩,
    (h4 im i4).2, fun b hb => ?_, h5, fun ch seq hb => ?_⟩
  · have hb : u4.boot.image = some b := hb
    rw [i4] at hb
    injection hb with hb
    exact ⟨by rw [← hb]; exact Nat.le_refl _, (h4 b (by rw [i4, hb])).2⟩
  · have := (h6 ch seq hb).2.1
    rw [i4] at this; cases this

theorem execTrainingComplete_kept (r : TrainResult) (hs : s.Kept p f) :
    ∃ t, execTrainingComplete r s = .next t ∧ t.Kept p f := by
  refine ⟨_, rfl, ?_⟩
  cases hi : s.boot.image with
  | none => exact hs
  | some im =>
    refine ite_kept (fun _ => hs) (fun _ => ?_)
    have ku : ∀ m, (s.setBoot { s.boot with memcfg := m }).Kept p f :=
      fun m => setBoot_kept hs rfl rfl (fun _ => ⟨rfl, rfl, rfl⟩) (.inl rfl)
    have iu : ∀ m, (s.setBoot { s.boot with memcfg := m }).boot.image = some im := fun m => hi
    refine ite_kept (fun _ => bootFail_kept _ (ku _)) (fun _ => ite_kept (fun _ => bootFail_kept _ (ku _)) (fun _ => ?_))
    have e : ∀ (l : List (RowAt × Bool × Bool)) (v : State), (l.foldl State.repairRow v).root = v.root :=
      fun l v => foldl_root (fun s x => State.repairRow_root ..) l v
    exact becomeReady_kept (kept_root ((e ..).trans (State.setLp_root ..)) (ku (leAt im (leAt im 40 4) 64)))
      ((congrArg Root.image ((e ..).trans (State.setLp_root ..))).trans (iu (leAt im (leAt im 40 4) 64)))

/-! ### Secure commands -/

/-- A secure command either leaves the root as it is, or runs its meaning on a state of the same root. -/
theorem onSecure_kept {run : State → Request → State} (hk : ∀ s r, s.Kept p f → (run s r).Kept p f) (ch op : Nat)
    (fmt : Bytes → Bool) (hs : s.Kept p f) : (s.onSecure ch op fmt run).Kept p f := by
  have hb : ∀ (s : State) r, s.Kept p f → (s.begin r run).Kept p f := fun s r h => hk _ _ (kept_root (State.setMbox_root ..) h)
  have hm : ∀ (s : State) (sel : Bytes → Bool) (ctxOf : State → Bytes → Option Nat) (named : State → Nat → Bytes → Bool),
      s.Kept p f → (s.onMsg ch op sel ctxOf named fmt run).Kept p f := by
    intro s sel ctxOf named h
    unfold State.onMsg
    refine ite_kept (fun _ => h) (fun _ => ?_)
    have h1 : (s.takeMsg ch).Kept p f := kept_root (State.takeMsg_root ..) h
    generalize s.takeMsg ch = u at h1 ⊢
    have h2 : (u.nextReq ch).Kept p f := kept_root (State.nextReq_root ..) h1
    have no : ∀ a b c, (u.refuse ch a b c).Kept p f := fun a b c => kept_root (State.refuse_root ..) h1
    have no2 : ∀ a b c, ((u.nextReq ch).refuse ch a b c).Kept p f := fun a b c => kept_root (State.refuse_root ..) h2
    dsimp only
    cases tabFind u.mbox.session ch with
    | none => exact no ..
    | some x =>
      exact ite_kept (fun _ => no ..) (fun _ => ite_kept (fun _ => no2 ..) (fun _ => ite_kept (fun _ => no2 ..)
        (fun _ => ite_kept (fun _ => no2 ..) (fun _ => hb _ _ h2))))
  unfold State.onSecure
  refine ite_kept (fun _ => hs) (fun _ => ?_)
  split
  · refine ite_kept (fun _ => hs) (fun _ => ?_)
    have h1 := kept_root (State.setMbox_root s { s.mbox with whole := tabDel s.mbox.whole ch }) hs
    exact ite_kept (fun _ => hb _ _ h1) (fun _ => kept_root (State.refuse_root ..) h1)
  · exact ite_kept (fun _ => hs) (fun _ => hm _ _ _ _ hs)

theorem execOwnerKeyEnrol_kept (ch : Nat) (hs : s.Kept p f) : ∃ t, execOwnerKeyEnrol ch s = .next t ∧ t.Kept p f := by
  refine ⟨_, rfl, onSecure_kept (fun s r hs => ?_) _ _ _ hs⟩
  have hu : (s.setBoot { s.boot with nonces := tabDel s.boot.nonces ch }).Kept p f :=
    setBoot_kept hs rfl rfl (fun _ => ⟨rfl, rfl, rfl⟩) (.inl rfl)
  generalize s.setBoot { s.boot with nonces := tabDel s.boot.nonces ch } = u at hu ⊢
  refine ite_kept (fun _ => kept_root (State.answer_root ..) hu) (fun _ => ite_kept (fun _ => kept_root (State.answer_root ..) hu)
    (fun _ => ?_))
  refine kept_root (State.answer_root ..) (setFuse_kept hu ⟨rfl, rfl, rfl, rfl, Nat.le_refl _, fun k h => ?_, fun _ => rfl, fun h => ?_⟩ rfl)
  · show (Nat.lor u.fuse.ownerDigest _).testBit k = true
    rw [show ∀ a b, Nat.lor a b = a ||| b from fun _ _ => rfl, Nat.testBit_or, h]
    rfl
  · show (u.fuse.debugLock || _) = true
    rw [h]; rfl

theorem stagePut_kept {off total : Nat} {data : Bytes} {t : State} (hs : s.Kept p f) (hn : s.boot.flashBusy = none)
    (h : s.stagePut off total data = some t) : t.Kept p f ∧ t.boot.flashBusy = none := by
  unfold State.stagePut at h
  have place : ∀ b : Boot, b.stage = s.boot.stage → b.image = s.boot.image → b.flashBusy = none → ∀ u : State,
      u.root = s.root → (u.setBoot b).Kept p f ∧ (u.setBoot b).boot.flashBusy = none := fun b h1 h2 h3 u hu =>
    ⟨idle_kept hs (congrArg Root.pending hu) (congrArg Root.fuse hu) h1 h2 h3, h3⟩
  split at h
  · cases h
    exact place { s.boot with staging := memPut s.boot.staging off data, romTest := true } rfl rfl hn s rfl
  · obtain ⟨r, hr, h⟩ := Option.bind_eq_some_iff.mp h
    have k : r.2.Kept p f ∧ r.2.boot.flashBusy = none := by
      split at hr
      · cases hr; exact ⟨hs, hn⟩
      · obtain ⟨a, ha, rfl⟩ := Option.map_eq_some_iff.mp hr
        have e := State.lpAlloc_root (u := a.1) ha
        have hb : a.2.boot.flashBusy = none := flashBusy_root e hn
        exact place { a.2.boot with stagingAt := some a.1 } (congrArg Root.stage e) (congrArg Root.image e) hb _ e
    have e := State.lpWrite_root r.2 8 0 none (r.1 + off) data
    split at h
    · rename_i u hw
      cases h
      rw [hw] at e
      exact ⟨kept_root e k.1, flashBusy_root e k.2⟩
    · cases h

theorem execImagePush_kept (ch : Nat) (hs : s.Kept p f) : ∃ t, execImagePush ch s = .next t ∧ t.Kept p f := by
  refine ⟨_, rfl, onSecure_kept (fun s r hs => ?_) _ _ _ hs⟩
  extract_lets b off total data
  refine ite_kept (fun _ => kept_root (State.answer_root ..) hs) (fun _ => ite_kept (fun _ => kept_root (State.answer_root ..) hs)
    (fun hn => ite_kept (fun _ => kept_root (State.answer_root ..) hs) (fun _ => ?_)))
  have hn : s.boot.flashBusy = none := by
    simp only [Bool.or_eq_true, not_or, Bool.not_eq_true, Option.isSome_eq_false_iff, Option.isNone_iff_eq_none] at hn
    exact hn.2
  split
  · exact kept_root (State.answer_root ..) hs
  · rename_i t ht
    obtain ⟨k, hb⟩ := stagePut_kept hs hn ht
    exact kept_root (State.answer_root ..) (setBoot_kept k rfl rfl (fun h => absurd hb h) (.inl rfl))

/-- The staged image is read, and in RECOVERY from control SRAM. -/
theorem staged_root (s : State) : s.staged.1.root = s.root := by
  unfold State.staged
  split
  · exact State.lpRead_root ..
  · rfl

theorem staged_control (h : s.boot.stage = 1 ∨ s.boot.stagingAt = none) :
    s.staged = (s, some (memBytes s.boot.staging 0 s.boot.stagingTotal)) := by
  unfold State.staged
  rcases h with h | h
  · rw [if_pos h]
  · rw [h, ite_self]

theorem execImageCommit_kept (ch : Nat) (hs : s.Kept p f) : ∃ t, execImageCommit ch s = .next t ∧ t.Kept p f := by
  refine ⟨_, rfl, onSecure_kept (fun s r hs => ?_) _ _ _ hs⟩
  extract_lets b persist
  refine ite_kept (fun _ => kept_root (State.answer_root ..) hs) (fun _ => ite_kept (fun _ => kept_root (State.answer_root ..) hs)
    (fun hn => ?_))
  have hw : s.boot.flashBusy = none := by
    simp only [Bool.or_eq_true, not_or, Bool.not_eq_true, Option.isSome_eq_false_iff, Option.isNone_iff_eq_none] at hn
    exact hn.2
  have he := staged_root s
  have hctl := fun h => staged_control (s := s) (.inl h)
  generalize s.staged = g at he hctl ⊢
  obtain ⟨u, o⟩ := g
  have hu : u.Kept p f := kept_root he hs
  have hf : u.fuse = s.fuse := congrArg Root.fuse he
  have hbu : u.boot.flashBusy = none := flashBusy_root he hw
  have hc : u.clearStaging.Kept p f := clearStaging_kept hu hbu
  cases o with
  | none => exact kept_root (State.answer_root ..) hc
  | some img =>
    dsimp only
    refine ite_kept (fun _ => kept_root (State.answer_root ..) hc) (fun hst => ?_)
    have hrun : Runnable u.fuse (img.take (fwLen img)) := by
      refine fwStatus_runnable ?_
      have h : (if (b.stagingOwner.isNone || !b.covered) = true then stFormat else u.fwStatus img) = stOK := by simpa using hst
      rcases ite_or h with ⟨_, h⟩ | ⟨_, h⟩
      · cases h
      · exact h
    refine ite_kept (fun _ => kept_root (State.answer_root ..) hc) (fun _ => ite_kept (fun _ => ?_)
      (fun _ => kept_root (State.answer_root ..) (startImage_kept hc (fun ch seq h => ?_) ?_)))
    · obtain ⟨h1, h2, h3, h4, h5, h6⟩ := hu
      refine ⟨h1, h2, h3, h4, h5, fun c q hb => ?_⟩
      have hb : some (ch, r.seq, b.stage == 1) = some (c, q, true) := hb
      injection hb with hb
      injection hb with _ hb
      injection hb with _ hb
      have h1 : s.boot.stage = 1 := by simpa using hb
      have hg := hctl h1
      injection hg with hg1 hg2
      injection hg2 with hg2
      subst hg1
      refine ⟨by show u.boot.stage ≠ 0; omega, h5 (by omega), ?_, ?_⟩
      · show (if b.stage = 1 then none else u.boot.stagingAt) = none
        rw [if_pos h1]
      · exact hg2 ▸ hrun
    · rw [(clearStaging_parts u).2.2.2.2, hbu] at h
      cases h
    · rw [(clearStaging_parts u).2.1]
      exact hrun

theorem execFlashWriteComplete_kept (ok : Bool) (hs : s.Kept p f) :
    ∃ t, execFlashWriteComplete ok s = .next t ∧ t.Kept p f := by
  refine ⟨_, rfl, ?_⟩
  cases hw : s.boot.flashBusy with
  | none => exact hs
  | some g =>
    obtain ⟨ch, seq, start⟩ := g
    refine ite_kept (fun _ => hs) (fun _ => ?_)
    have he := staged_root s
    have hrun : start = true → ∀ b, s.staged.2 = some b → Runnable s.fuse (b.take (fwLen b)) := by
      intro h b hb
      obtain ⟨_, _, k3, k4⟩ := hs.2.2.2.2.2 ch seq (by rw [hw, h])
      rw [staged_control (.inr k3)] at hb
      injection hb with hb
      exact hb ▸ k4
    generalize s.staged = g at he hrun ⊢
    obtain ⟨u, img⟩ := g
    have hu : u.Kept p f := kept_root he hs
    have hf : u.fuse = s.fuse := congrArg Root.fuse he
    have all : ∀ fl, (u.setBoot { u.boot with flashBusy := none, flash := fl }).clearStaging.Kept p f ∧
        (u.setBoot { u.boot with flashBusy := none, flash := fl }).clearStaging.boot.flashBusy = none ∧
        (u.setBoot { u.boot with flashBusy := none, flash := fl }).clearStaging.fuse = s.fuse := by
      intro fl
      obtain ⟨_, h2, _, _, h5⟩ := clearStaging_parts (u.setBoot { u.boot with flashBusy := none, flash := fl })
      exact ⟨clearStaging_kept (idle_kept hu rfl rfl rfl rfl rfl) rfl, h5, h2.trans hf⟩
    dsimp only
    generalize hk : (if ok = true then img else none) = kept
    obtain ⟨a1, a2, a3⟩ := all kept
    cases kept with
    | none => exact kept_root (State.reply_root ..) a1
    | some b =>
      refine kept_root (State.reply_root ..) (ite_kept (fun hst => startImage_kept a1 (fun c q h => ?_) ?_) (fun _ => a1))
      · rw [a2] at h; cases h
      · rw [a3]
        refine hrun hst b ?_
        split at hk
        · exact hk
        · cases hk

theorem State.debugRead_root (s : State) (space : DebugSpace) (unit addr n : Nat) :
    (s.debugRead space unit addr n).root = s.root := by
  cases space <;> first
    | exact State.emit_root ..
    | exact (State.emit_root ..).trans (State.freeNat_root ..)

theorem State.debugWrite_root (s : State) (space : DebugSpace) (unit addr : Nat) (b : Bytes) :
    (s.debugWrite space unit addr b).root = s.root := by
  cases space with
  | palette => exact ite_root (State.palPut_root ..) rfl
  | canvas => exact ite_root (State.canPut_root ..) rfl
  | external => exact ite_root (State.lpWrite_root ..) rfl
  | other => rfl

theorem execDebugPortAccess_kept (a : DebugAccess) (hs : s.Kept p f) :
    ∃ t, execDebugPortAccess a s = .next t ∧ t.Kept p f := by
  refine ⟨_, rfl, ite_kept (fun _ => hs) (fun _ => ?_)⟩
  have hu : (s.setBoot { s.boot with debugAttached := true }).Kept p f :=
    setBoot_kept hs rfl rfl (fun _ => ⟨rfl, rfl, rfl⟩) (.inl rfl)
  cases a with
  | idRead => exact kept_root ((State.emit_root ..).trans (State.freeNat_root ..)) hs
  | attach => exact hu
  | detach => exact hu
  | fuseWrite =>
    exact setFuse_kept hu ⟨rfl, rfl, rfl, rfl, Nat.le_refl _, fun _ h => h, fun h => h, fun _ => rfl⟩ rfl
  | read space unit addr n => exact kept_root (State.debugRead_root ..) hu
  | write space unit addr b => exact kept_root (State.debugWrite_root ..) hu

/-! ### The clock -/

theorem tick_kept (hs : s.Kept p f) : (tick s).Kept p f := by
  unfold tick
  extract_lets u1 u2
  have k0 : s.passTime.Kept p f := kept_root (State.passTime_root s) hs
  have k1 : u1.Kept p f := by
    unfold u1 State.beginTest
    exact ite_kept (fun _ => setBoot_kept k0 rfl rfl (fun _ => ⟨rfl, rfl, rfl⟩) (.inr (.inl (by decide : 1 < 3)))) (fun _ => k0)
  have k2 : u2.Kept p f := kept_root (foldl_root (fun s ch => State.takeStray_root ..) _ _) k1
  exact ite_kept (fun _ => kept_root ((State.feedHolds_root ..).trans ((State.decodeStart_root ..).trans ((State.checkDrains_root ..).trans (State.settleCtxs_root ..)))) k2)
    (fun _ => k2)

end Sys2Proof.Machine
end

