-- ==== Sys2Proof/Laws/Run.lean ====
section
/-! SUPPORT. Laws/Run.lean: what the run of one easel command does to the store: its body's effect, and nothing more. -/

namespace Sys2Proof.Machine

open Sys2Proof.Safety

/-! ### What leaves the store as it is -/

theorem foldl_store {α : Type} {g : State → α → State} (h : ∀ s x, store (g s x) = store s) (l : List α) (s : State) :
    store (l.foldl g s) = store s := by
  induction l generalizing s with
  | nil => rfl
  | cons x r ih => exact (ih _).trans (h s x)

theorem State.leaveIdle_store (s : State) : store s.leaveIdle = store s := by
  rw [State.leaveIdle_eq]; rfl

theorem State.modQueue_store (s : State) (e q : Nat) (f : CmdQueue → CmdQueue) : store (s.modQueue e q f) = store s := rfl

theorem State.event_store (s : State) (b : Nat) : store (s.event b) = store s := by
  unfold store
  simp only [State.event_frame_fab, State.event_frame_err, State.event_frame_hostMem, State.event_frame_lp, State.event_frame_hq,
    State.event_frame_ports, State.event_frame_intake, State.event_frame_text, State.event_frame_sten, State.event_frame_read,
    State.event_frame_ring, State.event_frame_pair, State.event_frame_sched, State.event_frame_fuse, State.event_frame_clk,
    State.event_frame_aon]

theorem State.putErr_store (s : State) (e : Errors) (h : e.sram = s.err.sram) : store (s.putErr e) = store s := by
  unfold store
  simp only [State.putErr_frame_fab, State.putErr_err, State.putErr_frame_hostMem, State.putErr_frame_lp, State.putErr_frame_hq,
    State.putErr_frame_ports, State.putErr_frame_intake, State.putErr_frame_text, State.putErr_frame_sten,
    State.putErr_frame_read, State.putErr_frame_ring, State.putErr_frame_pair, State.putErr_frame_sched,
    State.putErr_frame_fuse, State.putErr_frame_clk, State.putErr_frame_aon, h]

theorem State.reply_store (s : State) (ch seq op st : Nat) (p : Bytes) : store (s.reply ch seq op st p) = store s := by
  unfold State.reply
  dsimp only
  split <;> rfl

theorem State.freeze_store (s : State) (c : Nat) : store (s.freeze c) = store s := by
  unfold State.freeze
  split
  · rfl
  · refine (foldl_store (fun s r => State.reply_store ..) _ _).trans ?_
    refine (show store (State.setBoot _ _) = store _ from rfl).trans ?_
    exact (State.leaveIdle_store _).trans ((State.event_store _ _).trans (State.putErr_store _ _ rfl))

theorem State.contained_store (s : State) (c k : Nat) : store (s.contained c k) = store s := by
  unfold State.contained
  split
  · rfl
  · split
    · exact State.putErr_store _ _ rfl
    · split
      · rfl
      · split
        · exact State.putErr_store _ _ rfl
        · exact State.freeze_store _ _

theorem State.count_store (s : State) (c k n : Nat) : store (s.count c k n) = store s := rfl

theorem State.countSat_store (s : State) (c : Nat) (t : Sat) : store (s.countSat c t) = store s := by
  have h : ∀ (s : State) k n, store (if n = 0 then s else s.count c k n) = store s := by
    intro s k n; split <;> rfl
  unfold State.countSat
  simp only [h]

theorem State.serveTally_store (s : State) (t : Nat) : store (s.serveTally t) = store s := by
  unfold State.serveTally
  exact (foldl_store (fun s x => State.modQueue_store ..) _ _).trans rfl

theorem State.tallyAdd_store (s : State) (t n : Nat) : store (s.tallyAdd t n) = store s := by
  unfold State.tallyAdd
  split
  · rfl
  dsimp only
  split
  · split
    · exact (State.contained_store ..).trans ((State.serveTally_store ..).trans rfl)
    · exact (State.serveTally_store ..).trans rfl
  · exact (State.serveTally_store ..).trans rfl

theorem State.badQueue_store (s : State) (c e q k : Nat) : store (s.badQueue c e q k) = store s :=
  State.contained_store ..

/-! ### Reads without flipped bits -/

/-- Without flipped bits a read corrects nothing. -/
theorem State.readRanges_clean {s : State} (h : s.err.sram = []) (mem : SramMem) (u : Nat) (r : Option Nat) (rs : List (Nat × Nat)) :
    s.readRanges mem u r rs = (s, true) := by
  simp [State.readRanges, h]

theorem State.readOk_clean {s : State} (h : s.err.sram = []) (c e : Nat) (rs : List Machine.Range) : s.readOk c e rs = (s, true) := by
  simp [State.readOk, State.readRanges_clean h]

/-- With its ranges in bounds and no flipped bits, a command goes on in the same state. -/
theorem State.withRanges_clean {s : State} (h : s.err.sram = []) {c e : Nat} {reads writes : List Machine.Range}
    (hr : (reads ++ writes).all (s.rangeOk c e) = true) (k : State → State × BodyEnd) :
    s.withRanges c e reads writes k = k s := by
  simp [State.withRanges, hr, State.readOk_clean h]

theorem State.takeUp_store {s : State} (h : s.err.sram = []) (c e q : Nat) (old : Option Nat) :
    store (s.takeUp c e q old) = store s := by
  unfold State.takeUp
  dsimp only
  split
  · simp only [State.readOk_clean h]
    unfold State.staleOr
    dsimp only
    repeat' (first | rfl | split | exact State.badQueue_store ..)
    all_goals (first | rfl | exact (State.badQueue_store ..).trans rfl)
  · exact State.badQueue_store ..

theorem flips_eq {s t : State} (h : store t = store s) : t.err.sram = s.err.sram := congrArg Store.flips h

theorem State.advance_store {s : State} (h : s.err.sram = []) (c e q : Nat) : store (s.advance c e q) = store s := by
  unfold State.advance
  dsimp only
  exact (State.modQueue_store ..).trans (State.takeUp_store (s := s.modQueue e q _) h ..)

theorem State.settleWaits_store (n : Nat) : ∀ {s : State}, s.err.sram = [] → store (s.settleWaits n) = store s := by
  induction n with
  | zero => intro s _; rfl
  | succ n ih =>
    intro s h
    unfold State.settleWaits
    split
    · rfl
    · dsimp only
      rename_i k _
      generalize ((s.queue (k / 16) (k % 16)).cmd).getD 0 = w
      have h1 : store (if cRel w then (s.modQueue (k / 16) (k % 16) (fun x => { x with granted := false })).tallyAdd (cRelTally w) (cRelN w)
          else s.modQueue (k / 16) (k % 16) (fun x => { x with granted := false })) = store s := by
        split
        · exact (State.tallyAdd_store ..).trans rfl
        · rfl
      generalize (if cRel w then (s.modQueue (k / 16) (k % 16) (fun x => { x with granted := false })).tallyAdd (cRelTally w) (cRelN w)
          else s.modQueue (k / 16) (k % 16) (fun x => { x with granted := false })) = u at h1 ⊢
      have hu : u.err.sram = [] := (flips_eq h1).trans h
      have h2 : ∀ v : State, store v = store u → store (v.settleWaits n) = store s := fun v hv =>
        (ih ((flips_eq hv).trans hu)).trans (hv.trans h1)
      apply h2
      split
      · split
        · exact State.advance_store hu ..
        · rfl
      · rfl

theorem State.settleAll_store {s : State} (h : s.err.sram = []) : store s.settleAll = store s :=
  State.settleWaits_store _ h

theorem onUnit_store (s : State) (e q w : Nat) : store (onUnit s e q w) = store s := by
  unfold onUnit
  rw [State.leaveIdle_eq]; rfl

/-- The run of a command whose body ends well changes the store exactly as its body does. -/
theorem State.runCommand_store {s : State} {c e q w : Nat} (h : Runs s c e q w) {sel : Nat → Bool} (hs : sel w = true)
    {body : Nat → Nat → State → State × BodyEnd} {b : State} (hb : body c w (onUnit s e q w) = (b, .done))
    (hf : b.err.sram = []) : store (s.runCommand e q sel body) = store b := by
  obtain ⟨h1, h2, h3, h4, h5, h6, h7, h8, h9, h10, h11, h12⟩ := h
  have e1 : s.leaveIdle.queue e q = s.queue e q := by rw [State.leaveIdle_eq]; rfl
  have e2 : s.leaveIdle.fab = s.fab := by rw [State.leaveIdle_eq]
  unfold State.runCommand
  simp only [h3, h4]
  have g : (!s.works || decide (16 ≤ q) || (s.queue e q).run != .running || (s.queue e q).wait.isSome || (s.queue e q).bad || !sel w ||
      s.fab.stop.contains e) = false := by
    simp only [h1, h5, h6, h7, hs, h9]
    simp; omega
  rw [if_neg (by rw [g]; simp)]
  simp only [h8, if_true, e1, h6]
  have e3 : s.leaveIdle.turn e q w = s.turn e q w := by rw [State.leaveIdle_eq]; rfl
  have e4 : s.leaveIdle.vecBad e w = s.vecBad e w := by rw [State.leaveIdle_eq]; rfl
  have hb' : body c w (s.leaveIdle.serve e q w) = (b, .done) := hb
  simp only [e3, e4, h10, h11, hb', Bool.not_true, Option.isSome_none, Bool.or_self, Bool.false_eq_true, if_false]
  have k : store (if cRel w then b.tallyAdd (cRelTally w) (cRelN w) else b) = store b := by
    split
    · exact State.tallyAdd_store ..
    · rfl
  generalize (if cRel w then b.tallyAdd (cRelTally w) (cRelN w) else b) = u at k ⊢
  have kf := (flips_eq k).trans hf
  have k2 : store (if (u.queue e q).run = .running then u.advance c e q else u) = store u := by
    split
    · exact State.advance_store kf ..
    · rfl
  exact (State.settleAll_store ((flips_eq k2).trans kf)).trans (k2.trans k)

/-! ### Writes to the fabric's memories -/

theorem State.wrote_clean {s : State} (h : s.err.sram = []) (mem : SramMem) (u off n : Nat) :
    store (s.wrote mem u off n) = store s := by
  unfold State.wrote
  split
  · rfl
  · simp [store, State.setErr, h]

/-- A write of an easel changes the store by its bytes. -/
theorem State.spPut_store {s : State} (h : s.err.sram = []) (e : Nat) (canvas : Bool) (off : Nat) (b : Bytes) :
    store (s.spPut e canvas off b) = wroteAll (store s) e canvas [(off, b)] := by
  unfold State.spPut wroteAll
  cases canvas
  · exact (State.wrote_clean (s := s.setFab { s.fab with palette := memPut s.fab.palette (e * 2 ^ 20 + off) b }) h ..).trans rfl
  · exact (State.wrote_clean (s := s.setFab { s.fab with canvas := memPut s.fab.canvas (e / 8 * 2 ^ 22 + off) b }) h ..).trans rfl

theorem wroteAll_cons (b : Store) (e : Nat) (canvas : Bool) (x : Nat × Bytes) (l : List (Nat × Bytes)) :
    wroteAll (wroteAll b e canvas [x]) e canvas l = wroteAll b e canvas (x :: l) := by
  cases canvas <;> rfl

theorem wroteAll_flips (b : Store) (e : Nat) (canvas : Bool) (l : List (Nat × Bytes)) : (wroteAll b e canvas l).flips = b.flips := by
  cases canvas <;> rfl

/-- Rows that are written one after another. -/
theorem foldl_rows_store {g : State → Nat → State} {canvas : Bool} {e : Nat} {row : Nat → Nat × Bytes}
    (hg : ∀ (s : State) r, s.err.sram = [] → store (g s r) = wroteAll (store s) e canvas [row r]) (l : List Nat) :
    ∀ (s : State), s.err.sram = [] → store (l.foldl g s) = wroteAll (store s) e canvas (l.map row) := by
  induction l with
  | nil => intro s _; cases canvas <;> rfl
  | cons x r ih =>
    intro s h
    have hx := hg s x h
    have hf : (g s x).err.sram = [] := by
      have := congrArg Store.flips hx
      rw [wroteAll_flips] at this
      exact this.trans h
    simp only [List.foldl_cons, List.map_cons]
    rw [ih _ hf, hx, wroteAll_cons]

/-- The bytes of an output row of a vector command. -/
def vBytes (w : Nat) (l : List (Lane × Sat)) : Bytes := plainBytes (vD w) (l.map (fun x => (encPlain (vD w) x.1).1))

/-- A vector command whose ranges are in bounds writes its rows. -/
theorem State.vecRun_store {s : State} (h : s.err.sram = []) {c e w : Nat} {reads : List Machine.Range} {n : Nat}
    (hr : (reads ++ vDRanges w n).all (s.rangeOk c e) = true)
    (f : State → Nat → List (Lane × Sat)) :
    ∃ b, s.vecRun c e w reads n f = (b, .done) ∧ b.err.sram = [] ∧
      store b = wroteAll (store s) e (bit w 146) ((List.range (vRows w)).map (fun r => (vDAt w r, vBytes w (f s r)))) := by
  have key := foldl_rows_store (e := e) (canvas := bit w 146) (g := fun s1 r => s1.vPut c e w r (f s r))
    (row := fun r => (vDAt w r, vBytes w (f s r))) (fun s1 r h1 => by
      unfold State.vPut
      refine (State.countSat_store ..).trans ((State.spPut_store h1 ..).trans ?_)
      simp only [List.map_map]; rfl) (List.range (vRows w)) s h
  refine ⟨(List.range (vRows w)).foldl (fun s1 r => s1.vPut c e w r (f s r)) s, ?_, ?_, key⟩
  · unfold State.vecRun
    rw [State.withRanges_clean h hr]
  · have := congrArg Store.flips key
    rw [wroteAll_flips] at this
    exact this.trans h

end Sys2Proof.Machine
end

