-- ==== Sys2Proof/Tests/Slice0.lean ====
section
/-! SUPPORT. Tests/Slice0.lean: the author's own tests: ill-formed terms that the checks refuse, values of the spec's
worked examples, and for each obligation with hypotheses a witness. -/

open Sys2Proof Sys2Proof.Machine Sys2Proof.Safety
namespace Sys2Proof.Machine

/-! ### Edits of a state, for the tests -/

/-- A state with other power fields. -/
def State.withPwr (s : State) (f : Power → Power) : State := { s with pwr := f s.pwr }

/-- A state with other AON fields. -/
def State.withAon (s : State) (f : Aon → Aon) : State := { s with aon := f s.aon }

/-- A state with other PCIe fields. -/
def State.withPci (s : State) (f : Pci → Pci) : State := { s with pci := f s.pci }

/-- A state with other mailbox fields. -/
def State.withMbox (s : State) (f : Mbox → Mbox) : State := { s with mbox := f s.mbox }

/-- A state with other boot fields. -/
def State.withBoot (s : State) (f : Boot → Boot) : State := { s with boot := f s.boot }

end Sys2Proof.Machine
namespace Sys2Proof.Tests

/-- A session of version 3.2 that expects request 7. -/
def sess : Session := { minor := 2, nextSeq := 7, nextNotice := 0, path := 0 }

/-- A message header. -/
def header (op seq ch n more frag : Nat) : Nat :=
  op + more * 2 ^ 18 + seq * 2 ^ 32 + ch * 2 ^ 48 + frag * 2 ^ 56 + n * 2 ^ 64

end Sys2Proof.Tests
open Sys2Proof.Tests
namespace Sys2Proof.Machine

/-- A message waits in the window of a channel. -/
def State.letter (s : State) (ch h : Nat) (p : Bytes) : State :=
  s.withMbox (fun m => { m with win := tabPut m.win ch { h2d := memPut [] 0 (toLe 16 h ++ p), pending := true } })

/-- Request 7 waits on a channel with a session. -/
def State.mail (s : State) (ch op : Nat) (p : Bytes) : State :=
  (s.letter ch (header op 7 ch p.length 0 0) p).withMbox (fun m => { m with session := tabPut m.session ch sess })

/-- The state with one rank of 16 Gb on each channel. -/
def State.fitted (s : State) : State := s.withBoot (fun b => { b with memcfg := 4 * 2 ^ 4 })

/-- Request 7 waits on secure channel 32, which has a session. -/
def State.sealMail (s : State) (op : Nat) (p : Bytes) : State :=
  (s.letter 32 (header op 7 32 p.length 0 0) p).withMbox (fun m => { m with session := [(32, sess)] })

/-- The address that an allocation of LPDDR5 gets, and the state after it. -/
def State.gets (s : State) (owner n : Nat) : Nat × State := (s.lpAlloc owner n).getD (0, s)

/-- An allocation that succeeds gets what `gets` says. -/
theorem State.gets_eq {s : State} {o n : Nat} (h : (s.lpAlloc o n).isSome = true) :
    s.lpAlloc o n = some ((s.gets o n).1, (s.gets o n).2) := by
  simp only [State.gets]
  cases g : s.lpAlloc o n with
  | none => rw [g] at h; cases h
  | some r => rfl

end Sys2Proof.Machine
namespace Sys2Proof.Tests

/-! ### Small states -/

/-- The device works: RUNNING, ACTIVE; the functions may read and write host memory. -/
def on : State :=
  { boot := { stage := 5 }, pwr := { coreEn := true, corePg := true, state := 0 },
    pci := { bme0 := true, bme1 := true, rate := 3, width := 4 } }

/-- The device sleeps. -/
def asleep : State := ((on.withPwr (fun p => { p with state := 2, coreEn := false, corePg := false })).withAon (fun a => { a with timerSet := true }))

/-- A context of the channel-0 session. -/
def ctx0 : Ctx := { params := 0, st := .running, session := 0 }

/-- The device with that context. -/
def withCtx : State := { on with ctxs := [(0, ctx0)] }

/-- A vector waits for PF0. -/
def pendsVec : State := on.withPci (fun p => { p with pend := [5], unmasked := [5] })

/-- A fragment of an owner-key message waits on a secure channel. -/
def fragment (more frag : Nat) : State :=
  (on.letter 32 (header 0x103 7 32 (if more = 1 then 256 else 8) more frag) (zeros (if more = 1 then 256 else 8))).withMbox
    (fun m => { m with session := [(32, sess)] })

/-- The first fragment has been gathered. -/
def gathered (frag : Nat) : State :=
  (fragment 0 frag).withMbox (fun m => { m with gather := [(32, { opcode := 0x103, seq := 7, next := 1, payload := zeros 256 })] })

/-- A reply that is ready. -/
def replyMsg : OutMsg := { opcode := 0x10, reply := true, status := 0, seq := 7, payload := [1], key := 0, frag := 0, ready := 0 }

/-- A notice that is ready. -/
def noticeMsg : OutMsg := { replyMsg with opcode := 0x8001, reply := false }

/-- A request that has been taken. -/
def taken0 (op : Nat) (p : Bytes) (c : Option Nat) : Request := { ch := 0, seq := 7, opcode := op, payload := p, ctx := c }

/-- The window of host memory below 1 MiB. -/
def lowMem : Window := { base := 0, length := 2 ^ 20, writable := true }

/-- A context with a window, a primer profile and a vocabulary. -/
def ctxIn : Ctx := { ctx0 with windows := [(0, lowMem)], profile := some (zeros 64), image := some { vocab := [1] } }

/-- An SQ of 16 entries at 4096, bound to CQ 4. -/
def sq3 : HwQueue := { isCq := false, binding := 4 * 2 ^ 8 + 4 * 2 ^ 16 + 4096 * 2 ^ 64, ctx := 0, tail := 1 }

/-- A CQ of 16 entries at 32768 whose vector is 5 and whose body area is 4096 bytes at 65536. -/
def cq4 : HwQueue :=
  { isCq := true, ctx := 0, binding := 4 * 2 ^ 8 + 32768 * 2 ^ 64 + 5 * 2 ^ 128 + 2 ^ 152 + 65536 * 2 ^ 192 + 12 * 2 ^ 256 }

/-- A descriptor waits at the head of SQ 3, and its view list stands at 8192. -/
def desk (w : Nat) : State :=
  { on with
    ctxs := [(0, ctxIn)], hq := [(3, sq3), (4, cq4)],
    hostMem := memPut (memPut [] 4096 (toLe 64 w)) 8192 (toLe 32 (12288 * 2 ^ 128 + 16 * 2 ^ 192)) }

/-- The same queue of a best-effort context, and a queue of a real-time one that has a descriptor too. -/
def twoDesks : State :=
  { desk 1 with
    ctxs := [(0, { ctxIn with params := 1 }), (1, ctxIn)], hq := [(3, sq3), (4, cq4), (5, { sq3 with ctx := 1 })] }

/-- Bank 2 of rank 0 of channel 3. -/
def bank98 (b : Bank) : State := { on with lp := { banks := [((3 * 2 + 0) * 16 + 2, b)] } }

/-- The oscillator count of rank 0 of channel 15 is known. -/
def oscAt (n : Nat) : State := { on with lp := { chan := [(15, { osc := [(0, n)] })] } }

/-- A finished COMPLETION-like record of an event. -/
def rec4 : Rec := { kind := 2, status := 0, itemId := 9, ctx := 7, body := [1, 2, 3] }

/-- CQ 4 with records. -/
def cqWith (h : HwQueue) : State := { on with hq := [(4, h)] }

/-- A record of a pre-empted context waits for CQ 4. -/
def keptRec : State :=
  { cqWith { cq4 with ready := [rec4] } with ctxs := [(7, { ctx0 with params := 1, st := .preempted })] }

/-- A device with one context, and a window of host memory. -/
def ofCtx (k : Ctx) : State := { on with ctxs := [(0, k)] }

/-- A lexicon of one terminal node that is loaded (R233). -/
def lexicon5 : Grammar :=
  { digest := toLe 32 5, image := toLe 132 (1 + 64 * 2 ^ 64 + 128 * 2 ^ 96 + 2 ^ 553 + 2 ^ 576), addr := 0, users := [] }

/-- A context without a vocabulary, and the lexicon. -/
def lexState : State := { withCtx with sten := { lexicons := [lexicon5] } }

/-- The same, and a grammar of 2,048 masks, which fill 1 MiB, that a context has. -/
def fullLexState : State :=
  { withCtx with sten := {
      lexicons := [lexicon5],
      grammars := [{ digest := toLe 32 6, image := toLe 32 (2 ^ 64 * 2048), addr := 0, users := [1] }] } }

/-- A context asks for a load of 512 bytes at 256. -/
def loads (op : Nat) : State :=
  ((ofCtx { ctxIn with st := .empty }).mail 0 op (toLe 24 (256 * 2 ^ 64 + 512 * 2 ^ 128))).fitted

/-- A push of the 64 bytes of an image waits. -/
def pushes (b : Boot) : State := ({ on with boot := { b with memcfg := 4 * 2 ^ 4 } }).sealMail 0x104 (toLe 8 (64 * 2 ^ 32) ++ zeros 64)

/-- With all units of LPDDR5 excluded there is no room. -/
theorem full_none (s : State) (n o b : Nat) (hm : payloadBytes s.boot.memcfg / 65536 ≤ n) (hl : s.lp = { excluded := List.range n })
    (hb : 0 < b) : s.lpAlloc o b = none := by
  have hc : 0 < ceilDiv b 65536 := by unfold ceilDiv; omega
  unfold State.lpAlloc
  generalize ceilDiv b 65536 = k at hc ⊢
  have h : lpFind s k = none := by
    unfold lpFind
    extract_lets taken top ok
    have ht : ∀ u, u ∈ taken ↔ u < n := by
      intro u
      simp [taken, hl]
    have hf : List.filter ok (0 :: taken.map (· + 1)) = [] := by
      rw [List.filter_eq_nil_iff]
      intro c _
      simp only [ok, Bool.and_eq_true, decide_eq_true_eq, Bool.not_eq_true', List.any_eq_false, not_and]
      intro h1 h2
      have : c + k ≤ payloadBytes s.boot.memcfg / 65536 := h1
      exact h2 c ((ht c).mpr (by omega)) (by omega) (by omega)
    rw [hf]
    rfl
  simp only [h]

/-- The same push, and the first n units of LPDDR5 are excluded. -/
def pushesNot (n : Nat) : State :=
  { on.sealMail 0x104 (toLe 8 (64 * 2 ^ 32) ++ zeros 64) with lp := { excluded := List.range n } }

/-- A whole image of 64 bytes is staged in LPDDR5. -/
def staged0 : State :=
  ({ on with
    boot := { on.boot with stagingOwner := some 32, stagingTotal := 64, stagingAt := some 65536, pushed := [(0, 64)] } }).sealMail
    0x105 (zeros 8)

/-- A flash write runs. -/
def flashes (b : Boot) : State :=
  { on with
    boot := { b with flashBusy := some (32, 6, true), stagingTotal := 64 },
    mbox := { taken := [{ ch := 32, seq := 6, opcode := 0x105, payload := [1], ctx := none }] } }

/-- A context with a window of 2 TiB. -/
def wideCtx : Ctx := { ctxIn with st := .empty, windows := [(0, { lowMem with length := 2 ^ 41 })] }

/-- It asks for a load of 1 TiB, more than LPDDR5 has. -/
def loadsNot (op : Nat) : State := ((ofCtx wideCtx).mail 0 op (toLe 24 (256 * 2 ^ 64 + 2 ^ 168))).fitted

/-- The load of 512 bytes with Bus Master Enable 0. -/
def loadsLater (op : Nat) : State := (loads op).withPci (fun p => { p with bme0 := false })

/-- A copied envelope of 600 zero bytes at 65536 of LPDDR5. -/
def envelope0 : State :=
  ((ofCtx { ctxIn with st := .empty }).withMbox (fun m =>
    { m with
      taken := [{ ch := 0, seq := 6, opcode := 0x30, payload := zeros 600, ctx := some 0 }], copies := [(0, 6, 65536, 600)] })).fitted

/-- A frozen device whose carry area holds two entries. -/
def carries0 : State :=
  { on with
    err := { frozen := true },
    boot := { on.boot with carry := [⟨7, true, none, 3⟩, ⟨8, false, some 4, 3⟩], carryTotal := 2, carryValid := true, carryUnread := true } }

/-- Port 0 is bound under another session's context. -/
def otherPort : State :=
  { withCtx with
    ctxs := [(0, ctx0), (1, { ctx0 with session := 3 })], hq := [(4, cq4)], ports := [(0, { ctx := some 1 })] }

/-- A port configuration record of one pixel of one lane, in the form that a port holds. -/
def cfg1 : PortCfg :=
  { hdr := 9 * 2 ^ 8 + 2 ^ 12 + 2 ^ 32 + 6000 * 2 ^ 64 + 65536 * 2 ^ 96 + 6000 * 2 ^ 128 + 2 ^ 224 + 2 ^ 232 + 2 ^ 248 +
      2 ^ 256 + 2 ^ 288 + 65536 * 2 ^ 320 + 2 * 2 ^ 352 + 2 ^ 368,
    map := 0 :: List.replicate 31 (3 * 2 ^ 16), prog := List.replicate 12 0 }

/-- The bytes of that record at 4096 that are not 0. -/
def portMem : Mem :=
  [(4097, 25), (4100, 1), (4104, 0x70), (4105, 0x17), (4110, 1), (4112, 0x70), (4113, 0x17), (4124, 1), (4125, 1), (4127, 1),
    (4128, 1), (4132, 1), (4138, 1), (4140, 2), (4142, 1)] ++ (List.range 31).map (fun i => (4230 + 4 * i, (3 : Byte)))

/-- The record is read from memory as the port holds it. -/
theorem cfg1_at (a : Nat) (h : a = 4096) : parsePortCfg (memBytes portMem a 1024) = cfg1 := by
  subst h; decide +kernel

/-- A port of context 0. -/
def port0 : Port := { ctx := some 0, cq := 4, cfg := some cfg1, st := .armed }

/-- The record with an encoder in quadrature. -/
def encCfg : PortCfg := { cfg1 with hdr := cfg1.hdr + 2 ^ 16 }

/-- A port with that record. -/
def encPort : Port := { port0 with cfg := some encCfg }

/-- A page that is open. -/
def page0 : Page := { seq := 0, first := 3, lead := 3 }

/-- A page whose trailing edge is known. -/
def endedPage : Page := { page0 with trail := some (6, 9), stored := 1 }

/-- A port whose page may end. -/
def endingPort : Port := { port0 with st := .capturing, lastNo := 9, page := some endedPage }

/-- A port whose page has its last line. -/
def cappedPort : Port := { port0 with st := .capturing, lastNo := 9, page := some { page0 with stored := 1, capLine := some 8 } }

/-- A device whose context owns port 0, and has the record at 4096. -/
def withPort (q : Port) : State :=
  { ofCtx { ctx0 with windows := [(0, lowMem)] } with ports := [(0, q)], hostMem := portMem, hq := [(4, cq4)] }

/-- A best-effort context with a window. -/
def ctxCfg : Ctx := { ctx0 with params := 1, windows := [(0, lowMem)] }

/-- That context asks for port 0 to be configured with the record at 4096. -/
def cfgState (q : Port) : State := ({ withPort q with ctxs := [(0, ctxCfg)] } : State).mail 0 0x51 (toLe 16 (4096 * 2 ^ 64))

/-- Both links are up, at version 1.1, to device 9, whose owner is this device's. -/
def linked : State :=
  let l : Link := { up := true, version := 1, peerUid := 9, peerIdentity := [4], peerOwner := toLe 64 0 }
  { on with ring := { east := l, west := l } }

/-- Both links retrain, and commands have come over the WEST one meanwhile. -/
def retrains (is : List Instr) : State :=
  { linked with
    ring := {
      east := { linked.ring.east with retraining := true }, west := { linked.ring.west with retraining := true, came := is } } }

/-- An entry of a ring. -/
def entry0 : RingEntry := { atelier := 0, barrier := false, tallyPos := 0, tallyLocal := 3, bufferOffset := 64, bufferBytes := 128 }

/-- A context that has a ring entry, and runs on easel 0. -/
def ringCtx : Ctx :=
  { ctx0 with
    windows := [(0, lowMem)], image := some { cert := [{}], variants := [{ rings := [entry0] }] },
    part := some { variant := 0, easels := [0], canvas := [(0, 0, 4096)], bars := [], devBar := none, tags := (1, 0, 0), placedAt := 0 } }

/-- The saved state of a context that has none of note. -/
def saved0 : Saved :=
  { variant := 0, queues := [], tallies := [], palette := [], acc := [], accKind := [], canvas := [], bars := [], devBar := none }

/-- That context pre-empted. -/
def savedCtx : Ctx := { ringCtx with part := none, st := .preempted, saved := some saved0 }

/-- A ring job of context 0 on channel 2. -/
def job5 : RingJob :=
  { ctx := 0, job := 5, n := 3, index := 1, chanEast := 2, chanWest := 2, shardDigest := [], maxBlock := 128, confirmed := true,
    since := 0, entry := 0, localDone := false, token := false, dead := false }

/-- A device with a ring job and its context. -/
def withJob (j : RingJob) (k : Ctx) : State :=
  { linked with
    ctxs := [(0, k)], ring := { linked.ring with jobs := [j], size := 3 } }

/-- A CAPTURE_STOP that waits. -/
def stopMsg : Request := { ch := 0, seq := 6, opcode := 0x53, payload := [0], ctx := some 0 }

/-- The request that a job not confirmed waits for. -/
def jobReq : Request := { ch := 0, seq := 6, opcode := 0x61, payload := toLe 8 (5 * 2 ^ 32), ctx := some 0 }

/-- A device of a pair, in a role. -/
def paired (role : Nat) : State := { linked with pair := { formed := true, role := role } }

/-- A standby that holds a piece of a message. -/
def pieced (b : Bytes) : State := { paired 2 with pair := { (paired 2).pair with pieces := [b] } }

/-- An active device with 16 messages out, and one that waits. -/
def creditless : State :=
  { paired 1 with pair := { (paired 1).pair with sent := List.replicate 16 .none, unsent := [(.gone 7, .none)] } }

/-- A standby whose partner is lost, and which holds nothing. -/
def widowed : State := { linked with pair := { formed := true, role := 2, lost := true } }

/-- A device that asks for a pair. -/
def pairing (role : Nat) : State :=
  { linked with
    pair := { wanted := some (0, 6, role, 0, 0), nonce := some [7] },
    mbox := { taken := [{ ch := 0, seq := 6, opcode := 0x80, payload := [], ctx := none }] } }

/-- An image that leaves the COMMAND region of easel 0 in 4096 to 8192 of its palette, and its GESSO region in 8192 to 16384. -/
def imageRun : Image :=
  { cert := [{}], variants := [{ palette := [[some { kind := 0, offset := 4096, size := 4096, digest := [] },
      some { kind := 1, offset := 8192, size := 8192, digest := [] }]] }] }

/-- A partition of easel 0, with a share of the canvas and a barrier channel. -/
def runPart : Part :=
  { variant := 0, easels := [0], canvas := [(0, 0, 65536)], bars := [0], devBar := none, tags := (4, 4, 4), placedAt := 0 }

/-- A context that runs there. -/
def runCtx : Ctx := { ctx0 with windows := [(0, lowMem)], image := some imageRun, part := some runPart }

/-- It is being restored. -/
def resumeCtx : Ctx := { runCtx with saved := some saved0, restoring := true }

/-- A vector command of four elements of FP32 in two rows, of an operation's opcode. -/
def vecWord (op : Nat) : Nat :=
  op + 2 * 2 ^ 160 + 4 * 2 ^ 192 + 64 * 2 ^ 224 + 128 * 2 ^ 256 + 192 * 2 ^ 288 + 16 * 2 ^ 320 + 16 * 2 ^ 352 + 16 * 2 ^ 384

/-- A GESSO_EXPAND of INT8 blocks, of a window of 2 by 2 taps in a tile of 4 by 4. -/
def gessoWord : Nat :=
  3 + 8 * 2 ^ 128 + 2 ^ 132 + 2 ^ 224 + 4 * 2 ^ 240 + 4 * 2 ^ 256 + 4 * 2 ^ 304 + 4 * 2 ^ 320 + 2 * 2 ^ 368 + 2 * 2 ^ 384 +
    2 ^ 144 + 2 ^ 149 + 2 ^ 154 + 2 ^ 159 + 2 ^ 164 + 2 ^ 169

/-- An image that needs no easel, and a best-effort context of it that waits for its placement. -/
def waitImage : Image := { cert := [{}], variants := [{}] }

/-- The context. -/
def waitCtx : Ctx := { ctx0 with params := 1, st := .waiting, image := some waitImage }

/-- The device with it. -/
def waitState : State := { ofCtx waitCtx with sched := { waiting := [0] } }

/-- The partition that it gets. -/
def placeIt : Part := ((waitState.choosePlace waitCtx waitImage [0]).getD (runPart, [])).1

/-- Queue 0 at a command that it may run. -/
def at0 (w : Nat) : CmdQueue := { run := .running, cmd := some w, next := 64, acquired := true }

/-- Easel 0 runs a command. -/
def busy (w : Nat) : State := { ofCtx runCtx with fab := { queue := [(0, at0 w)], lastServed := [] } }

/-- Easel 0 runs a command, with bytes in its palette. -/
def busyPal (w : Nat) (m : Mem) : State := { busy w with fab := { (busy w).fab with palette := m } }

/-- Easel 0 runs a command, and tally 3 has a count. -/
def busyTally (w n : Nat) : State := { busy w with fab := { (busy w).fab with tally := [(3, n)] } }

/-- A descriptor of the DMA engine that queue 0 gave. -/
def dmaJob (d : Nat) : DmaJob := { ctx := 0, e := 0, q := 0, desc := d }

/-- Atelier 0's engine holds a descriptor. -/
def dmaState (j : DmaJob) : State := { ofCtx runCtx with fab := { dma := [(0, [j])] } }

/-- A copy from host memory waits, while Bus Master Enable is 0. -/
def hostCopy : State := (dmaState (dmaJob (3 * 2 ^ 4 + 2 ^ 8 + 64 * 2 ^ 192))).withPci (fun p => { p with bme0 := false })

/-- A bucket that holds items of up to 1000 tiles, in batches of 4. -/
def profileRec : Bytes :=
  toLe 64 (2 + 2 ^ 4 + 65536 * 2 ^ 32 + 16 * 2 ^ 64 + 16 * 2 ^ 80 + 2048 * 2 ^ 128 + 4194304 * 2 ^ 160 + 3 * 2 ^ 194 + 50 * 2 ^ 200 + 2 ^ 208) ++
  toLe 16 (1000 + 4 * 2 ^ 16 + 5000 * 2 ^ 64)

/-- A context with that profile and a window. -/
def itemCtx : Ctx := { ctx0 with windows := [(0, lowMem)], profile := some profileRec }

/-- The profile. -/
def prof0 : Profile := parseProfile profileRec

/-- A view of RAW_GRAY8, 4 by 2 pixels, at 12288. -/
def rawEntry : Nat := 8 + 4 * 2 ^ 32 + 2 * 2 ^ 48 + 12288 * 2 ^ 128 + 8 * 2 ^ 192

/-- A descriptor waits at the head of SQ 3, and the one entry of its view list, at 8192, is that view. -/
def rawDesk (w : Nat) : State :=
  { desk w with ctxs := [(0, itemCtx)], hostMem := memPut (memPut [] 4096 (toLe 64 w)) 8192 (toLe 32 rawEntry) }

/-- A view in H264 of stream 6. -/
def videoEntry : Nat := 4 + 6 * 2 ^ 16 + 12288 * 2 ^ 128 + 8 * 2 ^ 192

/-- A sample of one view, of context 0, whose record goes to CQ 4. -/
def item0 (v : View) : Item := { kind := .sample 3 0, ctx := 0, cq := 4, itemId := 77, views := [v], level := 1 }

/-- Item 5 is in the primer. -/
def withItem (it : Item) : State :=
  { ofCtx itemCtx with hq := [(3, sq3), (4, cq4)], intake := { items := [(5, it)], nextItem := 6 } }

/-- The same, and a stream or a bucket. -/
def withIntake (it : Item) (f : Intake → Intake) : State :=
  { withItem it with intake := f (withItem it).intake }

/-- A picture of 4 by 2 grey pixels. -/
def pic0 : Picture :=
  { width := 4, height := 2, depth := 8, planes := [[1, 2, 3, 4, 5, 6, 7, 8]], ycc := false, bt709 := false, limited := false,
    idr := true, refsLost := false }

/-- A RAW view whose data, as long as asked, lies in LPDDR5. -/
def rawView (n : Nat) : View := { entry := rawEntry, read := true, copy := some (65536, n), dims := some [(4, 2, 1)] }

/-- A JPEG view of 4 by 2 grey pixels. -/
def stillView : View :=
  { entry := 12288 * 2 ^ 128 + 8 * 2 ^ 192, read := true, copy := some (65536, 3), dims := some [(4, 2, 1)] }

/-- An item, and bytes of its context at 65536 of LPDDR5. -/
def withData (it : Item) (b : Bytes) : State :=
  { (withItem it).fitted with lp := { mem := memPut [] 65536 b, owner := [(1, 1)] } }

/-- Its item, in bucket 0, with a decode budget. -/
def inPrimer (v : View) : Item := { item0 v with bucket := some 0, budget := some 0, limitUs := 5000 }

/-- An item of a RAW view that is not yet read. -/
def rawItem : Item := { item0 { entry := rawEntry, dims := some [(4, 2, 1)] } with bucket := some 0 }

/-- A segment of a stream of at most 16 by 16. -/
def segment : View := { entry := videoEntry, binding := 16 * 2 ^ 32 + 16 * 2 ^ 48, read := true }

/-- The header of its one picture. -/
def header0 : PicHeader := { width := 16, height := 16, colours := 1, depth := 8, dpb := 1, idr := true, opts := { chroma := 0 } }

/-- An access unit of a live stream. -/
def unit0 : AccessUnit := { sq := 3, desc := 0, capture := 99, data := [], order := 0 }

/-- Its picture, without colour. -/
def livePic : Picture := { pic0 with ycc := true, opts := { chroma := 0 } }

/-- The stream. -/
def liveStream : Stream := { record := 16 * 2 ^ 32 + 16 * 2 ^ 48 + 2 ^ 2 + 2 ^ 8, ctx := 0, cq := 4, units := [unit0] }

/-- The device with it. -/
def liveState : State := { ofCtx itemCtx with intake := { streams := [(6, liveStream)], nextItem := 1 }, hq := [(4, cq4)] }

/-- The same, and no LPDDR5 is free. -/
def liveFull (n : Nat) : State := { liveState with lp := { excluded := List.range n } }

/-- An item in its slot, whose view's picture lies at 65536 of LPDDR5. -/
def primedItem : Item :=
  { item0 { entry := rawEntry, read := true, outcome := some 0, pics := [pictureBare pic0], buf := some (65536, 8) } with
    slotted := true, bucket := some 0 }

/-- The device with it. -/
def primed : State := withData primedItem [1, 2, 3, 4, 5, 6, 7, 8]

/-- The state after its tiles are cut, and the tiles. -/
def primedTiles : State × List (Bytes × Nat × Nat × Nat) :=
  let r := primed.itemTiles primedItem prof0
  (r.1, r.2.getD [])

/-- A result that is there is its value. -/
theorem given {α β : Type} {r : α × Option (List β)} (h : r.2.isSome = true) : r = (r.1, some (r.2.getD [])) := by
  obtain ⟨a, b | b⟩ := r
  · cases h
  · rfl

/-- A page that has ended. -/
def fitPage : Page := { page0 with trail := some (6, 9), stored := 4, ended := some 9, left := some 0, right := 0 }

/-- A grammar of a context that names none by digest. -/
def gram (img : Bytes) : Grammar := { digest := [], image := img, addr := 4096, users := [] }

/-- A context that reads item 5 in a sequence, with a grammar. -/
def fieldState (k : Ctx) (q : Seq) (img : Bytes) : State :=
  { ofCtx k with
    sten := { grammars := [gram img] }, read := { ctx := [(0, { seqs := [q], maskDue := some 0 })] },
    hq := [(3, sq3), (4, cq4)], intake := { items := [(5, item0 { entry := 0 })] } }

/-- A context whose text has three fields. -/
def fieldCtx : Ctx :=
  { runCtx with
    image := some { cert := [{}], text := some { fieldCount := 3, fieldMaxBytes := 64, stops := [] }, variants := [{}] } }

/-- A head group of one head on easel 0, and its site. -/
def group0 : AttnGroup :=
  { pos := 0, queue := 0, headFirst := 0, hCount := 1, fwdTemplate := 4096, finTemplate := 4160, kAlt := 65536, vAlt := 0,
    emitOffset := 0, emitBytes := 0 }

/-- The site. -/
def site0 : AttnSite :=
  { kvSite := 0, maxTokens := 4096, maxQueries := 512, lengthTable := 0, maskSummary := 0, maskBitmaps := 0, groups := [group0] }

/-- A context with that site and a key-value layout. -/
def kvCtx (r : Nat) : Ctx :=
  { runCtx with
    image := some { kv := some { record := r, sites := [] }, cert := [{}], variants := [{ sites := [site0] }] } }

/-- A sequence of five tokens with one query row. -/
def seq5 : Seq := { item := some 5, tokens := 5, queries := 1, ids := [1, 2, 3, 4, 5] }

/-- A step of that sequence runs; its page 0 is slot 0, and the pool of site 0 is at 65536. -/
def stepState (r : Nat) : State :=
  { ofCtx (kvCtx r) with
    read := { ctx := [(0, { seqs := [seq5], stepping := true, pages := [(0, 1)], sites := [(0, 65536)] })] } }

/-- A context with a key-value layout of two sites. -/
def tlbCtx : Ctx := { ctx0 with image := some { kv := some { record := 131074, sites := [] } } }

/-- It runs a decoder step. -/
def tlbStep : State := { ofCtx { tlbCtx with busy := true } with read := { ctx := [(0, { stepping := true })] } }

/-- A NATIVE and a LEGACY layout of one site. -/
def nativeKv : Nat := 2 + 2 ^ 8 + 2 ^ 16 + 2 ^ 24

/-- The LEGACY one. -/
def legacyKv : Nat := 1 + 2 ^ 8 + 2 ^ 16 + 2 ^ 24

/-- The first walk of that step. -/
def firstWalk (r : Nat) : Nat × Emitted :=
  (walkList site0 ((stepState r).groupEmits 0 (kvCtx r) site0 0)).headD
    (0, { seq := 0, block := 0, rows := 0, page := 0, blk := none, summary := 0, keys := 0, first := false, fin := false })

/-- The context of a ring job, with one head group. -/
def blockCtx : Ctx :=
  { ringCtx with
    image := some { kv := some { record := 2 ^ 16, sites := [] }, cert := [{}], variants := [{ rings := [entry0], sites := [site0] }] } }

/-- Its job, of one sequence of three pages, a page to each device. -/
def blockJob (n : Nat) : RingJob := { job5 with shards := [[(0, 1), (1, 1), (2, 1)]], place := n }

/-- The stencil site of a context that has one. -/
def stencil0 : StencilSite :=
  { commitPos := 0, commitQueue := 0, tallyPos := 0, tallyLocal := 3, maskUse := 0, maskRing := 0, commitList := 0, maxSeq := 1 }

/-- An SQ whose TEXT descriptor is accepted, and its text stream's job. -/
def textSq (w : Nat) : HwQueue := { sq3 with outst := [{ no := 0, acc := 0, word := w, time := 0 }] }

/-- The job's stream. -/
def textStream0 : TextStream := { ctx := 0, jobs := [{ sq := 3, desc := 0, no := 0 }] }

/-- Text stream 6 has a buffer to read. -/
def textState (w : Nat) : State :=
  { ofCtx ctxIn with
    hq := [(3, textSq w), (4, cq4)],
    text := {
      streams := [(6, textStream0)], vocabs := [{ digest := [1], image := zeros 64, users := [], slotBase := 0, poolBase := 0 }] } }

/-- The descriptor of its buffer: 16 bytes at 8192, and tokens to 12288. -/
def textWord : Nat := 2 + 2 * 2 ^ 8 + 8192 * 2 ^ 128 + 16 * 2 ^ 192 + 12288 * 2 ^ 256 + 16 * 2 ^ 320

/-- A text profile of three fields. -/
def fieldText : TextProfile := { fieldCount := 3, fieldMaxBytes := 64, stops := [] }

/-- A sequence whose field began after two tokens. -/
def deadSeq : Seq := { item := some 5, tokens := 4, fieldPos := 2, ids := [1, 2, 3, 4], text := [65] }

/-- A grammar image of no tokens whose first field may be retried within ten tokens. -/
def retryGram : Bytes := toLe 64 (64 * 2 ^ 288) ++ toLe 8 (2 ^ 48 + 10 * 2 ^ 32)

/-- A context with a stencil site. -/
def maskCtx : Ctx :=
  { runCtx with lpBase := 1048576, image := some { cert := [{}], variants := [{ stencil := [stencil0] }] } }

/-- A best-effort context beside a real-time one; both have records to write. -/
def twoMasks : State :=
  let r : Reading := { seqs := [{ item := some 5, finished := true }], maskDue := some 0 }
  { on with ctxs := [(0, { maskCtx with params := 1 }), (1, maskCtx)], sten := { grammars := [gram []] }, read := { ctx := [(0, r), (1, r)] } }

/-! ### Well-formedness: a term that each check refuses -/

theorem test_wf_refuses : ([.corePgRise 2 0, .comparatorTrip 4, .eventStatusClear 2 0, .registerWrite 0 1 0 0,
    .registerWrite 0 0 2 0, .registerWrite 0 0 0 (2 ^ 32), .msixUnmask 0 2048, .hostReadError 256, .sqDoorbellWrite 16384 0,
    .contextCreate 40, .secureStatus 31, .easelDoorbell 64 0 0, .easelDoorbell 0 16 0, .easelDoorbell 0 0 8, .nop 64 0,
    .tallyPost 0 16384 0, .tallyPost 0 0 65536, .barrierComplete 8 0, .deviceBarrierComplete 32, .copy 9 0, .tagReturn 3 0,
    .deviceFreeze 0, .deviceFreeze 6, .splitWindowEnd 101, .lpddr5Read 256 0 0 0, .perBankRefresh 16 0 0, .mr4Poll 0 32,
    .selfTestComplete [
      { mem := .palette, unit := 0, index := 0, rows := [], badSpareRows := 5, spareGroupBad := false, retestFails := false }],
    .trainingComplete { ok := true, densityCode := 8, ranksM1 := 0, hppr := true, failing := [] },
    .afeFrame 0 true [], .afeFrame 4 true [0], .viewDecodeComplete 0 0 (.decoded [{ pic0 with planes := [[], []] }]),
    .livePictureDecoded 64 .corrupt, .batchDispatch 0 8, .textJobComplete 256,
    .stretcherLinkTrainingComplete 0 { lanesOk := true, minVer := 0, maxVer := 1, uid := 0, identity := [], owner := [] },
    .ringDiscoveryFlit 0 { origin := 0, hops := 8 },
    .jobConfirmFlit 0 {
      origin := 0, hops := 0, job := 0, n := 9, index := 0, cls := 0, maxBlock := 0, shard := [], owner := [], agree := true },
    .ringBlockArrival 0 1 [], .linkRetrain 2, .identityChallenge 0 (.nonce [] true), .mbDoorbellWrite 2 0 1] : List Instr).all
      (fun i => !i.wf) = true := by decide +kernel

theorem test_wf_accepts : ([.corePgRise 1 127, .registerWrite 1 4 8 (2 ^ 32 - 1), .contextCreate 39, .secureStatus 32,
    .easelDoorbell 63 15 64, .copy 8 0, .deviceFreeze 5, .ringBlockArrival 1 15 []] : List Instr).all Instr.wf = true := by
  decide +kernel

/-! ### Values of the spec's worked examples -/

/-- 04_number_formats.md: the BELL4 block at handle 0x320 lies in the line at 2112, its scale at 2114, its data at 2144. -/
theorem test_bell4_block : (blockAt .bell4 0x320).line = 2112 ∧ (blockAt .bell4 0x320).scale = 2114 ∧
    (blockAt .bell4 0x320).data = 2144 := by decide

/-- 16_lpddr5.md: 0x40B4E700 with one rank of 16 Gb falls on channel 14, rank 0, bank 14, row 2070, column 1792. -/
theorem test_lpddr5_address : lpMap (4 * 2 ^ 4) 0x40B4E700 = (14, 0, 14, 2070, 1792) := by decide

/-- 08_kv_cache.md: a frame of 16 heads of dimension 128 in BF16 is 2 MiB. -/
theorem test_kv_frame : kvFrame (4 * 2 ^ 8 + 16 * 2 ^ 24) = 2 * 2 ^ 20 := by decide

/-- 15_mailboxes_and_mhp.md: the host of the sorter opens its session on MBOX_3. -/
def mbox3 : State :=
  ({ on with boot := { on.boot with fwVersion := 0x03040112 } } : State).letter 3 (header 1 0 3 3 0 0) [3, 0, 2]

/-- The reply to it: major 3, minor 2, session handle 3, no pending report, and FW_VERSION. -/
theorem test_session_reply : (match exec (.sessionOpen 3) mbox3 with
    | .next t => (tabGet [] t.mbox.ready 3).map (fun m => (m.opcode, m.reply, m.seq, m.status, m.payload))
    | _ => []) = [(1, true, 0, 0, [0x03, 0x02, 0x03, 0x00, 0x12, 0x01, 0x04, 0x03])] := by decide +kernel

/-- The header bytes of that request: 01 00 00 00 00 00 03 00 03 00, and six zero bytes. -/
theorem test_session_header : toLe 16 (header 1 0 3 3 0 0) =
    [1, 0, 0, 0, 0, 0, 3, 0, 3, 0, 0, 0, 0, 0, 0, 0] := by decide +kernel

/-! ### Witnesses

One theorem for each obligation that has hypotheses. Each part applies one clause of the obligation to a concrete state and
concrete operands: every hypothesis of the clause is proved for them, here, and the clause then says that this command
answers. So no clause is empty. -/

set_option maxRecDepth 100000
set_option Elab.async false
set_option exponentiation.threshold 1024

theorem wit_StepRunsFront (h : Obligations.StepRunsFront) :
    step (on.setPending [.watchdogExpiry]) = exec .watchdogExpiry ((on.setPending [.watchdogExpiry]).setPending []) ∧
    step on = .next (tick on) := by
  refine ⟨?_, ?_⟩
  · exact h.1 (on.setPending [.watchdogExpiry]) .watchdogExpiry [] rfl
  · exact h.2.2 on rfl

theorem wit_FusesOnlyGrow (h : Obligations.FusesOnlyGrow) :
    FusesGrow State.reset.fuse State.reset.fuse := by
  exact h .thermalTripRelease _ _ rfl

theorem wit_NoRollbackKept (h : Obligations.NoRollbackKept) :
    (∃ t, step ({ on with boot := { stage := 5, image := some [] }, pending := [.watchdogExpiry] }) = .next t ∧
      NoRollback t) := by
  exact
    ⟨_, rfl, h { on with boot := { stage := 5, image := some [] }, pending := [.watchdogExpiry] } _ (⟨by decide, by intro b hb; cases hb; exact ⟨by decide, by decide⟩, by decide, by intro ch seq hf; cases hf⟩) rfl⟩

theorem wit_ResetsClear (h : Obligations.ResetsClear) :
    (∃ t, exec (.deviceReset ResetCause.perst) on = .next t) ∧
    (∃ t, exec (.thermalTrip) on = .next t) := by
  refine ⟨?_, ?_⟩
  · obtain ⟨t, e, -⟩ := h.2.1 on .perst (by decide +kernel) (by decide +kernel)
    exact ⟨t, e⟩
  · have e := h.2.2 on
    repeat replace e := e (by decide +kernel)
    obtain ⟨t, e, -⟩ := e
    exact ⟨t, e⟩

theorem wit_ReleaseAndBootBegin_1 (h : Obligations.ReleaseAndBootBegin) :
    (∃ t, exec (.releaseOfReset) State.reset = .next t) ∧
    (∃ t, exec (.releaseOfReset) (State.reset.withPwr (fun p => { p with tripHeld := true })) = .next t) ∧
    (∃ t, exec (.thermalTripRelease) (State.reset.withPwr (fun p =>
      { p with tripHeld := true, resetN := true, perstN := true })) = .next t) := by
  refine ⟨?_, ?_, ?_⟩
  · have e := h.1 State.reset
    repeat replace e := e (by decide +kernel)
    exact ⟨_, e⟩
  · have e := h.2.1 (State.reset.withPwr (fun p => { p with tripHeld := true })) (by decide +kernel)
      (by decide +kernel)
    exact ⟨_, e⟩
  · have e := h.2.2.1 (State.reset.withPwr (fun p => { p with tripHeld := true, resetN := true, perstN := true }))
    repeat replace e := e (by decide +kernel)
    exact ⟨_, e⟩

theorem wit_ReleaseAndBootBegin_2 (h : Obligations.ReleaseAndBootBegin) :
    (∃ t, exec (.thermalTripRelease) (State.reset.withPwr (fun p => { p with tripHeld := true })) = .next t) ∧
    (∃ t, exec (.corePgRise 1 3) (State.reset.withPwr (fun p => { p with coreEn := true })) = .next t) ∧
    (∃ t, exec (.corePgRise 0 0) ((State.reset.withPwr (fun p => { p with coreEn := true })).withAon (fun a =>
      { a with waking := true })) = .next t) := by
  refine ⟨?_, ?_, ?_⟩
  · have e := h.2.2.2.1 (State.reset.withPwr (fun p => { p with tripHeld := true }))
    repeat replace e := e (by decide +kernel)
    exact ⟨_, e⟩
  · have e := h.2.2.2.2.1 (State.reset.withPwr (fun p => { p with coreEn := true })) 1 3
    repeat replace e := e (by decide +kernel)
    obtain ⟨t, e, -⟩ := e
    exact ⟨t, e⟩
  · have e := h.2.2.2.2.2 ((State.reset.withPwr (fun p => { p with coreEn := true })).withAon
      (fun a => { a with waking := true })) 0 0
    repeat replace e := e (by decide +kernel)
    exact ⟨_, e⟩

theorem wit_ChannelAndFunctionResets (h : Obligations.ChannelAndFunctionResets) :
    (∃ t, exec (.firmwareRestart) ({ on with err := { frozen := true } }) = .next t) ∧
    (∃ t, exec (.flrPf0) on = .next t) ∧
    (∃ t, exec (.flrPf1) on = .next t) ∧
    (∃ t, exec (.i3cTargetReset) on = .next t) ∧
    (∃ t, exec (.sealCoreRestart) on = .next t) := by
  refine ⟨?_, ?_, ?_, ?_, ?_⟩
  · obtain ⟨t, e, -⟩ := h.1.1 { on with err := { frozen := true } } (by decide +kernel) (by decide +kernel)
    exact ⟨t, e⟩
  · obtain ⟨t, e, -⟩ := h.1.2 on (by decide +kernel) (by decide +kernel)
    exact ⟨t, e⟩
  · obtain ⟨t, e, -⟩ := h.2.1 on (by decide +kernel)
    exact ⟨t, e⟩
  · obtain ⟨t, e, -⟩ := h.2.2.1 on (by decide +kernel)
    exact ⟨t, e⟩
  · obtain ⟨t, e, -⟩ := h.2.2.2 on (by decide +kernel)
    exact ⟨t, e⟩

theorem wit_ComparatorsAndThrottle_1 (h : Obligations.ComparatorsAndThrottle) :
    (∃ t, exec (.comparatorTrip 3) asleep = .next t) ∧
    (∃ t, exec (.comparatorRearm 3) (on.withAon (fun a => { a with tripped := 8 })) = .next t) ∧
    (∃ t, exec (.comparatorTrip 3) (on.withAon (fun a => { a with tripped := 8 })) = .next t) ∧
    (∃ t, exec (.comparatorRearm 3) on = .next t) ∧
    (∃ t, exec (.thermalSample 101 60000 false 50000 false) on = .next t) := by
  refine ⟨?_, ?_, ?_, ?_, ?_⟩
  · have e := h.1.1 asleep 3
    repeat replace e := e (by decide +kernel)
    obtain ⟨t, e, -⟩ := e
    exact ⟨t, e⟩
  · have e := h.1.2.1 (on.withAon (fun a => { a with tripped := 8 })) 3
    repeat replace e := e (by decide +kernel)
    obtain ⟨t, e, -⟩ := e
    exact ⟨t, e⟩
  · have e := h.1.2.2.1 (on.withAon (fun a => { a with tripped := 8 })) 3 (by decide +kernel)
    exact ⟨_, e⟩
  · have e := h.1.2.2.2 on 3 (by decide +kernel)
    exact ⟨_, e⟩
  · obtain ⟨t, e, -⟩ := h.2.1 on 101 60000 50000 false false (by decide +kernel) (by decide +kernel)
    exact ⟨t, e⟩

theorem wit_ComparatorsAndThrottle_2 (h : Obligations.ComparatorsAndThrottle) :
    (∃ t, exec (.thermalSample 95 60000 false 49999 false) on = .next t) ∧
    (∃ t, exec (.thermalSample 95 60000 false 49999 false) (on.withPwr (fun p =>
      { p with coolMs := 99, throttle := 2 })) = .next t) ∧
    (∃ t, exec (.ptmDialogue 5) on = .next t) ∧
    (∃ t, exec (.ptmDialogue 5) ({ on with clk := { offset0 := some 10 } }) = .next t) := by
  refine ⟨?_, ?_, ?_, ?_⟩
  · have e := h.2.2.1 on 95 60000 49999
    repeat replace e := e (by decide +kernel)
    exact ⟨_, e⟩
  · have e := h.2.2.2.1 (on.withPwr (fun p => { p with coolMs := 99, throttle := 2 })) 95 60000 49999
    repeat replace e := e (by decide +kernel)
    obtain ⟨t, e, -⟩ := e
    exact ⟨t, e⟩
  · have e := h.2.2.2.2.1 on 5 (by decide +kernel) (by decide +kernel)
    exact ⟨_, e⟩
  · obtain ⟨t, e, -⟩ := h.2.2.2.2.2 { on with clk := { offset0 := some 10 } } 5 10 (by decide +kernel)
      (by decide +kernel)
    exact ⟨t, e⟩

theorem wit_SleepAndWake (h : Obligations.SleepAndWake) :
    (∃ t, exec (.idleEntry) on = .next t) ∧
    (∃ t, exec (.sleepEntry) (on.withPwr (fun p => { p with state := 1 })) = .next t) ∧
    (∃ t, exec (.aonTimerMature 100 false) (asleep.withAon (fun a => { a with storedDb := [(3, 1)] })) = .next t) ∧
    (∃ t, exec (.aonTimerMature 100 false) asleep = .next t) ∧
    (∃ t, exec (.wakeSequenceComplete) (on.withAon (fun a => { a with waking := true, ticks := 32768 })) = .next t) := by
  refine ⟨?_, ?_, ?_, ?_, ?_⟩
  · have e := h.1 on
    repeat replace e := e (by decide +kernel)
    exact ⟨_, e⟩
  · have e := h.2.1 (on.withPwr (fun p => { p with state := 1 }))
    repeat replace e := e (by decide +kernel)
    obtain ⟨t, e, -⟩ := e
    exact ⟨t, e⟩
  · have e := h.2.2.1 (asleep.withAon (fun a => { a with storedDb := [(3, 1)] })) 100 false
    repeat replace e := e (by decide +kernel)
    obtain ⟨t, e, -⟩ := e
    exact ⟨t, e⟩
  · have e := h.2.2.2.1 asleep 100
    repeat replace e := e (by decide +kernel)
    exact ⟨_, e⟩
  · have e := h.2.2.2.2 (on.withAon (fun a => { a with waking := true, ticks := 32768 }))
    repeat replace e := e (by decide +kernel)
    obtain ⟨t, e, -⟩ := e
    exact ⟨t, e⟩

theorem wit_RegistersReadAndWritten_1 (h : Obligations.RegistersReadAndWritten) :
    (∃ t, exec (.deviceTimeLoRead) on = .next t) ∧
    (∃ t, exec (.dbErrorCountRead) on = .next t) ∧
    (∃ t, exec (.dbErrorCountRead) asleep = .next t) ∧
    (∃ t, exec (.wakeCauseClear 8) (on.withAon (fun a => { a with wakeCause := 9 })) = .next t) ∧
    (∃ t, exec (.eventStatusClear 0 4) (on.withPci (fun p => { p with evStatus0 := 6, dbError := 2 ^ 31 })) = .next t) ∧
    (∃ t, exec (.eventStatusClear 1 4) (on.withPci (fun p => { p with evStatus1 := 6 })) = .next t) := by
  refine ⟨?_, ?_, ?_, ?_, ?_, ?_⟩
  · have e := h.1.1 on (by decide +kernel)
    exact ⟨_, e⟩
  · have e := h.1.2.1 on (by decide +kernel) (by decide +kernel)
    exact ⟨_, e⟩
  · have e := h.1.2.2.1 asleep (by decide +kernel) (by decide +kernel)
    exact ⟨_, e⟩
  · obtain ⟨t, e, -⟩ := h.1.2.2.2.1 (on.withAon (fun a => { a with wakeCause := 9 })) 8 (by decide +kernel)
      (by decide +kernel)
    exact ⟨t, e⟩
  · have e := h.1.2.2.2.2.1 (on.withPci (fun p => { p with evStatus0 := 6, dbError := 2 ^ 31 })) 4
    repeat replace e := e (by decide +kernel)
    obtain ⟨t, e, -⟩ := e
    exact ⟨t, e⟩
  · have e := h.1.2.2.2.2.2 (on.withPci (fun p => { p with evStatus1 := 6 })) 4
    repeat replace e := e (by decide +kernel)
    obtain ⟨t, e, -⟩ := e
    exact ⟨t, e⟩

theorem wit_RegistersReadAndWritten_2 (h : Obligations.RegistersReadAndWritten) :
    (∃ t, exec (.registerWrite 0 0 132 255) on = .next t) ∧
    (∃ t, exec (.registerWrite 1 0 132 255) on = .next t) ∧
    (∃ t, exec (.registerWrite 0 0 (65536 + 1024 * 31 + 268) 4294967295) on = .next t) ∧
    (∃ t, exec (.registerWrite 0 0 136 1) on = .next t) ∧
    (∃ t, exec (.registerWrite 0 0 134 1) on = .next t) ∧
    exec (.registerWrite 0 0 0x44 8) (on.withAon (fun a => { a with wakeCause := 9 })) =
      exec (.wakeCauseClear 8) (on.withAon (fun a => { a with wakeCause := 9 })) ∧
    exec (.registerWrite 1 0 0x80 2) (on.withPci (fun p => { p with evStatus1 := 6 })) =
      exec (.eventStatusClear 1 2) (on.withPci (fun p => { p with evStatus1 := 6 })) := by
  refine ⟨?_, ?_, ?_, ?_, ?_, ?_, ?_⟩
  · have e := h.2.1 on 255 (by decide +kernel) (by decide +kernel)
    exact ⟨_, e⟩
  · have e := h.2.2.1 on 255 (by decide +kernel) (by decide +kernel)
    exact ⟨_, e⟩
  · have e := h.2.2.2.1 on 31 0x10C 0xFFFFFFFF
    repeat replace e := e (by decide +kernel)
    obtain ⟨t, e, -⟩ := e
    exact ⟨t, e⟩
  · have e := h.2.2.2.2.2.2.1 on 0 0x88 1
    repeat replace e := e (by decide +kernel)
    exact ⟨_, e⟩
  · have e := h.2.2.2.2.2.2.2.1 on 0 0 0x86 1 (by decide +kernel)
    exact ⟨_, e⟩
  · have e := h.2.2.2.2.1 (on.withAon (fun a => { a with wakeCause := 9 })) 8
    exact e
  · have e := h.2.2.2.2.2.1 (on.withPci (fun p => { p with evStatus1 := 6 })) 1 2 (by decide)
    exact e

theorem wit_RegistersReadAndWritten_3 (h : Obligations.RegistersReadAndWritten) :
    (∃ t, exec (.registerWrite 0 4 (16 * 2047 + 12) 1) (on.withPci (fun p => { p with unmasked := [2047] })) = .next
      t) ∧
    (∃ t, exec (.msixUnmask 0 5) (on.withPci (fun p => { p with pend := [5] })) = .next t) ∧
    (∃ t, exec (.msixUnmask 0 2047) on = .next t) := by
  refine ⟨?_, ?_, ?_⟩
  · have e := h.2.2.2.2.2.2.2.2.1 (on.withPci (fun p => { p with unmasked := [2047] })) 2047 1
    repeat replace e := e (by decide +kernel)
    exact ⟨_, e⟩
  · have e := h.2.2.2.2.2.2.2.2.2.1 (on.withPci (fun p => { p with pend := [5] })) 5
    repeat replace e := e (by decide +kernel)
    obtain ⟨t, e, -⟩ := e
    exact ⟨t, e⟩
  · have e := h.2.2.2.2.2.2.2.2.2.2 on 2047
    repeat replace e := e (by decide +kernel)
    obtain ⟨t, e, -⟩ := e
    exact ⟨t, e⟩

theorem wit_LinkAndFunctions_1 (h : Obligations.LinkAndFunctions) :
    (∃ t, exec (.pcieLinkTraining 3 4) on = .next t) ∧
    (∃ t, exec (.pcieLinkTraining 3 2) on = .next t) ∧
    (∃ t, exec (.busMasterEnableWrite 0 false) on = .next t) ∧
    (∃ t, exec (.busMasterEnableWrite 0 true) pendsVec = .next t) := by
  refine ⟨?_, ?_, ?_, ?_⟩
  · have e := h.1 on 3 4
    repeat replace e := e (by decide +kernel)
    obtain ⟨t, e, -⟩ := e
    exact ⟨t, e⟩
  · have e := h.2.1 on 3 2
    repeat replace e := e (by decide +kernel)
    obtain ⟨t, e, -⟩ := e
    exact ⟨t, e⟩
  · obtain ⟨t, e, -⟩ := h.2.2.1 on (by decide +kernel)
    exact ⟨t, e⟩
  · have e := h.2.2.2.1 pendsVec 5
    repeat replace e := e (by decide +kernel)
    exact ⟨_, e⟩

theorem wit_LinkAndFunctions_2 (h : Obligations.LinkAndFunctions) :
    (∃ t, exec (.pciPowerStateWrite 0 (.d3hot true) true) on = .next t) ∧
    (∃ t, exec (.pciPowerStateWrite 1 (.d3hot true) true) on = .next t) ∧
    (∃ t, exec (.pciPowerStateWrite 0 (.d3hot false) true) (on.withAon (fun a => { a with wakeCause := 8 })) = .next t) ∧
    (∃ t, exec (.hostReadError 0) withCtx = .next t) := by
  refine ⟨?_, ?_, ?_, ?_⟩
  · have e := h.2.2.2.2.1 on true true (by decide +kernel) (by decide +kernel)
    exact ⟨_, e⟩
  · have e := h.2.2.2.2.2.1 on true true (by decide +kernel)
    exact ⟨_, e⟩
  · have e := h.2.2.2.2.2.2.1 (on.withAon (fun a => { a with wakeCause := 8 })) true false
    repeat replace e := e (by decide +kernel)
    obtain ⟨_, e, -⟩ := e
    exact ⟨_, e⟩
  · have e := h.2.2.2.2.2.2.2 withCtx 0 ctx0
    repeat replace e := e (by decide +kernel)
    obtain ⟨t, e, -⟩ := e
    exact ⟨t, e⟩

theorem wit_MailboxWindows_1 (h : Obligations.MailboxWindows) :
    (∃ t, exec (.mbDoorbellWrite 0 31 1) on = .next t) ∧
    (∃ t, exec (.mbDoorbellWrite 0 32 1) asleep = .next t) ∧
    (∃ t, exec (.mbDoorbellWrite 0 0 1) (on.letter 0 0 []) = .next t) ∧
    (∃ t, exec (.mbAckWrite 0 0 1) (on.withMbox (fun m => { m with win := [(0, { valid := true })] })) = .next t) ∧
    (∃ t, exec (.mbAckWrite 0 0 1) on = .next t) := by
  refine ⟨?_, ?_, ?_, ?_, ?_⟩
  · have e := h.1.1 on 0 31 1
    repeat replace e := e (by decide +kernel)
    exact ⟨_, e⟩
  · have e := h.1.2.1 asleep 0 32 1
    repeat replace e := e (by decide +kernel)
    obtain ⟨t, e, -⟩ := e
    exact ⟨t, e⟩
  · have e := h.1.2.2.1 (on.letter 0 0 []) 0 0 1 (by decide +kernel)
    exact ⟨_, e⟩
  · have e := h.1.2.2.2.1 (on.withMbox (fun m => { m with win := [(0, { valid := true })] })) 0 0 1
    repeat replace e := e (by decide +kernel)
    exact ⟨_, e⟩
  · have e := h.1.2.2.2.2.1 on 0 0 1 (by decide +kernel)
    exact ⟨_, e⟩

theorem wit_MailboxWindows_2 (h : Obligations.MailboxWindows) :
    (∃ t, exec (.mbDoorbellWrite 0 32 1) (on.withMbox (fun m =>
      { m with session := [(32, { sess with path := 1 })] })) = .next t) ∧
    (∃ t, exec (.mbAckWrite 0 32 1) (on.withMbox (fun m => { m with session := [(32, { sess with path := 1 })] })) =
      .next t) ∧
    (∃ t, exec (.i3cPrivateWrite [0, 4]) on = .next t) ∧
    (∃ t, exec (.i3cPrivateWrite [15, 5, 7]) on = .next t) ∧
    (∃ t, exec (.i3cPrivateWrite [240, 7, 1, 0, 0, 0]) on = .next t) := by
  refine ⟨?_, ?_, ?_, ?_, ?_⟩
  · have e := (h.1.2.2.2.2.2 (on.withMbox (fun m => { m with session := [(32, { sess with path := 1 })] })) 0 32 1
      (by decide +kernel)).1
    exact ⟨_, e⟩
  · have e := (h.1.2.2.2.2.2 (on.withMbox (fun m => { m with session := [(32, { sess with path := 1 })] })) 0 32 1
      (by decide +kernel)).2
    exact ⟨_, e⟩
  · have e := h.2.1 on 0 4 (by decide +kernel)
    exact ⟨_, e⟩
  · have e := h.2.2.1 on 0x0F 5 7 1 0x10F
    repeat replace e := e (by decide +kernel)
    exact ⟨_, e⟩
  · have e := h.2.2.2 on 0xF0 7 1 0 0 0 1
    repeat replace e := e (by decide +kernel)
    exact ⟨_, e⟩

theorem wit_MessagesInFragments_1 (h : Obligations.MessagesInFragments) :
    (∃ t, exec (.messageFragment 32) (fragment 1 0) = .next t) ∧
    (∃ t, exec (.messageFragment 32) (gathered 1) = .next t) ∧
    (∃ t, exec (.messageFragment 32) (gathered 2) = .next t) := by
  refine ⟨?_, ?_, ?_⟩
  · have e := h.1.1 (fragment 1 0) 32 sess
    repeat replace e := e (by decide +kernel)
    exact ⟨_, e⟩
  · have e := h.1.2.1 (gathered 1) 32 { opcode := 0x103, seq := 7, next := 1, payload := zeros 256 }
    repeat replace e := e (by decide +kernel)
    exact ⟨_, e⟩
  · have e := h.1.2.2 (gathered 2) 32 { opcode := 0x103, seq := 7, next := 1, payload := zeros 256 }
    repeat replace e := e (by decide +kernel)
    exact ⟨_, e⟩

theorem wit_MessagesInFragments_2 (h : Obligations.MessagesInFragments) :
    (∃ t, exec (.d2hPost 0) (on.withMbox (fun m => { m with ready := [(0, [replyMsg])] })) = .next t) ∧
    (∃ t, exec (.d2hPost 0) (on.withMbox (fun m => { m with ready := [(0, [noticeMsg])], session := [(0, sess)] })) =
      .next t) ∧
    (∃ t, exec (.d2hPost 0) on = .next t) := by
  refine ⟨?_, ?_, ?_⟩
  · have e := h.2.1 (on.withMbox (fun m => { m with ready := [(0, [replyMsg])] })) 0 replyMsg []
    repeat replace e := e (by decide +kernel)
    obtain ⟨t, e, -⟩ := e
    exact ⟨t, e⟩
  · have e := h.2.2.1 (on.withMbox (fun m => { m with ready := [(0, [noticeMsg])], session := [(0, sess)] })) 0
      noticeMsg [] sess
    repeat replace e := e (by decide +kernel)
    obtain ⟨t, e, -⟩ := e
    exact ⟨t, e⟩
  · have e := h.2.2.2 on 0 (by decide +kernel)
    exact ⟨_, e⟩

theorem wit_Sessions (h : Obligations.Sessions) :
    (∃ t, exec (.sessionOpen 0) (on.letter 0 (header 1 0 0 4 0 0) [3, 0, 1, 0]) = .next t) ∧
    (∃ t, exec (.sessionOpen 0) (on.letter 0 (header 1 0 0 4 0 0) [3, 3, 9, 0]) = .next t) ∧
    (∃ t, exec (.sessionOpen 0) ((on.letter 0 (header 1 0 0 4 0 0) [3, 0, 1, 0]).withMbox (fun m =>
      { m with session := [(0, sess)] })) = .next t) ∧
    (∃ t, exec (.sessionClose 0) (on.mail 0 2 []) = .next t) ∧
    (∃ t, exec (.sessionClose 0) (withCtx.mail 0 2 []) = .next t) := by
  refine ⟨?_, ?_, ?_, ?_, ?_⟩
  · have e := h.1 (on.letter 0 (header 1 0 0 4 0 0) [3, 0, 1, 0]) 0 0 1
    repeat replace e := e (by decide +kernel)
    exact ⟨_, e⟩
  · have e := h.2.1 (on.letter 0 (header 1 0 0 4 0 0) [3, 3, 9, 0]) 0 3 9
    repeat replace e := e (by decide +kernel)
    obtain ⟨t, e, -⟩ := e
    exact ⟨t, e⟩
  · obtain ⟨t, e, -⟩ := h.2.2.1 ((on.letter 0 (header 1 0 0 4 0 0) [3, 0, 1, 0]).withMbox
      (fun m => { m with session := [(0, sess)] })) 0 0 1 sess (by decide +kernel) (by decide +kernel)
    exact ⟨t, e⟩
  · obtain ⟨t, e, -⟩ := h.2.2.2.1 (on.mail 0 2 []) 0 [] sess (by unfold Asks; decide +kernel) (by decide +kernel)
      (by decide +kernel)
    exact ⟨t, e⟩
  · have e := h.2.2.2.2 (withCtx.mail 0 2 []) 0 [] sess (by unfold Asks; decide +kernel) (by decide +kernel)
      (⟨(0, ctx0), by decide, rfl⟩)
    exact ⟨_, e⟩

theorem wit_SubmissionQueues_1 (h : Obligations.SubmissionQueues) :
    (∃ t, exec (.sqDoorbellWrite 3 2) (desk 1) = .next t) ∧
    (∃ t, exec (.cqDoorbellWrite 4 2) (cqWith { cq4 with tail := 2, bodyUse := [3, 4] }) = .next t) ∧
    (∃ t, exec (.sqDoorbellWrite 5 1) on = .next t) ∧
    (∃ t, exec (.sqDoorbellWrite 5 1) (on.withPci (fun p => { p with dbError := 2 ^ 31 })) = .next t) ∧
    (∃ t, exec (.sqDoorbellWrite 5 1) asleep = .next t) := by
  refine ⟨?_, ?_, ?_, ?_, ?_⟩
  · have e := h.1.1 (desk 1) 3 2 sq3
    repeat replace e := e (by decide +kernel)
    exact ⟨_, e⟩
  · have e := h.1.2.1 (cqWith { cq4 with tail := 2, bodyUse := [3, 4] }) 4 2 { cq4 with tail := 2, bodyUse := [3, 4] }
    repeat replace e := e (by decide +kernel)
    exact ⟨_, e⟩
  · have e := h.1.2.2.1 on 5 1
    repeat replace e := e (by decide +kernel)
    obtain ⟨t, e, -⟩ := e
    exact ⟨t, e⟩
  · have e := h.1.2.2.2.1 (on.withPci (fun p => { p with dbError := 2 ^ 31 })) 5 1
    repeat replace e := e (by decide +kernel)
    exact ⟨_, e⟩
  · have e := h.1.2.2.2.2 asleep 5 1
    repeat replace e := e (by decide +kernel)
    exact ⟨_, e⟩

theorem wit_SubmissionQueues_2 (h : Obligations.SubmissionQueues) :
    (∃ t, exec (.sample 3) twoDesks = .next t) ∧
    (∃ t, exec (.sample 3) (desk (1 + 2 * 2 ^ 8 + 77 * 2 ^ 32 + 8192 * 2 ^ 128 + 32 * 2 ^ 192)) = .next t) ∧
    (∃ t, exec (.sample 3) (rawDesk (1 + 2 * 2 ^ 8 + 2 ^ 16 + 77 * 2 ^ 32 + 8192 * 2 ^ 128 + 32 * 2 ^ 192)) = .next t) ∧
    (∃ t, exec (.text 3)
      ({ desk (2 + 2 * 2 ^ 8 + 8192 * 2 ^ 128 + 32 * 2 ^ 192 + 6 * 2 ^ 224) with text := { streams := [(6, { ctx := 0 })] } })
      = .next t) ∧
    (∃ t, exec (.streamData 3)
      ({ desk (3 + 2 * 2 ^ 8 + 8192 * 2 ^ 128 + 32 * 2 ^ 192 + 6 * 2 ^ 224 + 99 * 2 ^ 64) with intake := { streams := [(6, { record := 4, ctx := 0, cq := 4 })] } })
      = .next t) ∧
    (∃ t, exec (.marker 3) (desk (4 + 2 * 2 ^ 8 + 77 * 2 ^ 32)) = .next t) ∧
    (∃ t, exec (.sample 3) (desk (1 + 3 * 2 ^ 8)) = .next t) := by
  refine ⟨?_, ?_, ?_, ?_, ?_, ?_, ?_⟩
  · have e := h.2.1 twoDesks 3 1 sq3 (5, { sq3 with ctx := 1 })
    repeat replace e := e (by decide +kernel)
    exact ⟨_, e⟩
  · obtain ⟨t, _, e, -⟩ := h.2.2.1 (desk (1 + 2 * 2 ^ 8 + 77 * 2 ^ 32 + 8192 * 2 ^ 128 + 32 * 2 ^ 192)) 3 (1 + 2 * 2 ^
      8 + 77 * 2 ^ 32 + 8192 * 2 ^ 128 + 32 * 2 ^ 192) sq3 (by decide +kernel) (by decide +kernel)
      (by decide +kernel)
    exact ⟨t, e⟩
  · obtain ⟨t, _, _, e, -⟩ := h.2.2.2.1 (rawDesk (1 + 2 * 2 ^ 8 + 2 ^ 16 + 77 * 2 ^ 32 + 8192 * 2 ^ 128 + 32 * 2 ^
      192)) 3 (1 + 2 * 2 ^ 8 + 2 ^ 16 + 77 * 2 ^ 32 + 8192 * 2 ^ 128 + 32 * 2 ^ 192) sq3 prof0 (by decide +kernel)
      (by decide +kernel) (by decide +kernel) (by decide +kernel)
      (fun it _ hv hl => by unfold Item.tileTotal; rw [hv, hl]; decide +kernel)
    exact ⟨t, e⟩
  · have e := h.2.2.2.2.1
      { desk (2 + 2 * 2 ^ 8 + 8192 * 2 ^ 128 + 32 * 2 ^ 192 + 6 * 2 ^ 224) with text := { streams := [(6, { ctx := 0 })] } }
      3 (2 + 2 * 2 ^ 8 + 8192 * 2 ^ 128 + 32 * 2 ^ 192 + 6 * 2 ^ 224) sq3 (by decide +kernel) (by decide +kernel)
    obtain ⟨t, e, -⟩ := e
    exact ⟨t, e⟩
  · have e := h.2.2.2.2.2.1
      { desk (3 + 2 * 2 ^ 8 + 8192 * 2 ^ 128 + 32 * 2 ^ 192 + 6 * 2 ^ 224 + 99 * 2 ^ 64) with intake := { streams := [(6, { record := 4, ctx := 0, cq := 4 })] } }
      3 (3 + 2 * 2 ^ 8 + 8192 * 2 ^ 128 + 32 * 2 ^ 192 + 6 * 2 ^ 224 + 99 * 2 ^ 64) sq3 (by decide +kernel)
      (by decide +kernel)
    obtain ⟨t, e, -⟩ := e
    exact ⟨t, e⟩
  · have e := h.2.2.2.2.2.2.1 (desk (4 + 2 * 2 ^ 8 + 77 * 2 ^ 32)) 3 (4 + 2 * 2 ^ 8 + 77 * 2 ^ 32) 4 sq3 cq4
    repeat replace e := e (by decide +kernel)
    obtain ⟨t, _, e, -⟩ := e
    exact ⟨t, e⟩
  · have e := h.2.2.2.2.2.2.2 (desk (1 + 3 * 2 ^ 8)) 3 (1 + 3 * 2 ^ 8) 4 sq3 cq4
    repeat replace e := e (by decide +kernel)
    obtain ⟨t, _, e, -⟩ := e
    exact ⟨t, e⟩

theorem wit_RecordsWritten (h : Obligations.RecordsWritten) :
    (∃ t, exec (.recordPost 4) (cqWith { cq4 with ready := [rec4] }) = .next t) ∧
    (∃ t, exec (.recordPost 4) (cqWith { cq4 with ready := [{ rec4 with held := true }], tail := 15 }) = .next t) ∧
    (∃ t, exec (.msixCoalesceTimeout 4)
      ({ (cqWith { cq4 with unsignalled := 1, oldestAt := 5 }).withPci (fun p => { p with unmasked := [5] }) with clk := { time := 1005 } })
      = .next t) ∧
    (∃ t, exec (.msixCoalesceTimeout 4) (cqWith cq4) = .next t) ∧
    (∃ t, exec (.recordPost 4) keptRec = .next t) := by
  refine ⟨?_, ?_, ?_, ?_, ?_⟩
  · have e := h.1 (cqWith { cq4 with ready := [rec4] }) 4 0 0 { cq4 with ready := [rec4] } rec4 []
    repeat replace e := e (by decide +kernel)
    obtain ⟨t, b, e, -⟩ := e
    exact ⟨t, e⟩
  · have e := h.2.1 (cqWith { cq4 with ready := [{ rec4 with held := true }], tail := 15 }) 4
      { cq4 with ready := [{ rec4 with held := true }], tail := 15 } { rec4 with held := true } []
    repeat replace e := e (by decide +kernel)
    obtain ⟨t, e, -⟩ := e
    exact ⟨t, e⟩
  · have e := h.2.2.2.1
      { (cqWith { cq4 with unsignalled := 1, oldestAt := 5 }).withPci (fun p => { p with unmasked := [5] }) with clk := { time := 1005 } }
      4 { cq4 with unsignalled := 1, oldestAt := 5 }
    repeat replace e := e (by decide +kernel)
    obtain ⟨t, e, -⟩ := e
    exact ⟨t, e⟩
  · have e := h.2.2.2.2 (cqWith cq4) 4 cq4 (by decide +kernel) (by decide +kernel)
    exact ⟨_, e⟩
  · obtain ⟨t, e, -⟩ := h.2.2.1 keptRec 4 { cq4 with ready := [rec4] } (by decide +kernel) (by decide +kernel)
    exact ⟨t, e⟩

theorem wit_RequestsChecked (h : Obligations.RequestsChecked) :
    (∃ t, exec (.contextQuery 0) (on.letter 0 (header 0x13 7 0 8 0 0) (zeros 8)) = .next t) ∧
    (∃ t, exec (.contextQuery 0) ((on.mail 0 0x13 (zeros 8)).withMbox (fun m =>
      { m with win := (on.letter 0 (header 0x13 7 5 8 0 0) (zeros 8)).mbox.win })) = .next t) ∧
    (∃ t, exec (.mirrorUnpair 0) ((on.mail 0 0x81 (zeros 8)).withMbox (fun m =>
      { m with session := [(0, { sess with minor := 0 })] })) = .next t) ∧
    (∃ t, exec (.contextCreate 0) ({ on.mail 0 0x10 (zeros 8) with err := { frozen := true } }) = .next t) := by
  refine ⟨?_, ?_, ?_, ?_⟩
  · have e := h.1 (on.letter 0 (header 0x13 7 0 8 0 0) (zeros 8)) 0 0x13 (.contextQuery 0)
    repeat replace e := e (by decide +kernel)
    exact ⟨_, e⟩
  · have e := h.2.1 ((on.mail 0 0x13 (zeros 8)).withMbox
      (fun m => { m with win := (on.letter 0 (header 0x13 7 5 8 0 0) (zeros 8)).mbox.win })) 0 0x13 (.contextQuery
      0) sess
    repeat replace e := e (by decide +kernel)
    exact ⟨_, e⟩
  · have e := h.2.2.1 ((on.mail 0 0x81 (zeros 8)).withMbox
      (fun m => { m with session := [(0, { sess with minor := 0 })] })) 0 0x81 (.mirrorUnpair 0)
      { sess with minor := 0 }
    repeat replace e := e (by decide +kernel)
    exact ⟨_, e⟩
  · have e := h.2.2.2 { on.mail 0 0x10 (zeros 8) with err := { frozen := true } } 0 0x10 (.contextCreate 0) sess
    repeat replace e := e (by decide +kernel)
    exact ⟨_, e⟩

theorem wit_ContextsComeAndGo_1 (h : Obligations.ContextsComeAndGo) :
    (∃ t, exec (.contextCreate 0) (on.mail 0 0x10 (toLe 16 ((1000 * 2 ^ 32 + 5000 * 2 ^ 64)))) = .next t) ∧
    (∃ t, exec (.contextCreate 0)
      ({ on.mail 0 0x10 (toLe 16 ((1000 * 2 ^ 32 + 5000 * 2 ^ 64))) with ctxs := (List.range 256).map (fun c => (c, ctx0)) })
      = .next t) ∧
    (∃ t, exec (.contextCreate 0) (on.mail 0 0x10 (zeros 16)) = .next t) ∧
    (∃ t, exec (.contextQuery 0) (withCtx.mail 0 0x13 [0, 0, 0, 0, 0, 0, 0, 0]) = .next t) ∧
    (∃ t, exec (.contextQuery 0)
      ({ on.mail 0 0x13 [0, 0, 0, 0, 0, 0, 0, 0] with ctxs := [(0, { ctx0 with session := 3 })] }) = .next t) := by
  refine ⟨?_, ?_, ?_, ?_, ?_⟩
  · have e := h.1.1 (on.mail 0 0x10 (toLe 16 ((1000 * 2 ^ 32 + 5000 * 2 ^ 64)))) 0 0 (toLe 16 ((1000 * 2 ^ 32 + 5000
      * 2 ^ 64))) sess (by unfold Asks; decide +kernel)
    repeat replace e := e (by decide +kernel)
    exact ⟨_, e⟩
  · have e := h.1.2.1
      { on.mail 0 0x10 (toLe 16 ((1000 * 2 ^ 32 + 5000 * 2 ^ 64))) with ctxs := (List.range 256).map (fun c => (c, ctx0)) }
      0 (toLe 16 ((1000 * 2 ^ 32 + 5000 * 2 ^ 64))) sess (by unfold Asks; decide +kernel) (by decide +kernel)
      (by decide +kernel)
    exact ⟨_, e⟩
  · have e := h.1.2.2.1 (on.mail 0 0x10 (zeros 16)) 0 (zeros 16) sess (by unfold Asks; decide +kernel)
      (by decide +kernel)
    exact ⟨_, e⟩
  · have e := h.1.2.2.2.1 (withCtx.mail 0 0x13 [0, 0, 0, 0, 0, 0, 0, 0]) 0 0 ([0, 0, 0, 0, 0, 0, 0, 0]) sess ctx0 (by unfold Asks; decide +kernel)
    repeat replace e := e (by decide +kernel)
    exact ⟨_, e⟩
  · have e := h.1.2.2.2.2 { on.mail 0 0x13 [0, 0, 0, 0, 0, 0, 0, 0] with ctxs := [(0, { ctx0 with session := 3 })] }
      0 0 ([0, 0, 0, 0, 0, 0, 0, 0]) sess { ctx0 with session := 3 } (by unfold Asks; decide +kernel)
    repeat replace e := e (by decide +kernel)
    exact ⟨_, e⟩

theorem wit_ContextsComeAndGo_2 (h : Obligations.ContextsComeAndGo) :
    (∃ t, exec (.contextStart 0)
      ({ on.mail 0 0x11 [0, 0, 0, 0, 0, 0, 0, 0] with ctxs := [(0, { ctx0 with params := 1, st := .waiting })] }) =
      .next t) ∧
    (∃ t, exec (.contextStart 0) (withCtx.mail 0 0x11 [0, 0, 0, 0, 0, 0, 0, 0]) = .next t) ∧
    (∃ t, exec (.contextDestroyDrain 0)
      ({ on.mail 0 0x12 [0, 0, 0, 0, 0, 0, 0, 0] with ctxs := [(0, { ctx0 with busy := true, part := some { variant := 0, easels := [0], canvas := [], bars := [], devBar := none, tags := (1, 0, 0), placedAt := 0 } })] })
      = .next t) ∧
    (∃ t, exec (.contextDestroyAbort 0) (withCtx.mail 0 0x12 [0, 1, 0, 0, 0, 0, 0, 0]) = .next t) := by
  refine ⟨?_, ?_, ?_, ?_⟩
  · have e := h.2.1
      { on.mail 0 0x11 [0, 0, 0, 0, 0, 0, 0, 0] with ctxs := [(0, { ctx0 with params := 1, st := .waiting })] } 0 0
      ([0, 0, 0, 0, 0, 0, 0, 0]) sess { ctx0 with params := 1, st := .waiting } (by unfold Asks; decide +kernel)
    repeat replace e := e (by decide +kernel)
    exact ⟨_, e⟩
  · have e := h.2.2.1 (withCtx.mail 0 0x11 [0, 0, 0, 0, 0, 0, 0, 0]) 0 0 ([0, 0, 0, 0, 0, 0, 0, 0]) sess ctx0 (by unfold Asks; decide +kernel)
    repeat replace e := e (by decide +kernel)
    exact ⟨_, e⟩
  · have e := h.2.2.2.1
      { on.mail 0 0x12 [0, 0, 0, 0, 0, 0, 0, 0] with ctxs := [(0, { ctx0 with busy := true, part := some { variant := 0, easels := [0], canvas := [], bars := [], devBar := none, tags := (1, 0, 0), placedAt := 0 } })] }
      0 0 ([0, 0, 0, 0, 0, 0, 0, 0]) sess
      { ctx0 with busy := true, part := some { variant := 0, easels := [0], canvas := [], bars := [], devBar := none, tags := (1, 0, 0), placedAt := 0 } }
      { variant := 0, easels := [0], canvas := [], bars := [], devBar := none, tags := (1, 0, 0), placedAt := 0 }
      (by unfold Asks; decide +kernel)
    repeat replace e := e (by decide +kernel)
    obtain ⟨t, e, -⟩ := e
    exact ⟨t, e⟩
  · have e := h.2.2.2.2 (withCtx.mail 0 0x12 [0, 1, 0, 0, 0, 0, 0, 0]) 0 0 ([0, 1, 0, 0, 0, 0, 0, 0]) sess ctx0 (by unfold Asks; decide +kernel)
    repeat replace e := e (by decide +kernel)
    obtain ⟨t, _, e, -⟩ := e
    exact ⟨t, e⟩

theorem wit_WindowsRegionsAndCopies_1 (h : Obligations.WindowsRegionsAndCopies) :
    (∃ t, exec (.windowRegister 0) ((withCtx).mail 0 0x20 (toLe 24 (4096 * 2 ^ 64 + 8192 * 2 ^ 128))) = .next t) ∧
    (∃ t, exec (.windowRelease 0) (({ on with ctxs := [(0, ctxIn)] }).mail 0 0x21 (toLe 8 0)) = .next t) ∧
    (∃ t, exec (.windowRelease 0) (({ { on with ctxs := [(0, ctxIn)] } with hq := [(4, cq4)] }).mail 0 0x21 (toLe 8
      0)) = .next t) ∧
    (∃ t, exec (.regionAlloc 0) ((withCtx).mail 0 0x22 (toLe 8 (65536 * 2 ^ 32))) = .next t) ∧
    (∃ t, exec (.memCopyToDevice 0) (({ on with ctxs := [(0, { ctxIn with regions := [(0, (0, 65536))] })] }).mail 0
      0x23 (toLe 28 (256 * 2 ^ 64 + 512 * 2 ^ 128 + 16 * 2 ^ 192))) = .next t) := by
  refine ⟨?_, ?_, ?_, ?_, ?_⟩
  · have e := h.1.1 ((withCtx).mail 0 0x20 (toLe 24 (4096 * 2 ^ 64 + 8192 * 2 ^ 128))) 0 0 0 (toLe 24 (4096 * 2 ^ 64
      + 8192 * 2 ^ 128)) sess ctx0 (by unfold Asks; decide +kernel)
    repeat replace e := e (by decide +kernel)
    exact ⟨_, e⟩
  · have e := h.1.2.1 (({ on with ctxs := [(0, ctxIn)] }).mail 0 0x21 (toLe 8 0)) 0 0 0 (toLe 8 0) sess ctxIn lowMem
      (by unfold Asks; decide +kernel)
    repeat replace e := e (by decide +kernel)
    exact ⟨_, e⟩
  · have e := h.1.2.2.1 (({ { on with ctxs := [(0, ctxIn)] } with hq := [(4, cq4)] }).mail 0 0x21 (toLe 8 0)) 0 0 0
      (toLe 8 0) sess ctxIn lowMem (by unfold Asks; decide +kernel)
    repeat replace e := e (by decide +kernel)
    exact ⟨_, e⟩
  · have e := h.1.2.2.2 ((withCtx).mail 0 0x22 (toLe 8 (65536 * 2 ^ 32))) 0 0 0 65536 (toLe 8 (65536 * 2 ^ 32)) sess
      ctx0 0 (by unfold Asks; decide +kernel)
    repeat replace e := e (by decide +kernel)
    obtain ⟨t, e, -⟩ := e
    exact ⟨t, e⟩
  · have e := h.2.1 (({ on with ctxs := [(0, { ctxIn with regions := [(0, (0, 65536))] })] }).mail 0 0x23 (toLe 28
      (256 * 2 ^ 64 + 512 * 2 ^ 128 + 16 * 2 ^ 192))) 0 0 (toLe 28 (256 * 2 ^ 64 + 512 * 2 ^ 128 + 16 * 2 ^ 192))
      sess { ctxIn with regions := [(0, (0, 65536))] } (by decide +kernel) (by decide +kernel) (by decide +kernel)
      (by decide +kernel) (by decide +kernel) (by decide +kernel) (by unfold Asks; decide +kernel)
    replace e := e.1
    repeat replace e := e (by decide +kernel)
    replace e := e.1
    repeat replace e := e (by decide +kernel)
    exact ⟨_, e⟩

theorem wit_WindowsRegionsAndCopies_2 (h : Obligations.WindowsRegionsAndCopies) :
    (∃ t, exec (.memCopyToHost 0) (({ on with ctxs := [(0, { ctxIn with regions := [(0, (0, 65536))] })] }).mail 0
      0x23 (toLe 28 (2 ^ 8 + 256 * 2 ^ 64 + 512 * 2 ^ 128 + 16 * 2 ^ 192))) = .next t) ∧
    (∃ t, exec (.memCopyToDevice 0) (({ on with ctxs := [(0, { ctxIn with regions := [(0, (0, 65536))] })] }).mail 0
      0x23 (toLe 28 (1073741824 * 2 ^ 64 + 512 * 2 ^ 128 + 16 * 2 ^ 192))) = .next t) ∧
    (∃ t, exec (.memCopyToHost 0) (({ on with ctxs := [(0, { ctxIn with regions := [(0, (0, 65536))] })] }).mail 0
      0x23 (toLe 28 (2 ^ 8 + 1073741824 * 2 ^ 64 + 512 * 2 ^ 128 + 16 * 2 ^ 192))) = .next t) ∧
    (∃ t, exec (.memCopyComplete 0 6)
      (({ on with ctxs := [(0, { ctxIn with regions := [(0, (0, 65536))] })] }).withMbox (fun m =>
      { m with taken := [{ ch := 0, seq := 6, opcode := 0x23, payload := toLe 28 (256 * 2 ^ 64 + 512 * 2 ^ 128 + 16 * 2 ^ 192), ctx := some 0 }] }))
      = .next t) := by
  refine ⟨?_, ?_, ?_, ?_⟩
  · have e := h.2.1 (({ on with ctxs := [(0, { ctxIn with regions := [(0, (0, 65536))] })] }).mail 0 0x23 (toLe 28
      (2 ^ 8 + 256 * 2 ^ 64 + 512 * 2 ^ 128 + 16 * 2 ^ 192))) 0 0 (toLe 28 (2 ^ 8 + 256 * 2 ^ 64 + 512 * 2 ^ 128 +
      16 * 2 ^ 192)) sess { ctxIn with regions := [(0, (0, 65536))] } (by decide +kernel) (by decide +kernel)
      (by decide +kernel) (by decide +kernel) (by decide +kernel) (by decide +kernel)
      (by unfold Asks; decide +kernel)
    replace e := e.1
    repeat replace e := e (by decide +kernel)
    replace e := e.2
    repeat replace e := e (by decide +kernel)
    exact ⟨_, e⟩
  · have e := h.2.1 (({ on with ctxs := [(0, { ctxIn with regions := [(0, (0, 65536))] })] }).mail 0 0x23 (toLe 28
      (1073741824 * 2 ^ 64 + 512 * 2 ^ 128 + 16 * 2 ^ 192))) 0 0 (toLe 28 (1073741824 * 2 ^ 64 + 512 * 2 ^ 128 + 16
      * 2 ^ 192)) sess { ctxIn with regions := [(0, (0, 65536))] } (by decide +kernel) (by decide +kernel)
      (by decide +kernel) (by decide +kernel) (by decide +kernel) (by decide +kernel)
      (by unfold Asks; decide +kernel)
    replace e := e.2
    repeat replace e := e (by decide +kernel)
    replace e := e.1
    repeat replace e := e (by decide +kernel)
    exact ⟨_, e⟩
  · have e := h.2.1 (({ on with ctxs := [(0, { ctxIn with regions := [(0, (0, 65536))] })] }).mail 0 0x23 (toLe 28
      (2 ^ 8 + 1073741824 * 2 ^ 64 + 512 * 2 ^ 128 + 16 * 2 ^ 192))) 0 0 (toLe 28 (2 ^ 8 + 1073741824 * 2 ^ 64 + 512
      * 2 ^ 128 + 16 * 2 ^ 192)) sess { ctxIn with regions := [(0, (0, 65536))] } (by decide +kernel)
      (by decide +kernel) (by decide +kernel) (by decide +kernel) (by decide +kernel) (by decide +kernel)
      (by unfold Asks; decide +kernel)
    replace e := e.2
    repeat replace e := e (by decide +kernel)
    replace e := e.2
    repeat replace e := e (by decide +kernel)
    exact ⟨_, e⟩
  · have e := h.2.2 (({ on with ctxs := [(0, { ctxIn with regions := [(0, (0, 65536))] })] }).withMbox
      (fun m => { m with taken := [{ ch := 0, seq := 6, opcode := 0x23, payload := toLe 28 (256 * 2 ^ 64 + 512 * 2 ^ 128 + 16 * 2 ^ 192), ctx := some 0 }] }))
      0 6
      { ch := 0, seq := 6, opcode := 0x23, payload := toLe 28 (256 * 2 ^ 64 + 512 * 2 ^ 128 + 16 * 2 ^ 192), ctx := some 0 }
    repeat replace e := e (by decide +kernel)
    obtain ⟨t, e, -⟩ := e
    exact ⟨t, e⟩

theorem wit_LoadsBindingsAndQueues_1 (h : Obligations.LoadsBindingsAndQueues) :
    (∃ t, exec (.bundleLoad 0) (loads 0x30) = .next t) ∧
    (∃ t, exec (.lexiconLoad 0) (loads 0x31) = .next t) ∧
    (∃ t, exec (.bundleLoad 0) (loadsNot 0x30) = .next t) ∧
    (∃ t, exec (.lexiconLoad 0) (loadsLater 0x31) = .next t) ∧
    (∃ t, exec (.envelopeCheckComplete 0 6) envelope0 = .next t) ∧
    (∃ t, exec (.lexiconBind 0) ({ lexState with ctxs := [(0, { ctx0 with st := .waiting })] }.mail 0 0x32
      (toLe 64 (2 ^ 8 + 5 * 2 ^ 256))) = .next t) ∧
    (∃ t, exec (.lexiconBind 0) (lexState.mail 0 0x32 (toLe 64 (2 ^ 8 + 5 * 2 ^ 256))) = .next t) ∧
    (∃ t, exec (.lexiconBind 0) ((withCtx).mail 0 0x32 (toLe 64 (2 ^ 8 + 5 * 2 ^ 256))) = .next t) ∧
    (∃ t, exec (.lexiconBind 0) (fullLexState.mail 0 0x32 (toLe 64 (2 ^ 8 + 5 * 2 ^ 256))) = .next t) := by
  refine ⟨?_, ?_, ?_, ?_, ?_, ?_, ?_, ?_, ?_⟩
  · have e := h.1.1 (loads 0x30) 0 0 0x30 (toLe 24 (256 * 2 ^ 64 + 512 * 2 ^ 128)) sess { ctxIn with st := .empty }
      (by unfold Asks; decide +kernel) (by decide +kernel) (by decide +kernel) (⟨rfl, rfl, by decide⟩)
    repeat replace e := e (by decide +kernel)
    replace e := e.1 ((loads 0x30).gets 257 512).1 ((loads 0x30).gets 257 512).2 (by decide +kernel) (by decide +kernel)
    obtain ⟨t, e, -⟩ := e
    exact ⟨t, e⟩
  · have e := h.1.1 (loads 0x31) 0 0 0x31 (toLe 24 (256 * 2 ^ 64 + 512 * 2 ^ 128)) sess { ctxIn with st := .empty }
      (by unfold Asks; decide +kernel) (by decide +kernel) (by decide +kernel) (⟨rfl, rfl, by decide⟩)
    repeat replace e := e (by decide +kernel)
    replace e := e.1 ((loads 0x31).gets 257 512).1 ((loads 0x31).gets 257 512).2 (by decide +kernel) (by decide +kernel)
    obtain ⟨t, e, -⟩ := e
    exact ⟨t, e⟩
  · have e := h.1.1 (loadsNot 0x30) 0 0 0x30 (toLe 24 (256 * 2 ^ 64 + 2 ^ 168)) sess wideCtx
      (by unfold Asks; decide +kernel) (by decide +kernel) (by decide +kernel) (⟨rfl, rfl, by decide⟩)
    repeat replace e := e (by decide +kernel)
    replace e := e.2 (by decide +kernel)
    exact ⟨_, e⟩
  · have e := h.1.2.1 (loadsLater 0x31) 0 0 0x31 (toLe 24 (256 * 2 ^ 64 + 512 * 2 ^ 128)) sess
      { ctxIn with st := .empty } (by unfold Asks; decide +kernel) (by decide +kernel) (by decide +kernel) (⟨rfl, rfl, by decide⟩)
    repeat replace e := e (by decide +kernel)
    exact ⟨_, e⟩
  · have e := h.1.2.2.1 envelope0 0
      6 0x30 0 65536 600 { ch := 0, seq := 6, opcode := 0x30, payload := zeros 600, ctx := some 0 }
      { ctxIn with st := .empty }
    repeat replace e := e (by decide +kernel)
    obtain ⟨t, e, -⟩ := e
    exact ⟨t, e⟩
  · have e := h.1.2.2.2.2.1 ({ lexState with ctxs := [(0, { ctx0 with st := .waiting })] }.mail 0 0x32
      (toLe 64 (2 ^ 8 + 5 * 2 ^ 256))) 0 0 1 (toLe 64 (2 ^ 8 + 5 * 2 ^ 256))
      sess { ctx0 with st := .waiting } (by unfold Asks; decide +kernel)
    repeat replace e := e (by decide +kernel)
    obtain ⟨t, e, -⟩ := e
    exact ⟨t, e⟩
  · have e := h.1.2.2.2.1 (lexState.mail 0 0x32 (toLe 64 (2 ^ 8 + 5 * 2 ^ 256))) 0 0 1 (toLe 64 (2 ^ 8 + 5 * 2 ^ 256))
      sess ctx0 (by unfold Asks; decide +kernel)
    repeat replace e := e (by decide +kernel)
    exact ⟨_, e⟩
  · have e := h.1.2.2.2.2.2.1 ((withCtx).mail 0 0x32 (toLe 64 (2 ^ 8 + 5 * 2 ^ 256))) 0 0 (toLe 64 (2 ^ 8 + 5 * 2 ^
      256)) sess ctx0 (by unfold Asks; decide +kernel) (by decide +kernel) (⟨rfl, rfl, by decide⟩)
    repeat replace e := e (by decide +kernel)
    exact ⟨_, e⟩
  · have e := h.1.2.2.2.2.2.2.1 (fullLexState.mail 0 0x32 (toLe 64 (2 ^ 8 + 5 * 2 ^ 256))) 0 0 (toLe 64 (2 ^ 8 + 5 * 2 ^
      256)) sess ctx0 (by unfold Asks; decide +kernel)
    repeat replace e := e (by decide +kernel)
    exact ⟨_, e⟩

theorem wit_LoadsBindingsAndQueues_2 (h : Obligations.LoadsBindingsAndQueues) :
    (∃ t, exec (.legacyRootSet 0) ((ofCtx
      ({ ctx0 with regions := [(0, (65536, 65536))], image := some { kv := some { record := (1 + 2 ^ 16), sites := [] } } })).mail
      0 0x33 (toLe 16 (65536 * 2 ^ 64))) = .next t) ∧
    (∃ t, exec (.queueBindCq 0) ((ofCtx ctxIn).mail 0 0x40 (toLe 128 (7 + (1 + 4 * 2 ^ 8 + 4096 * 2 ^ 64 + 40 * 2 ^
      128 + 65536 * 2 ^ 192 + 16 * 2 ^ 256) * 2 ^ 512))) = .next t) ∧
    (∃ t, exec (.queueBindSq 0) (({ ofCtx ({ ctx0 with windows := [(0, lowMem)] }) with hq := [(4, cq4)] }).mail 0
      0x40 (toLe 128 (3 + (4 * 2 ^ 8 + 4 * 2 ^ 16 + 4096 * 2 ^ 64) * 2 ^ 512))) = .next t) ∧
    (∃ t, exec (if bit (4 * 2 ^ 8 + 4 * 2 ^ 16 + 4096 * 2 ^ 64) 0 = true then .queueBindCq 0 else .queueBindSq 0)
      (({ ofCtx ({ ctx0 with windows := [(0, lowMem)] }) with hq := [(3, sq3), (4, cq4)] }).mail 0 0x40 (toLe 128 (3 +
      (4 * 2 ^ 8 + 4 * 2 ^ 16 + 4096 * 2 ^ 64) * 2 ^ 512))) = .next t) := by
  refine ⟨?_, ?_, ?_, ?_⟩
  · have e := h.1.2.2.2.2.2.2.2 ((ofCtx
      ({ ctx0 with regions := [(0, (65536, 65536))], image := some { kv := some { record := (1 + 2 ^ 16), sites := [] } } })).mail
      0 0x33 (toLe 16 (65536 * 2 ^ 64))) 0 0 0 65536 (1 + 2 ^ 16) (toLe 16 (65536 * 2 ^ 64)) sess
      { ctx0 with regions := [(0, (65536, 65536))], image := some { kv := some { record := (1 + 2 ^ 16), sites := [] } } }
      (by unfold Asks; decide +kernel) (by decide +kernel) (⟨rfl, rfl, by decide⟩)
    repeat replace e := e (by decide +kernel)
    exact ⟨_, e⟩
  · have e := h.2.1 ((ofCtx ctxIn).mail 0 0x40 (toLe 128 (7 + (1 + 4 * 2 ^ 8 + 4096 * 2 ^ 64 + 40 * 2 ^ 128 + 65536
      * 2 ^ 192 + 16 * 2 ^ 256) * 2 ^ 512))) 0 0 7 (1 + 4 * 2 ^ 8 + 4096 * 2 ^ 64 + 40 * 2 ^ 128 + 65536 * 2 ^ 192 +
      16 * 2 ^ 256) (toLe 128 (7 + (1 + 4 * 2 ^ 8 + 4096 * 2 ^ 64 + 40 * 2 ^ 128 + 65536 * 2 ^ 192 + 16 * 2 ^ 256) *
      2 ^ 512)) sess ctxIn (by unfold Asks; decide +kernel)
    repeat replace e := e (by decide +kernel)
    exact ⟨_, e⟩
  · have e := h.2.2.1 (({ ofCtx ({ ctx0 with windows := [(0, lowMem)] }) with hq := [(4, cq4)] }).mail 0 0x40 (toLe
      128 (3 + (4 * 2 ^ 8 + 4 * 2 ^ 16 + 4096 * 2 ^ 64) * 2 ^ 512))) 0 0 3 (4 * 2 ^ 8 + 4 * 2 ^ 16 + 4096 * 2 ^ 64)
      (toLe 128 (3 + (4 * 2 ^ 8 + 4 * 2 ^ 16 + 4096 * 2 ^ 64) * 2 ^ 512)) sess
      { ctx0 with windows := [(0, lowMem)] } cq4 (by unfold Asks; decide +kernel)
    repeat replace e := e (by decide +kernel)
    exact ⟨_, e⟩
  · have e := h.2.2.2.1 (({ ofCtx ({ ctx0 with windows := [(0, lowMem)] }) with hq := [(3, sq3), (4, cq4)] }).mail 0
      0x40 (toLe 128 (3 + (4 * 2 ^ 8 + 4 * 2 ^ 16 + 4096 * 2 ^ 64) * 2 ^ 512))) 0 0 3 (4 * 2 ^ 8 + 4 * 2 ^ 16 + 4096
      * 2 ^ 64) (toLe 128 (3 + (4 * 2 ^ 8 + 4 * 2 ^ 16 + 4096 * 2 ^ 64) * 2 ^ 512)) sess
      { ctx0 with windows := [(0, lowMem)] } sq3 (by unfold Asks; decide +kernel)
    repeat replace e := e (by decide +kernel)
    exact ⟨_, e⟩

theorem wit_LoadsBindingsAndQueues_3 (h : Obligations.LoadsBindingsAndQueues) :
    (∃ t, exec (.queueUnbind 0) (({ withCtx with hq := [(3, sq3)] }).mail 0 0x41 (toLe 8 3)) = .next t) ∧
    (∃ t, exec (.queueUnbind 0)
      (({ withCtx with hq := [(3, { sq3 with outst := [{ no := 0, acc := 0, word := 4, time := 0 }] })] }).mail 0 0x41
      (toLe 8 3)) = .next t) ∧
    (∃ t, exec (.textStreamOpen 0) ((withCtx).mail 0 0x42 (toLe 8 (6 * 2 ^ 8))) = .next t) ∧
    (∃ t, exec (.textStreamClose 0)
      (({ withCtx with text := { streams := [(6, { ctx := 0, jobs := [{ sq := 3, desc := 0, no := 0 }] })] } }).mail 0 0x43
      (toLe 8 (6 * 2 ^ 8))) = .next t) := by
  refine ⟨?_, ?_, ?_, ?_⟩
  · have e := h.2.2.2.2.1 (({ withCtx with hq := [(3, sq3)] }).mail 0 0x41 (toLe 8 3)) 0 3 (toLe 8 3) sess sq3 ctx0
      (by unfold Asks; decide +kernel)
    repeat replace e := e (by decide +kernel)
    exact ⟨_, e⟩
  · have e := h.2.2.2.2.2.1
      (({ withCtx with hq := [(3, { sq3 with outst := [{ no := 0, acc := 0, word := 4, time := 0 }] })] }).mail 0
      0x41 (toLe 8 3)) 0 3 (toLe 8 3) sess { sq3 with outst := [{ no := 0, acc := 0, word := 4, time := 0 }] } ctx0
      { no := 0, acc := 0, word := 4, time := 0 } (by unfold Asks; decide +kernel)
    repeat replace e := e (by decide +kernel)
    exact ⟨_, e⟩
  · have e := h.2.2.2.2.2.2.1 ((withCtx).mail 0 0x42 (toLe 8 (6 * 2 ^ 8))) 0 0 6 (toLe 8 (6 * 2 ^ 8)) sess ctx0 (by unfold Asks; decide +kernel)
    repeat replace e := e (by decide +kernel)
    exact ⟨_, e⟩
  · have e := h.2.2.2.2.2.2.2
      (({ withCtx with text := { streams := [(6, { ctx := 0, jobs := [{ sq := 3, desc := 0, no := 0 }] })] } }).mail
      0 0x43 (toLe 8 (6 * 2 ^ 8))) 0 6 (toLe 8 (6 * 2 ^ 8)) sess
      { ctx := 0, jobs := [{ sq := 3, desc := 0, no := 0 }] } ctx0 (by unfold Asks; decide +kernel)
    repeat replace e := e (by decide +kernel)
    exact ⟨_, e⟩

theorem wit_PortsBoundAndConfigured_1 (h : Obligations.PortsBoundAndConfigured) :
    (∃ t, exec (.portBind 0) (({ withCtx with hq := [(4, cq4)] }).mail 0 0x50 (toLe 8 (4 * 2 ^ 32))) = .next t) ∧
    (∃ t, exec (.portBind 0) (({ withCtx with hq := [(4, cq4)], ports := [(0, { ctx := some 0 })] }).mail 0 0x50 (toLe
      8 (4 * 2 ^ 32))) = .next t) ∧
    (∃ t, exec (.portBind 0) (otherPort.mail 0 0x50 (toLe 8 (4 * 2 ^ 32))) = .next t) ∧
    (∃ t, exec (.portUnbind 0) ((withPort port0).mail 0 0x50 (toLe 8 (2 ^ 48))) = .next t) ∧
    (∃ t, exec (.portUnbind 0) ((withPort { port0 with pages := [page0] }).mail 0 0x50 (toLe 8 (2 ^ 48))) = .next t) := by
  refine ⟨?_, ?_, ?_, ?_, ?_⟩
  · have e := h.1.1 (({ withCtx with hq := [(4, cq4)] }).mail 0 0x50 (toLe 8 (4 * 2 ^ 32))) 0 0 0 4 (toLe 8 (4 * 2 ^
      32)) sess ctx0 cq4 (by unfold Asks; decide +kernel) (⟨rfl, rfl, by decide⟩)
    repeat replace e := e (by decide +kernel)
    obtain ⟨t, e, -⟩ := e
    exact ⟨t, e⟩
  · have e := h.1.2.1 (({ withCtx with hq := [(4, cq4)], ports := [(0, { ctx := some 0 })] }).mail 0 0x50 (toLe 8 (4
      * 2 ^ 32))) 0 0 0 4 (toLe 8 (4 * 2 ^ 32)) sess ctx0 cq4 0 (by unfold Asks; decide +kernel)
      (⟨rfl, rfl, by decide⟩)
    repeat replace e := e (by decide +kernel)
    replace e := e.1 ⟨ctx0, rfl, rfl, by decide⟩
    exact ⟨_, e⟩
  · have e := h.1.2.1 (otherPort.mail 0 0x50 (toLe 8 (4 * 2 ^ 32))) 0 0 0 4 (toLe 8 (4 * 2 ^ 32)) sess ctx0 cq4 1
      (by unfold Asks; decide +kernel) (⟨rfl, rfl, by decide⟩)
    repeat replace e := e (by decide +kernel)
    replace e := e.2 (by intro y hy; cases hy; decide)
    exact ⟨_, e⟩
  · have e := h.1.2.2.1 ((withPort port0).mail 0 0x50 (toLe 8 (2 ^ 48))) 0 0 0 (toLe 8 (2 ^ 48)) sess
      { ctx0 with windows := [(0, lowMem)] } (by unfold Asks; decide +kernel) (⟨rfl, rfl, by decide⟩)
    repeat replace e := e (by decide +kernel)
    obtain ⟨t, e, -⟩ := e
    exact ⟨t, e⟩
  · have e := h.1.2.2.2 ((withPort { port0 with pages := [page0] }).mail 0 0x50 (toLe 8 (2 ^ 48))) 0 0 0 (toLe 8 (2
      ^ 48)) sess { ctx0 with windows := [(0, lowMem)] } (by unfold Asks; decide +kernel) (⟨rfl, rfl, by decide⟩)
    repeat replace e := e (by decide +kernel)
    exact ⟨_, e⟩

theorem wit_PortsBoundAndConfigured_2 (h : Obligations.PortsBoundAndConfigured) :
    (∃ t, exec (.portConfig 0) ((withPort port0).mail 0 0x51 (toLe 16 (8192 * 2 ^ 64))) = .next t) ∧
    (∃ t, exec (.portConfig 0)
      (({ withPort port0 with ports := [(0, port0), (1, { port0 with quota := 1536 })] }).mail 0 0x51 (toLe 16 (4096 *
      2 ^ 64))) = .next t) ∧
    (∃ t, exec (.portConfig 0) (cfgState port0) = .next t) ∧
    (∃ t, exec (.portConfig 0) (cfgState { port0 with page := some page0 }) = .next t) := by
  refine ⟨?_, ?_, ?_, ?_⟩
  · have e := h.2.1 ((withPort port0).mail 0 0x51 (toLe 16 (8192 * 2 ^ 64))) 0 0 0 (toLe 16 (8192 * 2 ^ 64)) sess
      { ctx0 with windows := [(0, lowMem)] }
      (⟨by unfold Asks; decide +kernel, ⟨rfl, rfl, by decide⟩, by decide +kernel, by decide +kernel, rfl, rfl⟩)
      (by decide +kernel)
    exact ⟨_, e⟩
  · have e := h.2.2.1 (({ withPort port0 with ports := [(0, port0), (1, { port0 with quota := 1536 })] }).mail 0 0x51
      (toLe 16 (4096 * 2 ^ 64))) 0 0 0 (toLe 16 (4096 * 2 ^ 64)) sess { ctx0 with windows := [(0, lowMem)] }
      (⟨by unfold Asks; decide +kernel, ⟨rfl, rfl, by decide⟩, by decide +kernel, by decide +kernel, rfl, rfl⟩)
      (by decide +kernel)
      (by change PortCfg.formatOk (parsePortCfg (memBytes portMem (pf (toLe 16 (4096 * 2 ^ 64)) 127 64) 1024)) 0 = true; rw [cfg1_at _ (by decide +kernel)]; decide +kernel)
      (by decide +kernel)
      (by change State.quotaFits (({ withPort port0 with ports := [(0, port0), (1, { port0 with quota := 1536 })] }).mail 0 0x51 (toLe 16 (4096 * 2 ^ 64))) 0 (parsePortCfg (memBytes portMem (pf (toLe 16 (4096 * 2 ^ 64)) 127 64) 1024)) = false; rw [cfg1_at _ (by decide +kernel)]; decide +kernel)
    exact ⟨_, e⟩
  · obtain ⟨t, e, -⟩ := h.2.2.2.1 (cfgState port0) (((cfgState port0).reserveFor 0 0 2).getD (on, [])).1
      (((cfgState port0).reserveFor 0 0 2).getD (on, [])).2 0 0 0
      (toLe 16 (4096 * 2 ^ 64)) sess ctxCfg
      (⟨by unfold Asks; decide +kernel, ⟨rfl, rfl, by decide⟩, by decide +kernel, by decide +kernel, rfl, rfl⟩)
      (by decide +kernel)
      (by change PortCfg.formatOk (parsePortCfg (memBytes portMem (pf (toLe 16 (4096 * 2 ^ 64)) 127 64) 1024)) 0 = true; rw [cfg1_at _ (by decide +kernel)]; decide +kernel)
      (by decide +kernel)
      (by change State.quotaFits (cfgState port0) 0 (parsePortCfg (memBytes portMem (pf (toLe 16 (4096 * 2 ^ 64)) 127 64) 1024)) = true; rw [cfg1_at _ (by decide +kernel)]; decide +kernel)
      (by decide +kernel) (by decide +kernel)
      (by change State.reserveFor _ 0 0 (PortCfg.storeMib (parsePortCfg (memBytes portMem (pf (toLe 16 (4096 * 2 ^ 64)) 127 64) 1024))) = _; rw [cfg1_at _ (by decide +kernel)]; decide +kernel)
    exact ⟨t, e⟩
  · have e := h.2.2.2.2 (cfgState { port0 with page := some page0 }) (((cfgState { port0 with page := some page0 }).reserveFor 0 0 2).getD (on, [])).1
      (((cfgState { port0 with page := some page0 }).reserveFor 0 0 2).getD (on, [])).2 0 0 0
      (toLe 16 (4096 * 2 ^ 64)) sess ctxCfg page0
      (⟨by unfold Asks; decide +kernel, ⟨rfl, rfl, by decide⟩, by decide +kernel, by decide +kernel, rfl, rfl⟩)
      (by decide +kernel)
      (by change PortCfg.formatOk (parsePortCfg (memBytes portMem (pf (toLe 16 (4096 * 2 ^ 64)) 127 64) 1024)) 0 = true; rw [cfg1_at _ (by decide +kernel)]; decide +kernel)
      (by decide +kernel)
      (by change State.quotaFits (cfgState { port0 with page := some page0 }) 0 (parsePortCfg (memBytes portMem (pf (toLe 16 (4096 * 2 ^ 64)) 127 64) 1024)) = true; rw [cfg1_at _ (by decide +kernel)]; decide +kernel)
      (by decide +kernel) (by decide +kernel)
      (by change State.reserveFor _ 0 0 (PortCfg.storeMib (parsePortCfg (memBytes portMem (pf (toLe 16 (4096 * 2 ^ 64)) 127 64) 1024))) = _; rw [cfg1_at _ (by decide +kernel)]; decide +kernel)
    exact ⟨_, e⟩

theorem wit_CapturesAndCalibrations_1 (h : Obligations.CapturesAndCalibrations) :
    (∃ t, exec (.captureStart 0) ((withPort port0).mail 0 0x52 ([0, 0, 0, 0, 0, 0, 0, 0])) = .next t) ∧
    (∃ t, exec (.captureStart 0) ((withPort { port0 with st := .off }).mail 0 0x52 ([0, 0, 0, 0, 0, 0, 0, 0])) = .next
      t) ∧
    (∃ t, exec (.captureStop 0) ((withPort port0).mail 0 0x53 ([0, 0, 0, 0, 0, 0, 0, 0])) = .next t) ∧
    (∃ t, exec (.captureStop 0) ((withPort { port0 with st := .capturing, page := some page0 }).mail 0 0x53 ([0, 0, 0,
      0, 0, 0, 0, 0])) = .next t) ∧
    (∃ t, exec (.captureStop 0) ((withPort { port0 with st := .capturing }).mail 0 0x53 ([0, 0, 0, 0, 0, 0, 0, 0])) =
      .next t) := by
  refine ⟨?_, ?_, ?_, ?_, ?_⟩
  · replace e := h.1 ((withPort port0).mail 0 0x52 ([0, 0, 0, 0, 0, 0, 0, 0])) 0 0 ([0, 0, 0, 0, 0, 0, 0, 0]) sess
      { ctx0 with windows := [(0, lowMem)] } (by unfold Asks; decide +kernel) (by decide +kernel)
      (by decide +kernel) (⟨0, rfl, rfl, rfl, by decide⟩) (by decide +kernel) (by decide +kernel)
    obtain ⟨t, e, -⟩ := e
    exact ⟨t, e⟩
  · replace e := h.2.1 ((withPort { port0 with st := .off }).mail 0 0x52 ([0, 0, 0, 0, 0, 0, 0, 0])) 0 0 ([0, 0, 0,
      0, 0, 0, 0, 0]) sess { ctx0 with windows := [(0, lowMem)] } (by unfold Asks; decide +kernel)
      (by decide +kernel) (by decide +kernel) (⟨0, rfl, rfl, rfl, by decide⟩) (by decide +kernel)
    exact ⟨_, e⟩
  · replace e := h.2.2.1 ((withPort port0).mail 0 0x53 ([0, 0, 0, 0, 0, 0, 0, 0])) 0 0 ([0, 0, 0, 0, 0, 0, 0, 0])
      sess { ctx0 with windows := [(0, lowMem)] } (by unfold Asks; decide +kernel) (by decide +kernel)
      (by decide +kernel) (⟨0, rfl, rfl, rfl, by decide⟩) (by decide +kernel) (by decide +kernel)
    exact ⟨_, e⟩
  · have e := h.2.2.2.1 ((withPort { port0 with st := .capturing, page := some page0 }).mail 0 0x53 ([0, 0, 0, 0, 0,
      0, 0, 0])) 0 0 ([0, 0, 0, 0, 0, 0, 0, 0]) sess { ctx0 with windows := [(0, lowMem)] } page0
      (by unfold Asks; decide +kernel) (by decide +kernel) (by decide +kernel) (⟨0, rfl, rfl, rfl, by decide⟩)
    repeat replace e := e (by decide +kernel)
    exact ⟨_, e⟩
  · have e := h.2.2.2.2.1 ((withPort { port0 with st := .capturing }).mail 0 0x53 ([0, 0, 0, 0, 0, 0, 0, 0])) 0 0
      ([0, 0, 0, 0, 0, 0, 0, 0]) sess { ctx0 with windows := [(0, lowMem)] } (by unfold Asks; decide +kernel)
      (by decide +kernel) (by decide +kernel) (⟨0, rfl, rfl, rfl, by decide⟩)
    repeat replace e := e (by decide +kernel)
    obtain ⟨t, e, -⟩ := e
    exact ⟨t, e⟩

theorem wit_CapturesAndCalibrations_2 (h : Obligations.CapturesAndCalibrations) :
    (∃ t, exec (.calibrateWhite 0) ((withPort port0).mail 0 0x54 (toLe 8 (2 ^ 8 + 3 * 2 ^ 16 + 49152 * 2 ^ 32))) = .next
      t) ∧
    (∃ t, exec (.calibrateDark 0) ((withPort port0).mail 0 0x54 (toLe 8 (3 * 2 ^ 16))) = .next t) ∧
    (∃ t, exec (.calibrateWhite 0) ((withPort { port0 with st := .capturing }).mail 0 0x54 (toLe 8 (2 ^ 8 + 3 * 2 ^ 16 +
      49152 * 2 ^ 32))) = .next t) ∧
    (∃ t, exec (.calibrateDark 0) ((withPort { port0 with st := .capturing }).mail 0 0x54 (toLe 8 (3 * 2 ^ 16))) = .next
      t) ∧
    (∃ t, exec (.calibTableLoadDark 0) ((withPort port0).mail 0 0x55 (toLe 16 (4096 * 2 ^ 64))) = .next t) ∧
    (∃ t, exec (.calibTableLoadGain 0) ((withPort port0).mail 0 0x55 (toLe 16 (2 ^ 8 + 4096 * 2 ^ 64))) = .next t) := by
  refine ⟨?_, ?_, ?_, ?_, ?_, ?_⟩
  · have e := h.2.2.2.2.2.1 ((withPort port0).mail 0 0x54 (toLe 8 (2 ^ 8 + 3 * 2 ^ 16 + 49152 * 2 ^ 32))) 0 0 (toLe
      8 (2 ^ 8 + 3 * 2 ^ 16 + 49152 * 2 ^ 32)) sess { ctx0 with windows := [(0, lowMem)] }
      (by unfold Asks; decide +kernel) (by decide +kernel) (by decide +kernel) (⟨0, rfl, rfl, rfl, by decide⟩)
    replace e := (e.1 rfl (by decide +kernel)).2 (by decide +kernel)
    exact ⟨_, e⟩
  · have e := h.2.2.2.2.2.1 ((withPort port0).mail 0 0x54 (toLe 8 (3 * 2 ^ 16))) 0 0 (toLe 8 (3 * 2 ^ 16)) sess
      { ctx0 with windows := [(0, lowMem)] } (by unfold Asks; decide +kernel) (by decide +kernel)
      (by decide +kernel) (⟨0, rfl, rfl, rfl, by decide⟩)
    replace e := (e.1 rfl (by decide +kernel)).1 (by decide +kernel)
    exact ⟨_, e⟩
  · have e := h.2.2.2.2.2.1 ((withPort { port0 with st := .capturing }).mail 0 0x54 (toLe 8 (2 ^ 8 + 3 * 2 ^ 16 +
      49152 * 2 ^ 32))) 0 0 (toLe 8 (2 ^ 8 + 3 * 2 ^ 16 + 49152 * 2 ^ 32)) sess
      { ctx0 with windows := [(0, lowMem)] } (by unfold Asks; decide +kernel) (by decide +kernel)
      (by decide +kernel) (⟨0, rfl, rfl, rfl, by decide⟩)
    replace e := (e.2 (by decide +kernel)).2 (by decide +kernel)
    exact ⟨_, e⟩
  · have e := h.2.2.2.2.2.1 ((withPort { port0 with st := .capturing }).mail 0 0x54 (toLe 8 (3 * 2 ^ 16))) 0 0 (toLe
      8 (3 * 2 ^ 16)) sess { ctx0 with windows := [(0, lowMem)] } (by unfold Asks; decide +kernel)
      (by decide +kernel) (by decide +kernel) (⟨0, rfl, rfl, rfl, by decide⟩)
    replace e := (e.2 (by decide +kernel)).1 (by decide +kernel)
    exact ⟨_, e⟩
  · have e := (h.2.2.2.2.2.2 ((withPort port0).mail 0 0x55 (toLe 16 (4096 * 2 ^ 64))) 0 0 (toLe 16 (4096 * 2 ^ 64))
      sess { ctx0 with windows := [(0, lowMem)] } cfg1 (by unfold Asks; decide +kernel) (by decide +kernel)
      (by decide +kernel) (⟨0, rfl, rfl, rfl, by decide⟩) (by decide +kernel) (by decide +kernel)
      (by decide +kernel)).1 (by decide +kernel)
    exact ⟨_, e⟩
  · have e := (h.2.2.2.2.2.2 ((withPort port0).mail 0 0x55 (toLe 16 (2 ^ 8 + 4096 * 2 ^ 64))) 0 0 (toLe 16 (2 ^ 8 +
      4096 * 2 ^ 64)) sess { ctx0 with windows := [(0, lowMem)] } cfg1 (by unfold Asks; decide +kernel)
      (by decide +kernel) (by decide +kernel) (⟨0, rfl, rfl, rfl, by decide⟩) (by decide +kernel)
      (by decide +kernel) (by decide +kernel)).2 (by decide +kernel)
    exact ⟨_, e⟩

theorem wit_StreamsProfilesAndTlb_1 (h : Obligations.StreamsProfilesAndTlb) :
    (∃ t, exec (.streamBind 0) ((ofCtx ({ ctx0 with params := 1 })).mail 0 0x56 (toLe 128 ((16 * 2 ^ 32 + 16 * 2 ^ 48)
      * 2 ^ 512))) = .next t) ∧
    (∃ t, exec (.streamUnbind 0)
      (({ withCtx with intake := { streams := [(0, { record := (16 * 2 ^ 32 + 16 * 2 ^ 48), ctx := 0, cq := 0 })] } }).mail
      0 0x57 ([0, 0, 0, 0, 0, 0, 0, 0])) = .next t) ∧
    (∃ t, exec (.primerProfileSet 0) ((ofCtx ({ ctx0 with params := 1 })).mail 0 0x58 (toLe 256
      (80346902212949513777098104617058130145453257951160362889904146 * 2 ^ 512 + 18446744073709617153 * 2 ^ 1024))) =
      .next t) := by
  refine ⟨?_, ?_, ?_⟩
  · have e := h.1.1 ((ofCtx ({ ctx0 with params := 1 })).mail 0 0x56 (toLe 128 ((16 * 2 ^ 32 + 16 * 2 ^ 48) * 2 ^
      512))) (((((ofCtx ({ ctx0 with params := 1 })).mail 0 0x56 (toLe 128 ((16 * 2 ^ 32 + 16 * 2 ^ 48) * 2 ^
      512))).lpAlloc 1 (streamBytes (16 * 2 ^ 32 + 16 * 2 ^ 48))).getD (0, on)).2) 0 0 0 (16 * 2 ^ 32 + 16 * 2 ^ 48)
      (((((ofCtx ({ ctx0 with params := 1 })).mail 0 0x56 (toLe 128 ((16 * 2 ^ 32 + 16 * 2 ^ 48) * 2 ^
      512))).lpAlloc 1 (streamBytes (16 * 2 ^ 32 + 16 * 2 ^ 48))).getD (0, on)).1) (toLe 128 ((16 * 2 ^ 32 + 16 * 2
      ^ 48) * 2 ^ 512)) sess { ctx0 with params := 1 } (by unfold Asks; decide +kernel) (⟨rfl, rfl, by decide⟩)
    repeat replace e := e (by decide +kernel)
    exact ⟨_, e⟩
  · have e := h.1.2.1
      (({ withCtx with intake := { streams := [(0, { record := (16 * 2 ^ 32 + 16 * 2 ^ 48), ctx := 0, cq := 0 })] } }).mail
      0 0x57 ([0, 0, 0, 0, 0, 0, 0, 0])) 0 0 ([0, 0, 0, 0, 0, 0, 0, 0]) sess
      { record := (16 * 2 ^ 32 + 16 * 2 ^ 48), ctx := 0, cq := 0 } ctx0 (by unfold Asks; decide +kernel)
    repeat replace e := e (by decide +kernel)
    exact ⟨_, e⟩
  · have e := h.1.2.2.1 ((ofCtx ({ ctx0 with params := 1 })).mail 0 0x58 (toLe 256
      (80346902212949513777098104617058130145453257951160362889904146 * 2 ^ 512 + 18446744073709617153 * 2 ^ 1024)))
      0 0 (toLe 256 (80346902212949513777098104617058130145453257951160362889904146 * 2 ^ 512 + 18446744073709617153
      * 2 ^ 1024)) sess { ctx0 with params := 1 } (by unfold Asks; decide +kernel) (⟨rfl, rfl, by decide⟩)
    repeat replace e := e (by decide +kernel)
    obtain ⟨t, e, -⟩ := e
    exact ⟨t, e⟩

theorem wit_StreamsProfilesAndTlb_2 (h : Obligations.StreamsProfilesAndTlb) :
    (∃ t, exec (.primerProfileSet 0) ((ofCtx ({ ctx0 with params := 1 })).mail 0 0x58 (zeros 256)) = .next t) ∧
    (∃ t, exec (.kvTlbInvalidateContext 0) ((ofCtx tlbCtx).mail 0 0x60 (toLe 16 0)) = .next t) ∧
    (∃ t, exec (.kvTlbInvalidateSite 0) ((ofCtx tlbCtx).mail 0 0x60 (toLe 16 (2 ^ 8 + 2 ^ 16))) = .next t) ∧
    (∃ t, exec (.kvTlbInvalidateRange 0) ((ofCtx tlbCtx).mail 0 0x60 (toLe 16 (2 * 2 ^ 8 + 3 * 2 ^ 32 + 9 * 2 ^ 64))) = .next
      t) ∧
    (∃ t, exec (.kvTlbInvalidateSite 0) ((tlbStep).mail 0 0x60 (toLe 16 (2 ^ 8 + 2 ^ 16))) = .next t) := by
  refine ⟨?_, ?_, ?_, ?_, ?_⟩
  · have e := h.1.2.2.2 ((ofCtx ({ ctx0 with params := 1 })).mail 0 0x58 (zeros 256)) 0 0 (zeros 256) sess
      { ctx0 with params := 1 } (by unfold Asks; decide +kernel) (⟨rfl, rfl, by decide⟩)
    repeat replace e := e (by decide +kernel)
    exact ⟨_, e⟩
  · obtain ⟨t, e, -⟩ := h.2.1 ((ofCtx tlbCtx).mail 0 0x60 (toLe 16 (0))) 0 0 0 (toLe 16 (0)) sess tlbCtx
      (⟨by unfold Asks; decide +kernel, by decide +kernel, by decide +kernel, by decide, by decide +kernel, by decide +kernel, by decide +kernel, by decide +kernel, Or.inl rfl, by decide, by decide⟩)
      (by decide +kernel) (by decide +kernel)
    exact ⟨t, e.1 rfl⟩
  · obtain ⟨t, e, -⟩ := h.2.1 ((ofCtx tlbCtx).mail 0 0x60 (toLe 16 (2 ^ 8 + 2 ^ 16))) 0 0 1 (toLe 16 (2 ^ 8 + 2 ^
      16)) sess tlbCtx
      (⟨by unfold Asks; decide +kernel, by decide +kernel, by decide +kernel, by decide, by decide +kernel, by decide +kernel, by decide +kernel, by decide +kernel, Or.inr ⟨_, rfl, by decide +kernel⟩, by decide, by decide⟩)
      (by decide +kernel) (by decide +kernel)
    exact ⟨t, e.2.1 rfl⟩
  · obtain ⟨t, e, -⟩ := h.2.1 ((ofCtx tlbCtx).mail 0 0x60 (toLe 16 (2 * 2 ^ 8 + 3 * 2 ^ 32 + 9 * 2 ^ 64))) 0 0 2
      (toLe 16 (2 * 2 ^ 8 + 3 * 2 ^ 32 + 9 * 2 ^ 64)) sess tlbCtx
      (⟨by unfold Asks; decide +kernel, by decide +kernel, by decide +kernel, by decide, by decide +kernel, by decide +kernel, by decide +kernel, by decide +kernel, Or.inr ⟨_, rfl, by decide +kernel⟩, by decide, by decide⟩)
      (by decide +kernel) (by decide +kernel)
    exact ⟨t, e.2.2 rfl⟩
  · obtain ⟨t, e, -⟩ := h.2.2 ((tlbStep).mail 0 0x60 (toLe 16 (2 ^ 8 + 2 ^ 16))) 0 0 1 (toLe 16 (2 ^ 8 + 2 ^ 16))
      sess { tlbCtx with busy := true }
      (⟨by unfold Asks; decide +kernel, by decide +kernel, by decide +kernel, by decide, by decide +kernel, by decide +kernel, by decide +kernel, by decide +kernel, Or.inr ⟨_, rfl, by decide +kernel⟩, by decide, by decide⟩)
      (by decide +kernel)
    exact ⟨t, e.2.1 rfl⟩

theorem wit_CountersAndReports (h : Obligations.CountersAndReports) :
    (∃ t, exec (.counterQueryContext 0) ((withCtx).mail 0 0x70 (toLe 5 (2 ^ 16 + 96 * 2 ^ 32))) = .next t) ∧
    (∃ t, exec (.counterQueryPort 0) ((withPort port0).mail 0 0x70 (toLe 5 (1 + 2 ^ 16 + 80 * 2 ^ 32))) = .next t) ∧
    (∃ t, exec (.outstandingReport 0) ((on).mail 0 0x71 (toLe 8 1)) = .next t) ∧
    (∃ t, exec (.outstandingReport 0) (({ on with err := { frozen := true } }).mail 0 0x71 (toLe 8 1)) = .next t) ∧
    (∃ t, exec (.outstandingReport 0) (carries0.mail 0 0x71 (toLe 8 1)) = .next t) ∧
    (∃ t, exec (.carryAreaWritten) ({ on with err := { frozen := true } }) = .next t) := by
  refine ⟨?_, ?_, ?_, ?_, ?_, ?_⟩
  · have e := h.1 ((withCtx).mail 0 0x70 (toLe 5 (2 ^ 16 + 96 * 2 ^ 32))) 0 0 (toLe 5 (2 ^ 16 + 96 * 2 ^ 32)) sess
      ctx0 (by unfold Asks; decide +kernel)
    repeat replace e := e (by decide +kernel)
    exact ⟨_, e⟩
  · have e := h.2.1 ((withPort port0).mail 0 0x70 (toLe 5 (1 + 2 ^ 16 + 80 * 2 ^ 32))) 0 0 0 (toLe 5 (1 + 2 ^ 16 +
      80 * 2 ^ 32)) sess { ctx0 with windows := [(0, lowMem)] } (by unfold Asks; decide +kernel)
    repeat replace e := e (by decide +kernel)
    exact ⟨_, e⟩
  · have e := h.2.2.1 ((on).mail 0 0x71 (toLe 8 1)) 0 (toLe 8 1) sess (by unfold Asks; decide +kernel)
      (by decide +kernel) (by decide +kernel)
    exact ⟨_, e⟩
  · have e := h.2.2.2.2.1 (({ on with err := { frozen := true } }).mail 0 0x71 (toLe 8 1)) 0 (toLe 8 1) sess
      (by unfold Asks; decide +kernel)
    repeat replace e := e (by decide +kernel)
    exact ⟨_, e⟩
  · have e := h.2.2.2.1 (carries0.mail 0 0x71 (toLe 8 1)) 0 (toLe 8 1) sess (by unfold Asks; decide +kernel)
    repeat replace e := e (by decide +kernel)
    exact ⟨_, e⟩
  · have e := h.2.2.2.2.2 { on with err := { frozen := true } }
    repeat replace e := e (by decide +kernel)
    obtain ⟨t, e, -⟩ := e
    exact ⟨t, e⟩

theorem wit_LinksTrainAndRetrain (h : Obligations.LinksTrainAndRetrain) :
    (∃ t, exec (.stretcherLinkTrainingComplete 0
      { lanesOk := true, minVer := 0, maxVer := 1, uid := 9, identity := [4], owner := [5] }) on = .next t) ∧
    (∃ t, exec (.stretcherLinkTrainingComplete 0
      { lanesOk := false, minVer := 0, maxVer := 1, uid := 9, identity := [4], owner := [5] }) on = .next t) ∧
    (∃ t, exec (.linkRetrain 1) (withJob job5 ctx0) = .next t) ∧
    (∃ t, exec (.creditReturn 1 2) (retrains []) = .next t) ∧
    (∃ t, exec (.linkRetrainComplete 1 true) (retrains []) = .next t) ∧
    (∃ t, exec (.linkRetrainComplete 1 true) (retrains [.creditReturn 1 2]) = .next t) ∧
    (∃ t, exec (.linkRetrainComplete 1 false) (retrains []) = .next t) := by
  refine ⟨?_, ?_, ?_, ?_, ?_, ?_, ?_⟩
  · have e := h.1 on 0 { lanesOk := true, minVer := 0, maxVer := 1, uid := 9, identity := [4], owner := [5] }
    repeat replace e := e (by decide +kernel)
    obtain ⟨t, e, -⟩ := e
    exact ⟨t, e⟩
  · have e := h.2.1 on 0 { lanesOk := false, minVer := 0, maxVer := 1, uid := 9, identity := [4], owner := [5] }
      (by decide +kernel)
    exact ⟨_, e⟩
  · have e := h.2.2.1 (withJob job5 ctx0) 1
    repeat replace e := e (by decide +kernel)
    obtain ⟨t, e, -⟩ := e
    exact ⟨t, e⟩
  · have e := h.2.2.2.1 (retrains []) 1 2
    repeat replace e := e (by decide +kernel)
    exact ⟨_, e⟩
  · have e := h.2.2.2.2.1 (retrains []) 1
    repeat replace e := e (by decide +kernel)
    obtain ⟨t, e, -⟩ := e
    exact ⟨t, e⟩
  · have e := h.2.2.2.2.2.1 (retrains [.creditReturn 1 2]) 1 2
    repeat replace e := e (by decide +kernel)
    obtain ⟨t, e, -⟩ := e
    exact ⟨t, e⟩
  · have e := h.2.2.2.2.2.2 (retrains []) 1
    repeat replace e := e (by decide +kernel)
    obtain ⟨t, e, -⟩ := e
    exact ⟨t, e⟩

theorem wit_RingsAndRingJobsSetUp_1 (h : Obligations.RingsAndRingJobsSetUp) :
    (∃ t, exec (.ringDiscoveryFlit 1 { origin := 0, hops := 2 }) linked = .next t) ∧
    (∃ t, exec (.ringDiscoveryFlit 1 { origin := 8, hops := 2 }) linked = .next t) ∧
    (∃ t, exec (.ringDiscoveryFlit 1 { origin := 8, hops := 7 }) linked = .next t) ∧
    (∃ t, exec (.jobConfirmFlit 1
      { origin := 8, hops := 0, job := 5, n := 3, index := 0, cls := 0, maxBlock := 64, shard := [], owner := toLe 64 0, agree := true })
      linked = .next t) := by
  refine ⟨?_, ?_, ?_, ?_⟩
  · have e := h.1.1 linked { origin := 0, hops := 2 }
    repeat replace e := e (by decide +kernel)
    exact ⟨_, e⟩
  · have e := h.1.2.1 linked { origin := 8, hops := 2 }
    repeat replace e := e (by decide +kernel)
    exact ⟨_, e⟩
  · have e := h.1.2.2.1 linked { origin := 8, hops := 7 }
    repeat replace e := e (by decide +kernel)
    exact ⟨_, e⟩
  · have e := h.1.2.2.2.1 linked
      { origin := 8, hops := 0, job := 5, n := 3, index := 0, cls := 0, maxBlock := 64, shard := [], owner := toLe 64 0, agree := true }
    repeat replace e := e (by decide +kernel)
    exact ⟨_, e⟩

theorem wit_RingsAndRingJobsSetUp_2 (h : Obligations.RingsAndRingJobsSetUp) :
    (∃ t, exec (.jobConfirmFlit 1
      { origin := 0, hops := 2, job := 5, n := 3, index := 0, cls := 0, maxBlock := 64, shard := [], owner := toLe 64 0, agree := true })
      ((withJob ({ job5 with confirmed := false }) ctx0).withMbox (fun m => { m with taken := [jobReq] })) = .next t) ∧
    (∃ t, exec (.jobConfirmFlit 1
      { origin := 0, hops := 1, job := 5, n := 3, index := 0, cls := 0, maxBlock := 64, shard := [], owner := toLe 64 0, agree := true })
      ((withJob ({ job5 with confirmed := false }) ctx0).withMbox (fun m => { m with taken := [jobReq] })) = .next t) ∧
    (∃ t, exec (.ringJobConfirmTimeout 0) ((withJob ({ job5 with confirmed := false }) ctx0).withMbox (fun m =>
      { m with taken := [jobReq] })) = .next t) ∧
    (∃ t, exec (.ringJobSetup 0)
      (({ linked with ctxs := [(0, { ringCtx with part := none, st := .waiting })], ring := { linked.ring with size := 2 } }).mail
      0 0x61 (toLe 28 (5 * 2 ^ 32 + 2 * 2 ^ 64 + 2 ^ 68 + 4096 * 2 ^ 128 + 16 * 2 ^ 192))) = .next t) := by
  refine ⟨?_, ?_, ?_, ?_⟩
  · have e := h.1.2.2.2.2.1 ((withJob ({ job5 with confirmed := false }) ctx0).withMbox
      (fun m => { m with taken := [jobReq] }))
      { origin := 0, hops := 2, job := 5, n := 3, index := 0, cls := 0, maxBlock := 64, shard := [], owner := toLe 64 0, agree := true }
      { job5 with confirmed := false } []
    repeat replace e := e (by decide +kernel)
    replace e := e ctx0 jobReq
    repeat replace e := e (by decide +kernel)
    obtain ⟨t, e, -⟩ := e
    exact ⟨t, e⟩
  · have e := h.1.2.2.2.2.2.1 ((withJob ({ job5 with confirmed := false }) ctx0).withMbox
      (fun m => { m with taken := [jobReq] }))
      { origin := 0, hops := 1, job := 5, n := 3, index := 0, cls := 0, maxBlock := 64, shard := [], owner := toLe 64 0, agree := true }
      { job5 with confirmed := false } [] jobReq
    repeat replace e := e (by decide +kernel)
    obtain ⟨t, e, -⟩ := e
    exact ⟨t, e⟩
  · have e := h.1.2.2.2.2.2.2 ((withJob ({ job5 with confirmed := false }) ctx0).withMbox
      (fun m => { m with taken := [jobReq] })) { job5 with confirmed := false } jobReq
    repeat replace e := e (by decide +kernel)
    obtain ⟨t, e, -⟩ := e
    exact ⟨t, e⟩
  · have e := h.2
      (({ linked with ctxs := [(0, { ringCtx with part := none, st := .waiting })], ring := { linked.ring with size := 2 } }).mail
      0 0x61 (toLe 28 (5 * 2 ^ 32 + 2 * 2 ^ 64 + 2 ^ 68 + 4096 * 2 ^ 128 + 16 * 2 ^ 192))) 0 0 2 4096 16 5 (toLe 28
      (5 * 2 ^ 32 + 2 * 2 ^ 64 + 2 ^ 68 + 4096 * 2 ^ 128 + 16 * 2 ^ 192)) sess
      { ringCtx with part := none, st := .waiting } { rings := [entry0] } entry0 2 (by unfold Asks; decide +kernel)
    repeat replace e := e (by decide +kernel)
    try replace e := e (by intro z h1 h2; omega)
    obtain ⟨t, _, e, -⟩ := e
    exact ⟨t, e⟩

theorem wit_RingTraffic_1 (h : Obligations.RingTraffic) :
    (∃ t, exec (.ringBlockArrival 1 2 [1]) linked = .next t) ∧
    (∃ t, exec (.ringBlockArrival 1 2 [1, 2]) (withJob job5 savedCtx) = .next t) ∧
    (∃ t, exec (.ringBlockArrival 1 2 [1, 2]) (withJob (blockJob 0) blockCtx) = .next t) ∧
    (∃ t, exec (.ringBlockArrival 1 2 [1, 2]) (withJob (blockJob 1) blockCtx) = .next t) ∧
    (∃ t, exec (.ringBlockArrival 1 2 [1, 2]) (withJob (blockJob 0) { blockCtx with part := none }) = .next t) ∧
    (∃ t, exec (.creditReturn 0 2) linked = .next t) ∧
    (∃ t, exec (.ringBarrierToken 1 { job := 5, complete := false }) (withJob { job5 with localDone := true } ctx0) =
      .next t) := by
  refine ⟨?_, ?_, ?_, ?_, ?_, ?_, ?_⟩
  · have e := h.1 linked 2 [1] (by decide +kernel) (by decide +kernel) (Or.inl (by decide))
    exact ⟨_, e⟩
  · have e := h.2.1 (withJob job5 savedCtx) 2 [1, 2] job5 savedCtx 0
    repeat replace e := e (by decide +kernel)
    replace e := e.1 saved0 { cert := [{}], variants := [{ rings := [entry0] }] } { rings := [entry0] } entry0
    repeat replace e := e (by decide +kernel)
    obtain ⟨t, e, -⟩ := e
    exact ⟨t, e⟩
  · have e := h.2.1 (withJob (blockJob 0) blockCtx) 2 [1, 2] (blockJob 0) blockCtx 0
    repeat replace e := e (by decide +kernel)
    replace e := e.2.1
      { variant := 0, easels := [0], canvas := [(0, 0, 4096)], bars := [], devBar := none, tags := (1, 0, 0), placedAt := 0 }
      0 64 128 3 entry0
    repeat replace e := e (by decide +kernel)
    obtain ⟨t, e, -⟩ := e
    exact ⟨t, e⟩
  · have e := h.2.1 (withJob (blockJob 1) blockCtx) 2 [1, 2] (blockJob 1) blockCtx 0
    repeat replace e := e (by decide +kernel)
    replace e := e.2.1
      { variant := 0, easels := [0], canvas := [(0, 0, 4096)], bars := [], devBar := none, tags := (1, 0, 0), placedAt := 0 }
      0 64 128 3 entry0
    repeat replace e := e (by decide +kernel)
    obtain ⟨t, e, -⟩ := e
    exact ⟨t, e⟩
  · have e := h.2.1 (withJob (blockJob 0) { blockCtx with part := none }) 2 [1, 2] (blockJob 0)
      { blockCtx with part := none } 0
    repeat replace e := e (by decide +kernel)
    replace e := e.2.2 rfl rfl
    obtain ⟨t, _, e, -⟩ := e
    exact ⟨t, e⟩
  · obtain ⟨t, e, -⟩ := h.2.2.1 linked 0 2 (by decide +kernel)
    exact ⟨t, e⟩
  · have e := h.2.2.2.1 (withJob { job5 with localDone := true } ctx0) { job := 5, complete := false }
      { job5 with localDone := true }
    repeat replace e := e (by decide +kernel)
    replace e := e.1
    repeat replace e := e (by decide +kernel)
    exact ⟨_, e⟩

theorem wit_RingTraffic_2 (h : Obligations.RingTraffic) :
    (∃ t, exec (.ringBarrierToken 1 { job := 5, complete := false }) (withJob job5 ctx0) = .next t) ∧
    (∃ t, exec (.ringBarrierToken 1 { job := 5, complete := false }) (withJob
      ({ job5 with localDone := true, index := 0, ctx := 7 }) ctx0) = .next t) ∧
    (∃ t, exec (.ringAbortNotice 0 5) (withJob { job5 with dead := true } ctx0) = .next t) ∧
    (∃ t, exec (.ringAbortNotice 0 5) (withJob job5 ctx0) = .next t) := by
  refine ⟨?_, ?_, ?_, ?_⟩
  · have e := h.2.2.2.1 (withJob job5 ctx0) { job := 5, complete := false } job5
    repeat replace e := e (by decide +kernel)
    replace e := e.2
    replace e := e.1
    repeat replace e := e (by decide +kernel)
    exact ⟨_, e⟩
  · have e := h.2.2.2.1 (withJob ({ job5 with localDone := true, index := 0, ctx := 7 }) ctx0)
      { job := 5, complete := false } { job5 with localDone := true, index := 0, ctx := 7 }
    repeat replace e := e (by decide +kernel)
    replace e := e.2
    replace e := e.2
    repeat replace e := e (by decide +kernel)
    exact ⟨_, e⟩
  · have e := h.2.2.2.2.1 (withJob { job5 with dead := true } ctx0) 0 { job5 with dead := true }
    repeat replace e := e (by decide +kernel)
    exact ⟨_, e⟩
  · have e := h.2.2.2.2.2 (withJob job5 ctx0) 0 job5 ctx0
    repeat replace e := e (by decide +kernel)
    obtain ⟨t, e, -⟩ := e
    exact ⟨t, e⟩

theorem wit_PairsFormed_1 (h : Obligations.PairsFormed) :
    (∃ t, exec (.mirrorPairActive 0) ((linked).mail 0 0x80 ([0, 0, 0, 0, 0, 0,
      0, 0])) = .next t) ∧
    (∃ t, exec (.mirrorPairStandby 0) ((on).mail 0 0x80 ([2, 0, 0, 0, 0, 0, 0,
      0])) = .next t) ∧
    (∃ t, exec (.mirrorPairActive 0)
      (({ on with ring := { east := { up := true } } }).mail 0 0x80 ([0, 0, 0, 0, 0, 0, 0, 0])) = .next t) ∧
    (∃ t, exec (.mirrorPairActive 0)
      (({ on with ring := { east := { up := true, version := 1 } } }).mail 0 0x80 ([0, 0, 0, 0, 0, 0, 0, 0])) = .next
      t) ∧
    (∃ t, exec (.mirrorPairTimeout) (pairing 1) = .next t) := by
  refine ⟨?_, ?_, ?_, ?_, ?_⟩
  · have e := h.1.1 ((linked).mail 0 0x80 ([0, 0, 0, 0, 0, 0, 0, 0])) 0 1 0 ([0, 0, 0, 0, 0, 0, 0, 0]) sess
      (⟨by unfold Asks; decide +kernel, by decide, by decide, by decide, by decide⟩)
    repeat replace e := e (by decide +kernel)
    replace e := e.1 rfl
    exact ⟨_, e⟩
  · have e := ((h.1.2.1 ((on).mail 0 0x80 ([2, 0, 0, 0, 0, 0, 0, 0])) 0 2 0 ([2, 0, 0, 0, 0, 0, 0, 0]) sess
      (⟨by unfold Asks; decide +kernel, by decide, by decide, by decide, by decide⟩)).1 (by decide +kernel)).2 rfl
    exact ⟨_, e⟩
  · have e := ((h.1.2.1 (({ on with ring := { east := { up := true } } }).mail 0 0x80 ([0, 0, 0, 0, 0, 0, 0, 0])) 0
      1 0 ([0, 0, 0, 0, 0, 0, 0, 0]) sess
      (⟨by unfold Asks; decide +kernel, by decide, by decide, by decide, by decide⟩)).2).1 (by decide +kernel)
      (by decide +kernel)
    replace e := e.1 rfl
    exact ⟨_, e⟩
  · have e := ((h.1.2.1 (({ on with ring := { east := { up := true, version := 1 } } }).mail 0 0x80 ([0, 0, 0, 0, 0,
      0, 0, 0])) 0 1 0 ([0, 0, 0, 0, 0, 0, 0, 0]) sess
      (⟨by unfold Asks; decide +kernel, by decide, by decide, by decide, by decide⟩)).2).2 (by decide +kernel)
      (by decide +kernel) (by decide +kernel)
    replace e := e.1 rfl
    exact ⟨_, e⟩
  · have e := h.1.2.2 (pairing 1) 0 6 1 0 0 { ch := 0, seq := 6, opcode := 0x80, payload := [], ctx := none }
    repeat replace e := e (by decide +kernel)
    obtain ⟨t, e, -⟩ := e
    exact ⟨t, e⟩

theorem wit_PairsFormed_2 (h : Obligations.PairsFormed) :
    (∃ t, exec (.identityChallenge 0 (.nonce [3] false)) (pairing 1) = .next t) ∧
    (∃ t, exec (.identityChallenge 0 (.signature [1] [2])) (pairing 1) = .next t) ∧
    (∃ t, exec (.identityChallenge 0 (.signature [1] [2]))
      ({ pairing 2 with pair := { (pairing 2).pair with peer := some (0, [3], true) } }) = .next t) ∧
    (∃ t, exec (.identityChallenge 0 (.ends 11)) (pairing 1) = .next t) := by
  refine ⟨?_, ?_, ?_, ?_⟩
  · have e := h.2.1 (pairing 1) 0 0 6 1 0 [3] false
    repeat replace e := e (by decide +kernel)
    exact ⟨_, e⟩
  · have e := h.2.2.1 (pairing 1) 0 0 6 1 0 [7] [1] [2]
    repeat replace e := e (by decide +kernel)
    obtain ⟨t, e, -⟩ := e
    exact ⟨t, e⟩
  · have e := h.2.2.2.1 { pairing 2 with pair := { (pairing 2).pair with peer := some (0, [3], true) } } 0 0 6 0 [7]
      [3] [1] [2] true
    repeat replace e := e (by decide +kernel)
    obtain ⟨t, e, -⟩ := e
    exact ⟨t, e⟩
  · have e := h.2.2.2.2 (pairing 1) 0 0 6 1 0 0x0B
    repeat replace e := e (by decide +kernel)
    obtain ⟨t, e, -⟩ := e
    exact ⟨t, e⟩

theorem wit_PairsAtWork_1 (h : Obligations.PairsAtWork) :
    (∃ t, exec (.mirrorMessage (.submission 0 3 0 1 99 [1] [2])) (paired 2) = .next t) ∧
    (∃ t, exec (.mirrorMessage (.data true [1])) (paired 2) = .next t) ∧
    (∃ t, exec (.mirrorMessage (.data false [2])) (pieced [1]) = .next t) ∧
    (∃ t, exec (.mirrorMessage (.record 0 4 0 16 [3] [])) (pieced [1]) = .next t) ∧
    (∃ t, exec (.contextCreate 0) ((paired 1).mail 0 0x10 (toLe 16 ((1000 * 2 ^ 32 + 5000 * 2 ^ 64)))) = .next t) ∧
    (∃ t, exec (.mirrorAck 1) creditless = .next t) ∧
    (∃ t, exec (.mirrorAck 1)
      ({ paired 1 with pair := { (paired 1).pair with sent := [.reply 0 6 0x10 0 [1]] }, mbox := { taken := [{ ch := 0, seq := 6, opcode := 0x10, payload := [], ctx := none }] } })
      = .next t) ∧
    (∃ t, exec (.heartbeatSend) (paired 1) = .next t) ∧
    (∃ t, exec (.heartbeat false) (paired 1) = .next t) := by
  refine ⟨?_, ?_, ?_, ?_, ?_, ?_, ?_, ?_, ?_⟩
  · have e := h.1.1 (paired 2) 0 3 0 1 99 [1] [2]
    repeat replace e := e (by decide +kernel)
    exact ⟨_, e⟩
  · have e := h.1.2.1 (paired 2) 0 0 0 0 [1] [2] [3]
    repeat replace e := e (by decide +kernel)
    replace e := e.1
    exact ⟨_, e⟩
  · have e := h.1.2.1 (pieced [1]) 0 0 0 0 [1] [2] [3]
    repeat replace e := e (by decide +kernel)
    replace e := (e.2 rfl rfl).1
    obtain ⟨t, e, -⟩ := e
    exact ⟨t, e⟩
  · have e := h.1.2.1 (pieced [1]) 0 4 0 16 [1] [2] [3]
    repeat replace e := e (by decide +kernel)
    replace e := (e.2 rfl rfl).2
    obtain ⟨t, e, -⟩ := e
    exact ⟨t, e⟩
  · have e := h.1.2.2.1 ((paired 1).mail 0 0x10 (toLe 16 ((1000 * 2 ^ 32 + 5000 * 2 ^ 64)))) 0 0 (toLe 16 ((1000 * 2 ^
      32 + 5000 * 2 ^ 64))) sess (by unfold Asks; decide +kernel)
    repeat replace e := e (by decide +kernel)
    obtain ⟨t, _, e, -⟩ := e
    exact ⟨t, e⟩
  · have e := h.1.2.2.2.1 creditless (.gone 7) .none (List.replicate 15 .none)
    repeat replace e := e (by decide +kernel)
    exact ⟨_, e⟩
  · have e := h.1.2.2.2.2
      { paired 1 with pair := { (paired 1).pair with sent := [.reply 0 6 0x10 0 [1]] }, mbox := { taken := [{ ch := 0, seq := 6, opcode := 0x10, payload := [], ctx := none }] } }
      0 6 0x10 0 [1] [] { ch := 0, seq := 6, opcode := 0x10, payload := [], ctx := none }
    repeat replace e := e (by decide +kernel)
    exact ⟨_, e⟩
  · have e := h.2.1 (paired 1)
    repeat replace e := e (by decide +kernel)
    replace e := e.1
    exact ⟨_, e⟩
  · have e := h.2.1 (paired 1)
    repeat replace e := e (by decide +kernel)
    replace e := e.2
    replace e := e.1
    exact ⟨_, e⟩

theorem wit_PairsAtWork_2 (h : Obligations.PairsAtWork) :
    exec (.heartbeat true) (paired 1) = exec .heartbeatLoss (paired 1) ∧
    (∃ t, exec (.heartbeatLoss) (paired 2) = .next t) ∧
    (∃ t, exec (.heartbeatLoss) (paired 1) = .next t) ∧
    (∃ t, exec (.mirrorUnpair 0) ((paired 1).mail 0 0x81 ([0, 0, 0, 0, 0, 0, 0, 0])) = .next t) ∧
    (∃ t, exec (.mirrorUnpair 0) ((paired 1).mail 0 0x81 ([1, 0, 0, 0, 0, 0, 0, 0])) = .next t) ∧
    (∃ t, exec (.mirrorTakeover 0) (widowed.mail 0 0x82 (zeros 8)) = .next t) ∧
    (∃ t, exec (.mirrorTakeover 0) ((paired 1).mail 0 0x82 (zeros 8)) = .next t) := by
  refine ⟨?_, ?_, ?_, ?_, ?_, ?_, ?_⟩
  · exact ((h.2.1 (paired 1) (by decide +kernel) (by decide +kernel) (by decide +kernel) (by decide +kernel)
      (by decide +kernel)).2).2
  · have e := h.2.2.1 (paired 2)
    repeat replace e := e (by decide +kernel)
    replace e := e.1
    repeat replace e := e (by decide +kernel)
    obtain ⟨t, e, -⟩ := e
    exact ⟨t, e⟩
  · have e := h.2.2.1 (paired 1)
    repeat replace e := e (by decide +kernel)
    replace e := e.2
    repeat replace e := e (by decide +kernel)
    obtain ⟨t, e, -⟩ := e
    exact ⟨t, e⟩
  · have e := h.2.2.2.1 ((paired 1).mail 0 0x81 ([0, 0, 0, 0, 0, 0, 0, 0])) 0 0 ([0, 0, 0, 0, 0, 0, 0, 0]) sess (by unfold Asks; decide +kernel)
    repeat replace e := e (by decide +kernel)
    obtain ⟨t, e, -⟩ := e
    exact ⟨t, e⟩
  · have e := h.2.2.2.2.1 ((paired 1).mail 0 0x81 ([1, 0, 0, 0, 0, 0, 0, 0])) 0 1 ([1, 0, 0, 0, 0, 0, 0, 0]) sess (by unfold Asks; decide +kernel)
    repeat replace e := e (by decide +kernel)
    exact ⟨_, e⟩
  · have e := h.2.2.2.2.2 (widowed.mail 0 0x82 (zeros 8)) 0 0 (zeros 8) sess (by unfold Asks; decide +kernel)
      (by decide +kernel) (by decide)
    replace e := e.1
    repeat replace e := e (by decide +kernel)
    exact ⟨_, e⟩
  · have e := h.2.2.2.2.2 ((paired 1).mail 0 0x82 (zeros 8)) 0 0 (zeros 8) sess (by unfold Asks; decide +kernel)
      (by decide +kernel) (by decide)
    replace e := e.2 (by decide +kernel)
    exact ⟨_, e⟩

theorem wit_SealCoreAnswers_1 (h : Obligations.SealCoreAnswers) :
    (∃ t, exec (.secureStatus 32) (((on).letter 32 (header 0x100 7 32 ([0, 0, 0, 0, 0, 0, 0, 0]).length 0 0) ([0, 0,
      0, 0, 0, 0, 0, 0])).withMbox (fun m => { m with session := [(32, sess)] })) = .next t) ∧
    (∃ t, exec (.identityCertGet 32) (((on).letter 32 (header 0x101 7 32 ([0, 0, 0, 0, 0, 0, 0, 0]).length 0 0) ([0,
      0, 0, 0, 0, 0, 0, 0])).withMbox (fun m => { m with session := [(32, sess)] })) = .next t) ∧
    (∃ t, exec (.attestQuote 32) (((on).letter 32 (header 0x102 7 32 (zeros 40).length 0 0) (zeros 40)).withMbox (fun
      m => { m with session := [(32, sess)] })) = .next t) ∧
    (∃ t, exec (.identityKeyReady)
      ({ on with boot := { stage := 2, image := some [] }, mbox := { taken := [{ ch := 32, seq := 6, opcode := 0x102, payload := zeros 40, ctx := none }] } })
      = .next t) := by
  refine ⟨?_, ?_, ?_, ?_⟩
  · have e := h.1.1 (((on).letter 32 (header 0x100 7 32 ([0, 0, 0, 0, 0, 0, 0, 0]).length 0 0) ([0, 0, 0, 0, 0, 0,
      0, 0])).withMbox (fun m => { m with session := [(32, sess)] })) 32 ([0, 0, 0, 0, 0, 0, 0, 0]) sess
      (by unfold Asks; decide +kernel) (by decide +kernel) (by decide +kernel)
    exact ⟨_, e⟩
  · have e := h.1.2.1 (((on).letter 32 (header 0x101 7 32 ([0, 0, 0, 0, 0, 0, 0, 0]).length 0 0) ([0, 0, 0, 0, 0, 0,
      0, 0])).withMbox (fun m => { m with session := [(32, sess)] })) 32 ([0, 0, 0, 0, 0, 0, 0, 0]) sess
      (by unfold Asks; decide +kernel) (by decide +kernel) (by decide +kernel)
    exact ⟨_, e⟩
  · have e := (h.1.2.2.1 (((on).letter 32 (header 0x102 7 32 (zeros 40).length 0 0) (zeros 40)).withMbox
      (fun m => { m with session := [(32, sess)] })) 32 (zeros 40) sess (by unfold Asks; decide +kernel)
      (by decide +kernel) (by decide +kernel)).1
    exact ⟨_, e⟩
  · have e := h.1.2.2.2
      { on with boot := { stage := 2, image := some [] }, mbox := { taken := [{ ch := 32, seq := 6, opcode := 0x102, payload := zeros 40, ctx := none }] } }
      { ch := 32, seq := 6, opcode := 0x102, payload := zeros 40, ctx := none }
    repeat replace e := e (by decide +kernel)
    obtain ⟨t, e, -⟩ := e
    exact ⟨t, e⟩

theorem wit_SealCoreAnswers_2 (h : Obligations.SealCoreAnswers) :
    (∃ t, exec (.ownerKeyEnrol 32)
      ({ on with boot := { stage := 5, nonces := [(32, [9])] }, mbox := { whole := [(32, (0x103, 7, zeros 3136))] } })
      = .next t) ∧
    (∃ t, exec (.ownerKeyEnrol 32)
      ({ on with boot := { stage := 5, nonces := [] }, mbox := { whole := [(32, (0x103, 7, zeros 3136))] } }) = .next
      t) ∧
    (∃ t, exec (.ownerKeyEnrol 32)
      ({ on with boot := { stage := 4, nonces := [] }, mbox := { whole := [(32, (0x103, 7, zeros 3136))] } }) = .next
      t) ∧
    (∃ t, exec (.ownerKeyEnrol 32)
      ({ on with boot := { stage := 5, nonces := [(32, [9])] }, mbox := { whole := [(32, (0x103, 7, [1]))] } }) = .next
      t) := by
  refine ⟨?_, ?_, ?_, ?_⟩
  · obtain ⟨t, e, -⟩ := h.2.1
      { on with boot := { stage := 5, nonces := [(32, [9])] }, mbox := { whole := [(32, (0x103, 7, zeros 3136))] } }
      32 7 (zeros 3136) [9] (⟨by decide, by decide, rfl, by decide +kernel⟩) (by decide +kernel) (by decide +kernel)
    exact ⟨t, e⟩
  · obtain ⟨t, e, -⟩ := h.2.2.1
      { on with boot := { stage := 5, nonces := [] }, mbox := { whole := [(32, (0x103, 7, zeros 3136))] } } 32 7
      (zeros 3136) (⟨by decide, by decide, rfl, by decide +kernel⟩) (by decide +kernel) (by decide +kernel)
    exact ⟨t, e⟩
  · obtain ⟨t, e, -⟩ := h.2.2.2.1
      { on with boot := { stage := 4, nonces := [] }, mbox := { whole := [(32, (0x103, 7, zeros 3136))] } } 32 7
      (zeros 3136) (⟨by decide, by decide, rfl, by decide +kernel⟩) (by decide +kernel)
    exact ⟨t, e⟩
  · obtain ⟨t, e, -⟩ := h.2.2.2.2
      { on with boot := { stage := 5, nonces := [(32, [9])] }, mbox := { whole := [(32, (0x103, 7, [1]))] } } 32 7 [1]
      (by decide) (by decide) rfl (by decide +kernel)
    exact ⟨t, e⟩

theorem wit_ImagesPushedAndCommitted_1 (h : Obligations.ImagesPushedAndCommitted) :
    (∃ t, exec (.imagePush 32) (pushes { on.boot with stage := 1 }) = .next t) ∧
    (∃ t, exec (.imagePush 32) (pushes { on.boot with stagingAt := some 65536 }) = .next t) ∧
    (∃ t, exec (.imagePush 32) (pushesNot 52416) = .next t) ∧
    (∃ t, exec (.imagePush 32) (pushes on.boot) = .next t) ∧
    (∃ t, exec (.imagePush 32) (pushes { on.boot with stagingOwner := some 33 }) = .next t) := by
  refine ⟨?_, ?_, ?_, ?_, ?_⟩
  · have e := h.1 (pushes { on.boot with stage := 1 }) 32 0 64 (toLe 8 (64 * 2 ^ 32) ++ zeros 64) sess
      (by unfold Asks; decide +kernel) (by decide +kernel) (⟨Or.inl rfl, rfl, Or.inl rfl⟩)
    repeat replace e := e (by decide +kernel)
    replace e := e.1 rfl
    exact ⟨_, e⟩
  · have e := h.1 (pushes { on.boot with stagingAt := some 65536 }) 32 0 64 (toLe 8 (64 * 2 ^ 32) ++ zeros 64) sess
      (by unfold Asks; decide +kernel) (by decide +kernel) (⟨Or.inr rfl, rfl, Or.inl rfl⟩)
    repeat replace e := e (by decide +kernel)
    replace e := e.2.1 65536 rfl rfl rfl rfl
    obtain ⟨t, e, -⟩ := e
    exact ⟨t, e⟩
  · have e := h.1 (pushesNot 52416) 32 0 64 (toLe 8 (64 * 2 ^ 32) ++ zeros 64) sess
      (by unfold Asks; decide +kernel) (by decide +kernel) (⟨Or.inr rfl, rfl, Or.inl rfl⟩)
    repeat replace e := e (by decide +kernel)
    replace e := e.2.2.1 rfl rfl (full_none _ 52416 _ _ (by decide +kernel) rfl (by decide))
    exact ⟨_, e⟩
  · have e := h.1 (pushes on.boot) 32 0 64 (toLe 8 (64 * 2 ^ 32) ++ zeros 64) sess
      (by unfold Asks; decide +kernel) (by decide +kernel) (⟨Or.inr rfl, rfl, Or.inl rfl⟩)
    repeat replace e := e (by decide +kernel)
    replace e := e.2.2.2 ((pushes on.boot).gets 257 64).1 ((pushes on.boot).gets 257 64).2 rfl rfl (by decide +kernel) rfl
    obtain ⟨t, e, -⟩ := e
    exact ⟨t, e⟩
  · have e := h.2.1 (pushes { on.boot with stagingOwner := some 33 }) 32 33 (toLe 8 (64 * 2 ^ 32) ++ zeros 64) sess
      (by unfold Asks; decide +kernel)
    repeat replace e := e (by decide +kernel)
    exact ⟨_, e⟩

theorem wit_ImagesPushedAndCommitted_2 (h : Obligations.ImagesPushedAndCommitted) :
    (∃ t, exec (.imageCommit 32) (on.sealMail 0x105 (zeros 8)) = .next t) ∧
    (∃ t, exec (.imageCommit 32) staged0 = .next t) ∧
    (∃ t, exec (.flashWriteComplete true) (flashes { stage := 1 }) = .next t) ∧
    (∃ t, exec (.flashWriteComplete false) (flashes { stage := 5, stagingAt := some 65536 }) = .next t) := by
  refine ⟨?_, ?_, ?_, ?_⟩
  · have e := h.2.2.1 (on.sealMail 0x105 (zeros 8)) 32 (zeros 8) sess
      (by unfold Asks; decide +kernel) (by decide +kernel) (by decide +kernel) (⟨Or.inr rfl, rfl, Or.inl rfl⟩)
    repeat replace e := e (by decide +kernel)
    exact ⟨_, e⟩
  · have e := h.2.2.2.1 staged0 32 65536 (zeros 8) sess
      (by unfold Asks; decide +kernel) (by decide +kernel) (by decide +kernel) (by decide +kernel)
      (⟨Or.inr rfl, rfl, Or.inr rfl⟩)
    repeat replace e := e (by decide +kernel)
    obtain ⟨t, e, -⟩ := e
    exact ⟨t, e⟩
  · have e := h.2.2.2.2 (flashes { stage := 1 }) 32 6 true true
      { ch := 32, seq := 6, opcode := 0x105, payload := [1], ctx := none }
    repeat replace e := e (by decide +kernel)
    obtain ⟨t, e, -⟩ := e
    exact ⟨t, e⟩
  · have e := h.2.2.2.2 (flashes { stage := 5, stagingAt := some 65536 }) 32 6 true false
      { ch := 32, seq := 6, opcode := 0x105, payload := [1], ctx := none }
    repeat replace e := e (by decide +kernel)
    obtain ⟨t, e, -⟩ := e
    exact ⟨t, e⟩

theorem wit_BootAndDebug_1 (h : Obligations.BootAndDebug) :
    (∃ t, exec (.bootImageLoaded) ({ on with boot := { stage := 0 } }) = .next t) ∧
    (∃ t, exec (.selfTestComplete []) ({ on with boot := { stage := 3 } }) = .next t) ∧
    (∃ t, exec (.selfTestComplete []) ({ on with boot := { stage := 0 } }) = .next t) ∧
    (∃ t, exec (.selfTestComplete
      [{ mem := .palette, unit := 3, index := 4, rows := [], badSpareRows := 0, spareGroupBad := false, retestFails := true }])
      ({ on with boot := { stage := 3 } }) = .next t) ∧
    (∃ t, exec (.selfTestComplete
      [{ mem := .control, unit := 0, index := 0, rows := [], badSpareRows := 0, spareGroupBad := false, retestFails := true }])
      ({ on with boot := { stage := 0 } }) = .next t) ∧
    (∃ t, exec (.selfTestComplete
      [{ mem := .vocabulary, unit := 0, index := 0, rows := [], badSpareRows := 0, spareGroupBad := false, retestFails := true }])
      ({ on with boot := { stage := 3 } }) = .next t) := by
  refine ⟨?_, ?_, ?_, ?_, ?_, ?_⟩
  · have e := h.1.1 { on with boot := { stage := 0 } }
    repeat replace e := e (by decide +kernel)
    exact ⟨_, e⟩
  · have e := h.1.2.1 { on with boot := { stage := 3 } }
    repeat replace e := e (by decide +kernel)
    exact ⟨_, e⟩
  · have e := h.1.2.2.1 { on with boot := { stage := 0 } }
    repeat replace e := e (by decide +kernel)
    exact ⟨_, e⟩
  · have e := h.1.2.2.2.1 { on with boot := { stage := 3 } } 3 4 []
    repeat replace e := e (by decide +kernel)
    exact ⟨_, e⟩
  · have e := h.1.2.2.2.2.1 { on with boot := { stage := 0 } } .control 0 []
    repeat replace e := e (by decide +kernel)
    obtain ⟨t, e, -⟩ := e
    exact ⟨t, e⟩
  · have e := h.1.2.2.2.2.1 { on with boot := { stage := 3 } } .vocabulary 0 []
    repeat replace e := e (by decide +kernel)
    obtain ⟨t, e, -⟩ := e
    exact ⟨t, e⟩

theorem wit_BootAndDebug_2 (h : Obligations.BootAndDebug) :
    (∃ t, exec (.trainingComplete { ok := true, densityCode := 4, ranksM1 := 0, hppr := true, failing := [] })
      ({ on with boot := { stage := 4, image := some (zeros 40 ++ toLe 4 64 ++ zeros 20 ++ toLe 64 (0x40)) } }) =
      .next t) ∧
    (∃ t, exec (.trainingComplete { ok := true, densityCode := 3, ranksM1 := 0, hppr := true, failing := [] })
      ({ on with boot := { stage := 4, image := some (zeros 40 ++ toLe 4 64 ++ zeros 20 ++ toLe 64 (0x40)) } }) =
      .next t) ∧
    (∃ t, exec (.trainingComplete { ok := false, densityCode := 4, ranksM1 := 0, hppr := true, failing := [] })
      ({ on with boot := { stage := 4, image := some (zeros 40 ++ toLe 4 64 ++ zeros 20 ++ toLe 64 (0x40)) } }) =
      .next t) ∧
    (∃ t, exec (.debugPortAccess .idRead) on = .next t) := by
  refine ⟨?_, ?_, ?_, ?_⟩
  · have e := h.1.2.2.2.2.2
      { on with boot := { stage := 4, image := some (zeros 40 ++ toLe 4 64 ++ zeros 20 ++ toLe 64 (0x40)) } } (zeros
      40 ++ toLe 4 64 ++ zeros 20 ++ toLe 64 (0x40))
      { ok := true, failing := [], densityCode := 4, ranksM1 := 0, hppr := true }
    repeat replace e := e (by decide +kernel)
    replace e := e.1
    repeat replace e := e (by decide +kernel)
    obtain ⟨t, e, -⟩ := e
    exact ⟨t, e⟩
  · obtain ⟨t, e, -⟩ := ((h.1.2.2.2.2.2
      { on with boot := { stage := 4, image := some (zeros 40 ++ toLe 4 64 ++ zeros 20 ++ toLe 64 (0x40)) } } (zeros
      40 ++ toLe 4 64 ++ zeros 20 ++ toLe 64 (0x40))
      { ok := true, failing := [], densityCode := 3, ranksM1 := 0, hppr := true } (by decide +kernel)
      (by decide +kernel) (by decide +kernel) (by decide +kernel)).2).1 (by decide +kernel)
    exact ⟨t, e⟩
  · obtain ⟨t, e, -⟩ := ((h.1.2.2.2.2.2
      { on with boot := { stage := 4, image := some (zeros 40 ++ toLe 4 64 ++ zeros 20 ++ toLe 64 (0x40)) } } (zeros
      40 ++ toLe 4 64 ++ zeros 20 ++ toLe 64 (0x40))
      { ok := false, failing := [], densityCode := 4, ranksM1 := 0, hppr := true } (by decide +kernel)
      (by decide +kernel) (by decide +kernel) (by decide +kernel)).2).2 (by decide +kernel) (by decide +kernel)
    exact ⟨t, e⟩
  · obtain ⟨_, -, e⟩ := (h.2.1 on (by decide +kernel) (by decide +kernel)).1
    exact ⟨_, e⟩

theorem wit_BootAndDebug_3 (h : Obligations.BootAndDebug) :
    (∃ t, exec (.debugPortAccess .attach) on = .next t) ∧
    (∃ t, exec (.debugPortAccess (.read .palette 3 64 4)) on = .next t) ∧
    (∃ t, exec (.debugPortAccess (.write .external 0 64 [1, 2])) on = .next t) ∧
    (∃ t, exec (.debugPortAccess .fuseWrite) on = .next t) ∧
    (∃ t, exec (.debugPortAccess .attach) ({ on with fuse := { debugLock := true } }) = .next t) := by
  have d := h.2.1 on (by decide +kernel) (by decide +kernel)
  refine ⟨?_, ?_, ?_, ?_, ?_⟩
  · have e := d.2.1
    exact ⟨_, e⟩
  · have e := d.2.2.2.1 3 64 4 (by decide)
    exact ⟨_, e⟩
  · have e := d.2.2.2.2.2.1 64 [1, 2] (by decide +kernel) (by decide +kernel)
    obtain ⟨t, e, -⟩ := e
    exact ⟨t, e⟩
  · have e := d.2.2.2.2.2.2
    exact ⟨_, e⟩
  · have e := h.2.2 { on with fuse := { debugLock := true } } .attach (by decide +kernel)
    exact ⟨_, e⟩

theorem wit_VectorElementCommands (h : Obligations.VectorElementCommands) :
    (∃ t, exec (.vecBinaryAdd 0 0) (busy (vecWord 32 + 6 * 2 ^ 132 + 6 * 2 ^ 136 + 6 * 2 ^ 140)) = .next t) ∧
    (∃ t, exec (.vecBinaryMin 0 0) (busy (vecWord 32 + 4 * 2 ^ 128)) = .next t) ∧
    (∃ t, exec (.vecBinaryAddScalar 0 0) (busy (vecWord 32 + 5 * 2 ^ 128)) = .next t) ∧
    (∃ t, exec (.vecUnaryCopy 0 0) (busy (vecWord 33)) = .next t) ∧
    (∃ t, exec (.vecUnarySilu 0 0) (busy (vecWord 33 + 13 * 2 ^ 128)) = .next t) := by
  refine ⟨?_, ?_, ?_, ?_, ?_⟩
  · have e := h.1 (busy (vecWord 32 + 6 * 2 ^ 132 + 6 * 2 ^ 136 + 6 * 2 ^ 140)) 0 0 0 (vecWord 32 + 6 * 2 ^ 132 + 6 * 2 ^ 136 + 6 * 2 ^ 140) (by unfold Runs; decide +kernel) (by decide +kernel) (by decide +kernel)
    replace e := e.1 (by decide +kernel)
    obtain ⟨t, e, -⟩ := e
    exact ⟨t, e⟩
  · have e := h.1 (busy (vecWord 32 + 4 * 2 ^ 128)) 0 0 0 (vecWord 32 + 4 * 2 ^ 128) (by unfold Runs; decide +kernel) (by decide +kernel) (by decide +kernel)
    replace e := e.2.2.2.2 (by decide +kernel)
    obtain ⟨t, e, -⟩ := e
    exact ⟨t, e⟩
  · have e := h.2.1 (busy (vecWord 32 + 5 * 2 ^ 128)) 0 0 0 (vecWord 32 + 5 * 2 ^ 128) (by unfold Runs; decide +kernel) (by decide +kernel) (by decide +kernel)
    replace e := e.1 (by decide +kernel)
    obtain ⟨t, e, -⟩ := e
    exact ⟨t, e⟩
  · have e := h.2.2 (busy (vecWord 33)) 0 0 0 (vecWord 33) (by unfold Runs; decide +kernel) (by decide +kernel) (by decide +kernel)
    replace e := e.1 (by decide +kernel)
    obtain ⟨t, e, -⟩ := e
    exact ⟨t, e⟩
  · have e := h.2.2 (busy (vecWord 33 + 13 * 2 ^ 128)) 0 0 0 (vecWord 33 + 13 * 2 ^ 128) (by unfold Runs; decide +kernel) (by decide +kernel) (by decide +kernel)
    replace e := e.2.2.2.2.2.2.2.2.2.2.2.2.2 (by decide +kernel)
    obtain ⟨t, e, -⟩ := e
    exact ⟨t, e⟩

theorem wit_VectorRowCommands (h : Obligations.VectorRowCommands) :
    (∃ t, exec (.vecReduceMax 0 0) (busy (vecWord 34 + 6 * 2 ^ 132 + 6 * 2 ^ 136 + 6 * 2 ^ 140)) = .next t) ∧
    (∃ t, exec (.vecReduceSumsq 0 0) (busy (vecWord 34 + 4 * 2 ^ 128)) = .next t) ∧
    (∃ t, exec (.vecNormLayer 0 0) (busy (vecWord 35)) = .next t) ∧
    (∃ t, exec (.vecNormRms 0 0) (busy (vecWord 35 + 2 ^ 128)) = .next t) ∧
    (∃ t, exec (.vecSoftmax 0 0) (busy (vecWord 36)) = .next t) := by
  refine ⟨?_, ?_, ?_, ?_, ?_⟩
  · have e := h.1 (busy (vecWord 34 + 6 * 2 ^ 132 + 6 * 2 ^ 136 + 6 * 2 ^ 140)) 0 0 0 (vecWord 34 + 6 * 2 ^ 132 + 6 * 2 ^ 136 + 6 * 2 ^ 140) (by unfold Runs; decide +kernel) (by decide +kernel) (by decide +kernel)
    replace e := e.1 (by decide +kernel)
    obtain ⟨t, e, -⟩ := e
    exact ⟨t, e⟩
  · have e := h.1 (busy (vecWord 34 + 4 * 2 ^ 128)) 0 0 0 (vecWord 34 + 4 * 2 ^ 128) (by unfold Runs; decide +kernel) (by decide +kernel) (by decide +kernel)
    replace e := e.2.2.2.2 (by decide +kernel)
    obtain ⟨t, e, -⟩ := e
    exact ⟨t, e⟩
  · have e := h.2.1 (busy (vecWord 35)) 0 0 0 (vecWord 35) (by unfold Runs; decide +kernel) (by decide +kernel) (by decide +kernel) (by decide +kernel)
    obtain ⟨t, e, -⟩ := e
    exact ⟨t, e⟩
  · have e := h.2.2.1 (busy (vecWord 35 + 2 ^ 128)) 0 0 0 (vecWord 35 + 2 ^ 128) (by unfold Runs; decide +kernel) (by decide +kernel) (by decide +kernel) (by decide +kernel)
    obtain ⟨t, e, -⟩ := e
    exact ⟨t, e⟩
  · have e := h.2.2.2 (busy (vecWord 36)) 0 0 0 (vecWord 36) (by unfold Runs; decide +kernel) (by decide +kernel) (by decide +kernel) (by decide +kernel)
    obtain ⟨t, e, -⟩ := e
    exact ⟨t, e⟩

theorem wit_MatmulAccumulates (h : Obligations.MatmulAccumulates) :
    (∃ t, exec (.matmul 0 0) (busy (1 + 8 * 2 ^ 128 + 8 * 2 ^ 132 + 2 ^ 139 + 2 * 2 ^ 144 + 2 * 2 ^ 160 + 2 ^ 192 + 64
      * 2 ^ 224 + 128 * 2 ^ 256)) = .next t) := by
  have e := h (busy (1 + 8 * 2 ^ 128 + 8 * 2 ^ 132 + 2 ^ 139 + 2 * 2 ^ 144 + 2 * 2 ^ 160 + 2 ^ 192 + 64 * 2 ^ 224 +
    128 * 2 ^ 256)) 0 0 0 (1 + 8 * 2 ^ 128 + 8 * 2 ^ 132 + 2 ^ 139 + 2 * 2 ^ 144 + 2 * 2 ^ 160 + 2 ^ 192 + 64 * 2 ^ 224
    + 128 * 2 ^ 256) none (by unfold Runs; decide +kernel)
  repeat replace e := e (by decide +kernel)
  replace e := e (show bit _ 140 = false by decide +kernel) (by decide +kernel)
  obtain ⟨t, e, -⟩ := e
  exact ⟨t, e⟩

theorem wit_DrainStores (h : Obligations.DrainStores) :
    (∃ t, exec (.accDrain 0 0) (busy (2 + 6 * 2 ^ 128 + 2 * 2 ^ 144 + 2 ^ 160 + 64 * 2 ^ 192 + 64 * 2 ^ 224 +
      1065353216 * 2 ^ 288)) = .next t) := by
  have e := h (busy (2 + 6 * 2 ^ 128 + 2 * 2 ^ 144 + 2 ^ 160 + 64 * 2 ^ 192 + 64 * 2 ^ 224 + 1065353216 * 2 ^ 288)) 0
    0 0 (2 + 6 * 2 ^ 128 + 2 * 2 ^ 144 + 2 ^ 160 + 64 * 2 ^ 192 + 64 * 2 ^ 224 + 1065353216 * 2 ^ 288) (by unfold Runs; decide +kernel)
  repeat replace e := e (by decide +kernel)
  obtain ⟨t, e, -⟩ := e
  exact ⟨t, e⟩

theorem wit_ExpansionAndPooling (h : Obligations.ExpansionAndPooling) :
    (∃ t, exec (.gessoExpand 0 0) (busy (3 + 8 * 2 ^ 128 + 2 ^ 224 + 4 * 2 ^ 240 + 4 * 2 ^ 256 + 4 * 2 ^ 304 + 4 * 2 ^
      320 + 2 * 2 ^ 368 + 2 * 2 ^ 384 + 2 ^ 144 + 2 ^ 149 + 2 ^ 154 + 2 ^ 159 + 2 ^ 164 + 2 ^ 169)) = .next t) ∧
    (∃ t, exec (.gessoExpand 0 0) (busy (3 + 8 * 2 ^ 128 + 2 ^ 132 + 2 ^ 224 + 4 * 2 ^ 240 + 4 * 2 ^ 256 + 4 * 2 ^ 304
      + 4 * 2 ^ 320 + 2 * 2 ^ 368 + 2 * 2 ^ 384 + 2 ^ 144 + 2 ^ 149 + 2 ^ 154 + 2 ^ 159 + 2 ^ 164 + 2 ^ 169)) = .next
      t) ∧
    (∃ t, exec (.gessoExpand 0 0) (busyPal (3 + 8 * 2 ^ 128 + 2 ^ 132 + 2 ^ 224 + 64 * 2 ^ 400 + 32 * 2 ^ 442 + 2 ^
      462 + 4 * 2 ^ 240 + 4 * 2 ^ 256 + 4 * 2 ^ 304 + 4 * 2 ^ 320 + 2 * 2 ^ 368 + 2 * 2 ^ 384 + 2 ^ 144 + 2 ^ 149 + 2
      ^ 154 + 2 ^ 159 + 2 ^ 164 + 2 ^ 169) [(64 + 512, 1)]) = .next t) ∧
    (∃ t, exec (.gessoExpand 0 0) (busyPal gessoWord [(0, 0xC0), (1, 0x7F)]) = .next t) ∧
    (∃ t, exec (.poolMax 0 0) (busy (4 + 2 ^ 224 + 4 * 2 ^ 240 + 4 * 2 ^ 256 +
      4 * 2 ^ 304 + 4 * 2 ^ 320 + 2 * 2 ^ 368 + 2 * 2 ^ 384 + 2 ^ 144 + 2 ^ 149 + 2 ^ 154 + 2 ^ 159 + 2 ^ 164 + 2 ^
      169)) = .next t) := by
  refine ⟨?_, ?_, ?_, ?_, ?_⟩
  · have e := h.1 (busy (3 + 8 * 2 ^ 128 + 2 ^ 224 + 4 * 2 ^ 240 + 4 * 2 ^ 256 + 4 * 2 ^ 304 + 4 * 2 ^ 320 + 2 * 2 ^
      368 + 2 * 2 ^ 384 + 2 ^ 144 + 2 ^ 149 + 2 ^ 154 + 2 ^ 159 + 2 ^ 164 + 2 ^ 169)) 0 0 0 (3 + 8 * 2 ^ 128 + 2 ^
      224 + 4 * 2 ^ 240 + 4 * 2 ^ 256 + 4 * 2 ^ 304 + 4 * 2 ^ 320 + 2 * 2 ^ 368 + 2 * 2 ^ 384 + 2 ^ 144 + 2 ^ 149 +
      2 ^ 154 + 2 ^ 159 + 2 ^ 164 + 2 ^ 169) 8192 8192 .int8 (by unfold Runs; decide +kernel)
    repeat replace e := e (by decide +kernel)
    obtain ⟨t, e, -⟩ := e
    exact ⟨t, e⟩
  · have e := h.2.1 (busy (3 + 8 * 2 ^ 128 + 2 ^ 132 + 2 ^ 224 + 4 * 2 ^ 240 + 4 * 2 ^ 256 + 4 * 2 ^ 304 + 4 * 2 ^
      320 + 2 * 2 ^ 368 + 2 * 2 ^ 384 + 2 ^ 144 + 2 ^ 149 + 2 ^ 154 + 2 ^ 159 + 2 ^ 164 + 2 ^ 169)) 0 0 0 (3 + 8 * 2
      ^ 128 + 2 ^ 132 + 2 ^ 224 + 4 * 2 ^ 240 + 4 * 2 ^ 256 + 4 * 2 ^ 304 + 4 * 2 ^ 320 + 2 * 2 ^ 368 + 2 * 2 ^ 384
      + 2 ^ 144 + 2 ^ 149 + 2 ^ 154 + 2 ^ 159 + 2 ^ 164 + 2 ^ 169) 8192 8192 .int8 (0, 0) _
      (by unfold Runs; decide +kernel) (by decide +kernel) (by decide +kernel) (by decide +kernel)
      (by decide +kernel) (by decide +kernel) (by decide +kernel) rfl
    replace e := e.1
    repeat replace e := e (by decide +kernel)
    obtain ⟨t, e, -⟩ := e
    exact ⟨t, e⟩
  · have e := h.2.1 (busyPal (3 + 8 * 2 ^ 128 + 2 ^ 132 + 2 ^ 224 + 64 * 2 ^ 400 + 32 * 2 ^ 442 + 2 ^ 462 + 4 * 2 ^
      240 + 4 * 2 ^ 256 + 4 * 2 ^ 304 + 4 * 2 ^ 320 + 2 * 2 ^ 368 + 2 * 2 ^ 384 + 2 ^ 144 + 2 ^ 149 + 2 ^ 154 + 2 ^
      159 + 2 ^ 164 + 2 ^ 169) [(64 + 512, 1)]) 0 0 0 (3 + 8 * 2 ^ 128 + 2 ^ 132 + 2 ^ 224 + 64 * 2 ^ 400 + 32 * 2 ^
      442 + 2 ^ 462 + 4 * 2 ^ 240 + 4 * 2 ^ 256 + 4 * 2 ^ 304 + 4 * 2 ^ 320 + 2 * 2 ^ 368 + 2 * 2 ^ 384 + 2 ^ 144 +
      2 ^ 149 + 2 ^ 154 + 2 ^ 159 + 2 ^ 164 + 2 ^ 169) 8192 8192 .int8 (0, 0) _ (by unfold Runs; decide +kernel)
      (by decide +kernel) (by decide +kernel) (by decide +kernel) (by decide +kernel) (by decide +kernel)
      (by decide +kernel) rfl
    replace e := e.2
    repeat replace e := e (by decide +kernel)
    obtain ⟨t, e, -⟩ := e
    exact ⟨t, e⟩
  · have e := h.2.2.1 (busyPal gessoWord [(0, 0xC0), (1, 0x7F)]) 0 0 0 gessoWord 8192 8192 .int8
      (by unfold Runs; decide +kernel)
    repeat replace e := e (by decide +kernel)
    obtain ⟨t, _, _, e, -⟩ := e
    exact ⟨t, e⟩
  · have e := h.2.2.2 (busy (4 + 2 ^ 224 + 4 * 2 ^ 240 + 4 * 2 ^ 256 + 4 * 2 ^ 304 + 4 * 2 ^ 320 + 2 * 2 ^ 368 + 2 * 2
      ^ 384 + 2 ^ 144 + 2 ^ 149 + 2 ^ 154 + 2 ^ 159 + 2 ^ 164 + 2 ^ 169)) 0 0 0 (4 + 2 ^ 224 + 4 * 2 ^ 240 + 4 * 2 ^
      256 + 4 * 2 ^ 304 + 4 * 2 ^ 320 + 2 * 2 ^ 368 + 2 * 2 ^ 384 + 2 ^ 144 + 2 ^ 149 + 2 ^ 154 + 2 ^ 159 + 2 ^ 164
      + 2 ^ 169) .fp32 (by unfold Runs; decide +kernel)
    repeat replace e := e (by decide +kernel)
    replace e := e.1 (by decide +kernel)
    obtain ⟨t, e, -⟩ := e
    exact ⟨t, e⟩

theorem wit_Conversions_1 (h : Obligations.Conversions) :
    (∃ t, exec (.convertFirstPass 0 0) (busy (6 + 8 * 2 ^ 132 + 2 ^ 160 + 4 * 2 ^ 192 + 64 * 2 ^ 224 + 16384 * 2 ^ 256
      + 64 * 2 ^ 288 + 64 * 2 ^ 320)) = .next t) ∧
    (∃ t, exec (.convertFirstPass 0 0) (busy (6 + 10 * 2 ^ 132 + 2 ^ 160 + 4 * 2 ^ 192 + 64 * 2 ^ 224 + 16384 * 2 ^
      256 + 64 * 2 ^ 288 + 64 * 2 ^ 320)) = .next t) ∧
    (∃ t, exec (.convertFallback 0 0) (busy (6 + 8 * 2 ^ 132 + 2 ^ 136 + 2 ^ 160 + 4 * 2 ^ 192 + 64 * 2 ^ 224 + 16384
      * 2 ^ 256 + 64 * 2 ^ 288 + 64 * 2 ^ 320 + 2048 * 2 ^ 352)) = .next t) := by
  refine ⟨?_, ?_, ?_⟩
  · have e := h.1 (busy (6 + 8 * 2 ^ 132 + 2 ^ 160 + 4 * 2 ^ 192 + 64 * 2 ^ 224 + 16384 * 2 ^ 256 + 64 * 2 ^ 288 +
      64 * 2 ^ 320)) 0 0 0 (6 + 8 * 2 ^ 132 + 2 ^ 160 + 4 * 2 ^ 192 + 64 * 2 ^ 224 + 16384 * 2 ^ 256 + 64 * 2 ^ 288
      + 64 * 2 ^ 320) none
      (⟨by unfold Runs; decide +kernel, by decide +kernel, by decide +kernel, show bit _ 141 = false by decide +kernel, by decide +kernel⟩)
    repeat replace e := e (by decide +kernel)
    obtain ⟨t, e, -⟩ := e
    exact ⟨t, e⟩
  · have e := h.2.1 (busy (6 + 10 * 2 ^ 132 + 2 ^ 160 + 4 * 2 ^ 192 + 64 * 2 ^ 224 + 16384 * 2 ^ 256 + 64 * 2 ^ 288
      + 64 * 2 ^ 320)) 0 0 0 (6 + 10 * 2 ^ 132 + 2 ^ 160 + 4 * 2 ^ 192 + 64 * 2 ^ 224 + 16384 * 2 ^ 256 + 64 * 2 ^
      288 + 64 * 2 ^ 320) none
      (⟨by unfold Runs; decide +kernel, by decide +kernel, by decide +kernel, show bit _ 141 = false by decide +kernel, by decide +kernel⟩)
    repeat replace e := e (by decide +kernel)
    obtain ⟨t, e, -⟩ := e
    exact ⟨t, e⟩
  · obtain ⟨t, e, -⟩ := h.2.2.1 (busy (6 + 8 * 2 ^ 132 + 2 ^ 136 + 2 ^ 160 + 4 * 2 ^ 192 + 64 * 2 ^ 224 + 16384 * 2
      ^ 256 + 64 * 2 ^ 288 + 64 * 2 ^ 320 + 2048 * 2 ^ 352)) 0 0 0 (6 + 8 * 2 ^ 132 + 2 ^ 136 + 2 ^ 160 + 4 * 2 ^
      192 + 64 * 2 ^ 224 + 16384 * 2 ^ 256 + 64 * 2 ^ 288 + 64 * 2 ^ 320 + 2048 * 2 ^ 352) none
      (⟨by unfold Runs; decide +kernel, by decide +kernel, by decide +kernel, show bit _ 141 = false by decide +kernel, by decide +kernel⟩)
      (by decide +kernel) (by decide +kernel)
    exact ⟨t, e⟩

theorem wit_Conversions_2 (h : Obligations.Conversions) :
    (∃ t, exec (.convertFixed 0 0) (busy (6 + 8 * 2 ^ 132 + 2 * 2 ^ 136 + 2 ^ 160 + 4 * 2 ^ 192 + 64 * 2 ^ 224 + 16384
      * 2 ^ 256 + 64 * 2 ^ 288 + 64 * 2 ^ 320 + 1065353216 * 2 ^ 384)) = .next t) ∧
    (∃ t, exec (.convertDecode 0 0) (busy (6 + 8 * 2 ^ 128 + 2 ^ 160 + 4 * 2 ^ 192 + 16384 * 2 ^ 224 + 64 * 2 ^ 256 +
      64 * 2 ^ 288 + 64 * 2 ^ 320)) = .next t) ∧
    ((encBlock .int8 0 0 [.val .nan]).1 = Block.nan ∧ (encBlock .int8 0 0 [.val .nan]).1.isNan = true) := by
  refine ⟨?_, ?_, ?_⟩
  · obtain ⟨t, e, -⟩ := h.2.2.2.1 (busy (6 + 8 * 2 ^ 132 + 2 * 2 ^ 136 + 2 ^ 160 + 4 * 2 ^ 192 + 64 * 2 ^ 224 +
      16384 * 2 ^ 256 + 64 * 2 ^ 288 + 64 * 2 ^ 320 + 1065353216 * 2 ^ 384)) 0 0 0 (6 + 8 * 2 ^ 132 + 2 * 2 ^ 136 +
      2 ^ 160 + 4 * 2 ^ 192 + 64 * 2 ^ 224 + 16384 * 2 ^ 256 + 64 * 2 ^ 288 + 64 * 2 ^ 320 + 1065353216 * 2 ^ 384)
      none
      (⟨by unfold Runs; decide +kernel, by decide +kernel, by decide +kernel, show bit _ 141 = false by decide +kernel, by decide +kernel⟩)
      (by decide +kernel)
    exact ⟨t, e⟩
  · have e := h.2.2.2.2.1 (busy (6 + 8 * 2 ^ 128 + 2 ^ 160 + 4 * 2 ^ 192 + 16384 * 2 ^ 224 + 64 * 2 ^ 256 + 64 * 2 ^
      288 + 64 * 2 ^ 320)) 0 0 0 (6 + 8 * 2 ^ 128 + 2 ^ 160 + 4 * 2 ^ 192 + 16384 * 2 ^ 224 + 64 * 2 ^ 256 + 64 * 2
      ^ 288 + 64 * 2 ^ 320) (by unfold Runs; decide +kernel)
    repeat replace e := e (by decide +kernel)
    obtain ⟨t, e, -⟩ := e
    exact ⟨t, e⟩
  · exact h.2.2.2.2.2 .int8 0 0 ([.val .nan]) (⟨_, List.mem_singleton.mpr rfl, _, rfl, rfl⟩)

theorem wit_AttentionAndRotary_1 (h : Obligations.AttentionAndRotary) :
    (∃ t, exec (.forward 0 0) (busy (5 + 2 ^ 132 + 2 ^ 140 + 2 ^ 144 + 2 ^ 152 + 2 * 2 ^ 160 + 4096 * 2 ^ 192 + 8192 *
      2 ^ 224 + 12288 * 2 ^ 256 + 16384 * 2 ^ 288 + 20480 * 2 ^ 320 + 24576 * 2 ^ 384)) = .next t) ∧
    (busy (5 + 2 ^ 132 + 2 ^ 140 + 2 ^ 144 + 2 ^ 152 + 2 * 2 ^ 160 + 4096 * 2 ^ 192 + 8192 * 2 ^ 224 + 12288 * 2 ^ 256
      + 16384 * 2 ^ 288 + 20480 * 2 ^ 320 + 24576 * 2 ^ 384)).forwardRow 0 0 (5 + 2 ^ 132 + 2 ^ 140 + 2 ^ 144 + 2 ^
      152 + 2 * 2 ^ 160 + 4096 * 2 ^ 192 + 8192 * 2 ^ 224 + 12288 * 2 ^ 256 + 16384 * 2 ^ 288 + 20480 * 2 ^ 320 +
      24576 * 2 ^ 384) 0 0 = busy (5 + 2 ^ 132 + 2 ^ 140 + 2 ^ 144 + 2 ^ 152 + 2 * 2 ^ 160 + 4096 * 2 ^ 192 + 8192 * 2
      ^ 224 + 12288 * 2 ^ 256 + 16384 * 2 ^ 288 + 20480 * 2 ^ 320 + 24576 * 2 ^ 384) ∧
    (∃ t, exec (.finalise 0 0) (busy (5 + 2 ^ 128 + 2 ^ 132 + 2 ^ 140 + 2 ^ 144 + 2 ^ 152 + 2 * 2 ^ 160 + 4096 * 2 ^
      192 + 8192 * 2 ^ 224 + 12288 * 2 ^ 256 + 16384 * 2 ^ 288 + 20480 * 2 ^ 320 + 24576 * 2 ^ 384)) = .next t) ∧
    (∃ t, exec (.merge 0 0) (busy (5 + 2 * 2 ^ 128 + 2 ^ 132 + 2 ^ 140 + 2 ^ 144 + 2 ^ 152 + 2 * 2 ^ 160 + 4096 * 2 ^
      192 + 8192 * 2 ^ 224 + 12288 * 2 ^ 256 + 16384 * 2 ^ 288 + 20480 * 2 ^ 320 + 24576 * 2 ^ 384)) = .next t) := by
  refine ⟨?_, ?_, ?_, ?_⟩
  · obtain ⟨t, e, -⟩ := h.1 (busy (5 + 2 ^ 132 + 2 ^ 140 + 2 ^ 144 + 2 ^ 152 + 2 * 2 ^ 160 + 4096 * 2 ^ 192 + 8192 *
      2 ^ 224 + 12288 * 2 ^ 256 + 16384 * 2 ^ 288 + 20480 * 2 ^ 320 + 24576 * 2 ^ 384)) 0 0 0 (5 + 2 ^ 132 + 2 ^ 140
      + 2 ^ 144 + 2 ^ 152 + 2 * 2 ^ 160 + 4096 * 2 ^ 192 + 8192 * 2 ^ 224 + 12288 * 2 ^ 256 + 16384 * 2 ^ 288 +
      20480 * 2 ^ 320 + 24576 * 2 ^ 384) (⟨by unfold Runs; decide +kernel, by decide +kernel, by decide +kernel⟩)
      (by decide +kernel) (by decide +kernel)
    exact ⟨t, e⟩
  · exact h.2.1 (busy (5 + 2 ^ 132 + 2 ^ 140 + 2 ^ 144 + 2 ^ 152 + 2 * 2 ^ 160 + 4096 * 2 ^ 192 + 8192 * 2 ^ 224 +
      12288 * 2 ^ 256 + 16384 * 2 ^ 288 + 20480 * 2 ^ 320 + 24576 * 2 ^ 384)) 0 0 (5 + 2 ^ 132 + 2 ^ 140 + 2 ^ 144 + 2
      ^ 152 + 2 * 2 ^ 160 + 4096 * 2 ^ 192 + 8192 * 2 ^ 224 + 12288 * 2 ^ 256 + 16384 * 2 ^ 288 + 20480 * 2 ^ 320 +
      24576 * 2 ^ 384) 0 0 (by decide +kernel) (Or.inr (by decide +kernel))
  · obtain ⟨t, e, -⟩ := h.2.2.1 (busy (5 + 2 ^ 128 + 2 ^ 132 + 2 ^ 140 + 2 ^ 144 + 2 ^ 152 + 2 * 2 ^ 160 + 4096 * 2
      ^ 192 + 8192 * 2 ^ 224 + 12288 * 2 ^ 256 + 16384 * 2 ^ 288 + 20480 * 2 ^ 320 + 24576 * 2 ^ 384)) 0 0 0 (5 + 2
      ^ 128 + 2 ^ 132 + 2 ^ 140 + 2 ^ 144 + 2 ^ 152 + 2 * 2 ^ 160 + 4096 * 2 ^ 192 + 8192 * 2 ^ 224 + 12288 * 2 ^
      256 + 16384 * 2 ^ 288 + 20480 * 2 ^ 320 + 24576 * 2 ^ 384)
      (⟨by unfold Runs; decide +kernel, by decide +kernel, by decide +kernel⟩) (by decide +kernel)
    exact ⟨t, e⟩
  · obtain ⟨t, e, -⟩ := h.2.2.2.1 (busy (5 + 2 * 2 ^ 128 + 2 ^ 132 + 2 ^ 140 + 2 ^ 144 + 2 ^ 152 + 2 * 2 ^ 160 +
      4096 * 2 ^ 192 + 8192 * 2 ^ 224 + 12288 * 2 ^ 256 + 16384 * 2 ^ 288 + 20480 * 2 ^ 320 + 24576 * 2 ^ 384)) 0 0
      0 (5 + 2 * 2 ^ 128 + 2 ^ 132 + 2 ^ 140 + 2 ^ 144 + 2 ^ 152 + 2 * 2 ^ 160 + 4096 * 2 ^ 192 + 8192 * 2 ^ 224 +
      12288 * 2 ^ 256 + 16384 * 2 ^ 288 + 20480 * 2 ^ 320 + 24576 * 2 ^ 384)
      (⟨by unfold Runs; decide +kernel, by decide +kernel, by decide +kernel⟩) (by decide +kernel)
    exact ⟨t, e⟩

theorem wit_AttentionAndRotary_2 (h : Obligations.AttentionAndRotary) :
    (∃ t, exec (.backwardPrep 0 0) (busy (5 + 3 * 2 ^ 128 + 2 ^ 132 + 2 ^ 140 + 2 ^ 144 + 2 ^ 152 + 2 * 2 ^ 160 + 4096
      * 2 ^ 192 + 8192 * 2 ^ 224 + 12288 * 2 ^ 256 + 16384 * 2 ^ 288 + 20480 * 2 ^ 320 + 24576 * 2 ^ 384)) = .next t) ∧
    (∃ t, exec (.backward 0 0) (busyPal (5 + 4 * 2 ^ 128 + 2 ^ 132 + 2 ^ 140 + 2 ^ 144 + 2 ^ 152 + 2 * 2 ^ 160 + 4096
      * 2 ^ 192 + 8192 * 2 ^ 224 + 12288 * 2 ^ 256 + 16384 * 2 ^ 288 + 20480 * 2 ^ 320 + 24576 * 2 ^ 384) (memPut []
      16384 (toLe 64 (32768 + 36864 * 2 ^ 32 + 40960 * 2 ^ 64 + 45056 * 2 ^ 96)))) = .next t) ∧
    (∃ t, exec (.rotary 0 0) (busyPal (7 + 2 ^ 144 + 2 ^ 160 + 2 * 2 ^ 176 + 4096 * 2 ^ 192 + 8192 * 2 ^ 320) (memPut
      [] 8192 (toLe 4 0x3F800000))) = .next t) := by
  refine ⟨?_, ?_, ?_⟩
  · obtain ⟨t, e, -⟩ := h.2.2.2.2.1 (busy (5 + 3 * 2 ^ 128 + 2 ^ 132 + 2 ^ 140 + 2 ^ 144 + 2 ^ 152 + 2 * 2 ^ 160 +
      4096 * 2 ^ 192 + 8192 * 2 ^ 224 + 12288 * 2 ^ 256 + 16384 * 2 ^ 288 + 20480 * 2 ^ 320 + 24576 * 2 ^ 384)) 0 0
      0 (5 + 3 * 2 ^ 128 + 2 ^ 132 + 2 ^ 140 + 2 ^ 144 + 2 ^ 152 + 2 * 2 ^ 160 + 4096 * 2 ^ 192 + 8192 * 2 ^ 224 +
      12288 * 2 ^ 256 + 16384 * 2 ^ 288 + 20480 * 2 ^ 320 + 24576 * 2 ^ 384)
      (⟨by unfold Runs; decide +kernel, by decide +kernel, by decide +kernel⟩) (by decide +kernel)
    exact ⟨t, e⟩
  · have e := h.2.2.2.2.2.1 (busyPal (5 + 4 * 2 ^ 128 + 2 ^ 132 + 2 ^ 140 + 2 ^ 144 + 2 ^ 152 + 2 * 2 ^ 160 + 4096 *
      2 ^ 192 + 8192 * 2 ^ 224 + 12288 * 2 ^ 256 + 16384 * 2 ^ 288 + 20480 * 2 ^ 320 + 24576 * 2 ^ 384) (memPut []
      16384 (toLe 64 (32768 + 36864 * 2 ^ 32 + 40960 * 2 ^ 64 + 45056 * 2 ^ 96)))) 0 0 0 (5 + 4 * 2 ^ 128 + 2 ^ 132
      + 2 ^ 140 + 2 ^ 144 + 2 ^ 152 + 2 * 2 ^ 160 + 4096 * 2 ^ 192 + 8192 * 2 ^ 224 + 12288 * 2 ^ 256 + 16384 * 2 ^
      288 + 20480 * 2 ^ 320 + 24576 * 2 ^ 384) (32768 + 36864 * 2 ^ 32 + 40960 * 2 ^ 64 + 45056 * 2 ^ 96)
      (⟨by unfold Runs; decide +kernel, by decide +kernel, by decide +kernel⟩)
    repeat replace e := e (by decide +kernel)
    obtain ⟨t, e, -⟩ := e
    exact ⟨t, e⟩
  · have e := h.2.2.2.2.2.2 (busyPal (7 + 2 ^ 144 + 2 ^ 160 + 2 * 2 ^ 176 + 4096 * 2 ^ 192 + 8192 * 2 ^ 320) (memPut
      [] 8192 (toLe 4 0x3F800000))) 0 0 0 (7 + 2 ^ 144 + 2 ^ 160 + 2 * 2 ^ 176 + 4096 * 2 ^ 192 + 8192 * 2 ^ 320)
      (by unfold Runs; decide +kernel)
    repeat replace e := e (by decide +kernel)
    obtain ⟨t, e, -⟩ := e
    exact ⟨t, e⟩

theorem wit_CommandStreams_1 (h : Obligations.CommandStreams) :
    (∃ t, exec (.easelDoorbell 0 0 64) ({ ofCtx runCtx with fab := { palette := memPut [] 4160 (toLe 64 0) } }) =
      .next t) ∧
    (∃ t, exec (.easelDoorbell 0 0 64) ({ ofCtx runCtx with fab := { palette := memPut [] 4160 (toLe 64 48) } }) =
      .next t) ∧
    (∃ t, exec (.easelDoorbell 0 0 64) (busy 0) = .next t) := by
  refine ⟨?_, ?_, ?_⟩
  · have e := h.1 { ofCtx runCtx with fab := { palette := memPut [] 4160 (toLe 64 0) } } 0 0 0 64 4096 4096 0
    repeat replace e := e (by decide +kernel)
    replace e := e.1
    repeat replace e := e (by decide +kernel)
    obtain ⟨t, e, -⟩ := e
    exact ⟨t, e⟩
  · have e := h.1 { ofCtx runCtx with fab := { palette := memPut [] 4160 (toLe 64 48) } } 0 0 0 64 4096 4096 48
    repeat replace e := e (by decide +kernel)
    replace e := e.2
    repeat replace e := e (by decide +kernel)
    obtain ⟨t, e, -⟩ := e
    exact ⟨t, e⟩
  · have e := h.2.1 (busy 0) 0 0 0 64
    repeat replace e := e (by decide +kernel)
    exact ⟨_, e⟩

theorem wit_CommandStreams_2 (h : Obligations.CommandStreams) :
    (∃ t, exec (.nop 0 0) (busy 0) = .next t) ∧
    (∃ t, exec (.endCmd 0 0) (busy 31) = .next t) ∧
    (∃ t, exec (.matmul 0 0) (busy (1 + 8 * 2 ^ 128 + 8 * 2 ^ 132 + 2 ^ 144 + 2 ^ 160 + 2 ^ 192 + 1048576 * 2 ^ 224))
      = .next t) := by
  refine ⟨?_, ?_, ?_⟩
  · have e := h.2.2.1 (busy 0) 0 0 0 0 0 4096 4096 (by unfold Runs; decide +kernel)
    repeat replace e := e (by decide +kernel)
    obtain ⟨t, e, -⟩ := e
    exact ⟨t, e⟩
  · have e := h.2.2.2.1 (busy 31) 0 0 0 31 (by unfold Runs; decide +kernel)
    repeat replace e := e (by decide +kernel)
    obtain ⟨t, e, -⟩ := e
    exact ⟨t, e⟩
  · have e := h.2.2.2.2 (busy (1 + 8 * 2 ^ 128 + 8 * 2 ^ 132 + 2 ^ 144 + 2 ^ 160 + 2 ^ 192 + 1048576 * 2 ^ 224)) 0 0
      0 (1 + 8 * 2 ^ 128 + 8 * 2 ^ 132 + 2 ^ 144 + 2 ^ 160 + 2 ^ 192 + 1048576 * 2 ^ 224)
      (by unfold Runs; decide +kernel)
    repeat replace e := e (by decide +kernel)
    obtain ⟨t, e, -⟩ := e
    exact ⟨t, e⟩

theorem wit_Tallies_1 (h : Obligations.Tallies) :
    (∃ t, exec (.tallyAcquire 0 0) (busyTally (16 + 3 * 2 ^ 132 + 2 * 2 ^ 160) 5) = .next t) ∧
    (∃ t, exec (.tallyAcquire 0 0) (busyTally (16 + 3 * 2 ^ 132 + 2 * 2 ^ 160) 1) = .next t) ∧
    (∃ t, exec (.tallyWait 0 0) (busyTally (16 + 2 ^ 128 + 3 * 2 ^ 132 + 2 * 2 ^ 160) 5) = .next t) ∧
    (∃ t, exec (.tallyWait 0 0) (busyTally (16 + 2 ^ 128 + 3 * 2 ^ 132 + 2 * 2 ^ 160) 1) = .next t) ∧
    (∃ t, exec (.tallyRelease 0 0) (busyTally (16 + 2 * 2 ^ 128 + 3 * 2 ^ 132 + 2 * 2 ^ 160) 5) = .next t) := by
  refine ⟨?_, ?_, ?_, ?_, ?_⟩
  · obtain ⟨t, e, -⟩ := (h.1 (busyTally (16 + 3 * 2 ^ 132 + 2 * 2 ^ 160) 5) 0 0 0 (16 + 3 * 2 ^ 132 + 2 * 2 ^ 160)
      (by unfold Runs; decide +kernel) (by decide +kernel) (by decide +kernel) (⟨by decide +kernel, rfl⟩)
      (by decide +kernel)).1 (by decide +kernel) (by decide +kernel)
    exact ⟨t, e⟩
  · obtain ⟨t, e, -⟩ := ((h.1 (busyTally (16 + 3 * 2 ^ 132 + 2 * 2 ^ 160) 1) 0 0 0 (16 + 3 * 2 ^ 132 + 2 * 2 ^ 160)
      (by unfold Runs; decide +kernel) (by decide +kernel) (by decide +kernel) (⟨by decide +kernel, rfl⟩)
      (by decide +kernel)).2).1 (by decide +kernel) (by decide +kernel)
    exact ⟨t, e⟩
  · obtain ⟨t, e, -⟩ := (((h.1 (busyTally (16 + 2 ^ 128 + 3 * 2 ^ 132 + 2 * 2 ^ 160) 5) 0 0 0 (16 + 2 ^ 128 + 3 * 2 ^
      132 + 2 * 2 ^ 160) (by unfold Runs; decide +kernel) (by decide +kernel) (by decide +kernel)
      (⟨by decide +kernel, rfl⟩) (by decide +kernel)).2).2).1 (by decide +kernel) (by decide +kernel)
    exact ⟨t, e⟩
  · obtain ⟨t, e, -⟩ := ((((h.1 (busyTally (16 + 2 ^ 128 + 3 * 2 ^ 132 + 2 * 2 ^ 160) 1) 0 0 0 (16 + 2 ^ 128 + 3 * 2 ^
      132 + 2 * 2 ^ 160) (by unfold Runs; decide +kernel) (by decide +kernel) (by decide +kernel)
      (⟨by decide +kernel, rfl⟩) (by decide +kernel)).2).2).2).1 (by decide +kernel) (by decide +kernel)
    exact ⟨t, e⟩
  · obtain ⟨t, e, -⟩ := ((((h.1 (busyTally (16 + 2 * 2 ^ 128 + 3 * 2 ^ 132 + 2 * 2 ^ 160) 5) 0 0 0 (16 + 2 * 2 ^ 128 +
      3 * 2 ^ 132 + 2 * 2 ^ 160) (by unfold Runs; decide +kernel) (by decide +kernel) (by decide +kernel)
      (⟨by decide +kernel, rfl⟩) (by decide +kernel)).2).2).2).2 (by decide +kernel) (by decide +kernel)
    exact ⟨t, e⟩

theorem wit_Tallies_2 (h : Obligations.Tallies) :
    (∃ t, exec (.tallyPost 0 3 2) (ofCtx runCtx) = .next t) ∧
    (∃ t, exec (.tallyPost 0 3 2) ({ ofCtx runCtx with fab := { tally := [(3, 65535)] } }) = .next t) ∧
    (∃ t, exec (.tallyPost 0 3 2)
      ({ ofCtx runCtx with fab := { queue := [(0, { run := .running, cmd := some 0, wait := some (.acquire 3 2) })], waiters := [{ tally := 3, e := 0, q := 0, acquire := true, n := 2 }] } })
      = .next t) ∧
    (∃ t, exec (.tallySet 3 7) (ofCtx runCtx) = .next t) ∧
    (∃ t, exec (.tallyRead 3) (ofCtx runCtx) = .next t) := by
  refine ⟨?_, ?_, ?_, ?_, ?_⟩
  · obtain ⟨t, e, -⟩ := (h.2.1 (ofCtx runCtx) 0 3 2 (by decide +kernel) (by decide +kernel) (by decide +kernel)
      (⟨by decide +kernel, rfl⟩)).1 (by decide +kernel)
    exact ⟨t, e⟩
  · obtain ⟨t, e, -⟩ := (h.2.1 { ofCtx runCtx with fab := { tally := [(3, 65535)] } } 0 3 2 (by decide +kernel)
      (by decide +kernel) (by decide +kernel) (⟨by decide +kernel, rfl⟩)).2 (by decide +kernel) (by decide +kernel)
      (by decide +kernel) 0 (by decide +kernel) (by decide +kernel)
    exact ⟨t, e⟩
  · have e := h.2.2.1
      { ofCtx runCtx with fab := { queue := [(0, { run := .running, cmd := some 0, wait := some (.acquire 3 2) })], waiters := [{ tally := 3, e := 0, q := 0, acquire := true, n := 2 }] } }
      0 3 2 0 0 2 0
    repeat replace e := e (by decide +kernel)
    obtain ⟨t, e, -⟩ := e
    exact ⟨t, e⟩
  · obtain ⟨t, e, -⟩ := (h.2.2.2 (ofCtx runCtx) 3 7 (by decide +kernel) (by decide +kernel)).1
      (⟨by decide +kernel, rfl⟩) (by decide +kernel)
    exact ⟨t, e⟩
  · have e := (h.2.2.2 (ofCtx runCtx) 3 7 (by decide +kernel) (by decide +kernel)).2
    exact ⟨_, e⟩

theorem wit_BarriersAndStops (h : Obligations.BarriersAndStops) :
    (∃ t, exec (.barrierArrive 0 0)
      ({ busy 17 with fab := { (busy 17).fab with bar := [(0, { owner := 0, members := [0, 1] })] } }) = .next t) ∧
    (∃ t, exec (.barrierComplete 0 0)
      ({ ofCtx runCtx with fab := { bar := [(0, { owner := 0, members := [0], arrivals := [(0, 1)] })] } }) = .next t) ∧
    (∃ t, exec (.barrierComplete 0 0)
      ({ ofCtx runCtx with fab := { bar := [(0, { owner := 0, members := [0, 1] })] } }) = .next t) ∧
    (∃ t, exec (.preemptStopSignal 0) (ofCtx { runCtx with stopping := true }) = .next t) ∧
    (∃ t, exec (.queueStopped 0 0) ({ busy 0 with fab := { (busy 0).fab with stop := [0] } }) = .next t) := by
  refine ⟨?_, ?_, ?_, ?_, ?_⟩
  · have e := h.1 { busy 17 with fab := { (busy 17).fab with bar := [(0, { owner := 0, members := [0, 1] })] } } 0 0
      0 17 0 runCtx false { owner := 0, members := [0, 1] } (by unfold Runs; decide +kernel)
    repeat replace e := e (by decide +kernel)
    obtain ⟨t, e, -⟩ := e
    exact ⟨t, e⟩
  · have e := h.2.1
      { ofCtx runCtx with fab := { bar := [(0, { owner := 0, members := [0], arrivals := [(0, 1)] })] } } 0 0 false
      { owner := 0, members := [0], arrivals := [(0, 1)] }
    repeat replace e := e (by decide +kernel)
    replace e := e.1
    repeat replace e := e (by decide +kernel)
    obtain ⟨t, _, e, -⟩ := e
    exact ⟨t, e.2 rfl⟩
  · have e := h.2.1 { ofCtx runCtx with fab := { bar := [(0, { owner := 0, members := [0, 1] })] } } 0 0 false
      { owner := 0, members := [0, 1] }
    repeat replace e := e (by decide +kernel)
    replace e := e.2
    repeat replace e := e (by decide +kernel)
    exact ⟨_, e.2 rfl⟩
  · have e := h.2.2.1 (ofCtx { runCtx with stopping := true }) 0 0 { runCtx with stopping := true }
    repeat replace e := e (by decide +kernel)
    obtain ⟨t, e, -⟩ := e
    exact ⟨t, e⟩
  · have e := h.2.2.2 { busy 0 with fab := { (busy 0).fab with stop := [0] } } 0 0
    repeat replace e := e (by decide +kernel)
    obtain ⟨t, e, -⟩ := e
    exact ⟨t, e⟩

theorem wit_DmaTransfers_1 (h : Obligations.DmaTransfers) :
    (∃ t, exec (.dma 0 0) (busyPal (18 + 512 * 2 ^ 128) (memPut [] 0x200 (toLe 64 (2 ^ 8 + 1024 * 2 ^ 64 + 2048 * 2 ^
      128 + 64 * 2 ^ 192 + 2 ^ 224 + 2 ^ 240)))) = .next t) ∧
    (∃ t, exec (.dma 0 0) (busyPal (18 + 512 * 2 ^ 128) (memPut [] 0x200 (toLe 64 0))) = .next t) ∧
    (∃ t, exec (.tagReturn 0 0) (dmaState { dmaJob 0 with tags := (2, 0, 0) }) = .next t) ∧
    (∃ t, exec (.copy 0 0) (dmaState (dmaJob (2 ^ 8 + 1024
      * 2 ^ 64 + 2048 * 2 ^ 128 + 64 * 2 ^ 192 + 2 ^ 224 + 2 ^ 240))) = .next t) := by
  refine ⟨?_, ?_, ?_, ?_⟩
  · obtain ⟨t, e, -⟩ := (h.1.1 (busyPal (18 + 512 * 2 ^ 128) (memPut [] 0x200 (toLe 64 (2 ^ 8 + 1024 * 2 ^ 64 + 2048
      * 2 ^ 128 + 64 * 2 ^ 192 + 2 ^ 224 + 2 ^ 240)))) 0 0 0 (18 + 512 * 2 ^ 128) (2 ^ 8 + 1024 * 2 ^ 64 + 2048 * 2
      ^ 128 + 64 * 2 ^ 192 + 2 ^ 224 + 2 ^ 240) (by unfold Runs; decide +kernel) (by decide +kernel)
      (by decide +kernel) (by decide +kernel)).1 (by decide +kernel) (by decide +kernel)
    exact ⟨t, e⟩
  · obtain ⟨t, e, -⟩ := (h.1.1 (busyPal (18 + 512 * 2 ^ 128) (memPut [] 0x200 (toLe 64 0))) 0 0 0 (18 + 512 * 2 ^
      128) 0 (by unfold Runs; decide +kernel) (by decide +kernel) (by decide +kernel) (by decide +kernel)).2
      (by decide +kernel) (by decide +kernel) (by decide +kernel) (by decide +kernel)
    exact ⟨t, e⟩
  · have e := h.1.2 (dmaState { dmaJob 0 with tags := (2, 0, 0) }) 0 0 0 { dmaJob 0 with tags := (2, 0, 0) } []
    repeat replace e := e (by decide +kernel)
    exact ⟨_, e⟩
  · have e := h.2.1 (dmaState (dmaJob (2 ^ 8 + 1024 * 2 ^ 64 + 2048 * 2 ^ 128 + 64 * 2 ^ 192 + 2 ^ 224 + 2 ^ 240)))
      0 0 0 (dmaJob (2 ^ 8 + 1024 * 2 ^ 64 + 2048 * 2 ^ 128 + 64 * 2 ^ 192 + 2 ^ 224 + 2 ^ 240))
      (⟨rfl, rfl, by decide +kernel, by decide +kernel, by decide +kernel⟩)
    repeat replace e := e (by decide +kernel)
    obtain ⟨t, _, _, e, -⟩ := e
    exact ⟨t, e.1 rfl⟩

theorem wit_DmaTransfers_2 (h : Obligations.DmaTransfers) :
    (∃ t, exec (.dmaDescriptorComplete 0 0) (dmaState
      { dmaJob (2 ^ 8 + 1024 * 2 ^ 64 + 2048 * 2 ^ 128 + 64 * 2 ^ 192 + 2 ^ 224 + 2 ^ 240) with started := true, failed := true })
      = .next t) ∧
    (∃ t, exec (.dmaDescriptorComplete 0 0) (dmaState
      ({ dmaJob (2 ^ 4 + 5 * 2 ^ 8 + 2 ^ 24 + 3 * 2 ^ 32 + 2 * 2 ^ 48 + 1024 * 2 ^ 64 + 2097152 * 2 ^ 128 + 64 * 2 ^ 192 + 2 ^ 224 + 2 ^ 240) with started := true }))
      = .next t) ∧
    (∃ t, exec (.copy 0 0)
      ({ dmaState (dmaJob (2 ^ 4 + 5 * 2 ^ 8 + 1024 * 2 ^ 64 + 2097152 * 2 ^ 128 + 64 * 2 ^ 192 + 2 ^ 224 + 2 ^ 240)) with ring := { linked.ring with jobs := [job5] } })
      = .next t) ∧
    (∃ t, exec (.copy 0 0)
      ({ dmaState (dmaJob (2 ^ 4 + 4 * 2 ^ 8 + 1024 * 2 ^ 64 + 2097152 * 2 ^ 128 + 64 * 2 ^ 192 + 2 ^ 224 + 2 ^ 240)) with ring := { east := { linked.ring.east with used := [(2, 2)] }, jobs := [job5] } })
      = .next t) ∧
    (∃ t, exec (.copy 0 0) hostCopy = .next t) ∧
    exec (.dmaDescriptorComplete 0 0) hostCopy = .next hostCopy := by
  have wait := h.2.2.1 hostCopy 0 0 0 (dmaJob (3 * 2 ^ 4 + 2 ^ 8 + 64 * 2 ^ 192)) rfl (by decide +kernel)
  refine ⟨?_, ?_, ?_, ?_, ?_, wait.2⟩
  · have e := h.2.2.2.1 (dmaState
      { dmaJob (2 ^ 8 + 1024 * 2 ^ 64 + 2048 * 2 ^ 128 + 64 * 2 ^ 192 + 2 ^ 224 + 2 ^ 240) with started := true, failed := true })
      0 0
      { dmaJob (2 ^ 8 + 1024 * 2 ^ 64 + 2048 * 2 ^ 128 + 64 * 2 ^ 192 + 2 ^ 224 + 2 ^ 240) with started := true, failed := true }
    repeat replace e := e (by decide +kernel)
    obtain ⟨t, e, -⟩ := e
    exact ⟨t, e⟩
  · have e := h.2.2.2.2.1 (dmaState
      ({ dmaJob (2 ^ 4 + 5 * 2 ^ 8 + 2 ^ 24 + 3 * 2 ^ 32 + 2 * 2 ^ 48 + 1024 * 2 ^ 64 + 2097152 * 2 ^ 128 + 64 * 2 ^ 192 + 2 ^ 224 + 2 ^ 240) with started := true }))
      0 0
      { dmaJob (2 ^ 4 + 5 * 2 ^ 8 + 2 ^ 24 + 3 * 2 ^ 32 + 2 * 2 ^ 48 + 1024 * 2 ^ 64 + 2097152 * 2 ^ 128 + 64 * 2 ^ 192 + 2 ^ 224 + 2 ^ 240) with started := true }
    repeat replace e := e (by decide +kernel)
    obtain ⟨t, e, -⟩ := e
    exact ⟨t, e⟩
  · have e := h.2.2.2.2.2
      { dmaState (dmaJob (2 ^ 4 + 5 * 2 ^ 8 + 1024 * 2 ^ 64 + 2097152 * 2 ^ 128 + 64 * 2 ^ 192 + 2 ^ 224 + 2 ^ 240)) with ring := { linked.ring with jobs := [job5] } }
      0 0 1 2 (dmaJob (2 ^ 4 + 5 * 2 ^ 8 + 1024 * 2 ^ 64 + 2097152 * 2 ^ 128 + 64 * 2 ^ 192 + 2 ^ 224 + 2 ^ 240))
      job5 (⟨rfl, rfl, by decide +kernel, by decide +kernel, by decide +kernel⟩)
    repeat replace e := e (by decide +kernel)
    replace e := e.1
    repeat replace e := e (by decide +kernel)
    obtain ⟨t, e, -⟩ := e
    exact ⟨t, e⟩
  · have e := h.2.2.2.2.2
      { dmaState (dmaJob (2 ^ 4 + 4 * 2 ^ 8 + 1024 * 2 ^ 64 + 2097152 * 2 ^ 128 + 64 * 2 ^ 192 + 2 ^ 224 + 2 ^ 240)) with ring := { east := { linked.ring.east with used := [(2, 2)] }, jobs := [job5] } }
      0 0 0 2 (dmaJob (2 ^ 4 + 4 * 2 ^ 8 + 1024 * 2 ^ 64 + 2097152 * 2 ^ 128 + 64 * 2 ^ 192 + 2 ^ 224 + 2 ^ 240))
      job5 (⟨rfl, rfl, by decide +kernel, by decide +kernel, by decide +kernel⟩)
    repeat replace e := e (by decide +kernel)
    replace e := e.2
    repeat replace e := e (by decide +kernel)
    exact ⟨_, e⟩
  · have e := wait.1.1 rfl
    exact ⟨_, e⟩

theorem wit_CodeCorrectsAndDetects (h : Obligations.CodeCorrectsAndDetects) :
    bchDecode 80 (2 ^ 7) = .corrected [7] ∧
    bchDecode 80 (2 ^ 7 + 2 ^ 79) = .corrected [7, 79] ∧
    bchDecode 79 (2 ^ 0 + 2 ^ 7 + 2 ^ 78) = .uncorrectable ∧
    bchSyndrome ((2 ^ 64 - 1) * 2 ^ 15 + bchCheck (2 ^ 64 - 1)) = 0 := by
  refine ⟨?_, ?_, ?_, ?_⟩
  · exact h.1 80 7 (Or.inr rfl) (by decide +kernel)
  · exact h.2.1 80 7 79 (Or.inr rfl) (by decide +kernel) (by decide +kernel)
  · exact h.2.2.1 79 0 7 78 (Or.inl rfl) (by decide +kernel) (by decide +kernel) (by decide +kernel)
  · exact (h.2.2.2.1 (2 ^ 64 - 1) (by decide +kernel)).2

theorem wit_FreezesAndRepair_1 (h : Obligations.FreezesAndRepair) :
    (∃ t, exec (.deviceFreeze 5) on = .next t) ∧
    (∃ t, exec (.deviceFreeze 3) on = .next t) ∧
    (∃ t, exec (.deviceFreeze 1) on = .next t) ∧
    (∃ t, exec (.deviceFreeze 3) ({ on with err := { active := some (0, 4) } }) = .next t) ∧
    (∃ t, exec (.correctedWriteBack .palette 3 9)
      ({ on with err := { sram := [({ mem := .palette, unit := 3, word := 9 }, 2)], writeBack := [{ mem := .palette, unit := 3, word := 9 }] } })
      = .next t) := by
  refine ⟨?_, ?_, ?_, ?_, ?_⟩
  · have e := h.1.1 on 5
    repeat replace e := e (by decide +kernel)
    obtain ⟨t, e, -⟩ := e
    exact ⟨t, e⟩
  · have e := (h.1.2.2.1 on (by decide +kernel) (by decide +kernel) (by decide +kernel) (by decide +kernel)).1
    exact ⟨_, e⟩
  · obtain ⟨t, _, e, -⟩ := (h.1.2.2.1 on (by decide +kernel) (by decide +kernel) (by decide +kernel)
      (by decide +kernel)).2
    exact ⟨t, e⟩
  · have e := h.1.2.2.2 { on with err := { active := some (0, 4) } }
    repeat replace e := e (by decide +kernel)
    obtain ⟨t, e, -⟩ := e
    exact ⟨t, e⟩
  · have e := h.2.1
      { on with err := { sram := [({ mem := .palette, unit := 3, word := 9 }, 2)], writeBack := [{ mem := .palette, unit := 3, word := 9 }] } }
      .palette 3 9
    repeat replace e := e (by decide +kernel)
    obtain ⟨t, e, -⟩ := e
    exact ⟨t, e⟩

theorem wit_FreezesAndRepair_2 (h : Obligations.FreezesAndRepair) :
    (∃ t, exec (.onchipScrub .palette 3)
      ({ on with err := { scrubPos := [{ mem := .palette, unit := 3, word := 9 }] } }) = .next t) ∧
    (∃ t, exec (.onchipScrub .palette 3)
      ({ on with err := { sram := [({ mem := .palette, unit := 3, word := 0 }, 2 ^ 5)] } }) = .next t) ∧
    (∃ t, exec (.macroRetirement .palette 3) ({ on with err := { pendingRetire := [(.palette, 3, 4)] } }) = .next t) ∧
    (∃ t, exec (.macroRetirement .palette 0) ({ ofCtx runCtx with err := { pendingRetire := [(.palette, 0, 4)] } }) =
      .next t) := by
  refine ⟨?_, ?_, ?_, ?_⟩
  · have e := h.2.2.1 { on with err := { scrubPos := [{ mem := .palette, unit := 3, word := 9 }] } } .palette 3 9
    repeat replace e := e (by decide +kernel)
    exact ⟨_, e⟩
  · have e := h.2.2.2.1 { on with err := { sram := [({ mem := .palette, unit := 3, word := 0 }, 2 ^ 5)] } } 3 5
    repeat replace e := e (by decide +kernel)
    obtain ⟨t, e, -⟩ := e
    exact ⟨t, e⟩
  · obtain ⟨t, e, -⟩ := (h.2.2.2.2 { on with err := { pendingRetire := [(.palette, 3, 4)] } } 3 (by decide +kernel)
      (by decide +kernel)).1 (by decide +kernel)
    exact ⟨t, e⟩
  · have e := (h.2.2.2.2 { ofCtx runCtx with err := { pendingRetire := [(.palette, 0, 4)] } } 0 (by decide +kernel)
      (by decide +kernel)).2 (by decide +kernel)
    exact ⟨_, e⟩

theorem wit_ErrorsAndTeardown (h : Obligations.ErrorsAndTeardown) :
    (∃ t, exec (.errorTakeUp)
      ({ ofCtx runCtx with err := { active := some (0, 4) }, mbox := { session := [(0, sess)] } }) = .next t) ∧
    (∃ t, exec (.errorTakeUp) ({ on with err := { active := some (0, 4) } }) = .next t) ∧
    (∃ t, exec (.teardownScrubComplete 0)
      ({ ofCtx ({ runCtx with st := .tearingDown, tearStep := 2, tearMode := 1, cause := 4 }) with err := { active := some (0, 4), takenUp := true } })
      = .next t) ∧
    (∃ t, exec (.contextFaultedEntry 0)
      ({ ofCtx ({ runCtx with part := none, st := .tearingDown, tearStep := 4, tearMode := 1, cause := 4 }) with mbox := { session := [(0, sess)] } })
      = .next t) := by
  refine ⟨?_, ?_, ?_, ?_⟩
  · have e := h.1 { ofCtx runCtx with err := { active := some (0, 4) }, mbox := { session := [(0, sess)] } } 0 4
      runCtx sess
    repeat replace e := e (by decide +kernel)
    obtain ⟨t, _, e, -⟩ := e
    exact ⟨t, e⟩
  · have e := h.2.1 { on with err := { active := some (0, 4) } } 0 4
    repeat replace e := e (by decide +kernel)
    obtain ⟨t, e, -⟩ := e
    exact ⟨t, e⟩
  · have e := h.2.2.1
      { ofCtx ({ runCtx with st := .tearingDown, tearStep := 2, tearMode := 1, cause := 4 }) with err := { active := some (0, 4), takenUp := true } }
      0 { runCtx with st := .tearingDown, tearStep := 2, tearMode := 1, cause := 4 }
      { variant := 0, easels := [0], canvas := [(0, 0, 65536)], bars := [0], devBar := none, tags := (4, 4, 4), placedAt := 0 }
    repeat replace e := e (by decide +kernel)
    obtain ⟨t, _, e, -⟩ := e
    exact ⟨t, e⟩
  · have e := h.2.2.2
      { ofCtx ({ runCtx with part := none, st := .tearingDown, tearStep := 4, tearMode := 1, cause := 4 }) with mbox := { session := [(0, sess)] } }
      0 { runCtx with part := none, st := .tearingDown, tearStep := 4, tearMode := 1, cause := 4 } sess
    repeat replace e := e (by decide +kernel)
    obtain ⟨t, _, e, -⟩ := e
    exact ⟨t, e⟩

theorem wit_PreemptionAndPlacement (h : Obligations.PreemptionAndPlacement) :
    (∃ t, exec (.preemptSaveComplete 0) ({ ofCtx ({ runCtx with stopping := true }) with fab := { stop := [0] } }) =
      .next t) ∧
    (∃ t, exec (.bestEffortPlacement) waitState = .next t) ∧
    (∃ t, exec (.bestEffortPlacement) on = .next t) ∧
    (∃ t, exec (.resumeRestoreComplete 0) (ofCtx resumeCtx) = .next t) ∧
    (∃ t, exec (.resumeRestoreComplete 0) (ofCtx { resumeCtx with stopping := true }) = .next t) := by
  refine ⟨?_, ?_, ?_, ?_, ?_⟩
  · have e := h.1 { ofCtx ({ runCtx with stopping := true }) with fab := { stop := [0] } } 0
      { runCtx with stopping := true } runPart (imageRun.variants.headD {}) {} imageRun
    repeat replace e := e (by decide +kernel)
    obtain ⟨t, _, e, -⟩ := e
    exact ⟨t, e⟩
  · have e := h.2.1 waitState 0 [] waitCtx waitImage placeIt ((waitState.bindPart 0 placeIt).getD on)
    repeat replace e := e (by decide +kernel)
    obtain ⟨t, _, _, e, -⟩ := e
    exact ⟨t, e⟩
  · have e := h.2.2.1 on (by decide +kernel) (by decide +kernel)
    exact ⟨_, e⟩
  · have e := h.2.2.2.1 (ofCtx resumeCtx) ((ofCtx resumeCtx).lpRead 8 0 (some 0) (resumeCtx.saveAt imageRun) 0).1
      ((((ofCtx resumeCtx).lpRead 8 0 (some 0) (resumeCtx.saveAt imageRun) 0).1.restorePal 0 resumeCtx imageRun (imageRun.variants.headD {}) {} runPart saved0).getD on) 0
      resumeCtx runPart (imageRun.variants.headD {}) {} imageRun saved0 []
    repeat replace e := e (by decide +kernel)
    obtain ⟨t, _, e, -⟩ := e
    exact ⟨t, e⟩
  · have e := h.2.2.2.2 (ofCtx { resumeCtx with stopping := true }) 0 { resumeCtx with stopping := true } runPart
      (imageRun.variants.headD {}) {} imageRun saved0
    repeat replace e := e (by decide +kernel)
    obtain ⟨t, e, -⟩ := e
    exact ⟨t, e⟩

theorem wit_MemoryRequests_1 (h : Obligations.MemoryRequests) :
    (∃ t, exec (.lpddr5Read 0 0 64 8) on = .next t) ∧
    (∃ t, exec (.lpddr5Write 0 0 64 [1, 2, 3, 4, 5, 6, 7, 8]) on = .next t) ∧
    (∃ t, exec (.lpddr5PartialWrite 0 0 67 [1, 2, 3]) on = .next t) := by
  refine ⟨?_, ?_, ?_⟩
  · obtain ⟨t, e, -⟩ := h.1 on 0 0 64 8 (by decide +kernel) (by decide +kernel)
    exact ⟨t, e⟩
  · obtain ⟨t, e, -⟩ := (h.2.1 on 0 0 64 ([1, 2, 3, 4, 5, 6, 7, 8]) (by decide +kernel) (by decide +kernel)).1
      (⟨by decide, by decide⟩)
    exact ⟨t, e⟩
  · obtain ⟨t, e, -⟩ := (h.2.1 on 0 0 67 ([1, 2, 3]) (by decide +kernel) (by decide +kernel)).2 (by decide +kernel)
    exact ⟨t, e⟩

theorem wit_MemoryRequests_2 (h : Obligations.MemoryRequests) :
    (∃ t, exec (.lpddr5Read 0 0 (8 * 8) 8) ({ on with lp := { err := [(8, 2 ^ 5)] } }) = .next t) ∧
    (∃ t, exec (.lpddr5Read 1 0 (8 * 8) 8) ({ on with lp := { err := [(8, 7)] } }) = .next t) ∧
    (∃ t, exec (.lpddr5PartialWrite 1 0 (8 * 8) [1, 2, 3]) ({ on with lp := { err := [(8, 7)] } }) = .next t) := by
  refine ⟨?_, ?_, ?_⟩
  · have e := h.2.2.1 { on with lp := { err := [(8, 2 ^ 5)] } } 0 0 8 5
    repeat replace e := e (by decide +kernel)
    obtain ⟨t, e, -⟩ := e
    exact ⟨t, e⟩
  · have e := h.2.2.2 { on with lp := { err := [(8, 7)] } } 1 0 8 7 ([1, 2, 3])
    repeat replace e := e (by decide +kernel)
    replace e := e.1
    obtain ⟨t, _, e, -⟩ := e
    exact ⟨t, e⟩
  · have e := h.2.2.2 { on with lp := { err := [(8, 7)] } } 1 0 8 7 ([1, 2, 3])
    repeat replace e := e (by decide +kernel)
    replace e := e.2
    obtain ⟨t, _, e, -⟩ := e
    exact ⟨t, e⟩

theorem wit_RefreshAndScrub_1 (h : Obligations.RefreshAndScrub) :
    (∃ t, exec (.perBankRefresh 15 0 15) on = .next t) ∧
    (∃ t, exec (.mr4Poll 15 7) on = .next t) ∧
    (∃ t, exec (.neighbourRefresh 3 0 2 9) (bank98 { k := 6, due := some 9 }) = .next t) ∧
    (∃ t, exec (.neighbourRefresh 3 0 2 0) (bank98 { k := 6, due := some 9 }) = .next t) ∧
    ((bank98 { k := 6, row := some 9 }).lp.activate 0 3 0 2 9).bank 98 = { k := 6, row := some 9 } ∧
    (((bank98 { k := 6, row := some 9, count := 4 }).lp.activate 0 3 0 2 10).bank 98).count = 5 ∧
    (∃ t, exec (.nrefreshAdaptWindow ()) (bank98 { k := 6, window := 100 }) = .next t) := by
  refine ⟨?_, ?_, ?_, ?_, ?_, ?_, ?_⟩
  · have e := h.1 on 15 0 15
    repeat replace e := e (by decide +kernel)
    obtain ⟨t, e, -⟩ := e
    exact ⟨t, e⟩
  · obtain ⟨t, e, -⟩ := h.2.1 on 15 7 (by decide +kernel) (by decide +kernel)
    exact ⟨t, e⟩
  · have e := h.2.2.1 (bank98 { k := 6, due := some 9 }) 3 0 2 9
    repeat replace e := e (by decide +kernel)
    replace e := e.1
    repeat replace e := e (by decide +kernel)
    exact ⟨_, e⟩
  · have e := h.2.2.1 (bank98 { k := 6, due := some 9 }) 3 0 2 0
    repeat replace e := e (by decide +kernel)
    replace e := e.2
    repeat replace e := e (by decide +kernel)
    exact ⟨_, e⟩
  · rw [(h.2.2.2.1 (bank98 { k := 6, row := some 9 }).lp 0 3 0 2 9).1 rfl]
    rfl
  · exact (((h.2.2.2.1 (bank98 { k := 6, row := some 9, count := 4 }).lp 0 3 0 2 10).2 (by decide)).2.2.2.1 (by decide)).1
  · have e := h.2.2.2.2.1 (bank98 { k := 6, window := 100 }) 100 4800
    repeat replace e := e (by decide +kernel)
    obtain ⟨t, _, e, -⟩ := e
    exact ⟨t, e⟩

theorem wit_RefreshAndScrub_2 (h : Obligations.RefreshAndScrub) :
    (∃ t, exec (.dqOscTrack 15 0 7) (oscAt 7) = .next t) ∧
    (∃ t, exec (.dqOscTrack 15 0 7) (oscAt 6) = .next t) ∧
    (∃ t, exec (.lpddr5Scrub 15) on = .next t) ∧
    (∃ t, exec (.wck2ckSyncLoss 15 true) on = .next t) ∧
    (∃ t, exec (.wck2ckSyncLoss 15 false) on = .next t) := by
  refine ⟨?_, ?_, ?_, ?_, ?_⟩
  · have e := (h.2.2.2.2.2.1 (oscAt 7) 15 0 7 (by decide +kernel) (by decide) (by decide +kernel)).1 (Or.inl rfl)
    exact ⟨_, e⟩
  · have e := h.2.2.2.2.2.1 (oscAt 6) 15 0 7 (by decide +kernel) (by decide) (by decide +kernel)
    rcases hd : Config.oscDrifted 6 7 with _ | _
    · exact ⟨_, e.1 (Or.inr hd)⟩
    · obtain ⟨t, e, -⟩ := e.2 (by decide) hd
      exact ⟨t, e⟩
  · have e := h.2.2.2.2.2.2.1 on 15
    repeat replace e := e (by decide +kernel)
    obtain ⟨t, e, -⟩ := e
    exact ⟨t, e⟩
  · have e := (h.2.2.2.2.2.2.2 on 15 (by decide +kernel) (by decide +kernel)).1
    exact ⟨_, e⟩
  · obtain ⟨t, _, e, -⟩ := (h.2.2.2.2.2.2.2 on 15 (by decide +kernel) (by decide +kernel)).2 (by decide +kernel)
    exact ⟨t, e⟩

theorem wit_FramesAndTriggers_1 (h : Obligations.FramesAndTriggers) :
    (∃ t, exec (.afeLinkLock 0) (withPort { port0 with fcoRun := 16 }) = .next t) ∧
    (∃ t, exec (.afeLinkLock 0) (withPort port0) = .next t) ∧
    (∃ t, exec (.afeFrame 0 true [65535]) (withPort { port0 with fcoRun := 3 }) = .next t) ∧
    (∃ t, exec (.afeFrame 0 false [65535]) (withPort { port0 with locked := true }) = .next t) ∧
    (∃ t, exec (.afeFrame 0 true [65535]) (withPort
      ({ port0 with locked := true, cur := some { no := 3, start := 9, fin := 0, samples := [], err := false } })) =
      .next t) ∧
    (∃ t, exec (.afeFrame 0 false [65535]) (withPort
      ({ port0 with locked := true, cur := some { no := 3, start := 9, fin := 0, samples := [], err := false } })) =
      .next t) := by
  refine ⟨?_, ?_, ?_, ?_, ?_, ?_⟩
  · have e := h.1 (withPort { port0 with fcoRun := 16 }) 0 cfg1 (by decide +kernel) (by decide +kernel)
    replace e := e.1 (by decide +kernel)
    obtain ⟨t, e, -⟩ := e
    exact ⟨t, e⟩
  · have e := h.1 (withPort port0) 0 cfg1 (by decide +kernel) (by decide +kernel)
    replace e := e.2.1 (by decide +kernel)
    exact ⟨_, e⟩
  · have e := h.1 (withPort { port0 with fcoRun := 3 }) 0 cfg1 (by decide +kernel) (by decide +kernel)
    replace e := e.2.2.1 true [65535] (by decide +kernel)
    obtain ⟨t, e, -⟩ := e
    exact ⟨t, e⟩
  · have e := h.1 (withPort { port0 with locked := true }) 0 cfg1 (by decide +kernel) (by decide +kernel)
    replace e := e.2.2.2 [65535] (by decide +kernel) (by decide +kernel)
    obtain ⟨t, e, -⟩ := e
    exact ⟨t, e⟩
  · have e := h.2.1 (withPort
      ({ port0 with locked := true, cur := some { no := 3, start := 9, fin := 0, samples := [], err := false } })) 0
      0 [0xFFFF] cfg1 { no := 3, start := 9, fin := 0, samples := [], err := false }
    repeat replace e := e (by decide +kernel)
    obtain ⟨t, _, e, -⟩ := e
    exact ⟨t, e⟩
  · have e := h.2.2.1 (withPort
      ({ port0 with locked := true, cur := some { no := 3, start := 9, fin := 0, samples := [], err := false } })) 0
      [0xFFFF] cfg1 { no := 3, start := 9, fin := 0, samples := [], err := false }
    repeat replace e := e (by decide +kernel)
    obtain ⟨t, e, -⟩ := e
    exact ⟨t, e⟩

theorem wit_FramesAndTriggers_2 (h : Obligations.FramesAndTriggers) :
    (∃ t, exec (.freeRunTrigger 0) (withPort port0) = .next t) ∧
    (∃ t, exec (.encoderCount 0 true) (withPort encPort) = .next t) ∧
    (∃ t, exec (.encoderCount 0 false) (withPort encPort) = .next t) ∧
    (∃ t, exec (.lineProgramEnd 0) (withPort { port0 with running := true, held := true }) = .next t) := by
  refine ⟨?_, ?_, ?_, ?_⟩
  · have e := h.2.2.2.1 (withPort port0) 0 cfg1
    repeat replace e := e (by decide +kernel)
    obtain ⟨t, e, -⟩ := e
    exact ⟨t, e⟩
  · have e := h.2.2.2.2.1 (withPort encPort) 0 true false true encCfg
    repeat replace e := e (by decide +kernel)
    obtain ⟨t, e, -⟩ := e
    exact ⟨t, e⟩
  · have e := h.2.2.2.2.1 (withPort encPort) 0 false true false encCfg
    repeat replace e := e (by decide +kernel)
    obtain ⟨t, e, -⟩ := e
    exact ⟨t, e⟩
  · have e := h.2.2.2.2.2 (withPort { port0 with running := true, held := true }) 0 cfg1
    repeat replace e := e (by decide +kernel)
    obtain ⟨t, e, -⟩ := e
    exact ⟨t, e⟩

theorem wit_LinesAndPages_1 (h : Obligations.LinesAndPages) :
    (∃ t, exec (.lineComplete 0) (withPort
      { port0 with done := [{ no := 3, start := 9, fin := 0, samples := [], err := false }] }) = .next t) ∧
    (∃ t, exec (.pageOpen 0) (withPort { port0 with st := .capturing, lastNo := 5, edges := [.lead 5 7 false] }) = .next t) ∧
    (∃ t, exec (.trailingEdgeConfirmed 0) (withPort
      { port0 with st := .capturing, lastNo := 9, edges := [.trail 7], page := some page0 }) = .next t) ∧
    (∃ t, exec (.trailingEdgeConfirmed 0) (withPort
      { port0 with st := .capturing, lastNo := 9, edges := [.trail 7], capping := true }) = .next t) ∧
    (∃ t, exec (.pageEnd 0) (withPort endingPort) = .next t) ∧
    (∃ t, exec (.pageCapReached 0) (withPort cappedPort) = .next t) := by
  refine ⟨?_, ?_, ?_, ?_, ?_, ?_⟩
  · have e := h.1 (withPort { port0 with done := [{ no := 3, start := 9, fin := 0, samples := [], err := false }] })
      0 cfg1 { no := 3, start := 9, fin := 0, samples := [], err := false } []
    repeat replace e := e (by decide +kernel)
    obtain ⟨t, e, -⟩ := e
    exact ⟨t, e⟩
  · have e := h.2.1 (withPort { port0 with st := .capturing, lastNo := 5, edges := [.lead 5 7 false] }) 0 0 5 7 false cfg1 []
    repeat replace e := e (by decide +kernel)
    obtain ⟨t, _, e, -⟩ := e
    exact ⟨t, e⟩
  · have e := (h.2.2.1 (withPort
      { port0 with st := .capturing, lastNo := 9, edges := [.trail 7], page := some page0 }) 0 7 cfg1 []
      (by decide +kernel) (by decide +kernel) (by decide +kernel) (by decide +kernel)).1 page0 (by decide +kernel)
      (by decide +kernel) (by decide +kernel)
    exact ⟨_, e⟩
  · have e := (h.2.2.1 (withPort { port0 with st := .capturing, lastNo := 9, edges := [.trail 7], capping := true })
      0 7 cfg1 [] (by decide +kernel) (by decide +kernel) (by decide +kernel) (by decide +kernel)).2
      (by decide +kernel)
    exact ⟨_, e⟩
  · have e := h.2.2.2.1 (withPort endingPort) 0 6 0 9 0 endedPage { ctx0 with windows := [(0, lowMem)] }
    repeat replace e := e (by decide +kernel)
    replace e := e.1 (by decide +kernel) (by decide +kernel) (by decide +kernel)
    obtain ⟨t, e, -⟩ := e
    exact ⟨t, e⟩
  · have e := h.2.2.2.1 (withPort cappedPort) 0 6 0 9 8 { page0 with stored := 1, capLine := some 8 }
      { ctx0 with windows := [(0, lowMem)] }
    repeat replace e := e (by decide +kernel)
    replace e := e.2 (by decide +kernel)
    obtain ⟨t, e, -⟩ := e
    exact ⟨t, e⟩

theorem wit_LinesAndPages_2 (h : Obligations.LinesAndPages) :
    (∃ t, exec (.captureIdleEnd 0) (withPort { port0 with st := .capturing, idle := 1 }) = .next t) ∧
    (∃ t, exec (.captureIdleEnd 0) (withPort { port0 with st := .capturing }) = .next t) ∧
    (∃ t, exec (.lineStoreAccepted 0) (withPort
      { port0 with st := .capturing, store := [{ page := 0, row := 2, data := [1, 2, 3, 4], tokens := 1 }], tokens := 1, page := some ({ page0 with chunks := [1048576] }) })
      = .next t) ∧
    (∃ t, exec (.calibrationComplete 0) ((withPort
      { port0 with st := .calibrating, calib := some { kind := 0, lines := 4, target := 0, taken := 4, sums := [(0, 10)], ch := 0, seq := 6 } }).withMbox
      (fun m => { m with taken := [{ ch := 0, seq := 6, opcode := 0x54, payload := [0], ctx := some 0 }] })) = .next
      t) := by
  refine ⟨?_, ?_, ?_, ?_⟩
  · have e := h.2.2.2.2.1 (withPort { port0 with st := .capturing, idle := 1 }) 0 cfg1
    repeat replace e := e (by decide +kernel)
    replace e := e.1 (by decide +kernel) (by decide +kernel)
    obtain ⟨t, e, -⟩ := e
    exact ⟨t, e⟩
  · have e := h.2.2.2.2.1 (withPort { port0 with st := .capturing }) 0 cfg1
    repeat replace e := e (by decide +kernel)
    replace e := e.2 (by decide +kernel)
    exact ⟨_, e⟩
  · have e := h.2.2.2.2.2.1 (withPort
      { port0 with st := .capturing, store := [{ page := 0, row := 2, data := [1, 2, 3, 4], tokens := 1 }], tokens := 1, page := some ({ page0 with chunks := [1048576] }) })
      0 1048576 cfg1 { page := 0, row := 2, data := [1, 2, 3, 4], tokens := 1 } []
      { page0 with chunks := [1048576] }
    repeat replace e := e (by decide +kernel)
    obtain ⟨t, e, -⟩ := e
    exact ⟨t, e⟩
  · have e := h.2.2.2.2.2.2 ((withPort
      { port0 with st := .calibrating, calib := some { kind := 0, lines := 4, target := 0, taken := 4, sums := [(0, 10)], ch := 0, seq := 6 } }).withMbox
      (fun m => { m with taken := [{ ch := 0, seq := 6, opcode := 0x54, payload := [0], ctx := some 0 }] })) 0 cfg1
      { kind := 0, lines := 4, target := 0, taken := 4, sums := [(0, 10)], ch := 0, seq := 6 }
    repeat replace e := e (by decide +kernel)
    obtain ⟨t, e, -⟩ := e
    exact ⟨t, e⟩

theorem wit_ItemsArrive_1 (h : Obligations.ItemsArrive) :
    (∃ t, exec (.viewReadComplete 5) (withItem (item0 { entry := rawEntry + 8000 * 2 ^ 32 })) = .next t) ∧
    (∃ t, exec (.viewReadComplete 5) (withItem (item0 { entry := rawEntry })) = .next t) ∧
    (∃ t, exec (.viewReadComplete 5) ((withItem rawItem).withPci (fun p => { p with bme0 := false })) = .next t) ∧
    (∃ t, exec (.viewReadComplete 5) (withItem rawItem) = .next t) ∧
    (∃ t, exec (.headerPassComplete 5 0 .corrupt) (withItem (item0 segment)) = .next t) ∧
    (∃ t, exec (.headerPassComplete 5 0 (.ok [{ header0 with width := 17 }])) (withItem (item0 segment)) = .next t) ∧
    (∃ t, exec (.headerPassComplete 5 0 (.ok [header0])) (withItem (item0 segment)) = .next t) := by
  refine ⟨?_, ?_, ?_, ?_, ?_, ?_, ?_⟩
  · have e := h.1 (withItem (item0 { entry := rawEntry + 8000 * 2 ^ 32 })) ((withItem (item0 { entry := rawEntry + 8000 * 2 ^ 32 })).gets 1 8).2 5
      ((withItem (item0 { entry := rawEntry + 8000 * 2 ^ 32 })).gets 1 8).1 (item0 { entry := rawEntry + 8000 * 2 ^ 32 }) prof0 { entry := rawEntry + 8000 * 2 ^ 32 } (8004, 2, 1)
      (⟨by decide, rfl, rfl, ⟨3, 0, rfl⟩, ⟨_, rfl⟩, rfl⟩)
    repeat replace e := e (by decide +kernel)
    replace e := e.1 (by decide +kernel)
    obtain ⟨t, e, -⟩ := e
    exact ⟨t, e⟩
  · have e := h.1 (withItem (item0 { entry := rawEntry })) ((withItem (item0 { entry := rawEntry })).gets 1 8).2 5
      ((withItem (item0 { entry := rawEntry })).gets 1 8).1 (item0 { entry := rawEntry }) prof0
      { entry := rawEntry } (4, 2, 1) (⟨by decide, rfl, rfl, ⟨3, 0, rfl⟩, ⟨_, rfl⟩, rfl⟩)
    repeat replace e := e (by decide +kernel)
    replace e := e.2 0 (by decide +kernel) (⟨by decide +kernel, by decide, by decide +kernel⟩)
    obtain ⟨t, e, -⟩ := e
    exact ⟨t, e⟩
  · have e := h.2.1 ((withItem rawItem).withPci (fun p => { p with bme0 := false })) 5 rawItem prof0
      { entry := rawEntry, dims := some [(4, 2, 1)] } (⟨by decide, rfl, rfl, ⟨3, 0, rfl⟩, ⟨_, rfl⟩, rfl⟩)
    repeat replace e := e (by decide +kernel)
    exact ⟨_, e⟩
  · have e := h.2.2.1 (withItem rawItem) ((withItem rawItem).gets 1 8).2 5 0 ((withItem rawItem).gets 1 8).1 rawItem prof0
      { entry := rawEntry, dims := some [(4, 2, 1)] } [(4, 2, 1)] (⟨by decide, rfl, rfl, ⟨3, 0, rfl⟩, ⟨_, rfl⟩, rfl⟩)
    repeat replace e := e (by decide +kernel)
    obtain ⟨t, _, e, -⟩ := e
    exact ⟨t, e⟩
  · have e := h.2.2.2.1 (withItem (item0 segment)) 5 (item0 segment) prof0 segment header0
      (⟨by decide, rfl, rfl, ⟨3, 0, rfl⟩, ⟨_, rfl⟩, rfl⟩)
    repeat replace e := e (by decide +kernel)
    replace e := e.1
    obtain ⟨t, e, -⟩ := e
    exact ⟨t, e⟩
  · have e := h.2.2.2.1 (withItem (item0 segment)) 5 (item0 segment) prof0 segment { header0 with width := 17 }
      (⟨by decide, rfl, rfl, ⟨3, 0, rfl⟩, ⟨_, rfl⟩, rfl⟩)
    repeat replace e := e (by decide +kernel)
    replace e := e.2.1 (by decide +kernel)
    obtain ⟨t, e, -⟩ := e
    exact ⟨t, e⟩
  · have e := h.2.2.2.1 (withItem (item0 segment)) 5 (item0 segment) prof0 segment header0
      (⟨by decide, rfl, rfl, ⟨3, 0, rfl⟩, ⟨_, rfl⟩, rfl⟩)
    repeat replace e := e (by decide +kernel)
    replace e := e.2.2 0 (by decide +kernel) (by decide +kernel) (⟨by decide +kernel, by decide, by decide +kernel⟩)
    obtain ⟨t, e, -⟩ := e
    exact ⟨t, e⟩

theorem wit_ItemsArrive_2 (h : Obligations.ItemsArrive) :
    (∃ t, exec (.decodeBudgetExpiry 5) (withItem
      ({ item0 { entry := rawEntry } with bucket := some 0, budget := some 0 })) = .next t) ∧
    (∃ t, exec (.livePictureDecoded 6 (.decoded [{ pic0 with refsLost := true, idr := false }])) liveState = .next t) ∧
    (∃ t, exec (.livePictureDecoded 6 (.decoded [livePic])) (liveFull 52416) = .next t) ∧
    (∃ t, exec (.livePictureDecoded 6 (.decoded [livePic])) liveState = .next t) ∧
    (∃ t, exec (.geometryFitComplete 0) { withPort { port0 with pages := [fitPage] } with ctxs := [(0, itemCtx)] } = .next t) := by
  refine ⟨?_, ?_, ?_, ?_, ?_⟩
  · have e := h.2.2.2.2.1 (withItem ({ item0 { entry := rawEntry } with bucket := some 0, budget := some 0 })) 5 0
      { item0 { entry := rawEntry } with bucket := some 0, budget := some 0 } prof0 { entry := rawEntry }
      (⟨by decide, rfl, rfl, ⟨3, 0, rfl⟩, ⟨_, rfl⟩, rfl⟩)
    repeat replace e := e (by decide +kernel)
    obtain ⟨t, e, -⟩ := e
    exact ⟨t, e⟩
  · have e := h.2.2.2.2.2.1 liveState 6 0 unit0 [] liveStream prof0 { pic0 with refsLost := true, idr := false }
    repeat replace e := e (by decide +kernel)
    replace e := e.1 (by decide +kernel)
    obtain ⟨t, _, e, -⟩ := e
    exact ⟨t, e⟩
  · have e := h.2.2.2.2.2.1 (liveFull 52416) 6 0 unit0 [] liveStream prof0 livePic
    repeat replace e := e (by decide +kernel)
    replace e := e.2.1 (by decide +kernel) (by decide +kernel) (by decide +kernel)
      (full_none _ 52416 _ _ (by decide +kernel) rfl (by decide))
    obtain ⟨t, _, e, -⟩ := e
    exact ⟨t, e⟩
  · have e := h.2.2.2.2.2.1 liveState 6 0 unit0 [] liveStream prof0 livePic
    repeat replace e := e (by decide +kernel)
    replace e := e.2.2 (liveState.gets 1 8).1 (liveState.gets 1 8).2
    repeat replace e := e (by decide +kernel)
    obtain ⟨t, _, _, e, -⟩ := e
    exact ⟨t, e⟩
  · have e := h.2.2.2.2.2.2 { withPort { port0 with pages := [fitPage] } with ctxs := [(0, itemCtx)] } 0 (geometryOf
      cfg1 { port0 with pages := [fitPage] } fitPage) 0 cfg1 fitPage itemCtx prof0
    repeat replace e := e (by decide +kernel)
    replace e := e 0 (by decide +kernel) (by decide +kernel)
    obtain ⟨t, _, e, -⟩ := e
    exact ⟨t, e⟩

theorem wit_ItemsDecodedAndBatched_1 (h : Obligations.ItemsDecodedAndBatched) :
    (∃ t, exec (.viewDecodeComplete 5 0 .corrupt) (withData (inPrimer (rawView 8)) [1, 2, 3, 4, 5, 6, 7, 8]) = .next t) ∧
    (∃ t, exec (.viewDecodeComplete 5 0 .corrupt) (withData (inPrimer (rawView 3)) [1, 2, 3]) = .next t) ∧
    (∃ t, exec (.viewDecodeComplete 5 0 (.decoded [pic0])) (withData (inPrimer stillView) [1, 2, 3]) = .next t) ∧
    (∃ t, exec (.viewDecodeComplete 5 0 .corrupt) (withData (inPrimer stillView) [1, 2, 3]) = .next t) ∧
    (∃ t, exec (.viewDecodeComplete 5 0 (.truncated [{ pic0 with planes := [[1, 2, 3, 4]] }]))
      (withData (inPrimer stillView) [1, 2, 3]) = .next t) ∧
    (∃ t, exec (.viewDecodeComplete 5 0 (.decoded [pic0]))
      { withData (inPrimer stillView) [1, 2, 3] with clk := { time := 10000000 } } = .next t) ∧
    (∃ t, exec (.viewDecodeComplete 5 0 (.decoded [])) (withData (inPrimer stillView) [1, 2, 3]) = .next t) := by
  have still := h.1.2.1 (withData (inPrimer stillView) [1, 2, 3]) 5 0 0 (inPrimer stillView) prof0 stillView
  refine ⟨?_, ?_, ?_, ?_, ?_, ?_, ?_⟩
  · have e := h.1.1 (withData (inPrimer (rawView 8)) [1, 2, 3, 4, 5, 6, 7, 8]) 5 0 0 (inPrimer (rawView 8)) prof0
      (rawView 8) .corrupt
      (⟨by decide, rfl, rfl, ⟨3, 0, rfl⟩, rfl, rfl, rfl, rfl, ⟨_, rfl⟩, rfl⟩) (by decide +kernel) (by decide +kernel) ⟨rfl, by decide, (((withData (inPrimer (rawView 8)) [1, 2, 3, 4, 5, 6, 7, 8]).bufFree (rawView 8).copy).gets 1 8).2, by decide +kernel⟩
    replace e := e.1 (by decide +kernel)
    obtain ⟨t, _, e, -⟩ := e
    exact ⟨t, e⟩
  · have e := h.1.1 (withData (inPrimer (rawView 3)) [1, 2, 3]) 5 0 0 (inPrimer (rawView 3)) prof0 (rawView 3) .corrupt
      (⟨by decide, rfl, rfl, ⟨3, 0, rfl⟩, rfl, rfl, rfl, rfl, ⟨_, rfl⟩, rfl⟩) (by decide +kernel) (by decide +kernel) ⟨rfl, by decide, (((withData (inPrimer (rawView 3)) [1, 2, 3]).bufFree (rawView 3).copy).gets 1 8).2, by decide +kernel⟩
    replace e := e.2 (by decide +kernel)
    obtain ⟨t, e, -⟩ := e
    exact ⟨t, e⟩
  · have e := still [pic0]
      (⟨by decide, rfl, rfl, ⟨3, 0, rfl⟩, rfl, rfl, rfl, rfl, ⟨_, rfl⟩, rfl⟩)
    repeat replace e := e (by decide +kernel)
    replace e := e.1 (by decide +kernel) (by decide +kernel) ⟨rfl, by decide, (((withData (inPrimer stillView) [1, 2, 3]).bufFree stillView.copy).gets 1 8).2, by decide +kernel⟩
    obtain ⟨t, e, -⟩ := e
    exact ⟨t, e⟩
  · have e := still [pic0]
      (⟨by decide, rfl, rfl, ⟨3, 0, rfl⟩, rfl, rfl, rfl, rfl, ⟨_, rfl⟩, rfl⟩)
    repeat replace e := e (by decide +kernel)
    replace e := e.2.1 (by decide +kernel) (by decide +kernel)
    obtain ⟨t, e, -⟩ := e
    exact ⟨t, e⟩
  · have e := still [{ pic0 with planes := [[1, 2, 3, 4]] }]
      (⟨by decide, rfl, rfl, ⟨3, 0, rfl⟩, rfl, rfl, rfl, rfl, ⟨_, rfl⟩, rfl⟩)
    repeat replace e := e (by decide +kernel)
    replace e := e.2.2.1 (by decide +kernel) (by decide +kernel) (by decide +kernel) ⟨rfl, by decide, (((withData (inPrimer stillView) [1, 2, 3]).bufFree stillView.copy).gets 1 8).2, by decide +kernel⟩
    obtain ⟨t, e, -⟩ := e
    exact ⟨t, e⟩
  · have e := h.1.2.1 { withData (inPrimer stillView) [1, 2, 3] with clk := { time := 10000000 } } 5 0 0
      (inPrimer stillView) prof0 stillView [pic0] (⟨by decide, rfl, rfl, ⟨3, 0, rfl⟩, rfl, rfl, rfl, rfl, ⟨_, rfl⟩, rfl⟩)
    repeat replace e := e (by decide +kernel)
    replace e := e.2.2.2.1 (by decide +kernel) (by decide +kernel) (by decide +kernel)
    obtain ⟨t, e, -⟩ := e
    exact ⟨t, e⟩
  · have e := still [pic0]
      (⟨by decide, rfl, rfl, ⟨3, 0, rfl⟩, rfl, rfl, rfl, rfl, ⟨_, rfl⟩, rfl⟩)
    repeat replace e := e (by decide +kernel)
    replace e := e.2.2.2.2 (.decoded []) (by decide +kernel)
    obtain ⟨t, e, -⟩ := e
    exact ⟨t, e⟩

theorem wit_ItemsDecodedAndBatched_2 (h : Obligations.ItemsDecodedAndBatched) :
    (∃ t, exec (.primerItemComplete 5) primed = .next t) ∧
    (∃ t, exec (.batchAgeTimeout 0 0)
      ({ ofCtx itemCtx with intake := { buckets := [(0, { batch := some { slots := [some 5, none], closed := true } })] } })
      = .next t) ∧
    (∃ t, exec (.batchDispatch 0 0) (withIntake
      ({ item0 { entry := rawEntry, read := true, outcome := some 0, pics := [pic0] } with slotted := true, bucket := some 0, filled := true })
      (fun i => { i with buckets := [(0, { batch := some { slots := [some 5, none], closed := true } })] })) = .next
      t) ∧
    (∃ t, exec (.splitWindowEnd 55)
      ({ ofCtx itemCtx with intake := { occupancy := [60], sources := [(64, { ctx := 0, level := 0, lat := [5] })] } })
      = .next t) ∧
    (∃ t, exec (.splitWindowEnd 55) on = .next t) := by
  refine ⟨?_, ?_, ?_, ?_, ?_⟩
  · have e := h.1.2.2.2 primed 5 primedItem prof0
    repeat replace e := e (by decide +kernel)
    replace e := e.2 primedTiles.1 (primedTiles.1.gets 1 (primedTiles.2.flatMap Prod.fst).length).2 primedTiles.2
      (primedTiles.1.gets 1 (primedTiles.2.flatMap Prod.fst).length).1 (given (by decide +kernel)) (by decide +kernel)
      (State.gets_eq (by decide +kernel))
      (by intro v hv b k hb j h1 h2; cases List.mem_singleton.mp hv; cases hb; obtain rfl : j = 1 := (by unfold ceilDiv at h2; omega); rfl)
    obtain ⟨t, _, e, -⟩ := e
    exact ⟨t, e⟩
  · have e := h.2.1
      { ofCtx itemCtx with intake := { buckets := [(0, { batch := some { slots := [some 5, none], closed := true } })] } }
      0 0 { batch := some { slots := [some 5, none], closed := true } } { slots := [some 5, none], closed := true }
    repeat replace e := e (by decide +kernel)
    exact ⟨_, e⟩
  · have e := h.2.2.1 (withIntake
      ({ item0 { entry := rawEntry, read := true, outcome := some 0, pics := [pic0] } with slotted := true, bucket := some 0, filled := true })
      (fun i => { i with buckets := [(0, { batch := some { slots := [some 5, none], closed := true } })] })) 0 0 5
      itemCtx { batch := some { slots := [some 5, none], closed := true } }
      { slots := [some 5, none], closed := true }
      { item0 { entry := rawEntry, read := true, outcome := some 0, pics := [pic0] } with slotted := true, bucket := some 0, filled := true }
    repeat replace e := e (by decide +kernel)
    replace e := e (by intro m y hm hy; obtain rfl : m = 5 := (by simpa using hm); cases hy; exact ⟨rfl, rfl⟩)
      (by intro m hm; obtain rfl : m = 5 := (by simpa using hm); rfl) (by decide +kernel)
    obtain ⟨t, _, e, -⟩ := e
    exact ⟨t, e⟩
  · have e := h.2.2.2.1
      { ofCtx itemCtx with intake := { occupancy := [60], sources := [(64, { ctx := 0, level := 0, lat := [5] })] } }
      55 60 0 64 itemCtx prof0 { ctx := 0, level := 0, lat := [5] }
    repeat replace e := e (by decide +kernel)
    obtain ⟨t, _, e, -⟩ := e
    exact ⟨t, e⟩
  · have e := h.2.2.2.2 on 55 (by decide +kernel) (by decide +kernel)
    exact ⟨_, e⟩

theorem wit_StepsAndPages (h : Obligations.StepsAndPages) :
    (∃ t, exec (.decoderStepStart 0)
      ({ ofCtx ({ runCtx with busy := true }) with read := { ctx := [(0, { seqs := [{ item := some 5, ids := [1, 2, 3], prompt := 3 }] })] } })
      = .next t) ∧
    (∃ t, exec (.pageWalk 0 0 0 0) (stepState nativeKv) = .next t) ∧
    (∃ t, exec (.pageWalk 0 0 0 0) (stepState legacyKv) = .next t) := by
  refine ⟨?_, ?_, ?_⟩
  · have e := h.1
      { ofCtx ({ runCtx with busy := true }) with read := { ctx := [(0, { seqs := [{ item := some 5, ids := [1, 2, 3], prompt := 3 }] })] } }
      0 { runCtx with busy := true }
    repeat replace e := e (by decide +kernel)
    replace e := e (by intro j q h; match j, h with | 0, h => cases h; decide +kernel | j + 1, h => cases h)
    obtain ⟨t, e, -⟩ := e
    exact ⟨t, e⟩
  · have e := h.2.1 (stepState nativeKv) 0 0 0 nativeKv 65536 0 0 0 (firstWalk nativeKv).1 (kvCtx nativeKv) seq5
      site0 group0 (firstWalk nativeKv).2
      (⟨by decide, rfl, rfl, rfl, rfl, rfl, by decide +kernel, by decide +kernel, by decide +kernel, by decide +kernel, by decide +kernel, by decide +kernel, rfl, rfl, by decide⟩)
    repeat replace e := e (by decide +kernel)
    obtain ⟨t, e, -⟩ := e
    exact ⟨t, e⟩
  · have e := h.2.2 (stepState legacyKv) 0 0 0 legacyKv 0 0 (firstWalk legacyKv).1 (kvCtx legacyKv) seq5 site0
      group0 (firstWalk legacyKv).2
      (⟨by decide, rfl, rfl, rfl, rfl, rfl, by decide +kernel, by decide +kernel, by decide +kernel, by decide +kernel, by decide +kernel, by decide +kernel, rfl, rfl, by decide⟩)
    repeat replace e := e (by decide +kernel)
    obtain ⟨t, e, -⟩ := e
    exact ⟨t, e⟩

theorem wit_FieldsMasksAndText_1 (h : Obligations.FieldsMasksAndText) :
    (∃ t, exec (.fieldEndVerdict 0 0) (fieldState (fieldCtx)
      { item := some 5, ending := some 0, text := [65], fieldTokens := 2 } ([])) = .next t) ∧
    (∃ t, exec (.fieldEndVerdict 0 0) (fieldState (fieldCtx) { item := some 5, ending := some 2, text := [65] } ([]))
      = .next t) ∧
    (∃ t, exec (.deadEndReport 0 0) (fieldState { fieldCtx with params := 1 } deadSeq retryGram) = .next t) := by
  refine ⟨?_, ?_, ?_⟩
  · have e := h.1.1 (fieldState fieldCtx { item := some 5, ending := some 0, text := [65], fieldTokens := 2 } []) 0
      0 0 fieldCtx { item := some 5, ending := some 0, text := [65], fieldTokens := 2 } fieldText (gram [])
    repeat replace e := e (by decide +kernel)
    obtain ⟨t, _, _, e, -⟩ := e
    exact ⟨t, e⟩
  · have e := h.1.2.1 (fieldState fieldCtx { item := some 5, ending := some 2, text := [65] } []) 0 5 2 fieldCtx
      { item := some 5, ending := some 2, text := [65] } fieldText (item0 { entry := 0 }) (by decide +kernel)
      (by decide +kernel) (⟨rfl, rfl, rfl, rfl, ⟨3, 0, rfl⟩, ⟨_, rfl⟩⟩)
    repeat replace e := e (by decide +kernel)
    obtain ⟨t, e, -⟩ := e
    exact ⟨t, e⟩
  · have e := h.1.2.2.1 (fieldState { fieldCtx with params := 1 } deadSeq retryGram) 0 0
      { fieldCtx with params := 1 } deadSeq fieldText (gram retryGram)
    repeat replace e := e (by decide +kernel)
    obtain ⟨t, _, e, -⟩ := e
    exact ⟨t, e⟩

theorem wit_FieldsMasksAndText_2 (h : Obligations.FieldsMasksAndText) :
    (∃ t, exec (.deadEndReport 0 0) (fieldState { fieldCtx with params := 1 } deadSeq []) = .next t) ∧
    (∃ t, exec (.maskBuildComplete 0) (fieldState maskCtx { item := some 5, dead := true } []) = .next t) ∧
    (∃ t, exec (.maskBuildComplete 0) (fieldState maskCtx { item := some 5, finished := true } []) = .next t) ∧
    (∃ t, exec (.maskBuildComplete 0) twoMasks = .next t) ∧
    (∃ t, exec (.textJobComplete 6) (textState textWord) = .next t) := by
  refine ⟨?_, ?_, ?_, ?_, ?_⟩
  · have e := h.1.2.2.2.1 (fieldState { fieldCtx with params := 1 } deadSeq []) 0 5 { fieldCtx with params := 1 }
      deadSeq fieldText (gram []) (item0 { entry := 0 })
    repeat replace e := e (by decide +kernel)
    replace e := e (⟨rfl, rfl, rfl, rfl, ⟨3, 0, rfl⟩, ⟨_, rfl⟩⟩)
    repeat replace e := e (by decide +kernel)
    obtain ⟨t, _, e, -⟩ := e
    exact ⟨t, e⟩
  · have e := h.1.2.2.2.2.1 (fieldState maskCtx { item := some 5, dead := true } []) 0 3 1048576 maskCtx
      { item := some 5, dead := true } (gram []) stencil0 .dead
    repeat replace e := e (by decide +kernel)
    obtain ⟨t, e, -⟩ := e
    exact ⟨t, e⟩
  · have e := h.1.2.2.2.2.1 (fieldState maskCtx { item := some 5, finished := true } []) 0 3 1048576 maskCtx
      { item := some 5, finished := true } (gram []) stencil0 .stopped
    repeat replace e := e (by decide +kernel)
    obtain ⟨t, e, -⟩ := e
    exact ⟨t, e⟩
  · have e := h.1.2.2.2.2.2 twoMasks 0 1 { maskCtx with params := 1 } maskCtx (by decide +kernel) (by decide +kernel)
      (by decide +kernel) (by decide +kernel) (by decide +kernel)
    exact ⟨_, e⟩
  · have e := h.2 (textState textWord) 6 textStream0 { sq := 3, desc := 0, no := 0 } [] (textSq textWord) cq4
      { digest := [1], image := zeros 64, users := [], slotBase := 0, poolBase := 0 }
      { no := 0, acc := 0, word := textWord, time := 0 }
    repeat replace e := e (by decide +kernel)
    obtain ⟨t, _, _, e, -⟩ := e
    exact ⟨t, e⟩

theorem wit_ZeroOperationsCompleteAtOnce (h : Obligations.ZeroOperationsCompleteAtOnce) :
    (∃ t, exec (.tallyAcquire 0 0)
      ({ busy (16 + 3 * 2 ^ 132) with fab := { (busy (16 + 3 * 2 ^ 132)).fab with waiters := [{ tally := 3, e := 1, q := 0, acquire := true, n := 2 }] } })
      = .next t) ∧
    (∃ t, exec (.tallyWait 0 0)
      ({ busy (16 + 2 ^ 128 + 3 * 2 ^ 132) with fab := { (busy (16 + 2 ^ 128 + 3 * 2 ^ 132)).fab with waiters := [{ tally := 3, e := 1, q := 0, acquire := true, n := 2 }] } })
      = .next t) ∧
    (∃ t, exec (.tallyRelease 0 0) (busy (16 + 2 * 2 ^ 128 + 3 * 2 ^ 132)) = .next t) ∧
    (∃ t, exec (.tallyPost 0 3 0) (ofCtx runCtx) = .next t) ∧
    (∃ t, exec (.tallySet 3 0) (ofCtx runCtx) = .next t) := by
  refine ⟨?_, ?_, ?_, ?_, ?_⟩
  · obtain ⟨t, e, -⟩ := (h.1
      { busy (16 + 3 * 2 ^ 132) with fab := { (busy (16 + 3 * 2 ^ 132)).fab with waiters := [{ tally := 3, e := 1, q := 0, acquire := true, n := 2 }] } }
      0 0 0 (16 + 3 * 2 ^ 132) (by unfold Runs; decide +kernel) (by decide +kernel) (by decide +kernel)
      (by decide +kernel) (by decide +kernel)).1 (by decide +kernel)
    exact ⟨t, e⟩
  · obtain ⟨t, e, -⟩ := ((h.1
      { busy (16 + 2 ^ 128 + 3 * 2 ^ 132) with fab := { (busy (16 + 2 ^ 128 + 3 * 2 ^ 132)).fab with waiters := [{ tally := 3, e := 1, q := 0, acquire := true, n := 2 }] } }
      0 0 0 (16 + 2 ^ 128 + 3 * 2 ^ 132) (by unfold Runs; decide +kernel) (by decide +kernel) (by decide +kernel)
      (by decide +kernel) (by decide +kernel)).2).1 (by decide +kernel)
    exact ⟨t, e⟩
  · obtain ⟨t, e, -⟩ := ((h.1 (busy (16 + 2 * 2 ^ 128 + 3 * 2 ^ 132)) 0 0 0 (16 + 2 * 2 ^ 128 + 3 * 2 ^ 132)
      (by unfold Runs; decide +kernel) (by decide +kernel) (by decide +kernel) (by decide +kernel)
      (by decide +kernel)).2).2 (by decide +kernel)
    exact ⟨t, e⟩
  · exact ⟨_, h.2.1 (ofCtx runCtx) 0 3 (by decide +kernel) (by decide +kernel) (by decide +kernel)⟩
  · have e := h.2.2 (ofCtx runCtx) 3
    repeat replace e := e (by decide +kernel)
    obtain ⟨t, e, -⟩ := e
    exact ⟨t, e⟩

theorem wit_SamplesAreLeftJustified (h : Obligations.SamplesAreLeftJustified) :
    (∃ t, exec (.afeFrame 0 true [65535]) (withPort
      ({ port0 with locked := true, cur := some { no := 3, start := 9, fin := 0, samples := [], err := false } })) =
      .next t) := by
  have e := h.1 (withPort ({ port0 with locked := true, cur := some { no := 3, start := 9, fin := 0, samples := [], err := false } })) 0 0 0 0 0xFFFF [] cfg1 { no := 3, start := 9, fin := 0, samples := [], err := false }
  repeat replace e := e (by decide +kernel)
  obtain ⟨t, _, _, e, -⟩ := e
  exact ⟨t, e⟩

theorem wit_CapturesEnd (h : Obligations.CapturesEnd) :
    (∃ t, exec (.captureIdleEnd 0) (withPort { port0 with st := .capturing, idle := 1 }) = .next t) ∧
    (∃ t, exec (.captureIdleEnd 0) (withPort { port0 with st := .capturing }) = .next t) ∧
    (∃ t, exec (.captureStop 0) ((withPort { port0 with st := .capturing }).mail 0 0x53 ([0, 0, 0, 0, 0, 0, 0, 0])) =
      .next t) ∧
    (∃ t, exec (.captureStop 0) ((withPort { port0 with st := .capturing, page := some page0 }).mail 0 0x53 ([0, 0, 0,
      0, 0, 0, 0, 0])) = .next t) ∧
    (∃ t, exec (.pageEnd 0) ((withPort { endingPort with stopReq := some (0, 6) }).withMbox (fun m => { m with taken := [stopMsg] }))
      = .next t) := by
  refine ⟨?_, ?_, ?_, ?_, ?_⟩
  · have e := h.1 (withPort { port0 with st := .capturing, idle := 1 }) 0 cfg1
    repeat replace e := e (by decide +kernel)
    replace e := e.1 (by decide +kernel) (by decide +kernel)
    obtain ⟨t, e, -⟩ := e
    exact ⟨t, e⟩
  · have e := h.1 (withPort { port0 with st := .capturing }) 0 cfg1
    repeat replace e := e (by decide +kernel)
    replace e := e.2 (by decide +kernel)
    exact ⟨_, e⟩
  · obtain ⟨t, e, -⟩ := (h.2.1 ((withPort { port0 with st := .capturing }).mail 0 0x53 ([0, 0, 0, 0, 0, 0, 0, 0])) 0
      0 ([0, 0, 0, 0, 0, 0, 0, 0]) sess { ctx0 with windows := [(0, lowMem)] } (by unfold Asks; decide +kernel)
      (by decide +kernel) (by decide +kernel) (⟨0, rfl, rfl, rfl, by decide⟩) (by decide +kernel)
      (by decide +kernel)).1 (by decide +kernel) (by decide +kernel)
    exact ⟨t, e⟩
  · have e := (h.2.1 ((withPort { port0 with st := .capturing, page := some page0 }).mail 0 0x53 ([0, 0, 0, 0, 0, 0,
      0, 0])) 0 0 ([0, 0, 0, 0, 0, 0, 0, 0]) sess { ctx0 with windows := [(0, lowMem)] }
      (by unfold Asks; decide +kernel) (by decide +kernel) (by decide +kernel) (⟨0, rfl, rfl, rfl, by decide⟩)
      (by decide +kernel) (by decide +kernel)).2 page0 (by decide +kernel)
    exact ⟨_, e⟩
  · have e := h.2.2 ((withPort { endingPort with stopReq := some (0, 6) }).withMbox
      (fun m => { m with taken := [stopMsg] })) 0 0 6 9 endedPage { ctx0 with windows := [(0, lowMem)] } stopMsg
    repeat replace e := e (by decide +kernel)
    obtain ⟨t, e, -⟩ := e
    exact ⟨t, e⟩

end Sys2Proof.Tests
end

