-- ==== Sys2Proof/Proofs/QueueRules.lean ====
section
/-! SUPPORT. Proofs/QueueRules.lean: what a change of a command queue gives, what take-up and the move to the next command
leave of the fabric, and when no wait is left to settle. -/

namespace Sys2Proof.Safety

open Sys2Proof.Machine

/-! ### Parts of `Runs` -/

variable {s : State} {c e q w : Nat}

theorem Runs.running (h : Runs s c e q w) : (s.queue e q).run = .running := by
  obtain ⟨-, -, -, -, hrun, -⟩ := h
  exact hrun

theorem Runs.acquired (h : Runs s c e q w) : (s.queue e q).acquired = true := by
  obtain ⟨-, -, -, -, -, -, -, hacq, -⟩ := h
  exact hacq

theorem Runs.noFlips (h : Runs s c e q w) : s.err.sram = [] := by
  obtain ⟨-, -, -, -, -, -, -, -, -, -, -, hsram⟩ := h
  exact hsram

end Sys2Proof.Safety

namespace Sys2Proof.Machine

open Sys2Proof.Safety

/-! ### Tables -/

theorem mem_of_tabFind {α : Type} {t : Tab α} {k : Nat} {v : α} (h : tabFind t k = some v) : (k, v) ∈ t := by
  induction t with
  | nil => cases h
  | cons x r ih =>
    obtain ⟨j, w⟩ := x
    unfold tabFind at h
    split at h
    case isTrue hj => cases h; subst hj; exact List.mem_cons_self ..
    case isFalse => exact List.mem_cons_of_mem _ (ih h)

theorem mem_tabSet {α : Type} [DecidableEq α] {d : α} {t : Tab α} {k : Nat} {v : α} {p : Nat × α}
    (h : p ∈ tabSet d t k v) : p = (k, v) ∨ p ∈ t := by
  unfold tabSet at h
  split at h
  · exact .inr (mem_tabDel h)
  · exact mem_tabPut h

/-- A second put at a key finds the entry of the first, in an unsorted table too. -/
theorem tabPut_tabPut {α : Type} (t : Tab α) (k : Nat) (u v : α) : tabPut (tabPut t k u) k v = tabPut t k v := by
  induction t with
  | nil => simp [tabPut]
  | cons x r ih =>
    obtain ⟨j, w⟩ := x
    by_cases hlt : k < j
    · simp [tabPut, hlt]
    · by_cases heq : k = j
      · simp [tabPut, heq]
      · simp [tabPut, hlt, heq, ih]

theorem tabDel_tabPut {α : Type} (t : Tab α) (k : Nat) (u : α) : tabDel (tabPut t k u) k = tabDel t k := by
  unfold tabDel
  induction t with
  | nil => simp [tabPut]
  | cons x r ih =>
    obtain ⟨j, w⟩ := x
    by_cases hlt : k < j
    · simp [tabPut, hlt]
    · by_cases heq : k = j
      · simp [tabPut, heq]
      · simp [tabPut, hlt, heq, List.filter_cons, ih]

/-- Only the last of two values set at a key counts. The first must not be the default: in an unsorted table its removal
could move the place of the second. -/
theorem tabSet_tabSet {α : Type} [DecidableEq α] {d u : α} (h : u ≠ d) (t : Tab α) (k : Nat) (v : α) :
    tabSet d (tabSet d t k u) k v = tabSet d t k v := by
  simp only [tabSet, if_neg h, tabPut_tabPut, tabDel_tabPut]

/-! ### Changes of a queue -/

@[simp] theorem State.queue_modQueue_same (s : State) (e q : Nat) (f : CmdQueue → CmdQueue) :
    (s.modQueue e q f).queue e q = f (s.queue e q) :=
  tabGet_tabSet_same ..

theorem State.queue_congr {s t : State} (h : t.fab = s.fab) (e q : Nat) : t.queue e q = s.queue e q := by
  unfold State.queue; rw [h]

theorem State.modQueue_fab_congr {s t : State} (h : t.fab = s.fab) (e q : Nat) (f : CmdQueue → CmdQueue) :
    (t.modQueue e q f).fab = (s.modQueue e q f).fab := by
  simp only [State.modQueue, h, State.setFab_fab]

/-- Two changes of a queue are one, where the first leaves it a value other than that of a queue never used. -/
theorem State.modQueue_modQueue (s : State) (e q : Nat) (f g : CmdQueue → CmdQueue) (h : f (s.queue e q) ≠ {}) :
    (s.modQueue e q f).modQueue e q g = s.modQueue e q (fun x => g (f x)) := by
  have hq : tabGet {} (s.modQueue e q f).fab.queue (e * 16 + q) = f (s.queue e q) := State.queue_modQueue_same ..
  have ht : tabSet {} (s.modQueue e q f).fab.queue (e * 16 + q) (g (f (s.queue e q)))
      = tabSet {} s.fab.queue (e * 16 + q) (g (f (s.queue e q))) := tabSet_tabSet h ..
  show (s.modQueue e q f).setFab { (s.modQueue e q f).fab with queue := tabSet _ _ _ (g (tabGet _ _ _)) } = _
  rw [hq, ht]
  rfl

theorem CmdQueue.ne_default_of_running {x : CmdQueue} (h : x.run = .running) : x ≠ {} := by
  rintro rfl; cases h

theorem CmdQueue.ne_default_of_acquired {x : CmdQueue} (h : x.acquired = true) : x ≠ {} := by
  rintro rfl; cases h

/-! ### Waits that have ended -/

theorem CmdQueue.grant_of_acquired {x : CmdQueue} (h : x.acquired = true) :
    x.grant = { x with wait := none, granted := true } := by
  simp [CmdQueue.grant, h]

/-- No queue's wait on its own command has ended: nothing is left to settle. -/
def NoneGranted (s : State) : Prop := ∀ x ∈ s.fab.queue, x.2.granted = false

theorem NoneGranted.queue {s : State} (h : NoneGranted s) (e q : Nat) : (s.queue e q).granted = false := by
  unfold State.queue tabGet
  cases hf : tabFind s.fab.queue (e * 16 + q) with
  | none => rfl
  | some x => exact h _ (mem_of_tabFind hf)

theorem NoneGranted.congr {s t : State} (h : NoneGranted s) (ht : t.fab = s.fab) : NoneGranted t := by
  unfold NoneGranted; rw [ht]; exact h

theorem NoneGranted.modQueue {s : State} (h : NoneGranted s) {e q : Nat} {f : CmdQueue → CmdQueue}
    (hf : (f (s.queue e q)).granted = false) : NoneGranted (s.modQueue e q f) := by
  intro p hp
  rcases mem_tabSet hp with rfl | hp
  · exact hf
  · exact h p hp

theorem NoneGranted.settleAll {s : State} (h : NoneGranted s) : s.settleAll = s := by
  have hn : firstGranted s.fab.queue = none := by
    simpa [firstGranted] using fun k x hx => h (k, x) hx
  simp only [State.settleAll, State.settleWaits, hn]

/-! ### What leaves the fabric as it is -/

theorem State.reply_fab (s : State) (ch seq op st : Nat) (p : Bytes) : (s.reply ch seq op st p).fab = s.fab := by
  unfold State.reply
  dsimp only
  split <;> rfl

theorem State.answerAll_fab (s : State) (p : Request → Bool) (st : Nat) : (s.answerAll p st).fab = s.fab := by
  unfold State.answerAll
  generalize s.mbox.taken.filter p = l
  induction l generalizing s with
  | nil => rfl
  | cons r l ih => exact (ih _).trans (State.reply_fab ..)

theorem State.freeze_fab (s : State) (c : Nat) : (s.freeze c).fab = s.fab := by
  unfold State.freeze
  split
  · rfl
  · simp only [State.answerAll_fab, State.setBoot_frame_fab, State.leaveIdle_frame_fab, State.event_frame_fab,
      State.putErr_frame_fab]

theorem State.contained_fab (s : State) (c k : Nat) : (s.contained c k).fab = s.fab := by
  unfold State.contained
  split
  · rfl
  split
  · exact State.putErr_frame_fab ..
  split
  · rfl
  split
  · exact State.putErr_frame_fab ..
  · exact State.freeze_fab ..

theorem State.staleOr_fab (s : State) (old : Option Nat) (now : Nat) : (s.staleOr old now).1.fab = s.fab := by
  unfold State.staleOr
  split
  · rfl
  · split <;> rfl

theorem onUnit_fab (s : State) (e q w : Nat) :
    (onUnit s e q w).fab = { s.fab with lastServed := (onUnit s e q w).fab.lastServed } := by
  simp only [onUnit, State.serve, State.setFab_fab, State.leaveIdle_frame_fab]

theorem onUnit_queue (s : State) (e q w i j : Nat) : (onUnit s e q w).queue i j = s.queue i j := by
  unfold State.queue; rw [onUnit_fab]

/-! ### Take-up, and the move to the next command -/

/-- A queue stands where it stood: at the same offset, in the same stream and wait, with no wait ended anew. -/
structure CmdQueue.StandsAs (x y : CmdQueue) : Prop where
  run : x.run = y.run
  next : x.next = y.next
  wait : x.wait = y.wait
  granted : y.granted = false → x.granted = false

theorem State.badQueue_fab (s : State) (c e q k : Nat) :
    (s.badQueue c e q k).fab = (s.modQueue e q (fun x => { x with cmd := none, bad := true })).fab :=
  State.contained_fab ..

/-- Take-up changes nothing of the fabric but its queue, and leaves that queue where it stood, whether it accepts the
command or not. -/
theorem State.takeUp_fab {s : State} (h : s.err.sram = []) (c e q : Nat) (old : Option Nat) :
    ∃ f : CmdQueue → CmdQueue, (f (s.queue e q)).StandsAs (s.queue e q) ∧ (s.takeUp c e q old).fab = (s.modQueue e q f).fab := by
  have bad : ∀ {t : State} (k : Nat), t.fab = s.fab →
      ∃ f : CmdQueue → CmdQueue, (f (s.queue e q)).StandsAs (s.queue e q) ∧ (t.badQueue c e q k).fab = (s.modQueue e q f).fab :=
    fun k ht => ⟨_, ⟨rfl, rfl, rfl, id⟩, (State.badQueue_fab ..).trans (State.modQueue_fab_congr ht ..)⟩
  unfold State.takeUp
  dsimp only
  split
  next =>
    simp only [State.readOk_clean h]
    split
    · exact ⟨fun x => { x with cmd := some _, acquired := false, granted := false }, ⟨rfl, rfl, rfl, fun _ => rfl⟩,
        State.modQueue_fab_congr (State.staleOr_fab ..) ..⟩
    · exact bad _ (State.staleOr_fab ..)
  next => exact bad _ rfl

/-- A queue that goes on to its next word, which it has not taken up yet. -/
def CmdQueue.movedOn (x : CmdQueue) : CmdQueue := { x with next := x.next + 64, cmd := none, wait := none }

/-- A running queue that moves on stands 64 bytes further and waits for nothing; the rest of the fabric is as it was. -/
theorem State.advance_fab {s : State} (h : s.err.sram = []) {e q : Nat} (hr : (s.queue e q).run = .running) (c : Nat) :
    ∃ f : CmdQueue → CmdQueue, (f (s.queue e q)).StandsAs (s.queue e q).movedOn ∧
      (s.advance c e q).fab = (s.modQueue e q f).fab := by
  obtain ⟨f, hf, hfab⟩ := State.takeUp_fab (s := s.modQueue e q CmdQueue.movedOn) h c e q (s.queue e q).ahead.head?
  rw [State.queue_modQueue_same] at hf
  have htake : ((s.modQueue e q CmdQueue.movedOn).takeUp c e q (s.queue e q).ahead.head?).fab
      = (s.modQueue e q (fun x => f x.movedOn)).fab :=
    hfab.trans (congrArg State.fab (State.modQueue_modQueue _ _ _ _ _ (CmdQueue.ne_default_of_running hr)))
  have hrun : (f (s.queue e q).movedOn).run = .running := hf.run.trans hr
  exact ⟨_, ⟨hf.run, hf.next, hf.wait, hf.granted⟩, (State.modQueue_fab_congr htake ..).trans
    (congrArg State.fab (State.modQueue_modQueue _ _ _ _ _ (CmdQueue.ne_default_of_running hrun)))⟩

/-- The run of a command whose body ends well: its header release, and the queue goes on unless it runs no more (R65). -/
theorem State.runCommand_done {s : State} {c e q w : Nat} (h : Runs s c e q w) {sel : Nat → Bool} (hs : sel w = true)
    {body : Nat → Nat → State → State × BodyEnd} {b u : State} (hb : body c w (onUnit s e q w) = (b, .done))
    (hu : u = if cRel w then b.tallyAdd (cRelTally w) (cRelN w) else b) :
    s.runCommand e q sel body = (if (u.queue e q).run = .running then u.advance c e q else u).settleAll := by
  obtain ⟨hworks, hq, hctx, hcmd, hrun, hwait, hbad, hacq, hstop, hturn, hpar, -⟩ := h
  have hq : decide (16 ≤ q) = false := by simpa using hq
  have hqueue : s.leaveIdle.queue e q = s.queue e q := State.queue_congr (State.leaveIdle_frame_fab s) ..
  have hturn : s.leaveIdle.turn e q w = true := by rw [State.leaveIdle_eq]; exact hturn
  have hpar : s.leaveIdle.vecBad e w = false := by rw [State.leaveIdle_eq]; exact hpar
  have hb : body c w (s.leaveIdle.serve e q w) = (b, .done) := hb
  subst hu
  simp only [State.runCommand, hctx, hcmd, hworks, hq, hrun, hwait, hbad, hs, hstop, hacq, hqueue, hturn, hpar, hb,
    bne_self_eq_false, Bool.not_true, Option.isSome_none, Bool.or_self, Bool.false_eq_true, if_true, if_false]

end Sys2Proof.Machine
end

