-- ==== Sys2Proof/Proofs/ZeroTally.lean ====
section
/-! PROOF. Proofs/ZeroTally.lean: a tally operation with n = 0 completes at once (R34). -/

namespace Sys2Proof.Machine

open Sys2Proof.Safety

/-! ### What each operation does where n is 0, or where nobody waits -/

theorem State.tallyAdd_zero (s : State) (t : Nat) : s.tallyAdd t 0 = s := rfl

/-- A wait or acquire of 0 passes, whoever waits already: no waiter is added, and the queue is left as a wait that has ended
and been settled leaves it. -/
theorem State.tallyBody_zero {s : State} {e q w : Nat} (hn : tlN w = 0) (ha : (s.queue e q).acquired = true) (acquire : Bool) :
    s.tallyBody e q w acquire = (s.modQueue e q (fun x => { x.grant with granted := false }), .done) := by
  have hg := CmdQueue.grant_of_acquired ha
  have hne : (s.queue e q).grant ≠ {} := CmdQueue.ne_default_of_acquired (by rw [hg]; exact ha)
  have hw : s.waitTally e q (tlT w) (tlN w) acquire = s.modQueue e q CmdQueue.grant := by simp [State.waitTally, hn]
  simp [State.tallyBody, hw, hg, State.modQueue_modQueue _ _ _ _ _ hne]

/-- A tally that nobody waits on keeps its count when it is served. -/
theorem State.serveTally_alone {s : State} (h : s.fab.waiters = []) (t : Nat) :
    s.serveTally t = s.setFab { s.fab with tally := tabSet 0 s.fab.tally t (tabGet 0 s.fab.tally t) } := by
  simp [State.serveTally, serveAcquires, h]

/-! ### A command that leaves tallies and waiters alone goes on -/

/-- The queue goes on to its next word: the store, the waiters and every count are as they were. -/
def GoesOn (s t : State) (e q : Nat) : Prop :=
  store t = store s ∧ t.fab.waiters = s.fab.waiters ∧ (∀ k, tabGet 0 t.fab.tally k = tabGet 0 s.fab.tally k) ∧
  (t.queue e q).wait = none ∧ (t.queue e q).next = (s.queue e q).next + 64

/-- What the body of a command leaves that changes nothing but its own queue, which still runs at the same place. -/
structure OwnQueueOnly (s b : State) (e q : Nat) : Prop where
  store : store b = store s
  waiters : b.fab.waiters = s.fab.waiters
  tally : b.fab.tally = s.fab.tally
  run : (b.queue e q).run = .running
  next : (b.queue e q).next = (s.queue e q).next
  granted : NoneGranted b

theorem onUnit_ownQueueOnly {s : State} {e q : Nat} (w : Nat) (hrun : (s.queue e q).run = .running) (hg : NoneGranted s) :
    OwnQueueOnly s (onUnit s e q w) e q where
  store := onUnit_store s e q w
  waiters := by rw [onUnit_fab]
  tally := by rw [onUnit_fab]
  run := by rw [onUnit_queue]; exact hrun
  next := by rw [onUnit_queue]
  granted := by unfold NoneGranted; rw [onUnit_fab]; exact hg

theorem OwnQueueOnly.modQueue {s b : State} {e q : Nat} (h : OwnQueueOnly s b e q) {f : CmdQueue → CmdQueue}
    (hrun : (f (b.queue e q)).run = (b.queue e q).run) (hnext : (f (b.queue e q)).next = (b.queue e q).next)
    (hg : (f (b.queue e q)).granted = false) : OwnQueueOnly s (b.modQueue e q f) e q where
  store := h.store
  waiters := h.waiters
  tally := h.tally
  run := by rw [State.queue_modQueue_same, hrun]; exact h.run
  next := by rw [State.queue_modQueue_same, hnext]; exact h.next
  granted := h.granted.modQueue hg

/-- A queue whose command's body left it at its place moves on, and no wait is left to settle. -/
theorem OwnQueueOnly.advance {s b : State} {e q : Nat} (h : OwnQueueOnly s b e q) (hs : s.err.sram = []) (c : Nat) :
    GoesOn s (b.advance c e q) e q ∧ NoneGranted (b.advance c e q) := by
  have hb : b.err.sram = [] := (flips_eq h.store).trans hs
  obtain ⟨f, hf, hfab⟩ := State.advance_fab hb h.run c
  have hqueue : (b.advance c e q).queue e q = f (b.queue e q) :=
    (State.queue_congr hfab e q).trans (State.queue_modQueue_same ..)
  refine ⟨⟨(State.advance_store hb c e q).trans h.store, ?_, fun k => ?_, ?_, ?_⟩, ?_⟩
  · rw [hfab]; exact h.waiters
  · rw [hfab]; exact congrArg (tabGet 0 · k) h.tally
  · rw [hqueue]; exact hf.wait
  · rw [hqueue, hf.next, CmdQueue.movedOn, h.next]
  · exact (h.granted.modQueue (hf.granted (h.granted.queue e q))).congr hfab

/-- A command without header release whose body changes nothing but its own queue goes on. -/
theorem State.runCommand_goesOn {s : State} {c e q w : Nat} (h : Runs s c e q w) (hrel : cRel w = false)
    {sel : Nat → Bool} (hs : sel w = true) {body : Nat → Nat → State → State × BodyEnd} {b : State}
    (hb : body c w (onUnit s e q w) = (b, .done)) (hown : OwnQueueOnly s b e q) :
    GoesOn s (s.runCommand e q sel body) e q := by
  obtain ⟨hgo, hng⟩ := hown.advance h.noFlips c
  rw [State.runCommand_done h hs hb (u := b) (by simp [hrel]), if_pos hown.run, hng.settleAll]
  exact hgo

/-! ### The four operations -/

/-- A TALLY_ACQUIRE or TALLY_WAIT of 0 goes on, whoever waits already. -/
theorem State.runCommand_tallyBody_zero {s : State} {c e q w : Nat} (h : Runs s c e q w) (hn : tlN w = 0)
    (hrel : cRel w = false) (hg : NoneGranted s) {sel : Nat → Bool} (hs : sel w = true) (acquire : Bool) :
    GoesOn s (s.runCommand e q sel (fun _ w s => s.tallyBody e q w acquire)) e q := by
  have hgrant := CmdQueue.grant_of_acquired h.acquired
  have hacq : ((onUnit s e q w).queue e q).acquired = true := by rw [onUnit_queue]; exact h.acquired
  refine State.runCommand_goesOn h hrel hs (State.tallyBody_zero hn hacq acquire)
    ((onUnit_ownQueueOnly w h.running hg).modQueue ?_ ?_ rfl)
  · rw [onUnit_queue, hgrant]
  · rw [onUnit_queue, hgrant]

/-- A TALLY_RELEASE of 0 goes on. -/
theorem State.runCommand_release_zero {s : State} {c e q w : Nat} (h : Runs s c e q w) (hn : tlN w = 0)
    (hrel : cRel w = false) (hg : NoneGranted s) {sel : Nat → Bool} (hs : sel w = true) :
    GoesOn s (s.runCommand e q sel (fun _ w s => (s.tallyAdd (tlT w) (tlN w), .done))) e q := by
  exact State.runCommand_goesOn h hrel hs (by rw [hn, State.tallyAdd_zero]) (onUnit_ownQueueOnly w h.running hg)

/-- A TALLY_POST of 0 changes nothing. -/
theorem execTallyPost_zero {s : State} (hg : NoneGranted s) (c k : Nat) : execTallyPost c k 0 s = .next s := by
  simp [execTallyPost, State.tallyAdd_zero, hg.settleAll]

/-- A TALLY_SET where nobody waits changes one count. -/
theorem execTallySet_alone {s : State} (hworks : s.works = true) {k : Nat} (hk : k < 16384) (hw : s.fab.waiters = [])
    (hg : NoneGranted s) (n : Nat) : ∃ t, execTallySet k n s = .next t ∧
      t = { s with fab := { s.fab with tally := t.fab.tally } } ∧
      ∀ j, tabGet 0 t.fab.tally j = if j = k then n % 65536 else tabGet 0 s.fab.tally j := by
  have hserve : (s.setFab { s.fab with tally := tabSet 0 s.fab.tally k (n % 65536) }).serveTally k
      = s.setFab { s.fab with tally := tabSet 0 (tabSet 0 s.fab.tally k (n % 65536)) k (n % 65536) } := by
    rw [State.serveTally_alone (by exact hw)]
    simp [State.setFab]
  have hng : NoneGranted (s.setFab { s.fab with tally := tabSet 0 (tabSet 0 s.fab.tally k (n % 65536)) k (n % 65536) }) := hg
  have hexec : execTallySet k n s
      = .next (s.setFab { s.fab with tally := tabSet 0 (tabSet 0 s.fab.tally k (n % 65536)) k (n % 65536) }) := by
    simp only [execTallySet, hworks, hk, decide_true, Bool.and_self, if_true]
    exact congrArg Host.Outcome.next ((congrArg State.settleAll hserve).trans hng.settleAll)
  refine ⟨_, hexec, rfl, fun j => ?_⟩
  by_cases hj : j = k
  · simp [hj]
  · simp [hj, tabGet_tabSet_other]

end Sys2Proof.Machine

namespace Sys2Proof.Proofs

open Sys2Proof.Machine Sys2Proof.Safety

/-- Settles O58 (R34): a command of 0 finds nothing to wait for or to add, so its queue moves on with every count and waiter
as it was, and a post or set of 0 gives no wait to settle. -/
theorem zeroOperationsCompleteAtOnce : Obligations.ZeroOperationsCompleteAtOnce := by
  unfold Obligations.ZeroOperationsCompleteAtOnce
  refine ⟨fun s c e q w h hop hn hrel hg => ⟨fun hsub => ?_, fun hsub => ?_, fun hsub => ?_⟩,
    fun s c k _ _ hg => execTallyPost_zero hg c k, fun s k hworks hk hw hg => execTallySet_alone hworks hk hw hg 0⟩
  · exact ⟨_, rfl, State.runCommand_tallyBody_zero h hn hrel hg (by simp [selOp2, hop, hsub]) true⟩
  · exact ⟨_, rfl, State.runCommand_tallyBody_zero h hn hrel hg (by simp [selOp2, hop, hsub]) false⟩
  · exact ⟨_, rfl, State.runCommand_release_zero h hn hrel hg (by simp [selOp2, hop, hsub])⟩

end Sys2Proof.Proofs
end

