-- ==== Sys2Proof/Proofs/PortRules.lean ====
section
/-! SUPPORT. Proofs/PortRules.lean: what a change of a port gives, what FEED_HOLD leaves of the ports, what the answer of
waiting requests leaves, and how a capture ends. -/

namespace Sys2Proof.Machine

/-! ### Changes of a port -/

@[simp] theorem State.port_putPort_same (s : State) (n : Nat) (q : Port) : (s.putPort n q).port n = q := by
  simp [State.port, State.putPort, tabGet]

theorem State.port_putPort_other (s : State) {n m : Nat} (q : Port) (h : m ≠ n) : (s.putPort n q).port m = s.port m := by
  simp [State.port, State.putPort, tabGet, tabFind_tabPut_other _ _ h]

theorem State.putPort_putPort (s : State) (n : Nat) (q r : Port) : (s.putPort n q).putPort n r = s.putPort n r :=
  congrArg s.setPorts (tabPut_tabPut ..)

/-! ### FEED_HOLD (R273) -/

/-- `r` is `q` but for its FEED_HOLD, the hysteresis behind it, and its counters. -/
def Port.SameButHold (q r : Port) : Prop :=
  r = { q with occHigh := r.occHigh, feedHold := r.feedHold, counters := r.counters }

theorem Port.SameButHold.st {q r : Port} (h : q.SameButHold r) : r.st = q.st := by rw [h]

theorem Port.SameButHold.page {q r : Port} (h : q.SameButHold r) : r.page = q.page := by rw [h]

/-- What `SameButHold` leaves open may take any value. -/
theorem Port.SameButHold.update {q r : Port} (h : q.SameButHold r) (high : Bool) (hold : Option Bool) (counters : Tab Nat) :
    q.SameButHold { r with occHigh := high, feedHold := hold, counters := counters } := by
  unfold Port.SameButHold
  rw [h]

theorem Port.SameButHold.hysteresis {q r : Port} (h : q.SameButHold r) : q.SameButHold r.hysteresis := by
  unfold Port.hysteresis
  split
  · exact h.update false ..
  · split
    · exact h.update true ..
    · split
      · exact h.update false ..
      · exact h

/-- Two states whose ports are the same but for FEED_HOLD. -/
def PortsHeld (s t : State) : Prop := ∀ m, (s.port m).SameButHold (t.port m)

theorem PortsHeld.refl (s : State) : PortsHeld s s := fun _ => rfl

theorem PortsHeld.putPort {s t : State} (h : PortsHeld s t) {n : Nat} {q : Port} (hq : (s.port n).SameButHold q) :
    PortsHeld s (t.putPort n q) := by
  intro m
  by_cases hm : m = n
  · subst hm; rw [State.port_putPort_same]; exact hq
  · rw [State.port_putPort_other _ _ hm]; exact h m

theorem PortsHeld.countPort {s t : State} (h : PortsHeld s t) (n code k : Nat) : PortsHeld s (t.countPort n code k) :=
  h.putPort ((h n).update ..)

/-- Firmware drives the FEED_HOLD of port `n`. -/
def State.driveHold (s : State) (n : Nat) : State :=
  let p := (tabGet {} s.ports n).hysteresis
  let force := match p.cfg with | some c => bit c.hdr 25 | none => false
  let lvl := p.occHigh || force || 16128 ≤ s.outCount || p.st = .off || s.supplyHold
  let s1 := s.setPorts (tabPut s.ports n { p with feedHold := some lvl })
  if p.feedHold = some lvl then s1
  else
    let s2 := s1.emit (.feedHold n lvl)
    if lvl then s2.countPort n 0x58 1 else s2

theorem State.feedHolds_eq (s : State) :
    s.feedHolds = if !s.works then s else (List.range 4).foldl State.driveHold s := rfl

theorem PortsHeld.driveHold {s r : State} (h : PortsHeld s r) (n : Nat) : PortsHeld s (r.driveHold n) := by
  have hp : (s.port n).SameButHold (r.port n).hysteresis := (h n).hysteresis
  have hput : ∀ hold, PortsHeld s (r.putPort n { (r.port n).hysteresis with feedHold := hold }) :=
    fun hold => h.putPort (hp.update _ hold _)
  unfold State.driveHold
  extract_lets p _ level r1 r2
  have h1 : PortsHeld s r1 := hput (some level)
  split
  · exact h1
  · split
    · exact PortsHeld.countPort (t := r2) h1 n 0x58 1
    · exact h1

/-- Driving FEED_HOLD leaves every port as it is in all else. -/
theorem State.feedHolds_ports (s : State) : PortsHeld s s.feedHolds := by
  have hfold : ∀ (l : List Nat) (r : State), PortsHeld s r → PortsHeld s (l.foldl State.driveHold r) := by
    intro l
    induction l with
    | nil => exact fun r h => h
    | cons n l ih => exact fun r h => ih _ (h.driveHold n)
  rw [State.feedHolds_eq]
  split
  · exact PortsHeld.refl s
  · exact hfold _ s (PortsHeld.refl s)

/-! ### Requests that wait for their answer (R376) -/

theorem mem_insertReady (m : OutMsg) (l : List OutMsg) : m ∈ insertReady m l := by
  induction l with
  | nil => exact List.mem_singleton_self m
  | cons x r ih =>
    unfold insertReady
    split
    · exact List.mem_cons_self ..
    · exact List.mem_cons_of_mem _ ih

/-- Where one taken request meets the condition, it alone is answered. -/
theorem State.answerAll_one {s : State} {p : Request → Bool} {r : Request} (h : s.mbox.taken.filter p = [r]) (st : Nat) :
    s.answerAll p st = s.answer r st [] := by
  simp [State.answerAll, h]

/-- An answer changes the mailboxes alone. -/
theorem State.port_answer (s : State) (r : Request) (st : Nat) (pl : Bytes) (m : Nat) :
    (s.answer r st pl).port m = s.port m := by
  unfold State.answer State.reply
  dsimp only
  split <;> rfl

/-- The answer of the only taken request leaves none, and its reply is ready on its channel. -/
theorem State.answer_only {s : State} {r : Request} (h : s.mbox.taken = [r]) (st : Nat) (pl : Bytes) :
    (s.answer r st pl).mbox.taken = [] ∧
    ∃ m ∈ tabGet [] (s.answer r st pl).mbox.ready r.ch, m.reply = true ∧ m.seq = r.seq ∧ m.opcode = r.opcode ∧ m.status = st := by
  simp only [State.answer, State.reply, h, List.any_cons, beq_self_eq_true, Bool.and_self, Bool.true_or, if_true,
    State.setMbox_mbox, tabMod, tabGet_tabSet_same, Bool.not_true, Bool.false_eq_true, not_false_eq_true,
    List.filter_cons_of_neg, List.filter_nil]
  exact ⟨trivial, _, mem_insertReady .., rfl, rfl, rfl, rfl⟩

/-! ### The end of a capture (R267) -/

/-- A port whose capture has ended. -/
def Port.captureOver (q : Port) : Port :=
  { q.dropTokens with st := .armed, stopReq := none, paperRun := 0, plainRun := 0, idle := 0 }

/-- A taken CAPTURE_STOP of port `n`. -/
def stopsPort (n : Nat) (r : Request) : Bool := r.opcode == 0x0053 && fld (leNat r.payload) 1 0 == n

/-- A capture that no command stops ends without an answer. -/
theorem State.endCapture_unasked {s : State} {n : Nat} (h : (s.port n).stopReq = none) :
    s.endCapture n = s.putPort n (s.port n).captureOver := by
  simp [State.endCapture, h, Port.captureOver]

/-- A capture that one command stops ends with that command's answer. -/
theorem State.endCapture_asked {s : State} {n : Nat} {r : Request} (h : (s.port n).stopReq.isSome = true)
    (hr : s.mbox.taken.filter (stopsPort n) = [r]) :
    s.endCapture n = (s.putPort n (s.port n).captureOver).answer r stOK [] := by
  have hone := State.answerAll_one (s := s.putPort n (s.port n).captureOver) hr stOK
  rw [← hone]
  simp only [State.endCapture, h, if_true]
  rfl

end Sys2Proof.Machine
end

