-- ==== Sys2Proof/Proofs/LeftJustified.lean ====
section
/-! PROOF. Proofs/LeftJustified.lean: the samples that a port takes from a frame (R251, R252, R261). -/

namespace Sys2Proof.Machine

/-! ### Left-justified samples -/

/-- The top `b` bits of a 16-bit word where they stand, with zero below. -/
def leftJustify (b w : Nat) : Nat := w / 2 ^ (16 - b) * 2 ^ (16 - b)

theorem leftJustify_le (b w : Nat) : leftJustify b w ≤ w := Nat.div_mul_le_self ..

theorem testBit_leftJustify (b w i : Nat) : (leftJustify b w).testBit i = (decide (16 - b ≤ i) && w.testBit i) := by
  rw [leftJustify, Nat.testBit_mul_two_pow, Nat.testBit_div_two_pow]
  by_cases h : 16 - b ≤ i
  · simp [h]
  · simp [h]

/-! ### A frame in a locked port -/

/-- The one lane of a frame gives its pixel the left-justified sample. -/
theorem tabGet_takeFrame_oneLane {c : PortCfg} {f col x : Nat} (hlane : c.lanes = 1)
    (hmap : mapPixel (c.entry ((f - c.offset) % c.mux) 0) ((f - c.offset) / c.mux) = some (col, (x : Int)))
    (w : W16) (ws : List W16) :
    tabGet 0 (takeFrame c f (w :: ws) []) (col * 2 ^ 14 + x) = leftJustify c.afeBits w.toNat := by
  have htake : takeFrame c f (w :: ws) [] = if leftJustify c.afeBits w.toNat = 0 then []
      else tabPut [] (col * 2 ^ 14 + x) (leftJustify c.afeBits w.toNat) := by
    simp only [takeFrame, hlane, List.range_one, List.foldl_cons, List.foldl_nil, hmap]
    rfl
  rw [htake]
  split
  case isTrue h => rw [h]; rfl
  case isFalse => simp [tabGet]

/-- The line of a port after frame `f` of a locked link. -/
def RawLine.withFrame (l : RawLine) (c : PortCfg) (f : Nat) (words : List W16) : RawLine :=
  { l with samples := takeFrame c f words l.samples }

/-- A locked port after a frame: its line, `l` now, goes on, or has had its last frame and is done at time `now` (R252). -/
def Port.tookFrame (q : Port) (c : PortCfg) (l : RawLine) (now : Nat) : Port :=
  if c.offset + c.groups * c.mux ≤ q.frame + 1 then
    { q with frame := q.frame + 1, cur := none, done := q.done ++ [{ l with fin := now }] }
  else { q with frame := q.frame + 1, cur := some l }

/-- The line of the frame goes on or is done, with its samples. -/
theorem Port.tookFrame_line (q : Port) (c : PortCfg) (l : RawLine) (now : Nat) :
    ∃ r : RawLine, r.samples = l.samples ∧
      ((q.tookFrame c l now).cur = some r ∨ (q.tookFrame c l now).done = q.done ++ [r]) := by
  unfold Port.tookFrame
  split
  · exact ⟨{ l with fin := now }, rfl, .inr rfl⟩
  · exact ⟨l, rfl, .inl rfl⟩

/-- A frame of a locked port, past the offset of the line's first sample. -/
theorem execAfeFrame_locked {s : State} {n : Nat} {c : PortCfg} {l : RawLine} (hlive : s.portLive n = true)
    (hlock : (s.port n).locked = true) (hcfg : (s.port n).cfg = some c) (hcur : (s.port n).cur = some l)
    (hoff : c.offset ≤ (s.port n).frame) (words : List W16) :
    execAfeFrame n true words s = .next (s.putPort n
      ((s.port n).tookFrame c (l.withFrame c (s.port n).frame words) s.clk.time)) := by
  simp only [execAfeFrame, hlive, hlock, hcfg, hcur, Nat.not_lt.mpr hoff, Port.tookFrame, apply_ite (s.putPort n),
    Bool.not_true, Bool.and_false, Bool.false_eq_true, if_true, if_false]
  rfl

/-! ### Correction (R261) -/

theorem correctSample_lt (x d g : Nat) : correctSample x d g < 2 ^ 16 := by
  unfold correctSample
  split
  · decide
  · exact Nat.lt_of_le_of_lt (Nat.min_le_left ..) (by decide)

end Sys2Proof.Machine

namespace Sys2Proof.Proofs

open Sys2Proof.Machine

/-- Settles O59 (R251): the frame leaves in the line the top afe_bits bits of the lane's word, where they stand, and every
corrected sample is cut off at 65,535. -/
theorem samplesAreLeftJustified : Obligations.SamplesAreLeftJustified := by
  unfold Obligations.SamplesAreLeftJustified
  refine ⟨fun s n f x col w ws c l hlive hlock hcfg hcur hf hoff hlane _ hmap hempty => ?_, correctSample_lt⟩
  subst hf
  have hexec := execAfeFrame_locked hlive hlock hcfg hcur hoff (w :: ws)
  obtain ⟨r, hr, hline⟩ := Port.tookFrame_line (s.port n) c (l.withFrame c (s.port n).frame (w :: ws)) s.clk.time
  have hv : tabGet 0 r.samples (col * 2 ^ 14 + x) = leftJustify c.afeBits w.toNat := by
    rw [hr, RawLine.withFrame, hempty, tabGet_takeFrame_oneLane hlane hmap]
  refine ⟨_, r, leftJustify c.afeBits w.toNat, hexec, rfl, ?_, hv.symm, ?_, fun i hi => ?_, fun i hi => ?_⟩
  · rw [State.port_putPort_same]; exact hline
  · exact Nat.lt_of_le_of_lt (leftJustify_le ..) w.isLt
  · simp [testBit_leftJustify, hi]
  · simp [testBit_leftJustify, Nat.not_le.mpr hi]

end Sys2Proof.Proofs
end

