-- ==== Sys2Proof/Proofs/CapturesEnd.lean ====
section
/-! PROOF. Proofs/CapturesEnd.lean: when a capture ends, and the stop command's answer (R267). -/

namespace Sys2Proof.Machine

open Sys2Proof.Safety

/-! ### idle_lines without paper -/

theorem execCaptureIdleEnd_ends {s : State} {n : Nat} {c : PortCfg} (hlive : s.portLive n = true)
    (hcfg : (s.port n).cfg = some c) (hst : (s.port n).st = .capturing) (hpage : (s.port n).page = none)
    (hlead : (s.port n).edges.any Edge.isLead = false) (hidle : c.idle ≤ (s.port n).idle) :
    execCaptureIdleEnd n s = .next (s.endCapture n) := by
  simp [execCaptureIdleEnd, hcfg, hlive, hst, hpage, hlead, hidle]

theorem execCaptureIdleEnd_early {s : State} {n : Nat} {c : PortCfg} (hcfg : (s.port n).cfg = some c)
    (hidle : (s.port n).idle < c.idle) : execCaptureIdleEnd n s = .next s := by
  simp [execCaptureIdleEnd, hcfg, Nat.not_le.mpr hidle]

/-! ### The stop command -/

/-- The channel's session has port `n`, under the running context `k`. -/
structure RunsPort (s : State) (ch n : Nat) (k : Ctx) : Prop where
  bound : ∃ c, (s.port n).ctx = some c ∧ s.ctx? c = some k
  session : k.session = ch
  torn : k.tearMode ≠ 3
  running : k.st = .running

theorem RunsPort.ownsPort {s : State} {ch n : Nat} {k : Ctx} (h : RunsPort s ch n k) : s.ownsPort ch n = true := by
  obtain ⟨c, hc, hk⟩ := h.bound
  simp [State.ownsPort, State.ownsCtx, hc, hk, h.session, h.torn]

/-- A command about the port of a running context need not be answered at once. -/
theorem RunsPort.deferOk {s : State} {ch n : Nat} {k : Ctx} (h : RunsPort s ch n k) {r : Request}
    (hr : r.ctx = (s.port n).ctx) : s.deferOk r = true := by
  obtain ⟨c, hc, hk⟩ := h.bound
  simp [State.deferOk, hr, hc, hk, h.running]

/-- A payload that holds a port number, and nothing else. -/
theorem pf_port {p : Bytes} {n : Nat} (hp : leNat p = n) (hn : n < 4) : pf p 1 0 = n := by
  simp [pf, fld, hp, Nat.mod_eq_of_lt hn]

theorem pBits_port {p : Bytes} {n : Nat} (hp : leNat p = n) (hn : n < 4) : pBits [(1, 0)] p = true := by
  simp [pBits, onlyBits, fld, hp, Nat.mod_eq_of_lt hn]

/-- What CAPTURE_STOP does with a request that has been taken. -/
def State.stopPort (s : State) (ch : Nat) (r : Request) : State :=
  let n := pf r.payload 1 0
  let q := s.port n
  if !s.deferOk r then s.defer r
  else if q.st != .capturing then s.answer r stOK []
  else
    let s := s.putPort n { q with stopReq := some (ch, r.seq) }
    if q.page.isSome then s else (s.endCapture n).feedHolds

theorem execCaptureStop_eq (ch : Nat) (s : State) : execCaptureStop ch s =
    .next (s.onMsg ch 0x53 anySel portCtx ownPort (pBits [(1, 0)]) (fun s r => s.stopPort ch r)) := rfl

/-- A CAPTURING port notes the request, and its capture ends at once where no page is open. -/
theorem State.stopPort_capturing {s : State} {ch n : Nat} {r : Request} (hpf : pf r.payload 1 0 = n)
    (hdefer : s.deferOk r = true) (hst : (s.port n).st = .capturing) :
    s.stopPort ch r =
      if (s.port n).page.isSome then s.putPort n { s.port n with stopReq := some (ch, r.seq) }
      else ((s.putPort n { s.port n with stopReq := some (ch, r.seq) }).endCapture n).feedHolds := by
  subst hpf
  simp [State.stopPort, hdefer, hst]

/-- The state in which the stop command of a CAPTURING port waits for the end of the page. -/
def stopWaits (s : State) (ch seq n : Nat) (p : Bytes) : State :=
  (deferred s ch seq 0x53 p (s.port n).ctx).putPort n { s.port n with stopReq := some (ch, seq) }

/-- The stop command of a CAPTURING port waits where a page is open, and ends the capture where none is. -/
theorem execCaptureStop_capturing {s : State} {ch n : Nat} {p : Bytes} {x : Session} {k : Ctx} (h : Asks s ch 0x53 p x)
    (hp : leNat p = n) (hn : n < 4) (hrun : RunsPort s ch n k) (hst : (s.port n).st = .capturing) :
    execCaptureStop ch s = .next
      (if (s.port n).page.isSome then stopWaits s ch x.nextSeq n p
       else ((stopWaits s ch x.nextSeq n p).endCapture n).feedHolds) := by
  have hpf := pf_port hp hn
  have hown : ownPort (asked s ch) ch p = true := by rw [ownPort, hpf]; exact hrun.ownsPort
  have hctx : portCtx (asked s ch) p = (s.port n).ctx := by rw [portCtx, hpf]; rfl
  rw [execCaptureStop_eq, State.onMsg_asks h anySel portCtx ownPort _ _ rfl hown (pBits_port hp hn), hctx]
  exact congrArg Host.Outcome.next
    (State.stopPort_capturing (s := deferred s ch x.nextSeq 0x53 p (s.port n).ctx) hpf (hrun.deferOk rfl) hst)

/-- A request about port `n` that waits alone among stop commands. -/
theorem filter_stopsPort {s : State} {ch seq n : Nat} {p : Bytes} (hp : leNat p = n) (hn : n < 4)
    (hothers : ∀ r ∈ s.mbox.taken, r.opcode ≠ 0x53) :
    (stopWaits s ch seq n p).mbox.taken.filter (stopsPort n)
      = [{ ch := ch, seq := seq, opcode := 0x53, payload := p, ctx := (s.port n).ctx }] := by
  have hpf : fld (leNat p) 1 0 = n := pf_port hp hn
  have hnone : s.mbox.taken.filter (stopsPort n) = [] := by
    simp only [List.filter_eq_nil_iff, stopsPort, Bool.and_eq_true, beq_iff_eq]
    exact fun a ha ⟨hop, _⟩ => hothers a ha hop
  show (s.mbox.taken ++ [_]).filter (stopsPort n) = _
  simp [List.filter_append, hnone, stopsPort, hpf]

/-- The end of the capture answers the stop command, the only one that waits. -/
theorem stopWaits_endCapture {s : State} {ch seq n : Nat} {p : Bytes} (hp : leNat p = n) (hn : n < 4)
    (hothers : ∀ r ∈ s.mbox.taken, r.opcode ≠ 0x53) :
    (stopWaits s ch seq n p).endCapture n
      = { replied s ch seq 0x53 stOK [] with ports := (s.putPort n (s.port n).captureOver).ports } := by
  have hown : (stopWaits s ch seq n p).port n = { s.port n with stopReq := some (ch, seq) } := State.port_putPort_same ..
  have hstop : ((stopWaits s ch seq n p).port n).stopReq.isSome = true := by rw [hown]; rfl
  rw [State.endCapture_asked hstop (filter_stopsPort hp hn hothers), hown, stopWaits, State.putPort_putPort]
  exact reply_begun { asked s ch with ports := (s.putPort n (s.port n).captureOver).ports } _ stOK []

/-- With no page open, the stop command ends the capture at once and is answered. -/
theorem execCaptureStop_ends {s : State} {ch n : Nat} {p : Bytes} {x : Session} {k : Ctx} (h : Asks s ch 0x53 p x)
    (hp : leNat p = n) (hn : n < 4) (hrun : RunsPort s ch n k) (hst : (s.port n).st = .capturing)
    (hpage : (s.port n).page = none) (hothers : ∀ r ∈ s.mbox.taken, r.opcode ≠ 0x53) :
    execCaptureStop ch s = .next ({ replied s ch x.nextSeq 0x53 stOK [] with
      ports := (s.putPort n (s.port n).captureOver).ports } : State).feedHolds := by
  rw [execCaptureStop_capturing h hp hn hrun hst, hpage, stopWaits_endCapture hp hn hothers]
  rfl

/-! ### The end of the open page -/

/-- A port whose open page `g` has ended at line `e`. -/
def Port.pageOver (q : Port) (g : Page) (e : Nat) : Port :=
  { q with page := none, pages := q.pages ++ [{ g with ended := some e }], afterPage := e + 1, idle := 0 }

theorem execPageEnd_ends {s : State} {n t e : Nat} {g : Page} (hlive : s.portLive n = true) (hpage : (s.port n).page = some g)
    (htrail : g.trail = some (t, e)) (he : e ≤ (s.port n).lastNo) (hcap : g.capLine = none) :
    execPageEnd n s = .next ((s.putPort n ((s.port n).pageOver g e)).afterPageEnd n) := by
  simp [execPageEnd, hpage, htrail, hlive, he, hcap, Port.pageOver]

/-- After the end of a page under a running context, where no record waits, a stop request ends the capture. -/
theorem State.afterPageEnd_stopped {s : State} {n l : Nat} {k : Ctx} {q : Port} (hnew : q.newCfg = none) (hctx : q.ctx = some l)
    (hk : s.ctx? l = some k) (hrun : k.st = .running) (hstop : q.stopReq.isSome = true) :
    (s.putPort n q).afterPageEnd n = ((s.putPort n q).endCapture n).feedHolds := by
  have hk' : (s.putPort n q).ctx? l = some k := hk
  have hst : (s.putPort n q).ctxState l = .running := by simp [State.ctxState, hk', hrun]
  simp [State.afterPageEnd, hnew, hctx, hk', hst, hstop]

/-- The end of a page, where the one request that waits is the port's stop command: the capture ends, and the request is
answered. -/
theorem execPageEnd_stopped {s : State} {n l t e : Nat} {g : Page} {k : Ctx} {r : Request} (hlive : s.portLive n = true)
    (hpage : (s.port n).page = some g) (htrail : g.trail = some (t, e)) (he : e ≤ (s.port n).lastNo) (hcap : g.capLine = none)
    (hctx : (s.port n).ctx = some l) (hk : s.ctx? l = some k) (hrun : k.st = .running) (hnew : (s.port n).newCfg = none)
    (htaken : s.mbox.taken = [r]) (hr : stopsPort n r = true) (hstop : (s.port n).stopReq.isSome = true) :
    execPageEnd n s =
      .next ((s.putPort n ((s.port n).pageOver g e).captureOver).answer r stOK []).feedHolds := by
  have hfilter : (s.putPort n ((s.port n).pageOver g e)).mbox.taken.filter (stopsPort n) = [r] := by
    show s.mbox.taken.filter _ = _
    simp [htaken, hr]
  have hasked : ((s.putPort n ((s.port n).pageOver g e)).port n).stopReq.isSome = true := by
    rw [State.port_putPort_same]; exact hstop
  rw [execPageEnd_ends hlive hpage htrail he hcap,
    State.afterPageEnd_stopped (q := (s.port n).pageOver g e) hnew hctx hk hrun hstop,
    State.endCapture_asked hasked hfilter, State.port_putPort_same, State.putPort_putPort]

end Sys2Proof.Machine

namespace Sys2Proof.Proofs

open Sys2Proof.Machine Sys2Proof.Safety

/-- Settles O60 (R267): each of the three ways ends in the same end of the capture, which FEED_HOLD leaves as it is, and which
answers the stop command where one waits. -/
theorem capturesEnd : Obligations.CapturesEnd := by
  unfold Obligations.CapturesEnd
  refine ⟨fun s n c hlive hcfg hst hpage hstop => ⟨fun hidle hlead => ?_, fun hidle => execCaptureIdleEnd_early hcfg hidle⟩,
    fun s ch n p x k hask hp hn hown hrun hst => ?_,
    fun s n l e z g k r hlive hpage htrail hz hcap hctx hk hrun hnew htaken hop hport hstop => ?_⟩
  · refine ⟨_, execCaptureIdleEnd_ends hlive hcfg hst hpage hlead hidle, ?_⟩
    rw [State.endCapture_unasked hstop]
    exact ⟨by rw [State.port_putPort_same]; rfl, rfl, fun m hm => State.port_putPort_other _ _ hm⟩
  · obtain ⟨c, hc, hk, hses, htear⟩ := hown
    have hport : RunsPort s ch n k := ⟨⟨c, hc, hk⟩, hses, htear, hrun⟩
    refine ⟨fun hpage hothers => ⟨_, execCaptureStop_ends hask hp hn hport hst hpage hothers, ?_, ?_⟩, fun g hpage => ?_⟩
    · exact (State.feedHolds_ports _ n).st.trans (congrArg Port.st (State.port_putPort_same s n (s.port n).captureOver))
    · obtain ⟨ports, out, hshape⟩ := State.feedHolds_shape
        { replied s ch x.nextSeq 0x53 stOK [] with ports := (s.putPort n (s.port n).captureOver).ports }
      rw [hshape]
    · have hexec := execCaptureStop_capturing hask hp hn hport hst
      rw [hpage] at hexec
      exact hexec
  · have hexec := execPageEnd_stopped hlive hpage htrail hz hcap hctx hk hrun hnew htaken (by simp [stopsPort, hop, hport])
      (congrArg Option.isSome hstop)
    let u := s.putPort n ((s.port n).pageOver g z).captureOver
    have hu : (u.answer r stOK []).port n = ((s.port n).pageOver g z).captureOver :=
      (State.port_answer ..).trans (State.port_putPort_same ..)
    have hheld := State.feedHolds_ports (u.answer r stOK []) n
    obtain ⟨hnone, hreply⟩ := State.answer_only (s := u) htaken stOK []
    refine ⟨_, hexec, hheld.st.trans (congrArg Port.st hu), hheld.page.trans (congrArg Port.page hu), ?_, ?_⟩
    · rw [State.feedHolds_frame_mbox]; exact hnone
    · rw [State.feedHolds_frame_mbox, ← hop]; exact hreply

end Sys2Proof.Proofs
end
